-- ==== Sys2Proof/Word.lean ====
section
/-! DEFINITION. The word types of the Taravo T9: lane registers, group registers, bytes, instruction words. -/
namespace Sys2Proof

/-- A byte of any memory of the module. -/
abbrev Byte := BitVec 8
/-- A v register of one lane (R103). -/
abbrev VReg := BitVec 32
/-- A g register, a temporary, a system register (R104, R106). -/
abbrev GReg := BitVec 64

end Sys2Proof
end

