-- ==== Sys2Proof/Syntax.lean ====
section
/-! DEFINITION. The syntax of Gnozen: operands (R71), the five families (R64-R69) with their fields as the spec names
them, and one constructor per row of the opcode table, the module's events among them. -/
namespace Sys2Proof

/-- Type codes of R70, in code order. -/
inductive Ty where
  | i8 | i16 | i32 | i64 | n8 | n16 | n32 | n64 | f64 | f32 | f16 | bf16 | e4m3 | e5m2 | e2m1 | gq4
deriving DecidableEq, Repr, Inhabited

/-- Special registers of R72, in index order. -/
inductive Special where
  | lane | vlane | group | cellx | celly | cellz | stage | nstage | world | ncellres | clk
deriving DecidableEq, Repr, Inhabited

/-- A source operand (R71): v, g with their mode bit, special register, temporary, queue pop, immediate. -/
inductive Src where
  | v (i : BitVec 8) (trap : Bool)
  | g (i : BitVec 7) (trap : Bool)
  | sp (r : Special)
  | t (i : BitVec 3)
  | q (i : BitVec 3)
  | imm (b : BitVec 8)
deriving DecidableEq, Repr, Inhabited

/-- A destination operand (R71); a queue destination is illegal for every group. -/
inductive Dst where
  | v (i : BitVec 8)
  | g (i : BitVec 7)
  | t (i : BitVec 3)
deriving DecidableEq, Repr, Inhabited

/-- Guard predicate and sense (R64). -/
structure Guard where
  p : BitVec 4
  neg : Bool
deriving DecidableEq, Repr, Inhabited

/-- Scope codes of R66, in code order. -/
inductive Scope where
  | plain | grp | cell | die | dev | sys | rcv | auto
deriving DecidableEq, Repr, Inhabited

/-- Order codes of R66. -/
inductive Order where
  | rlx | acq | rel | ar
deriving DecidableEq, Repr, Inhabited

/-- The A family (R65). `m` is the immediate or modifier word. An unused operand field is `v 0` in block mode. -/
structure AOp where
  gd : Guard
  variant : BitVec 4
  ty : Ty
  d : Dst
  a : Src
  b : Src
  c : Src
  m : BitVec 32
deriving DecidableEq, Repr, Inhabited

/-- The M family (R66). `base` is none for a base of zero (code 127). -/
structure MOp where
  gd : Guard
  variant : BitVec 4
  ty : Ty
  data : Dst
  index : Src
  base : Option (BitVec 7)
  scope : Scope
  order : Order
  res : BitVec 4
  hint : BitVec 3
  shift : BitVec 3
  off : BitVec 32
deriving DecidableEq, Repr, Inhabited

/-- The B family (R67). -/
structure BOp where
  gd : Guard
  sub : BitVec 8
  link : Dst
  a : Src
  prio : BitVec 6
  aux : BitVec 16
  line : BitVec 29
  slot : BitVec 3
deriving DecidableEq, Repr, Inhabited

/-- The X family (R68). -/
structure XOp where
  gd : Guard
  sub : BitVec 8
  dest : Dst
  record : BitVec 7
  coord : Src
  bar : BitVec 4
  report : BitVec 3
  count : BitVec 8
  imm : BitVec 24
  granule : BitVec 8
deriving DecidableEq, Repr, Inhabited

/-- The S family (R69). -/
structure SOp where
  gd : Guard
  sub : BitVec 8
  dest : Dst
  a : Src
  sysreg : BitVec 12
  imm : BitVec 32
deriving DecidableEq, Repr, Inhabited

/-- What one advance of a cell's underdrawing engine does (R400, R46): a push of a walk, or an access of the sketch
context (which the model takes as an input: log 45). -/
inductive WalkAct where
  | push (walk : Nat)
  | sketchDiscard
  | sketchPrefetch (va : BitVec 57)
deriving DecidableEq, Repr, Inhabited

/-- A cache whose line an eviction takes (R148). -/
inductive CacheUnit where
  | l1 (studio : Nat)
  | ro (studio : Nat)
  | icache (studio : Nat)
  | l2
  | replica (slice : Nat)
deriving DecidableEq, Repr, Inhabited

/-- A leaf of the page tables where it stands, or of a large one the piece of its 512 that alone is meant (R154,
R159). -/
structure LeafPlace where
  addr : Nat
  part : Option Nat
deriving DecidableEq, Repr, Inhabited

/-- What becomes of a page as its migration ends (R154, R380): absent, resident in its frame, or moved to another. -/
inductive PageFate where
  | absent
  | stays
  | moved (frame : Nat)
deriving DecidableEq, Repr, Inhabited

/-- A unit that reports errors and is tested (R430, R444). -/
inductive ErrUnit where
  | studio (k : Nat)
  | slice (k : Nat)
  | channel (k : Nat)
  | lane (k : Nat)
deriving DecidableEq, Repr, Inhabited

/-- State a soft error may alter (R277, R439): one bit of a tile's words, or a line made unreadable. -/
inductive SoftTarget where
  | tileBit (cell tile word bit : Nat)
  | memLine (line : Nat)
  | codeLine (studio line bit : Nat)
deriving DecidableEq, Repr, Inhabited

/-- What a module reset brings from outside (R457): the bytes written to the module flash since the last one, each at its offset; where in
the region of the supervisor's and the launch controller's images the second of them begins; the digests by which the supervisor extends
registers MEAS3 to MEAS7; the size in bytes it sets for each die's Gesso journal (R167). -/
structure Boot where
  flash : List (Nat × List (BitVec 8))
  second : Nat
  more : List (Nat × List (BitVec 8))
  journal : Nat
deriving DecidableEq, Repr, Inhabited

/-- The launch controller's choices at one admission (R29, R166, R428, R437): the cell takes this per-thread base,
this trap-frame address for group 0 (the next groups' frames follow at 64 bytes), and is shadowed or not. -/
structure Placement where
  ticket : BitVec 64
  ptbase : BitVec 57
  trapsave : BitVec 57
  shadow : Bool
deriving DecidableEq, Repr, Inhabited

/-- A task queue descriptor as the supervisor sets it (R375). -/
structure QInit where
  base : BitVec 57
  en : Bool
  dev : Bool
  n : BitVec 5
deriving DecidableEq, Repr, Inhabited

/-- What the supervisor sets for a new context (R145, R341, R375, R437, R446); `qtab` is the physical address of its queue
descriptor table. -/
structure CtxInit where
  ctx : Nat
  root : BitVec 52
  trapvec : BitVec 64
  crown : BitVec 12
  crownQuota : BitVec 32
  arwin : BitVec 57
  arwinLen : BitVec 57
  shadowRate : BitVec 5
  system : Bool
  qtab : BitVec 52
  queues : List QInit
deriving DecidableEq, Repr, Inhabited

/-- One constructor per row of the opcode table: the instructions, then the module's events. -/
inductive Instr where
  /-- `NOP` (R79). -/
  | nop (o : AOp)
  /-- `MOV` (R114). -/
  | mov (o : AOp)
  /-- `MOVI` (R114). -/
  | movi (o : AOp)
  /-- `MOVW` (R114). -/
  | movw (o : AOp)
  /-- `ADD` (R115). -/
  | add (o : AOp)
  /-- `SUB` (R115). -/
  | sub (o : AOp)
  /-- `ADDC` (R116). -/
  | addc (o : AOp)
  /-- `SUBB` (R116). -/
  | subb (o : AOp)
  /-- `MUL` (R115). -/
  | mul (o : AOp)
  /-- `MULHI` (R115). -/
  | mulhi (o : AOp)
  /-- `MAD` (R115). -/
  | mad (o : AOp)
  /-- `SAD` (R115). -/
  | sad (o : AOp)
  /-- `NEG` (R115). -/
  | neg (o : AOp)
  /-- `ABS` (R115). -/
  | abs (o : AOp)
  /-- `MIN` (R115). -/
  | min (o : AOp)
  /-- `MAX` (R115). -/
  | max (o : AOp)
  /-- `CLAMP` (R115). -/
  | clamp (o : AOp)
  /-- `AND` (R118). -/
  | and (o : AOp)
  /-- `OR` (R118). -/
  | or (o : AOp)
  /-- `XOR` (R118). -/
  | xor (o : AOp)
  /-- `ANDN` (R118). -/
  | andn (o : AOp)
  /-- `NOT` (R118). -/
  | not (o : AOp)
  /-- `SHL` (R119). -/
  | shl (o : AOp)
  /-- `SHR` (R119). -/
  | shr (o : AOp)
  /-- `SAR` (R119). -/
  | sar (o : AOp)
  /-- `ROL` (R119). -/
  | rol (o : AOp)
  /-- `BFX` (R120). -/
  | bfx (o : AOp)
  /-- `BFI` (R120). -/
  | bfi (o : AOp)
  /-- `BREV` (R121). -/
  | brev (o : AOp)
  /-- `POPC` (R121). -/
  | popc (o : AOp)
  /-- `CLZ` (R121). -/
  | clz (o : AOp)
  /-- `CTZ` (R121). -/
  | ctz (o : AOp)
  /-- `SEL` (R123). -/
  | sel (o : AOp)
  /-- `CMP` (R122). -/
  | cmp (o : AOp)
  /-- `CVTI` (R124). -/
  | cvti (o : AOp)
  /-- `DIV` (R117). -/
  | div (o : AOp)
  /-- `REM` (R117). -/
  | rem (o : AOp)
  /-- `LEA` (R125). -/
  | lea (o : AOp)
  /-- `DOT4I` (R126). -/
  | dot4i (o : AOp)
  /-- `PAND` (R127). -/
  | pand (o : AOp)
  /-- `POR` (R127). -/
  | por (o : AOp)
  /-- `PXOR` (R127). -/
  | pxor (o : AOp)
  /-- `PNOT` (R127). -/
  | pnot (o : AOp)
  /-- `PMOV` (R127). -/
  | pmov (o : AOp)
  /-- `BALLOT` (R128). -/
  | ballot (o : AOp)
  /-- `PCNT` (R128). -/
  | pcnt (o : AOp)
  /-- `VANY` (R128). -/
  | vany (o : AOp)
  /-- `VALL` (R128). -/
  | vall (o : AOp)
  /-- `VTOG` (R129). -/
  | vtog (o : AOp)
  /-- `GTOV` (R129). -/
  | gtov (o : AOp)
  /-- `FADD` (R212). -/
  | fadd (o : AOp)
  /-- `FSUB` (R212). -/
  | fsub (o : AOp)
  /-- `FMUL` (R212). -/
  | fmul (o : AOp)
  /-- `FFMA` (R212). -/
  | ffma (o : AOp)
  /-- `FMIN` (R213). -/
  | fmin (o : AOp)
  /-- `FMAX` (R213). -/
  | fmax (o : AOp)
  /-- `FCMP` (R214). -/
  | fcmp (o : AOp)
  /-- `FCLASS` (R215). -/
  | fclass (o : AOp)
  /-- `FRND` (R216). -/
  | frnd (o : AOp)
  /-- `FRCP` (R217). -/
  | frcp (o : AOp)
  /-- `FRSQ` (R217). -/
  | frsq (o : AOp)
  /-- `FSQRT` (R217). -/
  | fsqrt (o : AOp)
  /-- `FEXPF` (R218). -/
  | fexpf (o : AOp)
  /-- `FLOG2` (R218). -/
  | flog2 (o : AOp)
  /-- `FSINF` (R218). -/
  | fsinf (o : AOp)
  /-- `FCOSF` (R218). -/
  | fcosf (o : AOp)
  /-- `XINS` (R219). -/
  | xins (o : AOp)
  /-- `XGET_E` (R219). -/
  | xgetE (o : AOp)
  /-- `XGET_M` (R219). -/
  | xgetM (o : AOp)
  /-- `FCVT` (R220). -/
  | fcvt (o : AOp)
  /-- `FCVT_PK` (R220). -/
  | fcvtPk (o : AOp)
  /-- `FQNT` (R226). -/
  | fqnt (o : AOp)
  /-- `FDQT` (R227). -/
  | fdqt (o : AOp)
  /-- `FSCL` (R225). -/
  | fscl (o : AOp)
  /-- `FDOT2` (R223). -/
  | fdot2 (o : AOp)
  /-- `DADD` (R221). -/
  | dadd (o : AOp)
  /-- `DMUL` (R221). -/
  | dmul (o : AOp)
  /-- `DFMA` (R221). -/
  | dfma (o : AOp)
  /-- `DCMP` (R214). -/
  | dcmp (o : AOp)
  /-- `DCVT` (R222). -/
  | dcvt (o : AOp)
  /-- `DCVT_INT` (R222). -/
  | dcvtInt (o : AOp)
  /-- `CHLD` (R236). -/
  | chld (o : AOp)
  /-- `CHRUN` (R237). -/
  | chrun (o : AOp)
  /-- `LSHFL` (R229). -/
  | lshfl (o : AOp)
  /-- `LPERM` (R231). -/
  | lperm (o : AOp)
  /-- `LBCAST` (R230). -/
  | lbcast (o : AOp)
  /-- `LRED` (R232). -/
  | lred (o : AOp)
  /-- `LSCAN` (R233). -/
  | lscan (o : AOp)
  /-- `LMAP` (R234). -/
  | lmap (o : AOp)
  /-- `CVDECL` (R264). -/
  | cvdecl (o : XOp)
  /-- `CVSIGN` (R264). -/
  | cvsign (o : XOp)
  /-- `MFENCE` (R265). -/
  | mfence (o : XOp)
  /-- `MZERO` (R268). -/
  | mzero (o : XOp)
  /-- `MMA` (R266). -/
  | mma (o : XOp)
  /-- `MMAR` (R266). -/
  | mmar (o : XOp)
  /-- `MWAIT` (R267). -/
  | mwait (o : XOp)
  /-- `MDRAIN` (R270). -/
  | mdrain (o : XOp)
  /-- `MREAD` (R269). -/
  | mread (o : XOp)
  /-- `MWRITE` (R268). -/
  | mwrite (o : XOp)
  /-- `MCHECK` (R270). -/
  | mcheck (o : XOp)
  /-- `MSAVE` (R271). -/
  | msave (o : XOp)
  /-- `MRESTORE` (R271). -/
  | mrestore (o : XOp)
  /-- `PFILL` (R272). -/
  | pfill (o : XOp)
  /-- `PWAIT` (R273). -/
  | pwait (o : XOp)
  /-- `PZAP_B` (R274). -/
  | pzapB (o : XOp)
  /-- `PZAP_C` (R274). -/
  | pzapC (o : XOp)
  /-- `LD` (R171). -/
  | ld (o : MOp)
  /-- `ST` (R174). -/
  | st (o : MOp)
  /-- `LDC` (R172). -/
  | ldc (o : MOp)
  /-- `LDS` (R171). -/
  | lds (o : MOp)
  /-- `STS` (R174). -/
  | sts (o : MOp)
  /-- `LDL` (R171). -/
  | ldl (o : MOp)
  /-- `STL` (R174). -/
  | stl (o : MOp)
  /-- `ATOM` (R175). -/
  | atom (o : MOp)
  /-- `RED` (R176). -/
  | red (o : MOp)
  /-- `PF` (R178). -/
  | pf (o : MOp)
  /-- `RQPAGE` (R178). -/
  | rqpage (o : MOp)
  /-- `CWB_L2` (R179). -/
  | cwbL2 (o : MOp)
  /-- `CWB_MEM` (R179). -/
  | cwbMem (o : MOp)
  /-- `CINV` (R179). -/
  | cinv (o : MOp)
  /-- `CPIN` (R180). -/
  | cpin (o : MOp)
  /-- `CUNPIN` (R180). -/
  | cunpin (o : MOp)
  /-- `ICINV` (R181). -/
  | icinv (o : MOp)
  /-- `FETCHBAR` (R181). -/
  | fetchbar (o : MOp)
  /-- `FENCE` (R177). -/
  | fence (o : MOp)
  /-- `MONARM` (R182). -/
  | monarm (o : MOp)
  /-- `MONWAIT` (R182). -/
  | monwait (o : MOp)
  /-- `SVBIND` (R183). -/
  | svbind (o : MOp)
  /-- `SVUNBIND` (R183). -/
  | svunbind (o : MOp)
  /-- `BARINIT` (R316). -/
  | barinit (o : XOp)
  /-- `BARARR` (R317). -/
  | bararr (o : XOp)
  /-- `BARWAIT` (R317). -/
  | barwait (o : XOp)
  /-- `BARTEST` (R317). -/
  | bartest (o : XOp)
  /-- `BAREXP` (R318). -/
  | barexp (o : XOp)
  /-- `SWINIT` (R319). -/
  | swinit (o : MOp)
  /-- `SWEXP` (R319). -/
  | swexp (o : MOp)
  /-- `SWADD` (R319). -/
  | swadd (o : MOp)
  /-- `SWWAIT` (R320). -/
  | swwait (o : MOp)
  /-- `SWPOLL` (R320). -/
  | swpoll (o : MOp)
  /-- `CTRSEL` (R321). -/
  | ctrsel (o : SOp)
  /-- `CTRRD` (R321). -/
  | ctrrd (o : SOp)
  /-- `ARNEW` (R345). -/
  | arnew (o : AOp)
  /-- `ARALLOC` (R346). -/
  | aralloc (o : AOp)
  /-- `ARFREE` (R346). -/
  | arfree (o : AOp)
  /-- `ARSEAL` (R336). -/
  | arseal (o : AOp)
  /-- `ARDROP` (R333). -/
  | ardrop (o : AOp)
  /-- `ARQUERY` (R348). -/
  | arquery (o : AOp)
  /-- `RGSET` (R349). -/
  | rgset (o : AOp)
  /-- `RGCLR` (R349). -/
  | rgclr (o : AOp)
  /-- `RGQUERY` (R349). -/
  | rgquery (o : AOp)
  /-- `FORKW` (R364). -/
  | forkw (o : AOp)
  /-- `WEND` (R365). -/
  | wend (o : AOp)
  /-- `CHOOSE` (R366). -/
  | choose (o : AOp)
  /-- `CHOOSE_MIN` (R366). -/
  | chooseMin (o : AOp)
  /-- `WABORT` (R366). -/
  | wabort (o : AOp)
  /-- `WQUERY` (R367). -/
  | wquery (o : AOp)
  /-- `TLAUNCH` (R392). -/
  | tlaunch (o : XOp)
  /-- `TDEP` (R393). -/
  | tdep (o : XOp)
  /-- `TDEP_GO` (R393). -/
  | tdepGo (o : XOp)
  /-- `WORKNEXT` (R394). -/
  | worknext (o : XOp)
  /-- `QPOP` (R401). -/
  | qpop (o : AOp)
  /-- `RINGDECL` (R418). -/
  | ringdecl (o : MOp)
  /-- `RINGDECL_CLR` (R418). -/
  | ringdeclClr (o : MOp)
  /-- `RSEND` (R419). -/
  | rsend (o : MOp)
  /-- `RHEAD` (R420). -/
  | rhead (o : MOp)
  /-- `LDESC` (R411). -/
  | ldesc (o : XOp)
  /-- `BCOPY` (R412). -/
  | bcopy (o : XOp)
  /-- `BSTORE` (R412). -/
  | bstore (o : XOp)
  /-- `BMCAST` (R413). -/
  | bmcast (o : XOp)
  /-- `BRED` (R414). -/
  | bred (o : XOp)
  /-- `BR` (R136). -/
  | br (o : BOp)
  /-- `BRA_ANY` (R136). -/
  | braAny (o : BOp)
  /-- `BRA_ALL` (R136). -/
  | braAll (o : BOp)
  /-- `BRX` (R136). -/
  | brx (o : BOp)
  /-- `CALL` (R138). -/
  | call (o : BOp)
  /-- `CALLI` (R138). -/
  | calli (o : BOp)
  /-- `RET` (R140). -/
  | ret (o : BOp)
  /-- `PRIO` (R141). -/
  | prio (o : BOp)
  /-- `REGROUP` (R144). -/
  | regroup (o : BOp)
  /-- `REGROUP_RESTORE` (R144). -/
  | regroupRestore (o : BOp)
  /-- `EXIT` (R143). -/
  | exit (o : BOp)
  /-- `TRAIL` (R142). -/
  | trail (o : BOp)
  /-- `TRAP` (R447). -/
  | trap (o : SOp)
  /-- `RTE` (R448). -/
  | rte (o : SOp)
  /-- `MFSYS` (R146). -/
  | mfsys (o : SOp)
  /-- `MTSYS` (R146). -/
  | mtsys (o : SOp)
  /-- `SYSC` (R449). -/
  | sysc (o : SOp)
  /-- `ERRQ` (R450). -/
  | errq (o : SOp)
  /-- `CKPT` (R451). -/
  | ckpt (o : SOp)
  /-- `RPSET` (R452). -/
  | rpset (o : SOp)
  /-- `TLBINV` (R453). -/
  | tlbinv (o : SOp)
  /-- `PGSPLIT` (R453). -/
  | pgsplit (o : SOp)
  /-- `STEST` (R454). -/
  | stest (o : SOp)
  /-- Event `RUN_DISPATCH` (R40). -/
  | runDispatch (studio : Nat)
  /-- Event `FETCH_RESUME` (R57). -/
  | fetchResume (studio slot : Nat)
  /-- Event `LONG_LATENCY_COMPLETE` (R38). -/
  | longLatencyComplete (cell grp idx : Nat)
  /-- Event `HELD_ACCESS_RESUME` (R158). -/
  | heldAccessResume (studio slot : Nat)
  /-- Event `REGROUP_MEETING_COMPLETE` (R42). -/
  | regroupMeetingComplete (cell : Nat)
  /-- Event `REGROUP_RESTORE_COMPLETE` (R44). -/
  | regroupRestoreComplete (cell : Nat)
  /-- Event `EASEL_COMMAND_START` (R260). -/
  | easelCommandStart (cell idx : Nat)
  /-- Event `EASEL_SLAB` (R255). -/
  | easelSlab (cell idx : Nat)
  /-- Event `EASEL_COMMAND_COMPLETE` (R260). -/
  | easelCommandComplete (cell idx : Nat)
  /-- Event `FILL_SLAB` (R272). -/
  | fillSlab (cell slot : Nat)
  /-- Event `FILL_COMPLETE` (R272). -/
  | fillComplete (cell slot : Nat)
  /-- Event `WALK_PUSH` (R400). -/
  | walkPush (cell : Nat) (act : WalkAct)
  /-- Event `BRUSH_BURST` (R408). -/
  | brushBurst (cell idx : Nat)
  /-- Event `BRUSH_COMMAND_COMPLETE` (R408). -/
  | brushCommandComplete (cell idx : Nat)
  /-- Event `BMCAST_HOP` (R413). -/
  | bmcastHop (cell idx : Nat)
  /-- Event `BRED_ACCEPT` (R414). -/
  | bredAccept (cell idx : Nat)
  /-- Event `BRED_ROUND_COMPLETE` (R415). -/
  | bredRoundComplete (tag : BitVec 64) (round : Nat)
  /-- Event `RING_DELIVERY` (R419). -/
  | ringDelivery (cell grp idx : Nat)
  /-- Event `RING_RETRY` (R419). -/
  | ringRetry (cell grp idx : Nat)
  /-- Event `TORUS_HOP` (R422). -/
  | torusHop (idx : Nat)
  /-- Event `RED_MERGE` (R176). -/
  | redMerge (studio idx : Nat)
  /-- Event `CACHE_EVICTION` (R161). -/
  | cacheEviction (unit : CacheUnit) (line : Nat) (unreadable : Bool)
  /-- Event `DROP_BROADCAST_APPLY` (R333). -/
  | dropBroadcastApply (unit arena : Nat)
  /-- Event `SWEEP_COMPLETE` (R334). -/
  | sweepComplete (arena gen : Nat)
  /-- Event `SEAL_BROADCAST_APPLY` (R336). -/
  | sealBroadcastApply (unit arena : Nat)
  /-- Event `TLB_SHOOTDOWN_ACK` (R160). -/
  | tlbShootdownAck (unit idx : Nat)
  /-- Event `RIVAL_ADMISSION` (R364). -/
  | rivalAdmission (cell studio : Nat)
  /-- Event `WORLD_PARENT_RESTORE` (R364). -/
  | worldParentRestore (cell studio : Nat)
  /-- Event `KICK_WRITE` (R377). -/
  | kickWrite (ctx queue : Nat)
  /-- Event `SERVE_KICK` (R377). -/
  | serveKick (ctx queue : Nat)
  /-- Event `READY_RANGES` (R380). -/
  | readyRanges (ticket : BitVec 64)
  /-- Event `MIGRATION_END` (R380). -/
  | migrationEnd (leafAt : Nat) (resident : PageFate)
  /-- Event `CELL_ADMISSION` (R383). -/
  | cellAdmission (p : Placement)
  /-- Event `PREEMPT_CELL` (R50). -/
  | preemptCell (cell : Nat)
  /-- Event `RESTORE_CELL` (R51). -/
  | restoreCell (cell studio : Nat)
  /-- Event `CELL_RETIREMENT` (R53). -/
  | cellRetirement (cell : Nat)
  /-- Event `CONTROLLER_TAKEOVER` (R389). -/
  | controllerTakeover (pair : Nat)
  /-- Event `ROLLBACK` (R435). -/
  | rollback (ticket : BitVec 64)
  /-- Event `SHADOW_COMPARE` (R438). -/
  | shadowCompare (original copy : Nat)
  /-- Event `CKPT_PREPARE_ACK` (R440). -/
  | ckptPrepareAck (ctx die : Nat)
  /-- Event `CKPT_SEAL` (R440). -/
  | ckptSeal (ctx : Nat)
  /-- Event `RECOVERY` (R441). -/
  | recovery (ctx : Nat)
  /-- Event `CONTAINMENT_RESET` (R442). -/
  | containmentReset (die : Nat)
  /-- Event `ERROR_REPORT` (R444). -/
  | errorReport (unit : ErrUnit) (corrected : Bool)
  /-- Event `SELF_TEST` (R444). -/
  | selfTest (unit : ErrUnit) (pass : Bool)
  /-- Event `MODULE_RESET` (R459). -/
  | moduleReset (image : Boot)
  /-- Event `LIFECYCLE_TRANSITION` (R459): a signed command, in the form of an image. -/
  | lifecycleTransition (target : BitVec 2) (signed : List (BitVec 8))
  /-- Event `FEAT_ACCEPT_WRITE` (R460). -/
  | featAcceptWrite (value : BitVec 64)
  /-- Event `ATTEST_REQUEST` (R458). -/
  | attestRequest (nonce : List (BitVec 8))
  /-- Event `ATTEST_REPORT` (R458). -/
  | attestReport
  /-- Event `POWER_WRITE` (R468). -/
  | powerWrite (state : BitVec 2)
  /-- Event `POWER_CAP_STEPDOWN` (R469). -/
  | powerCapStepdown
  /-- Event `ENGINE_RESET` (R467). -/
  | engineReset (engine : Nat)
  /-- Event `ENGTAIL_WRITE` (R464). -/
  | engtailWrite (engine : Nat) (value : BitVec 64)
  /-- Event `ENGINE_TAKE_COMMAND` (R465). -/
  | engineTakeCommand (engine : Nat)
  /-- Event `CODEC_ROW` (R466). -/
  | codecRow (engine : Nat) (rowBytes : Nat) (lastRow : Bool)
  /-- Event `CODEC_HANDOFF_RESUME` (R466). -/
  | codecHandoffResume (engine : Nat)
  /-- Event `ENGINE_TIMEOUT` (R466). -/
  | engineTimeout (engine : Nat)
  /-- Event `ENGINE_COMMAND_END` (R465). -/
  | engineCommandEnd (engine : Nat) (status : BitVec 8)
  /-- Event `HOST_BAR2_ACCESS` (R461). -/
  | hostBar2Access (offset : Nat) (write : Bool) (bytes : List (BitVec 8))
  /-- Event `PEER_ACCESS` (R462). -/
  | peerAccess (offset : Nat) (write : Bool) (bytes : List (BitVec 8))
  /-- Event `PEER_UNREACHABLE` (R462). -/
  | peerUnreachable (module : Nat)
  /-- Event `REGISTER_WRITE` (R456). -/
  | registerWrite (offset : Nat) (value : BitVec 64)
  /-- Event `ARITHMETIC_CYCLE` (R26). -/
  | arithmeticCycle (studio : Nat)
  /-- Event `RUN_SETTLED` (R37). -/
  | runSettled (cell grp : Nat)
  /-- Event `SOFT_ERROR` (R277). -/
  | softError (target : SoftTarget)
  /-- Event `MIGRATION_BEGIN` (R178). -/
  | migrationBegin (leafAt : LeafPlace)
  /-- Event `CONTEXT_CREATION` (R145). -/
  | contextCreation (c : CtxInit)
  /-- Event `CONTEXT_END` (R347). -/
  | contextEnd (ctx : Nat)
  /-- Event `LEAF_REWRITE` (R160). -/
  | leafRewrite (leafAt : LeafPlace) (value : BitVec 64)
deriving DecidableEq, Repr, Inhabited

/-- One thing the module may do next: an issue slot's group issues the next instruction of its run, or an event. -/
inductive Move where
  | issue (studio slot : Nat)
  | event (e : Instr)
deriving DecidableEq, Repr, Inhabited

end Sys2Proof
end

