-- ==== Sys2Proof/Config.lean ====
section
/-! DEFINITION. What the spec leaves open: free values (opaque, no body: nothing can be proved of what they are), and
the fixed figures of the module. -/
namespace Sys2Proof

/-- Which agent acts next when `agenda` is empty (log 2). -/
opaque Config.schedule : Nat → Move
/-- An undefined value of R4: one byte, word or double word, fresh at each counter value (log 5). -/
opaque Config.free8 : Nat → BitVec 8
opaque Config.free32 : Nat → BitVec 32
opaque Config.free64 : Nat → BitVec 64
/-- A choice the spec leaves open between two outcomes (log 5). -/
opaque Config.freeBool : Nat → Bool
/-- SHAKE256 with 64 bytes of output (R440, R457): a function of the bytes, its values not evaluated (log 22). -/
opaque Config.shake256 : List (BitVec 8) → List (BitVec 8)
/-- Whether an Ed448 signature over a digest verifies under the vendor's public key, whose hash is fused (R457; log 22). -/
opaque Config.verify : (digest signature : List (BitVec 8)) → Bool
/-- The fused minimum of the security version (R457; log 22). -/
opaque Config.minVersion : Nat
/-- The state of LIFECYCLE that a signed command asks for: the spec gives no form of its body (R459; log 22). -/
opaque Config.lifeTarget : (command : List (BitVec 8)) → BitVec 2
/-- The Ed448 signature with the device identity key (R458; log 22). -/
opaque Config.sign : List (BitVec 8) → List (BitVec 8)
/-- The supervisor's reply to a service call (R449): version for service 0, and the published services (log 20). -/
opaque Config.sysc : (service : Nat) → (arg : BitVec 64) → Nat → BitVec 64
/-- Whether the supervisor publishes a service (R449; log 20). -/
opaque Config.syscKnown : Nat → Bool
/-- What a codec stream names of R463: format (0 AV1, 1 VVC), profile (0 Main, or Main 10), chroma format (0 monochrome, 1 4:2:0), bits of
a sample, ten times its level, tier (0 Main). -/
structure StreamInfo where
  format : Nat
  profile : Nat
  chroma : Nat
  depth : Nat
  level : Nat
  tier : Nat
deriving DecidableEq, Repr, Inhabited
/-- What a command's stream names, from the command and the bytes of its stream read so far: the codecs' syntax is not the spec's (R463;
log 21). -/
opaque Config.streamInfo : (command stream : List (BitVec 8)) → StreamInfo
/-- Byte `k` of a reconstructed row of a stream (R466; log 21). -/
opaque Config.codecByte : (engine row k fresh : Nat) → BitVec 8

/-- Whether a module number is held by a module of the Breyth domain (R462; log 64). -/
opaque Config.peer : Nat → Bool
/-- The set of a slice's 2,048 sets that a line falls in: the spec gives no index (R163; log 8). -/
opaque Config.l2Set : Nat → Nat

/-- The set of a studio's L1 that a line falls in: the spec gives no index (R148; log 8). -/
opaque Config.l1Set : Nat → Nat
/-- Records that a Gesso journal region of so many bytes holds: the spec gives no record size (R167; log 41). -/
opaque Config.journalRecords : Nat → Nat

/-- Studios of the module (R13). -/
abbrev Config.studios : Nat := 192
/-- Bytes of HBM (R12): 768 GiB. -/
abbrev Config.hbm : Nat := 0xC000000000
/-- Features offered (R456): six bits. -/
abbrev Config.featOffer : BitVec 64 := 0x3F

end Sys2Proof
end

