-- ==== Sys2Proof/Decode.lean ====
section
/-! DEFINITION. Decoding of 96-bit instruction words (R64-R78 and each part's encoding table), total, refusing by
name; then the encoder, written from the same tables. -/
namespace Sys2Proof

/-- Why a word names no instruction (R70, R78); ILLEGAL_OP ranks before ILLEGAL_FIELD (R75). -/
inductive DecodeErr where
  | illegalOp
  | illegalField
deriving DecidableEq, Repr

/-- Bits h..l of a number (R1). -/
def bits (n h l : Nat) : Nat := n / 2 ^ l % 2 ^ (h + 1 - l)

/-- Sign extension of a `w`-bit pattern. -/
def sext (w u : Nat) : Int := if u % 2 ^ w < 2 ^ (w - 1) then (u % 2 ^ w : Nat) else (u % 2 ^ w : Nat) - (2 ^ w : Nat)

/-- Little-endian value of bytes (R2). -/
def leNat : List (BitVec 8) → Nat
  | [] => 0
  | b :: r => b.toNat + 256 * leNat r

/-- The `k` bytes of a value, low first (R2). -/
def leBytes : Nat → Nat → List (BitVec 8)
  | 0, _ => []
  | k + 1, v => BitVec.ofNat 8 v :: leBytes k (v / 256)

/-! ### Types, scopes, orders, special registers by code -/

def Ty.ofCode : Nat → Ty
  | 0 => .i8 | 1 => .i16 | 2 => .i32 | 3 => .i64 | 4 => .n8 | 5 => .n16 | 6 => .n32 | 7 => .n64
  | 8 => .f64 | 9 => .f32 | 10 => .f16 | 11 => .bf16 | 12 => .e4m3 | 13 => .e5m2 | 14 => .e2m1 | _ => .gq4
def Ty.code : Ty → Nat
  | .i8 => 0 | .i16 => 1 | .i32 => 2 | .i64 => 3 | .n8 => 4 | .n16 => 5 | .n32 => 6 | .n64 => 7
  | .f64 => 8 | .f32 => 9 | .f16 => 10 | .bf16 => 11 | .e4m3 => 12 | .e5m2 => 13 | .e2m1 => 14 | .gq4 => 15
/-- Width in bits (R70, R185). -/
def Ty.width : Ty → Nat
  | .i8 | .n8 | .e4m3 | .e5m2 => 8
  | .i16 | .n16 | .f16 | .bf16 => 16
  | .i32 | .n32 | .f32 => 32
  | .i64 | .n64 | .f64 => 64
  | .e2m1 | .gq4 => 4
/-- Signed integer types (R108). -/
def Ty.signed : Ty → Bool
  | .i8 | .i16 | .i32 | .i64 => true
  | _ => false
def Scope.ofCode : Nat → Scope
  | 0 => .plain | 1 => .grp | 2 => .cell | 3 => .die | 4 => .dev | 5 => .sys | 6 => .rcv | _ => .auto
def Scope.code : Scope → Nat
  | .plain => 0 | .grp => 1 | .cell => 2 | .die => 3 | .dev => 4 | .sys => 5 | .rcv => 6 | .auto => 7
def Order.ofCode : Nat → Order
  | 0 => .rlx | 1 => .acq | 2 => .rel | _ => .ar
def Order.code : Order → Nat
  | .rlx => 0 | .acq => 1 | .rel => 2 | .ar => 3
def Special.ofCode? : Nat → Option Special
  | 96 => some .lane | 97 => some .vlane | 98 => some .group | 99 => some .cellx | 100 => some .celly
  | 101 => some .cellz | 102 => some .stage | 103 => some .nstage | 104 => some .world | 105 => some .ncellres
  | 106 => some .clk | _ => none
def Special.code : Special → Nat
  | .lane => 96 | .vlane => 97 | .group => 98 | .cellx => 99 | .celly => 100 | .cellz => 101 | .stage => 102
  | .nstage => 103 | .world => 104 | .ncellres => 105 | .clk => 106

/-! ### Operand fields (R71, R73) -/

/-- An 11-bit source field. -/
def Src.ofField (n : Nat) : Option Src :=
  let trap := decide (bits n 10 10 = 1); let i := bits n 7 0
  match bits n 9 8 with
  | 0 => some (.v (BitVec.ofNat 8 i) trap)
  | 1 => if i < 96 then some (.g (BitVec.ofNat 7 i) trap)
         else if trap then none else (Special.ofCode? i).map Src.sp
  | 2 => if trap then none else if i < 8 then some (.t (BitVec.ofNat 3 i))
         else if 16 ≤ i ∧ i < 24 then some (.q (BitVec.ofNat 3 (i - 16))) else none
  | _ => if trap then none else some (.imm (BitVec.ofNat 8 i))
def Src.field : Src → Nat
  | .v i tr => i.toNat + (if tr then 1024 else 0)
  | .g i tr => 256 + i.toNat + (if tr then 1024 else 0)
  | .sp r => 256 + r.code
  | .t i => 512 + i.toNat
  | .q i => 528 + i.toNat
  | .imm b => 768 + b.toNat
/-- A 10-bit destination field. -/
def Dst.ofField (n : Nat) : Option Dst :=
  let i := bits n 7 0
  match bits n 9 8 with
  | 0 => some (.v (BitVec.ofNat 8 i))
  | 1 => if i < 96 then some (.g (BitVec.ofNat 7 i)) else none
  | 2 => if i < 8 then some (.t (BitVec.ofNat 3 i)) else none
  | _ => none
def Dst.field : Dst → Nat
  | .v i => i.toNat
  | .g i => 256 + i.toNat
  | .t i => 512 + i.toNat

/-- A major with its family record: the form decode and encode share. -/
inductive Raw where
  | a (major : Nat) (o : AOp)
  | m (major : Nat) (o : MOp)
  | b (major : Nat) (o : BOp)
  | x (major : Nat) (o : XOp)
  | s (major : Nat) (o : SOp)
deriving DecidableEq, Repr

/-- Which family a major belongs to (R77). -/
inductive Family where
  | a | m | b | x | s
deriving DecidableEq, Repr

/-- The instruction a raw record names: by major and variant or sub-op (R77). -/
def Raw.mk? : Raw → Option Instr
  | .a major o => match major, o.variant.toNat with
    | 0x00, 0 => some (.nop o)
    | 0x00, 1 => some (.mov o)
    | 0x00, 2 => some (.movi o)
    | 0x00, 3 => some (.movw o)
    | 0x01, 0 => some (.add o)
    | 0x02, 0 => some (.sub o)
    | 0x03, 0 => some (.addc o)
    | 0x04, 0 => some (.subb o)
    | 0x05, 0 => some (.mul o)
    | 0x06, 0 => some (.mulhi o)
    | 0x07, 0 => some (.mad o)
    | 0x08, 0 => some (.sad o)
    | 0x09, 0 => some (.neg o)
    | 0x09, 1 => some (.abs o)
    | 0x0A, 0 => some (.min o)
    | 0x0A, 1 => some (.max o)
    | 0x0B, 0 => some (.clamp o)
    | 0x0C, 0 => some (.and o)
    | 0x0D, 0 => some (.or o)
    | 0x0E, 0 => some (.xor o)
    | 0x0F, 0 => some (.andn o)
    | 0x10, 0 => some (.not o)
    | 0x11, 0 => some (.shl o)
    | 0x11, 1 => some (.shr o)
    | 0x11, 2 => some (.sar o)
    | 0x11, 3 => some (.rol o)
    | 0x12, 0 => some (.bfx o)
    | 0x13, 0 => some (.bfi o)
    | 0x14, 0 => some (.brev o)
    | 0x14, 1 => some (.popc o)
    | 0x14, 2 => some (.clz o)
    | 0x14, 3 => some (.ctz o)
    | 0x15, 0 => some (.sel o)
    | 0x16, 0 | 0x16, 1 | 0x16, 2 | 0x16, 3 | 0x16, 4 | 0x16, 5 => some (.cmp o)
    | 0x17, 0 => some (.cvti o)
    | 0x18, 0 => some (.div o)
    | 0x19, 0 => some (.rem o)
    | 0x1A, 0 => some (.lea o)
    | 0x1B, 0 => some (.dot4i o)
    | 0x20, 0 => some (.pand o)
    | 0x21, 0 => some (.por o)
    | 0x22, 0 => some (.pxor o)
    | 0x23, 0 => some (.pnot o)
    | 0x24, 0 => some (.pmov o)
    | 0x25, 0 => some (.ballot o)
    | 0x26, 0 => some (.pcnt o)
    | 0x27, 0 => some (.vany o)
    | 0x28, 0 => some (.vall o)
    | 0x29, 0 => some (.vtog o)
    | 0x2A, 0 => some (.gtov o)
    | 0x30, 0 => some (.fadd o)
    | 0x31, 0 => some (.fsub o)
    | 0x32, 0 => some (.fmul o)
    | 0x33, 0 => some (.ffma o)
    | 0x34, 0 => some (.fmin o)
    | 0x35, 0 => some (.fmax o)
    | 0x36, 0 | 0x36, 1 | 0x36, 2 | 0x36, 3 | 0x36, 4 | 0x36, 5 | 0x36, 6 | 0x36, 7 => some (.fcmp o)
    | 0x37, 0 => some (.fclass o)
    | 0x38, 0 => some (.frnd o)
    | 0x39, 0 => some (.frcp o)
    | 0x3A, 0 => some (.frsq o)
    | 0x3B, 0 => some (.fsqrt o)
    | 0x3C, 0 => some (.fexpf o)
    | 0x3D, 0 => some (.flog2 o)
    | 0x3E, 0 => some (.fsinf o)
    | 0x3F, 0 => some (.fcosf o)
    | 0x40, 0 => some (.xins o)
    | 0x41, 0 => some (.xgetE o)
    | 0x41, 1 => some (.xgetM o)
    | 0x42, 0 => some (.fcvt o)
    | 0x42, 1 => some (.fcvtPk o)
    | 0x43, 0 => some (.fqnt o)
    | 0x44, 0 => some (.fdqt o)
    | 0x45, 0 => some (.fscl o)
    | 0x46, 0 => some (.fdot2 o)
    | 0x47, 0 => some (.dadd o)
    | 0x48, 0 => some (.dmul o)
    | 0x49, 0 => some (.dfma o)
    | 0x4A, 0 | 0x4A, 1 | 0x4A, 2 | 0x4A, 3 | 0x4A, 4 | 0x4A, 5 | 0x4A, 6 | 0x4A, 7 => some (.dcmp o)
    | 0x4B, 0 => some (.dcvt o)
    | 0x4B, 1 => some (.dcvtInt o)
    | 0x60, 0 => some (.chld o)
    | 0x61, 0 => some (.chrun o)
    | 0x62, 0 | 0x62, 1 | 0x62, 2 | 0x62, 3 => some (.lshfl o)
    | 0x63, 0 => some (.lperm o)
    | 0x64, 0 => some (.lbcast o)
    | 0x65, 0 | 0x65, 1 | 0x65, 2 | 0x65, 3 | 0x65, 4 | 0x65, 5 | 0x65, 6 | 0x65, 7 | 0x65, 8 => some (.lred o)
    | 0x66, 0 | 0x66, 1 | 0x66, 2 | 0x66, 3 | 0x66, 4 | 0x66, 5 => some (.lscan o)
    | 0x67, 0 => some (.lmap o)
    | 0xB0, 0 => some (.arnew o)
    | 0xB1, 0 | 0xB1, 1 => some (.aralloc o)
    | 0xB2, 0 => some (.arfree o)
    | 0xB3, 0 => some (.arseal o)
    | 0xB4, 0 | 0xB4, 1 => some (.ardrop o)
    | 0xB5, 0 => some (.arquery o)
    | 0xB6, 0 => some (.rgset o)
    | 0xB7, 0 => some (.rgclr o)
    | 0xB8, 0 => some (.rgquery o)
    | 0xB9, 0 => some (.forkw o)
    | 0xBA, 0 => some (.wend o)
    | 0xBB, 0 => some (.choose o)
    | 0xBB, 1 => some (.chooseMin o)
    | 0xBC, 0 => some (.wabort o)
    | 0xBD, 0 => some (.wquery o)
    | 0xC3, 0 | 0xC3, 1 => some (.qpop o)
    | _, _ => none
  | .m major o => match major, o.variant.toNat with
    | 0x80, 0 | 0x80, 1 => some (.ld o)
    | 0x81, 0 | 0x81, 1 => some (.st o)
    | 0x82, 0 => some (.ldc o)
    | 0x83, 0 => some (.lds o)
    | 0x84, 0 => some (.sts o)
    | 0x85, 0 => some (.ldl o)
    | 0x86, 0 => some (.stl o)
    | 0x87, 0 | 0x87, 1 | 0x87, 2 | 0x87, 3 | 0x87, 4 | 0x87, 5 | 0x87, 6 | 0x87, 7 => some (.atom o)
    | 0x88, 0 | 0x88, 1 | 0x88, 2 | 0x88, 3 | 0x88, 4 | 0x88, 5 => some (.red o)
    | 0x89, 0 => some (.pf o)
    | 0x8A, 0 => some (.rqpage o)
    | 0x8B, 0 => some (.cwbL2 o)
    | 0x8B, 1 => some (.cwbMem o)
    | 0x8C, 0 => some (.cinv o)
    | 0x8D, 0 => some (.cpin o)
    | 0x8E, 0 => some (.cunpin o)
    | 0x8F, 0 => some (.icinv o)
    | 0x90, 0 => some (.fetchbar o)
    | 0x91, 0 => some (.fence o)
    | 0x92, 0 => some (.monarm o)
    | 0x93, 0 => some (.monwait o)
    | 0x94, 0 => some (.svbind o)
    | 0x95, 0 => some (.svunbind o)
    | 0xA5, 0 | 0xA5, 1 => some (.swinit o)
    | 0xA6, 0 | 0xA6, 1 => some (.swexp o)
    | 0xA7, 0 | 0xA7, 1 => some (.swadd o)
    | 0xA8, 0 | 0xA8, 1 => some (.swwait o)
    | 0xA9, 0 | 0xA9, 1 | 0xA9, 2 | 0xA9, 3 => some (.swpoll o)
    | 0xC4, 0 => some (.ringdecl o)
    | 0xC4, 1 => some (.ringdeclClr o)
    | 0xC5, 0 => some (.rsend o)
    | 0xC6, 0 => some (.rhead o)
    | _, _ => none
  | .b major o => match major, o.sub.toNat with
    | 0xD0, 0 => some (.br o)
    | 0xD1, 0 => some (.braAny o)
    | 0xD1, 1 => some (.braAll o)
    | 0xD2, 0 => some (.brx o)
    | 0xD3, 0 => some (.call o)
    | 0xD4, 0 => some (.calli o)
    | 0xD5, 0 => some (.ret o)
    | 0xD6, 0 => some (.prio o)
    | 0xD7, 0 => some (.regroup o)
    | 0xD7, 1 => some (.regroupRestore o)
    | 0xD8, 0 => some (.exit o)
    | 0xD9, 0 => some (.trail o)
    | _, _ => none
  | .x major o => match major, o.sub.toNat with
    | 0x70, 0 => some (.cvdecl o)
    | 0x71, 0 => some (.cvsign o)
    | 0x72, 0 => some (.mfence o)
    | 0x73, 0 | 0x73, 1 => some (.mzero o)
    | 0x74, 0 => some (.mma o)
    | 0x75, 0 => some (.mmar o)
    | 0x76, 0 => some (.mwait o)
    | 0x77, 0 => some (.mdrain o)
    | 0x78, 0 | 0x78, 1 => some (.mread o)
    | 0x79, 0 | 0x79, 1 => some (.mwrite o)
    | 0x7A, 0 => some (.mcheck o)
    | 0x7B, 0 => some (.msave o)
    | 0x7C, 0 => some (.mrestore o)
    | 0x7D, 0 => some (.pfill o)
    | 0x7E, 0 => some (.pwait o)
    | 0x7F, 0 => some (.pzapB o)
    | 0x7F, 1 => some (.pzapC o)
    | 0xA0, 0 => some (.barinit o)
    | 0xA1, 0 => some (.bararr o)
    | 0xA2, 0 => some (.barwait o)
    | 0xA3, 0 => some (.bartest o)
    | 0xA4, 0 => some (.barexp o)
    | 0xC0, 0 | 0xC0, 1 => some (.tlaunch o)
    | 0xC1, 0 => some (.tdep o)
    | 0xC1, 1 => some (.tdepGo o)
    | 0xC2, 0 => some (.worknext o)
    | 0xC7, 0 => some (.ldesc o)
    | 0xC8, 0 => some (.bcopy o)
    | 0xC9, 0 => some (.bstore o)
    | 0xCA, 0 => some (.bmcast o)
    | 0xCB, 0 | 0xCB, 1 | 0xCB, 2 | 0xCB, 3 => some (.bred o)
    | _, _ => none
  | .s major o => match major, o.sub.toNat with
    | 0xAA, 0 => some (.ctrsel o)
    | 0xAB, 0 | 0xAB, 1 => some (.ctrrd o)
    | 0xE0, 0 => some (.trap o)
    | 0xE1, 0 => some (.rte o)
    | 0xE2, 0 => some (.mfsys o)
    | 0xE3, 0 => some (.mtsys o)
    | 0xE4, 0 => some (.sysc o)
    | 0xE5, 0 => some (.errq o)
    | 0xE6, 0 => some (.ckpt o)
    | 0xE7, 0 => some (.rpset o)
    | 0xE8, 0 => some (.tlbinv o)
    | 0xE9, 0 => some (.pgsplit o)
    | 0xEA, 0 => some (.stest o)
    | _, _ => none

/-- The major and family record of an instruction; none for an event. -/
def Instr.raw : Instr → Option Raw
  | .nop o => some (.a 0x00 o)
  | .mov o => some (.a 0x00 o)
  | .movi o => some (.a 0x00 o)
  | .movw o => some (.a 0x00 o)
  | .add o => some (.a 0x01 o)
  | .sub o => some (.a 0x02 o)
  | .addc o => some (.a 0x03 o)
  | .subb o => some (.a 0x04 o)
  | .mul o => some (.a 0x05 o)
  | .mulhi o => some (.a 0x06 o)
  | .mad o => some (.a 0x07 o)
  | .sad o => some (.a 0x08 o)
  | .neg o => some (.a 0x09 o)
  | .abs o => some (.a 0x09 o)
  | .min o => some (.a 0x0A o)
  | .max o => some (.a 0x0A o)
  | .clamp o => some (.a 0x0B o)
  | .and o => some (.a 0x0C o)
  | .or o => some (.a 0x0D o)
  | .xor o => some (.a 0x0E o)
  | .andn o => some (.a 0x0F o)
  | .not o => some (.a 0x10 o)
  | .shl o => some (.a 0x11 o)
  | .shr o => some (.a 0x11 o)
  | .sar o => some (.a 0x11 o)
  | .rol o => some (.a 0x11 o)
  | .bfx o => some (.a 0x12 o)
  | .bfi o => some (.a 0x13 o)
  | .brev o => some (.a 0x14 o)
  | .popc o => some (.a 0x14 o)
  | .clz o => some (.a 0x14 o)
  | .ctz o => some (.a 0x14 o)
  | .sel o => some (.a 0x15 o)
  | .cmp o => some (.a 0x16 o)
  | .cvti o => some (.a 0x17 o)
  | .div o => some (.a 0x18 o)
  | .rem o => some (.a 0x19 o)
  | .lea o => some (.a 0x1A o)
  | .dot4i o => some (.a 0x1B o)
  | .pand o => some (.a 0x20 o)
  | .por o => some (.a 0x21 o)
  | .pxor o => some (.a 0x22 o)
  | .pnot o => some (.a 0x23 o)
  | .pmov o => some (.a 0x24 o)
  | .ballot o => some (.a 0x25 o)
  | .pcnt o => some (.a 0x26 o)
  | .vany o => some (.a 0x27 o)
  | .vall o => some (.a 0x28 o)
  | .vtog o => some (.a 0x29 o)
  | .gtov o => some (.a 0x2A o)
  | .fadd o => some (.a 0x30 o)
  | .fsub o => some (.a 0x31 o)
  | .fmul o => some (.a 0x32 o)
  | .ffma o => some (.a 0x33 o)
  | .fmin o => some (.a 0x34 o)
  | .fmax o => some (.a 0x35 o)
  | .fcmp o => some (.a 0x36 o)
  | .fclass o => some (.a 0x37 o)
  | .frnd o => some (.a 0x38 o)
  | .frcp o => some (.a 0x39 o)
  | .frsq o => some (.a 0x3A o)
  | .fsqrt o => some (.a 0x3B o)
  | .fexpf o => some (.a 0x3C o)
  | .flog2 o => some (.a 0x3D o)
  | .fsinf o => some (.a 0x3E o)
  | .fcosf o => some (.a 0x3F o)
  | .xins o => some (.a 0x40 o)
  | .xgetE o => some (.a 0x41 o)
  | .xgetM o => some (.a 0x41 o)
  | .fcvt o => some (.a 0x42 o)
  | .fcvtPk o => some (.a 0x42 o)
  | .fqnt o => some (.a 0x43 o)
  | .fdqt o => some (.a 0x44 o)
  | .fscl o => some (.a 0x45 o)
  | .fdot2 o => some (.a 0x46 o)
  | .dadd o => some (.a 0x47 o)
  | .dmul o => some (.a 0x48 o)
  | .dfma o => some (.a 0x49 o)
  | .dcmp o => some (.a 0x4A o)
  | .dcvt o => some (.a 0x4B o)
  | .dcvtInt o => some (.a 0x4B o)
  | .chld o => some (.a 0x60 o)
  | .chrun o => some (.a 0x61 o)
  | .lshfl o => some (.a 0x62 o)
  | .lperm o => some (.a 0x63 o)
  | .lbcast o => some (.a 0x64 o)
  | .lred o => some (.a 0x65 o)
  | .lscan o => some (.a 0x66 o)
  | .lmap o => some (.a 0x67 o)
  | .cvdecl o => some (.x 0x70 o)
  | .cvsign o => some (.x 0x71 o)
  | .mfence o => some (.x 0x72 o)
  | .mzero o => some (.x 0x73 o)
  | .mma o => some (.x 0x74 o)
  | .mmar o => some (.x 0x75 o)
  | .mwait o => some (.x 0x76 o)
  | .mdrain o => some (.x 0x77 o)
  | .mread o => some (.x 0x78 o)
  | .mwrite o => some (.x 0x79 o)
  | .mcheck o => some (.x 0x7A o)
  | .msave o => some (.x 0x7B o)
  | .mrestore o => some (.x 0x7C o)
  | .pfill o => some (.x 0x7D o)
  | .pwait o => some (.x 0x7E o)
  | .pzapB o => some (.x 0x7F o)
  | .pzapC o => some (.x 0x7F o)
  | .ld o => some (.m 0x80 o)
  | .st o => some (.m 0x81 o)
  | .ldc o => some (.m 0x82 o)
  | .lds o => some (.m 0x83 o)
  | .sts o => some (.m 0x84 o)
  | .ldl o => some (.m 0x85 o)
  | .stl o => some (.m 0x86 o)
  | .atom o => some (.m 0x87 o)
  | .red o => some (.m 0x88 o)
  | .pf o => some (.m 0x89 o)
  | .rqpage o => some (.m 0x8A o)
  | .cwbL2 o => some (.m 0x8B o)
  | .cwbMem o => some (.m 0x8B o)
  | .cinv o => some (.m 0x8C o)
  | .cpin o => some (.m 0x8D o)
  | .cunpin o => some (.m 0x8E o)
  | .icinv o => some (.m 0x8F o)
  | .fetchbar o => some (.m 0x90 o)
  | .fence o => some (.m 0x91 o)
  | .monarm o => some (.m 0x92 o)
  | .monwait o => some (.m 0x93 o)
  | .svbind o => some (.m 0x94 o)
  | .svunbind o => some (.m 0x95 o)
  | .barinit o => some (.x 0xA0 o)
  | .bararr o => some (.x 0xA1 o)
  | .barwait o => some (.x 0xA2 o)
  | .bartest o => some (.x 0xA3 o)
  | .barexp o => some (.x 0xA4 o)
  | .swinit o => some (.m 0xA5 o)
  | .swexp o => some (.m 0xA6 o)
  | .swadd o => some (.m 0xA7 o)
  | .swwait o => some (.m 0xA8 o)
  | .swpoll o => some (.m 0xA9 o)
  | .ctrsel o => some (.s 0xAA o)
  | .ctrrd o => some (.s 0xAB o)
  | .arnew o => some (.a 0xB0 o)
  | .aralloc o => some (.a 0xB1 o)
  | .arfree o => some (.a 0xB2 o)
  | .arseal o => some (.a 0xB3 o)
  | .ardrop o => some (.a 0xB4 o)
  | .arquery o => some (.a 0xB5 o)
  | .rgset o => some (.a 0xB6 o)
  | .rgclr o => some (.a 0xB7 o)
  | .rgquery o => some (.a 0xB8 o)
  | .forkw o => some (.a 0xB9 o)
  | .wend o => some (.a 0xBA o)
  | .choose o => some (.a 0xBB o)
  | .chooseMin o => some (.a 0xBB o)
  | .wabort o => some (.a 0xBC o)
  | .wquery o => some (.a 0xBD o)
  | .tlaunch o => some (.x 0xC0 o)
  | .tdep o => some (.x 0xC1 o)
  | .tdepGo o => some (.x 0xC1 o)
  | .worknext o => some (.x 0xC2 o)
  | .qpop o => some (.a 0xC3 o)
  | .ringdecl o => some (.m 0xC4 o)
  | .ringdeclClr o => some (.m 0xC4 o)
  | .rsend o => some (.m 0xC5 o)
  | .rhead o => some (.m 0xC6 o)
  | .ldesc o => some (.x 0xC7 o)
  | .bcopy o => some (.x 0xC8 o)
  | .bstore o => some (.x 0xC9 o)
  | .bmcast o => some (.x 0xCA o)
  | .bred o => some (.x 0xCB o)
  | .br o => some (.b 0xD0 o)
  | .braAny o => some (.b 0xD1 o)
  | .braAll o => some (.b 0xD1 o)
  | .brx o => some (.b 0xD2 o)
  | .call o => some (.b 0xD3 o)
  | .calli o => some (.b 0xD4 o)
  | .ret o => some (.b 0xD5 o)
  | .prio o => some (.b 0xD6 o)
  | .regroup o => some (.b 0xD7 o)
  | .regroupRestore o => some (.b 0xD7 o)
  | .exit o => some (.b 0xD8 o)
  | .trail o => some (.b 0xD9 o)
  | .trap o => some (.s 0xE0 o)
  | .rte o => some (.s 0xE1 o)
  | .mfsys o => some (.s 0xE2 o)
  | .mtsys o => some (.s 0xE3 o)
  | .sysc o => some (.s 0xE4 o)
  | .errq o => some (.s 0xE5 o)
  | .ckpt o => some (.s 0xE6 o)
  | .rpset o => some (.s 0xE7 o)
  | .tlbinv o => some (.s 0xE8 o)
  | .pgsplit o => some (.s 0xE9 o)
  | .stest o => some (.s 0xEA o)
  | .runDispatch _ => none
  | .fetchResume _ _ => none
  | .longLatencyComplete _ _ _ => none
  | .heldAccessResume _ _ => none
  | .regroupMeetingComplete _ => none
  | .regroupRestoreComplete _ => none
  | .easelCommandStart _ _ => none
  | .easelSlab _ _ => none
  | .easelCommandComplete _ _ => none
  | .fillSlab _ _ => none
  | .fillComplete _ _ => none
  | .walkPush _ _ => none
  | .brushBurst _ _ => none
  | .brushCommandComplete _ _ => none
  | .bmcastHop _ _ => none
  | .bredAccept _ _ => none
  | .bredRoundComplete _ _ => none
  | .ringDelivery _ _ _ => none
  | .ringRetry _ _ _ => none
  | .torusHop _ => none
  | .redMerge _ _ => none
  | .cacheEviction _ _ _ => none
  | .dropBroadcastApply _ _ => none
  | .sweepComplete _ _ => none
  | .sealBroadcastApply _ _ => none
  | .tlbShootdownAck _ _ => none
  | .rivalAdmission _ _ => none
  | .worldParentRestore _ _ => none
  | .kickWrite _ _ => none
  | .serveKick _ _ => none
  | .readyRanges _ => none
  | .migrationEnd _ _ => none
  | .cellAdmission _ => none
  | .preemptCell _ => none
  | .restoreCell _ _ => none
  | .cellRetirement _ => none
  | .controllerTakeover _ => none
  | .rollback _ => none
  | .shadowCompare _ _ => none
  | .ckptPrepareAck _ _ => none
  | .ckptSeal _ => none
  | .recovery _ => none
  | .containmentReset _ => none
  | .errorReport _ _ => none
  | .selfTest _ _ => none
  | .moduleReset _ => none
  | .lifecycleTransition _ _ => none
  | .featAcceptWrite _ => none
  | .attestRequest _ => none
  | .attestReport => none
  | .powerWrite _ => none
  | .powerCapStepdown => none
  | .engineReset _ => none
  | .engtailWrite _ _ => none
  | .engineTakeCommand _ => none
  | .codecRow _ _ _ => none
  | .codecHandoffResume _ => none
  | .engineTimeout _ => none
  | .engineCommandEnd _ _ => none
  | .hostBar2Access _ _ _ => none
  | .peerAccess _ _ _ => none
  | .peerUnreachable _ => none
  | .registerWrite _ _ => none
  | .arithmeticCycle _ => none
  | .runSettled _ _ => none
  | .softError _ => none
  | .migrationBegin _ => none
  | .contextCreation _ => none
  | .contextEnd _ => none
  | .leafRewrite _ _ => none

/-- Family of an assigned major; none for the 84 reserved majors (R77). -/
def familyOf (major : Nat) : Option Family :=
  if major ≤ 0x1B then some .a else
  if major ≤ 0x1F then none else
  if major ≤ 0x2A then some .a else
  if major ≤ 0x2F then none else
  if major ≤ 0x4B then some .a else
  if major ≤ 0x5F then none else
  if major ≤ 0x67 then some .a else
  if major ≤ 0x6F then none else
  if major ≤ 0x7F then some .x else
  if major ≤ 0x95 then some .m else
  if major ≤ 0x9F then none else
  if major ≤ 0xA4 then some .x else
  if major ≤ 0xA9 then some .m else
  if major ≤ 0xAB then some .s else
  if major ≤ 0xAF then none else
  if major ≤ 0xBD then some .a else
  if major ≤ 0xBF then none else
  if major ≤ 0xC2 then some .x else
  if major ≤ 0xC3 then some .a else
  if major ≤ 0xC6 then some .m else
  if major ≤ 0xCB then some .x else
  if major ≤ 0xCF then none else
  if major ≤ 0xD9 then some .b else
  if major ≤ 0xDF then none else
  if major ≤ 0xEA then some .s else
  if major ≤ 0xFF then none else
  none

/-! ### What each row accepts -/

def tyInt : List Ty := [.i8, .i16, .i32, .i64, .n8, .n16, .n32, .n64]
def tyS : List Ty := [.i8, .i16, .i32, .i64]
def tyFL : List Ty := [.f32, .f16, .bf16]
def tyW : List Ty := [.i32, .i64, .n32, .n64]
def tyQ : List Ty := [.e4m3, .e5m2, .e2m1, .gq4]
def tyF6 : List Ty := [.f32, .f16, .bf16, .e4m3, .e5m2, .e2m1]

/-- Row of an A-family instruction: accepted types, which of d, a, b, c it uses, which bits of [31:0]. -/
structure ARow where
  tys : List Ty
  d : Bool
  a : Bool
  b : Bool
  c : Bool
  mask : Nat
deriving DecidableEq, Repr

/-- Modifier masks of R206: pw, hsz, sreg, sidx, stype, rnd, ftz, sat, nsat, pk. -/
def fmPw := 0xF0000000
def fmHsz := 0x0C000000
def fmSreg := 0x03FC0000
def fmSidx := 0x0003E000
def fmStype := 0x00001E00
def fmRnd := 0x000001C0
def fmFtz := 0x20
def fmSat := 0x10
def fmNsat := 0x08
def fmPk := 0x04

/-- Rows of R111, R208, R342, R363, R401 by major and variant. gq4 forms of fqnt, fdqt and fscl use b: see
`aUses`. -/
def aRow (major variant : Nat) : Option ARow :=
  match major, variant with
  | 0x00, 0 => some ⟨[.i8], false, false, false, false, 0⟩
  | 0x00, 1 => some ⟨tyInt, true, true, false, false, 0⟩
  | 0x00, 2 => some ⟨tyInt, true, false, false, false, 0xFFFFFFFF⟩
  | 0x00, 3 => some ⟨[.n64], true, false, false, false, 0xFFFFFFFF⟩
  | 0x01, 0 | 0x02, 0 | 0x05, 0 | 0x18, 0 => some ⟨tyInt, true, true, true, false, 1⟩
  | 0x03, 0 | 0x04, 0 => some ⟨[.n32, .n64], true, true, true, false, 0x1FF00⟩
  | 0x06, 0 | 0x0A, 0 | 0x0A, 1 | 0x0C, 0 | 0x0D, 0 | 0x0E, 0 | 0x0F, 0 | 0x11, 0 | 0x11, 1 | 0x11, 2 | 0x11, 3
  | 0x19, 0 => some ⟨tyInt, true, true, true, false, 0⟩
  | 0x07, 0 | 0x08, 0 => some ⟨tyInt, true, true, true, true, 1⟩
  | 0x09, 0 | 0x09, 1 => some ⟨tyS, true, true, false, false, 1⟩
  | 0x0B, 0 => some ⟨tyInt, true, true, true, true, 0⟩
  | 0x10, 0 | 0x14, 0 | 0x14, 1 | 0x14, 2 | 0x14, 3 => some ⟨tyInt, true, true, false, false, 0⟩
  | 0x12, 0 => some ⟨tyInt, true, true, true, false, 0x1FFFF⟩
  | 0x13, 0 => some ⟨tyInt, true, true, true, true, 0x1FFFF⟩
  | 0x15, 0 => some ⟨tyInt, true, true, true, false, 0xF00⟩
  | 0x16, v => if v < 6 then some ⟨tyInt, false, true, true, false, 0xF000⟩ else none
  | 0x17, 0 => some ⟨tyInt, true, true, false, false, 0xF1⟩
  | 0x1A, 0 => some ⟨[.i32, .n32], true, true, true, false, 0xFFFFFF07⟩
  | 0x1B, 0 => some ⟨[.i8, .n8], true, true, true, true, 1⟩
  | 0x20, 0 | 0x21, 0 | 0x22, 0 => some ⟨[.i8], false, false, false, false, 0xFFF0⟩
  | 0x23, 0 | 0x24, 0 | 0x27, 0 | 0x28, 0 => some ⟨[.i8], false, false, false, false, 0xFF00⟩
  | 0x25, 0 | 0x26, 0 => some ⟨[.n32], true, false, false, false, 0x0F00⟩
  | 0x29, 0 => some ⟨tyW, true, true, true, false, 0⟩
  | 0x2A, 0 => some ⟨[.i8], false, true, false, false, 0xF000⟩
  | 0x30, 0 | 0x31, 0 | 0x32, 0 => some ⟨tyFL, true, true, true, false, fmRnd + fmFtz + fmSat + fmPk⟩
  | 0x33, 0 => some ⟨tyFL, true, true, true, true, fmRnd + fmFtz + fmSat + fmPk⟩
  | 0x34, 0 | 0x35, 0 => some ⟨tyFL, true, true, true, false, fmFtz + fmPk⟩
  | 0x36, v => if v < 8 then some ⟨tyFL, false, true, true, false, fmPw + fmFtz⟩ else none
  | 0x37, 0 => some ⟨tyF6, true, true, false, false, 0⟩
  | 0x38, 0 => some ⟨tyFL, true, true, false, false, fmRnd + fmFtz + fmPk⟩
  | 0x39, 0 | 0x3A, 0 | 0x3B, 0 => some ⟨tyFL, true, true, false, false, fmRnd + fmFtz + fmSat + fmPk⟩
  | 0x3C, 0 | 0x3D, 0 | 0x3E, 0 | 0x3F, 0 => some ⟨[.f32], true, true, false, false, fmFtz⟩
  | 0x40, 0 => some ⟨tyFL, true, true, true, false, fmRnd + fmFtz + fmSat⟩
  | 0x41, 0 | 0x41, 1 => some ⟨tyFL, true, true, false, false, fmFtz⟩
  | 0x42, 0 => some ⟨tyInt ++ tyF6, true, true, false, false, fmStype + fmRnd + fmFtz + fmSat + fmNsat⟩
  | 0x42, 1 => some ⟨[.f16, .bf16], true, true, true, false, fmStype + fmRnd + fmFtz + fmSat⟩
  | 0x43, 0 => some ⟨tyQ, true, true, true, false, fmPw + fmHsz + fmSreg + fmSidx + fmStype + fmRnd + fmSat + fmNsat⟩
  | 0x44, 0 => some ⟨tyFL, true, true, true, false, fmSreg + fmSidx + fmStype + fmRnd + fmFtz + fmSat⟩
  | 0x45, 0 => some ⟨tyQ, true, true, true, false, fmPw + fmHsz + fmSidx + fmStype⟩
  | 0x46, 0 => some ⟨[.f16, .bf16], true, true, true, true, fmRnd + fmFtz + fmSat⟩
  | 0x47, 0 | 0x48, 0 => some ⟨[.f64], true, true, true, false, fmRnd + fmFtz + fmSat⟩
  | 0x49, 0 => some ⟨[.f64], true, true, true, true, fmRnd + fmFtz + fmSat⟩
  | 0x4A, v => if v < 8 then some ⟨[.f64], false, true, true, false, fmPw + fmFtz⟩ else none
  | 0x4B, 0 => some ⟨[.f64, .f32, .i32, .n32, .i64, .n64], true, true, false, false, fmStype + fmRnd + fmFtz + fmSat⟩
  | 0x4B, 1 => some ⟨[.f64], true, true, false, false, fmStype + fmRnd + fmFtz + fmSat⟩
  | 0x60, 0 => some ⟨[.i8], false, true, false, false, 7⟩
  | 0x61, 0 => some ⟨tyFL, true, true, true, true, 7⟩
  | 0x62, v => if v < 4 then some ⟨[.n32, .n64], true, true, true, false, 0xE00⟩ else none
  | 0x63, 0 => some ⟨[.n32], true, true, true, true, 0⟩
  | 0x64, 0 => some ⟨[.n32, .n64], true, true, true, false, 0⟩
  | 0x65, v => if v < 6 then some ⟨tyW, true, true, false, false, 0⟩
               else if v < 9 then some ⟨[.f32], true, true, false, false, if v = 6 then 0x1C0 else 0⟩ else none
  | 0x66, v => if v < 4 then some ⟨tyW, true, true, false, false, 0⟩
               else if v < 6 then some ⟨[.f32], true, true, false, false, 0x1C0⟩ else none
  | 0x67, 0 => some ⟨[.n32, .n64], true, true, false, false, 0⟩
  | 0xB0, 0 => some ⟨[.n64], true, true, true, true, 0xF8000000⟩
  | 0xB1, 0 | 0xB1, 1 => some ⟨[.n64], true, true, true, false, 0xF8000000⟩
  | 0xB2, 0 => some ⟨[.n64], false, true, true, true, 0⟩
  | 0xB3, 0 | 0xB4, 0 | 0xB4, 1 => some ⟨[.n64], false, true, false, false, 0⟩
  | 0xB5, 0 => some ⟨[.n64], true, true, false, false, 3⟩
  | 0xB6, 0 => some ⟨[.n64], true, true, true, false, 0xF8000003⟩
  | 0xB7, 0 => some ⟨[.n64], false, true, false, false, 0⟩
  | 0xB8, 0 => some ⟨[.n64], true, true, false, false, 0⟩
  | 0xB9, 0 => some ⟨[.n64], true, true, true, false, 0xF8000000⟩
  | 0xBA, 0 => some ⟨[.n64], false, true, false, false, 0⟩
  | 0xBB, 0 => some ⟨[.n64], true, true, false, false, 0⟩
  | 0xBB, 1 => some ⟨[.n64], true, false, false, false, 0⟩
  | 0xBC, 0 => some ⟨[.n64], false, false, false, false, 0⟩
  | 0xBD, 0 => some ⟨[.n64], true, true, false, false, 1⟩
  | 0xC3, 0 => some ⟨[.n32, .n64], true, true, false, false, 0⟩
  | 0xC3, 1 => some ⟨[.n32], false, true, false, false, 0x1F⟩
  | _, _ => none

/-- Source type named in the modifier word (R110, R206). -/
def AOp.stype (major : Nat) (o : AOp) : Ty :=
  if major = 0x17 then Ty.ofCode (bits o.m.toNat 7 4) else Ty.ofCode (bits o.m.toNat 12 9)

/-- The (type, stype) pairs of R124 and R220-R227; others are ILLEGAL_OP (R209; log 30). -/
def aPair (major variant : Nat) (t st : Ty) : Bool :=
  match major, variant with
  | 0x17, _ => st ∈ tyInt
  | 0x42, 0 => (t ∈ tyF6 && st ∈ tyF6) || (t ∈ tyInt && st ∈ tyFL) || (t ∈ tyFL && st ∈ tyInt)
  | 0x42, _ => st == .f32
  | 0x43, _ | 0x45, _ => st ∈ tyFL
  | 0x44, _ => st ∈ tyQ
  | 0x4B, 0 => (t == .f64) != (st == .f64) && (t == .f64 || st == .f64) && st ∈ [Ty.f64, .f32, .i32, .n32, .i64, .n64]
  | 0x4B, _ => st == .f64
  | _, _ => true

/-- Which of d, a, b, c an A-family instruction uses (R73). -/
def aUses (major : Nat) (o : AOp) : Bool × Bool × Bool × Bool :=
  match aRow major o.variant.toNat with
  | none => (false, false, false, false)
  | some r =>
    let fi := bits o.m.toNat 16 16 = 1
    let gq := o.ty == .gq4 || o.stype major == .gq4
    match major with
    | 0x12 => (r.d, r.a, !decide fi, false)
    | 0x13 => (r.d, r.a, r.b, !decide fi)
    | 0x43 | 0x44 | 0x45 => (r.d, r.a, gq, false)
    | _ => (r.d, r.a, r.b, r.c)

def Src.isV : Src → Bool | .v _ _ => true | _ => false
def Src.isG : Src → Bool | .g _ _ => true | _ => false
def Src.isQ : Src → Bool | .q _ => true | _ => false
/-- g register, special register or immediate: the uniform operand classes (R109, R342). -/
def Src.isUni : Src → Bool | .g _ _ | .sp _ | .imm _ => true | _ => false
def Src.isZero : Src → Bool | .v i tr => i == 0 && !tr | _ => false
def Src.evenV : Src → Bool | .v i _ => i.toNat % 2 == 0 | _ => true
def Dst.isV : Dst → Bool | .v _ => true | _ => false
def Dst.isG : Dst → Bool | .g _ => true | _ => false
def Dst.isZero : Dst → Bool | .v i => i == 0 | _ => false
def Dst.evenV : Dst → Bool | .v i => i.toNat % 2 == 0 | _ => true
/-- Index of a v operand, 0 otherwise. -/
def Src.vIdx : Src → Nat | .v i _ => i.toNat | _ => 0
def Dst.vIdx : Dst → Nat | .v i => i.toNat | _ => 0

/-- Registers of the unpacked range of a quantised conversion (R224). -/
def rangeLen (q u : Ty) : Nat :=
  if q == .e2m1 || q == .gq4 then (if u == .f32 then 8 else 4) else (if u == .f32 then 4 else 2)

/-- `.sat` and `.nsat` accepted destinations (R189). -/
def satOk (t : Ty) : Bool := t ∈ [Ty.f64, .f32, .f16, .bf16, .e5m2]
def ftzOk (t : Ty) : Bool := t ∈ [Ty.f64, .f32, .f16, .bf16]

/-- Field checks of the FM modifier word (R206, R209): `dt` the destination type, `st` the other type. -/
def fmOk (m : Nat) (dt st : Ty) : Bool :=
  bits m 8 6 ≤ 4 && !(bits m 4 4 = 1 && bits m 3 3 = 1) && (bits m 4 4 = 0 || satOk dt) && (bits m 3 3 = 0 || dt == .e4m3)
  && (bits m 5 5 = 0 || ftzOk dt || ftzOk st) && !(bits m 2 2 = 1 && dt == .f32)

/-- Range of the scale-select index (R197, R199). -/
def sidxOk (q : Ty) (j : Nat) : Bool := if q == .e2m1 then j ≤ 3 else if q == .gq4 then j ≤ 31 else j ≤ 15

/-- A used f64 source: even pair, g register or temporary (R221). -/
def f64Src : Src → Bool | .v i _ => i.toNat % 2 == 0 | .g _ _ | .t _ => true | _ => false

/-- The ILLEGAL_FIELD checks of the A family beyond the row's mask and reserved fields. -/
def aExtra (major : Nat) (o : AOp) : Bool :=
  let m := o.m.toNat
  let w64 := o.ty.width == 64
  let st := o.stype major
  if major ≤ 0x1B then
    let even := if major = 0x17 then (st.width ≠ 64 || o.a.evenV) && (!w64 || o.d.evenV)
                else if major = 0x1A then o.d.evenV && o.a.evenV
                else !w64 || (o.d.evenV && o.a.evenV && o.b.evenV && o.c.evenV)
    let u := aUses major o
    let uni := !(o.d.isG) || (major ≠ 3 && major ≠ 4 && major ≠ 0x15 && (!u.2.1 || o.a.isUni) && (!u.2.2.1 || o.b.isUni)
                              && (!u.2.2.2 || o.c.isUni))
    even && uni &&
    (match major with
     | 3 | 4 => bits m 16 16 = 1 || bits m 11 8 = 0
     | 0x12 | 0x13 => bits m 16 16 = 1 || bits m 15 0 = 0
     | _ => true)
  else match major with
  | 0x25 | 0x26 => o.d.isV || o.d.isG
  | 0x29 => o.d.isG && o.a.isV && (!w64 || o.a.evenV) && o.b.isUni
  | 0x2A => o.a.isG
  | 0x42 => !o.d.isG && fmOk m o.ty (if o.variant == 1 then .f32 else st) && (!w64 || o.d.evenV) && (st.width ≠ 64 || o.a.evenV)
  | 0x43 => o.d.isV && o.a.isV && fmOk m o.ty st && bits m 27 26 ≤ 2 && sidxOk o.ty (bits m 17 13)
            && o.a.vIdx + rangeLen o.ty st ≤ 256 && (o.ty ≠ .gq4 || o.b.isUni)
  | 0x44 => o.d.isV && o.a.isV && fmOk m o.ty o.ty && sidxOk st (bits m 17 13)
            && o.d.vIdx + rangeLen st o.ty ≤ 256 && (st ≠ .gq4 || o.b.isUni)
  | 0x45 => o.d.isV && o.a.isV && bits m 27 26 ≤ 2 && sidxOk o.ty (bits m 17 13)
            && o.a.vIdx + rangeLen o.ty st ≤ 256 && (o.ty ≠ .gq4 || o.b.isUni)
  | 0x46 => !o.d.isG && fmOk m .f32 o.ty
  | 0x47 | 0x48 | 0x49 => !o.d.isG && o.d.evenV && fmOk m .f64 .f64 && f64Src o.a && f64Src o.b && (major ≠ 0x49 || f64Src o.c)
  | 0x4A => f64Src o.a && f64Src o.b
  | 0x4B => !o.d.isG && (o.ty.width ≠ 64 || o.d.evenV) && fmOk m o.ty st
            && (if st == .f64 then f64Src o.a else st.width ≠ 64 || o.a.evenV)
  | 0x60 => o.a.isG
  | 0x61 => !o.d.isG
  | 0x62 => !o.d.isG && o.a.isV && bits m 11 9 ≤ 4 && (!w64 || (o.d.evenV && o.a.evenV && o.b.evenV))
  | 0x63 => !o.d.isG
  | 0x64 => !o.d.isG && o.a.isV && (!w64 || (o.d.evenV && o.a.evenV)) && o.b.isUni
  | 0x65 => o.a.isV && (!w64 || (o.d.evenV && o.a.evenV)) && bits m 8 6 ≤ 3
  | 0x66 => !o.d.isG && o.a.isV && (!w64 || (o.d.evenV && o.a.evenV)) && bits m 8 6 ≤ 3
  | 0x67 => !o.d.isG && o.a.isV && (!w64 || (o.d.evenV && o.a.evenV))
  | 0xC3 => o.a.isQ && !o.d.isG && (!w64 || o.d.evenV) && (o.variant == 0 || (1 ≤ m && m ≤ 16))
  | _ =>
    if 0x30 ≤ major && major ≤ 0x41 then (major = 0x36 || !o.d.isG) && fmOk m o.ty o.ty
    else
      let u := aUses major o   -- 0xB0-0xBD
      (!u.1 || o.d.isG) && (!u.2.1 || o.a.isUni) && (!u.2.2.1 || o.b.isUni) && (!u.2.2.2 || o.c.isUni)
      && (bits m 27 27 = 1 || bits m 31 28 = 0)

/-- Variant and type accepted (else ILLEGAL_OP, R70). -/
def aOpOk (major : Nat) (o : AOp) : Bool :=
  match aRow major o.variant.toNat with
  | none => false
  | some r => o.ty ∈ r.tys && aPair major o.variant.toNat o.ty (o.stype major)

/-- Fields accepted (else ILLEGAL_FIELD). -/
def aFieldOk (major : Nat) (o : AOp) : Bool :=
  match aRow major o.variant.toNat with
  | none => false
  | some r =>
    let u := aUses major o
    (o.m.toNat &&& (0xFFFFFFFF - r.mask)) == 0 && (u.1 || o.d.isZero) && (u.2.1 || o.a.isZero) && (u.2.2.1 || o.b.isZero)
    && (u.2.2.2 || o.c.isZero) && aExtra major o

/-- Order and scope sets of R169 and R314. -/
def scUpTo5A (s : Scope) : Bool := s ∈ [Scope.grp, .cell, .die, .dev, .sys, .auto]
def osOk (major variant : Nat) (o : Order) (s : Scope) : Bool :=
  let sp := variant % 2 = 1   -- `.sp` of the synchronisation-word majors
  match major with
  | 0x80 => (o == .rlx && (s == .plain || scUpTo5A s)) || (o == .acq && scUpTo5A s)
  | 0x81 => (o == .rlx && (s == .plain || scUpTo5A s)) || (o == .rel && (s == .rcv || scUpTo5A s))
  | 0x83 => (o == .rlx && s == .plain) || (o == .acq && (s == .grp || s == .cell))
  | 0x84 => (o == .rlx && s == .plain) || (o == .rel && (s == .grp || s == .cell))
  | 0x87 => (o == .rlx && s == .plain) || scUpTo5A s
  | 0x88 => (o == .rlx && (s == .plain || scUpTo5A s)) || (o == .rel && scUpTo5A s)
  | 0x91 => ((o == .acq || o == .ar) && scUpTo5A s) || (o == .rel && (s == .rcv || scUpTo5A s))
  | 0xA6 | 0xA7 => (o == .rlx && s == .plain) || (o == .rel && (if sp then s == .grp || s == .cell else scUpTo5A s))
  | 0xA8 | 0xA9 => (o == .rlx && s == .plain) || (o == .acq && (if sp then s == .grp || s == .cell else scUpTo5A s))
  | _ => o == .rlx && s == .plain

/-- Variant and width accepted (R169, R314, R417). -/
def mOpOk (major : Nat) (o : MOp) : Bool :=
  let v := o.variant.toNat
  let noTy := o.ty == .i8
  match major with
  | 0x80 | 0x81 => v < 2 && o.ty.code ≤ 13
  | 0x82 | 0x83 | 0x84 | 0x85 | 0x86 => v = 0 && o.ty.code ≤ 13
  | 0x87 => v < 8 && (o.ty ∈ (if v < 3 then tyW else [Ty.n32, .n64]) || (v = 0 && o.ty == .f32))
  | 0x88 => v < 6 && (o.ty ∈ (if v < 3 then tyW else [Ty.n32, .n64]) || (v = 0 && o.ty == .f32))
  | 0x8B => v < 2 && noTy
  | 0xA5 | 0xA6 | 0xA7 | 0xA8 => v < 2 && noTy
  | 0xA9 => v < 4 && noTy
  | 0xC4 => v < 2
  | 0xC5 | 0xC6 => v = 0
  | _ => v = 0 && noTy

/-- Fields accepted (R169, R170, R314, R417). -/
def mFieldOk (major : Nat) (o : MOp) : Bool :=
  let v := o.variant.toNat
  let w64 := o.ty.width == 64
  let noAddr := o.index.isZero && o.base == some 0 && o.shift == 0 && o.off == 0
  let noRes := o.res == 0
  let noHint := o.hint == 0
  let evenD := !w64 || o.data.evenV
  osOk major v o.order o.scope && o.hint.toNat ≤ 4 && (!w64 || o.index.evenV) &&
  match major with
  | 0x80 => (o.data.isV || o.data.isG) && evenD && (!o.data.isG || o.index.isUni) && (v = 0 || o.base.isNone)
  | 0x81 => evenD && noRes && (v = 0 || o.base.isNone)
  | 0x82 => (o.data.isV || o.data.isG) && evenD && (!o.data.isG || o.index.isUni)
  | 0x83 => (o.data.isV || o.data.isG) && evenD && (!o.data.isG || o.index.isUni) && noRes && noHint
  | 0x84 => evenD && noRes && noHint
  | 0x85 => o.data.isV && evenD && noRes && noHint
  | 0x86 => !o.data.isG && evenD && noRes && noHint
  | 0x87 => o.data.isV && evenD && noRes
            && (v ≠ 7 || (if w64 then o.data.vIdx % 4 == 0 else o.data.vIdx ≤ 254))
  | 0x88 => (o.data.isV || o.data.isG) && evenD && noRes
  | 0x89 => o.data.isZero && noRes
  | 0x8A | 0x8C | 0x8E => o.data.isZero && noRes && noHint
  | 0x8B => o.data.isZero && noRes
  | 0x8D => o.data.isZero && noHint
  | 0x8F | 0x92 | 0x95 => o.data.isZero && o.index.isUni && noRes && noHint
  | 0x90 | 0x91 | 0x93 => o.data.isZero && noAddr && noRes && noHint
  | 0x94 => (match o.data with | .g i => i.toNat % 2 == 0 | _ => false) && o.index.isUni && noRes && noHint
  | 0xA5 | 0xA6 | 0xA7 | 0xA8 | 0xA9 => o.data.isG && o.index.isUni && noRes && noHint && o.shift == 0
  | 0xC4 => (if v = 0 then (match o.data with | .g i => i.toNat % 2 == 0 | _ => false) else o.data.isZero)
            && o.index == .imm 0 && o.base.isNone && o.shift == 0 && noRes && noHint && o.ty == .i8 && o.off.toNat < 8
  | 0xC5 => o.data.isG && (o.index.isG || o.index == .imm 0) && o.base.isNone && o.shift == 0 && noRes && noHint
            && o.ty == .i8 && o.off.toNat < 8
  | 0xC6 => o.data.isG && o.index == .imm 0 && o.base.isNone && o.shift == 0 && noRes && noHint && o.ty == .i8
            && o.off.toNat < 8
  | _ => false

def bOpOk (major : Nat) (o : BOp) : Bool :=
  match major with
  | 0xD1 | 0xD7 => o.sub.toNat < 2
  | _ => o.sub.toNat = 0

/-- An indirect code target: even v pair, g register, or temporary where `t` says so (R136, R140). -/
def targetSrc (t : Bool) : Src → Bool
  | .v i _ => i.toNat % 2 == 0 | .g _ _ => true | .t _ => t | _ => false

def popc (n w : Nat) : Nat := ((List.range w).filter (fun i => n.testBit i)).length

/-- The trail mask (R141): bits 15..0 in aux, 23..16 in a[7:0]. -/
def BOp.trailMask (o : BOp) : Nat := o.aux.toNat + 65536 * bits o.a.field 7 0

def bFieldOk (major : Nat) (o : BOp) : Bool :=
  let noLink := o.link.isZero
  let noA := o.a.isZero
  let noOff := o.line == 0 && o.slot == 0
  let noPrio := o.prio == 0
  let noAux := o.aux == 0
  let p0 := o.gd.p == 0 && !o.gd.neg
  match major with
  | 0xD0 | 0xD1 => noLink && noA && noPrio && noAux && o.slot.toNat ≤ 4
  | 0xD2 => noLink && targetSrc true o.a && noPrio && noAux && noOff
  | 0xD3 => o.link.isV && o.link.evenV && noA && noPrio && noAux && o.slot.toNat ≤ 4
  | 0xD4 => o.link.isV && o.link.evenV && targetSrc true o.a && noPrio && noAux && noOff
  | 0xD5 => noLink && targetSrc false o.a && noPrio && noAux && noOff
  | 0xD6 => noLink && noA && noAux && noOff && p0
  | 0xD9 => noLink && noPrio && noOff && p0 && o.a.field < 128 && 1 ≤ popc o.trailMask 24 && popc o.trailMask 24 ≤ 6
  | _ => noLink && noA && noPrio && noAux && noOff

/-! MX word parts (R262) and the family's named fields. -/
def XOp.tile (o : XOp) : Nat := bits o.imm.toNat 23 20
def XOp.cv (o : XOp) : Nat := bits o.imm.toNat 19 17
def XOp.hold (o : XOp) : Bool := bits o.imm.toNat 16 16 == 1
def XOp.val (o : XOp) : Nat := bits o.imm.toNat 15 0

def xOpOk (major : Nat) (o : XOp) : Bool :=
  let v := o.sub.toNat
  match major with
  | 0x73 | 0x78 | 0x79 | 0x7F | 0xC0 | 0xC1 => v < 2
  | 0xCB => v < 4
  | _ => v = 0

def xFieldOk (major : Nat) (o : XOp) : Bool :=
  let v := o.sub.toNat
  let noDest := o.dest.isZero
  let noRec := o.record == 0
  let recOk := o.record.toNat < 96
  let noCo := o.coord.isZero
  let noBar := o.bar == 0
  let noRep := o.report == 0
  let noCnt := o.count == 0
  let noGr := o.granule == 0
  let noImm := o.imm == 0
  let im := o.imm.toNat
  let repBar := o.report.toNat < 2
  let repOk := o.report.toNat < 4 && (if repBar then noDest else noBar && o.dest.isG)
  if 0x70 ≤ major && major ≤ 0x7F then
    noBar && noRep &&
    match major with
    | 0x70 => noDest && noRec && noCo && noCnt && noGr && bits im 23 20 = 0 && !o.hold && 1 ≤ o.val && o.val ≤ 512
    | 0x71 | 0x72 => noDest && noRec && noCo && noCnt && noGr && bits im 23 20 = 0 && !o.hold && o.val = 0
    | 0x73 | 0x76 | 0x7A => noDest && noRec && noCo && noCnt && noGr && bits im 19 0 = 0
    | 0x74 => noDest && recOk && noCnt && o.val = 0
              && (match o.coord with | .g _ _ | .t _ | .imm _ => true | _ => false)
    | 0x75 => noDest && recOk && noCo && 1 ≤ o.count.toNat && o.count.toNat ≤ 8
    | 0x77 => noDest && noRec && noCo && noCnt && noGr && bits im 19 16 = 0
    | 0x78 => o.dest.isV && o.dest.vIdx + (if v = 0 then 16 else 4) ≤ 256 && noRec && noCo && noCnt && noGr && bits im 19 0 = 0
    | 0x79 => noDest && noRec && (match o.coord with | .v i _ => i.toNat ≤ 240 | _ => false) && noCnt && noGr && bits im 19 0 = 0
    | 0x7B | 0x7C | 0x7F => noDest && recOk && noCo && noCnt && noGr && noImm
    | 0x7D => noDest && recOk && noCo && noCnt && im < 8
    | 0x7E => noDest && noRec && noCo && noCnt && noGr && im < 8
    | _ => false
  else match major with
  | 0xA0 => noDest && noRec && noCo && noRep && noImm && noGr && 1 ≤ o.count.toNat && o.count.toNat ≤ 63
  | 0xA1 | 0xA2 => noDest && noRec && noCo && noRep && noCnt && noImm && noGr
  | 0xA3 => noDest && noRec && noCo && noRep && noCnt && noGr && im < 16
  | 0xA4 => noDest && recOk && noCo && noRep && noCnt && noImm && noGr
  | 0xC0 => o.dest.isG && recOk && noCo && noBar && noRep && noCnt && noGr && im < 64
  | 0xC1 => noDest && recOk && (if v = 0 then o.coord.isG else noCo) && noBar && noRep && noCnt && noImm && noGr
  | 0xC2 => (match o.dest with | .g i => i.toNat % 2 == 0 && i.toNat ≤ 94 | _ => false) && recOk && noCo && noBar && noRep
            && noCnt && noGr && 1 ≤ im
  | 0xC7 => o.dest.isG && recOk && (o.coord.isG || o.coord == .imm 0) && noBar && noRep && noCnt && noGr && im < 8
  | 0xC8 | 0xC9 => repOk && recOk && o.coord.isV && noCnt && im % 16 = 0
  | 0xCA => repOk && recOk && noCo && 1 ≤ o.count.toNat && o.count.toNat ≤ 15 && im % 16 = 0 && noGr
  | 0xCB => repOk && recOk && noCo && noCnt && noImm && noGr
  | _ => false

/-- Words of each system register a program can name through mfsys and mtsys; none where unassigned (R145, R205,
R311, R341, R353, R431). -/
def sysWords (n : Nat) : Option Nat :=
  if n ≤ 4 || n = 0x10 || n = 0x11 || n = 0x20 || n = 0x21 || n = 0x22 || n = 0x30 || n = 0x50 || n = 0x51 || n = 0x60
     || n = 0x200 || n = 0x201 || n = 0x400 then some 1
  else if n = 0x40 then some 3 else if n = 0x300 then some 2 else none

/-- Index count of each event counter (R312). -/
def ctrWords (n : Nat) : Option Nat :=
  if (0x100 ≤ n && n ≤ 0x107) || (0x110 ≤ n && n ≤ 0x113) || n = 0x120 || n = 0x121 then some 1
  else if 0x114 ≤ n && n ≤ 0x116 then some 64
  else if n = 0x117 || n = 0x118 then some 384
  else if n = 0x119 || n = 0x11A then some 128 else none

def sOpOk (major : Nat) (o : SOp) : Bool :=
  match major with
  | 0xAB => o.sub.toNat < 2
  | _ => o.sub.toNat = 0

/-- Units of each self-test class (R444, R454). -/
def stestCount : Nat → Nat | 0 => 192 | 1 => 64 | 2 => 384 | _ => 128

def sFieldOk (major : Nat) (o : SOp) : Bool :=
  let noDest := o.dest.isZero
  let noA := o.a.isZero
  let noSys := o.sysreg == 0
  let im := o.imm.toNat
  let evenA := match o.a with | .g i _ => i.toNat % 2 == 0 | _ => false
  match major with
  | 0xAA => noDest && noA && 0x100 ≤ o.sysreg.toNat && o.sysreg.toNat ≤ 0x107 && im < 16
  | 0xAB => o.dest.isG && noA && (match ctrWords o.sysreg.toNat with | some k => decide (im < k) | none => false)
            && (o.sub == 0 || (0x100 ≤ o.sysreg.toNat && o.sysreg.toNat ≤ 0x107))
  | 0xE0 => noDest && noA && noSys && im < 65536
  | 0xE1 => noDest && noA && noSys && im = 0
  | 0xE2 => o.dest.isG && noA && (match sysWords o.sysreg.toNat with | some k => decide (im < k) | none => false)
  | 0xE3 => noDest && o.a.isG && (match sysWords o.sysreg.toNat with | some k => decide (im < k) | none => false)
  | 0xE4 => o.dest.isG && o.a.isG && noSys && im < 4096
  | 0xE5 => o.dest.isG && o.a.isG && noSys && 1 ≤ im && im ≤ 64
  | 0xE6 => o.dest.isG && evenA && noSys && im = 0
  | 0xE7 | 0xE9 => noDest && o.a.isG && noSys && im = 0
  | 0xE8 => noDest && evenA && noSys && im = 0
  | 0xEA => o.dest.isG && noA && noSys && im < 2 ^ 19 && bits im 2 0 ≤ 3
  | _ => false

def Raw.opOk : Raw → Bool
  | .a k o => aOpOk k o | .m k o => mOpOk k o | .b k o => bOpOk k o | .x k o => xOpOk k o | .s k o => sOpOk k o
def Raw.fieldOk : Raw → Bool
  | .a k o => aFieldOk k o | .m k o => mFieldOk k o | .b k o => bFieldOk k o | .x k o => xFieldOk k o | .s k o => sFieldOk k o

/-! ### Family words -/

def Guard.ofWord (n : Nat) : Guard := ⟨BitVec.ofNat 4 (bits n 87 84), bits n 83 83 == 1⟩
def Guard.bits (g : Guard) : Nat := g.p.toNat * 2 ^ 84 + (if g.neg then 2 ^ 83 else 0)

/-- A-family word (R65): the fields, none where an operand field holds no operand (R71). -/
def AOp.ofWord (n : Nat) : Option AOp := do
  let d ← Dst.ofField (bits n 74 65)
  let a ← Src.ofField (bits n 64 54)
  let b ← Src.ofField (bits n 53 43)
  let c ← Src.ofField (bits n 42 32)
  pure ⟨Guard.ofWord n, BitVec.ofNat 4 (bits n 82 79), Ty.ofCode (bits n 78 75), d, a, b, c, BitVec.ofNat 32 (bits n 31 0)⟩
def AOp.word (major : Nat) (o : AOp) : Nat :=
  major * 2 ^ 88 + o.gd.bits + o.variant.toNat * 2 ^ 79 + o.ty.code * 2 ^ 75 + o.d.field * 2 ^ 65 + o.a.field * 2 ^ 54
  + o.b.field * 2 ^ 43 + o.c.field * 2 ^ 32 + o.m.toNat

/-- M-family word (R66). -/
def MOp.ofWord (n : Nat) : Option MOp := do
  let d ← Dst.ofField (bits n 74 65)
  let a ← Src.ofField (bits n 64 54)
  let bn := bits n 53 47
  let base ← if bn < 96 then some (some (BitVec.ofNat 7 bn)) else if bn = 127 then some none else none
  pure ⟨Guard.ofWord n, BitVec.ofNat 4 (bits n 82 79), Ty.ofCode (bits n 78 75), d, a, base, Scope.ofCode (bits n 46 44),
    Order.ofCode (bits n 43 42), BitVec.ofNat 4 (bits n 41 38), BitVec.ofNat 3 (bits n 37 35), BitVec.ofNat 3 (bits n 34 32),
    BitVec.ofNat 32 (bits n 31 0)⟩
def MOp.word (major : Nat) (o : MOp) : Nat :=
  major * 2 ^ 88 + o.gd.bits + o.variant.toNat * 2 ^ 79 + o.ty.code * 2 ^ 75 + o.data.field * 2 ^ 65 + o.index.field * 2 ^ 54
  + (match o.base with | some b => b.toNat | none => 127) * 2 ^ 47 + o.scope.code * 2 ^ 44 + o.order.code * 2 ^ 42
  + o.res.toNat * 2 ^ 38 + o.hint.toNat * 2 ^ 35 + o.shift.toNat * 2 ^ 32 + o.off.toNat

/-- B-family word (R67). -/
def BOp.ofWord (n : Nat) : Option BOp := do
  let d ← Dst.ofField (bits n 74 65)
  let a ← Src.ofField (bits n 64 54)
  pure ⟨Guard.ofWord n, BitVec.ofNat 8 (bits n 82 75), d, a, BitVec.ofNat 6 (bits n 53 48), BitVec.ofNat 16 (bits n 47 32),
    BitVec.ofNat 29 (bits n 31 3), BitVec.ofNat 3 (bits n 2 0)⟩
def BOp.word (major : Nat) (o : BOp) : Nat :=
  major * 2 ^ 88 + o.gd.bits + o.sub.toNat * 2 ^ 75 + o.link.field * 2 ^ 65 + o.a.field * 2 ^ 54 + o.prio.toNat * 2 ^ 48
  + o.aux.toNat * 2 ^ 32 + o.line.toNat * 2 ^ 3 + o.slot.toNat

/-- X-family word (R68). -/
def XOp.ofWord (n : Nat) : Option XOp := do
  let d ← Dst.ofField (bits n 74 65)
  let a ← Src.ofField (bits n 57 47)
  pure ⟨Guard.ofWord n, BitVec.ofNat 8 (bits n 82 75), d, BitVec.ofNat 7 (bits n 64 58), a, BitVec.ofNat 4 (bits n 46 43),
    BitVec.ofNat 3 (bits n 42 40), BitVec.ofNat 8 (bits n 39 32), BitVec.ofNat 24 (bits n 31 8), BitVec.ofNat 8 (bits n 7 0)⟩
def XOp.word (major : Nat) (o : XOp) : Nat :=
  major * 2 ^ 88 + o.gd.bits + o.sub.toNat * 2 ^ 75 + o.dest.field * 2 ^ 65 + o.record.toNat * 2 ^ 58 + o.coord.field * 2 ^ 47
  + o.bar.toNat * 2 ^ 43 + o.report.toNat * 2 ^ 40 + o.count.toNat * 2 ^ 32 + o.imm.toNat * 2 ^ 8 + o.granule.toNat

/-- S-family word (R69); [53:44] is reserved. -/
def SOp.ofWord (n : Nat) : Option SOp := do
  let d ← Dst.ofField (bits n 74 65)
  let a ← Src.ofField (bits n 64 54)
  if bits n 53 44 ≠ 0 then none
  pure ⟨Guard.ofWord n, BitVec.ofNat 8 (bits n 82 75), d, a, BitVec.ofNat 12 (bits n 43 32), BitVec.ofNat 32 (bits n 31 0)⟩
def SOp.word (major : Nat) (o : SOp) : Nat :=
  major * 2 ^ 88 + o.gd.bits + o.sub.toNat * 2 ^ 75 + o.dest.field * 2 ^ 65 + o.a.field * 2 ^ 54 + o.sysreg.toNat * 2 ^ 32
  + o.imm.toNat

/-- The word with its operand fields cleared: enough to judge ILLEGAL_OP before any field (R75). -/
def opBits (fam : Family) (n : Nat) : Nat :=
  let n := n % 2 ^ 96
  match fam with
  | .a => n / 2 ^ 75 * 2 ^ 75 + n % 2 ^ 32
  | _ => n / 2 ^ 75 * 2 ^ 75

def Raw.ofWord (n : Nat) : Option (Option Raw) :=
  let major := bits n 95 88
  (familyOf major).map fun
    | .a => (AOp.ofWord n).map (Raw.a major)
    | .m => (MOp.ofWord n).map (Raw.m major)
    | .b => (BOp.ofWord n).map (Raw.b major)
    | .x => (XOp.ofWord n).map (Raw.x major)
    | .s => (SOp.ofWord n).map (Raw.s major)

/-- Whether the major, variant, type or sub-op name an instruction (R70, R77). -/
def opAssigned (n : Nat) : Bool :=
  match familyOf (bits n 95 88) with
  | none => false
  | some f => match Raw.ofWord (opBits f n) with
    | some (some r) => r.opOk
    | _ => false

/-- Decode one 96-bit word. -/
def decode (n : Nat) : Except DecodeErr Instr :=
  if opAssigned n then
    match Raw.ofWord n with
    | some (some r) => if r.fieldOk then (match r.mk? with | some i => .ok i | none => .error .illegalOp)
                       else .error .illegalField
    | _ => .error .illegalField
  else .error .illegalOp

def Raw.word : Raw → Nat
  | .a k o => o.word k | .m k o => o.word k | .b k o => o.word k | .x k o => o.word k | .s k o => o.word k

/-- The word of an instruction (0 for an event, which has none). -/
def encode (i : Instr) : Nat := match i.raw with | some r => r.word | none => 0

/-- Whether an instruction's g indices name registers (R71). -/
def Src.inRange : Src → Bool | .g i _ => i.toNat < 96 | _ => true
def Dst.inRange : Dst → Bool | .g i => i.toNat < 96 | _ => true
def Raw.inRange : Raw → Bool
  | .a _ o => o.d.inRange && o.a.inRange && o.b.inRange && o.c.inRange
  | .m _ o => o.data.inRange && o.index.inRange && (match o.base with | some r => decide (r.toNat < 96) | none => true)
  | .b _ o => o.link.inRange && o.a.inRange
  | .x _ o => o.dest.inRange && o.coord.inRange
  | .s _ o => o.dest.inRange && o.a.inRange

/-- An instruction some word stands for: its operands name registers, its variant or sub-op is its constructor's, its
fields meet the checks of its row. -/
def Instr.legal (i : Instr) : Bool :=
  match i.raw with
  | none => false
  | some r => r.inRange && (r.mk? == some i) && r.opOk && r.fieldOk

/-- The host's question: the instruction decoded from a table word (R3: 96 bits, bit 0 lowest). -/
def decodeTableWord (nbits w : Nat) : Option Instr :=
  match decode (w % 2 ^ (if nbits < 96 then nbits else 96)) with
  | .ok i => some i
  | .error _ => none

end Sys2Proof
end

