-- ==== Sys2Proof/Machine/NumFormat.lean ====
section
/-! DEFINITION. Number formats (part 08): exact values, RoundTo, NaN rules, E8M2 scales, GQ4, and the exact special functions. -/
namespace Sys2Proof.Machine

/-- An exact value read from a pattern: NaN with its fraction of `m` bits, the result of an invalid operation, infinity, or
(-1)^neg mant 2^exp. A zero keeps its sign. -/
inductive Val where
  | nan (neg : Bool) (frac m : Nat)
  | inv
  | inf (neg : Bool)
  | fin (neg : Bool) (mant : Nat) (exp : Int)
deriving DecidableEq, Repr, Inhabited

/-- Exponent and fraction widths (R185). -/
def ebits : Ty → Nat | .f64 => 11 | .f32 | .bf16 => 8 | .f16 | .e5m2 => 5 | .e4m3 => 4 | _ => 2
def mbits : Ty → Nat | .f64 => 52 | .f32 => 23 | .f16 => 10 | .bf16 => 7 | .e4m3 => 3 | .e5m2 => 2 | _ => 1
def fbias (t : Ty) : Nat := 2 ^ (ebits t - 1) - 1
/-- Formats with infinities (R185). -/
def hasInf (t : Ty) : Bool := t ∈ [Ty.f64, .f32, .f16, .bf16, .e5m2]
/-- Pattern of the largest finite value, without sign. -/
def maxCode (t : Ty) : Nat := match t with | .e4m3 => 0x7E | .e2m1 => 7 | _ => (2 ^ ebits t - 1) * 2 ^ mbits t - 1
def signBit (t : Ty) (neg : Bool) : Nat := if neg then 2 ^ (t.width - 1) else 0

/-- The value of a pattern (R185). -/
def val (t : Ty) (u : Nat) : Val :=
  let m := mbits t
  let neg := u.testBit (t.width - 1)
  let e := u / 2 ^ m % 2 ^ ebits t
  let f := u % 2 ^ m
  if hasInf t && e = 2 ^ ebits t - 1 then (if f = 0 then .inf neg else .nan neg f m)
  else if t == .e4m3 && e = 15 && f = 7 then .nan neg 7 3
  else if e = 0 then .fin neg f (1 - (fbias t : Int) - m)
  else .fin neg (2 ^ m + f) ((e : Int) - fbias t - m)
def isSubnormal (t : Ty) (u : Nat) : Bool := u / 2 ^ mbits t % 2 ^ ebits t = 0 && u % 2 ^ mbits t ≠ 0
/-- Source read under `.ftz` (R192). -/
def valF (t : Ty) (ftz : Bool) (u : Nat) : Val :=
  if ftz && ftzOk t && isSubnormal t u then .fin (u.testBit (t.width - 1)) 0 0 else val t u

/-- The generated NaN of a format, or what takes its place (R186, R193). -/
def genNaN (t : Ty) : Nat := match t with
  | .f64 => 0x7FF8000000000000 | .f32 => 0x7FC00000 | .f16 => 0x7E00 | .bf16 => 0x7FC0 | .e4m3 => 0x7F | .e5m2 => 0x7E
  | .gq4 => 8 | _ => 0
/-- A NaN passing into a format (R194). -/
def nanTo (t : Ty) (neg : Bool) (frac m : Nat) : Nat := match t with
  | .e2m1 => 0
  | .gq4 => 8
  | .e4m3 => signBit t neg + 0x7F
  | _ => let k := mbits t
         let f := if m ≤ k then frac * 2 ^ (k - m) else frac / 2 ^ (m - k)
         signBit t neg + (2 ^ ebits t - 1) * 2 ^ k + (f ||| 2 ^ (k - 1))

/-- Rounding context: mode code (R188), `.ftz`, `.sat`, `.nsat`, and the draw for mode 4 (R190). -/
structure RCtx where
  mode : Nat := 0
  ftz : Bool := false
  sat : Bool := false
  nsat : Bool := false
  draw : Nat := 0
deriving DecidableEq, Repr, Inhabited

/-- Overflow (R189). -/
def overflow (t : Ty) (c : RCtx) (neg : Bool) : Nat :=
  signBit t neg +
  match t with
  | .e4m3 => if c.nsat then 0x7F else 0x7E
  | .e2m1 => 7
  | _ => if c.sat || c.mode = 1 || (c.mode = 2 && neg) || (c.mode = 3 && !neg) then maxCode t else maxCode t + 1

/-- Whether the greater magnitude is taken, for a remainder `r` of `d` above an integer `q` (R189). -/
def roundUp (c : RCtx) (neg : Bool) (q r d : Nat) : Bool :=
  r ≠ 0 && (match c.mode with
    | 0 => 2 * r > d || (2 * r = d && q % 2 = 1)
    | 1 => false
    | 2 => !neg
    | 3 => neg
    | _ => c.draw < r * 2 ^ 32 / d)

/-- floor(log2 (n / d)) for positive n, d. -/
def ratLog2 (n d : Nat) : Int :=
  let g : Int := (n.log2 : Int) - d.log2
  if g ≥ 0 then (if n < d * 2 ^ g.toNat then g - 1 else g) else (if n * 2 ^ (-g).toNat < d then g - 1 else g)

/-- num / den × 2^e as a pair numerator, denominator at unit 2^u. -/
def atUnit (num den : Nat) (e u : Int) : Nat × Nat :=
  if e ≥ u then (num * 2 ^ (e - u).toNat, den) else (num, den * 2 ^ (u - e).toNat)

/-- RoundTo then FlushTiny (R189, R192) of (-1)^neg num / den × 2^e; a zero keeps its sign. -/
def roundTo (t : Ty) (c : RCtx) (neg : Bool) (num den : Nat) (e : Int) : Nat :=
  if num = 0 then signBit t neg else
  let m := mbits t
  let emin : Int := 1 - fbias t
  let be := ratLog2 num den + e
  let ue := (max be emin) - m
  let (n, d) := atUnit num den e ue
  let q := n / d
  let q' := if roundUp c neg q (n % d) d then q + 1 else q
  let code : Int := if be < emin then q' else (be - emin) * 2 ^ m + q'
  if code > maxCode t then overflow t c neg
  else if c.ftz && ftzOk t && code < 2 ^ m then signBit t neg
  else signBit t neg + code.toNat

/-- A value into a format by one rounding. An infinity of the operation stays one where the format has it; `conv` marks a
conversion, where `.sat` turns it into the largest finite value (R189; log 18). -/
def roundVal (t : Ty) (c : RCtx) (conv : Bool) : Val → Nat
  | .nan n f m => nanTo t n f m
  | .inv => genNaN t
  | .inf n => if hasInf t && !(conv && c.sat) then signBit t n + (2 ^ ebits t - 1) * 2 ^ mbits t else overflow t { c with mode := 0 } n
  | .fin n m e => roundTo t c n m 1 e

def Val.isNan : Val → Bool | .nan _ _ _ => true | _ => false
/-- The first NaN source, in order (R193). -/
def firstNan (l : List Val) : Option Val := l.find? Val.isNan
def Val.neg : Val → Val | .nan n f m => .nan (!n) f m | .inv => .inv | .inf n => .inf (!n) | .fin n m e => .fin (!n) m e
def sgnInt (n : Bool) (m : Nat) : Int := if n then -(m : Int) else m
/-- Exact sum; the sign of an exact zero by R191 (`rm`: rounding toward -infinity). -/
def addV (rm : Bool) : Val → Val → Val
  | .inf a, .inf b => if a == b then .inf a else .inv
  | .inf a, .fin _ _ _ => .inf a
  | .fin _ _ _, .inf b => .inf b
  | .fin na ma ea, .fin nb mb eb =>
    let e := min ea eb
    let x := sgnInt na (ma * 2 ^ (ea - e).toNat) + sgnInt nb (mb * 2 ^ (eb - e).toNat)
    if x = 0 then .fin (if ma = 0 && mb = 0 && na == nb then na else rm) 0 0
    else .fin (decide (x < 0)) x.natAbs e
  | .nan a b c, _ => .nan a b c
  | _, .nan a b c => .nan a b c
  | _, _ => .inv
/-- Exact product. -/
def mulV : Val → Val → Val
  | .fin na ma ea, .fin nb mb eb => .fin (na != nb) (ma * mb) (ea + eb)
  | .inf a, .inf b => .inf (a != b)
  | .inf a, .fin n m _ => if m = 0 then .inv else .inf (a != n)
  | .fin n m _, .inf b => if m = 0 then .inv else .inf (b != n)
  | .nan a b c, _ => .nan a b c
  | _, .nan a b c => .nan a b c
  | _, _ => .inv
/-- Sum of a list, exact, left to right; zero sum of nothing is +0. -/
def sumV (rm : Bool) : List Val → Val
  | [] => .fin false 0 0
  | [x] => x
  | x :: r => r.foldl (addV rm) x

/-- Sum, product or fused form rounded once, with NaN by R193 (R212, R223). -/
def arith (t : Ty) (c : RCtx) (srcs : List Val) (r : Val) : Nat :=
  match firstNan srcs with
  | some v => roundVal t c false v
  | none => roundVal t c false r

/-- Order of two values that are not NaN: less than. -/
def ltV (a b : Val) : Bool :=
  match a, b with
  | .inf na, .inf nb => na && !nb
  | .inf na, _ => na
  | _, .inf nb => !nb
  | .fin na ma ea, .fin nb mb eb =>
    let e := min ea eb
    decide (sgnInt na (ma * 2 ^ (ea - e).toNat) < sgnInt nb (mb * 2 ^ (eb - e).toNat))
  | _, _ => false
def Val.negative : Val → Bool | .nan n _ _ => n | .inf n => n | .fin n _ _ => n | .inv => false
def Val.isZero : Val → Bool | .fin _ m _ => m == 0 | _ => false
def eqV (a b : Val) : Bool := !ltV a b && !ltV b a

/-- Quieted pattern (R193). -/
def quiet (t : Ty) (u : Nat) : Nat := if t == .e4m3 then u else u ||| 2 ^ (mbits t - 1)

/-- fmin (max = false) and fmax on patterns (R213): NaN counts as missing, -0 below +0. -/
def fminmax (t : Ty) (max ftz : Bool) (a b : Nat) : Nat :=
  let va := valF t ftz a
  let vb := valF t ftz b
  let fl := fun u => if ftz && ftzOk t && isSubnormal t u then signBit t (u.testBit (t.width - 1)) else u
  if va.isNan && vb.isNan then quiet t a
  else if va.isNan then fl b
  else if vb.isNan then fl a
  else
    let less := ltV va vb || (eqV va vb && va.negative && !vb.negative)
    if less != max then fl a else (if eqV va vb && va.negative == vb.negative then fl a else fl b)

/-- The comparison conditions of R214. -/
def fcond (k : Nat) (a b : Val) : Bool :=
  let un := a.isNan || b.isNan
  match k with
  | 0 => !un && eqV a b
  | 1 => un || !eqV a b
  | 2 => !un && ltV a b
  | 3 => !un && !ltV b a
  | 4 => !un && ltV b a
  | 5 => !un && !ltV a b
  | 6 => un
  | _ => !un

/-- Class code of a pattern (R186). -/
def classOf (t : Ty) (u : Nat) : Nat :=
  match val t u with
  | .nan _ f m => if t == .e4m3 || f.testBit (m - 1) then 1 else 0
  | .inv => 1
  | .inf n => if n then 2 else 9
  | .fin n m _ => if m = 0 then (if n then 5 else 6) else if isSubnormal t u then (if n then 4 else 7) else if n then 3 else 8

/-- An integer near x under the mode (R216): magnitude. -/
def roundMag (c : RCtx) (neg : Bool) (m : Nat) (e : Int) : Nat :=
  if e ≥ 0 then m * 2 ^ e.toNat
  else let d := 2 ^ (-e).toNat
       if roundUp c neg (m / d) (m % d) d then m / d + 1 else m / d
/-- frnd on a value (R216). -/
def frndV (t : Ty) (c : RCtx) (v : Val) : Nat :=
  match v with
  | .fin n m e => roundTo t { c with mode := 1 } n (roundMag c n m e) 1 0
  | v => roundVal t c false v

/-! ### Quotients and roots (R217) -/

/-- Integer square root, bit by bit. -/
def isqrtAux (n : Nat) : Nat → Nat → Nat
  | 0, r => if (r + 1) * (r + 1) ≤ n then r + 1 else r
  | i + 1, r => let r' := r + 2 ^ (i + 1); isqrtAux n i (if r' * r' ≤ n then r' else r)
def isqrt (n : Nat) : Nat := if n = 0 then 0 else isqrtAux n (n.log2 / 2) 0
/-- Square root of num / den × 2^e (e even), rounded: 160 bits and a sticky bit below them. -/
def roundSqrt (t : Ty) (c : RCtx) (num den : Nat) (e : Int) : Nat :=
  let n := num * 2 ^ 640
  let q := n / den
  let r := isqrt q
  let exact := r * r = q && n % den = 0
  roundTo t c false (2 * r + (if exact then 0 else 1)) 1 (e / 2 - 320 - 1)
def evenExp (m : Nat) (e : Int) : Nat × Int := if e % 2 = 0 then (m, e) else (2 * m, e - 1)

def frcpV (t : Ty) (c : RCtx) : Val → Nat
  | .fin n m e => if m = 0 then roundVal t c false (.inf n) else roundTo t c n 1 m (-e)
  | .inf n => signBit t n
  | v => roundVal t c false v
def fsqrtV (t : Ty) (c : RCtx) : Val → Nat
  | .fin n m e => if m = 0 then signBit t n else if n then genNaN t else
      let (m, e) := evenExp m e; roundSqrt t c m 1 e
  | .inf n => if n then genNaN t else roundVal t c false (.inf false)
  | v => roundVal t c false v
def frsqV (t : Ty) (c : RCtx) : Val → Nat
  | .fin n m e => if m = 0 then roundVal t c false (.inf n) else if n then genNaN t else
      let (m, e) := evenExp m e; roundSqrt t c 1 m (-e)
  | .inf n => if n then genNaN t else 0
  | v => roundVal t c false v

/-! ### Special functions (R218), on fixed-point integers of 400 fraction bits (log 17) -/

def fxP : Nat := 400
def fxOne : Int := 2 ^ fxP
def fxMul (a b : Int) : Int := a * b / 2 ^ fxP
/-- Sum of x^k / k! from k, with the present term, for `n` terms. -/
def expSeries (x : Int) : Nat → Nat → Int → Int
  | 0, _, _ => 0
  | n + 1, k, t => t + expSeries x n (k + 1) (fxMul t x / ((k : Int) + 1))
/-- Alternating series in steps of two: sine from (x, 1), cosine from (1, 0). -/
def trigSeries (x2 : Int) : Nat → Nat → Int → Int
  | 0, _, _ => 0
  | n + 1, k, t => t + trigSeries x2 n (k + 2) (-(fxMul t x2) / (((k : Int) + 1) * ((k : Int) + 2)))
/-- Sum of z^(2k+1) / (2k+1), times the sign pattern `alt`. -/
def atanSeries (z2 : Int) (alt : Bool) : Nat → Nat → Int → Int
  | 0, _, _ => 0
  | n + 1, k, t => t / ((2 * k + 1 : Nat) : Int) + atanSeries z2 alt n (k + 1) (if alt then -(fxMul t z2) else fxMul t z2)
/-- ln 2 = 2 atanh(1/3). -/
def fxLn2 : Int := 2 * atanSeries (fxOne / 9) false 140 0 (fxOne / 3)
/-- pi = 16 atan(1/5) - 4 atan(1/239). -/
def fxPi : Int := 16 * atanSeries (fxOne / 25) true 100 0 (fxOne / 5) - 4 * atanSeries (fxOne / 57121) true 60 0 (fxOne / 239)
def toFx (n : Bool) (m : Nat) (e : Int) : Int :=
  sgnInt n (if e + fxP ≥ 0 then m * 2 ^ (e + fxP).toNat else m / 2 ^ (-(e + fxP)).toNat)
/-- Round a fixed-point approximation of an irrational value. -/
def roundFx (c : RCtx) (x : Int) : Nat := roundTo .f32 c (decide (x < 0)) (2 * x.natAbs + 1) 1 (-(fxP : Int) - 1)
/-- |value| compared with 1: inside the domain [-1, 1]. -/
def inUnit (m : Nat) (e : Int) : Bool := if e ≥ 0 then m * 2 ^ e.toNat ≤ 1 else m ≤ 2 ^ (-e).toNat
/-- value × 2 as an integer, where it is one (multiples of one half). -/
def halves (n : Bool) (m : Nat) (e : Int) : Option Int :=
  let e := e + 1
  if e ≥ 0 then some (sgnInt n (m * 2 ^ e.toNat)) else if m % 2 ^ (-e).toNat = 0 then some (sgnInt n (m / 2 ^ (-e).toNat)) else none

def fexpfV (c : RCtx) : Val → Nat
  | .fin n m e =>
    if !inUnit m e then genNaN .f32
    else match halves n m e with
      | some 0 => 0x3F800000
      | some 2 => 0x40000000
      | some (-2) => 0x3F000000
      | _ => let x := fxMul (toFx n m e) fxLn2
             roundFx c (expSeries x 110 0 fxOne)
  | .inf _ => genNaN .f32
  | v => roundVal .f32 c false v
def flog2V (c : RCtx) : Val → Nat
  | .fin n m e =>
    if m = 0 then 0xFF800000
    else if n then genNaN .f32
    else
      let l := m.log2
      let k : Int := l + e
      if m = 2 ^ l then roundTo .f32 c (decide (k < 0)) k.natAbs 1 0
      else
        let x : Int := (m * 2 ^ fxP / 2 ^ l : Nat)
        let z := (x - fxOne) * 2 ^ fxP / (x + fxOne)
        let ln := 2 * atanSeries (fxMul z z) false 140 0 z
        roundFx c (ln * 2 ^ fxP / fxLn2 + k * fxOne)
  | .inf n => if n then genNaN .f32 else 0x7F800000
  | v => roundVal .f32 c false v
def fsinfV (c : RCtx) : Val → Nat
  | .fin n m e =>
    if !inUnit m e then genNaN .f32
    else match halves n m e with
      | some 0 => signBit .f32 n
      | some 1 => 0x3F800000
      | some (-1) => 0xBF800000
      | some _ => 0
      | none => let x := fxMul (toFx n m e) fxPi
                let small := e + (m.log2 : Int) < -60
                -- far below 1 the sine is its argument to beyond any rounding
                if small then roundTo .f32 c n (2 * (m * fxPi.natAbs) + 1) 1 (e - fxP - 1)
                else roundFx c (trigSeries (fxMul x x) 70 1 x)
  | .inf _ => genNaN .f32
  | v => roundVal .f32 c false v
def fcosfV (c : RCtx) : Val → Nat
  | .fin n m e =>
    if !inUnit m e then genNaN .f32
    else match halves n m e with
      | some 0 => 0x3F800000
      | some 2 | some (-2) => 0xBF800000
      | some _ => 0
      | none => let x := fxMul (toFx n m e) fxPi
                roundFx c (trigSeries (fxMul x x) 70 0 fxOne)
  | .inf _ => genNaN .f32
  | v => roundVal .f32 c false v

/-! ### The stochastic draw (R190) -/

def mix (z : Nat) : Nat :=
  let z := (Nat.xor z (z / 2 ^ 30) * 0xBF58476D1CE4E5B9) % 2 ^ 64
  let z := (Nat.xor z (z / 2 ^ 27) * 0x94D049BB133111EB) % 2 ^ 64
  Nat.xor z (z / 2 ^ 31)
def rsDraw (key major cl e : Nat) (srcs : List Nat) : Nat :=
  (srcs.foldl (fun z v => mix (Nat.xor z v)) (mix (Nat.xor key (major * 2 ^ 56 + cl * 2 ^ 8 + e)))) / 2 ^ 32

/-! ### E8M2 scales and GQ4 (R195, R198-R200) -/

/-- Value of a scale container: none for the NaN scale. -/
def e8m2 (u : Nat) : Option (Nat × Int) := if bits u 9 2 = 255 then none else some (4 + u % 4, (bits u 9 2 : Int) - 127 - 2)
def gqMag : Nat → Nat | 8 => 0x2964 | 9 => 0x3013 | 10 => 0x32E5 | 11 => 0x34F9 | 12 => 0x36AB | 13 => 0x3856 | 14 => 0x39A9 | _ => 0x3C00
/-- Level of a code, as an exact value (R198). -/
def gqLevel (c : Nat) : Val := if c ≥ 8 then val .f16 (gqMag c) else val .f16 (0x8000 + gqMag (15 - c))
/-- Level numerators over 2^14: all levels are multiples of 2^-15 below. -/
def gqNum (k : Nat) : Nat := match val .f16 (gqMag k) with | .fin _ m e => m * 2 ^ (e + 24).toNat | _ => 0
/-- Code for |q| = num / den, sign `neg` (R200): `near` is the largest level of magnitude at most |q|, if any. -/
def gqRound (c : RCtx) (neg : Bool) (num den : Nat) : Nat :=
  let s := fun k => if neg then 15 - k else k
  let n := num * 2 ^ 24
  if num = 0 then (if neg then 7 else 8)
  else if n ≥ den * gqNum 15 then s 15
  else
    let ks := (List.range 8).map (· + 8)
    match (ks.filter fun k => den * gqNum k ≤ n).getLast? with
    | none =>
      -- below the least level: by magnitude 8; the neighbour on the other side is the least level of the other sign
      (match c.mode with
       | 2 => if neg then 8 else 8
       | 3 => if neg then 7 else 7
       | _ => s 8)
    | some k =>
      let lo := den * gqNum k
      let hi := den * gqNum (k + 1)
      if n = lo then s k
      else match c.mode with
        | 0 => if 2 * n < lo + hi then s k else if 2 * n > lo + hi then s (k + 1) else if s k % 2 = 0 then s k else s (k + 1)
        | 1 => s k
        | 2 => if neg then s k else s (k + 1)
        | 3 => if neg then s (k + 1) else s k
        | _ => if c.draw < (n - lo) * 2 ^ 32 / (hi - lo) then s (k + 1) else s k

/-- Round to nearest f32 of a sum of two patterns: the addition atomics, reductions and the Easel use (R175, R255). -/
def faddBits (a b : Nat) : Nat := arith .f32 {} [val .f32 a, val .f32 b] (addV false (val .f32 a) (val .f32 b))

end Sys2Proof.Machine
end

