-- ==== Sys2Proof/Machine/SMap.lean ====
section
/-! DEFINITION. Finite tables as lists of (key, value) in one canonical form: keys strictly rising. A table with a default
value (bytes of memory, registers) lists no entry equal to it. -/
namespace Sys2Proof.Machine

/-- A table by number. -/
abbrev Map (α : Type) := List (Nat × α)

/-- The entry at a key. -/
def Map.find (k : Nat) {α : Type} : Map α → Option α
  | [] => none
  | (k', v) :: r => if k' = k then some v else Map.find k r
/-- The value at a key, `d` where none is listed. -/
def Map.getD {α : Type} (m : Map α) (k : Nat) (d : α) : α := (Map.find k m).getD d
/-- Insert or replace, keeping keys rising. -/
def Map.ins (k : Nat) {α : Type} (v : α) : Map α → Map α
  | [] => [(k, v)]
  | (k', v') :: r => if k' = k then (k, v) :: r else if k < k' then (k, v) :: (k', v') :: r else (k', v') :: Map.ins k v r
/-- Remove a key. -/
def Map.del (k : Nat) {α : Type} : Map α → Map α
  | [] => []
  | (k', v') :: r => if k' = k then Map.del k r else (k', v') :: Map.del k r
/-- Write in a table whose unlisted keys read `d`: writing `d` removes the entry. -/
def Map.put {α : Type} [DecidableEq α] (d : α) (k : Nat) (v : α) (m : Map α) : Map α :=
  if v = d then Map.del k m else Map.ins k v m
/-- Change the entry at a key, if listed. -/
def Map.upd {α : Type} (k : Nat) (f : α → α) (m : Map α) : Map α :=
  match Map.find k m with
  | some v => Map.ins k (f v) m
  | none => m
/-- The canonical form: keys strictly rising. -/
def Map.rising {α : Type} : Map α → Bool
  | [] => true
  | [_] => true
  | (k, _) :: (k', v) :: r => decide (k < k') && Map.rising ((k', v) :: r)
/-- The lowest number from `lo`, within `n` of it, that `used` does not hold. -/
def firstFree (used : Nat → Bool) (lo : Nat) : Nat → Option Nat
  | 0 => none
  | n + 1 => if used lo then firstFree used (lo + 1) n else some lo

end Sys2Proof.Machine
end

