-- ==== Sys2Proof/Machine/State.lean ====
section
/-! DEFINITION. The state of the module: everything the spec names (INVENTORY.md, '## State'), as plain data. -/
namespace Sys2Proof.Machine

/-- No step of this model faults: every stop the spec describes is a trap, a failed task or a record of an event, and
the machine goes on. The one constructor is raised by nobody (safe). -/
inductive Fault where
  | none
deriving DecidableEq, Repr

/-- Why a step has no meaning. `notModelled` is raised only by a rejected arm of `exec` (safe); there is none now. -/
inductive Refusal where
  | notModelled (mnemonic : String)
deriving DecidableEq, Repr

/-- A group: its cell's number and its index in the cell. -/
structure GRef where
  cell : Nat
  grp : Nat
deriving DecidableEq, Repr, Inhabited

/-- A fault found late, or held (R427, R429, R471): its code, sub-cause, address, position, the handler-mode mark, and the
continuation PC of the entry that waited, for a fault found as a wait ends. -/
structure LateFault where
  code : BitVec 8
  sub : BitVec 4
  addr : BitVec 64
  lane : Nat
  handler : Bool
  waiter : Option (BitVec 64)
deriving DecidableEq, Repr, Inhabited

/-- The ways an entry waits (R47, R42, R44, R448); an `mwait` waits for the commands it found outstanding on its tile (R267), a `pwait`
for the fill it found in its slot (R273). -/
inductive Wait where
  | no
  | barrier (b : Nat) (phase : Bool)
  | sword (sp : Bool) (va : BitVec 57) (gen : BitVec 32) (acq : Option Scope) (handler : Bool)
  | monitor
  | tile (m : Nat) (ids : List Nat) (handler : Bool)
  | fill (f : Nat) (id : Nat) (handler : Bool)
  | regroup
  | restore
  | rte
deriving DecidableEq, Repr, Inhabited

/-- A frontier entry (R31, R131): code pointer, mask by position, priority, wait count, kind, wait state. -/
structure Entry where
  pc : BitVec 64
  mask : BitVec 32
  prio : BitVec 6
  wait : BitVec 8
  handler : Bool
  st : Wait
deriving DecidableEq, Repr, Inhabited

/-- A register named by an instruction: v index, or g index. -/
inductive Reg where
  | v (i : Nat)
  | g (i : Nat)
deriving DecidableEq, Repr, Inhabited

/-- A write a long-latency producer makes when it completes (R38). -/
inductive RegWrite where
  | v (cl i : Nat) (x : BitVec 32)
  | g (i : Nat) (x : BitVec 64)
  | p (cl i : Nat) (x : Bool)
deriving DecidableEq, Repr, Inhabited

/-- An outstanding long-latency producer: its writes, the registers it fills, the predicate it releases, a late fault it
carries, the context whose checkpoint it awaits, if any, the scope rank of an acquire its arrival
makes (0 none), whether it is the answer of a fork that has not taken effect, the region entry that holds from its completion on, with the
number of the `rgset` (R349), the landing space its studio keeps for its reply, in bytes (R423), and the unit whose self-test it awaits (R454). -/
structure Producer where
  writes : List RegWrite
  regs : List Reg
  pred : Option Nat
  fault : Option LateFault
  ckpt : Option Nat
  acq : Nat := 0
  fork : Bool := false
  region : Option (Nat × Nat) := none
  land : Nat := 0
  test : Option ErrUnit := none
deriving DecidableEq, Repr, Inhabited

/-- What holds a group's next run (R37 rule 5). -/
inductive Hold where
  | drop (arenas : List (Nat × Nat)) (units : List Nat)
  | sweep (arenas : List (Nat × Nat))
  | sealUnits (arena gen : Nat)
  | shoot (id : Nat)
  | bredAccept (cell id : Nat)
  | brush (cell : Nat) (ids : List Nat)
deriving DecidableEq, Repr, Inhabited

/-- A run in flight (R34-R39): first and present PC, temporaries by position and number, what it has left empty or pending,
the destinations of its instructions (newest first), the resident-cell count at dispatch, held at a page (R57, R158) with the
destinations its held load leaves empty meanwhile, whether the present slot's instruction has been counted already, in a try that was held
(R313), whether the slot has its run-end bit set, and the first slot that dispatch could not fetch, from which on the run is still to be
judged. -/
structure Run where
  start : BitVec 64
  pc : BitVec 64
  handler : Bool
  temps : Map (BitVec 64)
  popped : Map (List (BitVec 32))
  empty : List Reg
  pend : List Nat
  hist : List (List Reg)
  nres : Nat
  held : Bool
  heldRegs : List Reg := []
  counted : Bool := false
  unknown : Option (BitVec 64) := none
  last : Bool
deriving DecidableEq, Repr, Inhabited

/-- A ring message of a sending group (R419). -/
structure Msg where
  ring : Nat
  recv : Nat
  bytes : List (BitVec 8)
  handler : Bool
  refused : Bool
  seq : Nat
deriving DecidableEq, Repr, Inhabited

/-- A group of a cell. `first` marks a group whose kernel entry has not been checked yet (R60); `rcvLines` lists the lines of
recoverable pages that it has written since its last `.rcv` release (R167), `farLines` the host and peer lines that it has written since
its last release at `.sys` or `.rcv` (R162). -/
structure Group where
  slot : Nat
  entries : List Entry
  disp : BitVec 6
  passed : BitVec 9
  handler : Bool
  parked : Bool
  gregs : Map (BitVec 64)
  vEmpty : BitVec 256
  gEmpty : BitVec 96
  pPend : BitVec 16
  trapcause : BitVec 64
  trappc : BitVec 64
  trapaddr : BitVec 64
  trapsave : BitVec 64
  rndkey : BitVec 64
  arrA : BitVec 16
  arrP : BitVec 16
  mon : Option Nat
  fired : Bool
  queues : Map (List (List (BitVec 32)))
  qfault : Map LateFault
  msgs : List Msg
  outs : List Producer
  run : Option Run
  settled : Bool
  holds : List Hold
  late : List LateFault
  rcvSeq : Nat
  rcvLines : List Nat
  farLines : List Nat
  crc : BitVec 64
  first : Bool
deriving DecidableEq, Repr, Inhabited

/-- An accumulator tile (R244). `data` by 16i + j; sticky by the same number; `badTab` tells that a pending uncorr came from a
malformed segment table (R266, R427). -/
structure Tile where
  data : Map (BitVec 32)
  cr : Map (BitVec 32)
  cc : Map (BitVec 32)
  grow : Map (BitVec 32)
  gcol : Map (BitVec 32)
  sticky : BitVec 512
  status : BitVec 32
  badTab : Bool
deriving DecidableEq, Repr, Inhabited

/-- A segment of a multiplication (R266). -/
structure Seg where
  cb : Nat
  pslab : Nat
  sslab : Nat
  rows : Nat
deriving DecidableEq, Repr, Inhabited

/-- A queued Easel command (R260): major, sub-op, tile, convergence register, captured operands, slabs done. `fence` numbers the
`mfence` its operand window begins at, once it has started; `taint` tells that an `mread` leaves its tile undefined (R276). -/
structure Cmd where
  major : Nat
  sub : Nat
  tile : Nat
  cv : Nat
  hold : Bool
  desc : BitVec 64
  coord : BitVec 64
  val : Nat
  count : Nat
  granule : Nat
  rows : Map (BitVec 32)
  mask : BitVec 32
  segs : List Seg
  bad : Bool
  started : Bool
  done : Nat
  fence : Nat
  taint : Bool
  id : Nat
deriving DecidableEq, Repr, Inhabited

/-- A palette fill slot (R251, R272). -/
structure Fill where
  busy : Bool
  addr : BitVec 57
  record : List (BitVec 8)
  scales : Bool
  done : Nat
  granule : Nat
  fault : Option LateFault
  grp : Nat
  handler : Bool
  id : Nat
deriving DecidableEq, Repr, Inhabited

/-- A palette zap that waits for earlier readers (R274, R275), and the cell that issued it. -/
structure Zap where
  chk : Bool
  base : Nat
  count : Nat
  id : Nat
  cell : Nat
deriving DecidableEq, Repr, Inhabited

/-- A queued Brush command (R408, R412-R414). `crossings` are the scratchpad ranges in which a `bstore` and a `bcopy` of the cell overlap
(R425), `addr` is the address of a `bred`'s record. `started` tells that the command, or a later one of the cell, has moved something
(R408). -/
structure Brush where
  major : Nat
  sub : Nat
  layout : List (BitVec 8)
  coords : List (BitVec 32)
  off : Nat
  report : Nat
  bar : Nat
  word : BitVec 57
  granule : Nat
  chain : BitVec 64
  hops : Nat
  hop : Nat
  rec64 : List (BitVec 8)
  round : Nat
  accepted : Bool
  stopped : Bool
  done : Nat
  grp : Nat
  handler : Bool
  id : Nat
  crossings : List (Nat × Nat)
  addr : BitVec 64 := 0
  started : Bool := false
deriving DecidableEq, Repr, Inhabited

/-- A walk of the underdrawing engine (R399, R400): descriptor, iteration vector, next group, state (0 running, 1 ended, 2 stopped). -/
structure Walk where
  desc : List (BitVec 8)
  iter : List Nat
  grp : Nat
  state : Nat
deriving DecidableEq, Repr, Inhabited

/-- A ring descriptor (R416). -/
structure Ring where
  w0 : BitVec 64
  w1 : BitVec 64
deriving DecidableEq, Repr, Inhabited

/-- A barrier register (R306). -/
structure Bar where
  pend : Int
  members : BitVec 6
  arrived : BitVec 6
  phase : Bool
  ovf : Bool
  excess : Bool
deriving DecidableEq, Repr, Inhabited

/-- An escape entry (R360). -/
structure Esc where
  op : Nat
  sub : BitVec 8
  mode : BitVec 5
  lane : Nat
  addr : BitVec 64
  data : List (BitVec 64)
deriving DecidableEq, Repr, Inhabited

/-- The world of a cell (R353): unresolved, first view, rivals, the leader group and its destination, ended views' words 0 and 1; the
group, the rival it has chosen and the escape entries still to be performed, while a `choose` waits for one of them. -/
structure World where
  unresolved : Bool
  first : Nat
  views : List Nat
  leader : Nat
  dst : Nat
  words : List (BitVec 64 × BitVec 64)
  left : Option (Nat × Nat × List Esc) := none
deriving DecidableEq, Repr, Inhabited

/-- A parsed launch record (R378). -/
structure LRec where
  entry : BitVec 64
  x : Nat
  y : Nat
  z : Nat
  s : Nat
  cores : Bool
  snap : Bool
  shadow : Nat
  prio : Nat
  tiles : Nat
  scratch : Nat
  lstore : Nat
  budget : Nat
  shape : Nat
  pal : Bool
  squota : Nat
  crown : Nat
  done : BitVec 57
  deps : List (BitVec 64)
  pre : List (Nat × BitVec 64)
  ranges : List (Nat × Nat × Nat)
deriving DecidableEq, Repr, Inhabited

/-- A fork that has been accepted and takes effect once the cell has stopped (R364). -/
structure Fork where
  leader : Nat
  dst : Nat
  views : List Nat
deriving DecidableEq, Repr, Inhabited

/-- Where a cell's state stands: on its studio, in its save area, waiting for its world, or a clone not yet placed. -/
inductive CellPlace where
  | resident
  | saved
  | forked
  | unplaced
deriving DecidableEq, Repr, Inhabited

/-- Shadow role of a cell (R370). -/
inductive Role where
  | plain
  | original (partner : Nat)
  | copy (partner : Nat)
deriving DecidableEq, Repr, Inhabited

/-- A cell (R25). Lane state is kept by original lane number cl = 32 group + lane. `sketchEntry` is the code pointer of its
sketch context, 0 for none (R46, R398). For the operand windows (R265, R276) it keeps the number of the last `mfence` of each convergence
register, those of its unconsumed firings, oldest first (`savedFired` while `msave` holds the registers), and the ranges of scratchpad
written since, as (number, base, length). `watch` lists the completed multiplications whose window no `mwait` has closed yet (R265, R276),
`savedWatch` those of the tiles that `msave` holds, and `savedTabs` the tiles among these whose uncorr came of a malformed table. `area`
lists the frames of its save area in order (R433). `chainSave` is the save list's chain slots with their records' addresses (R240, R433).
`adm` numbers the cell's last admission or restore (R385). `sigs` holds records of Brush commands that wait for those of earlier commands
of their group to enter its write stream: the command, the group, the address and the bytes (R437). -/
structure Cell where
  place : CellPlace
  studio : Nat
  view : Nat
  ctx : Nat
  ticket : BitVec 64
  tag : Nat
  idx : Nat
  x : BitVec 20
  y : BitVec 20
  z : BitVec 20
  stage : Nat
  nstage : Nat
  world : BitVec 3
  shape : Nat
  budget : Nat
  tileCount : Nat
  scratchSz : Nat
  lstoreSz : Nat
  pal : Bool
  prio : Nat
  ptbase : BitVec 57
  ptSlot : Nat
  vregs : Map (BitVec 32)
  preds : Map (BitVec 16)
  lstore : Map (BitVec 8)
  scratch : Map (BitVec 8)
  groups : Map Group
  remap : Map Nat
  regrouped : Bool
  bars : Map Bar
  cvs : Map (BitVec 32)
  cvFence : Map Nat
  cvFired : Map (List Nat)
  savedFired : Map (List Nat)
  scrLog : List (Nat × Nat × Nat)
  tiles : Map Tile
  cmds : List Cmd
  savedCmds : List Cmd
  watch : List Cmd := []
  savedWatch : List Cmd := []
  savedTabs : List Nat := []
  fills : Map Fill
  brush : List Brush
  descs : Map (List (BitVec 8))
  walks : List Walk
  badWalks : Bool
  walkTable : BitVec 64
  sketchEntry : BitVec 64
  rings : Map Ring
  saved : Option Nat
  wrec : Option World
  fork : Option Fork
  rival : Bool
  ended : Bool
  role : Role
  wnext : List (Nat × BitVec 64 × BitVec 64)
  launches : List (Nat × BitVec 64)
  sigDone : Option (BitVec 64)
  bredRounds : Map Nat
  chainSave : Map (BitVec 64)
  area : List Nat
  adm : Nat := 0
  sigs : List (Nat × Nat × Nat × List (BitVec 8)) := []
deriving DecidableEq, Repr, Inhabited

/-- A cache line with its tag fields (R161). `ctx` owns a pin (R180); `rcv` marks a recoverable page (R167); `bad` marks a line
whose memory is poison, until it has been written whole (R439); `rank` is its place among the candidates for eviction: 0 first
(`.strm`), 1 as the rest, 2 last of L2's (`.keep`) (R66, R155). -/
structure Line where
  arena : BitVec 12
  gen : BitVec 4
  view : BitVec 6
  ctx : Nat
  pin : Bool
  rcv : Bool
  bad : Bool := false
  rank : Nat := 1
  dirty : BitVec 128
  data : List (BitVec 8)
deriving DecidableEq, Repr, Inhabited

/-- The tag an access carries to the lines it fills, where it is placed (R155, R156, R161) and how those lines rank for eviction
(R66). `again` marks a lane of a request that an earlier lane of the instruction has made for the same line (R156), `cell` the cell
whose program accesses. `direct` marks an access to an SO or IO page, or at `.sys` or `.rcv` scope: on host and peer memory it is performed at its
target, whatever L2 holds, so that every agent sees such writes in one order (R288, R289); `io` marks one to an IO page, which is so
wherever its target lies (R155, R291). -/
structure Tag where
  ctx : Nat
  arena : BitVec 12
  gen : BitVec 4
  view : BitVec 6
  rcv : Bool
  l1 : Bool
  l2 : Bool
  rank : Nat := 1
  direct : Bool := false
  io : Bool := false
  again : Bool := false
  cell : Option Nat := none
deriving DecidableEq, Repr, Inhabited

/-- Where a Brush command has landed bytes: at an offset of a cell's scratchpad, or at a physical address, through the tag of a store from
a studio. -/
inductive LandAt where
  | scratch (cell off : Nat)
  | memory (studio : Nat) (tag : Tag) (pa : Nat)
deriving DecidableEq, Repr, Inhabited

/-- Bytes that a Brush command has landed and that stand as undefined values until a wait shows them (R297); `keep` is the part of each
byte that they leave as it is. -/
structure Landing where
  place : LandAt
  keep : BitVec 8
  bytes : List (BitVec 8)
deriving DecidableEq, Repr, Inhabited

/-- What an agent writes: bytes in pieces of a size, or one more on a completion word (R386). -/
inductive HeldWhat where
  | bytes (step : Nat) (bs : List (BitVec 8))
  | done
deriving DecidableEq, Repr, Inhabited

/-- A write of the launch controller, or of a codec engine, that its page's migration holds (R158): the context, the engine, where, what,
and the task it is about. -/
structure Held where
  ctx : Nat
  engine : Option Nat
  va : Nat
  what : HeldWhat
  ticket : BitVec 64
deriving DecidableEq, Repr, Inhabited

/-- A TLB entry (R156): the leaf and the generation captured at the fill; `shift` is the page's log2 size; `ovl` marks a leaf of
the view's overlays (R355). -/
structure TlbEntry where
  ctx : Nat
  view : Nat
  page : Nat
  shift : Nat
  leaf : BitVec 64
  gen : BitVec 4
  ovl : Bool := false
deriving DecidableEq, Repr, Inhabited

/-- One application of a buffered reduction (R176): its number in the order of application, address, operand, type, the tag it was made
under with its placement in L2 and its rank there (R66), and the issuing group, in handler mode or not. -/
structure RedApp where
  seq : Nat
  pa : Nat
  val : BitVec 64
  ty : Ty
  ctx : Nat
  arena : BitVec 12
  gen : BitVec 4
  view : BitVec 6
  rcv : Bool
  l2 : Bool := true
  rank : Nat := 1
  cell : Nat
  grp : Nat
  handler : Bool := false
deriving DecidableEq, Repr, Inhabited

/-- An accumulation buffer, keyed by line and operation (R176): its applications in order. -/
structure RedBuf where
  line : Nat
  op : Nat
  apps : List RedApp
deriving DecidableEq, Repr, Inhabited

/-- A chain slot (R204, R235): the operations' words, constants, output rounding byte, tag. -/
structure Chain where
  ops : List (BitVec 64)
  consts : List (BitVec 32)
  out : BitVec 8
  ctx : Nat
  addr : BitVec 64
deriving DecidableEq, Repr, Inhabited

/-- A performance counter (R313). -/
structure Perf where
  value : BitVec 64
  owner : Option Nat
  event : BitVec 8
deriving DecidableEq, Repr, Inhabited

/-- A studio (R13). -/
structure Studio where
  slots : Map GRef
  clk : BitVec 64
  rr : Map Nat
  owner : Option Nat
  palB : Map (BitVec 8)
  palC : Map (BitVec 32)
  zaps : List Zap
  chains : Map Chain
  l1 : Map Line
  ro : Map Line
  icache : Map (List (BitVec 8))
  reds : List RedBuf
  tlb : List TlbEntry
  perf : Map Perf
  corr : BitVec 64
  uncorr : BitVec 64
  resmiss : BitVec 64
  sketch : BitVec 64
  landing : Nat
  easelNext : Nat
deriving DecidableEq, Repr, Inhabited

/-- The generation and seal vectors of one unit (R326). -/
structure UnitVec where
  gen : Map (BitVec 4)
  seals : Map Bool
deriving DecidableEq, Repr, Inhabited

/-- An arena table entry (R328). State 0 free, 1 live, 2 sealed, 3 sweeping. -/
structure Arena where
  state : BitVec 2
  gen : BitVec 4
  sweeping : BitVec 16
  parent : Nat
  depth : Nat
  owner : Nat
  pt : Bool
  view : Bool
  crown : Bool
  quota : Nat
  charge : Nat
  resv : Nat
  child : Nat
  sibling : Nat
  task : BitVec 64
  since : Nat
deriving DecidableEq, Repr, Inhabited

/-- A mapped page of an arena, by context and virtual page: owner, generation, charged bit (R326), lazily charged. -/
structure Page where
  arena : Nat
  gen : BitVec 4
  charged : Bool
  dead : Bool
deriving DecidableEq, Repr, Inhabited

/-- A sweep in progress (R334): units still to acknowledge, and for the root of a drop the charge to return at the end, the ancestors
whose charge still holds it (`up`, each with its generation), frames of its own to free then (a view's copies), and the context whose arena
it was. -/
structure Sweep where
  arena : Nat
  gen : Nat
  units : List Nat
  root : Bool
  up : List (Nat × BitVec 4)
  charge : Nat
  frames : List Nat
  ctx : Nat := 0
deriving DecidableEq, Repr, Inhabited

/-- A seal broadcast in progress (R336). -/
structure SealB where
  arena : Nat
  gen : Nat
  units : List Nat
deriving DecidableEq, Repr, Inhabited

/-- A translation shoot-down in progress (R160): units still to acknowledge, frames that return to the pool at its end, and, where it
belongs to the change of a part of a splintered page, that part's leaf with the value that lanes still go by until its end (R159). -/
structure Shoot where
  id : Nat
  ctx : Nat
  base : Nat
  len : Nat
  units : List Nat
  frames : List Nat
  change : Option (Nat × BitVec 64) := none
deriving DecidableEq, Repr, Inhabited

/-- A region table entry (R337): `len` in lines. `pend` is the number of its `rgset` while that has not completed: accesses are still
checked without it (R349). -/
structure Region where
  mode : BitVec 2
  task : Nat
  slot : Nat
  len : Nat
  base : Nat
  pend : Option Nat := none
deriving DecidableEq, Repr, Inhabited

/-- A synchronisation variable entry (R339). Scope 0 none, 1 studio, 3 die, 4 dev, 5 sys. -/
structure SvEntry where
  ctx : Nat
  var : Nat
  part : BitVec 192
  scope : BitVec 3
  remote : Bool
  ranges : List (Nat × Nat)
deriving DecidableEq, Repr, Inhabited

/-- An overlay leaf (R357): the leaf, the original arena and generation, and the view whose leaf it was copied from (0 the base). -/
structure Overlay where
  leaf : BitVec 64
  arena : Nat
  gen : BitVec 4
  src : Nat
deriving DecidableEq, Repr, Inhabited

/-- A view table entry (R354). State 0 free, 1 open, 2 ended, 3 resolving; use 0 rival, 1 snapshot, 2 shadow original, 3 copy. `queue` is
the frame its escape queue stands in, once it has one (R360). -/
structure View where
  state : BitVec 2
  use : BitVec 2
  parent : Nat
  owner : Nat
  arena : Nat
  agen : BitVec 4
  index : BitVec 3
  depth : BitVec 3
  wended : Bool
  score : BitVec 64
  copied : Nat
  quota : Nat
  overlay : Map Overlay
  escs : List Esc
  queue : Option Nat := none
deriving DecidableEq, Repr, Inhabited

/-- What the launch controller holds of a task queue beside its descriptor in memory (R375): its own tail of a device queue,
the next sequence number of its tickets (R381), and the bit of the queue in the supervisor's error report. -/
structure Queue where
  tail : BitVec 64
  seq : Nat
  bad : Bool
deriving DecidableEq, Repr, Inhabited

/-- Palette save area of a context for one studio (R250): the contents of its block store and its check store, the zaps that wait there
for earlier accesses (R275), and the HBM pages it takes, in order. -/
structure PalSave where
  b : Map (BitVec 8)
  c : Map (BitVec 32)
  zaps : List Zap
  frames : List Nat := []
deriving DecidableEq, Repr, Inhabited

/-- A context. `rejoin` tells that its recovery has still to read the queue heads and the replay record, at a page that is migrating (R158,
R441). -/
structure Ctx where
  root : BitVec 52
  trapvec : BitVec 64
  crown : BitVec 16
  arwin : BitVec 57
  arwinLen : BitVec 57
  rpseq : BitVec 64
  rpqpos : BitVec 64
  rpentry : BitVec 64
  ckptstat : BitVec 64
  qtab : BitVec 52
  queues : Map Queue
  system : Bool
  errq : List (List (BitVec 8))
  errLost : BitVec 16
  regions : Map Region
  shadowDefault : BitVec 5
  shadowRun : BitVec 64
  shadowMism : BitVec 64
  palSaves : Map PalSave
  rejoin : Bool := false
deriving DecidableEq, Repr, Inhabited

/-- A task table entry (R374, R382, R394). `ending` is the state a task comes to once its completion word, whose page is migrating, has been
changed (R386). `next` is the next cell to admit, `retired` counts retired cells. `caps` are the capacity
figures latched at its admission (R24): STUDIOMAP, slices, channels, lanes. `startMem` and `startL2` are memory and L2 as the launch
started, which `ldc` may return (R172), but for the frames `startOut` that have changed hands since; `startBad` are the lines that were poison then. -/
structure Task where
  ticket : BitVec 64
  ctx : Nat
  queue : Nat
  entryIdx : BitVec 64
  state : Nat
  fault : BitVec 8
  lrec : LRec
  recAddr : BitVec 57
  deps : List (BitVec 64)
  share : Nat
  iters : Nat
  tileLen : Nat
  shared : Bool
  next : Nat
  retired : Nat
  rollbacks : Nat
  tag : Nat
  ptArena : Nat
  view : Nat
  failing : Bool
  ending : Option Nat := none
  replay : Option (BitVec 8)
  caps : BitVec 192 × BitVec 64 × BitVec 384 × BitVec 128
  startMem : List Host.Cell
  startL2 : Map Line
  startOut : List Nat
  startBad : Map Bool := []
deriving DecidableEq, Repr, Inhabited

/-- An undo record (R167): context, epoch, line, the line's bytes at that checkpoint. -/
structure Undo where
  ctx : Nat
  epoch : Nat
  line : Nat
  data : List (BitVec 8)
deriving DecidableEq, Repr, Inhabited

/-- A release record (R167). -/
structure RelRec where
  cell : Nat
  grp : Nat
  seq : Nat
  lines : List Nat
deriving DecidableEq, Repr, Inhabited

/-- A commit record (R440): checkpoint, journal position, and the sealed list's digest with the list, once sealed. -/
structure Commit where
  ctx : Nat
  n : BitVec 64
  pos : Nat
  list : List (BitVec 8)
  digest : List (BitVec 8)
  sealed : Bool
deriving DecidableEq, Repr, Inhabited

/-- The Gesso domain of a ground die (R167): undo records and release records newest first, commit records, the records
written so far (journal position). -/
structure Gesso where
  undo : List Undo
  rels : List RelRec
  commits : List Commit
  pos : Nat
deriving DecidableEq, Repr, Inhabited

/-- A checkpoint being committed (R440, R451). -/
structure Ckpt where
  n : BitVec 64
  addr : BitVec 57
  acks : Map Nat
  unreachable : Bool
deriving DecidableEq, Repr, Inhabited

/-- A contribution to a collective round (R414): its cell and Brush command, and its elements. -/
structure Contrib where
  cell : Nat
  id : Nat
  vals : List (BitVec 64)
deriving DecidableEq, Repr, Inhabited

/-- A collective round at its home slice (R414). -/
structure Round where
  tag : BitVec 64
  round : Nat
  home : Nat
  variant : Nat
  n : Nat
  mask : List (BitVec 8)
  parts : List Contrib
deriving DecidableEq, Repr, Inhabited

/-- A torus packet (R422-R424): class (0 request, 1 reply), where it is, where it goes, the ring whose buffer it stands in
(0 none yet, 1 row +, 2 row -, 3 column +, 4 column -), the message it carries. -/
structure Packet where
  cls : Nat
  at_x : Nat
  at_y : Nat
  to_x : Nat
  to_y : Nat
  ring : Nat
  id : Nat
deriving DecidableEq, Repr, Inhabited

/-- A codec engine block (R464-R467): the registers, the command in progress and its ring index, its row, whether that row is the
frame's last, the generation of the back word it waits on, how many bytes of its stream an encode command has written or a decode command
has read, the bytes of a row, and the bytes a decode command has read. -/
structure Engine where
  ctl : BitVec 64
  ring : BitVec 64
  tail : BitVec 64
  head : BitVec 64
  stat : BitVec 64
  cmd : Option (List (BitVec 8))
  cmdAt : BitVec 64
  row : Nat
  last : Bool
  backGen : BitVec 32
  out : Nat := 0
  rowLen : Nat := 0
  got : List (BitVec 8) := []
deriving DecidableEq, Repr, Inhabited

/-- A record of the launch-controller journal (R388): the number of the change, its kind (0 a task's state, 1 a queue's head, 2 a
task's share), what it is about, and the value. -/
structure CtlRec where
  seq : Nat
  kind : Nat
  subject : Nat
  value : Nat
deriving DecidableEq, Repr, Inhabited

/-- What the supervisor is told of that is none of R426's events: a die's Gesso journal reached seven-eighths occupancy (R167), a write to an
unreachable peer was lost, at a physical address (R462), the host wrote the tail of a device queue (R375, R395). -/
inductive Notice where
  | journal (die : Nat)
  | lostWrite (pa : Nat)
  | tail (ctx queue : Nat)
deriving DecidableEq, Repr, Inhabited

/-- Module registers and service state (R456-R469). `flash` is the module flash, `atelier` the private memory of the Atelier complex
(R17, R148, R168), `journal` the bytes of each die's Gesso journal (R167). `peers` lists the peers that have become unreachable (R462).
`notices` lists what else the supervisor has been told, oldest first. `due` lists the units whose self-test is due: an error report, a
TILE_FIXED or SHADOW_MISMATCH event, or an `stest` calls for it (R444, R454). -/
structure Module where
  kick : Map Bool
  flash : Map (BitVec 8)
  atelier : Map (BitVec 8)
  journal : Nat
  featAccept : BitVec 64
  featLocked : Bool
  lifecycle : BitVec 2
  lifeNext : Option (BitVec 2)
  bootFailed : Bool
  modnum : BitVec 8
  powerReq : BitVec 2
  powerNow : BitVec 2
  capped : Bool
  meas : Map (List (BitVec 8))
  attest : Map (BitVec 8)
  engines : Map Engine
  peers : Map Bool
  studiomap : BitVec 192
  slicemask : BitVec 64
  chanmask : BitVec 384
  lanemask : BitVec 128
  capStudio : BitVec 192
  capSlice : BitVec 64
  capChan : BitVec 384
  capLane : BitVec 128
  sliceMap : Map Nat
  counters : Map (BitVec 64)
  rr : Map Nat
  takeover : Map Bool
  supErr : List (List (BitVec 8))
  notices : List Notice
  requests : Map Bool
  due : List ErrUnit
deriving DecidableEq, Repr, Inhabited

/-- The state of the module. `ctlLog` holds the two copies of each launch-controller pair's journal, by 2 pair + copy (R374, R388). `landed`
lists bytes that Brush commands have landed, oldest first (R297), `held` the writes of agents that wait for their pages, in order (R158),
`routers` the input port each router served last, by node, output ring and class (R424). -/
structure State where
  mem : List Host.Cell
  poison : Map Bool
  l2 : Map Line
  replicas : Map Line
  frames : Map Bool
  studios : Map Studio
  dieTlb : Map (List TlbEntry)
  svs : Map (List SvEntry)
  units : Map UnitVec
  arenas : Map Arena
  pages : Map Page
  sweeps : List Sweep
  sealbs : List SealB
  shoots : List Shoot
  views : Map View
  ctxs : Map Ctx
  tasks : List Task
  cells : Map Cell
  gesso : Map Gesso
  ckpts : Map Ckpt
  rounds : List Round
  packets : List Packet
  routers : Map Nat
  landed : List Landing
  held : List Held
  ctlLog : Map (List CtlRec)
  module : Module
  agenda : List Move
  cur : GRef
  fresh : Nat
deriving DecidableEq, Repr, Inhabited

/-- The module registers right after reset (R24, R152, R456, R459). LIFECYCLE's fused state is DESIGN CHOICE 0 (log 6), the size of a
Gesso journal the least that R167 lets the supervisor set (log 41). -/
def Module.reset : Module :=
  { kick := [], flash := [], atelier := [], journal := 0x10000000, featAccept := 0, featLocked := false, lifecycle := 0, lifeNext := none, bootFailed := false, modnum := 0,
    powerReq := 0, powerNow := 0, capped := false, meas := [], attest := [], engines := [], peers := [],
    studiomap := BitVec.allOnes 192, slicemask := BitVec.allOnes 64, chanmask := BitVec.allOnes 384,
    lanemask := BitVec.allOnes 128, capStudio := BitVec.allOnes 192, capSlice := BitVec.allOnes 64, capChan := BitVec.allOnes 384,
    capLane := BitVec.allOnes 128, sliceMap := [],
    counters := [], rr := [], takeover := [], supErr := [], notices := [], requests := [], due := [] }

/-- The module right after reset: memory wiped, every cache invalid, no context, no task, no cell, every arena and view free,
every register at its reset value. -/
def State.reset : State :=
  { mem := [], poison := [], l2 := [], replicas := [], frames := [], studios := [], dieTlb := [], svs := [], units := [],
    arenas := [], pages := [], sweeps := [], sealbs := [], shoots := [], views := [], ctxs := [], tasks := [], cells := [],
    gesso := [], ckpts := [], rounds := [], packets := [], routers := [], landed := [], held := [], ctlLog := [], module := Module.reset, agenda := [], cur := ⟨0, 0⟩, fresh := 0 }

end Sys2Proof.Machine
end

