-- ==== Sys2Proof/Machine/Access.lean ====
section
/-! DEFINITION. Readers and writers of the parts of the state: cells, groups, studios, arenas, views, lanes, registers. -/
namespace Sys2Proof.Machine

namespace State

def cell (s : State) (c : Nat) : Cell := Map.getD s.cells c default
def setCell (s : State) (c : Nat) (v : Cell) : State := { s with cells := Map.ins c v s.cells }
def modCell (s : State) (c : Nat) (f : Cell → Cell) : State := s.setCell c (f (s.cell c))
def group (s : State) (r : GRef) : Group := Map.getD (s.cell r.cell).groups r.grp default
def setGroup (s : State) (r : GRef) (v : Group) : State :=
  s.modCell r.cell fun c => { c with groups := Map.ins r.grp v c.groups }
def modGroup (s : State) (r : GRef) (f : Group → Group) : State := s.setGroup r (f (s.group r))
def studio (s : State) (k : Nat) : Studio := Map.getD s.studios k default
def modStudio (s : State) (k : Nat) (f : Studio → Studio) : State := { s with studios := Map.ins k (f (s.studio k)) s.studios }
def ctx (s : State) (c : Nat) : Ctx := Map.getD s.ctxs c default
def modCtx (s : State) (c : Nat) (f : Ctx → Ctx) : State := { s with ctxs := Map.ins c (f (s.ctx c)) s.ctxs }
def arena (s : State) (a : Nat) : Arena := Map.getD s.arenas a default
def modArena (s : State) (a : Nat) (f : Arena → Arena) : State := { s with arenas := Map.ins a (f (s.arena a)) s.arenas }
/-- The base view is open; every other view is free until opened (R353). -/
def view (s : State) (v : Nat) : View := Map.getD s.views v (if v = 0 then { (default : View) with state := 1 } else default)
def modView (s : State) (v : Nat) (f : View → View) : State := { s with views := Map.ins v (f (s.view v)) s.views }
def modModule (s : State) (f : Module → Module) : State := { s with module := f s.module }

/-- The acting group, its cell, its studio number, its run. -/
def cg (s : State) : Group := s.group s.cur
def cc (s : State) : Cell := s.cell s.cur.cell
def ck (s : State) : Nat := s.cc.studio
def crun (s : State) : Run := s.cg.run.getD default
def modCg (s : State) (f : Group → Group) : State := s.modGroup s.cur f
def modCc (s : State) (f : Cell → Cell) : State := s.modCell s.cur.cell f
def modRun (s : State) (f : Run → Run) : State := s.modCg fun g => { g with run := some (f (g.run.getD default)) }

/-- The next number of the counter that free values and identities are drawn at. -/
def tick (s : State) : State := { s with fresh := s.fresh + 1 }

end State

/-! ### Lanes and positions (R26, R27, R43) -/

/-- Groups of a cell (R26). -/
def Cell.groupCount (c : Cell) : Nat := (c.shape + 31) / 32
/-- The group and position of original lane `cl`, as 32 group + position. -/
def Cell.placeOf (c : Cell) (cl : Nat) : Nat := Map.getD c.remap cl cl
/-- The original lane at a position of a group; none where no existing lane stands. -/
def Cell.clAt (c : Cell) (g p : Nat) : Option Nat :=
  if c.regrouped then (List.range c.shape).find? fun cl => c.placeOf cl == 32 * g + p
  else if p < 32 ∧ 32 * g + p < c.shape then some (32 * g + p) else none
/-- Mask of the existing lanes of group `g` of an unregrouped cell (R26). -/
def Cell.existMask (c : Cell) (g : Nat) : BitVec 32 :=
  BitVec.ofNat 32 (2 ^ (min 32 (c.shape - 32 * g)) - 1)
/-- Positions of a mask, increasing. -/
def positions (m : BitVec 32) : List Nat := (List.range 32).filter fun i => m.getLsbD i
def maskOf (ps : List Nat) : BitVec 32 := ps.foldl (fun a p => a ||| BitVec.ofNat 32 (2 ^ p)) 0

/-! ### Registers -/

def Cell.vreg (c : Cell) (cl i : Nat) : BitVec 32 := Map.getD c.vregs (256 * cl + i) 0
def Cell.setV (c : Cell) (cl i : Nat) (x : BitVec 32) : Cell := { c with vregs := Map.put 0 (256 * cl + i) x c.vregs }
/-- A predicate bit; p0 reads true (R105). -/
def Cell.pred (c : Cell) (cl p : Nat) : Bool := p == 0 || (Map.getD c.preds cl 0).getLsbD p
/-- Write a predicate bit; writes of p0 are ignored (R105). -/
def Cell.setPred (c : Cell) (cl p : Nat) (x : Bool) : Cell :=
  if p = 0 then c else
  let w := Map.getD c.preds cl (0 : BitVec 16)
  let b := BitVec.ofNat 16 (2 ^ p)
  { c with preds := Map.put 0 cl (if x then w ||| b else w &&& ~~~b) c.preds }
def Group.greg (g : Group) (i : Nat) : BitVec 64 := Map.getD g.gregs i 0
def Group.setG (g : Group) (i : Nat) (x : BitVec 64) : Group := { g with gregs := Map.put 0 i x g.gregs }
def Group.isEmpty (g : Group) : Reg → Bool
  | .v i => g.vEmpty.getLsbD i
  | .g i => g.gEmpty.getLsbD i
def setBit {w : Nat} (x : BitVec w) (i : Nat) (b : Bool) : BitVec w :=
  if b then x ||| BitVec.ofNat w (2 ^ i) else x &&& ~~~(BitVec.ofNat w (2 ^ i))
def Group.setEmpty (g : Group) (b : Bool) : Reg → Group
  | .v i => { g with vEmpty := setBit g.vEmpty i b }
  | .g i => { g with gEmpty := setBit g.gEmpty i b }

/-! ### Code pointers (R132) -/

/-- Code pointer of a line address and slot. -/
def codePtr (line slot : Nat) : BitVec 64 := BitVec.ofNat 64 (line % 2 ^ 57 / 64 * 64 + slot)
def pcLine (pc : BitVec 64) : Nat := pc.toNat / 64 * 64
def pcSlot (pc : BitVec 64) : Nat := pc.toNat % 8
def wellFormedPc (pc : BitVec 64) : Bool := pc.toNat < 2 ^ 57 && pc.toNat % 64 ≤ 4
/-- The slot after a PC (R133). -/
def nextPC (pc : BitVec 64) : BitVec 64 :=
  if pcSlot pc < 4 then codePtr (pcLine pc) (pcSlot pc + 1) else codePtr (pcLine pc + 64) 0

/-! ### Faults an instruction raises -/

/-- The recorded condition that raising a fault clears (R397, R471), the line that the instruction cache discards (R59), or the task queue
that a malformed descriptor disables (R375). -/
inductive Clear where
  | no
  | icache (studio line : Nat)
  | queue (q : Nat)
  | tile (m : Nat)
  | fill (f : Nat)
  | badQueue (c q : Nat)
deriving DecidableEq, Repr, Inhabited

/-- What stops an instruction: a fault (R426, R427), a page that is migrating, which holds it (R57, R158), or a kind
that ends a shadow copy (R370). -/
structure Raise where
  code : BitVec 8
  sub : BitVec 4 := 0
  addr : BitVec 64 := 0
  lane : Nat := 0
  imm : BitVec 16 := 0
  next : Bool := false
  hold : Bool := false
  clr : Clear := .no
  endCopy : Bool := false
deriving DecidableEq, Repr, Inhabited

/-! Fault codes of R426. -/
def fIllegalOp : BitVec 8 := 0x01
def fIllegalField : BitVec 8 := 0x02
def fIllegalTarget : BitVec 8 := 0x03
def fBudget : BitVec 8 := 0x04
def fEmptyRead : BitVec 8 := 0x05
def fAlign : BitVec 8 := 0x08
def fProt : BitVec 8 := 0x09
def fPageAbsent : BitVec 8 := 0x0A
def fRegion : BitVec 8 := 0x0B
def fArenaDead : BitVec 8 := 0x0C
def fArenaSealed : BitVec 8 := 0x0D
def fQuota : BitVec 8 := 0x0E
def fViewExhaust : BitVec 8 := 0x10
def fWorldEscape : BitVec 8 := 0x11
def fWorldDepth : BitVec 8 := 0x12
def fSyncOvf : BitVec 8 := 0x18
def fBarMisuse : BitVec 8 := 0x19
def fHandle : BitVec 8 := 0x1A
def fMatrixOwner : BitVec 8 := 0x20
def fMatrixMismatch : BitVec 8 := 0x21
def fSoftTrap : BitVec 8 := 0x28
def fTileUncorr : BitVec 8 := 0x30
def fMemUncorr : BitVec 8 := 0x31
def fImemUncorr : BitVec 8 := 0x32

/-- Raise a fault with an address. -/
def fault {α : Type} (code : BitVec 8) (addr : Nat := 0) (sub : Nat := 0) (lane : Nat := 0) : Except Raise α :=
  .error { code := code, addr := BitVec.ofNat 64 addr, sub := BitVec.ofNat 4 sub, lane := lane }
/-- Hold the instruction at a migrating page. -/
def holdHere {α : Type} : Except Raise α := .error { code := 0, hold := true }

/-- A dotted condition check. -/
def require (b : Bool) (code : BitVec 8) (addr : Nat := 0) (sub : Nat := 0) : Except Raise Unit :=
  if b then .ok () else fault code addr sub

/-! ### Error queues and counters (R430, R312) -/

/-- An error-queue record (R430). -/
def errRecord (code : BitVec 8) (cls unit detail pa arena gen : Nat) (ticket : BitVec 64) : List (BitVec 8) :=
  [code, BitVec.ofNat 8 cls] ++ leBytes 2 unit ++ leBytes 4 detail ++ leBytes 8 pa ++ leBytes 2 arena
  ++ [BitVec.ofNat 8 gen] ++ leBytes 5 0 ++ leBytes 8 ticket.toNat

namespace State

/-- Append a record to a context's error queue; the oldest is dropped when 256 are held, and the loss counts (R430). -/
def report (s : State) (c : Nat) (r : List (BitVec 8)) : State :=
  s.modCtx c fun x =>
    if x.errq.length < 256 then { x with errq := x.errq ++ [r] }
    else { x with errq := x.errq.tail ++ [r], errLost := if x.errLost.toNat = 65535 then x.errLost else x.errLost + 1 }
/-- A record for the supervisor only. -/
def supReport (s : State) (r : List (BitVec 8)) : State := s.modModule fun m => { m with supErr := m.supErr ++ [r] }
/-- The supervisor is told of something that has no code of R426. -/
def notify (s : State) (n : Notice) : State := s.modModule fun m => { m with notices := m.notices ++ [n] }

/-- Saturating increment of a 64-bit counter (R311). -/
def satInc (x : BitVec 64) (n : Nat := 1) : BitVec 64 := if x.toNat + n ≥ 2 ^ 64 then BitVec.allOnes 64 else BitVec.ofNat 64 (x.toNat + n)
/-- Module counters are keyed by 1024 x number + index (R312). -/
def counter (s : State) (n k : Nat) : BitVec 64 := Map.getD s.module.counters (1024 * n + k) 0
def bump (s : State) (n k : Nat) : State :=
  s.modModule fun m => { m with counters := Map.put 0 (1024 * n + k) (satInc (Map.getD m.counters (1024 * n + k) 0)) m.counters }
/-- Count event `e` of context `c` on studio `k` (R313). -/
def perfHit (c e : Nat) (p : Perf) : Bool := p.owner == some c && p.event.toNat == e
def perf (s : State) (k c e : Nat) (n : Nat := 1) : State :=
  if (s.studio k).perf.any (fun p => perfHit c e p.2) then
    s.modStudio k fun st => { st with perf := st.perf.map fun p => (p.1, if perfHit c e p.2 then { p.2 with value := satInc p.2.value n } else p.2) }
  else s

/-- The group's late-fault list grows; delivered before the next run (R427, R429). -/
def addLate (s : State) (r : GRef) (f : LateFault) : State := s.modGroup r fun g => { g with late := g.late ++ [f] }

/-- The canvas die of a studio (R13). -/
def dieOf (k : Nat) : Nat := k / 48

/-! ### Tasks -/

def task (s : State) (t : BitVec 64) : Option Task := s.tasks.find? fun x => x.ticket == t
def modTask (s : State) (t : BitVec 64) (f : Task → Task) : State :=
  { s with tasks := s.tasks.map fun x => if x.ticket == t then f x else x }

/-! ### Failure of a task (R386, R429, R430) -/

/-- The task fails with a code: it is marked, its record stands in the error queue; its cells end by their retirement. -/
def failTask (s : State) (t : BitVec 64) (code : BitVec 8) (detail : Nat := 0) (nested : Bool := false) : State :=
  match s.task t with
  | none => s
  | some x =>
    if x.failing || x.state ≥ 7 then s else
    let rec' := errRecord code 5 0 detail 0 0 0 t
    let s := s.modTask t fun x => { x with failing := true, fault := code }
    let s := s.report x.ctx rec'
    if nested then s.supReport (rec' ++ [1]) else s
/-- The cell's task no longer runs: failing, or about to be rolled back. -/
def stopped (s : State) (c : Nat) : Bool :=
  match s.task (s.cell c).ticket with | some t => t.failing || t.replay.isSome || 7 ≤ t.state | none => false
/-- Faults that roll a protected launch back (R435). -/
def rollsBack (s : State) (c : Nat) (code : BitVec 8) : Bool :=
  (code == fTileUncorr || code == fMemUncorr || code == fImemUncorr)
  && (match s.task (s.cell c).ticket with | some t => t.lrec.snap | none => false)
def requestRollback (s : State) (t : BitVec 64) (code : BitVec 8) : State :=
  s.modTask t fun x => { x with replay := some (x.replay.getD code) }

/-- A late fault of a group is found: rolled back, fatal, or held for its next run (R173, R429, R435). -/
def lateFault (s : State) (r : GRef) (f : LateFault) : State :=
  let t := (s.cell r.cell).ticket
  if s.rollsBack r.cell f.code then s.requestRollback t f.code
  else if f.handler then s.failTask t f.code 0 true
  else s.addLate r f

end State
end Sys2Proof.Machine
end

