-- ==== Sys2Proof/Machine/Memory.lean ====
section
/-! DEFINITION. Physical memory, caches and their write-backs, page walks, translation and the checks of R157 (part 07). -/
namespace Sys2Proof.Machine

/-- What an unlisted byte reads as: 0 (HBM is wiped with zeros, R459; host and peer memory DESIGN CHOICE, log 1). -/
def Memory.default : BitVec 8 := 0
/-- The canonical form of memory: addresses rising, no entry equal to the default. -/
def Memory.wf (m : List Host.Cell) : Bool := Map.rising m && m.all fun c => c.2 != Memory.default

/-- Bytes of a private space from an address. -/
def Map.bytes (m : Map (BitVec 8)) (a n : Nat) : List (BitVec 8) := (List.range n).map fun i => Map.getD m (a + i) 0
def Map.setBytes (m : Map (BitVec 8)) (a : Nat) (bs : List (BitVec 8)) : Map (BitVec 8) :=
  bs.zipIdx.foldl (fun m b => Map.put 0 (a + b.2) b.1 m) m

/-- The tag of the supervisor's own accesses at home, for a context. -/
def Tag.own (c : Nat) : Tag := { ctx := c, arena := 0, gen := 0, view := 0, rcv := false, l1 := false, l2 := true }
/-- A line filled under a tag. -/
def Tag.line (t : Tag) (data : List (BitVec 8)) : Line :=
  { arena := t.arena, gen := t.gen, view := t.view, ctx := t.ctx, pin := false, rcv := t.rcv, rank := t.rank, dirty := 0, data := data }

namespace State

/-! ### Bytes by physical address (R150) -/

/-- The default byte, for the operations of `State`. -/
abbrev memDefault : BitVec 8 := Memory.default
def memByte (s : State) (pa : Nat) : BitVec 8 := Map.getD s.mem pa memDefault
def setMemByte (s : State) (pa : Nat) (b : BitVec 8) : State := { s with mem := Map.put memDefault pa b s.mem }

/-- An address at a peer that has become unreachable (R462). -/
def unreachable (s : State) (pa : Nat) : Bool := pa / 2 ^ 48 == 2 && Map.getD s.module.peers (pa % 2 ^ 48 / 2 ^ 40) false
/-- Whether a physical address names a target (R150); peers exist as the domain holds them (R462, R460). -/
def targetOk (s : State) (pa : Nat) : Bool :=
  let lo := pa % 2 ^ 48
  match pa / 2 ^ 48 with
  | 0 => lo < Config.hbm || (0xFF00000000 ≤ lo && lo < 0x10000000000)
  | 1 => true
  | 2 => s.module.featAccept.getLsbD 5 && Config.peer (lo / 2 ^ 40) && lo % 2 ^ 40 < Config.hbm
  | _ => false
/-- Module registers: the IO window (R456). -/
def isRegWindow (pa : Nat) : Bool := 0xFF00000000 ≤ pa && pa < 0x10000000000

/-- Ground die of an HBM offset (R151). -/
def stackOf (pa : Nat) : Nat := bits pa 39 12 % 12
/-- HBM channel 32 stack + A[11:7] (R151, R312). -/
def channelOf (pa : Nat) : Nat := 32 * stackOf pa + bits pa 11 7

/-- The hash of R152. -/
def lineHash (pa : Nat) : Nat := (List.range 8).foldl (fun h k => Nat.xor h (bits (pa % 2 ^ 52) (7 + 6 * k + 5) (7 + 6 * k))) 0
/-- Home slice of a line (R152). -/
def homeSlice (s : State) (pa : Nat) : Nat := let h := lineHash pa; Map.getD s.module.sliceMap h h

/-! ### Generations (R326, R333) -/

def unitGen (s : State) (u a : Nat) : BitVec 4 := Map.getD (Map.getD s.units u default).gen a 0
def unitSeal (s : State) (u a : Nat) : Bool := Map.getD (Map.getD s.units u default).seals a false
/-- Unit numbers: studios 0-191 (with their Brush, underdrawing and read-only path), L2 slices 192-255, die TLBs 256-259, codec
engines 260-291. -/
def unitSlice (j : Nat) : Nat := 192 + j
def unitDie (d : Nat) : Nat := 256 + d
def unitEngine (e : Nat) : Nat := 260 + e
def allUnits : List Nat := List.range 292
/-- A tag whose generation a unit holds as stale (R161). The arena's present generation is stale nowhere: a number that lives again is
used under it before the last unit has heard of the drop (R335). -/
def staleAt (s : State) (u : Nat) (arena : BitVec 12) (gen : BitVec 4) : Bool :=
  arena != 0 && s.unitGen u arena.toNat != gen && (s.arena arena.toNat).gen != gen

/-! ### Gesso undo (R167) -/

/-- The undo epoch of a context on a die: one per checkpoint prepared there (R440). -/
def epoch (g : Gesso) (c : Nat) : Nat := (g.commits.filter fun k => k.ctx == c).length
def gessoOf (s : State) (d : Nat) : Gesso := Map.getD s.gesso d default
def modGesso (s : State) (d : Nat) (f : Gesso → Gesso) : State := { s with gesso := Map.ins d (f (s.gessoOf d)) s.gesso }
/-- The 128 bytes of a line in memory. -/
def memLine (s : State) (ln : Nat) : List (BitVec 8) := (List.range 128).map fun i => s.memByte (128 * ln + i)
/-- Records a journal holds. -/
def journalSize (g : Gesso) : Nat := g.undo.length + g.rels.length
/-- Records that each die's journal has room for, by the size the supervisor set (R167; log 41). -/
def journalLimit (s : State) : Nat := Config.journalRecords s.module.journal
/-- The journal of die `d` has no room for another record (R167). -/
def journalFull (s : State) (d : Nat) : Bool := decide (s.journalLimit ≤ journalSize (s.gessoOf d))
/-- Add a record to a die's journal; reaching seven-eighths of it is an event to the supervisor (R167). -/
def addJournal (s : State) (d : Nat) (f : Gesso → Gesso) : State :=
  let g := s.gessoOf d
  let g' := f { g with pos := g.pos + 1 }
  let s := { s with gesso := Map.ins d g' s.gesso }
  if 8 * journalSize g < 7 * s.journalLimit && 7 * s.journalLimit ≤ 8 * journalSize g' then s.notify (.journal d) else s
/-- The line has its undo record of the present epoch. -/
def undoHeld (s : State) (c ln : Nat) : Bool :=
  let g := s.gessoOf (stackOf (128 * ln))
  let e := epoch g c
  g.undo.any fun u => u.ctx == c && u.epoch == e && u.line == ln
/-- Record the line's undo image at its first write of the epoch; only HBM has a journal. -/
def recordUndo (s : State) (c ln : Nat) : State :=
  if Config.hbm ≤ 128 * ln || s.undoHeld c ln then s else
  let d := stackOf (128 * ln)
  s.addJournal d fun g => { g with undo := ⟨c, epoch g c, ln, s.memLine ln⟩ :: g.undo }
/-- A write to a recoverable line waits: it needs a record that its full journal has no room for (R167). -/
def undoWaits (s : State) (c pa : Nat) : Bool :=
  pa < Config.hbm && !s.undoHeld c (pa / 128) && s.journalFull (stackOf pa)

/-! ### Lines -/

def lineByte (l : Line) (i : Nat) : BitVec 8 := l.data.getD i 0
/-- The live L2 line (a stale one counts as absent, R161). -/
def l2Live (s : State) (ln : Nat) : Option Line :=
  match Map.find ln s.l2 with
  | some l => if s.staleAt (unitSlice (s.homeSlice (128 * ln))) l.arena l.gen then none else some l
  | none => none
def homeByte (s : State) (pa : Nat) : BitVec 8 :=
  match s.l2Live (pa / 128) with
  | some l => lineByte l (pa % 128)
  | none => s.memByte pa
def homeLine (s : State) (ln : Nat) : List (BitVec 8) :=
  match s.l2Live ln with
  | some l => l.data
  | none => s.memLine ln
def homeBytes (s : State) (pa n : Nat) : List (BitVec 8) := (List.range n).map fun i => s.homeByte (pa + i)

/-- What is read of a line at home is poison, or cannot be had (R439, R462). -/
def homeBad (s : State) (ln : Nat) : Bool :=
  match s.l2Live ln with
  | some l => l.bad
  | none => Map.getD s.poison ln false || s.unreachable (128 * ln)

/-- The set a line falls in: of a slice's 2,048, and of a studio's 256 (R13, R148; log 8). -/
def l2Set (ln : Nat) : Nat := Config.l2Set ln % 2048
def l1Set (ln : Nat) : Nat := Config.l1Set ln % 256
/-- Lines of slice `j` that share the set of line `ln` (R15: 16 ways): their replicas, and the others. -/
def setReplicas (s : State) (j ln : Nat) : List (Nat × Line) :=
  s.replicas.filter fun r => r.1 / 64 != ln && l2Set (r.1 / 64) == l2Set ln && r.1 % 64 == j
def setLines (s : State) (j ln : Nat) : List (Nat × Line) :=
  s.l2.filter fun l => l.1 != ln && l2Set l.1 == l2Set ln && s.homeSlice (128 * l.1) == j
/-- All 16 ways of the set of slice `j` for line `ln` are pinned by other lines (R163). -/
def waysPinned (s : State) (j ln : Nat) : Bool := 16 ≤ s.l2.length && 16 ≤ ((s.setLines j ln).filter fun l => l.2.pin).length
/-- All 16 ways of a line's set at its home slice are pinned by other lines. -/
def setPinned (s : State) (ln : Nat) : Bool := s.waysPinned (s.homeSlice (128 * ln)) ln

/-- Write bytes of a line to memory where `dirty` marks them; a full-line write clears poison (R439); a write to an unreachable
peer is lost, and the supervisor is told (R462). -/
def memWriteLine (s : State) (ln : Nat) (l : Line) : State :=
  if s.unreachable (128 * ln) && l.dirty != 0 then s.notify (.lostWrite (128 * ln)) else
  let s := if l.rcv then s.recordUndo l.ctx ln else s
  let s := (List.range 128).foldl (fun s i => if l.dirty.getLsbD i then s.setMemByte (128 * ln + i) (lineByte l i) else s) s
  if l.dirty = BitVec.allOnes 128 then { s with poison := Map.del ln s.poison } else s

/-- A group's monitor fires (R182): its fired bit is set, or, where entries wait on it, their wait ends and it is disarmed, whatever is
armed afterwards (R47). -/
def fired (g : Group) : Group :=
  if g.entries.any (fun e => e.st == .monitor) then
    { g with mon := none, fired := false, entries := g.entries.map fun e => if e.st == .monitor then { e with st := .no } else e }
  else { g with fired := true }
/-- Monitors armed on the line, in the studios that `p` picks, fire (R182). -/
def fireWhere (s : State) (ln : Nat) (p : Nat → Bool) : State :=
  { s with cells := s.cells.map fun c =>
      if c.2.place = .resident ∧ p c.2.studio ∧ c.2.groups.any (fun g => g.2.mon = some ln) then
        (c.1, { c.2 with groups := c.2.groups.map fun g => if g.2.mon = some ln then (g.1, fired g.2) else g })
      else c }
/-- A write in studio `k` fires the monitors of its groups. -/
def fireIn (s : State) (ln k : Nat) : State := s.fireWhere ln (· == k)
/-- A write seen at the home slice fires the monitors of every studio but the writer's, whose own fired at the write. -/
def fireHome (s : State) (ln : Nat) (k : Option Nat) : State := s.fireWhere ln fun j => some j != k

/-! ### Room in the caches (R13, R15, R148) -/

/-- A free choice among `n`. -/
def pick (s : State) (n : Nat) : Nat := (Config.free64 s.fresh).toNat % n

/-- Merge dirty bytes into the home: the L2 line where it is held, else memory (R155, R161). A line written whole is poison no more. -/
def mergeHome (s : State) (ln : Nat) (l : Line) : State :=
  match s.l2Live ln with
  | some h =>
    let data := (List.range 128).map fun i => if l.dirty.getLsbD i then lineByte l i else lineByte h i
    let dirty := h.dirty ||| l.dirty
    { s with l2 := Map.ins ln { h with data := data, dirty := dirty, rcv := h.rcv || l.rcv, bad := h.bad && dirty != BitVec.allOnes 128 } s.l2 }
  | none => s.memWriteLine ln l
/-- The same as a write that the home slice sees (R182). -/
def homeMerge (s : State) (ln : Nat) (l : Line) (k : Option Nat) : State := (s.fireHome ln k).mergeHome ln l

/-- Write a line of L2 back to memory and clear its dirty bits. -/
def wbL2 (s : State) (ln : Nat) : State :=
  match s.l2Live ln with
  | some l => if l.dirty = 0 then s else
      let s := s.memWriteLine ln l
      { s with l2 := Map.ins ln { l with dirty := 0 } s.l2 }
  | none => s

/-- Those of some lines that rank first for eviction (R66); `top` is the highest rank the cache knows. -/
def firstOut (top : Nat) (ls : List (Nat × Line)) : List (Nat × Line) :=
  ls.filter fun l => ls.all fun m => min top l.2.rank ≤ min top m.2.rank
/-- A way of the set of slice `j` for line `ln`: with all 16 taken, one that is not pinned leaves, whichever the hardware picks among
those that rank first (R66), its dirty bytes written back (R161). -/
def roomL2 (s : State) (j ln : Nat) : State :=
  if s.l2.length + s.replicas.length < 16 then s else
  let rs := s.setReplicas j ln
  let ls := s.setLines j ln
  if ls.length + rs.length < 16 then s else
  let out := firstOut 2 (rs ++ ls.filter fun l => !l.2.pin)
  match out[s.pick out.length]? with
  | some m =>
    if rs.contains m then { s.tick with replicas := Map.del m.1 s.replicas }
    else let s := s.tick.wbL2 m.1
         { s with l2 := Map.del m.1 s.l2 }
  | none => s
/-- Fill a line into its home slice, which holds it once: a replica that stood there gives way (R15). -/
def addL2 (s : State) (ln : Nat) (l : Line) : State :=
  let s := { s with replicas := Map.del (64 * ln + s.homeSlice (128 * ln)) s.replicas }
  let s := s.roomL2 (s.homeSlice (128 * ln)) ln
  { s with l2 := Map.ins ln l s.l2 }
/-- A demand miss under a tag finds every way of the line's set pinned: it counts in PINBYPASS, once for a request (R156, R163, R312). -/
def bypass (s : State) (t : Tag) (ln : Nat) : State :=
  if !t.l2 || t.again || (s.l2Live ln).isSome || !s.setPinned ln then s else s.bump 0x116 (s.homeSlice (128 * ln))
/-- Fill line `ln` into its home slice under a tag, unless it is held; a demand miss that finds every way pinned allocates nothing
(R163). -/
def fillL2 (s : State) (t : Tag) (ln : Nat) : State :=
  if !t.l2 || (s.l2Live ln).isSome then s
  else if s.setPinned ln then s.bypass t ln
  else s.addL2 ln { t.line (s.memLine ln) with bad := s.homeBad ln }

def l1Live (s : State) (k ln : Nat) : Option Line :=
  match Map.find ln (s.studio k).l1 with
  | some l => if s.staleAt k l.arena l.gen then none else some l
  | none => none
def setL1 (s : State) (k ln : Nat) (l : Line) : State := s.modStudio k fun st => { st with l1 := Map.ins ln l st.l1 }
/-- The tag a line was filled under. -/
def tagOfLine (l : Line) : Tag :=
  { ctx := l.ctx, arena := l.arena, gen := l.gen, view := l.view, rcv := l.rcv, l1 := true, l2 := true, rank := l.rank }

/-! ### Buffered reductions (R176) -/

/-- Apply one reduction or atomic operation to a memory value: `op` as the variant of atom (R175). f32 addition rounds to nearest. -/
def atomOp (op : Nat) (ty : Ty) (m o new : Nat) : Nat :=
  let w := ty.width
  let si : Nat → Int := fun u => if ty.signed then sext w u else (u : Int)
  match op with
  | 0 => if ty == .f32 then faddBits m o else (m + o) % 2 ^ w
  | 1 => if si m ≤ si o then m else o
  | 2 => if si m ≥ si o then m else o
  | 3 => m &&& o
  | 4 => m ||| o
  | 5 => Nat.xor m o
  | 6 => o
  | _ => if m = o then new else m

/-- The line of a write: its bytes, marked dirty. -/
def storeLine (t : Tag) (pa : Nat) (bs : List (BitVec 8)) : Line :=
  let o := pa % 128
  let l := t.line ((List.range 128).map fun i => if o ≤ i ∧ i < o + bs.length then bs.getD (i - o) 0 else 0)
  { l with dirty := BitVec.ofNat 128 ((2 ^ bs.length - 1) * 2 ^ o) }
/-- The first write of an epoch to a recoverable line has its undo record first (R167). -/
def undoFirst (s : State) (t : Tag) (ln : Nat) : State := if t.rcv then s.recordUndo t.ctx ln else s
/-- Write bytes at the home, as one change; `k` is the writing studio, if one writes. -/
def homeStore (s : State) (t : Tag) (pa : Nat) (bs : List (BitVec 8)) (k : Option Nat := none) : State :=
  (s.undoFirst t (pa / 128)).homeMerge (pa / 128) (storeLine t pa bs) k
/-- A write that reaches home: the line filled there first, as its placement says. -/
def homeWrite (s : State) (t : Tag) (pa : Nat) (bs : List (BitVec 8)) (k : Option Nat := none) : State :=
  (s.fillL2 t (pa / 128)).homeStore t pa bs k

/-- The L2 copy of a host or peer line takes what its target holds, its own dirty bytes sent there first; a pin stays (R163, R288). An
access to an IO page (`io`) is performed at its target in HBM too (R155). -/
def meetTarget (s : State) (ln : Nat) (io : Bool := false) : State :=
  if (!io && 128 * ln < 2 ^ 48) || (s.l2Live ln).isNone then s else
  let s := s.wbL2 ln
  { s with l2 := Map.upd ln (fun l => { l with data := s.memLine ln, bad := Map.getD s.poison ln false || s.unreachable (128 * ln) }) s.l2 }
/-- A host or peer line's dirty bytes are sent to their target (R162), of an IO page those of an HBM line too (R155). -/
def sendTarget (s : State) (ln : Nat) (io : Bool := false) : State := if !io && 128 * ln < 2 ^ 48 then s else s.wbL2 ln

/-- A reduction's read of a poisoned line is reported to its group, and leaves the line as it is (R439). -/
def redFault (s : State) (a : RedApp) : State :=
  if (Map.find a.cell s.cells).isNone then s else
  s.lateFault ⟨a.cell, a.grp⟩ ⟨fMemUncorr, 0, BitVec.ofNat 64 a.pa, 0, a.handler, none⟩
/-- Merge one application of a buffered reduction of studio `k` into the home slice (R176). One to an arena that has been dropped is
discarded (R300); one to host or peer memory is performed there, as a read followed by a write (R296). -/
def applyRed (s : State) (k op : Nat) (a : RedApp) : State :=
  if a.arena != 0 && ((s.arena a.arena.toNat).gen != a.gen || (s.arena a.arena.toNat).state == 3) then s else
  let n := a.ty.width / 8
  let t : Tag := { Tag.own a.ctx with arena := a.arena, gen := a.gen, view := a.view, rcv := a.rcv, l2 := a.l2, rank := a.rank }
  let s := s.meetTarget (a.pa / 128)
  if s.homeBad (a.pa / 128) then s.redFault a else
  (s.homeWrite t a.pa (leBytes n (atomOp op a.ty (leNat (s.homeBytes a.pa n)) a.val.toNat 0)) (some k)).sendTarget (a.pa / 128)
/-- The applications of some buffers with their operations, in the order they were made. -/
def redOrder (bs : List RedBuf) : List (Nat × RedApp) :=
  (bs.flatMap fun b => b.apps.map fun a => (b.op, a)).foldl (fun l x =>
    (l.takeWhile fun y => y.2.seq ≤ x.2.seq) ++ x :: l.dropWhile fun y => y.2.seq ≤ x.2.seq) []
/-- Merge the buffers of studio `k` that `p` picks. -/
def mergeReds (s : State) (k : Nat) (p : RedBuf → Bool) : State :=
  let bs := (s.studio k).reds
  let s := s.modStudio k fun st => { st with reds := st.reds.filter fun b => !p b }
  (redOrder (bs.filter p)).foldl (fun s x => s.applyRed k x.1 x.2) s
/-- A buffer holds an application that `p` picks. -/
def redHas (b : RedBuf) (p : RedApp → Bool) : Bool := b.apps.any p
/-- Merge the buffers in which group `r` has an application: a release of the group at any scope (R176). -/
def mergeGroup (s : State) (k : Nat) (r : GRef) : State := s.mergeReds k fun b => redHas b fun a => a.cell == r.cell && a.grp == r.grp
/-- Another agent's access reaching a line at home merges every studio's buffers of it (R176). -/
def mergeLine (s : State) (ln : Nat) : State :=
  (s.studios.filter fun st => st.2.reds.any fun b => b.line == ln).foldl
    (fun s st => s.mergeReds st.1 fun b => b.line == ln) s

/-! ### Leaving a studio's L1 (R161, R162, R182) -/

/-- Write the dirty bytes of an L1 line back to its home slice (R162), which allocates it unless its set is pinned. The buffered
reductions of every studio to the line are merged before they arrive (R176). -/
def wbL1 (s : State) (k ln : Nat) : State :=
  match s.l1Live k ln with
  | some l =>
    if l.dirty = 0 then s else
    let s := s.mergeLine ln
    let s := if (s.l2Live ln).isSome || s.setPinned ln then s else s.addL2 ln { (tagOfLine l).line (s.memLine ln) with bad := s.homeBad ln }
    (s.homeMerge ln l (some k)).setL1 k ln { l with dirty := 0 }
  | none => s
/-- Invalidate an L1 line, where the studio holds it; a monitor armed on it there fires (R182). -/
def dropL1 (s : State) (k ln : Nat) : State :=
  if (Map.find ln (s.studio k).l1).isNone then s else
  (s.modStudio k fun st => { st with l1 := Map.del ln st.l1 }).fireIn ln k
/-- Lines of studio `k` that share the set of line `ln` (R13: 256 sets of 8 ways). -/
def l1Others (s : State) (k ln : Nat) : List (Nat × Line) := (s.studio k).l1.filter fun l => l.1 != ln && l1Set l.1 == l1Set ln
/-- A way for line `ln` in the studio's L1: with all 8 of its set taken, one line leaves, whichever the hardware picks among those that
rank first (R66). -/
def roomL1 (s : State) (k ln : Nat) : State :=
  if (s.studio k).l1.length < 8 then s else
  let ls := s.l1Others k ln
  if ls.length < 8 then s else
  let out := firstOut 1 ls
  match out[s.pick out.length]? with
  | some m => (s.tick.wbL1 k m.1).dropL1 k m.1
  | none => s

/-! ### Page walks (R153, R154) -/

def leafArena (l : BitVec 64) : Nat := bits l.toNat 63 52
def leafFrame (l : BitVec 64) : Nat := bits l.toNat 51 16
def leafKind (l : BitVec 64) : Nat := bits l.toNat 15 14     -- 0 SO, 1 RC, 2 UO, 3 IO
def leafRes (l : BitVec 64) : Nat := bits l.toNat 13 12      -- 0 resident, 1 migrating, 2 absent
def leafCache (l : BitVec 64) : Nat := bits l.toNat 9 8
def leafBit (l : BitVec 64) (i : Nat) : Bool := l.getLsbD i
def sizeShift : Nat → Nat | 0 => 16 | 1 => 25 | _ => 34

/-- The entry at a level, as held at home. -/
def pte (s : State) (table idx : Nat) : BitVec 64 := BitVec.ofNat 64 (leNat (s.homeBytes (table + 8 * idx) 8))

/-- A leaf well formed for the level it stands at (R154): size agrees, no reserved value, frame low bits zero. -/
def leafOk (l : BitVec 64) (level : Nat) : Bool :=
  let sz := bits l.toNat 11 10
  sz ≠ 3 && level + sz = 4 && leafRes l ≠ 3 && leafCache l ≠ 3
  && (sz ≠ 1 || leafFrame l % 512 = 0) && (sz ≠ 2 || leafFrame l % 2 ^ 18 = 0)
def tableOk (p : BitVec 64) : Bool := bits p.toNat 63 52 = 0 && bits p.toNat 11 2 = 0

/-- Walk from `table` with the levels left to visit: (level, index). The leaf, its page shift and its own address. -/
def walkFrom (s : State) (table : Nat) : List (Nat × Nat) → Option (BitVec 64 × Nat × Nat)
  | [] => none
  | (lv, ix) :: r =>
    let e := s.pte table ix
    if !leafBit e 0 then none
    else if leafBit e 1 then
      if leafOk e lv then some (e, sizeShift (bits e.toNat 11 10), table + 8 * ix) else none
    else if tableOk e && lv < 4 then s.walkFrom (bits e.toNat 51 12 * 4096) r else none
/-- The first line of the tables that a walk finds to be poison: what stands there cannot be read (R439). -/
def walkPoison (s : State) (table : Nat) : List (Nat × Nat) → Option Nat
  | [] => none
  | (lv, ix) :: r =>
    if s.homeBad ((table + 8 * ix) / 128) then some ((table + 8 * ix) / 128 * 128) else
    let e := s.pte table ix
    if leafBit e 0 && !leafBit e 1 && tableOk e && lv < 4 then s.walkPoison (bits e.toNat 51 12 * 4096) r else none
/-- Levels of a walk with the index that an address has at each (R153). -/
def walkLevels (va : Nat) : List (Nat × Nat) := [(0, bits va 56 52), (1, bits va 51 43), (2, bits va 42 34), (3, bits va 33 25), (4, bits va 24 16)]

/-- The base-table translation of a virtual address. -/
def walk (s : State) (root : Nat) (va : Nat) : Option (BitVec 64 × Nat × Nat) :=
  if (s.walkPoison root (walkLevels va)).isSome then none else s.walkFrom root (walkLevels va)

/-- The numbers of a list, each once. -/
def once (l : List Nat) : List Nat := l.foldl (fun r i => if r.head? = some i || r.contains i then r else i :: r) []
/-- A leaf of a page table: the virtual base it maps, its page shift, where it stands, itself. -/
structure LeafAt where
  va : Nat
  shift : Nat
  at' : Nat
  leaf : BitVec 64
deriving DecidableEq, Repr, Inhabited
def LeafAt.first (l : LeafAt) : Nat := leafFrame l.leaf * 65536 / 2 ^ l.shift * 2 ^ l.shift / 65536
def LeafAt.count (l : LeafAt) : Nat := 2 ^ l.shift / 65536
/-- Indices of the words of a table of `n` entries that may be non-zero: those with a listed byte or in a line of L2. -/
def tableWords (s : State) (table n : Nat) : List Nat :=
  let inT := fun a => table ≤ a && a < table + 8 * n
  let m := (s.mem.filter fun c => inT c.1).map fun c => (c.1 - table) / 8
  let l := (s.l2.filter fun l => inT (128 * l.1) || inT (128 * l.1 + 127)).flatMap fun l =>
    (List.range 16).filterMap fun i => if inT (128 * l.1 + 8 * i) then some ((128 * l.1 + 8 * i - table) / 8) else none
  once (m ++ l)
/-- Every leaf below a table at a level; `fuel` levels are left. -/
def leavesFrom (s : State) : (fuel level table va : Nat) → List LeafAt
  | 0, _, _, _ => []
  | n + 1, lv, table, va =>
    (s.tableWords table (if lv = 0 then 32 else 512)).flatMap fun ix =>
      let e := s.pte table ix
      let va := va + ix * 2 ^ (52 - 9 * lv)
      if !leafBit e 0 then []
      else if leafBit e 1 then (if leafOk e lv then [⟨va, sizeShift (bits e.toNat 11 10), table + 8 * ix, e⟩] else [])
      else if tableOk e && lv < 4 then s.leavesFrom n (lv + 1) (bits e.toNat 51 12 * 4096) va else []
/-- Every leaf of a context. -/
def leavesOf (s : State) (c : Nat) : List LeafAt := s.leavesFrom 5 0 (s.ctx c).root.toNat 0

/-- Key of a context's 64 KiB page in `pages`. -/
def pageKey (c va : Nat) : Nat := c * 2 ^ 41 + va % 2 ^ 57 / 65536
def pageOf (s : State) (c va : Nat) : Option Page := Map.find (pageKey c va) s.pages

/-- Overlay leaf for a page, up the chain of parents (R355); `n` bounds the chain. -/
def overlayOf (s : State) (va : Nat) : Nat → Nat → Option (Nat × Overlay)
  | 0, _ => none
  | n + 1, v =>
    if v = 0 then none else
    match Map.find (va / 65536) (s.view v).overlay with
    | some o => some (v, o)
    | none => s.overlayOf va n (s.view v).parent

/-- A translation: the leaf, page shift, generation carried, view tag of lines filled through it (R358), and where the leaf
stands (0 in an overlay). -/
structure Xlat where
  leaf : BitVec 64
  shift : Nat
  gen : BitVec 4
  tag : Nat
  leafAt : Nat
deriving DecidableEq, Repr, Inhabited

/-- The base leaf a translation uses; 0 for an overlay leaf. -/
def Xlat.baseLeaf (x : Xlat) : BitVec 64 := if x.tag = 0 then x.leaf else 0

/-- Generation captured for a page at a fill (R156): that of its mapping (log 11); a listing of another arena's is past. -/
def captureGen (s : State) (c va : Nat) (leaf : BitVec 64) : BitVec 4 :=
  match s.pageOf c va with
  | some p => if p.arena = leafArena leaf then p.gen else (s.arena (leafArena leaf)).gen
  | none => (s.arena (leafArena leaf)).gen

def tlbFind (l : List TlbEntry) (c v va : Nat) : Option TlbEntry :=
  l.find? fun e => !e.ovl && e.ctx == c && e.view == v && va / 2 ^ e.shift == e.page

/-- An entry overlaps the range of a shoot-down (R160). -/
def inShoot (w : Shoot) (e : TlbEntry) : Bool :=
  e.ctx == w.ctx && e.page * 2 ^ e.shift < w.base + w.len && w.base < (e.page + 1) * 2 ^ e.shift
/-- Put an entry first in a TLB of `n` entries. With all taken one leaves, whichever the hardware picks, but none of the 32 newest,
which one instruction's pages may be (R156). -/
def addEntry (s : State) (n : Nat) (e : TlbEntry) (l : List TlbEntry) : List TlbEntry :=
  let l := l.filter fun x => !(x.ctx == e.ctx && x.view == e.view && x.shift == e.shift && x.page == e.page)
  e :: (if l.length < n then l else l.eraseIdx (31 + s.pick (l.length - 31)))
/-- The studio TLB holds 512 entries, a die TLB 16,384 (R148). -/
def fillTlb (s : State) (k : Nat) (e : TlbEntry) : State := s.modStudio k fun st => { st with tlb := s.addEntry 512 e st.tlb }
def fillDieTlb (s : State) (d : Nat) (e : TlbEntry) : State :=
  { s with dieTlb := Map.ins d (s.addEntry 16384 e (Map.getD s.dieTlb d [])) s.dieTlb }
/-- The leaf that lanes still go by for an address, while the shoot-down of a change of a part of a large page is in progress: its value
before, its page shift and its place (R159). -/
def heldLeaf (s : State) (c va : Nat) : Option (BitVec 64 × Nat × Nat) :=
  s.shoots.findSome? fun w => if w.ctx == c && w.base ≤ va && va < w.base + w.len then
    w.change.map fun x => (x.2, sizeShift (bits x.2.toNat 11 10), x.1) else none
/-- A walk for a page, filling both TLBs (R156); where the die's vector has moved on, neither keeps what carries the old generation
(R333), and neither keeps a leaf whose change is under way (R159, R160). -/
def walkFill (s : State) (k c v va : Nat) : State × Option Xlat :=
  match s.heldLeaf c va with
  | some (leaf, sh, at') => (s, some ⟨leaf, sh, s.captureGen c va leaf, 0, at'⟩)
  | none =>
  match s.walk (s.ctx c).root.toNat va with
  | none => (s, none)
  | some (leaf, sh, at') =>
    let g := s.captureGen c va leaf
    let e : TlbEntry := { ctx := c, view := v, page := va / 2 ^ sh, shift := sh, leaf := leaf, gen := g }
    let x : Xlat := ⟨leaf, sh, g, 0, at'⟩
    if s.staleAt (unitDie (dieOf k)) (BitVec.ofNat 12 (leafArena leaf)) g then (s, some x)
    else (((s.fillTlb k e).fillDieTlb (dieOf k) e).tick, some x)
/-- An overlay's leaf through the TLBs (R355): a miss in both costs a walk of the overlays, which fills both. -/
def overFill (s : State) (k c v va : Nat) (leaf : BitVec 64) (gen : BitVec 4) : State :=
  let e : TlbEntry := { ctx := c, view := v, page := va / 65536, shift := 16, leaf := leaf, gen := gen, ovl := true }
  if (s.studio k).tlb.contains e then s else
  let s := s.perf k c 6
  if (Map.getD s.dieTlb (dieOf k) []).contains e then (s.fillTlb k e).tick
  else (((s.perf k c 7).fillTlb k e).fillDieTlb (dieOf k) e).tick
/-- The entry a die TLB serves a studio with. One that a shoot-down has the studio already rid of, and the die not yet, serves it no
more: an access translated after the studio's drop walks afresh (R160). -/
def dieEntry (s : State) (k c v va : Nat) : Option TlbEntry :=
  (tlbFind (Map.getD s.dieTlb (dieOf k) []) c v va).filter fun e =>
    !s.shoots.any fun w => inShoot w e && w.units.contains (unitDie (dieOf k)) && !w.units.contains k
/-- The region that holds an address (R337): an entry whose `rgset` has not completed holds none (R349). -/
def regionAt (s : State) (c va : Nat) : Option (Nat × Region) :=
  (s.ctx c).regions.find? fun r => r.2.pend.isNone && r.2.base ≤ va && va < r.2.base + r.2.len * 128
/-- A shared-writable region holds the address (R337, R356). -/
def sharedWritable (s : State) (c va : Nat) : Bool := match s.regionAt c va with | some r => r.2.mode == 3 | none => false
def isRival (s : State) (v : Nat) : Bool := v ≠ 0 && (s.view v).use == 0
/-- The overlay leaf an access uses. A rival reads a shared-writable page as it stands in the base (R359). -/
def overlayFor (s : State) (c v va : Nat) : Option (Nat × Overlay) :=
  if s.isRival v && s.sharedWritable c va then none else s.overlayOf va 64 v
/-- Translate for context `c` in view `v` on studio `k`: overlays, studio TLB, die TLB, walk (R156, R355). An entry whose page is not
resident waits in the TLB for its leaf to change (R158, R184). -/
def translate (s : State) (k c v va : Nat) : State × Option Xlat :=
  match s.overlayFor c v va with
  | some (u, o) => let g := (s.arena (leafArena o.leaf)).gen
                   (s.overFill k c v va o.leaf g, some ⟨o.leaf, 16, g, u, 0⟩)
  | none =>
    match tlbFind (s.studio k).tlb c v va with
    | some e => if leafRes e.leaf = 0 then (s, some ⟨e.leaf, e.shift, e.gen, 0, 0⟩) else s.walkFill k c v va
    | none =>
      let s := s.perf k c 6
      match s.dieEntry k c v va with
      | some e => if leafRes e.leaf = 0 && !s.staleAt (unitDie (dieOf k)) (BitVec.ofNat 12 (leafArena e.leaf)) e.gen
                  then ((s.fillTlb k e).tick, some ⟨e.leaf, e.shift, e.gen, 0, 0⟩) else s.walkFill k c v va
      | none => (s.perf k c 7).walkFill k c v va

/-- Physical address through a translation. -/
def physOf (x : Xlat) (va : Nat) : Nat := leafFrame x.leaf * 65536 / 2 ^ x.shift * 2 ^ x.shift + va % 2 ^ x.shift

/-! ### Charging (R330, R331) -/

/-- Arena `a` and its ancestors; `n` bounds the depth (8). -/
def ancestors (s : State) : Nat → Nat → List Nat
  | 0, _ => []
  | n + 1, a => if a = 0 then [] else a :: s.ancestors n (s.arena a).parent
def noLimit : Nat := 0xFFFFFFFF
def chargeRefused (s : State) (a n : Nat) : Bool :=
  (s.ancestors 9 a).any fun x => let e := s.arena x; e.quota ≠ noLimit && e.quota < e.charge + n
/-- Add `n` pages to an arena and its ancestors. The number may pass what the 32 bits of an entry's charge field hold, where no quota
refuses it: the spec says nothing of that, and the model counts on (DESIGN CHOICE, log 106). -/
def addCharge (s : State) (a n : Nat) : State := (s.ancestors 9 a).foldl (fun s x => s.modArena x fun e => { e with charge := e.charge + n }) s
/-- Take `n` pages off an arena and its ancestors. -/
def subCharge (s : State) (a n : Nat) : State := (s.ancestors 9 a).foldl (fun s x => s.modArena x fun e => { e with charge := e.charge - n }) s
/-- Charge `n` pages, drawing from the reserve first (R330); none when refused. -/
def chargePages (s : State) (a n : Nat) : Option State :=
  let r := min n (s.arena a).resv
  if s.chargeRefused a (n - r) then none
  else some ((s.addCharge a (n - r)).modArena a fun e => { e with resv := e.resv - r })

/-- Frames of HBM (R12). -/
def frameCount : Nat := Config.hbm / 65536
/-- Frame `f` changes hands: no launch's start holds for it any more (R172). -/
def leaveStart (s : State) (f : Nat) : State :=
  { s with tasks := s.tasks.map fun t => { t with startOut := f :: t.startOut } }
/-- Frames of the general pool: the journals of the twelve ground dies, each the top of its own stack, have left it (R167). -/
def poolFrames (s : State) : Nat := frameCount - 12 * s.module.journal / 65536
/-- Frames that hold something: a listed byte or a dirty line. The pool's own are zero-filled (R334). -/
def heldFrames (s : State) : List Nat :=
  let dirty : Map Line → List Nat := fun m => (m.filter fun l => l.2.dirty != 0).map fun l => l.1 / 512
  once (s.mem.map (fun c => c.1 / 65536) ++ dirty s.l2 ++ s.studios.flatMap fun st => dirty st.2.l1)
/-- Frames that the tables from one at a level take and map, as (first, count): each table's own, empty or not, and its leaves';
`fuel` levels are left. -/
def spanFrom (s : State) : (fuel level table : Nat) → List (Nat × Nat)
  | 0, _, _ => []
  | n + 1, lv, table =>
    (table / 65536, 1) :: (s.tableWords table (if lv = 0 then 32 else 512)).flatMap fun ix =>
      let e := s.pte table ix
      if !leafBit e 0 then []
      else if leafBit e 1 then
        (if leafOk e lv then let l : LeafAt := ⟨0, sizeShift (bits e.toNat 11 10), 0, e⟩
                             [(l.first, l.count)] else [])
      else if tableOk e && lv < 4 then s.spanFrom n (lv + 1) (bits e.toNat 51 12 * 4096) else []
/-- Frames that a context's page tables and its table of queue descriptors take, and those that its leaves map. -/
def mappedFrames (s : State) : List (Nat × Nat) :=
  s.ctxs.flatMap fun c => (c.2.qtab.toNat / 65536, (c.2.qtab.toNat % 65536 + 2047) / 65536 + 1) :: s.spanFrom 5 0 c.2.root.toNat
/-- Frames not in the pool: given out, holding something (the supervisor's rings and images among them), mapped, or a context's
tables. -/
def busyFrame (s : State) : Nat → Bool :=
  let held := s.heldFrames
  let mapped := s.mappedFrames
  fun f => Map.getD s.frames f false || held.contains f || mapped.any fun m => m.1 ≤ f && f < m.1 + m.2
/-- Give out `n` frames of the pool from `f`. -/
def giveFrames (s : State) (f n : Nat) : State :=
  (List.range n).foldl (fun s j => { s.leaveStart (f + j) with frames := Map.ins (f + j) true s.frames }) s
/-- The lowest free run of `n` frames aligned to `n` (log 13). -/
def takeFrames (s : State) (n : Nat) : Option (Nat × State) :=
  let busy := s.busyFrame
  (firstFree (fun i => (List.range n).any fun j => busy (i * n + j)) 0 (s.poolFrames / n)).map fun i => (i * n, s.giveFrames (i * n) n)
/-- Monitors armed on L1 lines of frame `f` fire in the studios that hold those lines, as they leave (R182). -/
def fireFrame (s : State) (f : Nat) : State :=
  (s.studios.flatMap fun st => (st.2.l1.filter fun l => l.1 / 512 == f).map fun l => (st.1, l.1)).foldl (fun s x => s.fireIn x.2 x.1) s
/-- A landing in frame `f`. -/
def landsIn (f : Nat) (l : Landing) : Bool := match l.place with | .memory _ _ pa => pa / 65536 == f | .scratch _ _ => false
/-- A pinned line as its frame is zero-filled: it stays in its slice (R163). -/
def zeroedLine (l : Line) : Line := { l with data := List.replicate 128 0, dirty := 0, rcv := false, bad := false }
/-- The pinned lines of frame `f` take what memory holds there. -/
def freshPins (s : State) (f : Nat) : State :=
  { s with l2 := s.l2.map fun l =>
      if l.1 / 512 == f then (l.1, { zeroedLine l.2 with data := s.memLine l.1, bad := Map.getD s.poison l.1 false }) else l }
/-- Undo records of frame `f`, with their dies. -/
def undoOf (s : State) (f : Nat) : List (Nat × Undo) :=
  s.gesso.flatMap fun d => (d.2.undo.filter fun u => u.line / 512 == f).map fun u => (d.1, u)
/-- The undo records of frame `f` go: its lines are no longer what they were recorded for (log 127). -/
def dropUndo (s : State) (f : Nat) : State :=
  { s with gesso := s.gesso.map fun d => (d.1, { d.2 with undo := d.2.undo.filter fun u => u.line / 512 != f }) }
/-- Epoch `e` of a context on a die, as another die numbers it: after the checkpoints that both hold of those before it. -/
def epochAs (g g' : Gesso) (c e : Nat) : Nat :=
  let ns := (g.commits.filter fun k => k.ctx == c).map (·.n)
  (g'.commits.filter fun k => k.ctx == c && (ns.drop (ns.length - e)).contains k.n && !(ns.take (ns.length - e)).contains k.n).length
/-- Undo records follow their lines to frame `g`, to the die that homes each there (log 127). -/
def carryUndo (s : State) (g : Nat) (us : List (Nat × Undo)) : State :=
  us.foldr (fun x s =>
    let ln := 512 * g + x.2.line % 512
    s.modGesso (stackOf (128 * ln)) fun h =>
      { h with undo := { x.2 with line := ln, epoch := epochAs (s.gessoOf x.1) h x.2.ctx x.2.epoch } :: h.undo }) s
/-- Return a frame to the pool, zero-filled (R334): memory and every cached copy, those of fetch and the replicas among them, and its undo
records (R5). -/
def freeFrame (s : State) (f : Nat) : State :=
  let inF : Nat → Bool := fun ln => ln / 512 == f
  let s := (s.fireFrame f).dropUndo f
  { s.leaveStart f with
           frames := Map.del f s.frames, landed := s.landed.filter (fun l => !landsIn f l), mem := s.mem.filter fun c => c.1 / 65536 != f,
           l2 := (s.l2.filter fun l => !inF l.1 || l.2.pin).map (fun l => if inF l.1 then (l.1, zeroedLine l.2) else l),
           replicas := s.replicas.filter (fun l => !inF (l.1 / 64)), poison := s.poison.filter (fun l => !inF l.1),
           studios := s.studios.map fun st => (st.1, { st.2 with l1 := st.2.l1.filter (fun l => !inF l.1), ro := st.2.ro.filter (fun l => !inF l.1),
                                                                 icache := st.2.icache.filter fun l => l.1 / 1024 != f }) }
/-- Zero a frame newly taken: no byte of it is listed (its last return zero-filled it). -/
def zeroFrame (s : State) (f : Nat) : State := { s with mem := s.mem.filter fun c => c.1 / 65536 != f }

/-- What every studio holds of frame `f`, dirty lines and buffered reductions, reaches its home slice. -/
def settleFrame (s : State) (f : Nat) : State :=
  let s := (s.studios.map Prod.fst).foldl (fun s k => s.mergeReds k fun b => b.line / 512 == f) s
  (s.studios.flatMap fun st => (st.2.l1.filter fun l => l.1 / 512 == f).map fun l => (st.1, l.1)).foldl (fun s x => s.wbL1 x.1 x.2) s
/-- A landing in frame `f` follows it to frame `g`. -/
def Landing.follow (f g : Nat) (l : Landing) : Landing :=
  match l.place with
  | .memory k t pa => if pa / 65536 = f then { l with place := .memory k t (g * 65536 + pa % 65536) } else l
  | .scratch _ _ => l
/-- What frame `f` holds, in every cache too, moves to the frame `g` of the pool with its undo records, and `f` returns to it: a page's
frame changes (R154, R301, R303). Pins stay with the physical lines of `f` (R163). -/
def moveFrame (s : State) (f g : Nat) : State :=
  let s := s.settleFrame f
  let s := ((s.l2.map Prod.fst).filter fun ln => ln / 512 == f).foldl (fun s ln => s.wbL2 ln) s
  let bytes := s.mem.filter fun c => c.1 / 65536 == f
  let bad := s.poison.filter fun l => l.1 / 512 == f
  let landed := s.landed.map (Landing.follow f g)
  let us := s.undoOf f
  let s := ((s.freeFrame f).giveFrames g 1).carryUndo g us
  freshPins { s with mem := bytes.foldl (fun m c => Map.put memDefault (g * 65536 + c.1 % 65536) c.2 m) s.mem,
                     poison := bad.foldl (fun m l => Map.ins (g * 512 + l.1 % 512) l.2 m) s.poison, landed := landed } g

/-! ### Views (R355-R357) -/

/-- External writes of R356. -/
def external (s : State) (c v va : Nat) (leaf : BitVec 64) : Bool :=
  v ≠ 0 && (leafKind leaf = 3 || s.sharedWritable c va || (leafBit leaf 7 && (s.view v).use == 1))

/-- Write a leaf where it stands, at its home, at once; TLB copies keep their old fields. -/
def setLeafAt (s : State) (at' : Nat) (v : BitVec 64) : State :=
  s.homeWrite (Tag.own 0) at' (leBytes 8 v.toNat)

/-- Frame `f` takes the bytes of the 512 lines from `src`, as they are read at home; poison stays poison. -/
def copyLines (s : State) (src f : Nat) : State :=
  ((List.range 512).foldl (fun s i =>
    { s with mem := ((s.homeLine (src / 128 + i)).zipIdx).foldl (fun m b => Map.put memDefault (f * 65536 + i * 128 + b.2) b.1 m) s.mem,
             poison := if s.homeBad (src / 128 + i) then Map.ins (f * 512 + i) true s.poison else s.poison }) s).freshPins f
/-- The page at `src` is copied into frame `f` as the view reads it: what the studios hold of it, buffered reductions and dirty lines,
reaches home first, so that an external write made before stands in the copy too, and what Brush commands have landed there stands in it
as soon as it does in the page (R369, R297). -/
def copyPage (s : State) (src f : Nat) : State :=
  let s := ((s.settleFrame (src / 65536)).zeroFrame f).copyLines src f
  { s with landed := s.landed ++ (s.landed.filter (landsIn (src / 65536))).map (Landing.follow (src / 65536) f) }
/-- The overlay leaf of view arena `a` for frame `f`, from the leaf it was copied through (R357). -/
def overlayLeaf (a f : Nat) (leaf : BitVec 64) : BitVec 64 :=
  let l := leaf.toNat
  BitVec.ofNat 64 (a * 2 ^ 52 + f * 65536 + l % 65536 - bits l 11 10 * 1024) &&& ~~~0x20
/-- Install an overlay leaf in view `v`, and set cow at its source (R357). -/
def installOverlay (s : State) (c v va : Nat) (x : Xlat) (leaf : BitVec 64) : State :=
  let (oa, og) := match (if x.tag = 0 then none else Map.find (va / 65536) (s.view x.tag).overlay) with
    | some o => (o.arena, o.gen) | none => (leafArena x.leaf, x.gen)
  let s := s.modView v fun w => { w with overlay := Map.ins (va / 65536) ⟨leaf, oa, og, x.tag⟩ w.overlay, copied := w.copied + 1 }
  if x.tag ≠ 0 then
    s.modView x.tag fun w => { w with overlay := Map.upd (va / 65536) (fun o => { o with leaf := o.leaf ||| 0x20 }) w.overlay }
  else match s.walk (s.ctx c).root.toNat va with
  | some (leaf0, 16, at') => s.setLeafAt at' (leaf0 ||| 0x20)
  | _ => s

/-- First in-view write of a page (R357): charge, copy as the view reads it, install the overlay leaf, set cow at the
source. -/
def copyOnWrite (s : State) (c v va : Nat) (x : Xlat) : Except Raise State :=
  if v = 0 || x.tag = v then .ok s else
  let a := (s.view v).arena
  match s.chargePages a 1 with
  | none => fault fQuota va 0
  | some s =>
    match s.takeFrames 1 with
    | none => fault fQuota va 1
    | some (f, s) => .ok ((s.copyPage (physOf x (va / 65536 * 65536)) f).installOverlay c v va x (overlayLeaf a f x.leaf))

/-! ### The checks of R157 for one lane -/

/-- What an access is: bytes, whether it reads and writes, whether an IO page is accepted, whether an absent page is
absorbed, whether it is checked against regions, whether it fetches, whether it is a deferred kind (no copy on write, R356), whether
its scope has it performed at the home slice (R162). -/
structure Acc where
  n : Nat
  rd : Bool
  wr : Bool
  io : Bool := false
  absorb : Bool := false
  region : Bool := true
  x : Bool := false
  kind : Bool := false
  home : Bool := false
deriving DecidableEq, Repr, Inhabited

/-- Who accesses: studio, context, view, and the cell (for regions). -/
structure Who where
  k : Nat
  ctx : Nat
  view : Nat
  cell : Nat
deriving DecidableEq, Repr, Inhabited
def whoOf (s : State) (c : Nat) : Who := let x := s.cell c; ⟨x.studio, x.ctx, x.view, c⟩

/-- REGION: the table refuses the access (R338). -/
def regionRefused (s : State) (w : Who) (va : Nat) (wr : Bool) : Bool :=
  match s.regionAt w.ctx va with
  | none => false
  | some r => match r.2.mode.toNat with
    | 0 => wr
    | 1 => r.2.task != (s.cell w.cell).tag || r.2.slot != (s.cell w.cell).ptSlot
    | 2 => r.2.task != (s.cell w.cell).tag
    | _ => false

/-- First touch: the page's bit in its arena's charge set is clear (R331); `leaf` is its base leaf, 0 for an overlay's, whose page its
view's arena was charged for. A page of an arena that the supervisor mapped, whatever was listed there before, is listed at its first
touch, unless its leaf has gone since the translation was made. -/
def firstTouch (s : State) (c va : Nat) (leaf : BitVec 64) : Option Page :=
  if leafArena leaf = 0 then none else
  match (s.pageOf c va).filter (·.arena == leafArena leaf) with
  | some p => if p.charged then none else some p
  | none =>
    match s.walk (s.ctx c).root.toNat va with
    | some (now, _, _) => if leafArena now = leafArena leaf then some ⟨leafArena leaf, (s.arena (leafArena leaf)).gen, false, false⟩ else none
    | none => none
/-- Undefined bytes in a frame: the contents of per-thread memory at cell creation (R166, R4). -/
def fillBytes (f n : Nat) (m : List Host.Cell) : List Host.Cell :=
  (List.range 65536).foldl (fun m i => Map.put memDefault (65536 * f + i) (Config.free8 (n + i)) m) m
def freeFill (s : State) (f : Nat) : State :=
  let n := s.fresh
  let s := s.freeFrame f
  freshPins { s with mem := fillBytes f n s.mem, frames := Map.ins f true s.frames, fresh := n + 65536 } f
def chargeTouch (s : State) (c va : Nat) (leaf : BitVec 64) : Option State :=
  match s.firstTouch c va leaf with
  | none => some s
  | some p => (s.chargePages p.arena 1).map fun s =>
      let s := { s with pages := Map.ins (pageKey c va) { p with charged := true } s.pages }
      if !(s.arena p.arena).pt then s else
      match s.walk (s.ctx c).root.toNat (va % 2 ^ 57) with
      | some (leaf, _, _) => s.freeFill (leafFrame leaf)
      | none => s

/-- The page belongs to an arena that has been dropped; `a` is the arena of its leaf, 0 where it has none. -/
def pageDead (s : State) (w : Who) (va a : Nat) : Bool :=
  match s.pageOf w.ctx va with | some p => p.dead && (a == 0 || a == p.arena) | none => false
/-- A unit that the access passes holds its generation as stale (R333): the studio; the die's TLB, where the studio's has no entry for
it; the home slice, where the studio's L1 does not serve it. -/
def staleFor (s : State) (w : Who) (a : Acc) (va : Nat) (x : Xlat) : Bool :=
  let ar := BitVec.ofNat 12 (leafArena x.leaf)
  let pa := physOf x va
  s.staleAt w.k ar x.gen
  || (x.tag == 0 && (tlbFind (s.studio w.k).tlb w.ctx w.view va).isNone && s.staleAt (unitDie (dieOf w.k)) ar x.gen)
  || ((a.home || (s.l1Live w.k (pa / 128)).isNone) && s.staleAt (unitSlice (s.homeSlice pa)) ar x.gen)
/-- The access writes a recoverable page as it is performed: its line needs an undo record (R167). A write that its view defers or does
not perform needs none. -/
def journals (s : State) (w : Who) (a : Acc) (va : Nat) (x : Xlat) : Bool :=
  a.wr && leafBit x.leaf 7 && (w.view = 0 || (s.view w.view).use == 1 || !(a.kind || s.external w.ctx w.view va x.leaf))
/-- The first of the checks of R157 that a translated access fails, in the order the rule gives, after ALIGN and a failed
walk; a migrating page holds it (R158), and so does a full journal that the write needs (R167). -/
def accessFault (s : State) (w : Who) (a : Acc) (va : Nat) (x : Xlat) : Option Raise :=
  let no : BitVec 8 → Nat → Option Raise := fun code sub => some { code := code, addr := BitVec.ofNat 64 va, sub := BitVec.ofNat 4 sub }
  let ar := BitVec.ofNat 12 (leafArena x.leaf)
  if leafKind x.leaf = 3 && !a.io then no fProt 3
  else if leafRes x.leaf = 0 && !s.targetOk (physOf x va) then no fProt 2
  else if isRegWindow (physOf x va) && leafKind x.leaf ≠ 3 then no fProt 2
  else if (a.rd && !leafBit x.leaf 2) || (a.wr && !leafBit x.leaf 3) || (a.x && !leafBit x.leaf 4) then no fProt 0
  else if a.region && s.regionRefused w va a.wr then no fRegion 0
  else if s.staleFor w a va x || (ar ≠ 0 && x.tag = 0 && s.pageDead w va ar.toNat) then no fArenaDead 0
  else if a.wr && ar ≠ 0 && s.unitSeal w.k ar.toNat && s.unitGen w.k ar.toNat == x.gen then no fArenaSealed 0
  else if leafRes x.leaf = 1 then some { code := 0, hold := true }
  else if leafRes x.leaf = 2 && !a.absorb then no fPageAbsent 0
  else if s.journals w a va x && s.undoWaits w.ctx (physOf x va) then some { code := 0, hold := true }
  else none
/-- The page a first touch charges is of an arena whose generation has moved on. -/
def touchDead (s : State) (w : Who) (va : Nat) (x : Xlat) : Bool :=
  match s.firstTouch w.ctx va x.baseLeaf with | some p => p.gen != (s.arena p.arena).gen | none => false
/-- The access makes a page copy in its view first (R357). -/
def needsCopy (s : State) (w : Who) (a : Acc) (va : Nat) (x : Xlat) : Bool :=
  a.wr && !a.kind && w.view ≠ 0 && !s.external w.ctx w.view va x.leaf
/-- The translation after the view's copy. -/
def xlatAfterCopy (s : State) (w : Who) (va : Nat) (x : Xlat) : Xlat :=
  match s.overlayFor w.ctx w.view va with
  | some (u, o) => ⟨o.leaf, 16, (s.arena (leafArena o.leaf)).gen, u, 0⟩
  | none => x
/-- The first touch of a page (R331), the copy on write (R357) and the undo record (R167) of an access that passed its checks. -/
def touch (s : State) (w : Who) (a : Acc) (va : Nat) (x : Xlat) : Except Raise (State × Option Xlat) :=
  if s.touchDead w va x then fault fArenaDead va else
  match s.chargeTouch w.ctx va x.baseLeaf with
  | none => fault fQuota va
  | some s =>
    if s.needsCopy w a va x then
      match s.copyOnWrite w.ctx w.view va x with
      | .error e => .error e
      | .ok s => .ok (s, some (s.xlatAfterCopy w va x))
    else .ok (if s.journals w a va x then s.recordUndo w.ctx (physOf x va / 128) else s, some x)
/-- A walk that finds no leaf: MEM_UNCORR where a table's line is poison, else PROT sub-cause 1, or ARENA_DEAD where the page was a
dropped arena's. -/
def walkFault (s : State) (w : Who) (va : Nat) : Raise :=
  match s.walkPoison (s.ctx w.ctx).root.toNat (walkLevels va) with
  | some pa => { code := fMemUncorr, addr := BitVec.ofNat 64 pa }
  | none => if s.pageDead w va 0 then { code := fArenaDead, addr := BitVec.ofNat 64 va } else { code := fProt, addr := BitVec.ofNat 64 va, sub := 1 }
/-- Checks 1-7 of R157 for one lane at a global address; the answer holds the translation, none for an absent page that is
absorbed. A migrating page holds the access (R158). -/
def checkOne (s : State) (w : Who) (a : Acc) (va : Nat) : Except Raise (State × Option Xlat) :=
  if va % a.n ≠ 0 then fault fAlign va else
  match s.translate w.k w.ctx w.view va with
  | (s, none) => .error (s.walkFault w va)
  | (s, some x) =>
    match s.accessFault w a va x with
    | some r => .error r
    | none => if leafRes x.leaf = 2 then .ok (s, none) else s.touch w a va x

/-- The tag and placement of an access through a translation (R155, R66 hints 3 and 4). -/
def tagOf (w : Who) (x : Xlat) (hint : Nat) : Tag :=
  let k := leafKind x.leaf
  let c := leafCache x.leaf
  { ctx := w.ctx, arena := BitVec.ofNat 12 (leafArena x.leaf), gen := x.gen, view := BitVec.ofNat 6 x.tag, rcv := leafBit x.leaf 7,
    l1 := (k == 1 || k == 2) && c == 0 && hint != 3 && hint != 4,
    l2 := k != 3 && c != 2 && hint != 4,
    rank := if hint = 1 then 0 else if hint = 2 then 2 else 1, direct := k == 0 || k == 3, io := k == 3, cell := some w.cell }

/-! ### Performing reads and writes -/

/-- A sealed arena whose seal is complete: its lines may be replicated (R336). -/
def replicable (s : State) (t : Tag) : Bool :=
  let a := t.arena.toNat
  a ≠ 0 && (s.arena a).state == 2 && (s.arena a).gen == t.gen && !s.sealbs.any fun w => w.arena == a
/-- Replica of a line in the slice 16d + (h mod 16) of the studio's die, keyed by line and slice. -/
def replicaKey (_s : State) (k ln : Nat) : Nat := 64 * ln + 16 * dieOf k + lineHash (128 * ln) % 16
/-- The live replica that serves a load of a sealed line, in the life of its arena that the load goes by. -/
def replica (s : State) (k : Nat) (t : Tag) (ln : Nat) : Option Line :=
  if !s.replicable t then none else
  match Map.find (s.replicaKey k ln) s.replicas with
  | some l => if l.arena != t.arena || l.gen != t.gen || s.staleAt (unitSlice (s.replicaKey k ln % 64)) l.arena l.gen then none else some l
  | none => none

/-- Fill a replica, where the slice is not the line's home, which holds it itself (R15); a set whose 16 ways are all pinned takes none
(R163). The model looks at no slice mask here (DESIGN CHOICE, log 126). -/
def addReplica (s : State) (k : Nat) (ln : Nat) (l : Line) : State :=
  let key := s.replicaKey k ln
  if key % 64 == s.homeSlice (128 * ln) || s.waysPinned (key % 64) ln then s else
  let s := s.roomL2 (key % 64) ln
  { s with replicas := Map.ins key l s.replicas }
/-- Fill a line into the studio's L1 (R155). -/
def fillL1 (s : State) (k : Nat) (t : Tag) (ln : Nat) (data : List (BitVec 8)) : State :=
  (s.roomL1 k ln).setL1 k ln (t.line data)
/-- The fills a read of a line makes: a replica, the L2 where no replica served it, the studio's L1 (R155, R336). -/
def readFill (s : State) (k : Nat) (t : Tag) (ln : Nat) (data : List (BitVec 8)) (rep served l1 : Bool) : State :=
  let s := if rep then s.addReplica k ln (t.line data) else s
  let s := if served then s else s.fillL2 t ln
  if l1 then s.fillL1 k t ln data else s
/-- The studio's copy of a line takes what its home holds: after an access that passed it by (R283). -/
def refreshL1 (s : State) (k ln : Nat) : State :=
  match s.l1Live k ln with
  | some l => s.setL1 k ln { l with data := s.homeLine ln, bad := s.homeBad ln }
  | none => s
/-- Read `n` bytes within one line, in the issuing studio's L1 under R155, or at home; poison is told. A read that passes L1 by finds
the studio's own dirty bytes at home, and leaves no older copy behind (R283). A read the L1 might have served is an L1 miss, once for a
request (R156, R313). -/
def readAt (s : State) (k : Nat) (t : Tag) (atHome : Bool) (pa n : Nat) : State × List (BitVec 8) × Bool :=
  let ln := pa / 128
  match (if atHome || !t.l1 then none else s.l1Live k ln) with
  | some l => (s, (List.range n).map (fun i => lineByte l (pa % 128 + i)), l.bad)
  | none =>
    let s := if atHome || !t.l1 || t.again then s else s.perf k t.ctx 5
    let s := (s.wbL1 k ln).mergeLine ln
    let s := if t.direct then s.meetTarget ln t.io else s
    let rep := s.replica k t ln
    let bad := rep.isNone && s.homeBad ln
    let data := match rep with | some l => l.data | none => s.homeLine ln
    let s := if bad then s.bypass t ln else s.readFill k t ln data (t.l2 && s.replicable t && rep.isNone) rep.isSome (t.l1 && !atHome)
    ((if atHome || !t.l1 then s.refreshL1 k ln else s), (List.range n).map (fun i => data.getD (pa % 128 + i) 0), bad)

/-- Write bytes within one line: in L1 (dirty) under R155, where a miss fills the line first, or through to the home slice. The line
that is filled from poison stays poison until it is written whole (R439). -/
def writeAt (s : State) (k : Nat) (t : Tag) (atHome : Bool) (pa : Nat) (bs : List (BitVec 8)) : State :=
  let ln := pa / 128
  let s := s.fireIn ln k
  let o := pa % 128
  let upd : List (BitVec 8) → List (BitVec 8) := fun d => d.zipIdx.map fun b => if o ≤ b.2 ∧ b.2 < o + bs.length then bs.getD (b.2 - o) 0 else b.1
  let mark := BitVec.ofNat 128 ((2 ^ bs.length - 1) * 2 ^ o)
  if t.l1 && !atHome then
    let s := if t.rcv then s.recordUndo t.ctx ln else s
    let s := match s.l1Live k ln with
      | some _ => s
      | none => let s := (if t.again then s else s.perf k t.ctx 5).mergeLine ln
                let bad := s.homeBad ln
                let s := s.readFill k t ln (s.homeLine ln) false false true
                s.modStudio k fun st => { st with l1 := Map.upd ln (fun l => { l with bad := bad }) st.l1 }
    match s.l1Live k ln with
    | some l =>
      let dirty := l.dirty ||| mark
      s.setL1 k ln { l with data := upd l.data, dirty := dirty, rcv := l.rcv || t.rcv, bad := l.bad && dirty != BitVec.allOnes 128 }
    | none => s
  else
    let s := ((s.wbL1 k ln).mergeLine ln).homeWrite t pa bs (some k)
    (if t.direct then s.sendTarget ln t.io else s).refreshL1 k ln
/-- Write at home what was just read there changed. Host and peer memory take the result at once, as a PCIe write (R296). -/
def storeHome (s : State) (k : Nat) (t : Tag) (pa : Nat) (bs : List (BitVec 8)) : State :=
  let s := (s.fireIn (pa / 128) k).homeStore t pa bs (some k)
  (s.sendTarget (pa / 128) t.io).refreshL1 k (pa / 128)
/-- Bytes in place of some, of each of which `keep` stays. -/
def keepBits (keep : BitVec 8) (old new : List (BitVec 8)) : List (BitVec 8) :=
  new.zipIdx.map fun b => (old.getD b.2 0 &&& keep) ||| (b.1 &&& ~~~keep)
/-- The bytes of a landing take their places (R297). Those of an arena dropped since are discarded. -/
def landNow (s : State) (l : Landing) : State :=
  match l.place with
  | .scratch n off => s.modCell n fun c => { c with scratch := Map.setBytes c.scratch off (keepBits l.keep (Map.bytes c.scratch off l.bytes.length) l.bytes) }
  | .memory k t pa =>
    if t.arena != 0 && ((s.arena t.arena.toNat).gen != t.gen || (s.arena t.arena.toNat).state == 3) then s else
    let s := s.wbL1 k (pa / 128)
    let bs := keepBits l.keep (s.homeBytes pa l.bytes.length) l.bytes
    (((s.undoFirst t (pa / 128)).mergeHome (pa / 128) (storeLine t pa bs)).sendTarget (pa / 128) t.io).refreshL1 k (pa / 128)
/-- What Brush commands have landed is read from now on as it is (R297): a wait ends, or an agent acquires. -/
def settleLanded (s : State) : State := s.landed.foldl landNow { s with landed := [] }
/-- Read a value at home and write another in its place, as one change (R175): the old bytes, and whether they are poison, which then
stays. Host and peer memory is read at its target (R296). -/
def rmwAt (s : State) (k : Nat) (t : Tag) (pa n : Nat) (f : List (BitVec 8) → List (BitVec 8)) : State × List (BitVec 8) × Bool :=
  let (s, bs, bad) := s.readAt k { t with direct := true } true pa n
  if bad then (s, bs, true) else (s.storeHome k t pa (f bs), bs, false)

/-! ### Acquire and release actions (R162) -/

def inRanges (rs : List (Nat × Nat)) (va : Nat) : Bool := rs.any fun r => r.1 ≤ va && va < r.1 + r.2 * 128
/-- Which L1 lines of studio `k` an action covers: every line, or the lines of bound ranges (by physical line). -/
def l1Covered (s : State) (k : Nat) (only : Option (List Nat)) : List Nat :=
  ((s.studio k).l1.map Prod.fst).filter fun ln => match only with | none => true | some l => l.contains ln
/-- Write back the covered dirty lines. -/
def releaseL1 (s : State) (k : Nat) (only : Option (List Nat)) : State := (s.l1Covered k only).foldl (fun s ln => s.wbL1 k ln) s
/-- A unit takes the present generation of arena `a`, its seal bit cleared, where its vector is behind (R333). -/
def learnDrop (s : State) (u a : Nat) : State :=
  if s.unitGen u a = (s.arena a).gen then s else
  let x := Map.getD s.units u default
  { s with units := Map.ins u { x with gen := Map.put 0 a (s.arena a).gen x.gen, seals := Map.put false a false x.seals } s.units }
/-- A studio that acquires knows of every drop point that happened before: it holds the generations of the arena table, so that
accesses after the acquire raise ARENA_DEAD (R300). -/
def learnDrops (s : State) (k : Nat) : State := s.sweeps.foldl (fun s w => s.learnDrop k w.arena) s
/-- Write back, then invalidate, the covered lines. Replicas are exempt (R336). -/
def acquireL1 (s : State) (k : Nat) (only : Option (List Nat)) : State :=
  (s.l1Covered k only).foldl (fun s ln => (s.wbL1 k ln).dropL1 k ln) (s.learnDrops k)
/-- Host and peer lines of L2 that an action covers: every one, or those of bound ranges (by physical line). -/
def farLines (s : State) (only : Option (List Nat)) : List Nat :=
  (s.l2.map Prod.fst).filter fun ln => 2 ^ 48 ≤ 128 * ln && match only with | none => true | some l => l.contains ln
/-- Their dirty bytes are sent to their targets (R162). -/
def releaseSys (s : State) (only : Option (List Nat)) : State := (s.farLines only).foldl (fun s ln => s.wbL2 ln) s
/-- L2 copies of host and peer lines are invalidated (R162), of a bound variable those in its guarded ranges (R183). A pinned line
leaves only by the ways of R163: it stays pinned and takes what its target holds (log 80). -/
def acquireSys (s : State) (only : Option (List Nat)) : State :=
  (s.farLines only).foldl (fun s ln =>
    let s := s.meetTarget ln
    if ((Map.find ln s.l2).getD default).pin then s else { s with l2 := Map.del ln s.l2 }) s

/-- Scopes at or wider than die (R162). -/
def wide : Scope → Bool | .die | .dev | .sys | .rcv | .auto => true | _ => false
/-- The physical line of a virtual address in a view: its overlay copy, or the base page. -/
def lineIn (s : State) (c v va : Nat) : Option Nat :=
  match s.overlayFor c v va with
  | some (u, o) => some (physOf ⟨o.leaf, 16, 0, u, 0⟩ va / 128)
  | none => (s.walk (s.ctx c).root.toNat va).map fun x => physOf ⟨x.1, x.2.1, 0, 0, 0⟩ va / 128
/-- Physical lines, of those that the studio's L1 holds and the host and peer lines of L2, in the guarded ranges of a bound variable (R183),
as the accessing view maps them (R355). -/
def guardLines (s : State) (w : Who) (e : SvEntry) : List Nat :=
  (s.l1Covered w.k none ++ s.farLines none).filter fun ln => e.ranges.any fun r =>
    (List.range r.2).any fun i => s.lineIn w.ctx w.view (r.1 + 128 * i) == some ln
/-- Die of a line's home slice. -/
def svDie (s : State) (pa : Nat) : Nat := s.homeSlice pa / 16
def svOf (s : State) (c pa : Nat) : Option SvEntry := (Map.getD s.svs (s.svDie pa) []).find? fun e => e.ctx == c && e.var == pa / 16 * 16

/-- The earlier participants of a bound variable write their guarded lines back (R293). -/
def widenRelease (s : State) (w : Who) (e : SvEntry) : State :=
  ((List.range 192).filter fun k => e.part.getLsbD k).foldl (fun s k => s.releaseL1 k (some (s.guardLines { w with k := k } e))) s
/-- Replace an entry of a die's synchronisation variable table. -/
def setSv (s : State) (d : Nat) (e e' : SvEntry) : State :=
  { s with svs := Map.ins d ((Map.getD s.svs d []).map fun x => if x == e then e' else x) s.svs }
/-- The inferred scope of an `.auto` access (R293): records the participant, makes earlier participants write back when the
instance widens, and gives the scope whose actions follow. 1 studio, 3 die, 4 dev, 5 sys. -/
def inferScope (s : State) (w : Who) (pa : Nat) : State × Nat :=
  match s.svOf w.ctx pa with
  | none => (s, 5)
  | some e =>
    let part := setBit e.part w.k true
    let ks := (List.range 192).filter fun k => part.getLsbD k
    let sc := if e.remote then 5 else if ks.all (· == w.k) then 1 else if ks.all (fun k => dieOf k == dieOf w.k) then 3 else 4
    let s := if !e.part.getLsbD w.k && decide (e.scope.toNat < sc) then s.widenRelease w e else s
    (s.setSv (s.svDie pa) e { e with part := part, scope := BitVec.ofNat 3 sc }, sc)
/-- An access from another module to a bound variable: its entry holds a remote participant from then on, and the participants of
this module write back first (R293). -/
def remoteScope (s : State) (pa : Nat) : State :=
  (Map.getD s.svs (s.svDie pa) []).foldl (fun s e =>
    if e.var ≠ pa / 16 * 16 || e.remote then s
    else (s.widenRelease ⟨0, e.ctx, 0, 0⟩ e).setSv (s.svDie pa) e { e with remote := true, scope := 5 }) s

end State
end Sys2Proof.Machine
end

