-- ==== Sys2Proof/Machine/Operands.lean ====
section
/-! DEFINITION. Operands: which registers an instruction names (R37, R73), how sources are read and destinations written by
type (R103, R104, R108, R109, R187), and the sets of active lanes (R6, R64). -/
namespace Sys2Proof.Machine
open State

/-- Registers, predicates and queue pops an instruction names: reads with their mode (true for trap mode), destinations,
predicates read, predicates written, pops per queue. -/
structure Uses where
  rd : List (Reg × Bool) := []
  wr : List Reg := []
  prd : List Nat := []
  pwr : List Nat := []
  pops : List (Nat × Nat) := []
deriving DecidableEq, Repr, Inhabited

def srcRegs (x : Src) (w : Nat) : List (Reg × Bool) :=
  match x with
  | .v i tr => if w = 64 then [(.v i.toNat, tr), (.v (i.toNat + 1), tr)] else [(.v i.toNat, tr)]
  | .g i tr => [(.g i.toNat, tr)]
  | _ => []
def dstRegs (x : Dst) (w : Nat) : List Reg :=
  match x with
  | .v i => if w = 64 then [.v i.toNat, .v (i.toNat + 1)] else [.v i.toNat]
  | .g i => [.g i.toNat]
  | .t _ => []
def vRange (i n : Nat) : List Reg := (List.range n).map fun j => .v (i + j)
def blockRead (l : List Reg) : List (Reg × Bool) := l.map fun r => (r, false)
def srcPops : Src → List (Nat × Nat) | .q i => [(i.toNat, 1)] | _ => []
def nz (p : Nat) : List Nat := if p = 0 then [] else [p]

/-- Widths at which the A-family fields d, a, b, c are read and written (64 names a pair). -/
def aWidths (major : Nat) (o : AOp) : Nat × Nat × Nat × Nat :=
  let w := o.ty.width
  match major with
  | 0x11 => (w, w, 8, w)
  | 0x12 => (w, w, 32, w)
  | 0x13 => (w, w, w, 32)
  | 0x17 => (w, (o.stype major).width, w, w)
  | 0x1A => (64, 64, 32, 32)
  | 0x29 => (64, w, 8, 8)
  | 0x42 | 0x4B => (w, (o.stype major).width, w, w)
  | 0x62 => (w, w, 32, 32)
  | 0x64 => (w, w, 8, 8)
  | 0x67 => (32, w, w, w)
  | 0xC3 => (w, 32, 32, 32)
  | _ => (w, w, w, w)

/-- Modifier predicates of an A-family instruction: read, written (R110, R206, R342). -/
def aPreds (major : Nat) (o : AOp) : List Nat × List Nat :=
  let m := o.m.toNat
  let f := fun h l => nz (bits m h l)
  if major = 3 ∨ major = 4 then (if bits m 16 16 = 1 then f 11 8 else [], f 15 12)
  else if major = 0x15 then (f 11 8, [])
  else if major = 0x16 then ([], f 15 12)
  else if 0x20 ≤ major ∧ major ≤ 0x22 then (f 11 8 ++ f 7 4, f 15 12)
  else if major = 0x23 ∨ major = 0x24 ∨ major = 0x27 ∨ major = 0x28 then (f 11 8, f 15 12)
  else if major = 0x25 ∨ major = 0x26 then (f 11 8, [])
  else if major = 0x2A then ([], f 15 12)
  else if major = 0x36 ∨ major = 0x4A ∨ major = 0x43 ∨ major = 0x45 then ([], f 31 28)
  else if 0xB0 ≤ major ∧ major ≤ 0xBD then ([], if bits m 27 27 = 1 then f 31 28 else [])
  else ([], [])

def aUsesOf (major : Nat) (o : AOp) : Uses :=
  let (ud, ua, ub, uc) := aUses major o
  let (wd, wa, wb, wc) := aWidths major o
  let (pr, pw) := aPreds major o
  let sreg := bits o.m.toNat 25 18
  let st := o.stype major
  let rdA := match major with
    | 0x43 | 0x45 => (vRange o.a.vIdx (rangeLen o.ty st)).map fun r => (r, match o.a with | .v _ t => t | _ => false)
    | _ => if ua then srcRegs o.a wa else []
  let extra := match major with
    | 0x43 | 0x44 => [(Reg.v sreg, false)]
    | 0x45 => blockRead (dstRegs o.d 32)
    | _ => []
  let wr := match major with
    | 0x44 => vRange o.d.vIdx (rangeLen st o.ty)
    | 0x43 | 0x45 => dstRegs o.d 32
    | _ => if ud then dstRegs o.d wd else []
  { rd := rdA ++ (if ub then srcRegs o.b wb else []) ++ (if uc then srcRegs o.c wc else []) ++ extra, wr := wr,
    prd := pr ++ nz o.gd.p.toNat, pwr := pw,
    pops := if major = 0xC3 then (match o.a with | .q i => [(i.toNat, if o.variant = 1 then o.m.toNat else if o.ty = .n64 then 2 else 1)] | _ => [])
            else (if ua then srcPops o.a else []) ++ (if ub then srcPops o.b else []) ++ (if uc then srcPops o.c else []) }

def gReg (i : BitVec 7) : List (Reg × Bool) := [(.g i.toNat, false)]

def mUsesOf (major : Nat) (o : MOp) : Uses :=
  let w := o.ty.width
  let addr := if major = 0x90 ∨ major = 0x91 ∨ major = 0x93 then []   -- no address: the fields are reserved (R73, R169)
              else srcRegs o.index 32 ++ (match o.base with | some b => gReg b | none => [])
  let dr := dstRegs o.data w
  let pair := match o.data with | .g i => [Reg.g i.toNat, .g (i.toNat + 1)] | _ => []
  let pw := nz o.res.toNat
  let base : Uses := { rd := addr, prd := nz o.gd.p.toNat, pwr := pw, pops := srcPops o.index }
  match major with
  | 0x80 | 0x82 | 0x83 | 0x85 => { base with wr := dr }
  | 0x81 | 0x84 | 0x86 | 0x88 => { base with rd := addr ++ blockRead dr }
  | 0x87 => let n := (if w = 64 then 2 else 1) * (if o.variant.toNat = 7 then 2 else 1)
            { base with rd := addr ++ blockRead (vRange o.data.vIdx n), wr := dr }
  | 0x94 => { base with rd := addr ++ blockRead pair }
  | 0xA5 | 0xA6 | 0xA7 | 0xA8 => { base with rd := addr ++ blockRead (dstRegs o.data 64) }
  | 0xA9 => { base with wr := dstRegs o.data 64 }
  | 0xC4 => if o.variant = 0 then { base with rd := addr ++ blockRead pair } else base
  | 0xC5 | 0xC6 => { base with rd := addr ++ blockRead (dstRegs o.data 64) }
  | _ => base

def bUsesOf (major : Nat) (o : BOp) : Uses :=
  let base : Uses := { prd := nz o.gd.p.toNat }
  match major with
  | 0xD2 | 0xD5 => { base with rd := srcRegs o.a 64 }
  | 0xD3 => { base with wr := dstRegs o.link 64 }
  | 0xD4 => { base with rd := srcRegs o.a 64, wr := dstRegs o.link 64 }
  | _ => base

def xUsesOf (major : Nat) (o : XOp) : Uses :=
  let base : Uses := { prd := nz o.gd.p.toNat }
  let r := gReg o.record
  match major with
  | 0x74 => { base with rd := r ++ srcRegs o.coord 32 }
  | 0x75 | 0x7B | 0x7C | 0x7D | 0x7F | 0xA4 => { base with rd := r }
  | 0x78 => { base with wr := vRange o.dest.vIdx (if o.sub = 0 then 16 else 4) }
  | 0x79 => { base with rd := (vRange o.coord.vIdx 16).map fun r => (r, match o.coord with | .v _ t => t | _ => false) }
  | 0xA3 => { base with pwr := nz o.imm.toNat }
  | 0xC0 => { base with rd := r, wr := dstRegs o.dest 64 }
  | 0xC1 => { base with rd := r ++ (if o.sub = 0 then srcRegs o.coord 64 else []) }
  | 0xC2 => { base with rd := r, wr := match o.dest with | .g i => [.g i.toNat, .g (i.toNat + 1)] | _ => [] }
  | 0xC7 => { base with rd := r ++ srcRegs o.coord 64, wr := dstRegs o.dest 64 }
  | 0xC8 | 0xC9 => { base with rd := r ++ srcRegs o.coord 32 ++ (if 2 ≤ o.report.toNat then blockRead (dstRegs o.dest 64) else []) }
  | 0xCA | 0xCB => { base with rd := r ++ (if 2 ≤ o.report.toNat then blockRead (dstRegs o.dest 64) else []) }
  | _ => base

def sUsesOf (major : Nat) (o : SOp) : Uses :=
  let base : Uses := { prd := nz o.gd.p.toNat }
  let pair := match o.a with | .g i t => [(Reg.g i.toNat, t), (.g (i.toNat + 1), t)] | _ => []
  match major with
  | 0xAB | 0xE2 | 0xEA => { base with wr := dstRegs o.dest 64 }
  | 0xE3 | 0xE7 | 0xE9 => { base with rd := srcRegs o.a 64 }
  | 0xE4 | 0xE5 => { base with rd := srcRegs o.a 64, wr := dstRegs o.dest 64 }
  | 0xE6 => { base with rd := pair, wr := dstRegs o.dest 64 }
  | 0xE8 => { base with rd := pair }
  | _ => base

def Raw.uses : Raw → Uses
  | .a k o => aUsesOf k o | .m k o => mUsesOf k o | .b k o => bUsesOf k o | .x k o => xUsesOf k o | .s k o => sUsesOf k o
/-- What an instruction names (R39); nothing for an event, and for `nop` its guard only (log 81). -/
def usesOf (i : Instr) : Uses :=
  match i with
  | .nop o => { prd := nz o.gd.p.toNat }
  | i => match i.raw with | some r => Raw.uses r | none => {}
/-- The `n` registers from a coordinate operand up, one for each dimension of the layout record (R402, R412). -/
def coordRegs (x : Src) (n : Nat) : List (Reg × Bool) :=
  match x with
  | .v i tr => ((List.range n).filter fun j => i.toNat + j < 256).map fun j => (Reg.v (i.toNat + j), tr)
  | _ => []
/-- What the eligibility tests of R37 look at: `nop` takes no part (R79); a `bcopy` or `bstore` reads `n` coordinate registers. -/
def dispatchUses (n : Nat) (i : Instr) : Uses :=
  match i with
  | .nop _ => {}
  | .bcopy o => { usesOf i with rd := (usesOf i).rd ++ coordRegs o.coord n }
  | .bstore o => { usesOf i with rd := (usesOf i).rd ++ coordRegs o.coord n }
  | i => usesOf i

/-- Guard of an instruction. -/
def guardOf (i : Instr) : Guard :=
  match i.raw with
  | some (.a _ o) => o.gd | some (.m _ o) => o.gd | some (.b _ o) => o.gd | some (.x _ o) => o.gd | some (.s _ o) => o.gd
  | none => ⟨0, false⟩

/-- Highest v index named, plus one (R74). -/
def vTop (u : Uses) : Nat :=
  (u.rd.map Prod.fst ++ u.wr).foldl (fun m r => match r with | .v i => max m (i + 1) | .g _ => m) 0

namespace State

/-- The entry whose run is in flight (R32): at the run's first PC, of the run's kind, not waiting. -/
def entry (s : State) : Entry :=
  (s.cg.entries.find? fun e => e.pc == s.crun.start && e.handler == s.crun.handler && e.st == .no).getD default
/-- Guard bit of a lane (R64). -/
def guardBit (s : State) (g : Guard) (p : Nat) : Bool :=
  (match s.cc.clAt s.cur.grp p with | some cl => s.cc.pred cl g.p.toNat | none => false) != g.neg
/-- Active(): positions of the issuing entry whose guard passes, increasing (R6; log 16). -/
def active (s : State) (g : Guard) : List Nat := (positions s.entry.mask).filter (s.guardBit g)
/-- Position a uniform operand is read at (R104). -/
def uniPos (s : State) (g : Guard) : Nat := ((s.active g).head?.getD ((positions s.entry.mask).head?.getD 0))
/-- Original lane number at a position of the acting group. -/
def clOf (s : State) (p : Nat) : Nat := (s.cc.clAt s.cur.grp p).getD 0

/-- A special register's value in a lane (R26, R72). -/
def special (s : State) (r : Special) (p : Nat) : BitVec 64 :=
  let c := s.cc
  match r with
  | .lane => BitVec.ofNat 64 (s.clOf p % 32)
  | .vlane => BitVec.ofNat 64 p
  | .group => BitVec.ofNat 64 (s.clOf p / 32)
  | .cellx => c.x.setWidth 64
  | .celly => c.y.setWidth 64
  | .cellz => c.z.setWidth 64
  | .stage => BitVec.ofNat 64 c.stage
  | .nstage => BitVec.ofNat 64 c.nstage
  | .world => c.world.setWidth 64
  | .ncellres => BitVec.ofNat 64 (s.crun.nres % 4096)
  | .clk => (s.studio s.ck).clk

/-- The v register of the lane at a position; 0 where none stands (R129, R228). -/
def vAt (s : State) (p i : Nat) : BitVec 32 := match s.cc.clAt s.cur.grp p with | some cl => s.cc.vreg cl i | none => 0

/-- The low `w` bits a source reads in the lane at position `p` (R104, R108); `fld` is the field's number for queue pops. A popped entry
has 32 bits: read under a 64-bit type its upper half is zero (log 82). -/
def src (s : State) (fld : Nat) (x : Src) (w p : Nat) : Nat :=
  (match x with
   | .v i _ => if w = 64 then (s.vAt p (i.toNat + 1)).toNat * 2 ^ 32 + (s.vAt p i.toNat).toNat else (s.vAt p i.toNat).toNat
   | .g i _ => (s.cg.greg i.toNat).toNat
   | .sp r => (s.special r p).toNat
   | .t i => (Map.getD s.crun.temps (8 * p + i.toNat) 0).toNat
   | .q _ => ((Map.getD s.crun.popped fld []).getD p 0).toNat
   | .imm b => if b.toNat < 128 then b.toNat else 2 ^ 64 - 256 + b.toNat) % 2 ^ w

/-- The value of a type's pattern (R108). -/
def tyVal (t : Ty) (u : Nat) : Int := if t.signed then sext t.width u else (u % 2 ^ t.width : Nat)
/-- Read(x, T, l) of R108. -/
def read (s : State) (fld : Nat) (x : Src) (t : Ty) (p : Nat) : Int := tyVal t (s.src fld x t.width p)
/-- A g register read whole. -/
def gval (s : State) (i : BitVec 7) : BitVec 64 := s.cg.greg i.toNat
def gsrc (s : State) : Src → BitVec 64 | .g i _ => s.cg.greg i.toNat | _ => 0
def gdst (s : State) : Dst → BitVec 64 | .g i => s.cg.greg i.toNat | _ => 0

/-- Extend(T, u, n) of R108. -/
def extend (t : Ty) (u n : Nat) : Nat :=
  let w := t.width
  let u := u % 2 ^ w
  if t.signed && n > w && u ≥ 2 ^ (w - 1) then 2 ^ n - 2 ^ w + u else u

/-- Write(d, T, x, l) of R108 in the lane at position `p`; `u` is the pattern. -/
def write (s : State) (d : Dst) (t : Ty) (u p : Nat) : State :=
  let w := t.width
  let u := u % 2 ^ w
  match d with
  | .v i =>
    match s.cc.clAt s.cur.grp p with
    | none => s
    | some cl =>
      if w = 64 then s.modCc fun c => (c.setV cl i.toNat (BitVec.ofNat 32 u)).setV cl (i.toNat + 1) (BitVec.ofNat 32 (u / 2 ^ 32))
      else s.modCc fun c => c.setV cl i.toNat (BitVec.ofNat 32 (extend t u 32))
  | .g i => s.modCg fun g => g.setG i.toNat (BitVec.ofNat 64 (extend t u 64))
  | .t i => s.modRun fun r => { r with temps := Map.put 0 (8 * p + i.toNat) (BitVec.ofNat 64 (extend t u 64)) r.temps }

/-- Write a 64-bit result to a g destination. -/
def writeG (s : State) (d : Dst) (x : BitVec 64) : State := match d with | .g i => s.modCg fun g => g.setG i.toNat x | _ => s

/-- Apply(d, T, F) of R109: once to a g register, else in every active lane; `f` reads the state before any write (R7). -/
def apply (s : State) (g : Guard) (d : Dst) (t : Ty) (f : Nat → Nat) : State :=
  match d with
  | .g _ => if (s.active g).isEmpty then s else s.write d t (f (s.uniPos g)) (s.uniPos g)
  | _ => (s.active g).foldl (fun s' p => s'.write d t (f p) p) s

end State

/-- Pattern of an exact value wrapped or saturated into T: Fin(T, x, s) of R108. -/
def fin (t : Ty) (x : Int) (sat : Bool) : Nat :=
  let w := t.width
  let lo : Int := if t.signed then -(2 : Int) ^ (w - 1) else 0
  let hi : Int := if t.signed then (2 : Int) ^ (w - 1) - 1 else (2 : Int) ^ w - 1
  let y := if sat then max lo (min x hi) else x
  (y % (2 : Int) ^ w).toNat

end Sys2Proof.Machine
end

