-- ==== Sys2Proof/Machine/Flags.lean ====
section
/-! DEFINITION. Flags of Gnozen are predicate bits: writing them in the active lanes (R105), and the full/empty and pending
bits of long-latency producers (R38, R39). The architecture has no other arithmetic flag (R193). -/
namespace Sys2Proof.Machine
namespace State

/-- The predicate bit a lane reads. -/
def predAt (s : State) (p r : Nat) : Bool := match s.cc.clAt s.cur.grp p with | some cl => s.cc.pred cl r | none => r == 0
/-- Write a predicate bit of the lane at a position. -/
def setPredAt (s : State) (p r : Nat) (b : Bool) : State :=
  match s.cc.clAt s.cur.grp p with | some cl => s.modCc fun c => c.setPred cl r b | none => s
/-- Write predicate `r` in every active lane (R105); `f` reads the state before any write. -/
def applyPred (s : State) (g : Guard) (r : Nat) (f : Nat → Bool) : State :=
  (s.active g).foldl (fun s' p => s'.setPredAt p r (f p)) s

/-- The arithmetic clock stands still: no run, Easel slab, fill, Brush burst or walk goes on (R20, R468). -/
def clockStopped (s : State) : Bool := s.module.powerNow == 3

/-- Start a long-latency producer (R38): its registers empty, its predicate pending, in the group and in the run (R39). -/
def produce (s : State) (p : Producer) : State :=
  let s := s.modCg fun g =>
    let g := p.regs.foldl (fun g r => g.setEmpty true r) { g with outs := g.outs ++ [p] }
    match p.pred with | some q => if q = 0 then g else { g with pPend := setBit g.pPend q true } | none => g
  s.modRun fun r => { r with empty := r.empty ++ p.regs, pend := r.pend ++ (match p.pred with | some q => nz q | none => []) }

/-- The region entry of an `rgset` holds from now on (R349), unless it has been cleared since: the index may be another's by now. -/
def settleRegion (s : State) (c : Nat) (i : Option (Nat × Nat)) : State :=
  match i with
  | some (i, n) => s.modCtx c fun x => { x with regions := Map.upd i (fun r => if r.pend = some n then { r with pend := none } else r) x.regions }
  | none => s
/-- Perform a producer's writes when it completes: registers full, predicate no longer pending (its late fault, if any, is
reported by the completion event), and the landing space of its reply is free again (R423). -/
def complete (s : State) (r : GRef) (p : Producer) : State :=
  let s := s.settleRegion (s.cell r.cell).ctx p.region
  let s := s.modStudio (s.cell r.cell).studio fun st => { st with landing := st.landing - p.land }
  let s := p.writes.foldl (fun s w => match w with
    | .v cl i x => s.modCell r.cell fun c => c.setV cl i x
    | .g i x => s.modGroup r fun g => g.setG i x
    | .p cl i x => s.modCell r.cell fun c => c.setPred cl i x) s
  s.modGroup r fun g =>
    let g := p.regs.foldl (fun g x => g.setEmpty false x) g
    match p.pred with | some q => { g with pPend := setBit g.pPend q false } | none => g

/-- Writes of a value of type T to the lane at position `p` by a long-latency producer. -/
def lateWrite (s : State) (d : Dst) (t : Ty) (u p : Nat) : List RegWrite :=
  let w := t.width
  match d with
  | .v i => if w = 64 then [.v (s.clOf p) i.toNat (BitVec.ofNat 32 u), .v (s.clOf p) (i.toNat + 1) (BitVec.ofNat 32 (u / 2 ^ 32))]
            else [.v (s.clOf p) i.toNat (BitVec.ofNat 32 (extend t u 32))]
  | .g i => [.g i.toNat (BitVec.ofNat 64 (extend t u 64))]
  | .t _ => []

/-- A cross-studio result to a g register, with its failure predicate (R343): pending until it arrives; `region` is the entry that an
`rgset` has taken, with its number. -/
def produceG (s : State) (gd : Guard) (d : Dst) (x : BitVec 64) (pf : Nat) (failed : Bool) (region : Option (Nat × Nat) := none) : State :=
  let ps := if pf = 0 then [] else (s.active gd).map fun p => RegWrite.p (s.clOf p) pf failed
  s.produce { writes := (match d with | .g i => [RegWrite.g i.toNat x] | _ => []) ++ ps, regs := dstRegs d 64,
              pred := if pf = 0 then none else some pf, fault := none, ckpt := none, region := region }

end State
end Sys2Proof.Machine
end

