-- ==== Sys2Proof/WellFormed.lean ====
section
/-! DEFINITION. Well-formed instructions: those that a 96-bit word stands for. -/
namespace Sys2Proof

/-- `i` is an instruction of the opcode table with operands and modifiers its encoding row accepts. -/
abbrev Instr.WellFormed (i : Instr) : Prop := i.legal = true

end Sys2Proof
end

