-- ==== Sys2Proof/Machine/Ops.lean ====
section
/-! DEFINITION. The shared operations every meaning stands on: instruction fetch and the decode checks (part 03), task
failure, taking an exception (R428) and returning from one (R448), the frontier update at a run's end (R32), and the
frame of an issued instruction. -/
namespace Sys2Proof.Machine
open Sys2Proof
namespace State

/-! ### Instruction fetch (R57-R60) -/

/-- Bits of a slot of a fetch line. -/
def slotWord (ln k : Nat) : Nat := bits ln (96 * k + 95) (96 * k)
/-- A bit of the line word (R58). -/
def lineBit (ln i : Nat) : Bool := bits ln (480 + i) (480 + i) == 1
def linePriority (ln : Nat) : BitVec 6 := BitVec.ofNat 6 (bits ln 507 502)
def lineTarget (ln k : Nat) : Bool := lineBit ln (17 + k)
def lineRunEnd (ln k : Nat) : Bool := lineBit ln (12 + k)
/-- Pairing bit k; a line has four (R58). -/
def linePair (ln k : Nat) : Bool := k < 4 && lineBit ln (8 + k)
def lineBudget (ln : Nat) : Nat := bits ln 487 480
/-- Even parity of quarter q with its bit (R59). -/
def quarterOk (ln q : Nat) : Bool := (popc (bits ln (120 * q + 119) (120 * q)) 120 + bits ln (508 + q) (508 + q)) % 2 == 0
/-- The quarters that slot k overlaps pass. -/
def slotOk (ln k : Nat) : Bool := quarterOk ln (96 * k / 120) && quarterOk ln ((96 * k + 95) / 120)

/-- A fetch; `x` asks for X permission. -/
def fetchAcc (x : Bool) : Acc := { n := 64, rd := false, wr := false, x := x, region := false }
/-- A line none of whose quarters passes: what is read where the home is poisoned. -/
def badLine : Nat := 15 * 2 ^ 508
/-- Fill a line into the instruction cache of 1,024 lines (R148); with all taken one leaves, whichever the hardware picks. -/
def addIcache (s : State) (k ln : Nat) (l : List (BitVec 8)) : State :=
  let ic := (s.studio k).icache
  let s := if ic.length < 1024 then s else
    match (ic.map Prod.fst)[s.pick ic.length]? with
    | some m => s.tick.modStudio k fun st => { st with icache := Map.del m st.icache }
    | none => s
  s.modStudio k fun st => { st with icache := Map.ins ln l st.icache }
/-- Fetch the line at a physical address from L2, which a miss fills (R162), or memory into the instruction cache. -/
def refetch (s : State) (k : Nat) (t : Tag) (pa : Nat) : State × Nat :=
  let s := s.mergeLine (pa / 128)
  if s.homeBad (pa / 128) then (s.bypass t (pa / 128), badLine) else
  let s := s.fillL2 t (pa / 128)
  let l := s.homeBytes pa 64
  (s.addIcache k (pa / 64) l, leNat l)
/-- A fetch line as the instruction cache holds it, or as it is fetched. -/
def cachedLine (s : State) (k : Nat) (t : Tag) (pa : Nat) : State × Nat :=
  match Map.find (pa / 64) (s.studio k).icache with
  | some l => (s, leNat l)
  | none => s.refetch k t pa
/-- The slot's line with the parity check of R59: a line whose quarters fail is discarded and fetched once more. -/
def checkedLine (s : State) (k : Nat) (t : Tag) (slot pa : Nat) : Except Raise (State × Nat) :=
  let r := s.cachedLine k t pa
  if slotOk r.2 slot then .ok r else
  let r := s.refetch k t pa
  if slotOk r.2 slot then .ok r else .error { code := fImemUncorr, clr := .icache k (pa / 64) }
/-- Fetch the line of a slot. IMEM_UNCORR comes before PROT where the page has no X permission (R75). A PROT or PAGE_ABSENT reports
the address of the line (log 85). -/
def fetchSlot (s : State) (w : Who) (pc : BitVec 64) : Except Raise (State × Nat) :=
  let va := pcLine pc % 2 ^ 57
  let line := fun (x : Bool) => do
    match ← s.checkOne w (fetchAcc x) va with
    | (_, none) => fault fPageAbsent va
    | (s, some x) => s.checkedLine w.k (tagOf w x 0) (pcSlot pc) (physOf x va)
  match line true with
  | .error y =>
    if y.code == fProt && y.sub == 0 then
      match line false with
      | .error z => .error (if z.code == fImemUncorr then z else y)
      | .ok _ => .error y
    else .error y
  | r => r

/-- Priority of a new entry at a PC: its line's, or `old` where the line word cannot be read at once (R32). -/
def priorityAt (s : State) (w : Who) (pc : BitVec 64) (old : BitVec 6) : BitVec 6 :=
  match s.fetchSlot w pc with | .ok (_, ln) => linePriority ln | .error _ => old

/-! ### Decode checks in the order of R75 -/

/-- Instructions that must close their run: B family, the waits of R49, the world majors of R363. -/
def needsEnd (i : Instr) : Bool :=
  match i.raw with
  | some (.b _ _) => true
  | some (.x k _) => k == 0xA2 || k == 0x76 || k == 0x7E
  | some (.m k _) => k == 0xA8 || k == 0x93
  | some (.a k _) => 0xB9 ≤ k && k ≤ 0xBD
  | _ => false

/-- Majors that a feature not accepted takes away (R460). -/
def featOk (s : State) (major : Nat) : Bool :=
  (!(0xB9 ≤ major && major ≤ 0xBD) || s.module.featAccept.getLsbD 1)
  && (!(major == 0xE6 || major == 0xE7) || s.module.featAccept.getLsbD 2)
def scopeFeatOk (s : State) (i : Instr) : Bool :=
  match i.raw with
  | some (.m _ o) => o.scope != .rcv || s.module.featAccept.getLsbD 2
  | _ => true

/-- Kinds of R62: 1 vector, 2 uniform, 3 memory, 4 control, 0 none. -/
def pairKind (i : Instr) : Nat :=
  match i with
  | .nop _ => 0
  | i => match i.raw with
    | some (.a k _) => if k ≤ 0x1B || (0x30 ≤ k && k ≤ 0x4B) || (0x60 ≤ k && k ≤ 0x67) then 1
                       else if 0x20 ≤ k && k ≤ 0x2A then 2 else 0
    | some (.m _ _) => 3
    | some (.b _ _) => 4
    | _ => 0
def pairAllowed (a b : Nat) : Bool :=
  (a, b) ∈ [(1, 3), (3, 1), (1, 2), (2, 1), (3, 4), (4, 3)]

def srcTemp : Src → List Nat | .t i => [i.toNat] | _ => []
def dstTemp : Dst → List Nat | .t i => [i.toNat] | _ => []
/-- Temporaries an instruction reads and writes. -/
def tempsOf (i : Instr) : List Nat × List Nat :=
  match i.raw with
  | some (.a _ o) => (srcTemp o.a ++ srcTemp o.b ++ srcTemp o.c, dstTemp o.d)
  | some (.m k o) =>
    let store := k == 0x81 || k == 0x84 || k == 0x86 || k == 0x88
    (srcTemp o.index ++ (if store then dstTemp o.data else []), if store then [] else dstTemp o.data)
  | some (.b _ o) => (srcTemp o.a, dstTemp o.link)
  | some (.x _ o) => (srcTemp o.coord, dstTemp o.dest)
  | some (.s _ o) => (srcTemp o.a, dstTemp o.dest)
  | none => ([], [])
def meets {α : Type} [BEq α] (a b : List α) : Bool := a.any fun x => b.contains x
/-- Slot k + 1 touches what slot k writes (R62); a pop writes its queue. -/
def pairHazard (a b : Instr) : Bool :=
  let u := usesOf a
  let v := usesOf b
  let (_, tw) := tempsOf a
  let (tr, tw') := tempsOf b
  meets (v.rd.map Prod.fst ++ v.wr) u.wr || meets (v.prd ++ v.pwr) u.pwr || meets (tr ++ tw') tw
  || meets (v.pops.map Prod.fst) (u.pops.map Prod.fst)
/-- The pairing mark of slot k is legal (R62). The word of slot k + 1 is read as it stands in the line: its quarters are checked when
that slot is fetched (R59; log 86). -/
def pairOk (ln k : Nat) (i : Instr) : Bool :=
  !linePair ln k ||
  (match decode (slotWord ln (k + 1)) with
   | .ok j => pairAllowed (pairKind i) (pairKind j) && !pairHazard i j
   | .error _ => false)
  && !lineRunEnd ln k && !(k > 0 && linePair ln (k - 1))

/-- Fetch and decode the instruction at the run's present PC: IMEM_UNCORR, PROT or PAGE_ABSENT, ILLEGAL_OP, ILLEGAL_FIELD.
BUDGET and ILLEGAL_TARGET follow in `issueWith`. An instruction that is held and tried anew counts once as issued (R313). -/
def decodeStage (s : State) : Except Raise (State × Instr) := do
  let pc := s.crun.pc
  if s.crun.unknown = some pc then holdHere
  let (s, ln) ← s.fetchSlot (s.whoOf s.cur.cell) pc
  let k := pcSlot pc
  require (s.featOk (bits (slotWord ln k) 95 88)) fIllegalOp
  match decode (slotWord ln k) with
  | .error .illegalOp => fault fIllegalOp
  | .error .illegalField => fault fIllegalField
  | .ok i =>
    require (s.scopeFeatOk i && (!needsEnd i || lineRunEnd ln k) && pairOk ln k i) fIllegalField
    let s' := s.modRun fun r => { r with last := lineRunEnd ln k, held := false, counted := true }
    return (if s.crun.counted then s' else s'.perf s.ck s.cc.ctx 3, i)

/-- What dispatch sees of a run: its instructions as far as they decode, whether it is refused, and the slot at a migrating page past
which nothing is known. -/
structure Scan where
  is : List Instr
  refused : Bool
  unknown : Option (BitVec 64)
deriving DecidableEq, Repr
/-- The run from a PC, of at most `n` instructions; `first` is the run's first line. It is refused with no run end within them or within
five lines (R34). A slot whose fetch faults ends what is looked at. -/
def scanRun (s : State) (w : Who) (first : Nat) : Nat → BitVec 64 → Scan
  | 0, _ => ⟨[], true, none⟩
  | n + 1, pc =>
    if pcLine pc ≥ first + 320 then ⟨[], true, none⟩ else
    match s.fetchSlot w pc with
    | .error y => ⟨[], false, if y.hold then some pc else none⟩
    | .ok (_, ln) =>
      let here := match decode (slotWord ln (pcSlot pc)) with | .ok i => [i] | .error _ => []
      if lineRunEnd ln (pcSlot pc) then ⟨here, false, none⟩
      else let r := s.scanRun w first n (nextPC pc)
           { r with is := here ++ r.is }

/-! ### Taking an exception (R427, R428) -/

/-- TRAPCAUSE of a fault (R427). -/
def trapCause (x : Raise) (late : Bool) : BitVec 64 :=
  BitVec.ofNat 64 (x.code.toNat + 256 * x.sub.toNat + (if late then 4096 else 0) + 65536 * x.imm.toNat + 2 ^ 39 * (x.lane % 32))
/-- The 64 bytes of a trap frame (R428). -/
def trapFrame (e : Entry) (pc cause addr : BitVec 64) : List (BitVec 8) :=
  leBytes 8 pc.toNat ++ leBytes 4 e.mask.toNat ++ [BitVec.ofNat 8 e.prio.toNat, e.wait, 0, 0] ++ leBytes 8 cause.toNat
  ++ leBytes 8 addr.toNat ++ leBytes 32 0

/-- End the acting group's run where it stands. -/
def dropRun (s : State) : State := s.modCg fun g => { g with run := none, settled := false }

/-- Deliver a fault to the acting group, which is not in handler mode: the frame, the trap registers, handler mode, the
handler entry in place of `e`. None: a page it needs is migrating, and the delivery waits. -/
def deliver (s : State) (e : Entry) (pc : BitVec 64) (x : Raise) (late : Bool) : Option State :=
  let c := s.cc
  let w := s.whoOf s.cur.cell
  let fail := fun code => some (s.dropRun.failTask c.ticket code x.code.toNat)
  let tv := (s.ctx c.ctx).trapvec
  if tv = 0 then fail x.code else
  if !wellFormedPc tv then fail fIllegalTarget else
  match s.fetchSlot w tv with
  | .error y => if y.hold then none else fail y.code
  | .ok (s1, ln) =>
    if !lineTarget ln (pcSlot tv) then fail fIllegalTarget else
    let va := s1.cg.trapsave.toNat % 2 ^ 57
    match s1.checkOne w { n := 64, rd := false, wr := true, region := false } va with
    | .error y => if y.hold then none else fail x.code
    | .ok (_, none) => fail x.code
    | .ok (s2, some t) =>
      let cause := trapCause x late
      let s3 := s2.writeAt w.k (tagOf w t 0) false (physOf t va) (trapFrame e pc cause x.addr)
      some (s3.dropRun.modCg fun g =>
        { g with trapcause := cause, trapaddr := x.addr, trappc := pc, handler := true,
                 entries := g.entries.erase e ++ [⟨tv, e.mask, linePriority ln, 0, true, .no⟩] })

/-- A disabled queue's bit in the supervisor's error report (R375). -/
def disableQueue (s : State) (c q : Nat) : State :=
  s.modCtx c fun x => { x with queues := Map.ins q { Map.getD x.queues q default with bad := true } x.queues }
/-- Clear the recorded condition a raised fault reports (R397, R471); discard the line that failed its check (R59); report the queue whose
malformed descriptor was met (R375). -/
def clearFor (s : State) : Clear → State
  | .no => s
  | .icache k ln => s.modStudio k fun st => { st with icache := Map.del ln st.icache }
  | .queue q => s.modCg fun g => { g with qfault := Map.del q g.qfault }
  | .tile m => s.modCc fun c => { c with tiles := Map.upd m (fun t => { t with status := t.status &&& ~~~0x10000000, badTab := false }) c.tiles }
  | .fill f => s.modCc fun c => { c with fills := Map.upd f (fun x => { x with fault := none }) c.fills }
  | .badQueue c q => s.disableQueue c q

/-- A shadow copy ends where it stands: its frontiers empty, no comparison follows (R370). -/
def endCopy (s : State) (c : Nat) : State :=
  let partner := match (s.cell c).role with | .copy o => some o | _ => none
  let s := s.modCell c fun x =>
    { x with role := .plain, groups := x.groups.map (fun g => (g.1, { g.2 with entries := [], run := none, settled := true, handler := false })) }
  match partner with
  | some o => s.modCell o fun x => { x with role := .plain }
  | none => s

/-- The instruction at the run's present PC raises `x`; the state is the one before the instruction (R52). -/
def raise (s : State) (x : Raise) : State :=
  if x.hold then s.modRun fun r => { r with held := true } else
  if x.endCopy then s.endCopy s.cur.cell else
  let t := s.cc.ticket
  if s.rollsBack s.cur.cell x.code then ((s.clearFor x.clr).dropRun).requestRollback t x.code else
  if s.cg.handler then ((s.clearFor x.clr).dropRun).failTask t x.code 0 true else
  let pc := s.crun.pc
  match (s.clearFor x.clr).deliver s.entry (if x.next then nextPC pc else pc) x false with
  | some s' => s'
  | none => s.modRun fun r => { r with held := true }

/-- The late fault an entry meets before its next run, if any: the oldest that belongs to it (R429, R471). -/
def lateFor (g : Group) (e : Entry) : Option LateFault :=
  if g.handler then none else g.late.find? fun f => match f.waiter with | none => true | some p => p == e.pc
/-- Deliver it; the acting group is `cur`. -/
def deliverLate (s : State) (e : Entry) (f : LateFault) : Option State :=
  let s' := s.modCg fun g => { g with late := g.late.erase f }
  s'.deliver e e.pc { code := f.code, sub := f.sub, addr := f.addr, lane := f.lane } true

/-! ### The frontier update at a run's end (R32, R49, R141) -/

/-- Wait count of an entry that did not issue (R32, R33). -/
def aged (e : Entry) : Entry :=
  if e.st = .no then { e with wait := if e.wait.toNat < 255 then e.wait + 1 else e.wait } else e
/-- Whether a part of the given kind joins an entry at a PC (R32). -/
def joins (e : Entry) (pc : BitVec 64) (handler : Bool) : Bool := e.pc == pc && e.handler == handler
/-- How an entry waits once a part that waits as `st` has joined it: with it (R49). Lanes at a meeting of `rte` stand at its PC, so an
entry that others join there issues the `rte` again, for all its lanes (R31, R448). -/
def joinWait (x st : Wait) : Wait := if x = .no || x = .rte then st else x

/-- Lanes `mask` continue at `pc`: they join the entry of their kind there or form one. -/
def joinOrForm (s : State) (es : List Entry) (old : Entry) (pc : BitVec 64) (mask : BitVec 32) (prio : Option (BitVec 6))
    (st : Wait) : List Entry :=
  match es.find? (fun x => joins x pc old.handler) with
  | some j => es.map fun x => if x == j then
      { x with mask := x.mask ||| mask, prio := prio.getD x.prio, st := joinWait x.st st } else x
  | none => es ++ [⟨pc, mask, prio.getD (s.priorityAt (s.whoOf s.cur.cell) pc old.prio), 0, old.handler, st⟩]

/-- Distinct values, first occurrence first. -/
def distinct {α : Type} [BEq α] (l : List α) : List α := l.foldl (fun a x => if a.contains x then a else a ++ [x]) []

/-- The issuing entry's lanes continue where `cont` says (none: they leave); every entry not joined or formed ages. -/
def endRun (s : State) (cont : Nat → Option (BitVec 64)) (prio : Option (BitVec 6)) (st : Wait) : State :=
  let e := s.entry
  let ps := positions e.mask
  let pcs := distinct (ps.filterMap cont)
  let rest := (s.cg.entries.erase e).map fun x => if pcs.any (fun pc => joins x pc e.handler) then x else aged x
  let es := pcs.foldl (fun es pc => s.joinOrForm es e pc (maskOf (ps.filter fun p => cont p == some pc)) prio st) rest
  s.modCg fun g => { g with entries := es, run := none, settled := false }

/-! ### Control targets (R60, R132, R135, R137) -/

/-- Target(i) of R136. -/
def directTarget (pc : BitVec 64) (o : BOp) : BitVec 64 :=
  codePtr (((pcLine pc : Int) + 64 * o.line.toInt) % (2 : Int) ^ 57).toNat o.slot.toNat
/-- EntryCheck of R137 and the target bit, on a target line. -/
def entryCheck (budget ln : Nat) (t : BitVec 64) (call : Bool) : Except Raise Unit := do
  if call then
    let u := lineBudget ln
    require (u ≤ 32) fIllegalField t.toNat
    require (pcSlot t = 0 && u ≠ 0 && u ≤ budget) fBudget t.toNat
  require (lineTarget ln (pcSlot t)) fIllegalTarget t.toNat
/-- The checks on one target: its line fetched, then its entry. A fetch fault reports the target. -/
def targetCheck (s : State) (call : Bool) (t : BitVec 64) : Except Raise Unit :=
  match s.fetchSlot (s.whoOf s.cur.cell) t with
  | .error y => .error { y with addr := t }
  | .ok (_, ln) => entryCheck s.cc.budget ln t call

/-- Rank of a target's fault (R135): fetch faults in the order of R75, then field, budget, target. -/
def targetRank (code : BitVec 8) : Nat :=
  if code = fImemUncorr then 0 else if code = fIllegalField then 2 else if code = fBudget then 3 else if code = fIllegalTarget then 4 else 1
/-- The checks on the targets active lanes take: ill-formed values raise ILLEGAL_TARGET; the highest-ranked fault is
reported, at the lowest target that raises it. -/
def targetsCheck (s : State) (call : Bool) (ts : List (BitVec 64)) : Except Raise Unit :=
  let bad := (distinct ts).filterMap fun t =>
    if !wellFormedPc t then some ({ code := fIllegalTarget, addr := t } : Raise)
    else match s.targetCheck call t with | .error y => some y | .ok _ => none
  match bad.find? (·.hold) with
  | some y => .error y
  | none =>
    match bad.foldl (fun (b : Option Raise) y => match b with
      | none => some y
      | some z => if targetRank y.code < targetRank z.code || (targetRank y.code = targetRank z.code && y.addr.toNat < z.addr.toNat) then some y else b) none with
    | some y => .error y
    | none => .ok ()

/-- Direct targets are checked at decode, whatever the guard (R60, R137). -/
def directCheck (s : State) (i : Instr) : Except Raise Unit :=
  match i.raw with
  | some (.b k o) => if k = 0xD0 || k = 0xD1 || k = 0xD3 then s.targetCheck (k = 0xD3) (directTarget s.crun.pc o) else .ok ()
  | _ => .ok ()

/-! ### Return from an exception (R448) -/

/-- A fault in handler mode: it rolls a protected launch back, or the task fails (R429, R435). -/
def nestedFault (s : State) (code : BitVec 8) : State :=
  if s.rollsBack s.cur.cell code then s.requestRollback s.cc.ticket code else s.failTask s.cc.ticket code 0 true
/-- The handler's lanes have all met or exited: its entries go, and one entry of the lanes that have not exited is restored
from TRAPPC and the frame. A frame that cannot be read, and a TRAPPC that is no target (R60), is a fault in handler mode; while a page
that it needs is migrating the meeting waits (R158). -/
def leaveHandler (s : State) : State :=
  let g := s.cg
  let live := g.entries.foldl (fun m e => if e.handler then m ||| e.mask else m) (0 : BitVec 32)
  let rest := g.entries.filter fun e => !e.handler
  if s.cc.saved == some s.cur.grp then s.failTask s.cc.ticket fMatrixOwner 0 true else
  let off := fun es => s.modCg fun g => { g with entries := es, handler := false }
  if live = 0 then off rest else
  let w := s.whoOf s.cur.cell
  let va := g.trapsave.toNat % 2 ^ 57
  match s.checkOne w { n := 64, rd := true, wr := false, region := false } va with
  | .error y => if y.hold then s else s.nestedFault y.code
  | .ok (_, none) => s.nestedFault fPageAbsent
  | .ok (s1, some t) =>
    let (s2, f, bad) := s1.readAt w.k (tagOf w t 0) false (physOf t va) 64
    if bad then s.nestedFault fMemUncorr else
    let mask := BitVec.ofNat 32 (leNat ((f.drop 8).take 4)) &&& live
    if mask = 0 then off rest else
    let pc := g.trappc
    match s.targetsCheck false [pc] with
    | .error y => if y.hold then s else s.nestedFault y.code
    | .ok () =>
    let es := match rest.find? (fun x => x.pc == pc) with
      | some j => rest.map fun x => if x == j then { x with mask := x.mask ||| mask } else x
      | none => rest ++ [⟨pc, mask, BitVec.ofNat 6 (f.getD 12 0).toNat, f.getD 13 0, false, .no⟩]
    s2.modCg fun g => { g with entries := es, handler := false }
/-- Complete the meeting where every handler lane left waits at an `rte` (R448). -/
def handlerMeeting (s : State) : State :=
  if s.cg.handler && s.cg.entries.all (fun e => !e.handler || e.st == .rte) then s.leaveHandler else s

/-! ### Checks at issue (R37, R39, R74, R397) -/

/-- BUDGET, the direct target, R39's uses, trap-mode reads of empty registers. That a fault of the direct target comes before R39's
EMPTY_READ on the same instruction: log 125. -/
def usesCheck (s : State) (i : Instr) : Except Raise Unit := do
  let u := usesOf i
  let r := s.crun
  require (vTop u ≤ 8 * s.cc.budget) fBudget
  s.directCheck i
  require (!meets (u.rd.map Prod.fst ++ u.wr) r.empty && !meets (u.prd ++ u.pwr) r.pend) fEmptyRead
  require ((s.active (guardOf i)).isEmpty || !(u.rd.any fun x => x.2 && s.cg.isEmpty x.1)) fEmptyRead

/-- The walks of a cell that feed a queue. -/
def walkQueue (w : Walk) : Nat := bits (leNat ((w.desc.drop 8).take 4)) 6 4
def queueLen (g : Group) (q : Nat) : Nat := (Map.getD g.queues q []).length
/-- No walk will push to the queue any more: every one that feeds it has ended or stopped. -/
def walksOver (c : Cell) (q : Nat) : Bool := c.walks.all fun w => walkQueue w != q || w.state != 0
/-- A queue is ended: no entry, and every walk that feeds it ended or stopped (R397). -/
def queueEnded (c : Cell) (g : Group) (q : Nat) : Bool := queueLen g q == 0 && walksOver c q

/-- Pop one entry; the answer is the entry by position. -/
def pop (s : State) (q : Nat) : Except Raise (State × List (BitVec 32)) :=
  let g := s.cg
  if s.cc.badWalks then fault fHandle s.cc.walkTable.toNat else
  match Map.getD g.queues q [] with
  | x :: r => .ok (s.modCg fun g => { g with queues := Map.put [] q r g.queues }, x)
  | [] => if queueEnded s.cc g q then
            match Map.find q g.qfault with
            | some f => .error { code := f.code, sub := f.sub, addr := f.addr, clr := .queue q }
            | none => fault fEmptyRead q
          else holdHere

/-- Fields (numbered a, b, c) that pop a queue; `qpop` makes its own pops. -/
def popFields (i : Instr) : List (Nat × Nat) :=
  let f := fun n (x : Src) => (match x with | .q k => [(n, k.toNat)] | _ => [] : List (Nat × Nat))
  match i.raw with
  | some (.a k o) => if k = 0xC3 then [] else f 0 o.a ++ f 1 o.b ++ f 2 o.c
  | some (.m _ o) => f 0 o.index
  | _ => []
/-- Make the pops of the source fields, in field order (R397). -/
def popAll (s : State) : List (Nat × Nat) → Except Raise State
  | [] => .ok s
  | (n, q) :: r => do
    let (s, x) ← s.pop q
    (s.modRun fun u => { u with popped := Map.ins n x u.popped }).popAll r

/-! ### Issuing an instruction -/

/-- How an instruction leaves its run: on to the next slot; ended with a continuation per position and a priority; the entry
waiting at NextPC (R49); or already ended by its meaning. -/
inductive After where
  | seq
  | go (cont : List (Nat × Option (BitVec 64))) (prio : Option (BitVec 6))
  | wait (w : Wait)
  | done
deriving DecidableEq, Repr

/-- After the instruction's effect: its destinations are remembered for `trail`, and the run goes on or ends. -/
def advance (s : State) (i : Instr) (a : After) : State :=
  let r := s.crun
  let nx := nextPC r.pc
  match a with
  | .done => s
  | .go cont prio => s.endRun (fun p => match cont.find? fun x => x.1 == p with | some x => x.2 | none => some nx) prio .no
  | .wait w => s.endRun (fun _ => some nx) none w
  | .seq =>
    if r.last then s.endRun (fun _ => some nx) none .no
    else s.modRun fun r => { r with pc := nx, hist := (usesOf i).wr :: r.hist, popped := [], counted := false }

/-- A held load or atomic leaves its destination empty meanwhile (R158). -/
def holdDest (s : State) (i : Instr) (x : Raise) : State :=
  match x.hold, i with
  | true, .ld _ | true, .ldc _ | true, .atom _ =>
    let rs := (usesOf i).wr
    (s.modCg fun g => rs.foldl (fun g r => g.setEmpty true r) g).modRun fun u => { u with heldRegs := rs }
  | _, _ => s
/-- Issue an instruction with the checks every instruction has; `body` is its own effect. -/
def issueWith (i : Instr) (s : State) (body : State → Except Raise (State × After)) : Host.Outcome State Fault Refusal :=
  match (do s.usesCheck i; let s ← s.popAll (popFields i); body s) with
  | .error x => .next ((s.raise x).holdDest i x)
  | .ok (s', a) => .next (s'.advance i a)
/-- The same for an instruction that goes on to the next slot. -/
def issue (i : Instr) (s : State) (body : State → Except Raise State) : Host.Outcome State Fault Refusal :=
  State.issueWith i s fun s => do let s ← body s; return (s, After.seq)
/-- The same for an effect that cannot fault. -/
def issueOk (i : Instr) (s : State) (body : State → State) : Host.Outcome State Fault Refusal :=
  State.issue i s fun s => .ok (body s)

end State
end Sys2Proof.Machine
end

