-- ==== Sys2Proof/Machine/IoRegs.lean ====
section
/-! DEFINITION. The module register window (R456, R460, R464), by 8-byte words and by bytes. -/
namespace Sys2Proof.Machine
open Sys2Proof
namespace State

def featOn (s : State) (b : Nat) : Bool := s.module.featAccept.getLsbD b
def engine (s : State) (e : Nat) : Engine := Map.getD s.module.engines e default
def modEngine (s : State) (e : Nat) (f : Engine → Engine) : State :=
  s.modModule fun m => { m with engines := Map.ins e (f (Map.getD m.engines e default)) m.engines }

/-- Power word: state requested, in force, capped (R456). -/
def powerWord (m : Module) : BitVec 64 :=
  BitVec.ofNat 64 (m.powerReq.toNat + 16 * m.powerNow.toNat + (if m.capped then 256 else 0))

/-- Register word `w` of an engine block (R464). -/
def engineWord (x : Engine) (w : Nat) : BitVec 64 :=
  match w with | 0 => x.ctl | 1 => x.ring | 2 => x.tail | 3 => x.head | 4 => x.stat | _ => 0

/-- The word of the window at an 8-byte-aligned offset; 0 where no register stands. -/
def regWord (s : State) (off : Nat) : BitVec 64 :=
  let m := s.module
  let sub : Nat → Nat → BitVec 64 := fun x w => BitVec.ofNat 64 (x / 2 ^ (64 * w))
  if off < 0x200 then (List.range 64).foldl (fun v i => setBit v i (Map.getD m.kick (8 * off + i) false)) 0
  else if off = 0x1000 then Config.featOffer
  else if off = 0x1008 then m.featAccept
  else if off = 0x1010 then BitVec.ofNat 64 (m.lifecycle.toNat + (if m.bootFailed then 4 else 0))
  else if off = 0x1018 then m.modnum.setWidth 64
  else if off = 0x1100 then BitVec.ofNat 64 (popc m.capStudio.toNat 192)
  else if 0x1108 ≤ off ∧ off ≤ 0x1118 then sub m.capStudio.toNat ((off - 0x1108) / 8)
  else if off = 0x1120 then BitVec.ofNat 64 (popc m.capSlice.toNat 64)
  else if off = 0x1128 then m.capSlice
  else if off = 0x1130 then BitVec.ofNat 64 (popc m.capChan.toNat 384)
  else if off = 0x1138 then BitVec.ofNat 64 (popc m.capChan.toNat 384 * 2 ^ 31)
  else if off = 0x1140 then BitVec.ofNat 64 (popc m.capLane.toNat 128)
  else if off = 0x1148 ∨ off = 0x1150 then sub m.capLane.toNat ((off - 0x1148) / 8)
  else if off = 0x1200 then powerWord m
  else if 0x2000 ≤ off ∧ off < 0x2200 then
    BitVec.ofNat 64 (leNat ((List.range 8).map fun i => (Map.getD m.meas ((off - 0x2000) / 64) []).getD (off % 64 + i) 0))
  else if 0x3000 ≤ off ∧ off < 0x4000 then BitVec.ofNat 64 (leNat ((List.range 8).map fun i => Map.getD m.attest (off - 0x3000 + i) 0))
  else if 0x10000 ≤ off ∧ off < 0x12000 ∧ s.featOn 4 then engineWord (s.engine ((off - 0x10000) / 256)) (off % 256 / 8)
  else 0

/-- Set pending-kick bits (R377): ones set, zeros are ignored. -/
def kick (s : State) (bit : Nat) : State := s.modModule fun m => { m with kick := Map.ins bit true m.kick }
/-- A write of FEAT_ACCEPT (R460). -/
def writeFeat (s : State) (v : BitVec 64) : State :=
  if s.module.featLocked then s else s.modModule fun m => { m with featAccept := v &&& Config.featOffer }
/-- A write of POWER: the supervisor's request, in force at run boundaries (R468, R469). -/
def writePower (s : State) (x : BitVec 2) : State :=
  s.modModule fun m => { m with powerReq := x, powerNow := x, capped := false }
def writeTail (s : State) (e : Nat) (v : BitVec 64) : State :=
  if s.featOn 4 then s.modEngine e fun x => { x with tail := v } else s

/-- A write of a window word by the host or the supervisor; registers that they do not change ignore it. ENGCTL and ENGRING keep the bits
that R464 names no field for, which read back as written and have no effect (DESIGN CHOICE, log 128). -/
def regStore (s : State) (off : Nat) (v : BitVec 64) : State :=
  if off < 0x200 then (List.range 64).foldl (fun s i => if v.getLsbD i then s.kick (8 * off + i) else s) s
  else if off = 0x1008 then s.writeFeat v
  else if off = 0x1018 then s.modModule fun m => { m with modnum := v.setWidth 8 }
  else if off = 0x1200 then s.writePower (v.setWidth 2)
  else if 0x3000 ≤ off ∧ off < 0x4000 then
    s.modModule fun m => { m with attest := (List.range 8).foldl (fun a i =>
      Map.put 0 (off - 0x3000 + i) (BitVec.ofNat 8 (v.toNat / 256 ^ i)) a) m.attest }
  else if 0x10000 ≤ off ∧ off < 0x12000 ∧ s.featOn 4 then
    let e := (off - 0x10000) / 256
    match off % 256 with
    | 0 => s.modEngine e fun x => { x with ctl := v ||| (x.ctl &&& 2) }
    | 8 => s.modEngine e fun x => { x with ring := v }
    | 16 => s.writeTail e v
    | _ => s
  else s
/-- A store of a context to a window word. Of the registers only ENGTAIL names a mapped context in its Changed by column (R8, R464);
the others ignore it. -/
def regCtxStore (s : State) (off : Nat) (v : BitVec 64) : State :=
  if 0x10000 ≤ off ∧ off < 0x12000 ∧ off % 256 = 16 then s.writeTail ((off - 0x10000) / 256) v else s

/-- The module as the program of a cell sees it: the capacity figures latched as its launch was admitted (R24). -/
def seenBy (s : State) (c : Option Nat) : State :=
  match c.bind fun c => s.task (s.cell c).ticket with
  | some t => s.modModule fun m =>
      { m with capStudio := t.caps.1, capSlice := t.caps.2.1, capChan := t.caps.2.2.1, capLane := t.caps.2.2.2 }
  | none => s
/-- Bytes of the window. -/
def regBytes (s : State) (off n : Nat) : List (BitVec 8) :=
  (List.range n).map fun i => BitVec.ofNat 8 ((s.regWord ((off + i) / 8 * 8)).toNat / 256 ^ ((off + i) % 8))
/-- A context writes bytes of the window, word by word: the bytes of a word not written keep what it reads as. -/
def regWriteBytes (s : State) (off : Nat) (bs : List (BitVec 8)) : State :=
  let words := (List.range ((off + bs.length + 7) / 8 - off / 8)).map fun k => 8 * (off / 8 + k)
  words.foldl (fun s w =>
    let old := (s.regWord w).toNat
    let v := (List.range 8).foldl (fun v i =>
      let b := if off ≤ w + i ∧ w + i < off + bs.length then (bs.getD (w + i - off) 0).toNat else old / 256 ^ i % 256
      v + b * 256 ^ i) 0
    s.regCtxStore w (BitVec.ofNat 64 v)) s
def regOffset (pa : Nat) : Nat := pa - 0xFF00000000

/-- Read through a translation: the register window, or memory. -/
def readPa (s : State) (k : Nat) (t : Tag) (atHome : Bool) (pa n : Nat) : State × List (BitVec 8) × Bool :=
  if isRegWindow pa then (s, (s.seenBy t.cell).regBytes (regOffset pa) n, false) else s.readAt k t atHome pa n
/-- Write through a translation: the register window, or memory. -/
def writePa (s : State) (k : Nat) (t : Tag) (atHome : Bool) (pa : Nat) (bs : List (BitVec 8)) : State :=
  if isRegWindow pa then s.regWriteBytes (regOffset pa) bs else s.writeAt k t atHome pa bs

end State
end Sys2Proof.Machine
end

