-- ==== Sys2Proof/Machine/MemLoad.lean ====
section
/-! DEFINITION. Addresses, the checks of R157 over all lanes, scope actions (R162), views' classes of writes (R356, R359,
R369, R370), and the loads, stores, atomics and reductions (R169-R177). -/
namespace Sys2Proof.Machine
open Sys2Proof State

/-! ### Addresses -/

/-- Address of a lane (R66). -/
def addrOf (o : MOp) (s : State) (p : Nat) : Nat :=
  let b : Int := match o.base with | some r => (s.gval r).toNat | none => 0
  ((b + sext 32 (s.src 0 o.index 32 p) * 2 ^ o.shift.toNat + o.off.toInt) % (2 : Int) ^ 57).toNat
/-- PtAddr of byte offset `x` for original lane `cl` of a cell (R166). -/
def ptAddr (c : Cell) (cl x : Nat) : Nat :=
  (c.ptbase.toNat + (16 * c.ptSlot + cl / 32) * 2 ^ 21 + x / 4 * 128 + 4 * (cl % 32) + x % 4) % 2 ^ 57

/-- One contiguous piece of a lane's access: virtual address, bytes, translation (none: absent and absorbed). -/
structure Piece where
  va : Nat
  n : Nat
  x : Option Xlat
deriving DecidableEq, Repr
/-- A lane's access: its position, the address a fault reports, its pieces, and whether an earlier lane's request is for the same line
(R156). -/
structure LaneAcc where
  p : Nat
  addr : Nat
  ps : List Piece
  again : Bool := false
deriving DecidableEq, Repr
def LaneAcc.absent (l : LaneAcc) : Bool := l.ps.any fun x => x.x.isNone
def LaneAcc.va (l : LaneAcc) : Nat := match l.ps with | x :: _ => x.va | [] => 0
def LaneAcc.xlat (l : LaneAcc) : Xlat := match l.ps with | x :: _ => x.x.getD default | [] => default

/-- Checks of one lane's pieces. -/
def checkPieces (s : State) (w : Who) (a : Acc) : List (Nat × Nat) → Except Raise (State × List Piece)
  | [] => .ok (s, [])
  | (va, n) :: r => do
    let (s, x) ← s.checkOne w { a with n := n } va
    let (s, ps) ← checkPieces s w a r
    return (s, ⟨va, n, x⟩ :: ps)
/-- The lanes after one: those of its line are served by its request (R156). -/
def shareLine (l : LaneAcc) (ls : List LaneAcc) : List LaneAcc :=
  ls.map fun m => if !m.absent && physOf m.xlat m.va / 128 == physOf l.xlat l.va / 128 then { m with again := true } else m
/-- Checks over every lane, in increasing position; the lowest faulting lane's fault is raised (R157). -/
def checkLanes (w : Who) (a : Acc) : List (Nat × Nat × List (Nat × Nat)) → State → Except Raise (State × List LaneAcc)
  | [], s => .ok (s, [])
  | (p, addr, ps) :: r, s =>
    match checkPieces s w a ps with
    | .error y => .error (if y.hold then y else { y with addr := BitVec.ofNat 64 addr, lane := p })
    | .ok (s, l) => do
      let (s, ls) ← checkLanes w a r s
      let l : LaneAcc := { p := p, addr := addr, ps := l }
      return (s, l :: if l.absent then ls else shareLine l ls)
/-- The accesses of the active lanes to global memory. -/
def globalLanes (o : MOp) (n : Nat) (s : State) (ps : List Nat) : List (Nat × Nat × List (Nat × Nat)) :=
  ps.map fun p => let a := addrOf o s p
                  (p, a, [(a, n)])
/-- The alignment or offset fault of a lane's `.pt` access (R157, R166). -/
def ptFault (o : MOp) (n : Nat) (s : State) (p : Nat) : Option Raise :=
  let a := addrOf o s p
  if a % n ≠ 0 then some { code := fAlign, addr := BitVec.ofNat 64 a, lane := p }
  else if a + n > 65536 then some { code := fProt, addr := BitVec.ofNat 64 a, sub := 4, lane := p }
  else none
/-- A lane's `.pt` access: each 4-byte word is a piece (R166). -/
def ptAcc (o : MOp) (n : Nat) (s : State) (p : Nat) : Nat × Nat × List (Nat × Nat) :=
  let a := addrOf o s p
  let cl := s.clOf p
  (p, a, if n = 8 then [(ptAddr s.cc cl a, 4), (ptAddr s.cc cl (a + 4), 4)] else [(ptAddr s.cc cl a, n)])
/-- The accesses of `.pt`, or the fault of the lowest lane whose alignment or offset is wrong. -/
def ptLanes (o : MOp) (n : Nat) (s : State) (ps : List Nat) : Except Raise (List (Nat × Nat × List (Nat × Nat))) :=
  match ps.findSome? (ptFault o n s) with
  | some y => .error y
  | none => .ok (ps.map (ptAcc o n s))
/-- Positions an M-family access is made at: the uniform one for a g data register, else the active ones. -/
def accessLanes (gd : Guard) (uni : Bool) (s : State) : List Nat :=
  if uni then (if (s.active gd).isEmpty then [] else [s.uniPos gd]) else s.active gd

/-- The accesses of a load or store. A lane below the first whose `.pt` offset is wrong raises its own fault first (R157). -/
def laneList (w : Who) (a : Acc) (o : MOp) (s : State) (ps : List Nat) : Except Raise (List (Nat × Nat × List (Nat × Nat))) :=
  let n := o.ty.width / 8
  if o.variant = 1 then
    match ptLanes o n s ps with
    | .ok l => .ok l
    | .error y => do
      discard (checkLanes w a ((ps.takeWhile fun p => (ptFault o n s p).isNone).map (ptAcc o n s)) s)
      .error y
  else .ok (globalLanes o n s ps)

/-! ### Scope actions (R162, R167, R176, R183, R293) -/

/-- Scope as a rank: 0 plain, 1 group, 2 cell, 3 die, 4 dev, 5 sys, 6 rcv; `.auto` is inferred at the address (R293). -/
def scopeRank (w : Who) (sc : Scope) (pa : Option Nat) (s : State) : State × Nat :=
  match sc, pa with
  | .auto, some pa => s.inferScope w pa
  | .auto, none => (s, 5)
  | sc, _ => (s, sc.code)
/-- Lines a bound variable limits an action to (R183). -/
def boundLines (w : Who) (pa : Option Nat) (s : State) : Option (List Nat) :=
  pa.bind fun a => (s.svOf w.ctx a).map fun e => s.guardLines w e
/-- The group writes a line of a recoverable page, which its next `.rcv` release covers (R167), or a host or peer line, which its next
release at `.sys` or `.rcv` sends on (R162). -/
def noteRcv (r : GRef) (t : Tag) (pa : Nat) (s : State) : State :=
  let s := if pa < 2 ^ 48 then s else
    s.modGroup r fun g => if g.farLines.contains (pa / 128) then g else { g with farLines := g.farLines ++ [pa / 128] }
  if !t.rcv then s else
  s.modGroup r fun g => if g.rcvLines.contains (pa / 128) then g else { g with rcvLines := g.rcvLines ++ [pa / 128] }
/-- Ground dies whose journals a `.rcv` release of the group needs: those that home its lines (R167). -/
def rcvDies (r : GRef) (s : State) : List Nat :=
  distinct (((s.group r).rcvLines.filter fun ln => 128 * ln < Config.hbm).map fun ln => stackOf (128 * ln))
/-- A `.rcv` release waits: a journal it needs is full (R167, R184), or some but not all dies have prepared a checkpoint of the context
(R301; log 123). -/
def rcvFull (r : GRef) (s : State) : Bool :=
  (rcvDies r s).any s.journalFull
  || (match Map.find (s.cell r.cell).ctx s.ckpts with | some k => !k.acks.isEmpty && k.acks.length < 12 | none => false)
/-- `.rcv` release of the group's own earlier writes to recoverable pages (R301): their lines reach HBM, and a release record with the
group's sequence number stands in the journal of each die that homes some (R167). On a bound variable, too, it takes every such line and not
only those of the guarded ranges (DEDUCED from R301, log 130). -/
def rcvRelease (r : GRef) (k : Nat) (s : State) : State :=
  let ls := (s.group r).rcvLines
  let s := ls.foldl (fun s ln => (s.wbL1 k ln).wbL2 ln) s
  let seq := (s.group r).rcvSeq
  let s := (rcvDies r s).foldl (fun s d => s.addJournal d fun g =>
    { g with rels := ⟨r.cell, r.grp, seq, ls.filter fun ln => stackOf (128 * ln) == d⟩ :: g.rels }) s
  s.modGroup r fun g => { g with rcvSeq := seq + 1, rcvLines := [] }
/-- The `.sys` part of a release: the host and peer lines that the group has written are sent on (R162), of a bound variable those in its
guarded ranges (R183); a write of its own that is lost at an unreachable peer is a late MEM_UNCORR of the group (R462). -/
def sysRelease (r : GRef) (only : Option (List Nat)) (s : State) : State :=
  let ls := (s.group r).farLines.filter fun ln => match only with | none => true | some l => l.contains ln
  let lost := ls.find? fun ln => s.unreachable (128 * ln) && (match s.l2Live ln with | some l => l.dirty != 0 | none => false)
  let s := ls.foldl (fun s ln => s.wbL2 ln) s
  let s := s.modGroup r fun g => { g with farLines := g.farLines.filter fun ln => !ls.contains ln }
  match lost with
  | some ln => s.lateFault r ⟨fMemUncorr, 0, BitVec.ofNat 64 (128 * ln), 0, (s.group r).handler, none⟩
  | none => s
/-- Release actions of a group at a rank, before its access. -/
def releaseActs (r : GRef) (w : Who) (rank : Nat) (only : Option (List Nat)) (s : State) : State :=
  let s := s.mergeGroup w.k r
  let s := if 3 ≤ rank then s.releaseL1 w.k only else s
  let s := if 5 ≤ rank then sysRelease r only s else s
  if rank = 6 then rcvRelease r w.k s else s
/-- What the caches do at an acquire of a rank. -/
def acquireCaches (w : Who) (rank : Nat) (only : Option (List Nat)) (s : State) : State :=
  let s := if 3 ≤ rank then s.acquireL1 w.k only else s
  if rank = 5 then s.acquireSys only else s
/-- Acquire actions at a rank, after the access. From `.cell` on the agent sees what Brush commands have landed (R297). -/
def acquireActs (w : Who) (rank : Nat) (only : Option (List Nat)) (s : State) : State :=
  acquireCaches w rank only (if 2 ≤ rank then s.settleLanded else s)
def isRel : Order → Bool | .rel | .ar => true | _ => false
def isAcq : Order → Bool | .acq | .ar => true | _ => false
/-- Physical addresses of the lanes, for actions that depend on the variable. -/
def lanePas (ls : List LaneAcc) : List Nat := distinct (ls.filterMap fun l => if l.absent then none else some (physOf l.xlat l.va))
/-- An `.auto` access enters its variable's participant set before it is performed, and earlier participants write back first where the
scope widens (R293). -/
def enterScope (w : Who) (sc : Scope) (ls : List LaneAcc) (s : State) : State :=
  if sc = .auto then (lanePas ls).foldl (fun s pa => (s.inferScope w pa).1) s else s
/-- The action for every address (each bound variable limits its own), or once where no address was accessed. -/
def releaseFor (w : Who) (sc : Scope) (ls : List LaneAcc) (s : State) : State :=
  (lanePas ls).foldl (fun s pa => let (s, k) := scopeRank w sc (some pa) s
                                  releaseActs s.cur w k (boundLines w (some pa) s) s) s
def acquireFor (w : Who) (sc : Scope) (ls : List LaneAcc) (s : State) : State :=
  (lanePas ls).foldl (fun s pa => let (s, k) := scopeRank w sc (some pa) s
                                  acquireActs w k (boundLines w (some pa) s) s) s
/-- The rank of the scope an access is performed at: at the home slice from `.die` on (R162). -/
def accRank (w : Who) (sc : Scope) (pa : Nat) (s : State) : Nat := (scopeRank w sc (some pa) s).2
/-- The tag of an access: one at `.sys` or `.rcv` is performed at the target of host and peer memory (R289). -/
def accTag (w : Who) (x : Xlat) (hint rank : Nat) (again : Bool) : Tag :=
  let t := tagOf w x hint
  { t with direct := t.direct || decide (5 ≤ rank), again := again }

/-! ### Worlds -/

def inRival (s : State) (c : Nat) : Bool := s.isRival (s.cell c).view
/-- The cell runs as a shadow copy (R370). -/
def inCopy (s : State) (c : Nat) : Bool := (s.cell c).view ≠ 0 && (s.view (s.cell c).view).use == 3
/-- Whether a refused kind of R359 is not performed: in a rival, or in a shadow copy. -/
def refuses (s : State) : Bool := inRival s s.cur.cell || inCopy s s.cur.cell
/-- A refused kind: WORLD_ESCAPE in a rival; it ends a shadow copy (R359, R370). -/
def refuse {α : Type} (s : State) (addr : Nat) (lane : Nat := 0) : Except Raise α :=
  if inCopy s s.cur.cell then .error { code := 0, endCopy := true } else fault fWorldEscape addr 0 lane
/-- An access at `.rcv` scope inside a world is refused (R170, R359). -/
def rcvCheck (o : MOp) (s : State) (addr : Nat) : Except Raise Unit :=
  if o.scope != .rcv || (s.active o.gd).isEmpty || !refuses s then .ok () else refuse s addr
/-- Its release waits while a journal it needs is full (R184; log 99). -/
def rcvWait (o : MOp) (s : State) : Except Raise Unit :=
  if o.scope != .rcv || (s.active o.gd).isEmpty || !rcvFull s.cur s then .ok () else holdHere
/-- Copies of a location an external or deferred operation acts on at once: the base, and each overlay between the view and
the base (R369). -/
def baseAndCopies (s : State) (w : Who) (va : Nat) (n : Nat) (v : Nat) : List Xlat :=
  match n with
  | 0 => []
  | n + 1 =>
    if v = 0 then
      match (s.translate w.k w.ctx 0 va).2 with | some x => [x] | none => []
    else
      let up := baseAndCopies s w va n (s.view v).parent
      match Map.find (va / 65536) (s.view v).overlay with
      | some o => up ++ [⟨o.leaf, 16, (s.arena (leafArena o.leaf)).gen, v, 0⟩]
      | none => up
/-- What happens to an external write or a deferred kind by the view it is made in (R359, R369, R370). -/
inductive Escapes where
  | perform (xs : List Xlat)
  | defer
  | suppress
deriving DecidableEq, Repr
/-- `kind` marks a deferred kind; any other write is external by R356 or in-view. -/
def writeClass (s : State) (w : Who) (va : Nat) (x : Xlat) (kind : Bool) : Escapes :=
  if w.view = 0 || !(kind || s.external w.ctx w.view va x.leaf) then .perform [x]
  else match (s.view w.view).use.toNat with
    | 0 => .defer
    | 3 => .suppress
    | _ => .perform (baseAndCopies s w va 64 w.view)
/-- The page of a view's escape queue: taken from the pool and charged to the view arena at the first entry (R360, R331). -/
def queuePage (s : State) (v addr lane : Nat) : Except Raise State :=
  let w := s.view v
  if w.queue.isSome then .ok s else
  match s.chargePages w.arena 1 with
  | none => fault fQuota addr 0 lane
  | some s => match s.takeFrames 1 with
    | none => fault fQuota addr 1 lane
    | some (f, s) => .ok (s.modView v fun w => { w with queue := some f })
/-- Append an escape entry to the view's queue: 64 at most (R360); a refusal reports `addr`. -/
def addEscapeAt (addr : Nat) (s : State) (v : Nat) (e : Esc) : Except Raise State := do
  let lane := if e.lane = 255 then 0 else e.lane
  if 64 ≤ (s.view v).escs.length then fault fWorldEscape addr 0 lane
  let s ← queuePage s v addr lane
  return s.modView v fun w => { w with escs := w.escs ++ [e] }
/-- The same, reporting the entry's address. -/
def addEscape (s : State) (v : Nat) (e : Esc) : Except Raise State := addEscapeAt e.addr.toNat s v e
def escOf (major : Nat) (o : MOp) (p addr : Nat) (data : List Nat) : Esc :=
  { op := major, sub := BitVec.ofNat 8 (o.variant.toNat * 16 + o.ty.code), mode := BitVec.ofNat 5 (o.scope.code * 4 + o.order.code),
    lane := p, addr := BitVec.ofNat 64 addr, data := data.map (BitVec.ofNat 64) }

/-! ### Shadow signatures (R437) -/

def crcByte (c : BitVec 64) (b : BitVec 8) : BitVec 64 :=
  (List.range 8).foldl (fun (c : BitVec 64) _ => if c.getLsbD 63 then (c <<< 1) ^^^ 0x42F0E1EBA9EA3693 else c <<< 1)
    (c ^^^ ((b.setWidth 64) <<< 56))
/-- Extend a CRC kept as its final value (the register exclusive-or all ones). -/
def crcBytes (c : BitVec 64) (bs : List (BitVec 8)) : BitVec 64 := ~~~(bs.foldl crcByte (~~~c))
/-- One record of the write stream of a shadowed cell. -/
def signWrite (r : GRef) (va : Nat) (bs : List (BitVec 8)) (s : State) : State :=
  match (s.cell r.cell).role with
  | .plain => s
  | _ => s.modGroup r fun g => { g with crc := crcBytes g.crc (leBytes 8 va ++ [BitVec.ofNat 8 bs.length] ++ bs) }

/-! ### Reading lanes -/

/-- Bytes of a lane's pieces, in order; poison reports the first physical address. -/
def readPieces (k : Nat) (w : Who) (hint rank : Nat) (again : Bool) : List Piece → State → State × List (BitVec 8) × Option Nat
  | [], s => (s, [], none)
  | q :: r, s =>
    let x := q.x.getD default
    let pa := physOf x q.va
    let (s, b, bad) := s.readPa k (accTag w x hint rank again) (decide (3 ≤ rank)) pa q.n
    let (s, bs, bad') := readPieces k w hint rank again r s
    (s, b ++ bs, if bad then some pa else bad')
/-- A load's result: the state, register writes, and the first poisoned address (R171, R173). -/
def readLanes (w : Who) (hint : Nat) (sc : Scope) (d : Dst) (t : Ty) (res : Nat) : List LaneAcc → State → State × List RegWrite × Option (Nat × Nat)
  | [], s => (s, [], none)
  | l :: r, s =>
    let flag := fun (b : Bool) => if res = 0 then [] else [RegWrite.p (s.clOf l.p) res b]
    if l.absent then
      let s := s.modStudio w.k fun st => { st with resmiss := satInc st.resmiss }
      let (s, ws, bad) := readLanes w hint sc d t res r s
      (s, s.lateWrite d t 0 l.p ++ flag true ++ ws, bad)
    else
      let (s, bs, bad) := readPieces w.k w hint (accRank w sc (physOf l.xlat l.va) s) l.again l.ps s
      let (s, ws, bad') := readLanes w hint sc d t res r s
      let v := if bad.isSome then 0 else leNat bs
      (s, s.lateWrite d t v l.p ++ flag false ++ ws, match bad with | some a => some (a, l.p) | none => bad')
/-- The type a memory element is written as: floating types as the integer of their width (R171). -/
def memTy (t : Ty) : Ty := if t.code < 8 then t else match t.width with | 8 => .n8 | 16 => .n16 | 64 => .n64 | _ => .n32
def memUncorr (s : State) (bad : Option (Nat × Nat)) : Option LateFault :=
  bad.map fun b => ⟨fMemUncorr, 0, BitVec.ofNat 64 b.1, b.2, s.cg.handler, none⟩
/-- Start the load's producer: destination empty, residency predicate pending, until it completes (R38, R171). -/
def finishLoad (d : Dst) (t : Ty) (res : Nat) (ws : List RegWrite) (bad : Option (Nat × Nat)) (s : State) : State :=
  s.produce { writes := ws, regs := dstRegs d t.width, pred := if res = 0 then none else some res, fault := memUncorr s bad, ckpt := none }
/-- Bytes of the replies to lanes' accesses: a line for each that nothing in the studio serves (log 57). -/
def replyBytes (served : Nat → Bool) (ls : List LaneAcc) : Nat :=
  128 * (State.distinct (ls.flatMap fun l => l.ps.filterMap fun q => q.x.bind fun x =>
    let ln := physOf x q.va / 128
    if served ln then none else some ln)).length
/-- Studio `k` has landing space for `n` bytes more (R396, R423). -/
def landRoom (k n : Nat) (s : State) : Bool := n = 0 || (s.studio k).landing + n ≤ 131072
/-- A request that expects a reply of `n` bytes is held until its studio has landing space for the whole of it (R423). -/
def waitRoom (n : Nat) (s : State) : Except Raise Unit := if landRoom s.ck n s then .ok () else holdHere
/-- The newest producer of the acting group waits for a reply of `n` bytes, for which its studio keeps landing space (R423). -/
def awaitReply (n : Nat) (s : State) : State :=
  if n = 0 then s else
  (s.modStudio s.ck fun st => { st with landing := st.landing + n }).modCg fun g =>
    { g with outs := g.outs.modify (g.outs.length - 1) fun p => { p with land := n } }

/-! ### Loads -/

/-- A load with g data reads once; its flag still goes to every active lane, and each lane flagged absent is counted (R105, R158,
R171). -/
def spreadFlag (o : MOp) (ls : List LaneAcc) (r : State × List RegWrite × Option (Nat × Nat)) : State × List RegWrite × Option (Nat × Nat) :=
  if !o.data.isG || o.res == 0 then r else
  match ls with
  | [] => r
  | l :: _ =>
    let s := r.1
    let ps := (s.active o.gd).filter (· ≠ l.p)
    let s' := if l.absent then s.modStudio s.ck fun st => { st with resmiss := ps.foldl (fun n _ => satInc n) st.resmiss } else s
    (s', r.2.1 ++ ps.map (fun p => RegWrite.p (s.clOf p) o.res.toNat l.absent), r.2.2)

/-- The lane reads an IO page. -/
def ioLane (l : LaneAcc) : Bool := !l.absent && leafKind l.xlat.leaf = 3
/-- R171 for global and per-thread memory. -/
def ldEffect (o : MOp) (s : State) : Except Raise State := do
  let w := s.whoOf s.cur.cell
  let n := o.ty.width / 8
  let ps := accessLanes o.gd o.data.isG s
  let a : Acc := { n := n, rd := true, wr := false, io := true, absorb := o.res != 0, home := wide o.scope }
  let lanes ← laneList w a o s ps
  let (s, ls) ← checkLanes w a lanes s
  match (if refuses s then ls.find? ioLane else none) with
  | some l => refuse s l.addr l.p
  | none =>
    let s := enterScope w o.scope ls s
    let t := memTy o.ty
    let n := replyBytes (fun ln => !wide o.scope && (s.l1Live w.k ln).isSome) ls
    waitRoom n s
    let (s, ws, bad) := spreadFlag o ls (readLanes w o.hint.toNat o.scope o.data t o.res.toNat ls s)
    let s := awaitReply n (finishLoad o.data t o.res.toNat ws bad s)
    return if isAcq o.order then acquireFor w o.scope ls s else s
def execLd (o : MOp) (s : State) : Host.Outcome State Fault Refusal := issue (.ld o) s (ldEffect o)

/-- What a physical line held when the launch of a task started, where the frame has not changed hands since (R172) and the line is poison
neither then nor now (R439). -/
def startLine (ticket : BitVec 64) (pa : Nat) (s : State) : Option (List (BitVec 8)) :=
  (s.task ticket).bind fun t =>
    let s0 := { s with mem := t.startMem, l2 := t.startL2, poison := t.startBad }
    if t.startOut.contains (pa / 65536) || s0.homeBad (pa / 128) || s.homeBad (pa / 128) then none else some (s0.homeLine (pa / 128))
/-- Fill a line into the read-only path of 256 lines (R148); with all taken one leaves, whichever the hardware picks. -/
def addRo (k ln : Nat) (l : Line) (s : State) : State :=
  let ro := (s.studio k).ro
  let s := if ro.length < 256 then s else
    match (ro.map Prod.fst)[s.pick ro.length]? with
    | some m => s.tick.modStudio k fun st => { st with ro := Map.del m st.ro }
    | none => s
  s.modStudio k fun st => { st with ro := Map.ins ln l st.ro }
/-- Fill a line into the read-only path from the home, which it also fills (R155, R163). -/
def fillRo (k : Nat) (t : Tag) (ln : Nat) (s : State) : State × List (BitVec 8) × Bool :=
  let s := s.mergeLine ln
  if s.homeBad ln then (s.bypass t ln, s.homeLine ln, true) else
  let s := s.fillL2 t ln
  let l := t.line (s.homeLine ln)
  (addRo k ln l s, l.data, false)
/-- Line of the read-only path at a physical address, filling it where it is not held (R172). -/
def roLine (k : Nat) (t : Tag) (pa : Nat) (s : State) : State × List (BitVec 8) × Bool :=
  match Map.find (pa / 128) (s.studio k).ro with
  | some l => if s.staleAt k l.arena l.gen then fillRo k t (pa / 128) s else (s, l.data, false)
  | none => fillRo k t (pa / 128) s
/-- The base page's address for an access through a view's copy: what the location was when the launch started. -/
def startPa (w : Who) (l : LaneAcc) (s : State) : Nat :=
  if l.xlat.tag = 0 then physOf l.xlat l.va else
  match s.walk (s.ctx w.ctx).root.toNat l.va with
  | some (leaf, sh, _) => physOf ⟨leaf, sh, 0, 0, 0⟩ l.va
  | none => physOf l.xlat l.va
/-- One lane's line of `ldc`: as the launch started, as the read-only path holds it, or fetched anew, whichever the hardware gives
(R172; log 83). -/
def ldcLine (w : Who) (hint : Nat) (l : LaneAcc) (s : State) : State × List (BitVec 8) × Bool :=
  let pa := physOf l.xlat l.va
  let old := startLine (s.cell w.cell).ticket (startPa w l s) s
  let i := s.pick 3
  let s := s.tick
  match (if i = 0 then old else none) with
  | some d => (s, d, false)
  | none =>
    let s := if i = 1 then s.modStudio w.k fun st => { st with ro := Map.del (pa / 128) st.ro } else s
    roLine w.k { tagOf w l.xlat hint with again := l.again } pa s
/-- Lanes of `ldc` (R172). -/
def ldcLanes (w : Who) (hint : Nat) (d : Dst) (t : Ty) (res n : Nat) : List LaneAcc → State → State × List RegWrite × Option (Nat × Nat)
  | [], s => (s, [], none)
  | l :: r, s =>
    let flag := fun (b : Bool) => if res = 0 then [] else [RegWrite.p (s.clOf l.p) res b]
    if l.absent then
      let s := s.modStudio w.k fun st => { st with resmiss := satInc st.resmiss }
      let (s, ws, bad) := ldcLanes w hint d t res n r s
      (s, s.lateWrite d t 0 l.p ++ flag true ++ ws, bad)
    else
      let pa := physOf l.xlat l.va
      let (s, data, bad) := ldcLine w hint l s
      let v := if bad then 0 else leNat ((data.drop (pa % 128)).take n)
      let (s, ws, bad') := ldcLanes w hint d t res n r s
      (s, s.lateWrite d t v l.p ++ flag false ++ ws, if bad then some (pa, l.p) else bad')
/-- R172. An absent page gives zero whether or not a predicate takes the flag (R158); in a rival an IO page is refused (R359). -/
def ldcEffect (o : MOp) (s : State) : Except Raise State := do
  let w := s.whoOf s.cur.cell
  let n := o.ty.width / 8
  let a : Acc := { n := n, rd := true, wr := false, absorb := true, io := refuses s }
  let (s, ls) ← checkLanes w a (globalLanes o n s (accessLanes o.gd o.data.isG s)) s
  match ls.find? ioLane with
  | some l => refuse s l.addr l.p
  | none =>
    let t := memTy o.ty
    let m := replyBytes (fun ln => (Map.find ln (s.studio w.k).ro).isSome) ls
    waitRoom m s
    let (s, ws, bad) := spreadFlag o ls (ldcLanes w o.hint.toNat o.data t o.res.toNat n ls s)
    return awaitReply m (finishLoad o.data t o.res.toNat ws bad s)
def execLdc (o : MOp) (s : State) : Host.Outcome State Fault Refusal := issue (.ldc o) s (ldcEffect o)

/-- Checks of a private space of `size` bytes (R164, R165): alignment, then the offset. -/
def privCheck (size n a p : Nat) : Except Raise Unit :=
  if a % n ≠ 0 then fault fAlign a 0 p else if size < a + n then fault fProt a 4 p else .ok ()
/-- Write bytes of the cell's scratchpad; `seq` numbers the write for the operand windows of R276, where a batch is declared. -/
def Cell.putScratch (c : Cell) (seq a : Nat) (bs : List (BitVec 8)) : Cell :=
  { c with scratch := Map.setBytes c.scratch a bs,
           scrLog := if c.cvs.isEmpty && c.cvFired.isEmpty && c.watch.isEmpty && c.savedWatch.isEmpty then [] else
             (seq, a, bs.length) :: c.scrLog.filter fun x => x.2 != (a, bs.length) }
/-- Byte address of a lane in the cell's lane-store table. -/
def lsAddr (cl a : Nat) : Nat := 2048 * cl + a
/-- Passes of a scratchpad access (R164): the most distinct 4-byte words that its lanes request from one of the 32 banks. -/
def passes (n : Nat) (offs : List Nat) : Nat :=
  let ws := State.distinct (offs.flatMap fun a => (List.range ((n + 3) / 4)).map (a / 4 + ·))
  (List.range 32).foldl (fun m b => max m (ws.filter fun w => w % 32 == b).length) 0
/-- Passes beyond the first count as event 0x04 (R313). -/
def countPasses (n : Nat) (offs : List Nat) (s : State) : State := s.perf s.ck s.cc.ctx 4 (passes n offs - 1)
/-- R171 on scratchpad. An acquire at `.grp` or `.cell` needs no action beyond order (R164, R294). -/
def ldsEffect (o : MOp) (s : State) : Except Raise State := do
  let n := o.ty.width / 8
  let ps := accessLanes o.gd o.data.isG s
  ps.forM fun p => privCheck s.cc.scratchSz n (addrOf o s p) p
  let s := countPasses n (ps.map (addrOf o s)) s
  let t := memTy o.ty
  let ws := ps.flatMap fun p => s.lateWrite o.data t (leNat (Map.bytes s.cc.scratch (addrOf o s p) n)) p
  return finishLoad o.data t 0 ws none s
def execLds (o : MOp) (s : State) : Host.Outcome State Fault Refusal := issue (.lds o) s (ldsEffect o)
/-- R171 on the lane store. -/
def ldlEffect (o : MOp) (s : State) : Except Raise State := do
  let n := o.ty.width / 8
  let ps := s.active o.gd
  ps.forM fun p => privCheck s.cc.lstoreSz n (addrOf o s p) p
  let t := memTy o.ty
  let ws := ps.flatMap fun p => s.lateWrite o.data t (leNat (Map.bytes s.cc.lstore (lsAddr (s.clOf p) (addrOf o s p)) n)) p
  return finishLoad o.data t 0 ws none s
def execLdl (o : MOp) (s : State) : Host.Outcome State Fault Refusal := issue (.ldl o) s (ldlEffect o)

/-! ### Stores -/

/-- The w-bit value a store's data operand gives (R174). -/
def storeValue (o : MOp) (s : State) (p : Nat) : Nat :=
  match o.data with
  | .v i => s.src 3 (.v i false) o.ty.width p
  | .g i => s.src 3 (.g i false) o.ty.width p
  | .t i => s.src 3 (.t i) o.ty.width p
/-- Write a lane's bytes over its pieces at one translation each. -/
def writePieces (w : Who) (hint rank : Nat) (again : Bool) : List (Nat × Nat × Xlat) → List (BitVec 8) → State → State
  | [], _, s => s
  | (va, n, x) :: r, bs, s =>
    let t := accTag w x hint rank again
    writePieces w hint rank again r (bs.drop n)
      (noteRcv s.cur t (physOf x va) (s.writePa w.k t (decide (3 ≤ rank)) (physOf x va) (bs.take n)))
/-- One lane's store, by its class (R356). -/
def storeLane (w : Who) (o : MOp) (l : LaneAcc) (v : Nat) (s : State) : Except Raise State := do
  let bs := leBytes (o.ty.width / 8) v
  let s := signWrite s.cur l.va bs s
  let put := writePieces w o.hint.toNat (accRank w o.scope (physOf l.xlat l.va) s) l.again
  match writeClass s w l.va l.xlat false with
  | .defer => addEscape s w.view (escOf 0x81 o l.p l.va [v])
  | .suppress => return s
  | .perform [_] => return put (l.ps.map fun q => (q.va, q.n, q.x.getD default)) bs s
  | .perform xs => return xs.foldl (fun s x => put [(l.va, bs.length, x)] bs s) s
/-- R174 for global and per-thread memory: checks, release actions, then the lanes in increasing order. -/
def stEffect (o : MOp) (s : State) : Except Raise State := do
  let w := s.whoOf s.cur.cell
  let n := o.ty.width / 8
  let ps := s.active o.gd
  rcvCheck o s ((ps.map (addrOf o s)).headD 0)
  let a : Acc := { n := n, rd := false, wr := true, io := true, home := wide o.scope }
  let lanes ← laneList w a o s ps
  let vals := ps.map fun p => storeValue o s p
  let (s, ls) ← checkLanes w a lanes s
  rcvWait o s
  let s := enterScope w o.scope ls s
  let s := if isRel o.order then releaseFor w o.scope ls s else s
  (ls.zip vals).foldlM (fun s x => storeLane w o x.1 x.2 s) s
def execSt (o : MOp) (s : State) : Host.Outcome State Fault Refusal := issue (.st o) s (stEffect o)
/-- R174 on scratchpad. A release at any scope merges the group's accumulation buffers (R176). -/
def stsEffect (o : MOp) (s : State) : Except Raise State := do
  let n := o.ty.width / 8
  let ps := s.active o.gd
  ps.forM fun p => privCheck s.cc.scratchSz n (addrOf o s p) p
  let ws := ps.map fun p => (addrOf o s p, leBytes n (storeValue o s p))
  let s := countPasses n (ws.map Prod.fst) s
  let s := if isRel o.order then s.mergeGroup s.ck s.cur else s
  return s.modCc fun c => ws.foldl (fun c x => c.putScratch s.fresh x.1 x.2) c
def execSts (o : MOp) (s : State) : Host.Outcome State Fault Refusal := issue (.sts o) s (stsEffect o)
/-- R174 on the lane store. -/
def stlEffect (o : MOp) (s : State) : Except Raise State := do
  let n := o.ty.width / 8
  let ps := s.active o.gd
  ps.forM fun p => privCheck s.cc.lstoreSz n (addrOf o s p) p
  let ws := ps.map fun p => (lsAddr (s.clOf p) (addrOf o s p), leBytes n (storeValue o s p))
  return s.modCc fun c => { c with lstore := ws.foldl (fun m x => Map.setBytes m x.1 x.2) c.lstore }
def execStl (o : MOp) (s : State) : Host.Outcome State Fault Refusal := issue (.stl o) s (stlEffect o)

/-! ### Atomics and reductions -/

/-- One lane's atomic at home: the new state, the old value, and a poisoned address. A `cas` that fails writes the old value back. -/
def atomLane (w : Who) (o : MOp) (again : Bool) (x : Xlat) (va v new : Nat) (s : State) : State × Nat × Option Nat :=
  let n := o.ty.width / 8
  let pa := physOf x va
  let t := accTag w x o.hint.toNat 5 again
  let (s, bs, bad) := s.rmwAt w.k t pa n fun bs => leBytes n (atomOp o.variant.toNat o.ty (leNat bs) v new)
  if bad then (s, 0, some pa) else (noteRcv s.cur t pa s, leNat bs, none)
/-- Lanes in increasing order (R175). -/
def atomLanes (w : Who) (o : MOp) : List (LaneAcc × Nat × Nat) → State → State × List RegWrite × Option (Nat × Nat)
  | [], s => (s, [], none)
  | (l, v, new) :: r, s =>
    let n := o.ty.width / 8
    let xs := match writeClass s w l.va l.xlat false with | .perform xs => xs | _ => []
    -- the value returned is the base's, for an external location; a suppressed one reads and writes nothing
    let (s, old, bad) := match xs with
      | [] => let (s, bs, bad) := s.readPa w.k (tagOf w l.xlat o.hint.toNat) true (physOf l.xlat l.va) n
              (s, leNat bs, if bad then some (physOf l.xlat l.va) else none)
      | x :: rest => let (s, old, bad) := atomLane w o l.again x l.va v new s
                     (rest.foldl (fun s y => (atomLane w o l.again y l.va v new s).1) s, old, bad)
    let s := signWrite s.cur l.va (leBytes n (atomOp o.variant.toNat o.ty old v new)) s
    let (s, ws, bad') := atomLanes w o r s
    (s, s.lateWrite o.data (memTy o.ty) old l.p ++ ws, match bad with | some a => some (a, l.p) | none => bad')
/-- R175. -/
def atomEffect (o : MOp) (s : State) : Except Raise State := do
  let w := s.whoOf s.cur.cell
  let n := o.ty.width / 8
  let i := o.data.vIdx
  let wide := o.ty.width = 64
  let get := fun p j => s.src 3 (.v (BitVec.ofNat 8 j) false) o.ty.width p
  let vals := (s.active o.gd).map fun p => (get p i, if o.variant = 7 then get p (if wide then i + 2 else i + 1) else 0)
  let (s, ls) ← checkLanes w { n := n, rd := true, wr := true, io := refuses s, home := true } (globalLanes o n s (s.active o.gd)) s
  match (if refuses s then ls.find? fun l => s.external w.ctx w.view l.va l.xlat.leaf else none) with
  | some l => refuse s l.addr l.p
  | none =>
    waitRoom (replyBytes (fun _ => false) ls) s
    let s := enterScope w o.scope ls s
    let s := if isRel o.order then releaseFor w o.scope ls s else s
    let (s, ws, bad) := atomLanes w o (ls.zip vals) s
    let s := awaitReply (replyBytes (fun _ => false) ls) (finishLoad o.data (memTy o.ty) 0 ws bad s)
    return if isAcq o.order then acquireFor w o.scope ls s else s
def execAtom (o : MOp) (s : State) : Host.Outcome State Fault Refusal := issue (.atom o) s (atomEffect o)

/-- Put one application into the studio's accumulation buffer of its line and operation (R176). With 32 held the line of the oldest
gives way, all its buffers together, so that one lane's applications to a location keep their order (log 84). -/
def bufferRed (k op : Nat) (a : RedApp) (s : State) : State :=
  let key : RedBuf → Bool := fun b => b.line == a.pa / 128 && b.op == op
  if (s.studio k).reds.any key then
    s.modStudio k fun st => { st with reds := st.reds.map fun b => if key b then { b with apps := b.apps ++ [a] } else b }
  else
    let s := match (s.studio k).reds with
      | b :: _ => if 32 ≤ (s.studio k).reds.length then s.mergeReds k fun c => c.line == b.line else s
      | [] => s
    s.modStudio k fun st => { st with reds := st.reds ++ [⟨a.pa / 128, op, [a]⟩] }
/-- One application of a `red`: accumulated on RC and UO pages, else straight at the home slice (R176). The studio's own copy of the line
gives way, since the value stands at home. A poisoned word is left as it is and reported (R439, R173). -/
def reduceAt (r : GRef) (w : Who) (o : MOp) (x : Xlat) (va v : Nat) (s : State) : State :=
  let pa := physOf x va
  let n := o.ty.width / 8
  let t := tagOf w x o.hint.toNat
  let k := leafKind x.leaf
  let s := noteRcv r t pa s
  if (k = 1 || k = 2) && leafCache x.leaf ≠ 2 then
    let s := ((s.wbL1 w.k (pa / 128)).dropL1 w.k (pa / 128)).fireIn (pa / 128) w.k
    bufferRed w.k o.variant.toNat { seq := s.fresh, pa := pa, val := BitVec.ofNat 64 v, ty := o.ty, ctx := w.ctx, arena := t.arena, gen := t.gen,
                                    view := t.view, rcv := t.rcv, l2 := t.l2, rank := t.rank, cell := r.cell, grp := r.grp, handler := (s.group r).handler } s.tick
  else
    let (s, _, bad) := s.rmwAt w.k t pa n fun bs => leBytes n (atomOp o.variant.toNat o.ty (leNat bs) v 0)
    if bad then s.lateFault r ⟨fMemUncorr, 0, BitVec.ofNat 64 pa, 0, (s.group r).handler, none⟩ else s
/-- One lane's reduction by its class: a deferred kind in a view (R356). -/
def redLane (w : Who) (o : MOp) (l : LaneAcc) (v : Nat) (s : State) : Except Raise State := do
  let s := signWrite s.cur l.va (leBytes (o.ty.width / 8) v) s
  match writeClass s w l.va l.xlat true with
  | .defer => addEscape s w.view (escOf 0x88 o l.p l.va [v])
  | .suppress => return s
  | .perform xs => return xs.foldl (fun s x => reduceAt s.cur w o x l.va v s) s
/-- R176. In a view the copy of the page is not made: the operation acts on the locations R369 names. -/
def redEffect (o : MOp) (s : State) : Except Raise State := do
  let w := s.whoOf s.cur.cell
  let n := o.ty.width / 8
  let vals := (s.active o.gd).map fun p => storeValue o s p
  let (s, ls) ← checkLanes w { n := n, rd := true, wr := true, kind := true } (globalLanes o n s (s.active o.gd)) s
  let s := enterScope w o.scope ls s
  let s := if isRel o.order then releaseFor w o.scope ls s else s
  (ls.zip vals).foldlM (fun s x => redLane w o x.1 x.2 s) s
def execRed (o : MOp) (s : State) : Host.Outcome State Fault Refusal := issue (.red o) s (redEffect o)

/-- R177: release actions, then acquire actions. -/
def fenceEffect (o : MOp) (s : State) : Except Raise State := do
  if (s.active o.gd).isEmpty then return s
  rcvCheck o s 0
  rcvWait o s
  let w := s.whoOf s.cur.cell
  let (s, k) := scopeRank w o.scope none s
  let s := if isRel o.order then releaseActs s.cur w k none s else s
  return if isAcq o.order then acquireActs w k none s else s
def execFence (o : MOp) (s : State) : Host.Outcome State Fault Refusal := issue (.fence o) s (fenceEffect o)

end Sys2Proof.Machine
end

