-- ==== Sys2Proof/Machine/Records.lean ====
section
/-! DEFINITION. Records that instructions and engines read from global memory as plain loads (R157, R171). -/
namespace Sys2Proof.Machine
open Sys2Proof State

/-- A range in chunks of at most `step` bytes. -/
def chunks (step : Nat) : Nat → Nat → Nat → List (Nat × Nat)
  | 0, _, _ => []
  | n + 1, va, len => if len = 0 then [] else (va, Nat.min step len) :: chunks step n (va + step) (len - step)
/-- Read `len` bytes at a virtual address as plain loads of the cell in its view; `io` accepts an IO page. Poisoned data raises
MEM_UNCORR with its physical address. -/
def readVa (w : Who) (io : Bool) (step va len : Nat) (s : State) : Except Raise (State × List (BitVec 8)) :=
  (chunks step len (va % 2 ^ 57) len).foldlM (fun (x : State × List (BitVec 8)) q => do
    match ← x.1.checkOne w { n := 1, rd := true, wr := false, io := io } q.1 with
    | (_, none) => fault fPageAbsent q.1
    | (s, some t) =>
      let pa := physOf t q.1
      let (s, b, bad) := s.readPa w.k (tagOf w t 0) false pa q.2
      if bad then fault fMemUncorr pa
      return (s, x.2 ++ b)) (s, [])
/-- A record aligned to `al`, which is its chunk. -/
def readRecord (w : Who) (al va len : Nat) (s : State) : Except Raise (State × List (BitVec 8)) := do
  let va := va % 2 ^ 57
  if va % al ≠ 0 then fault fAlign va
  readVa w false al va len s
/-- Pieces of a range that cross no 64-byte boundary; `n` bounds their number. -/
def lineChunks : Nat → Nat → Nat → List (Nat × Nat)
  | 0, _, _ => []
  | n + 1, va, len =>
    if len = 0 then [] else
    let k := Nat.min len (64 - va % 64)
    (va, k) :: lineChunks n (va + k) (len - k)
/-- Read a range of any alignment as plain loads of a cell; the pages' IO kind is refused. -/
def readRange (w : Who) (va len : Nat) (s : State) : Except Raise (State × List (BitVec 8)) :=
  (lineChunks (len + 1) (va % 2 ^ 57) len).foldlM (fun (x : State × List (BitVec 8)) q => do
    let (s, b) ← readVa w false 64 q.1 q.2 x.1
    return (s, x.2 ++ b)) (s, [])
/-- Bytes of a group's store at one translation of their address. -/
def putAt (r : GRef) (w : Who) (home : Bool) (va : Nat) (bs : List (BitVec 8)) (s : State) (x : Xlat) : State :=
  noteRcv r (tagOf w x 0) (physOf x va) (s.writePa w.k (tagOf w x 0) home (physOf x va) bs)
/-- A deferred store of bytes, as one escape entry for each 8 of them (R359, R360; log 104). -/
def deferBytes (w : Who) (va : Nat) (bs : List (BitVec 8)) (s : State) : Except Raise State :=
  (chunks 8 bs.length va bs.length).foldlM (fun s q =>
    addEscape s w.view { op := 0x81, sub := BitVec.ofNat 8 Ty.n64.code, mode := 0, lane := 255, addr := BitVec.ofNat 64 q.1,
                         data := [BitVec.ofNat 64 (leNat ((bs.drop (q.1 - va)).take q.2))] }) s
/-- Write bytes at a virtual address as plain stores of the cell in its view, checked chunk by chunk; on an external page by the class of
the write (R356, R359, R369). -/
def writeVa (w : Who) (step va : Nat) (bs : List (BitVec 8)) (s : State) : Except Raise State :=
  (chunks step bs.length (va % 2 ^ 57) bs.length).foldlM (fun s q => do
    match ← s.checkOne w { n := 1, rd := false, wr := true } q.1 with
    | (_, none) => fault fPageAbsent q.1
    | (s, some t) =>
      let b := (bs.drop (q.1 - va % 2 ^ 57)).take q.2
      match writeClass s w q.1 t false with
      | .perform xs => return xs.foldl (putAt s.cur w false q.1 b) s
      | .suppress => return s
      | .defer => deferBytes w q.1 b s) s
/-- Bytes `i`.. of a record as a number of `n` bytes. -/
def field (r : List (BitVec 8)) (i n : Nat) : Nat := leNat ((r.drop i).take n)
def zeroAt (r : List (BitVec 8)) (i n : Nat) : Bool := field r i n == 0

end Sys2Proof.Machine
end

