-- ==== Sys2Proof/Machine/MemCtl.lean ====
section
/-! DEFINITION. Prefetch, residency requests, write-back, pins, instruction-cache control, monitors and bindings (R178-R183). -/
namespace Sys2Proof.Machine
open Sys2Proof State

/-- An operation that a rival refuses (R359): nothing performed, TRAPADDR the address of the lowest active lane. -/
def rivalRefuses (gd : Guard) (addr : Nat → Nat) (s : State) : Except Raise Unit :=
  match s.active gd with
  | p :: _ => if refuses s then refuse s (addr p) p else .ok ()
  | [] => .ok ()
/-- Checks of a line operation: no R, W or X permission, no IO page. -/
def lineAcc (n : Nat) (rd : Bool) : Acc := { n := n, rd := rd, wr := false }
/-- The active lanes of a per-lane line operation. -/
def lineLanes (o : MOp) (s : State) : List (Nat × Nat × List (Nat × Nat)) := globalLanes o 1 s (s.active o.gd)
/-- The one access of a uniform line operation. -/
def uniLanes (o : MOp) (n : Nat) (s : State) : List (Nat × Nat × List (Nat × Nat)) := globalLanes o n s (accessLanes o.gd true s)
def lineOf (l : LaneAcc) : Nat := physOf l.xlat l.va / 128

/-- `pf` of one lane: a lane that would fault, or whose page is migrating or absent, is dropped once it has been translated (R156,
R178). No region is checked (R338). -/
def pfLane (w : Who) (hint : Nat) (s : State) (va : Nat) : State :=
  let s := (s.translate w.k w.ctx w.view va).1
  match s.checkOne w { lineAcc 1 true with region := false } va with
  | .ok (s, some x) => (s.readAt w.k (tagOf w x hint) false (physOf x va) 1).1
  | _ => s
/-- R178: one request per line (R156). -/
def execPf (o : MOp) (s : State) : Host.Outcome State Fault Refusal :=
  issueOk (.pf o) s fun s =>
    (distinct ((s.active o.gd).map fun p => addrOf o s p / 128 * 128)).foldl (pfLane (s.whoOf s.cur.cell) o.hint.toNat) s

/-- The leaf of the absent page an address lies in, as the view maps it, after the checks of R157; none where the page is resident or
migrating already. -/
def absentLeaf (w : Who) (va : Nat) (s : State) : Except Raise (State × Option Nat) :=
  match s.translate w.k w.ctx w.view va with
  | (s, none) => .error (s.walkFault w va)
  | (s, some x) =>
    match s.accessFault w { n := 1, rd := false, wr := false, absorb := true } va x with
    | some y => if y.hold then .ok (s, none) else .error y
    | none => .ok (s, if leafRes x.leaf = 2 then some x.leafAt else none)
/-- One lane's request (R178). -/
def requestLane (w : Who) (o : MOp) (s : State) (p : Nat) : Except Raise State :=
  match absentLeaf w (addrOf o s p) s with
  | .error y => .error { y with lane := p }
  | .ok (s, none) => .ok s
  | .ok (s, some a) => .ok (s.modModule fun m => { m with requests := Map.ins a true m.requests })
/-- R178: the launch controller is asked; the service begins with MIGRATION_BEGIN. -/
def execRqpage (o : MOp) (s : State) : Host.Outcome State Fault Refusal :=
  issue (.rqpage o) s fun s => (s.active o.gd).foldlM (requestLane (s.whoOf s.cur.cell) o) s

/-- A line operation over the active lanes' lines. -/
def eachLine (o : MOp) (f : State → Nat → State) (s : State) : Except Raise State := do
  let (s, ls) ← checkLanes (s.whoOf s.cur.cell) (lineAcc 1 false) (lineLanes o s) s
  return (distinct (ls.map lineOf)).foldl f s
/-- R179. -/
def execCwbL2 (o : MOp) (s : State) : Host.Outcome State Fault Refusal :=
  issue (.cwbL2 o) s fun s => eachLine o (fun s ln => s.wbL1 s.ck ln) s
/-- R179. -/
def execCwbMem (o : MOp) (s : State) : Host.Outcome State Fault Refusal :=
  issue (.cwbMem o) s fun s => eachLine o (fun s ln => (s.wbL1 s.ck ln).wbL2 ln) s
/-- R179. -/
def execCinv (o : MOp) (s : State) : Host.Outcome State Fault Refusal :=
  issue (.cinv o) s fun s => eachLine o (fun s ln => (s.wbL1 s.ck ln).dropL1 s.ck ln) s

/-- Fill and pin one lane's line, poison too (R439); true where the pin is refused (R163, R180). -/
def pinLane (w : Who) (l : LaneAcc) (s : State) : State × Bool :=
  let ln := lineOf l
  if s.setPinned ln then (s, true) else
  let t := { tagOf w l.xlat 0 with l1 := false, l2 := true, again := l.again }
  let s := (s.readAt w.k t true (128 * ln) 1).1.fillL2 t ln
  ({ s with l2 := Map.upd ln (fun x => { x with pin := true, ctx := w.ctx }) s.l2 }, false)
def pinLanes (w : Who) (pn : Nat) : List LaneAcc → State → State × List RegWrite
  | [], s => (s, [])
  | l :: r, s =>
    let (s, no) := pinLane w l s
    let (s, ws) := pinLanes w pn r s
    (s, if pn = 0 then ws else RegWrite.p (s.clOf l.p) pn no :: ws)
/-- R180. The flags in pN are pending until they arrive, as a residency load's are (R37, R38; log 101). -/
def execCpin (o : MOp) (s : State) : Host.Outcome State Fault Refusal :=
  issue (.cpin o) s fun s => do
    rivalRefuses o.gd (addrOf o s) s
    let w := s.whoOf s.cur.cell
    let (s, ls) ← checkLanes w (lineAcc 1 true) (lineLanes o s) s
    let (s, ws) := pinLanes w o.res.toNat ls s
    return if o.res = 0 then s else s.produce { writes := ws, regs := [], pred := some o.res.toNat, fault := none, ckpt := none }
/-- R180. -/
def execCunpin (o : MOp) (s : State) : Host.Outcome State Fault Refusal :=
  issue (.cunpin o) s fun s => do
    rivalRefuses o.gd (addrOf o s) s
    eachLine o (fun s ln => { s with l2 := Map.upd ln (fun x => { x with pin := false }) s.l2 }) s

/-- R181: the line leaves the studio's instruction cache at once. -/
def execIcinv (o : MOp) (s : State) : Host.Outcome State Fault Refusal :=
  issue (.icinv o) s fun s => do
    let (s, ls) ← checkLanes (s.whoOf s.cur.cell) (lineAcc 1 false) (uniLanes o 1 s) s
    return s.modStudio s.ck fun st => { st with icache := ls.foldl (fun m l => Map.del (physOf l.xlat l.va / 64) m) st.icache }
/-- R181: every earlier `icinv` has completed at its issue, and every fetch reads the instruction cache anew (log 47). -/
def execFetchbar (o : MOp) (s : State) : Host.Outcome State Fault Refusal := issueOk (.fetchbar o) s id

/-- R182. -/
def execMonarm (o : MOp) (s : State) : Host.Outcome State Fault Refusal :=
  issue (.monarm o) s fun s => do
    let (s, ls) ← checkLanes (s.whoOf s.cur.cell) (lineAcc 1 false) (uniLanes o 1 s) s
    return match ls with
      | l :: _ => s.modCg fun g => { g with mon := some (lineOf l), fired := false }
      | [] => s
/-- R182: waits while the monitor is armed and not fired, else disarms and goes on. -/
def execMonwait (o : MOp) (s : State) : Host.Outcome State Fault Refusal :=
  issueWith (.monwait o) s fun s =>
    if (s.active o.gd).isEmpty then .ok (s, .seq)
    else if s.cg.mon.isSome && !s.cg.fired then .ok (s, .wait .monitor)
    else .ok (s.modCg fun g => { g with mon := none, fired := false }, .seq)

/-- Synchronisation variable entries of a die. -/
def svTable (s : State) (d : Nat) : List SvEntry := Map.getD s.svs d []
/-- Add a range to a variable's entry, creating the entry (R183): the ninth range of a variable and a full table raise REGION. -/
def bindRange (c pa va base len : Nat) (s : State) : Except Raise State := do
  let d := s.svDie pa
  let tab := svTable s d
  match s.svOf c pa with
  | some e =>
    if 8 ≤ e.ranges.length then fault fRegion va
    return { s with svs := Map.ins d (tab.map fun x => if x == e then { e with ranges := e.ranges ++ [(base, len / 128)] } else x) s.svs }
  | none =>
    if 4096 ≤ tab.length then fault fRegion va
    return { s with svs := Map.ins d (tab ++ [⟨c, pa / 16 * 16, 0, 0, false, [(base, len / 128)]⟩]) s.svs }
/-- R183. A length above 2^32, and a base of 2^57 or more, raise ALIGN too (log 48); TRAPADDR holds the base or the length (log 87). -/
def execSvbind (o : MOp) (s : State) : Host.Outcome State Fault Refusal :=
  issue (.svbind o) s fun s => do
    rivalRefuses o.gd (addrOf o s) s
    let base := (s.gdst o.data).toNat
    let len := match o.data with | .g i => (s.gval (i + 1)).toNat | _ => 0
    require (base % 128 = 0 && base < 2 ^ 57) fAlign base
    require (len % 128 = 0 && len ≠ 0 && len ≤ 2 ^ 32) fAlign len
    let w := s.whoOf s.cur.cell
    let (s, ls) ← checkLanes w (lineAcc 16 false) (uniLanes o 16 s) s
    match ls with
    | [] => return s
    | l :: _ =>
      bindRange w.ctx (physOf l.xlat l.va) l.va base len s
/-- R183. -/
def execSvunbind (o : MOp) (s : State) : Host.Outcome State Fault Refusal :=
  issue (.svunbind o) s fun s => do
    rivalRefuses o.gd (addrOf o s) s
    let w := s.whoOf s.cur.cell
    let (s, ls) ← checkLanes w (lineAcc 16 false) (uniLanes o 16 s) s
    return match ls with
      | [] => s
      | l :: _ =>
        let pa := physOf l.xlat l.va
        let d := s.svDie pa
        { s with svs := Map.ins d ((svTable s d).filter fun e => !(e.ctx == w.ctx && e.var == pa / 16 * 16)) s.svs }

end Sys2Proof.Machine
end

