-- ==== Sys2Proof/Machine/Tables.lean ====
section
/-! DEFINITION. Page tables and the arena tree as the hardware and the launch controller change them: shoot-downs,
splintering, mapping, arena creation, drop points, sweeps (R159, R160, R327-R336, R346). -/
namespace Sys2Proof.Machine
open Sys2Proof State

/-- Start a shoot-down of a range of a context's translations (R160 steps 3 to 5): every studio and die TLB acknowledges. -/
def startShoot (c base len : Nat) (frames : List Nat) (s : State) : State × Nat :=
  let id := s.fresh
  ({ s.tick with shoots := s.shoots ++ [⟨id, c, base, len, List.range 192 ++ (List.range 4).map unitDie, frames, none⟩] }, id)
/-- Leaf `i` of the table that replaces a large leaf: the same fields, the next smaller size, the frame advanced (R159). -/
def splinterLeaf (leaf : BitVec 64) (shift i : Nat) : BitVec 64 :=
  let small := if shift = 34 then 25 else 16
  let sz := if small = 25 then 1 else 0
  let l := leaf.toNat
  BitVec.ofNat 64 (l - bits l 11 10 * 1024 + sz * 1024 + i * 2 ^ small)
/-- Replace the large leaf at `at'` by a table in a new frame; the pointer is written last (R159). -/
def splinter (leaf : BitVec 64) (shift at' : Nat) (s : State) : Except Raise State := do
  let some (f, s) := s.takeFrames 1 | fault fQuota 0 1
  let s := s.zeroFrame f
  let s := (List.range 512).foldl (fun s i => s.setLeafAt (f * 65536 + 8 * i) (splinterLeaf leaf shift i)) s
  return s.setLeafAt at' (BitVec.ofNat 64 (f * 65536 + 1))

/-! ### Mapping (R346) -/

/-- Install a leaf at a level, building the tables on the way; none where the pool has no frame or a leaf stands in the way. -/
def installLeaf (leaf : BitVec 64) (table : Nat) : List Nat → State → Option State
  | [], _ => none
  | [ix], s => some (s.setLeafAt (table + 8 * ix) leaf)
  | ix :: r, s =>
    let e := s.pte table ix
    if leafBit e 0 then (if leafBit e 1 then none else installLeaf leaf (bits e.toNat 51 12 * 4096) r s)
    else match s.takeFrames 1 with
      | none => none
      | some (f, s) => installLeaf leaf (f * 65536) r ((s.zeroFrame f).setLeafAt (table + 8 * ix) (BitVec.ofNat 64 (f * 65536 + 1)))
/-- Table indices of an address down to the level of a 64 KiB or a 32 MiB leaf. -/
def tableIdx (va : Nat) (big : Bool) : List Nat :=
  [bits va 56 52, bits va 51 43, bits va 42 34, bits va 33 25] ++ (if big then [] else [bits va 24 16])
/-- The leaf `aralloc` maps (R346): RC, cached, R and W, resident. -/
def arenaLeaf (a frame : Nat) (big : Bool) : BitVec 64 :=
  BitVec.ofNat 64 (a * 2 ^ 52 + frame * 65536 + 2 ^ 14 + (if big then 2 ^ 10 else 0) + 0xF)
/-- Map `n` pages at `va`, zero-filled: whole aligned 32 MiB pieces by large leaves, the others page by page. -/
def mapPages (root a : Nat) : Nat → Nat → Nat → State → Option State
  | 0, _, _, s => some s
  | fuel + 1, va, n, s =>
    if n = 0 then some s else
    let big := va % 2 ^ 25 = 0 && 512 ≤ n
    let k := if big then 512 else 1
    match s.takeFrames k with
    | none => none
    | some (f, s) =>
      match installLeaf (arenaLeaf a f big) root (tableIdx va big) s with
      | none => none
      | some s => mapPages root a fuel (va + 65536 * k) (n - k) s
/-- List `n` pages of a context as an arena's. -/
def listPages (c a : Nat) (gen : BitVec 4) (charged : Bool) (va n : Nat) (s : State) : State :=
  { s with pages := (List.range n).foldl (fun m i => Map.ins (pageKey c (va + 65536 * i)) ⟨a, gen, charged, false⟩ m) s.pages }
/-- Lowest page number from `cur` on, aligned to `al` pages, at which `n` pages fit below `lim` clear of the used ranges (first page,
count). A range in the way is passed once, so that their number bounds the search. -/
def placePages (al n lim : Nat) (used : List (Nat × Nat)) : Nat → Nat → Option Nat
  | 0, _ => none
  | k + 1, cur =>
    if lim < cur + n then none else
    match used.find? fun u => u.1 < cur + n && cur < u.1 + u.2 with
    | none => some cur
    | some u => placePages al n lim used k ((u.1 + u.2 + al - 1) / al * al)
/-- Page ranges of a context that something takes: the pages of its arenas, and what its tables map (R346). -/
def usedPages (c : Nat) (s : State) : List (Nat × Nat) :=
  ((s.pages.filter fun p => p.1 / 2 ^ 41 == c && !p.2.dead).map fun p => (p.1 % 2 ^ 41, 1))
  ++ (s.leavesOf c).map fun l => (l.va / 65536, l.count)
/-- Where `aralloc` places pages in the arena window (R346). -/
def windowPlace (c n : Nat) (s : State) : Option Nat :=
  let x := s.ctx c
  let al := if 512 ≤ n then 512 else 1
  let lo := (x.arwin.toNat / 65536 + al - 1) / al * al
  let used := usedPages c s
  (placePages al n ((x.arwin.toNat + x.arwinLen.toNat) / 65536) used (used.length + 1) lo).map (· * 65536)

/-! ### The arena tree (R327-R332) -/

/-- Number in a handle valid for a context (R327). -/
def handleOf (c : Nat) (h : BitVec 64) (s : State) : Except Raise Nat := do
  let a := bits h.toNat 11 0
  let e := s.arena a
  require (h.toNat < 65536 && a ≠ 0 && e.state ≠ 0 && e.owner = c) fHandle h.toNat
  return a
/-- The same for an arena that is live or sealed, with the generation current: one past its drop point is dead (R345-R347, R350). -/
def liveHandle (c : Nat) (h : BitVec 64) (s : State) : Except Raise Nat := do
  let a ← handleOf c h s
  require ((s.arena a).state ≠ 3 && (s.arena a).gen.toNat = bits h.toNat 15 12) fArenaDead h.toNat
  return a
/-- The number `arnew` picks (R332): the lowest free, else the lowest sweeping with at most 14 generations being swept. -/
def pickNumber (s : State) : Option Nat :=
  let nums := (List.range 4095).map (· + 1)
  match nums.find? (fun a => (s.arena a).state == 0) with
  | some a => some a
  | none => nums.find? fun a => (s.arena a).state == 3 && popc (s.arena a).sweeping.toNat 16 ≤ 14
/-- The fields of a new arena (R345); generation and sweeping bits are kept. -/
structure NewArena where
  parent : Nat
  depth : Nat
  owner : Nat
  quota : Nat
  resv : Nat
  pt : Bool := false
  view : Bool := false
  crown : Bool := false
  task : BitVec 64 := 0
/-- Make number `a` a live arena, first in its parent's child list. -/
def newArena (a : Nat) (x : NewArena) (s : State) : State :=
  let e := s.arena a
  let p := s.arena x.parent
  let s := s.modArena a fun _ =>
    { e with state := 1, parent := x.parent, depth := x.depth, owner := x.owner, pt := x.pt, view := x.view, crown := x.crown,
             quota := x.quota, charge := x.resv, resv := x.resv, child := 0, sibling := (if x.parent = 0 then 0 else p.child),
             task := x.task, since := (s.ctx x.owner).rpseq.toNat }
  if x.parent = 0 then s else s.modArena x.parent fun p => { p with child := a }
/-- A child of `p` with its reserve charged to `p` and its ancestors; QUOTA where depth, numbers or quota are exhausted. -/
def childArena (p : Nat) (x : NewArena) (s : State) : Except Raise (State × Nat) := do
  let e := s.arena p
  let some n := (if e.depth = 8 then none else pickNumber s) | fault fQuota 0 2
  if s.chargeRefused p x.resv then fault fQuota
  let s := s.addCharge p x.resv
  return (newArena n { x with parent := p, depth := e.depth + 1 } s, n)

/-- Arenas of the subtree of `a`, by the child and sibling links; `n` bounds the walk. -/
def subtree (s : State) : Nat → Nat → List Nat
  | 0, _ => []
  | n + 1, a => if a = 0 then [] else a :: children s n (s.arena a).child
where children (s : State) : Nat → Nat → List Nat
  | 0, _ => []
  | n + 1, a => if a = 0 then [] else (subtree s n a) ++ children s n (s.arena a).sibling

/-- The lowest value above the current generation, modulo 16, that is not being swept (R333). -/
def nextGen (e : Arena) : BitVec 4 :=
  let g := e.gen.toNat
  BitVec.ofNat 4 (((List.range 16).map (fun i => (g + 1 + i) % 16)).find? (fun x => !e.sweeping.getLsbD x && x != g)|>.getD g)
/-- The drop point of one arena: generation advanced, state sweeping, links cleared. -/
def dropOne (a : Nat) (s : State) : State :=
  s.modArena a fun e => { e with gen := nextGen e, sweeping := setBit e.sweeping e.gen.toNat true, state := 3, child := 0, sibling := 0 }
/-- Remove `a` from its parent's child list. -/
def unlink (a p : Nat) (s : State) : State :=
  if p = 0 then s else
  let next := (s.arena a).sibling
  if (s.arena p).child = a then s.modArena p fun e => { e with child := next }
  else match (List.range 4096).find? fun x => x ≠ 0 && x ≠ a && (s.arena x).parent = p && (s.arena x).sibling = a with
    | some b => s.modArena b fun e => { e with sibling := next }
    | none => s
/-- Pages of an arena that its owner's tables map and that are not listed yet: the supervisor's, untouched. They go with the arena. -/
def listUntouched (as : List Nat) (c : Nat) (s : State) : State :=
  (s.leavesOf c).foldl (fun s l =>
    let a := leafArena l.leaf
    if !as.contains a then s else
    { s with pages := (List.range l.count).foldl (fun m i =>
        let k := pageKey c (l.va + 65536 * i)
        if (Map.find k m).any (·.arena == a) then m else Map.ins k ⟨a, (s.arena a).gen, false, false⟩ m) s.pages }) s
/-- The drop of the tree at `d` (R333 steps 2 and 3): the pairs dropped, each with its old generation, and the broadcasts to
come; `frames` return to the pool with the root's sweep. -/
def dropTree (d : Nat) (frames : List Nat) (s : State) : State × List (Nat × Nat) :=
  let sub := subtree s 8192 d
  let olds := sub.map fun a => (a, (s.arena a).gen.toNat)
  let e := s.arena d
  let s := listUntouched sub e.owner s
  let up := (s.ancestors 9 e.parent).map fun a => (a, (s.arena a).gen)
  let sws := olds.map fun x : Nat × Nat =>
    if x.1 = d then (⟨d, x.2, allUnits, true, up, e.charge, frames, e.owner⟩ : Sweep) else ⟨x.1, x.2, allUnits, false, [], 0, [], e.owner⟩
  let s := unlink d e.parent s
  let s := sub.foldl (fun s a => dropOne a s) s
  ({ s with sweeps := s.sweeps ++ sws }, olds)

end Sys2Proof.Machine
end

