-- ==== Sys2Proof/Machine/Arena.lean ====
section
/-! DEFINITION. Arena and region instructions (R342-R349). -/
namespace Sys2Proof.Machine
open Sys2Proof State

/-- Fields of the AT word (R342). -/
def atPf (o : AOp) : Nat := bits o.m.toNat 31 28
def atTry (o : AOp) : Bool := o.m.getLsbD 27
def atSel (o : AOp) : Nat := bits o.m.toNat 3 0
/-- A uniform operand, read once for the group. -/
def uniSrc (o : AOp) (fld : Nat) (x : Src) (s : State) : Nat := s.src fld x 64 (s.uniPos o.gd)
def uniA (o : AOp) (s : State) : Nat := uniSrc o 0 o.a s
def uniB (o : AOp) (s : State) : Nat := uniSrc o 1 o.b s
def uniC (o : AOp) (s : State) : Nat := uniSrc o 2 o.c s
def handleA (o : AOp) (s : State) : BitVec 64 := BitVec.ofNat 64 (uniA o s)
/-- The acting context. -/
def actx (s : State) : Nat := s.cc.ctx
/-- Refused kinds inside a world (R359). -/
def worldRefuses (gd : Guard) (addr : Nat) (s : State) : Except Raise Unit :=
  if refuses s && !(s.active gd).isEmpty then refuse s addr else .ok ()
/-- A region entry whose `rgset` has not completed, with the number of that (R349). -/
def pendingRegion (c i : Nat) (s : State) : Option (Nat × Nat) :=
  (Map.find i (s.ctx c).regions).bind fun r => r.pend.map fun n => (i, n)
/-- Deliver a result, or a failure under `.try` (R343): `code` is the one a failure may have. -/
def answer (o : AOp) (code : BitVec 8) (s : State) (r : Except Raise (State × BitVec 64)) (region : Bool := false) : Except Raise State :=
  match r with
  | .ok (s, x) => .ok (s.produceG o.gd o.d x (if atTry o then atPf o else 0) false (if region then pendingRegion (actx s) x.toNat s else none))
  | .error y => if atTry o && y.code == code && !y.hold then .ok (s.produceG o.gd o.d 0 (atPf o) true) else .error y

/-- R345. -/
def execArnew (o : AOp) (s : State) : Host.Outcome State Fault Refusal :=
  issue (.arnew o) s fun s => do
    let q := uniB o s
    let r := uniC o s
    require (1 ≤ q && q < 2 ^ 32 && r ≤ q) fHandle
    let p ← liveHandle (actx s) (handleA o s) s
    worldRefuses o.gd 0 s
    if (s.active o.gd).isEmpty then return s
    answer o fQuota s (do
      let (s, n) ← childArena p { parent := p, depth := 0, owner := actx s, quota := q, resv := r, task := s.cc.ticket } s
      return (s, BitVec.ofNat 64 (n + (s.arena n).gen.toNat * 2 ^ 12)))

/-- Map and list `n` pages of an arena, charged at once or lazily (R346). -/
def allocPages (a n : Nat) (lazy : Bool) (s : State) : Except Raise (State × BitVec 64) := do
  let c := actx s
  let some va := windowPlace c n s | fault fQuota 0 3
  let some s := (if lazy then some s else s.chargePages a n) | fault fQuota
  let some s := mapPages (s.ctx c).root.toNat a (n + 1) va n s | fault fQuota 0 1
  return (listPages c a (s.arena a).gen (!lazy) va n s, BitVec.ofNat 64 va)
/-- R346. -/
def execAralloc (o : AOp) (s : State) : Host.Outcome State Fault Refusal :=
  issue (.aralloc o) s fun s => do
    let n := uniB o s
    require (1 ≤ n && n ≤ 2 ^ 20) fHandle
    let a ← liveHandle (actx s) (handleA o s) s
    worldRefuses o.gd 0 s
    if (s.active o.gd).isEmpty then return s
    require ((s.arena a).state ≠ 2) fArenaSealed
    answer o fQuota s (allocPages a n (o.variant = 1) s)

/-- The first page of a range not mapped in arena `a` (R346): no leaf of the arena maps it, or it is of an earlier life of the arena. A
page that the supervisor has mapped there and nothing has touched is not listed. -/
def notMapped (c a : Nat) (pages : List Nat) (s : State) : Option Nat :=
  pages.find? fun va =>
    match s.walk (s.ctx c).root.toNat va, s.pageOf c va with
    | some (leaf, _, _), some p => leafArena leaf != a || (p.arena == a && (p.gen != (s.arena a).gen || p.dead))
    | some (leaf, _, _), none => leafArena leaf != a
    | none, _ => true
/-- Unmap the leaf of one page of the range from `lo` to `hi`: a larger leaf of which only part lies in the range is splintered first,
once or twice; the frames of what goes are remembered (R346). -/
def unmapPage (c lo hi va : Nat) : Nat → State × List Nat → Except Raise (State × List Nat)
  | 0, x => .ok x
  | n + 1, (s, fs) =>
    match s.walk (s.ctx c).root.toNat va with
    | none => .ok (s, fs)
    | some (leaf, sh, at') =>
      let base := va / 2 ^ sh * 2 ^ sh
      let l : LeafAt := ⟨base, sh, at', leaf⟩
      if lo ≤ base ∧ base + 2 ^ sh ≤ hi then .ok (s.setLeafAt at' 0, (List.range l.count).map (l.first + ·) ++ fs) else
      match splinter leaf sh at' s with
      | .error y => .error y
      | .ok s => unmapPage c lo hi va n (s, fs)
/-- R346: pages unmapped and uncharged; the frames return to the pool when the shoot-down ends. -/
def freePages (a va n : Nat) (s : State) : Except Raise State := do
  let c := actx s
  let pages := (List.range n).map fun i => va + 65536 * i
  let charged := (pages.filter fun p => match s.pageOf c p with | some x => x.arena == a && x.charged | none => false).length
  let (s, fs) ← pages.foldlM (fun x p => unmapPage c va (va + 65536 * n) p 3 x) (s, [])
  let s := { s with pages := pages.foldl (fun m p => Map.del (pageKey c p) m) s.pages }
  let s := s.subCharge a charged
  let (s, id) := startShoot c va (65536 * n) fs s
  return s.modCg fun g => { g with holds := g.holds ++ [.shoot id] }
/-- R346. -/
def execArfree (o : AOp) (s : State) : Host.Outcome State Fault Refusal :=
  issue (.arfree o) s fun s => do
    let va := uniB o s
    let n := uniC o s
    require (1 ≤ n && n ≤ 2 ^ 20 && va < 2 ^ 57) fHandle
    if va % 65536 ≠ 0 then fault fAlign va
    let a ← liveHandle (actx s) (handleA o s) s
    worldRefuses o.gd va s
    if (s.active o.gd).isEmpty then return s
    match notMapped (actx s) a ((List.range n).map fun i => va + 65536 * i) s with
    | some p => fault fHandle p
    | none =>
      require ((s.arena a).state ≠ 2) fArenaSealed
      freePages a va n s

/-- Crowns, per-thread and view arenas are not sealed or dropped by programs (R347). -/
def ordinaryArena (a : Nat) (s : State) : Except Raise Unit :=
  let e := s.arena a
  require (!(e.crown || e.pt || e.view)) fProt
/-- R336: the seal point; the group's next run waits for every unit's acknowledgement. -/
def execArseal (o : AOp) (s : State) : Host.Outcome State Fault Refusal :=
  issue (.arseal o) s fun s => do
    let a ← liveHandle (actx s) (handleA o s) s
    worldRefuses o.gd 0 s
    if (s.active o.gd).isEmpty then return s
    ordinaryArena a s
    if (s.arena a).state = 2 then return s
    let g := (s.arena a).gen.toNat
    let s := s.modArena a fun e => { e with state := 2 }
    let s := { s with sealbs := s.sealbs ++ [({ arena := a, gen := g, units := allUnits } : SealB)] }
    return s.modCg fun x => { x with holds := x.holds ++ [Hold.sealUnits a g] }
/-- R333: the group's next run waits for its studio and die, or for the sweeps under `.sync`. The group's own studio knows of the drop
point at once: the group's later accesses happen after it (R300). -/
def execArdrop (o : AOp) (s : State) : Host.Outcome State Fault Refusal :=
  issue (.ardrop o) s fun s => do
    let a ← liveHandle (actx s) (handleA o s) s
    worldRefuses o.gd 0 s
    if (s.active o.gd).isEmpty then return s
    ordinaryArena a s
    let (s, olds) := dropTree a [] s
    let s := olds.foldl (fun s x => s.learnDrop s.ck x.1) s
    let h := if o.variant = 1 then Hold.sweep olds else Hold.drop olds [s.ck, unitDie (dieOf s.ck)]
    return s.modCg fun g => { g with holds := g.holds ++ [h] }
/-- Word 0 of an arena entry (R328). -/
def arenaWord0 (e : Arena) : Nat :=
  e.state.toNat * 2 ^ 62 + e.gen.toNat * 2 ^ 58 + e.sweeping.toNat * 2 ^ 42 + e.parent % 4096 * 2 ^ 30 + e.depth % 16 * 2 ^ 26
  + e.owner % 64 * 2 ^ 20 + (if e.pt then 2 ^ 19 else 0) + (if e.view then 2 ^ 18 else 0) + (if e.crown then 2 ^ 17 else 0)
/-- R348: the generation of the handle is not checked. -/
def execArquery (o : AOp) (s : State) : Host.Outcome State Fault Refusal :=
  issue (.arquery o) s fun s => do
    let a ← handleOf (actx s) (handleA o s) s
    if (s.active o.gd).isEmpty then return s
    let e := s.arena a
    let v := match atSel o with | 0 => arenaWord0 e | 1 => e.quota | 2 => e.charge | _ => e.resv
    return s.produceG o.gd o.d (BitVec.ofNat 64 v) 0 false

/-! ### Regions (R337, R349) -/

/-- A range meets a valid entry, one whose `rgset` has not completed among them. -/
def overlaps (c base len : Nat) (s : State) : Bool :=
  (s.ctx c).regions.any fun r => r.2.base < base + len && base < r.2.base + r.2.len * 128
/-- R349: the lowest invalid entry takes the region, which holds for no access until `rgset` completes. A length that R337's 32 bits of
lines do not hold is kept whole (DESIGN CHOICE, log 124). -/
def setRegion (mode base len : Nat) (s : State) : Except Raise (State × BitVec 64) := do
  let c := actx s
  if overlaps c base len s then fault fRegion base
  let some i := firstFree (fun i => (Map.find i (s.ctx c).regions).isSome) 0 1024 | fault fRegion base
  let r : Region := ⟨BitVec.ofNat 2 mode, s.cc.tag, s.cc.ptSlot, len / 128, base, some s.fresh⟩
  return (s.tick.modCtx c fun x => { x with regions := Map.ins i r x.regions }, BitVec.ofNat 64 i)
/-- R349. -/
def execRgset (o : AOp) (s : State) : Host.Outcome State Fault Refusal :=
  issue (.rgset o) s fun s => do
    let b := uniA o s
    let l := uniB o s
    require (b % 128 = 0 && b < 2 ^ 57) fAlign b
    require (l % 128 = 0 && l ≠ 0 && b + l ≤ 2 ^ 57) fAlign l
    worldRefuses o.gd b s
    if (s.active o.gd).isEmpty then return s
    answer o fRegion s (setRegion (atSel o) b l s) true
/-- Whether the acting cell owns a private region. -/
def ownsRegion (r : Region) (s : State) : Bool :=
  match r.mode.toNat with | 1 => r.task == s.cc.tag && r.slot == s.cc.ptSlot | 2 => r.task == s.cc.tag | _ => true
/-- R349. An entry that is cleared holds for no access from then on (DESIGN CHOICE, log 108). -/
def execRgclr (o : AOp) (s : State) : Host.Outcome State Fault Refusal :=
  issue (.rgclr o) s fun s => do
    let i := uniA o s
    require (i < 1024) fHandle i
    worldRefuses o.gd 0 s
    if (s.active o.gd).isEmpty then return s
    match Map.find i (s.ctx (actx s)).regions with
    | none => return s
    | some r =>
      require (ownsRegion r s) fRegion i
      return s.modCtx (actx s) fun x => { x with regions := Map.del i x.regions }
/-- R349. -/
def execRgquery (o : AOp) (s : State) : Host.Outcome State Fault Refusal :=
  issueOk (.rgquery o) s fun s =>
    if (s.active o.gd).isEmpty then s else
    let v := match s.regionAt (actx s) (uniA o s) with
      | some (i, r) => 2 ^ 63 + 2 ^ 12 * r.mode.toNat + i
      | none => 0
    s.produceG o.gd o.d (BitVec.ofNat 64 v) 0 false

end Sys2Proof.Machine
end

