-- ==== Sys2Proof/Machine/Layout.lean ====
section
/-! DEFINITION. Tensor layout records, their element addresses, record handles and descriptor slots (R402-R406). -/
namespace Sys2Proof.Machine
open Sys2Proof State

/-- A layout record's fields (R402). -/
structure Layout where
  base : Nat
  fill : Nat
  conv : Bool
  dims : Nat
  ty : Ty
  extent : List Nat
  stride : List Nat
  box : List Nat
  ow : Nat
  oh : Nat
  sx : Nat
  sy : Nat
  dx : Nat
  dy : Nat
  px : Nat
  py : Nat
deriving DecidableEq, Repr

/-- Type of a code (R70). -/
def tyOf (c : Nat) : Ty :=
  [Ty.i8, .i16, .i32, .i64, .n8, .n16, .n32, .n64, .f64, .f32, .f16, .bf16, .e4m3, .e5m2, .e2m1, .gq4].getD c .n8
def layoutOf (r : List (BitVec 8)) : Layout :=
  let w1 := field r 8 4
  let n := bits w1 6 4 + 1
  let a := field r 136 1
  let b := field r 137 1
  let ty := tyOf (bits w1 3 0)
  let strides := (List.range n).map fun d => if d = 0 then ty.width / 8 else bits (field r (48 + 8 * d) 8) 39 0
  { base := field r 0 8 % 2 ^ 57, fill := field r 12 4, conv := bits w1 7 7 == 1, dims := n, ty := ty,
    extent := (List.range n).map (fun d => field r (16 + 4 * d) 4), stride := strides,
    box := (List.range n).map (fun d => field r (112 + 2 * d) 2 + 1),
    ow := field r 128 4 + 1, oh := field r 132 4 + 1, sx := bits a 3 0 + 1, sy := bits a 7 4 + 1, dx := bits b 3 0 + 1, dy := bits b 7 4 + 1,
    px := field r 138 2, py := field r 140 2 }
/-- Reserved fields are zero, extents are not, and the conditions of R403 hold. -/
def layoutOk (r : List (BitVec 8)) : Bool :=
  let l := layoutOf r
  let w1 := field r 8 4
  field r 0 8 < 2 ^ 57 && w1 < 2 ^ 8
  && (List.range 8).all (fun d =>
      if d < l.dims then field r (16 + 4 * d) 4 ≠ 0 && field r (48 + 8 * d) 8 < 2 ^ 40 && (d ≠ 0 || zeroAt r 48 8)
      else zeroAt r (16 + 4 * d) 4 && zeroAt r (48 + 8 * d) 8 && zeroAt r (112 + 2 * d) 2)
  && (if l.conv then l.dims == 4 && l.box.getD 2 0 == 1 && l.box.getD 3 0 == 1 && field r 128 4 < 2 ^ 20 && field r 132 4 < 2 ^ 20
      else zeroAt r 128 14)
  && zeroAt r 142 50 && (l.ty.width ≠ 4 || l.box.getD 0 0 % 2 == 0)

/-- Elements of the box. -/
def Layout.total (l : Layout) : Nat := l.box.foldl (· * ·) 1
/-- Bytes of the box in scratchpad. -/
def Layout.bytes (l : Layout) : Nat := (l.total * l.ty.width + 7) / 8
/-- Coordinates within the box of element number `n` (R404). -/
def Layout.digits (l : Layout) (n : Nat) : List Nat :=
  (l.box.foldl (fun (x : List Nat × Nat) b => (x.1 ++ [x.2 % b], x.2 / b)) ([], n)).1
/-- Bit address of a byte address: a 4-bit element's nibble is part of it. -/
def Layout.at0 (l : Layout) (c0 : Int) (rest : Int) : Option Nat :=
  some ((2 * ((l.base : Int) + rest) + (if l.ty.width = 4 then c0 else 2 * c0 * (l.ty.width / 8 : Nat))) % (2 : Int) ^ 58).toNat
/-- Nibble address of element `n` of the box with coordinates `cs`; none outside (R404). -/
def Layout.normalAt (l : Layout) (cs : List Int) (n : Nat) : Option Nat :=
  let c := (l.digits n).zipIdx.map fun x => (x.1 : Int) + cs.getD x.2 0
  if c.zipIdx.any (fun x => decide (x.1 < 0) || decide ((l.extent.getD x.2 0 : Int) ≤ x.1)) then none
  else l.at0 (c.getD 0 0) ((c.zipIdx.filter fun x => x.2 ≠ 0).foldl (fun a x => a + x.1 * (l.stride.getD x.2 0 : Int)) 0)
/-- The same in convolution mode (R405). -/
def Layout.convAt (l : Layout) (cs : List Int) (n : Nat) : Option Nat :=
  let b0 := l.box.getD 0 1
  let c := cs.getD 0 0 + (n % b0 : Nat)
  let p := cs.getD 1 0 + (n / b0 : Nat)
  let pp : Int := ((l.oh * l.ow : Nat) : Int)
  let im := p / pp
  let q := p % pp
  let y := q / (l.ow : Int) * (l.sy : Int) + cs.getD 3 0 * (l.dy : Int) - (l.py : Int)
  let x := q % (l.ow : Int) * (l.sx : Int) + cs.getD 2 0 * (l.dx : Int) - (l.px : Int)
  let ex := fun (i : Nat) => (l.extent.getD i 0 : Int)
  let st := fun (i : Nat) => (l.stride.getD i 0 : Int)
  if p < 0 ∨ im ≥ ex 3 ∨ y < 0 ∨ y ≥ ex 2 ∨ x < 0 ∨ x ≥ ex 1 ∨ c < 0 ∨ c ≥ ex 0 then none
  else l.at0 c (x * st 1 + y * st 2 + im * st 3)
def Layout.elemAt (l : Layout) (cs : List Int) (n : Nat) : Option Nat := if l.conv then l.convAt cs n else l.normalAt cs n

/-- A record handle (R406): the slot's record, known without memory, or the address of one. -/
inductive Handle where
  | slot (r : List (BitVec 8))
  | mem (va : Nat)
deriving DecidableEq, Repr
def handleForm (h : BitVec 64) (s : State) : Except Raise Handle :=
  if h.toNat < 2 ^ 63 then .ok (.mem (h.toNat % 2 ^ 57)) else
  if 2 ^ 3 ≤ h.toNat % 2 ^ 63 then fault fHandle h.toNat else
  match Map.find (h.toNat % 8) s.cc.descs with
  | some r => .ok (.slot r)
  | none => fault fHandle (h.toNat % 8)
/-- A layout record at an address, validated (R403). -/
def readLayout (va : Nat) (s : State) : Except Raise (State × List (BitVec 8)) := do
  let (s, r) ← readRecord (s.whoOf s.cur.cell) 64 va 192 s
  require (layoutOk r) fHandle va
  return (s, r)

end Sys2Proof.Machine
end

