-- ==== Sys2Proof/Machine/Sync.lean ====
section
/-! DEFINITION. Barrier registers, synchronisation words, event counters (part 14). -/
namespace Sys2Proof.Machine
open Sys2Proof State

/-! ### Barriers (R306-R308, R316-R318) -/

/-- A barrier register; unwritten, its members are the cell's groups (R306). -/
def Cell.bar (c : Cell) (n : Nat) : Bar :=
  Map.getD c.bars n { (default : Bar) with members := BitVec.ofNat 6 c.groupCount }
/-- Completion after any change (R307). -/
def settleBar (b : Bar) : Bar :=
  if b.arrived = b.members ∧ b.pend = 0 ∧ !b.ovf ∧ !b.excess then { b with phase := !b.phase, arrived := 0 } else b
/-- A barrier register takes a value; entries that wait at it for another phase go on, whatever becomes of the phase later (R47, R54). -/
def Cell.putBar (c : Cell) (n : Nat) (b : Bar) : Cell :=
  let wake := fun (e : Entry) => match e.st with | .barrier m ph => if m = n ∧ ph ≠ b.phase then { e with st := .no } else e | _ => e
  { c with bars := Map.ins n b c.bars, groups := c.groups.map fun g => (g.1, { g.2 with entries := g.2.entries.map wake }) }
/-- An entry of a group waits at barrier `n` for another phase than `ph`. -/
def barWaits (c : Cell) (n : Nat) (ph : Bool) : Bool :=
  c.groups.any fun g => g.2.entries.any fun e => match e.st with | .barrier m p => m == n && p != ph | _ => false
/-- A barrier takes a value and settles. Where that ends a wait, what Brush commands have landed is seen (R297). -/
def setBar (cell n : Nat) (b : Bar) (s : State) : State :=
  let b := settleBar b
  (if barWaits (s.cell cell) n b.phase then s.settleLanded else s).modCell cell fun c => c.putBar n b
/-- A transfer's arrival at a barrier (R307). -/
def barArrival (cell n : Nat) (s : State) : State :=
  let b := (s.cell cell).bar n
  setBar cell n (if b.arrived = b.members then { b with excess := true } else { b with arrived := b.arrived + 1 }) s
/-- `k` landed bytes reported to a barrier (R307). -/
def barBytes (cell n k : Nat) (s : State) : State :=
  let b := (s.cell cell).bar n
  let x := b.pend - (k : Int)
  setBar cell n (if x < -(2 : Int) ^ 39 then { b with pend := -(2 : Int) ^ 39, ovf := true } else { b with pend := x }) s
/-- A Brush command that reports to barrier `n` is outstanding (R316). -/
def reporting (c : Cell) (n : Nat) : Bool := c.brush.any fun b => b.report ≤ 1 && b.bar == n
/-- Barrier instructions of a regrouped cell raise BAR_MISUSE, whatever the guard (R44, R315). -/
def barCheck (n : Nat) (s : State) : Except Raise Unit := require (!s.cc.regrouped) fBarMisuse n
/-- Arrival record of the acting group at a barrier: A and Pg. -/
def arrA (n : Nat) (s : State) : Bool := s.cg.arrA.getLsbD n
def arrP (n : Nat) (s : State) : Bool := s.cg.arrP.getLsbD n

/-- R316. -/
def execBarinit (o : XOp) (s : State) : Host.Outcome State Fault Refusal :=
  issue (.barinit o) s fun s => do
    let n := o.bar.toNat
    barCheck n s
    if (s.active o.gd).isEmpty then return s
    let b := s.cc.bar n
    require (b.arrived = 0 && b.pend = 0 && !reporting s.cc n) fBarMisuse n
    return s.modCc fun c =>
      let c := c.putBar n { b with members := BitVec.ofNat 6 o.count.toNat, phase := false, ovf := false, excess := false }
      { c with groups := c.groups.map (fun g => (g.1, { g.2 with arrA := setBit g.2.arrA n false, arrP := setBit g.2.arrP n false })) }
/-- R317: a release at `.cell`, once per group and phase. -/
def execBararr (o : XOp) (s : State) : Host.Outcome State Fault Refusal :=
  issue (.bararr o) s fun s => do
    let n := o.bar.toNat
    barCheck n s
    if (s.active o.gd).isEmpty then return s
    let b := s.cc.bar n
    if arrA n s && arrP n s == b.phase then return s
    require (b.arrived ≠ b.members) fBarMisuse n
    let s := releaseActs s.cur (s.whoOf s.cur.cell) 2 none s
    let s := s.modCg fun g => { g with arrA := setBit g.arrA n true, arrP := setBit g.arrP n b.phase }
    return setBar s.cur.cell n { b with arrived := b.arrived + 1 } s
/-- R317. -/
def execBarwait (o : XOp) (s : State) : Host.Outcome State Fault Refusal :=
  issueWith (.barwait o) s fun s => do
    let n := o.bar.toNat
    barCheck n s
    if (s.active o.gd).isEmpty then return (s, .seq)
    let b := s.cc.bar n
    require (arrA n s && !b.excess) fBarMisuse n
    require (!b.ovf) fSyncOvf
    if b.phase ≠ arrP n s then return (s.settleLanded, .seq)
    return (s.perf s.ck s.cc.ctx 0x0C, .wait (.barrier n (arrP n s)))
/-- R317. -/
def execBartest (o : XOp) (s : State) : Host.Outcome State Fault Refusal :=
  issue (.bartest o) s fun s => do
    let n := o.bar.toNat
    barCheck n s
    let past := arrA n s && (s.cc.bar n).phase != arrP n s
    return (if past then s.settleLanded else s).applyPred o.gd (bits o.imm.toNat 3 0) fun _ => past
/-- R318. The HANDLE for an amount of 2^40 or more has the barrier's number as its address (DESIGN CHOICE, log 134). -/
def execBarexp (o : XOp) (s : State) : Host.Outcome State Fault Refusal :=
  issue (.barexp o) s fun s => do
    let n := o.bar.toNat
    barCheck n s
    let v := (s.gval o.record).toNat
    require (v < 2 ^ 40) fHandle n
    if (s.active o.gd).isEmpty then return s
    let b := s.cc.bar n
    let x := b.pend + (v : Int)
    require (decide (x ≤ (2 : Int) ^ 39 - 1)) fSyncOvf
    return setBar s.cur.cell n { b with pend := x } s

/-! ### Synchronisation words (R309, R310, R319, R320) -/

structure Word16 where
  target : Nat
  count : Nat
  gen : Nat
  flags : Nat
deriving DecidableEq, Repr
def Word16.of (bs : List (BitVec 8)) : Word16 :=
  ⟨leNat (bs.take 5), leNat ((bs.drop 5).take 5), leNat ((bs.drop 10).take 4), leNat ((bs.drop 14).take 2)⟩
def Word16.bytes (w : Word16) : List (BitVec 8) := leBytes 5 w.target ++ leBytes 5 w.count ++ leBytes 4 w.gen ++ leBytes 2 w.flags
def Word16.ovf (w : Word16) : Bool := w.flags % 2 == 1
/-- Settle of R310. -/
def Word16.settle (w : Word16) : Word16 :=
  if w.target ≠ 0 ∧ w.count = w.target ∧ !w.ovf then { w with gen := (w.gen + 1) % 2 ^ 32, target := 0, count := 0 } else w
/-- Changes of a word: `swinit`, `swexp`, `swadd`, and the increments of landings and codec engines. -/
inductive SwOp where
  | init | expect | add | landing
deriving DecidableEq, Repr
/-- One change, with its check (R319, R310): the new word, or the fault it raises. -/
def swChange (op : SwOp) (w : Word16) (n : Nat) : Except (BitVec 8) Word16 :=
  match op with
  | .init => .ok { w with target := n, count := 0, flags := 0 }.settle
  | .landing => .ok (if w.count + n ≥ 2 ^ 40 then { w with flags := w.flags / 2 * 2 + 1 }.settle else { w with count := w.count + n }.settle)
  | .expect => if w.flags / 2 ≠ 0 then .error fHandle else if w.ovf || w.target + n ≥ 2 ^ 40 then .error fSyncOvf
               else .ok { w with target := w.target + n }.settle
  | .add => if w.flags / 2 ≠ 0 then .error fHandle else if w.ovf || w.count + n ≥ 2 ^ 40 then .error fSyncOvf
            else .ok { w with count := w.count + n }.settle

/-- One change at home, or at the target of host and peer memory, through a translation by a group; the fault of the change, if any, leaves
the word unchanged. -/
def swHome (r : GRef) (w : Who) (va : Nat) (x : Xlat) (op : SwOp) (n : Nat) (s : State) : Except Raise State :=
  let pa := physOf x va
  let t := { tagOf w x 0 with direct := true }
  let (s, bs, bad) := s.readAt w.k t true pa 16
  if bad then fault fMemUncorr pa else
  match swChange op (Word16.of bs) n with
  | .error c => fault c va
  | .ok y => .ok (noteRcv r t pa (s.storeHome w.k t pa y.bytes))
/-- Each location an operation at once acts on (R369): a copy whose change overflows stays as it is. -/
def swAll (g : GRef) (w : Who) (va : Nat) (op : SwOp) (n : Nat) : List Xlat → State → Except Raise State
  | [], s => .ok s
  | x :: r, s => do
    let s ← swHome g w va x op n s
    return r.foldl (fun s x => match swHome g w va x op n s with | .ok s => s | .error _ => s) s
/-- A word in the cell's scratchpad. -/
def swScratch (cell a : Nat) (op : SwOp) (n : Nat) (s : State) : Except Raise State :=
  match swChange op (Word16.of (Map.bytes (s.cell cell).scratch a 16)) n with
  | .error c => fault c a
  | .ok y => .ok (s.modCell cell fun c => c.putScratch s.fresh a y.bytes)

/-- Address of the word, read once for the group; alignment and the scratchpad bound are checked whatever the guard (R315). -/
def swAddr (o : MOp) (s : State) : Except Raise Nat := do
  let a := addrOf o s (s.uniPos o.gd)
  require (a % 16 = 0) fAlign a
  require (!o.variant.getLsbD 0 || a + 16 ≤ s.cc.scratchSz) fProt a 4
  return a
/-- The g data operand of the group. -/
def swAmount (o : MOp) (s : State) : BitVec 64 := s.gdst o.data

/-- swinit, swexp, swadd (R319). In a rival the change is deferred, in a shadow copy suppressed. The HANDLE for an amount of 2^40 or more has
the address 0 (DESIGN CHOICE, log 134) and comes before a fault on the word's address (DESIGN CHOICE, log 135). -/
def swModify (op : SwOp) (major : Nat) (o : MOp) (s : State) : Except Raise State := do
  let n := (swAmount o s).toNat
  require (n < 2 ^ 40) fHandle
  let a ← swAddr o s
  if (s.active o.gd).isEmpty then return s
  let w := s.whoOf s.cur.cell
  if o.variant.getLsbD 0 then
    let s := if isRel o.order then releaseActs s.cur w 2 none s else s
    swScratch s.cur.cell a op n s
  else
    let p := s.uniPos o.gd
    let (s, ls) ← checkLanes w { n := 16, rd := true, wr := true, kind := true } [(p, a, [(a, 16)])] s
    match ls with
    | [] => return s
    | l :: _ =>
      let s := enterScope w o.scope ls s
      let s := if isRel o.order then releaseFor w o.scope ls s else s
      let s := signWrite s.cur l.va (leBytes 8 n) s   -- the amount, as the operation's record (R437; log 88)
      match writeClass s w l.va l.xlat true with
      | .defer => addEscape s w.view { escOf major o 255 a [n] with sub := BitVec.ofNat 8 (o.variant.toNat * 16) }
      | .suppress => return s
      | .perform xs => swAll s.cur w l.va op n xs s
/-- R319. -/
def execSwinit (o : MOp) (s : State) : Host.Outcome State Fault Refusal := issue (.swinit o) s (swModify .init 0xA5 o)
/-- R319. -/
def execSwexp (o : MOp) (s : State) : Host.Outcome State Fault Refusal := issue (.swexp o) s (swModify .expect 0xA6 o)
/-- R319. -/
def execSwadd (o : MOp) (s : State) : Host.Outcome State Fault Refusal := issue (.swadd o) s (swModify .add 0xA7 o)

/-- The word an active group reads, with its checked access; none when no lane is active. -/
def swRead (o : MOp) (s : State) : Except Raise (State × Option (Word16 × List LaneAcc)) := do
  let a ← swAddr o s
  if (s.active o.gd).isEmpty then return (s, none)
  if o.variant.getLsbD 0 then return (s, some (Word16.of (Map.bytes s.cc.scratch a 16), []))
  let w := s.whoOf s.cur.cell
  let p := s.uniPos o.gd
  let (s, ls) ← checkLanes w { n := 16, rd := true, wr := false } [(p, a, [(a, 16)])] s
  match ls with
  | [] => return (s, none)
  | l :: _ =>
    let pa := physOf l.xlat l.va
    let s := if isAcq o.order then enterScope w o.scope ls s else s
    let (s, bs, bad) := s.readAt w.k (accTag w l.xlat 0 (accRank w o.scope pa s) false) true pa 16
    if bad then fault fMemUncorr pa
    return (s, some (Word16.of bs, ls))
/-- The acquire at the end of a `swwait` on a global word: at the wider of its scope and `.dev` (R320, R310). -/
def swAcquire (w : Who) (acq : Option Scope) (pa : Option Nat) (s : State) : State :=
  let (s, k) := match acq with | some sc => scopeRank w sc pa s | none => (s, 0)
  acquireActs w (max 4 k) (boundLines w pa s) s
def acqScope (o : MOp) : Option Scope := if isAcq o.order then some o.scope else none
/-- R320. -/
def execSwwait (o : MOp) (s : State) : Host.Outcome State Fault Refusal :=
  issueWith (.swwait o) s fun s => do
    let gen := (swAmount o s).toNat % 2 ^ 32
    match ← swRead o s with
    | (s, none) => return (s, .seq)
    | (s, some (x, ls)) =>
      let a := addrOf o s (s.uniPos o.gd)
      if x.ovf then fault fSyncOvf a
      if x.gen ≠ gen then
        let s := (match ls with | [] => s.settleLanded | l :: _ => swAcquire (s.whoOf s.cur.cell) (acqScope o) (some (physOf l.xlat l.va)) s)
        return (s, .seq)
      return (s.perf s.ck s.cc.ctx 0x0D, .wait (.sword (o.variant.getLsbD 0) (BitVec.ofNat 57 a) (BitVec.ofNat 32 gen) (acqScope o) s.cg.handler))
/-- R320: gD receives the count or the generation when the read completes. -/
def execSwpoll (o : MOp) (s : State) : Host.Outcome State Fault Refusal :=
  issue (.swpoll o) s fun s => do
    match ← swRead o s with
    | (s, none) => return s
    | (s, some (x, ls)) =>
      let v := if o.variant.getLsbD 1 then x.count else x.gen
      let s := s.produce { writes := s.lateWrite o.data .n64 v 0, regs := dstRegs o.data 64, pred := none, fault := none, ckpt := none }
      return if isAcq o.order then acquireFor (s.whoOf s.cur.cell) o.scope ls s else s

/-! ### Event counters (R311-R313, R321) -/

/-- Value of a counter at issue; a PERF counter of another context reads 0 (R313). -/
def counterRead (n k : Nat) (s : State) : BitVec 64 :=
  let st := s.studio s.ck
  let c := s.cc.ctx
  if 0x100 ≤ n ∧ n ≤ 0x107 then
    let p := Map.getD st.perf (n - 0x100) default
    if p.owner = some c then p.value else 0
  else match n with
    | 0x110 => st.corr
    | 0x111 => st.uncorr
    | 0x112 => st.resmiss
    | 0x113 => st.sketch
    | 0x120 => (s.ctx c).shadowRun
    | 0x121 => (s.ctx c).shadowMism
    | _ => s.counter n k
/-- R321. -/
def execCtrsel (o : SOp) (s : State) : Host.Outcome State Fault Refusal :=
  issueOk (.ctrsel o) s fun s =>
    if (s.active o.gd).isEmpty then s else
    s.modStudio s.ck fun st => { st with perf := Map.ins (o.sysreg.toNat - 0x100) ⟨0, some s.cc.ctx, BitVec.ofNat 8 o.imm.toNat⟩ st.perf }
/-- R321: `.clr` also zeroes an owned counter. -/
def execCtrrd (o : SOp) (s : State) : Host.Outcome State Fault Refusal :=
  issueOk (.ctrrd o) s fun s =>
    if (s.active o.gd).isEmpty then s else
    let n := o.sysreg.toNat
    let v := counterRead n o.imm.toNat s
    let own := fun (p : Perf) => p.owner == some s.cc.ctx
    let s := if o.sub = 1 then s.modStudio s.ck fun st =>
               { st with perf := Map.upd (n - 0x100) (fun p => if own p then { p with value := 0 } else p) st.perf } else s
    s.writeG o.dest v

end Sys2Proof.Machine
end

