-- ==== Sys2Proof/Machine/Brush.lean ====
section
/-! DEFINITION. Queue pops, descriptor slots and the issue of Brush commands (R397, R401, R407-R414). -/
namespace Sys2Proof.Machine
open Sys2Proof State

/-! ### qpop -/

/-- Pop `n` entries; the first comes first. -/
def popMany (q : Nat) : Nat → State → Except Raise (State × List (List (BitVec 32)))
  | 0, s => .ok (s, [])
  | n + 1, s => do
    let (s, x) ← s.pop q
    let (s, r) ← popMany q n s
    return (s, x :: r)
/-- R401: the pops are made whatever the guard holds; a register destination is empty until it is written (R38). -/
def execQpop (o : AOp) (s : State) : Host.Outcome State Fault Refusal :=
  issue (.qpop o) s fun s => do
    let q := match o.a with | .q i => i.toNat | _ => 0
    let n := if o.variant = 1 then o.m.toNat else if o.ty == .n64 then 2 else 1
    let (s, xs) ← popMany q n s
    if o.variant = 1 then return s
    let v := fun (p : Nat) => (xs.map fun x => (x.getD p 0).toNat).foldr (fun a b => a + 2 ^ 32 * b) 0
    match o.d with
    | .t _ => return (s.active o.gd).foldl (fun s p => s.write o.d o.ty (v p) p) s
    | _ =>
      let ws := (s.active o.gd).flatMap fun p => s.lateWrite o.d o.ty (v p) p
      return s.produce { writes := ws, regs := dstRegs o.d o.ty.width, pred := none, fault := none, ckpt := none }

/-! ### Uniform checks of Brush instructions (R410) -/

/-- A report to a barrier register in a regrouped cell (R44). -/
def reportCheck (o : XOp) (s : State) : Except Raise Unit := do
  require (!(s.cc.regrouped && o.report.toNat ≤ 1)) fBarMisuse o.bar.toNat
  let a := (s.gdst o.dest).toNat
  if 2 ≤ o.report.toNat then
    require (a % 16 = 0) fAlign a
    require (o.report ≠ 2 || a + 16 ≤ s.cc.scratchSz) fProt a 4
/-- A range of the cell's scratchpad. -/
def scratchRange (off n : Nat) (s : State) : Except Raise Unit := require (off + n ≤ s.cc.scratchSz) fProt off 4
/-- Room in the command queue (R408). -/
def brushRoom (s : State) : Except Raise Unit := if 16 ≤ s.cc.brush.length then holdHere else .ok ()
/-- A command with its report as the instruction names it. -/
def brushCmd (major : Nat) (o : XOp) (s : State) : Brush :=
  { (default : Brush) with major := major, sub := o.sub.toNat, report := o.report.toNat, bar := o.bar.toNat, off := o.imm.toNat,
                           word := BitVec.ofNat 57 (s.gdst o.dest).toNat, granule := o.granule.toNat, grp := s.cur.grp,
                           handler := s.cg.handler, id := s.fresh }
/-- Queue a command; its issue is a release at `.cell` (R284). -/
def queueBrush (b : Brush) (s : State) : State :=
  let s := releaseActs s.cur (s.whoOf s.cur.cell) 2 none s
  s.tick.modCc fun c => { c with brush := c.brush ++ [b] }

/-! ### ldesc -/

/-- R411. -/
def execLdesc (o : XOp) (s : State) : Host.Outcome State Fault Refusal :=
  issue (.ldesc o) s fun s => do
    let base := match o.coord with | .g i _ => some (s.gval i) | _ => none
    require (match base with | some b => b.toNat < 2 ^ 57 | none => true) fHandle ((base.getD 0).toNat)
    if (s.active o.gd).isEmpty then return s
    let k := o.imm.toNat
    let (s, r) ← readLayout ((s.gval o.record).toNat % 2 ^ 57) s
    let r := match base with | some b => leBytes 8 b.toNat ++ r.drop 8 | none => r
    let s := s.modCc fun c => { c with descs := Map.ins k r c.descs }
    return s.produce { writes := (match o.dest with | .g i => [RegWrite.g i.toNat (BitVec.ofNat 64 (2 ^ 63 + k))] | _ => []),
                       regs := dstRegs o.dest 64, pred := none, fault := none, ckpt := none }

/-! ### bcopy, bstore -/

/-- The range of the `n` coordinate registers, and those that the run itself left empty: checked whatever the guard holds (R39, R410,
R432). -/
def coordRange (o : XOp) (n : Nat) (s : State) : Except Raise Unit := do
  let c := o.coord.vIdx
  require (c + n ≤ 256) fIllegalField
  require (c + n ≤ 8 * s.cc.budget) fBudget
  require (!meets (vRange c n) s.crun.empty) fEmptyRead
/-- The leader's coordinates in vC and up. Dispatch has waited for them in block mode; one read empty in trap mode is EMPTY_READ (R37). -/
def leaderCoords (o : XOp) (n : Nat) (s : State) : Except Raise (List (BitVec 32)) := do
  let c := o.coord.vIdx
  coordRange o n s
  require (!((coordRegs o.coord n).any fun x => x.2 && s.cg.isEmpty x.1)) fEmptyRead
  let p := s.uniPos o.gd
  return (List.range n).map fun i => s.vAt p (c + i)
/-- Coordinates as signed numbers. -/
def coordInts (cs : List (BitVec 32)) : List Int := cs.map fun x => sext 32 x.toNat
/-- Bytes of a unit: one element, or a pair of 4-bit elements. -/
def unitBytes (l : Layout) : Nat := if l.ty.width = 4 then 1 else l.ty.width / 8
def unitsOf (l : Layout) : Nat := l.bytes / unitBytes l
/-- Units of burst `b`: 4 KiB of destination. -/
def burstUnits (l : Layout) (b : Nat) : List Nat :=
  let u := 4096 / unitBytes l
  ((List.range u).map (b * u + ·)).filter (· < unitsOf l)
def burstsOf (l : Layout) : Nat := (l.bytes + 4095) / 4096
/-- The locations a copy's bytes land at: on an external page the base and the copies between (R369), none in a shadow copy; in a rival such
a store is refused (R359). -/
def landPlaces (w : Who) (va : Nat) (t : Xlat) (s : State) : Except Raise (List Xlat) :=
  match writeClass s w va t false with
  | .perform xs => .ok xs
  | .suppress => .ok []
  | .defer => fault fWorldEscape va
/-- `n` undefined bytes. -/
def freeBytes (n : Nat) (s : State) : List (BitVec 8) := (List.range n).map fun i => Config.free8 (s.fresh + i)
/-- A copy reaches `n` bytes of a cell's scratchpad. They read as undefined values; what lands in them, if anything does yet, is read from
the next wait on (R297). -/
def landIn (n off len : Nat) (land : Option (List (BitVec 8))) (s : State) : State :=
  let bs := freeBytes len s
  let s := { s with fresh := s.fresh + len }.modCell n fun c => c.putScratch s.fresh off bs
  match land with
  | some x => { s with landed := s.landed ++ [⟨.scratch n off, 0, x⟩] }
  | none => s
/-- A copy reaches bytes in memory at one translation, of each of which it leaves `keep` as it is in `old`. -/
def landOut (r : GRef) (w : Who) (va len : Nat) (keep : BitVec 8) (old : List (BitVec 8)) (land : Option (List (BitVec 8))) (s : State)
    (x : Xlat) : State :=
  let s' := putAt r w true va (keepBits keep old (freeBytes len s)) { s with fresh := s.fresh + len } x
  match land with
  | some b => { s' with landed := s'.landed ++ [⟨.memory w.k (tagOf w x 0) (physOf x va), keep, b⟩] }
  | none => s'
/-- Bytes of a copy at their home in a cell's view. -/
def landBytes (r : GRef) (w : Who) (va len : Nat) (land : Option (List (BitVec 8))) (s : State) : Except Raise State := do
  let (s, _) ← (lineChunks (len + 1) (va % 2 ^ 57) len).foldlM (fun (x : State × Nat) (q : Nat × Nat) => do
    match ← x.1.checkOne w { n := 1, rd := false, wr := true } q.1 with
    | (_, none) => fault fPageAbsent q.1
    | (s, some t) =>
      let b := land.map fun b => (b.drop x.2).take q.2
      return ((← landPlaces w q.1 t s).foldl (landOut r w q.1 q.2 0 [] b) s, x.2 + q.2)) (s, 0)
  return s
/-- A nibble at one location; the other nibble of its byte is kept. A poisoned byte cannot be changed in part (R439). -/
def nibbleAt (r : GRef) (w : Who) (a : Nat) (land : Option Nat) (s : State) (x : Xlat) : Except Raise State :=
  let pa := physOf x (a / 2)
  let (s, b, bad) := s.readPa w.k (tagOf w x 0) true pa 1
  let up := a % 2 = 1
  if bad then fault fMemUncorr pa
  else .ok (landOut r w (a / 2) 1 (if up then 0x0F else 0xF0) b (land.map fun v => [BitVec.ofNat 8 (if up then 16 * v else v)]) s x)
/-- A nibble of memory. -/
def nibbleOut (r : GRef) (w : Who) (a : Nat) (land : Option Nat) (s : State) : Except Raise State := do
  match ← s.checkOne w { n := 1, rd := false, wr := true } (a / 2) with
  | (_, none) => fault fPageAbsent (a / 2)
  | (s, some t) => (← landPlaces w (a / 2) t s).foldlM (nibbleAt r w a land) s
/-- A unit of a `bstore`: its bytes go where its elements stand; the bytes reached are counted. -/
def unitOut (r : GRef) (w : Who) (l : Layout) (cs : List Int) (u : Nat) (land : Option (List (BitVec 8))) (s : State) : Except Raise (State × Nat) :=
  if l.ty.width = 4 then
    let lo := land.map fun b => leNat b % 16
    let hi := land.map fun b => leNat b / 16
    match l.elemAt cs (2 * u), l.elemAt cs (2 * u + 1) with
    | none, none => .ok (s, 0)
    | some a, none => do return (← nibbleOut r w a lo s, 1)
    | none, some b => do return (← nibbleOut r w b hi s, 1)
    | some a, some b => do return (← nibbleOut r w b hi (← nibbleOut r w a lo s), 1)
  else match l.elemAt cs u with
    | none => .ok (s, 0)
    | some a => do return (← landBytes r w (a / 2) (unitBytes l) land s, unitBytes l)
/-- An undefined value where a unit is not written, or not yet (R297, R408). -/
def freeUnit (w : Who) (b : Brush) (s : State) (u : Nat) : State :=
  let l := layoutOf b.layout
  if b.major = 0xC8 then landIn w.cell (b.off + unitBytes l * u) (unitBytes l) none s
  else match unitOut ⟨w.cell, b.grp⟩ w l (coordInts b.coords) u none s with | .ok (s, _) => s | .error _ => s
/-- What a copy will write reads as undefined values until it has landed (R297): they stand there from its issue on. Where an access is
refused, the refusal is the landing's to meet. -/
def clearDest (b : Brush) (s : State) : State :=
  (List.range (unitsOf (layoutOf b.layout))).foldl (freeUnit (s.whoOf s.cur.cell) b) s
/-- The scratchpad range of a copy. -/
def boxRange (b : Brush) : Nat × Nat := (b.off, (layoutOf b.layout).bytes)
/-- Two byte ranges (start, length) meet. -/
def rangesMeet (a b : Nat × Nat) : Bool := a.1 < b.1 + b.2 && b.1 < a.1 + a.2
/-- A `bstore` keeps the ranges of the cell's queued `bcopy` commands that meet its own: the bytes there are undefined values (R425;
log 97). -/
def crossed (b : Brush) (s : State) : Brush :=
  if b.major ≠ 0xC9 then b
  else { b with crossings := ((s.cc.brush.filter fun c => c.major == 0xC8).map boxRange).filter (rangesMeet (boxRange b)) }
/-- A `bcopy` adds its range to the queued `bstore` commands that it meets (R425). -/
def crossStores (b : Brush) (s : State) : State :=
  let cross := fun (x : Brush) =>
    if x.major == 0xC9 && rangesMeet (boxRange b) (boxRange x) then { x with crossings := boxRange b :: x.crossings } else x
  if b.major ≠ 0xC8 then s else s.modCc fun c => { c with brush := c.brush.map cross }
/-- A page a `bstore` would write is external in its view (R356). -/
def storesExternal (l : Layout) (cs : List Int) (s : State) : Option Nat :=
  let w := s.whoOf s.cur.cell
  (List.range l.total).findSome? fun n => match l.elemAt cs n with
    | some a => match (s.translate w.k w.ctx w.view (a / 2)).2 with
      | some x => if s.external w.ctx w.view (a / 2) x.leaf then some (a / 2) else none
      | none => none
    | none => none
/-- What remains of the issue once the record is known. -/
def boxIssue (major : Nat) (o : XOp) (at' : Nat) (r : List (BitVec 8)) (s : State) : Except Raise State := do
  let l := layoutOf r
  let cs ← leaderCoords o l.dims s
  scratchRange o.imm.toNat l.bytes s
  let ci := coordInts cs
  require (l.ty.width ≠ 4 || ci.getD 0 0 % 2 = 0) fHandle at'
  match (if major = 0xC9 && refuses s then storesExternal l ci s else none) with
  | some a => refuse s a
  | none =>
    brushRoom s
    let b := { brushCmd major o s with layout := r, coords := cs }
    return clearDest b (queueBrush (crossed b s) (crossStores b s))
/-- R412. With Active() empty only the checks that need no memory are made. -/
def boxCommand (major : Nat) (o : XOp) (s : State) : Except Raise State := do
  let h := s.gval o.record
  match ← handleForm h s with
  | .slot r =>
    coordRange o (layoutOf r).dims s
    reportCheck o s
    scratchRange o.imm.toNat (layoutOf r).bytes s
    if (s.active o.gd).isEmpty then return s
    boxIssue major o (h.toNat % 8) r s
  | .mem va =>
    reportCheck o s
    if (s.active o.gd).isEmpty then return s
    let (s, r) ← readLayout va s
    boxIssue major o va r s
/-- R412. -/
def execBcopy (o : XOp) (s : State) : Host.Outcome State Fault Refusal := issue (.bcopy o) s (boxCommand 0xC8 o)
/-- R412. -/
def execBstore (o : XOp) (s : State) : Host.Outcome State Fault Refusal := issue (.bstore o) s (boxCommand 0xC9 o)

/-! ### bmcast (R413) -/

def chainDst (k : BitVec 64) : Nat := bits k.toNat 23 0
def chainLen (k : BitVec 64) : Nat := 16 * (bits k.toNat 35 24 + 1)
def chainWord (k : BitVec 64) : Nat := 16 * bits k.toNat 55 36
/-- The cell of a stage of the issuing cell's gang. -/
def stageCell (c : Cell) (stage : Nat) (s : State) : Option Nat :=
  (s.cells.find? fun x => x.2.ticket == c.ticket && x.2.x == c.x && x.2.y == c.y && x.2.z == c.z && x.2.stage == stage && !x.2.rival
    && (match x.2.role with | .copy _ => false | _ => true)).map Prod.fst
/-- The receivers' bytes read as undefined values from the issue on (R297); a range beyond a receiver is its hop's to meet. -/
def clearHops (k : BitVec 64) (h : Nat) (s : State) : State :=
  let c := s.cc
  ((List.range h).filterMap fun j => stageCell c (c.stage + j + 1) s).foldl (fun s m =>
    if chainDst k + chainLen k ≤ (s.cell m).scratchSz then landIn m (chainDst k) (chainLen k) none s else s) s
/-- R413: the source bytes are captured at issue. -/
def execBmcast (o : XOp) (s : State) : Host.Outcome State Fault Refusal :=
  issue (.bmcast o) s fun s => do
    reportCheck o s
    let k := s.gval o.record
    require (k.toNat < 2 ^ 56 && chainDst k % 16 = 0) fHandle k.toNat
    require (s.cc.stage + o.count.toNat ≤ s.cc.nstage - 1) fHandle k.toNat
    scratchRange o.imm.toNat (chainLen k) s
    if (s.active o.gd).isEmpty then return s
    if refuses s then refuse s 0
    brushRoom s
    let b := { brushCmd 0xCA o s with chain := k, hops := o.count.toNat, rec64 := Map.bytes s.cc.scratch o.imm.toNat (chainLen k) }
    return clearHops k o.count.toNat (queueBrush b s)

/-! ### bred (R414) -/

structure Coll where
  tag : BitVec 64
  p : Nat
  n : Nat
  src : Nat
  dst : Nat
  mask : List (BitVec 8)
deriving DecidableEq, Repr
def collOf (r : List (BitVec 8)) : Coll :=
  ⟨BitVec.ofNat 64 (field r 0 8), field r 8 4 + 1, field r 12 4 + 1, field r 16 4, field r 20 4, (r.drop 32).take 32⟩
def maskBit (m : List (BitVec 8)) (i : Nat) : Bool := (m.getD (i / 8) 0).getLsbD (i % 8)
/-- Modules named other than this one. -/
def otherModules (m : List (BitVec 8)) (me : Nat) : Bool := (List.range 256).any fun i => i ≠ me && maskBit m i
def collOk (r : List (BitVec 8)) (s : State) : Bool :=
  let c := collOf r
  let me := s.module.modnum.toNat
  c.tag ≠ 0 && field r 8 4 < 2 ^ 20 && field r 12 4 < 2 ^ 13 && c.src < 2 ^ 24 && c.dst < 2 ^ 24 && c.src % 16 == 0 && c.dst % 16 == 0
  && zeroAt r 24 8 && maskBit c.mask me && (s.featOn 5 || !otherModules c.mask me)
/-- Bytes of an element of a variant. -/
def collWidth (sub : Nat) : Nat := if sub = 3 then 8 else 4
/-- The contribution as it stands in scratchpad at issue. -/
def collVals (sub : Nat) (c : Coll) (s : State) : List (BitVec 64) :=
  (List.range c.n).map fun i => BitVec.ofNat 64 (leNat (Map.bytes s.cc.scratch (c.src + collWidth sub * i) (collWidth sub)))
/-- The contribution's round: its record for `sub`, `n` and `mask` agrees with the round's first one on this module. -/
def roundAgrees (r : Round) (variant n : Nat) (mask : List (BitVec 8)) : Bool := r.variant == variant && r.n == n && r.mask == mask
def roundOf (tag : BitVec 64) (k : Nat) (s : State) : Option Round := s.rounds.find? fun r => r.tag == tag && r.round == k
/-- Elements of a contribution, held with the command until it is accepted. -/
def packVals (w : Nat) (vs : List (BitVec 64)) : List (BitVec 8) := vs.flatMap fun v => leBytes w v.toNat
/-- R414: the contribution is captured; the group's next run waits for its acceptance. -/
def execBred (o : XOp) (s : State) : Host.Outcome State Fault Refusal :=
  issue (.bred o) s fun s => do
    reportCheck o s
    if (s.active o.gd).isEmpty then return s
    if refuses s then refuse s (s.gval o.record).toNat
    let a := (s.gval o.record).toNat % 2 ^ 57
    let (s, r) ← readRecord (s.whoOf s.cur.cell) 64 a 64 s
    require (collOk r s) fHandle a
    let c := collOf r
    let w := collWidth o.sub.toNat
    scratchRange c.src (w * c.n) s
    scratchRange c.dst (w * c.n) s
    let k := Map.getD s.cc.bredRounds c.tag.toNat 0
    require (match roundOf c.tag k s with | some x => roundAgrees x o.sub.toNat c.n c.mask | none => true) fHandle a
    brushRoom s
    let b : Brush := { brushCmd 0xCB o s with off := c.dst, chain := c.tag, hops := c.p, hop := c.n, layout := c.mask, round := k,
                                              rec64 := packVals w (collVals o.sub.toNat c s), addr := BitVec.ofNat 64 a }
    let s := landIn s.cur.cell c.dst (w * c.n) none (queueBrush b s)
    let s := s.modCc fun x => { x with bredRounds := Map.ins c.tag.toNat (k + 1) x.bredRounds }
    return s.modCg fun g => { g with holds := g.holds ++ [.bredAccept s.cur.cell b.id] }

end Sys2Proof.Machine
end

