-- ==== Sys2Proof/Machine/Float.lean ====
section
/-! DEFINITION. Element-wise floating point, double precision and conversion (R206-R223). -/
namespace Sys2Proof.Machine
open Sys2Proof State

/-- An integer as an exact value. -/
def intVal (x : Int) : Val := .fin (decide (x < 0)) x.natAbs 0
/-- Where a narrow format does not hold the integer it is rounded to nearest and saturates: DESIGN CHOICE, R211 says only that it is converted
exactly (log 115). -/
def intPattern (t : Ty) (x : Int) : Nat := roundTo t {} (decide (x < 0)) x.natAbs 1 0

/-- Rounding context of the FM word (R206). -/
def fmCtx (m : BitVec 32) (draw : Nat) : RCtx :=
  { mode := bits m.toNat 8 6, ftz := m.getLsbD 5, sat := m.getLsbD 4, nsat := m.getLsbD 3, draw := draw }
/-- RNDKEY of a lane's original group (R190, R205). -/
def rndKey (s : State) (p : Nat) : Nat := (Map.getD s.cc.groups (s.clOf p / 32) default).rndkey.toNat
/-- The draw of R190, for the stochastic mode only. -/
def drawFor (s : State) (mode major p e : Nat) (srcs : List Nat) : Nat :=
  if mode = 4 then rsDraw (rndKey s p) major (s.clOf p) e srcs else 0

/-- Pattern of element `k` of a source in the lane at `p` (R187, R211): an immediate converts exactly, also as a float source of fcvt,
fcvt.pk, dcvt and chrun, which R211's sentence does not list (DEDUCED, log 132), and every element of it has that one value. -/
def elemOf (s : State) (fld : Nat) (x : Src) (t : Ty) (p k : Nat) : Nat :=
  match x with
  | .imm b => intPattern t (sext 8 b.toNat)
  | x => if t.width = 64 then s.src fld x 64 p else s.src fld x 32 p / 2 ^ (t.width * k) % 2 ^ t.width

/-- What the draw mixes of a source (R190): its element's pattern as it stands (log 19), a queue entry as popped. -/
def drawOf (s : State) (fld : Nat) (x : Src) (p u : Nat) : Nat := if x.isQ then s.src fld x 32 p else u
/-- Source fields an instruction uses, with their numbers. -/
def aSources (major : Nat) (o : AOp) : List (Nat × Src) :=
  let u := aUses major o
  (if u.2.1 then [(0, o.a)] else []) ++ (if u.2.2.1 then [(1, o.b)] else []) ++ (if u.2.2.2 then [(2, o.c)] else [])

/-- The template of R211: each element of each active lane from its source elements, rounded once by `f`. -/
def floatOp (i : Instr) (major : Nat) (o : AOp) (s : State) (f : RCtx → List Nat → Nat) : Host.Outcome State Fault Refusal :=
  issueOk i s fun s => s.apply o.gd o.d (if o.ty.width = 64 then .n64 else .n32) fun p =>
    let ks := if o.m.getLsbD 2 then [0, 1] else [0]
    ks.foldl (fun v k =>
      let srcs := (aSources major o).map fun x => elemOf s x.1 x.2 o.ty p k
      let mixed := (aSources major o).zipWith (fun x u => drawOf s x.1 x.2 p u) srcs
      v + f (fmCtx o.m (drawFor s (bits o.m.toNat 8 6) major p k mixed)) srcs * 2 ^ (o.ty.width * k)) 0

/-- One rounding of an exact function of the source values; NaN by R193. -/
def floatArith (i : Instr) (major : Nat) (o : AOp) (s : State) (f : Bool → List Val → Val) : Host.Outcome State Fault Refusal :=
  floatOp i major o s fun c srcs =>
    let vs := srcs.map (valF o.ty c.ftz)
    arith o.ty c vs (f (c.mode == 3) vs)
def v0 (l : List Val) : Val := l.getD 0 .inv
def v1 (l : List Val) : Val := l.getD 1 .inv
def v2 (l : List Val) : Val := l.getD 2 .inv

/-- R212. -/
def execFadd (o : AOp) (s : State) : Host.Outcome State Fault Refusal :=
  floatArith (.fadd o) 0x30 o s fun rm l => addV rm (v0 l) (v1 l)
/-- R212. -/
def execFsub (o : AOp) (s : State) : Host.Outcome State Fault Refusal :=
  floatArith (.fsub o) 0x31 o s fun rm l => addV rm (v0 l) (v1 l).neg
/-- R212. -/
def execFmul (o : AOp) (s : State) : Host.Outcome State Fault Refusal :=
  floatArith (.fmul o) 0x32 o s fun _ l => mulV (v0 l) (v1 l)
/-- R212: no intermediate rounding. -/
def execFfma (o : AOp) (s : State) : Host.Outcome State Fault Refusal :=
  floatArith (.ffma o) 0x33 o s fun rm l => addV rm (mulV (v0 l) (v1 l)) (v2 l)
/-- R213. -/
def execFmin (o : AOp) (s : State) : Host.Outcome State Fault Refusal :=
  floatOp (.fmin o) 0x34 o s fun c l => fminmax o.ty false c.ftz (l.getD 0 0) (l.getD 1 0)
/-- R213. -/
def execFmax (o : AOp) (s : State) : Host.Outcome State Fault Refusal :=
  floatOp (.fmax o) 0x35 o s fun c l => fminmax o.ty true c.ftz (l.getD 0 0) (l.getD 1 0)

/-- Comparison into pw (R214). -/
def fcmpOp (i : Instr) (o : AOp) (s : State) : Host.Outcome State Fault Refusal :=
  issueOk i s fun s => s.applyPred o.gd (bits o.m.toNat 31 28) fun p =>
    let v := fun n x => valF o.ty (o.m.getLsbD 5) (elemOf s n x o.ty p 0)
    fcond o.variant.toNat (v 0 o.a) (v 1 o.b)
def execFcmp (o : AOp) (s : State) : Host.Outcome State Fault Refusal := fcmpOp (.fcmp o) o s
/-- R214, R221. -/
def execDcmp (o : AOp) (s : State) : Host.Outcome State Fault Refusal := fcmpOp (.dcmp o) o s

/-- R215: the stored pattern's class. -/
def execFclass (o : AOp) (s : State) : Host.Outcome State Fault Refusal :=
  issueOk (.fclass o) s fun s => s.apply o.gd o.d .n32 fun p => classOf o.ty (elemOf s 0 o.a o.ty p 0)
/-- A function of one source value. -/
def floatUnary (i : Instr) (major : Nat) (o : AOp) (s : State) (f : RCtx → Val → Nat) : Host.Outcome State Fault Refusal :=
  floatOp i major o s fun c l => f c (valF o.ty c.ftz (l.getD 0 0))
/-- R216. -/
def execFrnd (o : AOp) (s : State) : Host.Outcome State Fault Refusal := floatUnary (.frnd o) 0x38 o s (frndV o.ty)
/-- R217. -/
def execFrcp (o : AOp) (s : State) : Host.Outcome State Fault Refusal := floatUnary (.frcp o) 0x39 o s (frcpV o.ty)
/-- R217. -/
def execFrsq (o : AOp) (s : State) : Host.Outcome State Fault Refusal := floatUnary (.frsq o) 0x3A o s (frsqV o.ty)
/-- R217. -/
def execFsqrt (o : AOp) (s : State) : Host.Outcome State Fault Refusal := floatUnary (.fsqrt o) 0x3B o s (fsqrtV o.ty)
/-- R218. -/
def execFexpf (o : AOp) (s : State) : Host.Outcome State Fault Refusal := floatUnary (.fexpf o) 0x3C o s fexpfV
/-- R218. -/
def execFlog2 (o : AOp) (s : State) : Host.Outcome State Fault Refusal := floatUnary (.flog2 o) 0x3D o s flog2V
/-- R218. -/
def execFsinf (o : AOp) (s : State) : Host.Outcome State Fault Refusal := floatUnary (.fsinf o) 0x3E o s fsinfV
/-- R218. -/
def execFcosf (o : AOp) (s : State) : Host.Outcome State Fault Refusal := floatUnary (.fcosf o) 0x3F o s fcosfV

/-- A × 2^n rounded once (R219). Beyond 5,000 in magnitude n gives what 5,000 gives: every format has overflowed, or the
product lies far below half its least subnormal. -/
def xinsV (t : Ty) (c : RCtx) (v : Val) (n : Int) : Nat :=
  match v with
  | .fin s m e => roundVal t c false (.fin s m (e + max (-5000) (min 5000 n)))
  | v => roundVal t c false v
def execXins (o : AOp) (s : State) : Host.Outcome State Fault Refusal :=
  issueOk (.xins o) s fun s => s.apply o.gd o.d .n32 fun p =>
    let a := elemOf s 0 o.a o.ty p 0
    let n := s.read 1 o.b .i32 p
    let c := fmCtx o.m (drawFor s (bits o.m.toNat 8 6) 0x40 p 0 [drawOf s 0 o.a p a, s.src 1 o.b 32 p])
    xinsV o.ty c (valF o.ty c.ftz a) n
/-- Floor(log2 |A|) as i32 (R219). -/
def xgetExp : Val → Int
  | .fin _ m e => if m = 0 then -2147483648 else (m.log2 : Int) + e
  | _ => 2147483647
def execXgetE (o : AOp) (s : State) : Host.Outcome State Fault Refusal :=
  issueOk (.xgetE o) s fun s => s.apply o.gd o.d .i32 fun p =>
    (xgetExp (valF o.ty (o.m.getLsbD 5) (elemOf s 0 o.a o.ty p 0)) % (2 : Int) ^ 32).toNat
/-- A × 2^-e, in [1, 2) (R219). -/
def xgetMant (t : Ty) (c : RCtx) (v : Val) : Nat :=
  match v with
  | .fin s m e => if m = 0 then signBit t s else roundVal t c false (.fin s m (e - xgetExp v))
  | v => roundVal t c false v
def execXgetM (o : AOp) (s : State) : Host.Outcome State Fault Refusal := floatUnary (.xgetM o) 0x41 o s (xgetMant o.ty)

/-- Conversion of a source pattern of type `st` to a pattern of type `t` (R220, R222). -/
def convert (t st : Ty) (c : RCtx) (u : Nat) : Nat :=
  let isInt := fun (x : Ty) => decide (x.code < 8)
  if isInt st then let x := tyVal st u
                   roundVal t c true (intVal x)
  else
    let v := valF st c.ftz u
    if isInt t then
      match v with
      | .fin n m e => fin t (sgnInt n (roundMag c n m e)) true
      | .inf n => fin t (if n then -(2 : Int) ^ 70 else (2 : Int) ^ 70) true
      | _ => 0
    else roundVal t c true v
/-- Type the result is written as: narrow floats zero-extend (R187). -/
def writeTy (t : Ty) : Ty := if t.code < 8 then t else if t.width = 64 then .n64 else .n32
def convertOp (i : Instr) (major : Nat) (o : AOp) (s : State) : Host.Outcome State Fault Refusal :=
  issueOk i s fun s => s.apply o.gd o.d (writeTy o.ty) fun p =>
    let st := o.stype major
    let u := if st.code < 8 then s.src 0 o.a st.width p else elemOf s 0 o.a st p 0
    convert o.ty st (fmCtx o.m (drawFor s (bits o.m.toNat 8 6) major p 0 [drawOf s 0 o.a p u])) u
/-- R220, variant 0. -/
def execFcvt (o : AOp) (s : State) : Host.Outcome State Fault Refusal := convertOp (.fcvt o) 0x42 o s
/-- R220, variant 1: element 0 from a, element 1 from b. -/
def execFcvtPk (o : AOp) (s : State) : Host.Outcome State Fault Refusal :=
  issueOk (.fcvtPk o) s fun s => s.apply o.gd o.d .n32 fun p =>
    let l := [elemOf s 0 o.a .f32 p 0, elemOf s 1 o.b .f32 p 0]
    let c := fun k => fmCtx o.m (drawFor s (bits o.m.toNat 8 6) 0x42 p k l)
    convert o.ty .f32 (c 0) (l.getD 0 0) + convert o.ty .f32 (c 1) (l.getD 1 0) * 2 ^ 16
/-- R221. -/
def execDadd (o : AOp) (s : State) : Host.Outcome State Fault Refusal :=
  floatArith (.dadd o) 0x47 o s fun rm l => addV rm (v0 l) (v1 l)
/-- R221. -/
def execDmul (o : AOp) (s : State) : Host.Outcome State Fault Refusal :=
  floatArith (.dmul o) 0x48 o s fun _ l => mulV (v0 l) (v1 l)
/-- R221. -/
def execDfma (o : AOp) (s : State) : Host.Outcome State Fault Refusal :=
  floatArith (.dfma o) 0x49 o s fun rm l => addV rm (mulV (v0 l) (v1 l)) (v2 l)
/-- R222, variant 0. -/
def execDcvt (o : AOp) (s : State) : Host.Outcome State Fault Refusal := convertOp (.dcvt o) 0x4B o s
/-- R222, variant 1: rounds to an integral f64. -/
def execDcvtInt (o : AOp) (s : State) : Host.Outcome State Fault Refusal := floatUnary (.dcvtInt o) 0x4B o s (frndV o.ty)

/-- C + A0 B0 + A1 B1, exact, rounded once into f32 (R223). Of two NaN elements of one source the first is element 0: DESIGN CHOICE, R193 orders
only the sources (log 114). An immediate a or b is its value in element 1 too (DESIGN CHOICE, log 133). -/
def execFdot2 (o : AOp) (s : State) : Host.Outcome State Fault Refusal :=
  issueOk (.fdot2 o) s fun s => s.apply o.gd o.d .n32 fun p =>
    let e := fun n x k => elemOf s n x o.ty p k
    let cw := elemOf s 2 o.c .f32 p 0
    let ops := [e 0 o.a 0 + e 0 o.a 1 * 2 ^ 16, e 1 o.b 0 + e 1 o.b 1 * 2 ^ 16, cw]
    let c := fmCtx o.m (drawFor s (bits o.m.toNat 8 6) 0x46 p 0 ops)
    let v := valF o.ty c.ftz
    let vc := valF .f32 c.ftz cw
    let (a0, a1, b0, b1) := (v (e 0 o.a 0), v (e 0 o.a 1), v (e 1 o.b 0), v (e 1 o.b 1))
    arith .f32 c [a0, a1, b0, b1, vc] (sumV (c.mode == 3) [vc, mulV a0 b0, mulV a1 b1])

end Sys2Proof.Machine
end

