-- ==== Sys2Proof/Machine/Chain.lean ====
section
/-! DEFINITION. The chain store: loading a chain record and running a chain (R235-R239). -/
namespace Sys2Proof.Machine
open Sys2Proof State

/-- Fields of an operation word (R235). -/
def chOp (w : BitVec 64) : Nat := bits w.toNat 63 56
def chDst (w : BitVec 64) : Nat := bits w.toNat 55 52
def chSa (w : BitVec 64) : Nat := bits w.toNat 51 48
def chSb (w : BitVec 64) : Nat := bits w.toNat 47 44
def chSc (w : BitVec 64) : Nat := bits w.toNat 43 40
def chRnd (w : BitVec 64) : Nat := bits w.toNat 39 37
/-- Sources an opcode uses. -/
def chArity (op : Nat) : Nat := if op = 4 ∨ op = 14 then 3 else if op ≤ 6 then 2 else 1
def chSrcOk (n : Nat) : Bool := n ≤ 14
/-- An operation word is well formed (R235): an unused source is 0, `fexpf` has rounding 000. -/
def chainOpOk (w : BitVec 64) : Bool :=
  let op := chOp w
  let n := chArity op
  let used := fun (i c : Nat) => if i < n then (c ≤ 2 || 3 ≤ c) && chSrcOk c else c == 0
  1 ≤ op && op ≤ 14 && 3 ≤ chDst w && chDst w ≤ 10 && used 0 (chSa w) && used 1 (chSb w) && used 2 (chSc w)
  && chRnd w ≤ 3 && (op ≠ 10 || chRnd w == 0) && bits w.toNat 35 0 == 0
/-- The fixed part of a record is well formed. -/
def chainHeadOk (r : List (BitVec 8)) : Bool :=
  let o := field r 1 1
  1 ≤ field r 0 1 && field r 0 1 ≤ 16 && bits o 2 0 ≤ 4 && bits o 7 5 == 0 && zeroAt r 2 14

/-- The slot after a load: the chain, or invalid. -/
def setChain (k n : Nat) (c : Option Chain) (s : State) : State :=
  s.modStudio k fun st => { st with chains := match c with | some c => Map.ins n c st.chains | none => Map.del n st.chains }
/-- The chain a record gives. -/
def parseChain (ctx : Nat) (addr : BitVec 64) (r : List (BitVec 8)) : Option Chain :=
  let n := field r 0 1
  let ops := (List.range n).map fun i => BitVec.ofNat 64 (field r (32 + 8 * i) 8)
  if chainHeadOk r && ops.all chainOpOk then
    some { ops := ops, consts := (List.range 4).map fun i => BitVec.ofNat 32 (field r (16 + 4 * i) 4), out := r.getD 1 0, ctx := ctx, addr := addr }
  else none
/-- Read a record whole, 32 + 8n bytes for the n of its head, and validate it: the chain, none where it is malformed (R236 steps 1 and
2). -/
def loadChain (w : Who) (addr : BitVec 64) (s : State) : Except Raise (State × Option Chain) := do
  let (s, h) ← readRecord w 32 addr.toNat 32 s
  let (s, r) ← readRecord w 8 (addr.toNat + 32) (8 * field h 0 1) s
  return (s, parseChain w.ctx addr (h ++ r))
/-- R236. A malformed record leaves the slot invalid, then HANDLE; after any other fault the slot stays as it was (log 105). -/
def execChld (o : AOp) (s : State) : Host.Outcome State Fault Refusal :=
  let k := bits o.m.toNat 2 0
  let body := fun (s : State) => (if (s.active o.gd).isEmpty then .ok s else do
    let (s, c) ← loadChain (s.whoOf s.cur.cell) (s.gsrc o.a) s
    match c with
    | some c => return setChain s.ck k (some c) s
    | none => fault fHandle (s.gsrc o.a).toNat : Except Raise State)
  -- the slot a malformed record names is left invalid
  let bad := match (if (s.active o.gd).isEmpty then .ok (s, some default) else loadChain (s.whoOf s.cur.cell) (s.gsrc o.a) s) with
    | .ok (_, none) => true | _ => false
  let s' := if bad && (s.usesCheck (.chld o)).isOk then setChain s.ck k none s else s
  issue (.chld o) s' body

/-- The chain slots of a cell's save list are loaded anew, before its first run; a record that is malformed or cannot be read leaves its
slot invalid, and one at a page that is migrating is waited for (R158, R240). -/
def reloadChains (n : Nat) (s : State) : State :=
  let one := fun (x : State × Map (BitVec 64)) (e : Nat × BitVec 64) =>
    match loadChain (x.1.whoOf n) e.2 x.1 with
    | .ok (s, c) => (setChain (s.cell n).studio e.1 c s, x.2)
    | .error y => if y.hold then (x.1, Map.ins e.1 e.2 x.2) else (setChain (x.1.cell n).studio e.1 none x.1, x.2)
  let x := (s.cell n).chainSave.foldl one (s, [])
  x.1.modCell n fun c => { c with chainSave := x.2 }

/-- Value of a chain operand: inputs, k registers, constants. -/
def chainSrc (xyz : List Nat) (ks : Map Nat) (cs : List (BitVec 32)) (c : Nat) : Nat :=
  if c ≤ 2 then xyz.getD c 0 else if c ≤ 10 then Map.getD ks (c - 3) 0 else (cs.getD (c - 11) 0).toNat
/-- A source of one operation, a subnormal one a signed zero where the operation flushes (R192, R235). -/
def chFlush (w : BitVec 64) (u : Nat) : Nat := if w.getLsbD 36 && isSubnormal .f32 u then signBit .f32 (u.testBit 31) else u
/-- One operation, in f32, as its instruction computes it (R235). -/
def chainStep (w : BitVec 64) (a b c : Nat) : Nat :=
  let x : RCtx := { mode := chRnd w, ftz := w.getLsbD 36 }
  let (a, b, c) := (chFlush w a, chFlush w b, chFlush w c)
  let v := valF .f32 x.ftz
  let rm := x.mode == 3
  match chOp w with
  | 1 => arith .f32 x [v a, v b] (addV rm (v a) (v b))
  | 2 => arith .f32 x [v a, v b] (addV rm (v a) (v b).neg)
  | 3 => arith .f32 x [v a, v b] (mulV (v a) (v b))
  | 4 => arith .f32 x [v a, v b, v c] (addV rm (mulV (v a) (v b)) (v c))
  | 5 => fminmax .f32 false x.ftz a b
  | 6 => fminmax .f32 true x.ftz a b
  | 7 => frcpV .f32 x (v a)
  | 8 => fsqrtV .f32 x (v a)
  | 9 => frsqV .f32 x (v a)
  | 10 => fexpfV x (v a)
  | 11 => frndV .f32 x (v a)
  | 12 => a % 2 ^ 31
  | 13 => Nat.xor a (2 ^ 31)
  | _ => if !(val .f32 a).isNan && !((val .f32 a).negative && !(val .f32 a).isZero) then b else c
/-- The k registers and the last destination's value after the operations. -/
def runChain (ch : Chain) (xyz : List Nat) : Nat :=
  (ch.ops.foldl (fun (st : Map Nat × Nat) w =>
    let g := chainSrc xyz st.1 ch.consts
    let r := chainStep w (g (chSa w)) (g (chSb w)) (g (chSc w))
    (Map.ins (chDst w - 3) r st.1, r)) ([], 0)).2
/-- An input element as f32. -/
def chainIn (t : Ty) (u : Nat) : Nat := if t == .f32 then u else convert .f32 t {} u
/-- R237. Its output step counts as a conversion also where the output is f32: `.sat` takes an infinite last destination to the largest
finite value there, as to any other type (DESIGN CHOICE, log 131). -/
def execChrun (o : AOp) (s : State) : Host.Outcome State Fault Refusal :=
  issue (.chrun o) s fun s =>
    let k := bits o.m.toNat 2 0
    match Map.find k (s.studio s.ck).chains with
    | none => fault fHandle k
    | some ch =>
      if ch.ctx ≠ s.cc.ctx then fault fHandle k else
      let ob := ch.out.toNat
      .ok (s.apply o.gd o.d .n32 fun p =>
        let es := if o.ty.width = 16 then [0, 1] else [0]
        es.foldl (fun v e =>
          let xyz := [elemOf s 0 o.a o.ty p e, elemOf s 1 o.b o.ty p e, elemOf s 2 o.c o.ty p e].map (chainIn o.ty)
          let c : RCtx := { mode := bits ob 2 0, ftz := bits ob 3 3 == 1, sat := bits ob 4 4 == 1,
                            draw := drawFor s (bits ob 2 0) 0x61 p e xyz }
          v + roundVal o.ty c true (val .f32 (runChain ch xyz)) * 2 ^ (o.ty.width * e)) 0)

end Sys2Proof.Machine
end

