-- ==== Sys2Proof/Machine/Control.lean ====
section
/-! DEFINITION. Control flow: branches, calls, priority, trailing results, exit, regrouping (R133-R144). -/
namespace Sys2Proof.Machine
open Sys2Proof State

/-- Positions of the issuing entry. -/
def entryLanes (s : State) : List Nat := positions s.entry.mask
/-- Continuations: the lanes `ps` at `t`; every other lane at the next slot (Continue of R133). -/
def goTo (ps : List Nat) (t : Nat → BitVec 64) : After := .go (ps.map fun p => (p, some (t p))) none
/-- Indirect targets of the active lanes, as code pointers. -/
def targetAt (o : BOp) (s : State) (p : Nat) : BitVec 64 := BitVec.ofNat 64 (s.src 0 o.a 64 p)

/-- R136: a direct branch of the active lanes. -/
def execBr (o : BOp) (s : State) : Host.Outcome State Fault Refusal :=
  issueWith (.br o) s fun s => .ok (s, goTo (s.active o.gd) fun _ => directTarget s.crun.pc o)
/-- R136: the whole entry branches when any lane is active. -/
def execBraAny (o : BOp) (s : State) : Host.Outcome State Fault Refusal :=
  issueWith (.braAny o) s fun s =>
    .ok (s, if (s.active o.gd).isEmpty then .seq else goTo (entryLanes s) fun _ => directTarget s.crun.pc o)
/-- R136: the whole entry branches when every lane is active. -/
def execBraAll (o : BOp) (s : State) : Host.Outcome State Fault Refusal :=
  issueWith (.braAll o) s fun s =>
    .ok (s, if s.active o.gd = entryLanes s then goTo (entryLanes s) fun _ => directTarget s.crun.pc o else .seq)
/-- R136: each active lane at its own target. -/
def execBrx (o : BOp) (s : State) : Host.Outcome State Fault Refusal :=
  issueWith (.brx o) s fun s => do
    s.targetsCheck false ((s.active o.gd).map (targetAt o s))
    return (s, goTo (s.active o.gd) (targetAt o s))

/-- Write the link pair of the active lanes (R138). -/
def writeLink (o : BOp) (s : State) : State := s.apply o.gd o.link .n64 fun _ => (nextPC s.crun.pc).toNat
/-- R138. -/
def execCall (o : BOp) (s : State) : Host.Outcome State Fault Refusal :=
  issueWith (.call o) s fun s => .ok (writeLink o s, goTo (s.active o.gd) fun _ => directTarget s.crun.pc o)
/-- R138: the targets are read before the link is written. -/
def execCalli (o : BOp) (s : State) : Host.Outcome State Fault Refusal :=
  issueWith (.calli o) s fun s => do
    s.targetsCheck true ((s.active o.gd).map (targetAt o s))
    return (writeLink o s, goTo (s.active o.gd) (targetAt o s))
/-- R140. -/
def execRet (o : BOp) (s : State) : Host.Outcome State Fault Refusal :=
  issueWith (.ret o) s fun s => do
    s.targetsCheck false ((s.active o.gd).map (targetAt o s))
    return (s, goTo (s.active o.gd) (targetAt o s))

/-- R141. -/
def execPrio (o : BOp) (s : State) : Host.Outcome State Fault Refusal :=
  issueWith (.prio o) s fun s => .ok (s, .go [] (some o.prio))

/-- Destinations the trail mask marks; none where a marked instruction of the run has no v or g destination (R142). -/
def trailRegs (o : BOp) (s : State) : Option (List Reg) :=
  let mask := bits o.a.field 7 0 * 65536 + o.aux.toNat
  let marked := (List.range 23).filter fun j => bits mask j j == 1
  let dests := marked.filterMap fun j => s.crun.hist[j]?
  if dests.any (·.isEmpty) then none else some (distinct dests.flatten)
/-- R142. Which of the named registers are not yet written is left open (log 23): each one that is full is set
empty, to be filled by one producer, or has been written. -/
def execTrail (o : BOp) (s : State) : Host.Outcome State Fault Refusal :=
  issueWith (.trail o) s fun s =>
    match trailRegs o s with
    | none => fault fIllegalField
    | some rs =>
      let late := (rs.zipIdx.filter fun r => !s.cg.isEmpty r.1 && Config.freeBool (s.fresh + r.2)).map Prod.fst
      let s := { s with fresh := s.fresh + rs.length }
      let s' := if late.isEmpty then s else s.produce { writes := [], regs := late, pred := none, fault := none, ckpt := none }
      let nx := nextPC s.crun.pc
      .ok ((s'.endRun (fun _ => some nx) none .no).modCg fun g => { g with settled := true }, .done)

/-- R143, and the meeting of a handler whose last lanes exit (R448). -/
def execExit (o : BOp) (s : State) : Host.Outcome State Fault Refusal :=
  issueWith (.exit o) s fun s =>
    let ps := s.active o.gd
    let nx := nextPC s.crun.pc
    .ok ((s.endRun (fun p => if ps.contains p then none else some nx) none .no).handlerMeeting, .done)

/-- R144: the whole entry waits at the meeting. -/
def execRegroup (o : BOp) (s : State) : Host.Outcome State Fault Refusal :=
  issueWith (.regroup o) s fun s => .ok (s, if (s.active o.gd).isEmpty then .seq else .wait .regroup)
/-- R144. -/
def execRegroupRestore (o : BOp) (s : State) : Host.Outcome State Fault Refusal :=
  issueWith (.regroupRestore o) s fun s => .ok (s, if (s.active o.gd).isEmpty then .seq else .wait .restore)

end Sys2Proof.Machine
end

