-- ==== Sys2Proof/Machine/EaselMath.lean ====
section
/-! DEFINITION. Palette rows, scale layouts, the Easel's sums, checksums and corrections (R247-R258). -/
namespace Sys2Proof.Machine
open Sys2Proof State

/-! ### Formats (R247, R252, R254) -/

def isInt8 (t : Ty) : Bool := t == .i8 || t == .n8
/-- K positions per slab. -/
def kps (t : Ty) : Nat := 2048 / t.width
/-- Positions of a block; blocks of a K range of `ks` slabs. -/
def blkLen (t : Ty) : Nat := if t == .e2m1 then 16 else if t == .gq4 then 64 else 32
def nBlocks (t : Ty) (ks : Nat) : Nat := kps t * ks / blkLen t
def nSuper (t : Ty) (ks : Nat) : Nat := (nBlocks t ks + 255) / 256
/-- Scale rows of one palette column. -/
def scaleRows (t : Ty) (ks : Nat) : Nat := if t == .gq4 then nBlocks t ks + 4 * nSuper t ks else 2 * nBlocks t ks
/-- Slabs the scale rows take. -/
def scaleSlabs (t : Ty) (ks : Nat) : Nat := (scaleRows t ks + 255) / 256
/-- Bytes of an A operand with its scales, from its offset. -/
def aBytes (t : Ty) (scaled : Bool) (ks : Nat) : Nat :=
  8192 * ks + (if !scaled then 0 else if t == .gq4 then 32 * nBlocks t ks + 128 * nSuper t ks else 64 * nBlocks t ks)
/-- An accepted pair with its scaled bit; none for any other (R254). True for integer mode. -/
def pairMode (a b : Ty) (scaled : Bool) : Option Bool :=
  let f8 := fun (t : Ty) => t == .e4m3 || t == .e5m2
  let f4 := fun (t : Ty) => t == .e2m1 || t == .gq4
  let f16 := fun (t : Ty) => t == .bf16 || t == .f16
  if f8 a && f8 b then some false
  else if f4 a && f4 b then (if (a == .gq4 || b == .gq4) && !scaled then none else some false)
  else if f16 a && f16 b && !scaled then some false
  else if isInt8 a && isInt8 b && !scaled then some true
  else none

/-! ### Elements with their scales -/

/-- Where an operand's bytes and scales are read: byte `i` of its K range, and byte `i` of its scale region by block layout. -/
structure Operand where
  ty : Ty
  scaled : Bool
  byte : Nat → Nat
  e8 : Nat → Nat
  code : Nat → Nat
  sup : Nat → Nat
/-- Pattern of K position `k`. -/
def Operand.pat (o : Operand) (k : Nat) : Nat :=
  match o.ty.width with
  | 16 => o.byte (2 * k) + 256 * o.byte (2 * k + 1)
  | 4 => o.byte (k / 2) / 16 ^ (k % 2) % 16
  | _ => o.byte k
/-- A scale applied exactly to an element (R196). -/
def scaleVal (v : Val) : Option (Nat × Int) → Val
  | none => .inv
  | some (m, e) => mulV v (.fin false m e)
/-- Value of K position `k`, scales applied (R196, R199, R255). -/
def Operand.val (o : Operand) (k : Nat) : Val :=
  let u := o.pat k
  let b := k / blkLen o.ty
  if o.ty == .gq4 then mulV (gqLevel u) (mulV (Sys2Proof.Machine.val .f32 (o.sup (b / 256))) (.fin false (o.code b + 1) (-8)))
  else if isInt8 o.ty then (let x := tyVal o.ty u
                            .fin (decide (x < 0)) x.natAbs 0)
  else if o.scaled then scaleVal (Sys2Proof.Machine.val o.ty u) (e8m2 (o.e8 b))
  else Sys2Proof.Machine.val o.ty u

/-- Column `j` of the palette from slab `q`, scales from slab `sq` (R247, R252). -/
def palOperand (st : Studio) (ty : Ty) (scaled : Bool) (ks q sq j : Nat) : Operand :=
  let row := fun (r : Nat) => (Map.getD st.palB (16 * r + j) (0 : BitVec 8)).toNat
  let nb := nBlocks ty ks
  { ty := ty, scaled := scaled, byte := fun i => row (256 * q + i), e8 := fun b => row (256 * sq + 2 * b) + 256 * row (256 * sq + 2 * b + 1),
    code := fun b => row (256 * sq + b),
    sup := fun u => (List.range 4).foldl (fun a i => a + row (256 * sq + nb + 4 * u + i) * 256 ^ i) 0 }
/-- Row `i` of the A operand at a scratchpad offset (R252). -/
def aOperand (m : Map (BitVec 8)) (ty : Ty) (scaled : Bool) (ks off i : Nat) : Operand :=
  let at' := fun (a : Nat) => (Map.getD m a (0 : BitVec 8)).toNat
  let nb := nBlocks ty ks
  let reg := off + 8192 * ks
  { ty := ty, scaled := scaled, byte := fun x => at' (off + 256 * ks * i + x), e8 := fun b => at' (reg + 2 * (i * nb + b)) + 256 * at' (reg + 2 * (i * nb + b) + 1),
    code := fun b => at' (reg + i * nb + b),
    sup := fun u => leNat (Map.bytes m (reg + 32 * nb + 4 * (i * nSuper ty ks + u)) 4) }

/-! ### Accumulation (R255, R256) -/

def nanF32 : Nat := 0x7FC00000
def undefinedV : Val → Bool | .nan _ _ _ => true | .inv => true | _ => false
/-- Round a value into f32; every NaN is the generated one. -/
def toF32 (mode : Nat) (v : Val) : Nat := if undefinedV v then nanF32 else roundVal .f32 { mode := mode } false v
/-- Accumulate in float mode. -/
def accF (t : Nat) (p : Val) : Nat := toF32 0 (addV false (val .f32 t) p)
def wrap32 (x : Int) : Nat := (x % (2 : Int) ^ 32).toNat
/-- A finite value as an integer. -/
def intOf : Val → Int | .fin n m e => sgnInt n (m * 2 ^ e.toNat) | _ => 0
def absV : Val → Val | .fin _ m e => .fin false m e | .inf _ => .inf false | v => v
/-- Accumulate an exact sum into a tile word of a mode. -/
def accum (int : Bool) (t : Nat) (p : Val) : Nat := if int then wrap32 (sext 32 t + intOf p) else accF t p

def tileAt (t : Tile) (i j : Nat) : Nat := (Map.getD t.data (16 * i + j) (0 : BitVec 32)).toNat
def Tile.set (t : Tile) (i j v : Nat) : Tile := { t with data := Map.put 0 (16 * i + j) (BitVec.ofNat 32 v) t.data }
def putW (m : Map (BitVec 32)) (i v : Nat) : Map (BitVec 32) := Map.put 0 i (BitVec.ofNat 32 v) m
def getW (m : Map (BitVec 32)) (i : Nat) : Nat := (Map.getD m i (0 : BitVec 32)).toNat
def Tile.int (t : Tile) : Bool := t.status.getLsbD 31
def Tile.susp (t : Tile) : Bool := t.status.getLsbD 29
/-- One element of an integer slab in saturating mode (R256). -/
def satElem (t : Tile) (i j : Nat) (p : Int) : Tile :=
  if t.sticky.getLsbD (16 * i + j) then t else
  let x := sext 32 (tileAt t i j) + p
  if x > 2 ^ 31 - 1 ∨ x < -(2 : Int) ^ 31 then
    let t := t.set i j (if x < 0 then 2 ^ 31 else 2 ^ 31 - 1)
    { t with sticky := setBit t.sticky (16 * i + j) true, status := t.status ||| 0x60000000 }
  else t.set i j (wrap32 x)

/-! ### One slab (R255-R257) -/

/-- A segment with the tile row it starts at. -/
structure SegAt where
  r : Nat
  seg : Seg
deriving DecidableEq, Repr
def placeSegs (l : List Seg) : List SegAt := (l.foldl (fun (x : List SegAt × Nat) g => (x.1 ++ [⟨x.2, g⟩], x.2 + g.rows)) ([], 0)).1
/-- Fields of a multiply descriptor (R253). -/
def mdA (d : BitVec 64) : Ty := [Ty.i8, .i16, .i32, .i64, .n8, .n16, .n32, .n64, .f64, .f32, .f16, .bf16, .e4m3, .e5m2, .e2m1, .gq4].getD (bits d.toNat 63 60) .n8
def mdB (d : BitVec 64) : Ty := [Ty.i8, .i16, .i32, .i64, .n8, .n16, .n32, .n64, .f64, .f32, .f16, .bf16, .e4m3, .e5m2, .e2m1, .gq4].getD (bits d.toNat 59 56) .n8
def mdSat (d : BitVec 64) : Bool := d.getLsbD 55
def mdChk (d : BitVec 64) : Bool := d.getLsbD 54
def mdScaled (d : BitVec 64) : Bool := d.getLsbD 53
def mdCb (d : BitVec 64) : Nat := bits d.toNat 51 39
def mdSlab (d : BitVec 64) : Nat := bits d.toNat 38 27
def mdKs (d : BitVec 64) : Nat := bits d.toNat 26 15 + 1
def mdOff (d : BitVec 64) : Nat := 64 * bits d.toNat 12 0
/-- Whether the command keeps checks: asked for, and within the check store. -/
def checksKept (d : BitVec 64) (segs : List Seg) : Bool := mdChk d && segs.all fun g => 128 * g.cb + mdKs d * kps (mdB d) ≤ 2 ^ 20
/-- Value of a check row (R248). -/
def checkVal (st : Studio) (int : Bool) (row : Nat) : Val :=
  let u := getW st.palC row
  if int then (let x := sext 32 u
               .fin (decide (x < 0)) x.natAbs 0) else val .f32 u
/-- Product sums of one tile row over a slab: P(i, j) for each column. -/
def rowSums (ks : List Nat) (a : Operand) (bs : List Operand) : List Val :=
  bs.map fun b => sumV false (ks.map fun k => mulV (a.val k) (b.val k))
/-- Update one element. -/
def addElem (int sat : Bool) (t : Tile) (i j : Nat) (p : Val) : Tile :=
  if int && sat then satElem t i j (intOf p) else t.set i j (accum int (tileAt t i j) p)
/-- One slab of one segment: the elements, then PC and gcol of its rows; PR and |P| of the columns are returned. -/
def segSlab (st : Studio) (scr : Map (BitVec 8)) (d : BitVec 64) (chk : Bool) (s : Nat) (x : Tile × List (List Val)) (g : SegAt) :
    Tile × List (List Val) :=
  let int := isInt8 (mdA d)
  let n := kps (mdB d)
  let ks := (List.range n).map (n * s + ·)
  let bs := (List.range 16).map fun j => palOperand st (mdB d) (mdScaled d) (mdKs d) g.seg.pslab g.seg.sslab j
  let as' := (List.range g.seg.rows).map fun i => (g.r + i, aOperand scr (mdA d) (mdScaled d) (mdKs d) (mdOff d) (g.r + i))
  let ps := as'.map fun a => (a.1, a.2, rowSums ks a.2 bs)
  let t := ps.foldl (fun t r => (r.2.2.zipIdx).foldl (fun t p => addElem int (mdSat d) t r.1 p.2 p.1) t) x.1
  if !chk then (t, x.2) else
  let t := ps.foldl (fun t r =>
    let pc := sumV false (ks.map fun k => mulV (r.2.1.val k) (checkVal st int (128 * g.seg.cb + k)))
    let t := { t with cc := putW t.cc r.1 (accum int (getW t.cc r.1) pc) }
    if int then t else
    { t with gcol := putW t.gcol r.1 (toF32 2 (sumV false (val .f32 (getW t.gcol r.1) :: absV pc :: r.2.2.map absV))) }) t
  let cols := ks.map fun k => (k, sumV false (as'.map fun a => a.2.val k))
  let pr := bs.map fun b => sumV false (cols.map fun c => mulV c.2 (b.val c.1))
  (t, x.2 ++ [pr] ++ ps.map fun r => r.2.2.map absV)
/-- One slab of a command (R255, R257). The lists of `segSlab` are PR rows first per segment, then |P| rows; the number of PR
rows is that of the segments. -/
def slabStep (st : Studio) (scr : Map (BitVec 8)) (d : BitVec 64) (segs : List Seg) (s : Nat) (t : Tile) : Tile :=
  let int := isInt8 (mdA d)
  let chk := checksKept d segs
  let parts := (placeSegs segs).foldl (fun (x : Tile × List (List Val) × List (List Val)) g =>
    let (t, l) := segSlab st scr d chk s (x.1, []) g
    (t, x.2.1 ++ l.take 1, x.2.2 ++ l.drop 1)) (t, [], [])
  if !chk then parts.1 else
  (List.range 16).foldl (fun t j =>
    let pr := sumV false (parts.2.1.map fun r => r.getD j .inv)
    let t := { t with cr := putW t.cr j (accum int (getW t.cr j) pr) }
    if int then t else
    { t with grow := putW t.grow j (toF32 2 (sumV false (val .f32 (getW t.grow j) :: absV pr :: parts.2.2.map fun r => r.getD j .inv))) }) parts.1

/-! ### Checks and correction (R258) -/

def elemVal (t : Tile) (i j : Nat) : Val :=
  if t.int then (let x := sext 32 (tileAt t i j)
                 .fin (decide (x < 0)) x.natAbs 0) else val .f32 (tileAt t i j)
def wordVal (t : Tile) (u : Nat) : Val :=
  if t.int then (let x := sext 32 u
                 .fin (decide (x < 0)) x.natAbs 0) else val .f32 u
def drow (t : Tile) (j : Nat) : Val := sumV false (wordVal t (getW t.cr j) :: (List.range 32).map fun i => (elemVal t i j).neg)
def dcol (t : Tile) (i : Nat) : Val := sumV false (wordVal t (getW t.cc i) :: (List.range 16).map fun j => (elemVal t i j).neg)
/-- A check is bad: its D exceeds the tolerance of its magnitude word `g`, or, in integer mode, is not 0 modulo 2^32. A D of 0 is never
bad, whatever a soft error made of `g` (R277). An element's flip that the tolerance lets pass, or that makes checks of one kind alone bad, is
not corrected, though R279 says that it is corrected or has no effect: DESIGN CHOICE, R258's test is followed (log 116). -/
def badCheck (t : Tile) (d : Val) (g : Nat) : Bool :=
  if t.int then intOf d % (2 : Int) ^ 32 ≠ 0 else
  match d, val .f32 g with
  | .fin _ m e, .fin gn gm ge =>
    m != 0 && ltV (addV false (.fin gn gm (ge - 12)) (.fin false 1 (-120))) (.fin false m e)
  | _, _ => false
/-- What a check finds: pass, one element at (row, column), or a failure. -/
inductive CheckResult where
  | pass
  | fix (i j : Nat)
  | bad
deriving DecidableEq, Repr
def checkTile (t : Tile) : CheckResult :=
  if t.susp then .pass else
  let rs := (List.range 16).filter fun j => badCheck t (drow t j) (getW t.grow j)
  let cs := (List.range 32).filter fun i => badCheck t (dcol t i) (getW t.gcol i)
  match rs, cs with
  | [], [] => .pass
  | [j], [i] => .fix i j
  | _, _ => .bad
def fixedCount (t : Tile) : Nat := bits t.status.toNat 27 20
/-- Correct one element. -/
def correct (t : Tile) (i j : Nat) : Tile :=
  let x := sumV false (wordVal t (getW t.cc i) :: ((List.range 16).filter (· ≠ j)).map fun k => (elemVal t i k).neg)
  let t := t.set i j (accum t.int 0 x)
  if fixedCount t = 255 then t else { t with status := t.status + 0x100000 }
/-- Recompute the checks from the whole tile (R268). -/
def recheck (t : Tile) : Tile :=
  let rows := List.range 32
  let cols := List.range 16
  let mag := fun (vs : List Val) => if t.int then 0 else toF32 2 (sumV false (vs.map absV))
  { t with cr := cols.foldl (fun m j => putW m j (accum t.int 0 (sumV false (rows.map fun i => elemVal t i j)))) t.cr,
           cc := rows.foldl (fun m i => putW m i (accum t.int 0 (sumV false (cols.map fun j => elemVal t i j)))) t.cc,
           grow := cols.foldl (fun m j => putW m j (mag (rows.map fun i => elemVal t i j))) t.grow,
           gcol := rows.foldl (fun m i => putW m i (mag (cols.map fun j => elemVal t i j))) t.gcol }

/-! ### Fill records (R251, R272) -/

structure FillRec where
  src : Nat
  cstride : Nat
  pslab : Nat
  ks : Nat
  ty : Ty
  chk : Bool
  scaled : Bool
  cb : Nat
  sslab : Nat
  ssrc : Nat
  sstride : Nat
deriving DecidableEq, Repr
def fillOf (r : List (BitVec 8)) : FillRec :=
  let w := field r 16 4
  let y := field r 20 4
  { src := field r 0 8, cstride := field r 8 8, pslab := bits w 11 0, ks := bits w 23 12 + 1,
    ty := [Ty.i8, .i16, .i32, .i64, .n8, .n16, .n32, .n64, .f64, .f32, .f16, .bf16, .e4m3, .e5m2, .e2m1, .gq4].getD (bits w 27 24) .n8,
    chk := bits w 28 28 == 1, scaled := bits w 29 29 == 1, cb := bits y 12 0, sslab := bits y 24 13, ssrc := field r 24 8, sstride := field r 32 8 }
where field (r : List (BitVec 8)) (i n : Nat) : Nat := leNat ((r.drop i).take n)
/-- A record is well formed. Check rows past the store are none of the conditions; they are not written (log 52). -/
def fillOk (r : List (BitVec 8)) : Bool :=
  let f := fillOf r
  let w := leNat ((r.drop 16).take 4)
  let c := bits w 27 24
  f.src < 2 ^ 57 && f.cstride < 2 ^ 40 && w < 2 ^ 30 && leNat ((r.drop 20).take 4) < 2 ^ 25 && f.ssrc < 2 ^ 57 && f.sstride < 2 ^ 40
  && leNat ((r.drop 40).take 24) == 0 && (c == 0 || c == 4 || 10 ≤ c) && (f.ty != .gq4 || f.scaled)
  && (!f.scaled || 12 ≤ c) && f.pslab + f.ks ≤ 4096 && (!f.scaled || 256 * f.sslab + scaleRows f.ty f.ks ≤ 2 ^ 20)
/-- Check rows of slab `s` from the column values (R248). -/
def checkRows (st : Studio) (f : FillRec) (s : Nat) : List (Nat × Nat) :=
  let n := kps f.ty
  let cols := (List.range 16).map fun j => palOperand st f.ty f.scaled f.ks f.pslab f.sslab j
  ((List.range n).map (n * s + ·)).map fun k =>
    let x := sumV false (cols.map fun c => c.val k)
    (128 * f.cb + k, if isInt8 f.ty then wrap32 (intOf x) else toF32 0 x)

end Sys2Proof.Machine
end

