-- ==== Sys2Proof/Machine/Easel.lean ====
section
/-! DEFINITION. The instructions of majors 0x70-0x7F (R262-R274): convergence registers, commands, tiles, the matrix state,
the palette. -/
namespace Sys2Proof.Machine
open Sys2Proof State

/-! ### Checks (R263) -/

/-- While another group holds the matrix state saved, a group issues none of these instructions: a run that was in flight when it was
saved waits (R271). -/
def savedElsewhere (s : State) : Bool := s.cc.saved.any (· != s.cur.grp)
/-- In handler mode before the group's `msave` (R263); not made with Active() empty (R432). -/
def ownerCheck (gd : Guard) (addr : Nat) (s : State) : Except Raise Unit :=
  if savedElsewhere s then holdHere else
  require ((s.active gd).isEmpty || !s.cg.handler || s.cc.saved == some s.cur.grp) fMatrixOwner addr
/-- The tile exists (R243). -/
def tileCheck (k : Nat) (s : State) : Except Raise Unit := require (k < s.cc.tileCount) fMatrixOwner k
/-- The cell is palette-bound (R250). -/
def palCheck (addr : Nat) (s : State) : Except Raise Unit := require s.cc.pal fMatrixOwner addr
def Cell.tile (c : Cell) (k : Nat) : Tile := Map.getD c.tiles k default
def Cell.setTile (c : Cell) (k : Nat) (t : Tile) : Cell := { c with tiles := Map.ins k t c.tiles }

/-! ### Convergence registers (R246, R264, R265) -/

def Cell.cv (c : Cell) (k : Nat) : Nat := (Map.getD c.cvs k (0 : BitVec 32)).toNat
def cvCredits (w : Nat) : Nat := bits w 31 28
def cvSigned (w : Nat) : Nat := bits w 27 18
def cvDeclared (w : Nat) : Nat := bits w 17 8
def cvWord (credits signed declared : Nat) : BitVec 32 := BitVec.ofNat 32 (credits * 2 ^ 28 + signed * 2 ^ 18 + declared * 2 ^ 8)
def Cell.setCv (c : Cell) (k : Nat) (w : BitVec 32) : Cell := { c with cvs := Map.put 0 k w c.cvs }
/-- The register is declared. -/
def cvCheck (k : Nat) (s : State) : Except Raise Unit := require (cvDeclared (s.cc.cv k) ≠ 0) fMatrixMismatch k
/-- R264. -/
def execCvdecl (o : XOp) (s : State) : Host.Outcome State Fault Refusal :=
  issue (.cvdecl o) s fun s => do
    ownerCheck o.gd 0 s
    let w := s.cc.cv o.cv
    require (cvSigned w = 0 && o.val ≤ s.cc.shape) fMatrixMismatch o.cv
    if (s.active o.gd).isEmpty then return s
    return s.modCc fun c => c.setCv o.cv (cvWord (cvCredits w) 0 o.val)
/-- R264, R246. -/
def execCvsign (o : XOp) (s : State) : Host.Outcome State Fault Refusal :=
  issue (.cvsign o) s fun s => do
    ownerCheck o.gd 0 s
    cvCheck o.cv s
    let w := s.cc.cv o.cv
    let n := cvSigned w + (s.active o.gd).length
    let f := n / cvDeclared w
    require (cvCredits w + f ≤ 15) fMatrixMismatch o.cv
    let n0 := Map.getD s.cc.cvFence o.cv 0
    return s.modCc fun c =>
      let c := c.setCv o.cv (cvWord (cvCredits w + f) (n % cvDeclared w) (cvDeclared w))
      { c with cvFired := Map.ins o.cv (Map.getD c.cvFired o.cv [] ++ List.replicate f n0) c.cvFired }
/-- The numbers of the fences that a window of the cell may still begin at. -/
def Cell.fences (c : Cell) : List Nat :=
  c.cvFence.map Prod.snd ++ (c.cvFired ++ c.savedFired).flatMap Prod.snd ++ ((c.cmds ++ c.savedCmds).filter (·.started)).map Cmd.fence
  ++ (c.watch ++ c.savedWatch).map Cmd.fence
/-- The register's operand windows begin here (R265); writes that no window reaches back to are forgotten. -/
def Cell.fenceCv (c : Cell) (k n : Nat) : Cell :=
  let c := { c with cvFence := Map.ins k n c.cvFence }
  { c with scrLog := c.scrLog.filter fun x => c.fences.any (· < x.1) }
/-- R265: scratchpad writes are performed as they issue, and a copy whose completion was awaited has landed. -/
def execMfence (o : XOp) (s : State) : Host.Outcome State Fault Refusal :=
  issue (.mfence o) s fun s => do
    ownerCheck o.gd 0 s
    cvCheck o.cv s
    if (s.active o.gd).isEmpty then return s
    return s.tick.modCc fun c => c.fenceCv o.cv s.fresh

/-! ### Commands (R260, R266, R268, R270) -/

/-- Enter a command in the cell's queue; a full queue holds the instruction. -/
def queueCmd (c : Cmd) (s : State) : Except Raise State :=
  if 8 ≤ s.cc.cmds.length then holdHere else
  .ok (s.tick.modCc fun x => { x with cmds := x.cmds ++ [{ c with id := s.fresh }] })
def cmdOf (major : Nat) (o : XOp) : Cmd :=
  { (default : Cmd) with major := major, sub := o.sub.toNat, tile := o.tile, cv := o.cv, hold := o.hold, val := o.val,
                         count := o.count.toNat, granule := o.granule.toNat }
/-- R268. -/
def execMzero (o : XOp) (s : State) : Host.Outcome State Fault Refusal :=
  issue (.mzero o) s fun s => do
    tileCheck o.tile s
    ownerCheck o.gd o.tile s
    if (s.active o.gd).isEmpty then return s
    queueCmd (cmdOf 0x73 o) s
/-- The captured rows of `mwrite`: 16 words for each active position. -/
def captureRows (o : XOp) (s : State) : Map (BitVec 32) :=
  (s.active o.gd).foldl (fun m p => (List.range 16).foldl (fun m j => Map.ins (16 * p + j) (s.vAt p (o.coord.vIdx + j)) m) m) []
/-- R268. -/
def execMwrite (o : XOp) (s : State) : Host.Outcome State Fault Refusal :=
  issue (.mwrite o) s fun s => do
    tileCheck o.tile s
    ownerCheck o.gd o.tile s
    if (s.active o.gd).isEmpty then return s
    queueCmd { cmdOf 0x79 o with rows := captureRows o s, mask := maskOf (s.active o.gd) } s
/-- The mode the tile will hold when a command issued now starts: true for integer (R266). -/
def modeAhead (c : Cell) (k : Nat) : Bool :=
  match c.cmds.reverse.find? fun x => x.tile == k && (x.major == 0x73 || x.major == 0x79) with
  | some x => x.sub == 1
  | none => (c.tile k).int
/-- Checks of a multiply descriptor that need no memory (R253, R254, R263): the pair's mode. Where the descriptor is not scaled, `s` is
written 0 (R266); the spec gives no outcome for another value, and none comes of it here (DESIGN CHOICE, log 111). -/
def mulCheck (ragged : Bool) (d : BitVec 64) (sl : Nat) (s : State) : Except Raise Bool := do
  let bad := d.getLsbD 52 || bits d.toNat 14 13 ≠ 0
  match pairMode (mdA d) (mdB d) (mdScaled d) with
  | none => fault fHandle d.toNat
  | some int =>
    require (!bad && (int || !mdSat d) && sl < 2 ^ 12 && mdOff d + aBytes (mdA d) (mdScaled d) (mdKs d) ≤ s.cc.scratchSz
      && (if ragged then bits d.toNat 51 27 == 0
          else decide (mdSlab d + mdKs d ≤ 4096) && (!mdScaled d || 256 * sl + scaleRows (mdB d) (mdKs d) ≤ 2 ^ 20))) fHandle d.toNat
    return int
/-- Issue of a multiplication. The tile's mode is held against the descriptor's whatever the guard holds, as every check of R263 that needs
no memory; R432 does not name it (DEDUCED, log 111). -/
def mulIssue (major : Nat) (o : XOp) (s : State) : Except Raise State := do
  tileCheck o.tile s
  palCheck o.tile s
  ownerCheck o.gd o.tile s
  let d := s.gval o.record
  let sl := if major = 0x74 then s.src 0 o.coord 32 (s.uniPos o.gd) else 0
  let int ← mulCheck (major = 0x75) d sl s
  require (major ≠ 0x75 || 64 * o.val + 8 * o.count.toNat ≤ s.cc.scratchSz) fProt (64 * o.val) 4
  cvCheck o.cv s
  require (modeAhead s.cc o.tile == int) fMatrixMismatch o.tile
  if (s.active o.gd).isEmpty then return s
  if refuses s then refuse s 0
  let g : Seg := { cb := mdCb d, pslab := mdSlab d, sslab := sl, rows := 32 }
  queueCmd { cmdOf major o with desc := d, coord := BitVec.ofNat 64 sl, segs := if major = 0x74 then [g] else [] } s
/-- R266. -/
def execMma (o : XOp) (s : State) : Host.Outcome State Fault Refusal := issue (.mma o) s (mulIssue 0x74 o)
/-- R266. -/
def execMmar (o : XOp) (s : State) : Host.Outcome State Fault Refusal := issue (.mmar o) s (mulIssue 0x75 o)
/-- R270. -/
def execMdrain (o : XOp) (s : State) : Host.Outcome State Fault Refusal :=
  issue (.mdrain o) s fun s => do
    tileCheck o.tile s
    ownerCheck o.gd o.tile s
    require (64 * o.val + 2048 ≤ s.cc.scratchSz) fProt (64 * o.val) 4
    if (s.active o.gd).isEmpty then return s
    queueCmd (cmdOf 0x77 o) s
/-- R270. -/
def execMcheck (o : XOp) (s : State) : Host.Outcome State Fault Refusal :=
  issue (.mcheck o) s fun s => do
    tileCheck o.tile s
    ownerCheck o.gd o.tile s
    if (s.active o.gd).isEmpty then return s
    queueCmd (cmdOf 0x7A o) s

/-! ### mwait, mread (R267, R269) -/

def tileBusy (c : Cell) (k : Nat) : Bool := c.cmds.any fun x => x.tile == k
/-- The commands outstanding on a tile. -/
def tileCmds (c : Cell) (k : Nat) : List Nat := (c.cmds.filter fun x => x.tile == k).map Cmd.id
def isMul (c : Cmd) : Bool := c.major == 0x74 || c.major == 0x75
def uncorr (t : Tile) : Bool := t.status.getLsbD 28

/-! ### Operand windows (R265, R276) -/

/-- Ranges of scratchpad a multiplication reads: A rows, A scales, segment table (R276). -/
def operandRanges (c : Cmd) : List (Nat × Nat) :=
  let d := c.desc
  let rows := (c.segs.map Seg.rows).foldl (· + ·) 0
  let a := 8192 * mdKs d
  (mdOff d, 256 * mdKs d * rows) :: (mdOff d + a, aBytes (mdA d) (mdScaled d) (mdKs d) - a)
  :: (if c.major = 0x75 then [(64 * c.val, 8 * c.count)] else [])
/-- A write falls within the operand window of a command that has started, or an `mread` passed it by. -/
def tainted (x : Cell) (c : Cmd) : Bool :=
  isMul c && (c.taint || x.scrLog.any fun w => c.fence < w.1 && (operandRanges c).any fun r => w.2.1 < r.1 + r.2 && r.1 < w.2.1 + w.2.2)
def freeWords (f n : Nat) : Map (BitVec 32) := (List.range n).foldl (fun m i => Map.put 0 i (Config.free32 (f + i)) m) []
/-- Undefined values in a tile (R276); its mode and what has been reported of it stand. -/
def freeTile (f : Nat) (t : Tile) : Tile :=
  { t with data := freeWords f 512, cr := freeWords (f + 512) 16, cc := freeWords (f + 528) 32, grow := freeWords (f + 560) 16,
           gcol := freeWords (f + 576) 32,
           sticky := (List.range 16).foldl (fun x i => x ||| ((Config.free32 (f + 608 + i)).setWidth 512 <<< (32 * i))) 0 }
/-- Tile `m` of a cell holds undefined values where a window of its completed commands has been written into; the windows that are still
whole stay open. -/
def settleWatch (n m : Nat) (s : State) : State :=
  let x := s.cell n
  let hit := fun (c : Cmd) => c.tile == m && tainted x c
  if !x.watch.any hit then s else
  { s.modCell n (fun y => { y.setTile m (freeTile s.fresh (y.tile m)) with watch := y.watch.filter fun c => !hit c }) with fresh := s.fresh + 624 }
/-- An `mwait` has observed the completed commands of tile `m`: their windows end. -/
def endWindows (n m : Nat) (s : State) : State :=
  (settleWatch n m s).modCell n fun y => { y with watch := y.watch.filter fun c => c.tile != m }
/-- R267. -/
def execMwait (o : XOp) (s : State) : Host.Outcome State Fault Refusal :=
  issueWith (.mwait o) s fun s => do
    tileCheck o.tile s
    ownerCheck o.gd o.tile s
    if (s.active o.gd).isEmpty then return (s, .seq)
    if tileBusy s.cc o.tile then return (s, .wait (.tile o.tile (tileCmds s.cc o.tile) s.cg.handler))
    let t := s.cc.tile o.tile
    if uncorr t then .error { code := fTileUncorr, sub := if t.badTab then 1 else 0, addr := BitVec.ofNat 64 o.tile, clr := .tile o.tile }
    else return (endWindows s.cur.cell o.tile s, .seq)
/-- Words one lane receives (R269). -/
def readWords (chk : Bool) (t : Tile) (p : Nat) : List Nat :=
  if !chk then (List.range 16).map (tileAt t p)
  else [getW t.cc p, (if p < 16 then getW t.cr p else if p = 16 then t.status.toNat else 0), getW t.gcol p, (if p < 16 then getW t.grow p else 0)]
/-- R269: with commands outstanding on the tile the values are undefined, and so is what its multiplications make of it (R276). -/
def execMread (o : XOp) (s : State) : Host.Outcome State Fault Refusal :=
  issue (.mread o) s fun s => do
    tileCheck o.tile s
    ownerCheck o.gd o.tile s
    if (s.active o.gd).isEmpty then return s
    let n := if o.sub = 0 then 16 else 4
    let s := settleWatch s.cur.cell o.tile s
    let free := tileBusy s.cc o.tile
    let word := fun (p j x : Nat) => if free then Config.free32 (s.fresh + 16 * p + j) else BitVec.ofNat 32 x
    let ws := (s.active o.gd).flatMap fun p =>
      (readWords (o.sub == 1) (s.cc.tile o.tile) p).zipIdx.map fun x => RegWrite.v (s.clOf p) (o.dest.vIdx + x.2) (word p x.2 x.1)
    let s := if free then { s with fresh := s.fresh + 512 } else s
    let s := s.modCc fun c => { c with cmds := c.cmds.map fun x => if x.tile == o.tile && isMul x then { x with taint := true } else x }
    return s.produce { writes := ws, regs := vRange o.dest.vIdx n, pred := none, fault := none, ckpt := none }

/-! ### The order of palette accesses (R275) -/

/-- Palette rows an access touches, in slabs of the B store, and check rows: half-open ranges. -/
structure Span where
  b : List (Nat × Nat)
  c : List (Nat × Nat)
deriving DecidableEq, Repr, Inhabited
def crosses (x y : Nat × Nat) : Bool := x.1 < y.2 && y.1 < x.2
def Span.meets (x y : Span) : Bool := x.b.any (fun p => y.b.any (crosses p)) || x.c.any (fun p => y.c.any (crosses p))
/-- Rows the segments of a multiplication read. -/
def segSpan (d : BitVec 64) (segs : List Seg) : Span :=
  let ks := mdKs d
  { b := segs.flatMap fun g => (g.pslab, g.pslab + ks) :: (if mdScaled d then [(g.sslab, g.sslab + scaleSlabs (mdB d) ks)] else []),
    c := if mdChk d then segs.map fun g => (128 * g.cb, 128 * g.cb + ks * kps (mdB d)) else [] }
/-- Every row. -/
def Span.all : Span := ⟨[(0, 4096)], [(0, 2 ^ 20)]⟩
/-- Rows a command reads: an unstarted `mmar` may read any (R275). -/
def cmdSpan (c : Cmd) : Span :=
  if c.major = 0x74 then segSpan c.desc c.segs
  else if c.major = 0x75 then (if c.started then segSpan c.desc c.segs else Span.all)
  else ⟨[], []⟩
/-- Rows a fill writes. -/
def fillSpan (f : Fill) : Span :=
  let r := fillOf f.record
  { b := (r.pslab, r.pslab + r.ks) :: (if r.scaled then [(r.sslab, r.sslab + scaleSlabs r.ty r.ks)] else []),
    c := if r.chk then [(128 * r.cb, 128 * r.cb + r.ks * kps r.ty)] else [] }
def zapSpan (z : Zap) : Span :=
  if z.chk then ⟨[], [(256 * z.base, 256 * (z.base + z.count))]⟩ else ⟨[(z.base, z.base + z.count)], []⟩
/-- Cells resident on a studio. -/
def residents (k : Nat) (s : State) : List (Nat × Cell) := s.cells.filter fun c => c.2.studio == k && c.2.place == .resident
/-- Cells whose palette accesses on a studio are not all complete: its owner's, resident there or saved from there (R275, R250). -/
def palCells (k : Nat) (s : State) : List (Nat × Cell) :=
  s.cells.filter fun c => c.2.studio == k && c.2.place != .unplaced && c.2.pal && (s.studio k).owner == some c.2.ctx
/-- Palette writers of the studio issued before `id` and incomplete. -/
def earlierWriters (k id : Nat) (s : State) : List Span :=
  ((palCells k s).flatMap fun c => (c.2.fills.filter fun f => f.2.busy && f.2.id < id).map fun f => fillSpan f.2)
  ++ ((s.studio k).zaps.filter fun z => z.id < id).map zapSpan
/-- Palette readers of the studio issued before `id` and incomplete. -/
def earlierReaders (k id : Nat) (s : State) : List Span :=
  (palCells k s).flatMap fun c => ((c.2.cmds ++ c.2.savedCmds).filter fun x => x.id < id).map cmdSpan
/-- A write of rows may proceed. -/
def writeClear (k id : Nat) (x : Span) (s : State) : Bool := !(earlierWriters k id s ++ earlierReaders k id s).any x.meets
/-- A read of rows may proceed. -/
def readClear (k id : Nat) (x : Span) (s : State) : Bool := !(earlierWriters k id s).any x.meets
/-- Zero the rows of a zap. -/
def zapRows (k : Nat) (z : Zap) (s : State) : State :=
  s.modStudio k fun st =>
    if z.chk then { st with palC := st.palC.filter fun r => !(256 * z.base ≤ r.1 && r.1 < 256 * (z.base + z.count)) }
    else { st with palB := st.palB.filter fun r => !(4096 * z.base ≤ r.1 && r.1 < 4096 * (z.base + z.count)) }
/-- Perform the zaps that wait, as far as their order allows. -/
def settleZaps (k : Nat) (s : State) : State :=
  (s.studio k).zaps.foldl (fun s z =>
    if writeClear k z.id (zapSpan z) s then
      (zapRows k z s).modStudio k fun st => { st with zaps := st.zaps.filter fun y => y.id != z.id } else s) s

/-! ### The matrix state (R271) -/

def words (m : Map (BitVec 32)) (n : Nat) : List (BitVec 8) := (List.range n).flatMap fun i => leBytes 4 (getW m i)
/-- The record of R244. -/
def tileBytes (t : Tile) : List (BitVec 8) :=
  words t.data 512 ++ words t.cr 16 ++ words t.cc 32 ++ words t.grow 16 ++ words t.gcol 32 ++ leBytes 64 t.sticky.toNat
  ++ leBytes 4 t.status.toNat ++ leBytes 60 0
def wordsOf (n : Nat) (b : List (BitVec 8)) : Map (BitVec 32) :=
  (List.range n).foldl (fun m i => Map.put 0 i (BitVec.ofNat 32 (field b (4 * i) 4)) m) []
def tileOf (b : List (BitVec 8)) : Tile :=
  { data := wordsOf 512 b, cr := wordsOf 16 (b.drop 2048), cc := wordsOf 32 (b.drop 2112), grow := wordsOf 16 (b.drop 2240),
    gcol := wordsOf 32 (b.drop 2304), sticky := BitVec.ofNat 512 (field b 2432 64),
    status := BitVec.ofNat 32 (field b 2496 4) &&& 0xFFF00000,   -- reserved bits read as zero (R245, R4)
    badTab := false }
/-- A queued command in 32 bytes: descriptor, coord, the MX word, slabs done, reserved bytes (R271; log 53). -/
def cmdBytes (c : Cmd) : List (BitVec 8) :=
  leBytes 8 c.desc.toNat ++ leBytes 8 c.coord.toNat
  ++ leBytes 4 (c.tile * 2 ^ 28 + c.cv * 2 ^ 25 + (if c.hold then 2 ^ 24 else 0) + c.val * 2 ^ 8)
  ++ leBytes 4 c.done ++ leBytes 8 0
/-- A command from its bytes; what the bytes do not hold is the saved command's. -/
def cmdFrom (b : List (BitVec 8)) (c : Cmd) : Cmd :=
  let x := field b 16 4
  { c with desc := BitVec.ofNat 64 (field b 0 8), coord := BitVec.ofNat 64 (field b 8 8), tile := bits x 31 28, cv := bits x 27 25,
           hold := bits x 24 24 == 1, val := bits x 23 8, done := field b 20 4 }
def padTo (n : Nat) (b : List (BitVec 8)) : List (BitVec 8) := b ++ leBytes (n - b.length) 0
/-- The save area of R271. -/
def matrixImage (c : Cell) : List (BitVec 8) :=
  padTo 64 ([0x53, 0x4D, BitVec.ofNat 8 c.tileCount, BitVec.ofNat 8 c.cmds.length])
  ++ ((List.range 8).flatMap fun i => leBytes 4 (c.cv i) ++ leBytes 12 0)
  ++ padTo 256 (c.cmds.flatMap cmdBytes) ++ leBytes 64 0
  ++ (List.range 16).flatMap fun k => if k < c.tileCount then tileBytes (c.tile k) else leBytes 2560 0
/-- R271. -/
def execMsave (o : XOp) (s : State) : Host.Outcome State Fault Refusal :=
  issue (.msave o) s fun s => do
    if savedElsewhere s then holdHere else
    if (s.active o.gd).isEmpty then return s
    require (s.cg.handler && s.cc.saved.isNone) fMatrixOwner
    if s.cc.cmds.any (·.started) then holdHere else
    let a := (s.gval o.record).toNat % 2 ^ 57
    if a % 64 ≠ 0 then fault fAlign a
    let s ← writeVa (s.whoOf s.cur.cell) 64 a (matrixImage s.cc) s
    return s.modCc fun c => { c with saved := some s.cur.grp, savedCmds := c.cmds, savedFired := c.cvFired, savedWatch := c.watch, savedTabs := (c.tiles.filter fun t => t.2.badTab).map Prod.fst, cmds := [],
                                     tiles := [], cvs := [], cvFired := [], watch := [] }
/-- An area that `mrestore` accepts: its tag, its header, and every reserved field zero (R4). -/
def imageOk (c : Cell) (b : List (BitVec 8)) : Bool :=
  field b 0 2 == 0x4D53 && field b 2 1 == c.tileCount && field b 3 1 ≤ 8 && zeroAt b 4 60
  && (List.range 8).all (fun i => zeroAt b (64 + 16 * i) 1 && zeroAt b (68 + 16 * i) 12)
  && (List.range (field b 3 1)).all (fun i => zeroAt b (216 + 32 * i) 8 && zeroAt b (208 + 32 * i) 1
       && bits (field b (192 + 32 * i) 8) 52 52 == 0 && bits (field b (192 + 32 * i) 8) 14 13 == 0) && zeroAt b 448 64
  && (List.range c.tileCount).all fun k => bits (field b (512 + 2560 * k + 2496) 4) 19 0 == 0 && zeroAt b (512 + 2560 * k + 2500) 60
/-- A tile from its saved record; that its uncorr came of a malformed segment table is no part of the record, and stands with the cell. -/
def savedTile (c : Cell) (b : List (BitVec 8)) (k : Nat) : Tile :=
  let t := tileOf (b.drop (512 + 2560 * k))
  { t with badTab := uncorr t && c.savedTabs.contains k }
/-- The cell with the saved state put back. -/
def restoreImage (c : Cell) (b : List (BitVec 8)) : Cell :=
  { c with cvs := (List.range 8).foldl (fun m i => Map.put 0 i (BitVec.ofNat 32 (field b (64 + 16 * i) 4)) m) [],
           cmds := (List.range (field b 3 1)).map fun i => cmdFrom (b.drop (192 + 32 * i)) (c.savedCmds.getD i default),
           tiles := (List.range c.tileCount).foldl (fun m k => Map.ins k (savedTile c b k) m) [],
           cvFired := c.savedFired, savedFired := [], watch := c.savedWatch, savedWatch := [], savedTabs := [], saved := none, savedCmds := [] }
/-- R271. -/
def execMrestore (o : XOp) (s : State) : Host.Outcome State Fault Refusal :=
  issue (.mrestore o) s fun s => do
    if savedElsewhere s then holdHere else
    if (s.active o.gd).isEmpty then return s
    require (s.cc.saved == some s.cur.grp) fMatrixOwner
    if !s.cc.cmds.isEmpty then holdHere else
    let a := (s.gval o.record).toNat % 2 ^ 57
    if a % 64 ≠ 0 then fault fAlign a
    let (s, b) ← readVa (s.whoOf s.cur.cell) false 64 a 41472 s
    require (imageOk s.cc b) fHandle a
    -- a zap may have waited for a queued command that the area no longer holds (R275)
    return settleZaps s.ck (s.modCc fun c => restoreImage c b)

/-! ### The palette (R272-R274) -/

/-- R272: checks, the record, then the slot is busy; the issue is a release at `.cell`. -/
def execPfill (o : XOp) (s : State) : Host.Outcome State Fault Refusal :=
  issue (.pfill o) s fun s => do
    palCheck 0 s
    ownerCheck o.gd 0 s
    if (s.active o.gd).isEmpty then return s
    let g := (s.gval o.record).toNat
    let a := g % 2 ^ 57
    if refuses s then refuse s g
    if a % 64 ≠ 0 then fault fAlign g
    let w := s.whoOf s.cur.cell
    let (s, r) ← readRecord w 64 a 64 s
    require (fillOk r) fHandle g
    let f := o.imm.toNat
    if (Map.getD s.cc.fills f default).busy then holdHere else
    let s := releaseActs s.cur w 2 none s
    let x : Fill := { busy := true, addr := BitVec.ofNat 57 a, record := r, scales := false, done := 0, granule := o.granule.toNat,
                      fault := none, grp := s.cur.grp, handler := s.cg.handler, id := s.fresh }
    return s.tick.modCc fun c => { c with fills := Map.ins f x c.fills }
/-- R273. -/
def execPwait (o : XOp) (s : State) : Host.Outcome State Fault Refusal :=
  issueWith (.pwait o) s fun s => do
    palCheck 0 s
    ownerCheck o.gd 0 s
    if (s.active o.gd).isEmpty then return (s, .seq)
    let f := o.imm.toNat
    let x := Map.getD s.cc.fills f default
    if x.busy then return (s, .wait (.fill f x.id s.cg.handler))
    match x.fault with
    | some y => .error { code := y.code, sub := y.sub, addr := y.addr, clr := .fill f }
    | none => return (s, .seq)
/-- R274, R275: the rows are cleared once no earlier access of them is incomplete; the group does not wait. -/
def zapIssue (chk : Bool) (o : XOp) (s : State) : Except Raise State := do
  palCheck 0 s
  ownerCheck o.gd 0 s
  let v := (s.gval o.record).toNat
  let z : Zap := ⟨chk, bits v 11 0, bits v 23 12 + 1, s.fresh, s.cur.cell⟩
  require (v < 2 ^ 24 && z.base + z.count ≤ 4096) fHandle v
  if (s.active o.gd).isEmpty then return s
  let s := s.tick.modStudio s.ck fun st => { st with zaps := st.zaps ++ [z] }
  return settleZaps s.ck s
/-- R274. -/
def execPzapB (o : XOp) (s : State) : Host.Outcome State Fault Refusal := issue (.pzapB o) s (zapIssue false o)
/-- R274. -/
def execPzapC (o : XOp) (s : State) : Host.Outcome State Fault Refusal := issue (.pzapC o) s (zapIssue true o)

end Sys2Proof.Machine
end

