-- ==== Sys2Proof/Machine/Rings.lean ====
section
/-! DEFINITION. Receiver rings and the packets of their messages (R416-R424). -/
namespace Sys2Proof.Machine
open Sys2Proof State

/-! ### Ring descriptors (R416) -/

def Ring.base (r : Ring) : Nat := bits r.w0.toNat 23 0
def Ring.size (r : Ring) : Nat := 16 * (bits r.w0.toNat 35 24 + 1)
def Ring.slots (r : Ring) : Nat := 2 ^ bits r.w0.toNat 39 36
def Ring.swen (r : Ring) : Bool := r.w0.getLsbD 47
def Ring.sw (r : Ring) : Nat := 16 * bits r.w0.toNat 59 48
def Ring.headAt (r : Ring) : Nat := 4 * bits r.w1.toNat 15 0
def Ring.tailAt (r : Ring) : Nat := 4 * bits r.w1.toNat 31 16
def Ring.prod (r : Ring) : Nat := bits r.w1.toNat 63 32
/-- The ranges a ring takes: slots, head, tail, word. -/
def Ring.ranges (r : Ring) : List (Nat × Nat) :=
  [(r.base, r.size * r.slots), (r.headAt, 4), (r.tailAt, 4)] ++ (if r.swen then [(r.sw, 16)] else [])
def apart (a b : Nat × Nat) : Bool := a.1 + a.2 ≤ b.1 || b.1 + b.2 ≤ a.1
def pairwiseApart : List (Nat × Nat) → Bool
  | [] => true
  | a :: r => r.all (apart a) && pairwiseApart r
/-- A descriptor is well formed for a scratchpad allocation. -/
def Ring.ok (r : Ring) (sz : Nat) : Bool :=
  let w := r.w0.toNat
  r.base % 16 == 0 && bits w 35 24 ≤ 255 && 1 ≤ bits w 39 36 && bits w 39 36 ≤ 10 && bits w 46 40 == 0 && bits w 63 60 == 0
  && r.ranges.all (fun x => x.1 + x.2 ≤ sz) && pairwiseApart r.ranges
/-- A 32-bit counter of the cell's scratchpad. -/
def counterAt (c : Cell) (a : Nat) : Nat := leNat (Map.bytes c.scratch a 4)
def Cell.setCounter (c : Cell) (seq a v : Nat) : Cell := c.putScratch seq a (leBytes 4 v)
def ringK (o : MOp) : Nat := o.off.toNat % 8

/-- R418. -/
def execRingdecl (o : MOp) (s : State) : Host.Outcome State Fault Refusal :=
  issue (.ringdecl o) s fun s => do
    let r : Ring := match o.data with | .g i => ⟨s.gval i, s.gval (i + 1)⟩ | _ => default
    require (r.ok s.cc.scratchSz) fHandle (ringK o)
    if (s.active o.gd).isEmpty then return s
    require ((Map.find (ringK o) s.cc.rings).isNone) fHandle (ringK o)
    return s.modCc fun c => (({ c with rings := Map.ins (ringK o) r c.rings }).setCounter s.fresh r.headAt 0).setCounter s.fresh r.tailAt 0
/-- R418. -/
def execRingdeclClr (o : MOp) (s : State) : Host.Outcome State Fault Refusal :=
  issueOk (.ringdeclClr o) s fun s =>
    if (s.active o.gd).isEmpty then s else s.modCc fun c => { c with rings := Map.del (ringK o) c.rings }

/-! ### Torus routes (R16, R422) -/

/-- Cells of a task, by linear index (R416). -/
def linearOf (c : Cell) (r : LRec) : Nat := c.x.toNat + r.x * (c.y.toNat + r.y * (c.z.toNat + r.z * c.stage))
/-- The cell of a task at a linear index, out of any rival world. -/
def cellAt (t : BitVec 64) (i : Nat) (s : State) : Option Nat :=
  match s.task t with
  | none => none
  | some x => (s.cells.find? fun c => c.2.ticket == t && !c.2.rival && linearOf c.2 x.lrec == i
      && (match c.2.role with | .copy _ => false | _ => true)).map Prod.fst
/-- Node of a studio: row-major on its die, past the slice nodes, whose local coordinates are both odd (R16). -/
def nodeOf (k : Nat) : Nat × Nat :=
  let d := k / 48
  let j := k % 48
  let r := j % 12
  let (x, y) := if r < 8 then (r, 2 * (j / 12)) else (2 * (r - 8), 2 * (j / 12) + 1)
  (8 * (d % 2) + x, 8 * (d / 2) + y)
/-- Node of slice `j`: the 16 nodes of its die whose local coordinates are both odd, row-major (R16). -/
def sliceNode (j : Nat) : Nat × Nat :=
  let d := j / 16
  let i := j % 16
  (8 * (d % 2) + 2 * (i % 4) + 1, 8 * (d / 2) + 2 * (i / 4) + 1)

/-- Length and offset of a message (R417). -/
def msgOff (g : BitVec 64) : Nat := bits g.toNat 23 0
def msgLen (g : BitVec 64) : Nat := bits g.toNat 39 24
/-- Inject the message's packet at its studio's node. -/
def sendPacket (id frm to' : Nat) (s : State) : State :=
  let (x, y) := nodeOf frm
  let (u, v) := nodeOf to'
  { s with packets := s.packets ++ [⟨0, x, y, u, v, 0, id⟩] }
/-- Send a message of group `r`: landing space is reserved, its packet is injected (R419, R423). -/
def sendMessage (r : GRef) (k recv : Nat) (bs : List (BitVec 8)) (handler : Bool) (s : State) : State :=
  let c := s.cell r.cell
  let to' := match cellAt c.ticket recv s with | some d => (s.cell d).studio | none => c.studio
  let id := s.fresh
  let s := s.tick.modGroup r fun g => { g with msgs := g.msgs ++ [⟨k, recv, bs, handler, false, id⟩] }
  sendPacket id c.studio to' (s.modStudio c.studio fun st => { st with landing := st.landing + bs.length })
/-- Cells of the acting task. -/
def taskCells (s : State) : Nat := match s.task s.cc.ticket with | some t => t.lrec.x * t.lrec.y * t.lrec.z * t.lrec.s | none => 0
/-- No room for another message of `n` bytes: four of the group's are on their way, or landing space is short (R419). -/
def sendFull (n : Nat) (s : State) : Bool := 4 ≤ s.cg.msgs.length || 131072 < (s.studio s.ck).landing + n
/-- R419. In a rival the message is deferred, in a shadow copy suppressed. -/
def execRsend (o : MOp) (s : State) : Host.Outcome State Fault Refusal :=
  issue (.rsend o) s fun s => do
    let g := s.gdst o.data
    let recv := s.src 0 o.index 64 (s.uniPos o.gd)
    let n := msgLen g
    require (g.toNat < 2 ^ 40 && 1 ≤ n && n ≤ 4096) fHandle g.toNat
    require (msgOff g + n ≤ s.cc.scratchSz) fHandle g.toNat
    require (recv < taskCells s && recv < 2 ^ 32) fHandle recv
    if (s.active o.gd).isEmpty then return s
    let bs := Map.bytes s.cc.scratch (msgOff g) n
    let w := s.whoOf s.cur.cell
    let s := releaseActs s.cur w 2 none s
    let s := signWrite s.cur recv bs s   -- the message (R370; log 88)
    if inCopy s s.cur.cell then return s
    if inRival s s.cur.cell then addEscapeAt 0 s w.view (escOf 0xC5 o 255 (ringK o) [g.toNat, recv])
    else if sendFull n s then holdHere
    else return sendMessage s.cur (ringK o) recv bs s.cg.handler s

/-- R420: a release at `.cell`. -/
def execRhead (o : MOp) (s : State) : Host.Outcome State Fault Refusal :=
  issue (.rhead o) s fun s => do
    if (s.active o.gd).isEmpty then return s
    match Map.find (ringK o) s.cc.rings with
    | none => fault fHandle (ringK o)
    | some r =>
      let n := (s.gdst o.data).toNat
      let h := counterAt s.cc r.headAt
      let t := counterAt s.cc r.tailAt
      require (n ≤ (t + 2 ^ 32 - h) % 2 ^ 32) fHandle (ringK o)
      let s := releaseActs s.cur (s.whoOf s.cur.cell) 2 none s
      return s.modCc fun c => c.setCounter s.fresh r.headAt ((h + n) % 2 ^ 32)

end Sys2Proof.Machine
end

