-- ==== Sys2Proof/Machine/EvRuns.lean ====
section
/-! DEFINITION. Events of runs: the end of waits, dispatch (R33-R40), held runs, completions of producers (R38, R173), settled
runs (R37), regroup meetings (R42-R44), the arithmetic cycle (R21, R26). -/
namespace Sys2Proof.Machine
open Sys2Proof State

/-! ### The end of waits (R47, R471) -/

/-- Change one entry of a group. -/
def setWait (r : GRef) (e : Entry) (w : Wait) (s : State) : State :=
  s.modGroup r fun g => { g with entries := g.entries.map fun x => if x == e then { x with st := w } else x }
/-- The wait ends with a fault: it is delivered before the entry's next run (R471). -/
def wakeFault (r : GRef) (e : Entry) (y : Raise) (handler : Bool) (s : State) : State :=
  (setWait r e .no s).lateFault r ⟨y.code, y.sub, y.addr, y.lane, handler, some e.pc⟩
/-- A wait on a word in global memory: the access is made again (R300, R322). -/
def settleWord (r : GRef) (e : Entry) (va : Nat) (gen : BitVec 32) (acq : Option Scope) (handler : Bool) (s : State) : State :=
  let w := s.whoOf r.cell
  match s.checkOne w { n := 16, rd := true, wr := false } va with
  | .error y => if y.hold then s else wakeFault r e { y with addr := BitVec.ofNat 64 va } handler s
  | .ok (_, none) => wakeFault r e { code := fPageAbsent, addr := BitVec.ofNat 64 va } handler s
  | .ok (s, some x) =>
    let pa := physOf x va
    let (s, bs, bad) := s.readPa w.k (accTag w x 0 (acq.elim 4 fun sc => accRank w sc pa s) false) true pa 16
    if bad then wakeFault r e { code := fMemUncorr, addr := BitVec.ofNat 64 pa } handler s
    else if (Word16.of bs).gen ≠ gen.toNat then swAcquire w acq (some pa) (setWait r e .no s) else s
/-- The condition of a waiting entry is evaluated against the present state (R47, R51). -/
def settleWait (r : GRef) (e : Entry) (s : State) : State :=
  let c := s.cell r.cell
  let g := s.group r
  match e.st with
  | .barrier b ph => if (c.bar b).phase ≠ ph then setWait r e .no s else s
  | .sword true va gen _ _ => if (Word16.of (Map.bytes c.scratch va.toNat 16)).gen ≠ gen.toNat then (setWait r e .no s).settleLanded else s
  | .sword false va gen acq h => settleWord r e va.toNat gen acq h s
  | .monitor => if g.mon.isNone || g.fired then (setWait r e .no s).modGroup r fun g => { g with mon := none, fired := false } else s
  | .tile m ids h =>
    if (c.cmds ++ c.savedCmds).any fun x => ids.contains x.id then s
    else if uncorr (c.tile m) then
      wakeFault r e { code := fTileUncorr, sub := if (c.tile m).badTab then 1 else 0, addr := BitVec.ofNat 64 m } h
        (s.modCell r.cell fun c => c.setTile m { c.tile m with status := (c.tile m).status &&& ~~~0x10000000, badTab := false })
    else endWindows r.cell m (setWait r e .no s)
  | .fill f id h =>
    let x := Map.getD c.fills f default
    if x.id ≠ id then setWait r e .no s else
    if x.busy then s else
    match x.fault with
    | some y => wakeFault r e { code := y.code, sub := y.sub, addr := y.addr } h
                  (s.modCell r.cell fun c => { c with fills := Map.upd f (fun x => { x with fault := none }) c.fills })
    | none => setWait r e .no s
  | _ => s
/-- A cell's entries that wait for Easel commands or fills are evaluated as one completes, before anything else changes the tile or the
slot (R267, R273, R471). -/
def settleEngine (n : Nat) (s : State) : State :=
  (s.cell n).groups.foldl (fun s g => g.2.entries.foldl (fun s e => match e.st with
    | .tile .. | .fill .. => settleWait ⟨n, g.1⟩ e s
    | _ => s) s) s
/-- Groups at the slots of a studio, by slot, whose cells stand there and whose tasks run. -/
def studioGroups (k : Nat) (s : State) : List (Nat × GRef) :=
  (s.studio k).slots.filter fun x => (s.cell x.2.cell).place == .resident && !s.stopped x.2.cell
/-- A meeting of handler lanes whose frame's page was migrating takes place now (R448). -/
def settleHandler (r : GRef) (s : State) : State :=
  if (s.group r).handler && (s.group r).run.isNone then { { s with cur := r }.handlerMeeting with cur := s.cur } else s
/-- What the cells of a studio wait for is evaluated: chains still to be loaded after a restore (R240), entries, meetings. -/
def settleWaits (k : Nat) (s : State) : State :=
  let s := ((residents k s).filter fun c => !c.2.chainSave.isEmpty).foldl (fun s c => reloadChains c.1 s) s
  (studioGroups k s).foldl (fun s x => settleHandler x.2 ((s.group x.2).entries.foldl (fun s e => settleWait x.2 e s) s)) s

/-! ### Selection and eligibility (R33, R37) -/

/-- The starvation turn of R33. -/
def starving (g : Group) : Bool := (g.disp.toNat + 1) % 64 == 0
/-- R33; in handler mode only handler entries are considered (R428). -/
def selectEntry (g : Group) : Option Entry :=
  let key := fun (e : Entry) => if starving g then e.wait.toNat else e.prio.toNat
  (g.entries.filter fun e => e.st == .no && (!g.handler || e.handler)).foldl (fun b e => match b with
    | none => some e
    | some x => if key x < key e || (key x == key e && e.pc.toNat < x.pc.toNat) then some e else some x) none
def majorOf (i : Instr) : Nat :=
  match i.raw with
  | some (.a k _) => k | some (.m k _) => k | some (.b k _) => k | some (.x k _) => k | some (.s k _) => k
  | none => 0
/-- Rules 1 and 2 of R37. -/
def regsFull (g : Group) (us : List Uses) : Bool :=
  us.all fun u => u.rd.all (fun x => x.2 || !g.isEmpty x.1) && u.wr.all (fun x => !g.isEmpty x)
/-- Rule 3; a predicate written is also read (R105). -/
def predsReady (g : Group) (us : List Uses) : Bool := us.all fun u => (u.prd ++ u.pwr).all fun p => !g.pPend.getLsbD p
/-- Rule 4; a queue to which no walk will push any more, and any queue of a cell with a malformed walk table, counts as satisfied: its
last pops raise their fault (R397, R398, R425). -/
def popsReady (c : Cell) (g : Group) (us : List Uses) : Bool :=
  (List.range 8).all fun q =>
    (us.flatMap fun u => (u.pops.filter fun p => p.1 == q).map Prod.snd).foldl (· + ·) 0 ≤ queueLen g q || walksOver c q || c.badWalks
def countMajors (is : List Instr) (ks : List Nat) : Nat := (is.filter fun i => ks.contains (majorOf i)).length
/-- Room for the commands of the run: Easel, fills, `msave` (R260), Brush (R408), messages (R419). -/
def roomFor (r : GRef) (is : List Instr) (s : State) : Bool :=
  let c := s.cell r.cell
  let g := s.group r
  countMajors is [0x73, 0x74, 0x75, 0x77, 0x79, 0x7A] + c.cmds.length ≤ 8
  && is.all (fun i => match i with | .pfill o => !(Map.getD c.fills o.imm.toNat default).busy | _ => true)
  && !(is.any (fun i => 0x70 ≤ majorOf i && majorOf i ≤ 0x7F) && (match c.saved with | some x => x != r.grp | none => false))
  && countMajors is [0xC8, 0xC9, 0xCA, 0xCB] + c.brush.length ≤ 16
  && countMajors is [0xC5] + g.msgs.length ≤ 4
  && (s.studio c.studio).landing + (is.map fun i => match i with
        | .rsend o => (match o.data with | .g x => msgLen (g.greg x.toNat) | _ => 0) | _ => 0).foldl (· + ·) 0 ≤ 131072
/-- The run of an entry. -/
def runOf (r : GRef) (e : Entry) (s : State) : Scan := s.scanRun (s.whoOf r.cell) (pcLine e.pc) 24 e.pc
/-- The coordinate registers a `bcopy` or `bstore` will read (R412), as dispatch sees it: its record's rank, or all eight there may be
where the run itself sets its handle or a slot, or the record cannot be read now (log 102). -/
def coordCount (r : GRef) (earlier : List Instr) (o : XOp) (s : State) : Nat :=
  if earlier.any fun i => (usesOf i).wr.contains (.g o.record.toNat) || majorOf i == 0xC7 then 8 else
  let s := { s with cur := r }
  match handleForm (s.gval o.record) s with
  | .ok (.slot x) => (layoutOf x).dims
  | .ok (.mem va) => match readLayout va s with | .ok (_, x) => (layoutOf x).dims | .error _ => 8
  | .error _ => 1
/-- What the instructions of a run use, as dispatch sees it. -/
def runUses (r : GRef) (is : List Instr) (s : State) : List Uses :=
  is.zipIdx.map fun x => match x.1 with
    | .bcopy o | .bstore o => dispatchUses (coordCount r (is.take x.2) o s) x.1
    | i => dispatchUses 1 i
/-- Rules 1 to 4 of R37, and room for the commands, for instructions of a group with the uses `us`. -/
def runReady (r : GRef) (is : List Instr) (us : List Uses) (s : State) : Bool :=
  let g := s.group r
  regsFull g us && predsReady g us && popsReady (s.cell r.cell) g us && roomFor r is s
def eligible (r : GRef) (e : Entry) (s : State) : Bool :=
  let g := s.group r
  let c := s.cell r.cell
  let is := (runOf r e s).is
  g.settled && g.holds.isEmpty && c.fork.isNone && c.chainSave.isEmpty && !c.ended && runReady r is (runUses r is s) s
/-- The entry a ready group would issue (R40). -/
def readyEntry (r : GRef) (s : State) : Option Entry :=
  if (s.group r).run.isSome then none else
  match selectEntry (s.group r) with
  | some e => if eligible r e s then some e else none
  | none => none

/-! ### RUN_DISPATCH -/

/-- Deliver a late fault that an entry about to issue must meet first (R427, R471); the group of the lowest slot. -/
def lateDelivery (s : State) : List (Nat × GRef) → Option State
  | [] => none
  | (_, r) :: rest =>
    let g := s.group r
    match (if g.run.isSome then none else (selectEntry g).bind fun e => (lateFor g e).map fun f => (e, f)) with
    | none => lateDelivery s rest
    | some (e, f) =>
      match { s with cur := r }.deliverLate e f with
      | some s' => some s'
      | none => lateDelivery s rest
/-- A group with a late fault before it is not ready. -/
def lateFree (r : GRef) (e : Entry) (s : State) : Bool := (lateFor (s.group r) e).isNone
/-- Ready groups of a studio with their entries, by slot. -/
def readyGroups (k : Nat) (s : State) : List (Nat × GRef × Entry) :=
  (studioGroups k s).filterMap fun x => (readyEntry x.2 s).bind fun e => if lateFree x.2 e s then some (x.1, x.2, e) else none
def taskPrio (r : GRef) (s : State) : Nat := (s.cell r.cell).prio
/-- Arbitrate of R40: the slot, and the priority whose pointer moves (none through the 384 path). -/
def arbitrate (k : Nat) (rs : List (Nat × GRef × Entry)) (s : State) : Option ((Nat × GRef × Entry) × Option Nat) :=
  let passed := fun (x : Nat × GRef × Entry) => (s.group x.2.1).passed.toNat
  match (rs.filter fun x => 384 ≤ passed x).foldl (fun (b : Option (Nat × GRef × Entry)) x => match b with
      | none => some x | some y => if passed y < passed x then some x else b) none with
  | some x => some (x, none)
  | none =>
    let top := rs.foldl (fun m x => max m (taskPrio x.2.1 s)) 0
    let rr := Map.getD (s.studio k).rr top 0
    let cands := rs.filter fun x => taskPrio x.2.1 s == top
    ((cands.filter fun x => rr ≤ x.1).head?.orElse fun _ => cands.head?).map fun x => (x, some top)
/-- Cells of the task that are resident (R26); rivals and shadow copies are not the task's own. -/
def residentCells (t : BitVec 64) (s : State) : Nat :=
  (s.cells.filter fun c => c.2.ticket == t && c.2.place == .resident && !c.2.rival
    && (match c.2.role with | .copy _ => false | _ => true)).length
/-- Begin the run of an entry (R34-R36); past a slot at a migrating page it is judged once that slot can be fetched. -/
def startRun (r : GRef) (e : Entry) (s : State) : State :=
  let u : Run := { start := e.pc, pc := e.pc, handler := e.handler, temps := [], popped := [], empty := [], pend := [], hist := [],
                   nres := residentCells (s.cell r.cell).ticket s, held := false, last := false, unknown := (runOf r e s).unknown }
  ({ s with cur := r }).modGroup r fun g => { g with run := some u }
/-- The first run of a group: the kernel entry's mark (R60). A line that cannot be fetched raises its own fault. -/
def entryMarked (r : GRef) (e : Entry) (s : State) : Bool :=
  !(s.group r).first || (match s.fetchSlot (s.whoOf r.cell) e.pc with | .ok (_, ln) => lineTarget ln (pcSlot e.pc) | .error _ => true)
/-- The run just begun is refused. While the delivery of its fault waits for a page (R158), the run is judged anew each time it is tried;
the kernel entry's mark has been checked once it has been delivered. -/
def refuseRun (x : Raise) (s : State) : State :=
  let s1 := s.raise x
  match s1.cg.run with
  | some u => if u.held then s.modCg fun g => { g with first := g.first || x.code == fIllegalTarget, run := g.run.map fun u =>
                { u with held := true, hist := [], unknown := some u.pc } } else s1
  | none => s1
/-- Dispatch the run of a picked group: the counters of R26 and R40, then the run, or the fault that refuses it. An unmarked kernel
entry raises ILLEGAL_TARGET here, before its instruction is decoded (log 93). -/
def dispatch (k : Nat) (rs : List (Nat × GRef × Entry)) (x : Nat × GRef × Entry) (top : Option Nat) (s : State) : State :=
  let (slot, r, e) := x
  if (runOf r e s).refused then refuseRun { code := fIllegalField } (startRun r e s) else
  let marked := entryMarked r e s
  let c := (s.cell r.cell).ctx
  let s := s.perf k c 2
  let s := if starving (s.group r) then s.perf k c 0x0E else s
  let s := match top with
    | some p => s.modStudio k fun st => { st with rr := Map.ins p ((slot + 1) % 48) st.rr }
    | none => s
  let s := rs.foldl (fun s y => if y.1 = slot then s else s.modGroup y.2.1 fun g => { g with passed := if g.passed.toNat < 511 then g.passed + 1 else g.passed }) s
  let s := startRun r e s
  let s := s.modGroup r fun g => { g with passed := 0, disp := g.disp + 1, first := g.first && s.crun.unknown == some e.pc }
  if marked then s else refuseRun { code := fIllegalTarget, addr := e.pc } s
/-- Count the refusals by full/empty blocking this turn (R313, event 0x0F). -/
def countRefusals (k : Nat) (s : State) : State :=
  (studioGroups k s).foldl (fun s x =>
    let g := s.group x.2
    if g.run.isSome then s else
    match selectEntry g with
    | some e => if regsFull g (runUses x.2 (runOf x.2 e s).is s) then s else s.perf k (s.cell x.2.cell).ctx 0x0F
    | none => s) s
/-- Runs in flight on a studio. -/
def inFlight (k : Nat) (s : State) : Nat := (((s.studio k).slots).filter fun x => (s.group x.2).run.isSome).length
def runDispatch (k : Nat) (s : State) : State :=
  if s.clockStopped ∨ s.module.bootFailed then s else
  let s := settleWaits k s
  match lateDelivery s (studioGroups k s) with
  | some s' => s'
  | none =>
    if 4 ≤ inFlight k s then s else
    let s := countRefusals k s
    let rs := readyGroups k s
    match arbitrate k rs s with
    | some (x, top) => dispatch k rs x top s
    | none => s
/-- R40: one of four issue slots takes a ready group; what waits is evaluated first (log 14). -/
def execRunDispatch (k : Nat) (s : State) : Host.Outcome State Fault Refusal := .next (runDispatch k s)

/-! ### Held runs (R57, R158) -/

/-- The group at a slot of a studio whose run is held. -/
def heldGroup (k slot : Nat) (s : State) : Option GRef :=
  match Map.find slot (s.studio k).slots with
  | some r => if (s.cell r.cell).place == .resident && (match (s.group r).run with | some u => u.held | none => false) then some r else none
  | none => none
/-- The run goes on; what its held load left empty is written anew (R158). -/
def clearHeld (r : GRef) (s : State) : State :=
  s.modGroup r fun g =>
    let rs := (g.run.map Run.heldRegs).getD []
    let g := rs.foldl (fun g x => g.setEmpty false x) g
    { g with run := g.run.map fun u => { u with held := false, heldRegs := [] } }
/-- Uses of the rest of a run, but for what the run itself has left empty or pending: those are the instruction's to meet (R39). -/
def restUses (u : Run) (x : Uses) : Uses :=
  { x with rd := x.rd.filter fun y => !u.empty.contains y.1, wr := x.wr.filter fun y => !u.empty.contains y,
           prd := x.prd.filter fun p => !u.pend.contains p, pwr := x.pwr.filter fun p => !u.pend.contains p }
/-- A run whose dispatch could not see the slot it has come to: the limits of R34, the kernel entry's mark and the rest of R37 are
judged now (log 92). -/
def judgeRest (r : GRef) (ln : Nat) (s : State) : State :=
  let g := s.group r
  let u := g.run.getD default
  let s1 := clearHeld r s
  let sc := s1.scanRun (s.whoOf r.cell) (pcLine u.start) (24 - u.hist.length) u.pc
  if sc.refused then refuseRun { code := fIllegalField } ({ s1 with cur := r }.modRun fun u => { u with pc := u.start })
  else if g.first && !lineTarget ln (pcSlot u.pc) then
    refuseRun { code := fIllegalTarget, addr := u.pc } ({ s1 with cur := r }.modCg fun g => { g with first := false })
  else if !runReady r sc.is ((runUses r sc.is s1).map (restUses u)) s1 then s
  else s1.modGroup r fun g => { g with first := false, run := g.run.map fun u => { u with unknown := sc.unknown } }
/-- A held run goes on at its slot, once that can be fetched or its fetch faults. -/
def resumeRun (r : GRef) (s : State) : State :=
  let u := (s.group r).run.getD default
  match s.fetchSlot (s.whoOf r.cell) u.pc with
  | .error y => if y.hold then s else (clearHeld r s).modGroup r fun g => { g with run := g.run.map fun u => { u with unknown := none } }
  | .ok (_, ln) => if u.unknown = some u.pc then judgeRest r ln s else clearHeld r s
/-- R57: the held fetch proceeds once its page is resident or absent. -/
def execFetchResume (k slot : Nat) (s : State) : Host.Outcome State Fault Refusal :=
  .next (match heldGroup k slot s with | some r => resumeRun r s | none => s)
/-- R158: the held instruction is performed again. -/
def execHeldAccessResume (k slot : Nat) (s : State) : Host.Outcome State Fault Refusal :=
  .next (match heldGroup k slot s with | some r => resumeRun r s | none => s)

/-! ### Long-latency results (R38, R173) -/

/-- Deliver the result of producer `i` of a group, with its late fault and the acquire its arrival makes. -/
def deliverResult (r : GRef) (i : Nat) (p : Producer) (s : State) : State :=
  let s := s.modGroup r fun g => { g with outs := g.outs.eraseIdx i }
  let s := s.complete r p
  let s := match p.fault with | some f => s.lateFault r f | none => s
  if p.acq = 0 then s else acquireActs (s.whoOf r.cell) p.acq none s
/-- R38. A checkpoint's and a fork's answers come with their own events. -/
def execLongLatencyComplete (cell grp i : Nat) (s : State) : Host.Outcome State Fault Refusal :=
  .next (match (s.group ⟨cell, grp⟩).outs[i]? with
    | some p => if p.ckpt.isSome || p.fork || p.test.isSome then s else deliverResult ⟨cell, grp⟩ i p s
    | none => s)

/-! ### Settled runs (R37 rule 5) -/

/-- What holds the group's next run is past. -/
def holdPast (h : Hold) (s : State) : Bool :=
  match h with
  | .drop as us => !(s.sweeps.any fun w => as.contains (w.arena, w.gen) && us.any w.units.contains)
  | .sweep as => !(s.sweeps.any fun w => as.contains (w.arena, w.gen))
  | .sealUnits a g => !(s.sealbs.any fun w => w.arena == a && w.gen == g)
  | .shoot id => !(s.shoots.any fun w => w.id == id)
  | .bredAccept c id => !((s.cell c).brush.any fun b => b.id == id && !b.accepted)
  | .brush c ids => !((s.cell c).brush.any fun b => ids.contains b.id)
/-- R37: the run's results stand and nothing holds the next one. -/
def execRunSettled (cell grp : Nat) (s : State) : Host.Outcome State Fault Refusal :=
  let g := s.group ⟨cell, grp⟩
  .next (if g.run.isNone && g.holds.all (fun h => holdPast h s) then s.modGroup ⟨cell, grp⟩ fun g => { g with settled := true, holds := [] } else s)

/-! ### Regroup meetings (R42-R44, R107) -/

/-- A live lane at a meeting: its continuation, kind, priority, original number, present group. -/
structure Meeter where
  pc : BitVec 64
  handler : Bool
  prio : BitVec 6
  cl : Nat
  grp : Nat
deriving DecidableEq, Repr
/-- Every live lane waits at a meeting of one kind, and no result or predicate is outstanding (R107). -/
def meets1 (w : Wait) (c : Cell) : Bool :=
  c.place == .resident && c.groups.any (fun g => !g.2.entries.isEmpty)
  && c.groups.all fun g => g.2.run.isNone && g.2.outs.isEmpty && g.2.vEmpty == 0 && g.2.gEmpty == 0 && g.2.pPend == 0
                           && g.2.entries.all fun e => e.st == w
def meeters (c : Cell) : List Meeter :=
  c.groups.flatMap fun g => g.2.entries.flatMap fun e => (positions e.mask).filterMap fun p =>
    (c.clAt g.1 p).map fun cl => ⟨e.pc, e.handler, e.prio, cl, g.1⟩
/-- Step 3 of R42. -/
def meetBefore (a b : Meeter) : Bool := a.pc.toNat < b.pc.toNat || (a.pc == b.pc && a.cl ≤ b.cl)
/-- Step 4 of R42: group and position of each lane, in order. -/
def packLanes (G : Nat) : List Meeter → Nat → Nat → Option (BitVec 64) → List (Meeter × Nat × Nat)
  | [], _, _, _ => []
  | x :: r, f, n, prev =>
    let m := r.length + 1
    let (f, n) := if n = 32 then (f + 1, 0)
      else if 0 < n ∧ prev ≠ some x.pc ∧ f + 1 < G ∧ m ≤ 32 * (G - 1 - f) then (f + 1, 0) else (f, n)
    (x, f, n) :: packLanes G r f (n + 1) (some x.pc)
/-- Entries of a group from the lanes placed in it, one per continuation and kind. Where a line word cannot be read at once, the entry
takes the priority its first lane came with (log 94). -/
def meetEntries (w : Who) (xs : List (Meeter × Nat)) (s : State) : List Entry :=
  (distinct (xs.map fun x => (x.1.pc, x.1.handler))).map fun k =>
    let l := xs.filter fun x => x.1.pc == k.1 && x.1.handler == k.2
    ⟨k.1, maskOf (l.map Prod.snd), s.priorityAt w k.1 ((l.head?.map fun x => x.1.prio).getD 0), 0, k.2, .no⟩
/-- The groups after a meeting: `pl` places the lanes, `donor` names the group whose g registers each takes. -/
def meetGroups (w : Who) (pl : List (Meeter × Nat × Nat)) (donor : Meeter → Nat) (park : Bool) (gs : Map Group) (s : State) : Map Group :=
  gs.map fun g =>
    let here := (pl.filter fun x => x.2.1 == g.1).map fun x => (x.1, x.2.2)
    let d := here.foldl (fun m x => Nat.min m (donor x.1)) 16
    let regs := if here.isEmpty then g.2.gregs else (Map.getD gs d default).gregs
    (g.1, { g.2 with entries := meetEntries w here s, gregs := regs, parked := park && here.isEmpty })
/-- R42, R43. -/
def execRegroupMeetingComplete (n : Nat) (s : State) : Host.Outcome State Fault Refusal :=
  let c := s.cell n
  .next (if !meets1 .regroup c then s else
    let pl := packLanes c.groupCount ((meeters c).mergeSort meetBefore) 0 0 none
    let remap := (List.range c.shape).foldl (fun m cl =>
      Map.ins cl (match pl.find? fun x => x.1.cl == cl with | some x => 32 * x.2.1 + x.2.2 | none => 512 + cl) m) []
    let gs := meetGroups (s.whoOf n) pl (fun x => x.cl / 32) true c.groups s
    s.modCell n fun c => { c with groups := gs, remap := remap, regrouped := true })
/-- R44. -/
def execRegroupRestoreComplete (n : Nat) (s : State) : Host.Outcome State Fault Refusal :=
  let c := s.cell n
  .next (if !meets1 .restore c then s else
    let pl := ((meeters c).mergeSort meetBefore).map fun x => (x, x.cl / 32, x.cl % 32)
    let gs := meetGroups (s.whoOf n) pl (fun x => x.grp) false c.groups s
    s.modCell n fun c => { c with groups := gs, remap := [], regrouped := false })

/-! ### The arithmetic cycle (R21, R26, R313) -/

/-- Owners of performance counters of a studio that have a cell there. -/
def perfOwners (k : Nat) (s : State) : List Nat :=
  (distinct ((s.studio k).perf.filterMap fun p => p.2.owner)).filter fun c => (residents k s).any fun x => x.2.ctx == c
/-- R26: `$clk` advances; the cycle events count. The clock is stopped in P3 (R468). -/
def execArithmeticCycle (k : Nat) (s : State) : Host.Outcome State Fault Refusal :=
  .next (if s.clockStopped then s else
    let s := s.modStudio k fun st => { st with clk := st.clk + 1 }
    (perfOwners k s).foldl (fun s c =>
      let mine := (studioGroups k s).filter fun x => (s.cell x.2.cell).ctx == c
      let s := if mine.any (fun x => (s.group x.2).run.isSome) then s.perf k c 1 else s
      let s := if (residents k s).any (fun x => x.2.ctx == c && x.2.cmds.any (·.started)) then s.perf k c 9 else s
      if mine.any (fun x => (readyEntry x.2 s).isSome) then s else s.perf k c 0x0B) s)

end Sys2Proof.Machine
end

