-- ==== Sys2Proof/Machine/Service.lean ====
section
/-! DEFINITION. Units in service, their retirement, and the error counters (R24, R152, R312, R444). -/
namespace Sys2Proof.Machine
open Sys2Proof State
namespace State

/-- Class and number of a unit in error records and self-tests (R430, R444). -/
def unitClass : ErrUnit → Nat × Nat | .studio k => (0, k) | .slice k => (1, k) | .channel k => (2, k) | .lane k => (3, k)
def unitOf (cls k : Nat) : ErrUnit := match cls with | 0 => .studio k | 1 => .slice k | 2 => .channel k | _ => .lane k
def unitCount (cls : Nat) : Nat := match cls with | 0 => 192 | 1 => 64 | 2 => 384 | _ => 128
def inService (s : State) : ErrUnit → Bool
  | .studio k => s.module.studiomap.getLsbD k
  | .slice k => s.module.slicemask.getLsbD k
  | .channel k => s.module.chanmask.getLsbD k
  | .lane k => s.module.lanemask.getLsbD k
/-- A unit's self-test is due; while one is, no second is called for (R444, R455). -/
def callTest (s : State) (u : ErrUnit) : State :=
  if s.module.due.contains u || !s.inService u then s else s.modModule fun m => { m with due := m.due ++ [u] }
/-- Count an error report (R312); the unit's self-test follows it (R444). -/
def countError (s : State) (u : ErrUnit) (corrected : Bool) : State :=
  let s := s.callTest u
  match u with
  | .studio k => s.modStudio k fun st => if corrected then { st with corr := satInc st.corr } else { st with uncorr := satInc st.uncorr }
  | .slice k => s.bump (if corrected then 0x114 else 0x115) k
  | .channel k => s.bump (if corrected then 0x117 else 0x118) k
  | .lane k => s.bump (if corrected then 0x119 else 0x11A) k
/-- The task whose launch an arena belongs to: the one its entry names, or the one whose snapshot view it is. -/
def launchOf (a : Nat) (s : State) : Option Task :=
  s.tasks.find? fun t => t.state < 7 && ((s.arena a).task == t.ticket || (t.view != 0 && (s.view t.view).arena == a))
/-- POISON_LOGGED and what follows from the line's tag (R439). -/
def logPoison (cls unit ln : Nat) (l : Line) (s : State) : State :=
  let a := l.arena.toNat
  let e := s.arena a
  let live := a ≠ 0 && e.gen == l.gen && (e.state = 1 || e.state = 2)
  let t := if live then launchOf a s else none
  let r := errRecord 0x45 cls unit 0 (128 * ln) a l.gen.toNat ((t.map Task.ticket).getD 0)
  if !live then s.supReport r else
  let s := s.report e.owner r
  match t with
  | some t => if t.lrec.snap then s.requestRollback t.ticket fMemUncorr else s
  | none => s
/-- The home slice's copy of a line that has become poison: it goes, a pinned one stays as poison (R163). -/
def poisonCopy (ln : Nat) (m : Map Line) : Map Line :=
  match Map.find ln m with
  | some x => if x.pin then Map.ins ln { x with bad := true, dirty := 0 } m else Map.del ln m
  | none => m
/-- A dirty line that cannot be read becomes poison in memory. -/
def poisonLine (cls unit ln : Nat) (l : Line) (s : State) : State :=
  logPoison cls unit ln l { s with poison := Map.ins ln true s.poison, l2 := poisonCopy ln s.l2 }
/-- Write back every dirty line homed on a slice and release its pins (R152). Which lines cannot be read correctly is the hardware's
matter, a free choice: they are written as poison. -/
def flushSlice (s : State) (j : Nat) : State :=
  let ls := (s.l2.filter fun l => s.homeSlice (128 * l.1) == j).map Prod.fst
  let s := ls.foldl (fun s ln => match s.l2Live ln with
    | some l => if l.dirty ≠ 0 && Config.freeBool s.fresh then poisonLine 1 j ln l s.tick else s.tick.wbL2 ln
    | none => s) s
  ls.foldl (fun s ln => { s with l2 := Map.upd ln (fun x => { x with pin := false }) s.l2 }) s
/-- Retire a unit that failed its self-test: out of service at once, visible at the next launch admission; UNIT_RETIRED is
recorded (R24, R444). -/
def retireUnit (s : State) (u : ErrUnit) : State :=
  let s := match u with
    | .studio k => s.modModule fun m => { m with studiomap := setBit m.studiomap k false }
    | .slice k => (s.flushSlice k).modModule fun m => { m with slicemask := setBit m.slicemask k false }
    | .channel k => s.modModule fun m => { m with chanmask := setBit m.chanmask k false }
    | .lane k => s.modModule fun m => { m with lanemask := setBit m.lanemask k false }
  let (c, k) := unitClass u
  s.supReport (errRecord 0x44 c k 1 0 0 0 0)
/-- Entries of SliceMap that hold slice `j`. -/
def sliceLoad (m : Map Nat) (j : Nat) : Nat := ((List.range 64).filter fun h => Map.getD m h h == j).length
/-- The in-service slice that holds the fewest entries, the lowest on ties. -/
def leastSlice (mask : BitVec 64) (m : Map Nat) : Nat :=
  ((List.range 64).filter fun j => mask.getLsbD j).foldl (fun b j => if b = 64 || sliceLoad m j < sliceLoad m b then j else b) 64
/-- SliceMap after retirements: each entry of a slice out of service goes to the least-held one in service (R152). -/
def remapSlices (mask : BitVec 64) (m : Map Nat) : Map Nat :=
  (List.range 64).foldl (fun m h =>
    if mask.getLsbD (Map.getD m h h) then m else
    let j := leastSlice mask m
    if j = 64 then m else Map.ins h j m) m
/-- Lines whose home slice is out of service leave it, written back (R152). -/
def leaveSlices (s : State) : State :=
  ((s.l2.map Prod.fst).filter fun ln => !s.module.slicemask.getLsbD (s.homeSlice (128 * ln))).foldl (fun s ln =>
    let s := s.wbL2 ln
    { s with l2 := Map.del ln s.l2 }) s
/-- Entries of the synchronisation variable tables stand on the die that homes their variable (R339). -/
def placeSvs (s : State) : State :=
  let es := s.svs.flatMap Prod.snd
  { s with svs := (List.range 4).foldl (fun m d =>
      let l := es.filter fun e => s.svDie e.var == d
      if l.isEmpty then m else m ++ [(d, l)]) [] }
/-- At a launch admission the capacity registers and SliceMap take what is in service (R24, R152). -/
def latchCapacity (s : State) : State :=
  placeSvs ((leaveSlices s).modModule fun m =>
    { m with capStudio := m.studiomap, capSlice := m.slicemask, capChan := m.chanmask, capLane := m.lanemask,
             sliceMap := remapSlices m.slicemask m.sliceMap })

end State
end Sys2Proof.Machine
end

