-- ==== Sys2Proof/Machine/EvEasel.lean ====
section
/-! DEFINITION. Events of the Easel and the palette: commands start, execute slab by slab and complete (R255-R260, R266-R270),
fills (R272, R275), soft errors (R277, R439). -/
namespace Sys2Proof.Machine
open Sys2Proof State

/-! ### Starting a command (R260, R266) -/

/-- The segment table of a `mmar`, as it stands in scratchpad. -/
def segTable (m : Map (BitVec 8)) (c : Cmd) : List (BitVec 8) := Map.bytes m (64 * c.val) (8 * c.count)
def segOf (x : Nat) : Seg := ⟨bits x 63 51, bits x 50 39, bits x 38 27, bits x 26 21⟩
def tableSegs (b : List (BitVec 8)) : List Seg := (List.range (b.length / 8)).map fun i => segOf (field b (8 * i) 8)
/-- The table names at most 32 rows, has no reserved bit set and stays within the palette. -/
def tableOk8 (d : BitVec 64) (b : List (BitVec 8)) : Bool :=
  let segs := tableSegs b
  (segs.map Seg.rows).foldl (· + ·) 0 ≤ 32
  && (List.range (b.length / 8)).all (fun i => bits (field b (8 * i) 8) 20 0 == 0)
  && segs.all fun g => g.rows ≤ 32 && g.pslab + mdKs d ≤ 4096 && (!mdScaled d || 256 * g.sslab + scaleRows (mdB d) (mdKs d) ≤ 2 ^ 20)
/-- Segments a command would run with if it started now, and whether its table is malformed. -/
def startSegs (x : Cell) (c : Cmd) : List Seg × Bool :=
  if c.major = 0x75 then
    let b := segTable x.scratch c
    if tableOk8 c.desc b then (tableSegs b, false) else ([], true)
  else (c.segs, false)
/-- Rules 1 to 3 of R260 and the palette order of R275, for command `i` of a cell. -/
def cmdReady (x : Cell) (i : Nat) (s : State) : Bool :=
  match x.cmds[i]? with
  | none => false
  | some c =>
    let earlier := x.cmds.take i
    !c.started && !earlier.any (fun y => y.tile == c.tile)
    && (!isMul c || (!earlier.any (fun y => isMul y && y.cv == c.cv && !y.started) && cvCredits (x.cv c.cv) != 0
          && readClear x.studio c.id (segSpan c.desc (startSegs x c).1) s))
/-- The oldest ready command of a cell. -/
def oldestReady (x : Cell) (s : State) : Option Nat := (List.range x.cmds.length).find? fun i => cmdReady x i s
/-- The cell whose turn it is on a studio (rule 4). -/
def easelTurn (k : Nat) (s : State) : Option Nat :=
  let cs := ((residents k s).filter fun c => (oldestReady c.2 s).isSome).map Prod.fst
  (cs.find? fun n => (s.studio k).easelNext ≤ n).orElse fun _ => cs.head?
def modCmd (n i : Nat) (f : Cmd → Cmd) (s : State) : State := s.modCell n fun c => { c with cmds := c.cmds.modify i f }
/-- The firing a command consumes or holds: the number of the `mfence` before it (R265). -/
def firingOf (x : Cell) (c : Cmd) : Nat := ((Map.getD x.cvFired c.cv []).head?).getD (Map.getD x.cvFence c.cv 0)
/-- The register gives up a credit, with its firing. -/
def takeCredit (k : Nat) (y : Cell) : Cell :=
  let w := y.cv k
  { y.setCv k (cvWord (cvCredits w - 1) (cvSigned w) (cvDeclared w)) with cvFired := Map.upd k List.tail y.cvFired }
/-- The command starts: a credit is consumed without `.hold`, a `mmar` reads its table, checks that are not kept suspend the
tile's. -/
def startCmd (n i : Nat) (c : Cmd) (s : State) : State :=
  let x := s.cell n
  let (segs, bad) := startSegs x c
  let s := modCmd n i (fun c => { c with started := true, segs := segs, bad := bad, fence := firingOf x c }) s
  if !isMul c then s else
  let s := if c.hold then s else s.modCell n (takeCredit c.cv)
  let t := (s.cell n).tile c.tile
  if bad then s.modCell n fun y => y.setTile c.tile { t with status := t.status ||| 0x10000000, badTab := true }
  else if checksKept c.desc segs then s
  else s.modCell n fun y => y.setTile c.tile { t with status := t.status ||| 0x20000000 }
/-- R260. -/
def execEaselCommandStart (n i : Nat) (s : State) : Host.Outcome State Fault Refusal :=
  let x := s.cell n
  let k := x.studio
  .next (if x.place ≠ .resident ∨ s.clockStopped ∨ (residents k s).any (fun c => c.2.cmds.any (·.started)) ∨ easelTurn k s ≠ some n ∨ oldestReady x s ≠ some i then s
    else match x.cmds[i]? with
      | some c => settleZaps k ((startCmd n i c (settleWatch n c.tile s)).modStudio k fun st => { st with easelNext := n + 1 })
      | none => s)

/-! ### Slabs and completion -/

/-- Slabs a command executes. -/
def cmdSlabs (c : Cmd) : Nat := if isMul c && !c.bad then mdKs c.desc else 0
/-- R255-R257. -/
def execEaselSlab (n i : Nat) (s : State) : Host.Outcome State Fault Refusal :=
  let x := s.cell n
  .next (match x.cmds[i]? with
    | some c =>
      if x.place ≠ .resident ∨ s.clockStopped ∨ !c.started ∨ cmdSlabs c ≤ c.done then s else
      let t := slabStep (s.studio x.studio) x.scratch c.desc c.segs c.done (x.tile c.tile)
      let s := s.modCell n fun y => y.setTile c.tile t
      (modCmd n i (fun c => { c with done := c.done + 1 }) s).perf x.studio x.ctx 8
    | none => s)
/-- The check of R258 on a tile; true where it does not fail. TILE_FIXED is reported and counted (R259). -/
def runCheck (n m : Nat) (s : State) : State × Bool :=
  let x := s.cell n
  let t := x.tile m
  match checkTile t with
  | .pass => (s, true)
  | .bad => (s.modCell n fun y => y.setTile m { t with status := t.status ||| 0x10000000, badTab := false }, false)
  | .fix i j =>
    let r := errRecord 0x40 0 x.studio (m + 256 * i + 65536 * j) 0 0 0 x.ticket
    let s := s.modCell n fun y => y.setTile m (correct t i j)
    (((s.report x.ctx r).supReport r).countError (.studio x.studio) true, true)
/-- `mwrite`: the captured rows, the mode, then the checks from the whole tile (R268). -/
def writeTile (c : Cmd) (t : Tile) : Tile :=
  let t := (positions c.mask).foldl (fun t p => (List.range 16).foldl (fun t j => t.set p j (getW c.rows (16 * p + j))) t) t
  recheck { t with sticky := 0, status := (t.status &&& 0x1FFFFFFF) ||| (if c.sub = 1 then 0x80000000 else 0) }
/-- What a completing command does to the cell. A multiplication's window stays open for the `mwait` that observes it (R265); a command
that reads the tile meets what the open windows have made of it (R276). -/
def finishCmd (n : Nat) (c : Cmd) (s : State) : State :=
  match c.major with
  | 0x73 => s.modCell n fun y =>
      { y.setTile c.tile { (default : Tile) with status := if c.sub = 1 then 0x80000000 else 0 } with watch := y.watch.filter fun w => w.tile != c.tile }
  | 0x79 => s.modCell n fun y => y.setTile c.tile (writeTile c (y.tile c.tile))
  | 0x7A => (runCheck n c.tile (settleWatch n c.tile s)).1
  | 0x77 =>
    let (s, ok) := runCheck n c.tile (settleWatch n c.tile s)
    if !ok then s else
    s.modCell n fun y => y.putScratch s.fresh (64 * c.val) (words (y.tile c.tile).data 512)
  | _ =>
    if !isMul c then s else settleWatch n c.tile (s.modCell n fun y => { y with watch := y.watch ++ [c] })
/-- R260, R268, R270. -/
def execEaselCommandComplete (n i : Nat) (s : State) : Host.Outcome State Fault Refusal :=
  let x := s.cell n
  .next (match x.cmds[i]? with
    | some c =>
      if x.place ≠ .resident ∨ s.clockStopped ∨ !c.started ∨ c.done < cmdSlabs c then s else
      settleZaps x.studio (settleEngine n ((finishCmd n c s).modCell n fun y => { y with cmds := y.cmds.eraseIdx i }))
    | none => s)

/-! ### Fills (R272) -/

def modFill (n f : Nat) (g : Fill → Fill) (s : State) : State := s.modCell n fun c => { c with fills := Map.upd f g c.fills }
/-- Write bytes down one column of the B store from a row. -/
def putColumn (k row j : Nat) (b : List (BitVec 8)) (s : State) : State :=
  s.modStudio k fun st => { st with palB := b.zipIdx.foldl (fun m x => Map.put 0 (16 * (row + x.2) + j) x.1 m) st.palB }
/-- Read one stretch of every column and place it at a row. -/
def fillColumns (w : Who) (src stride row len : Nat) (s : State) : Except Raise State :=
  (List.range 16).foldlM (fun s j => do
    let (s, b) ← readRange w (src + j * stride) len s
    return putColumn w.k row j b s) s
def putChecks (k : Nat) (rs : List (Nat × Nat)) (s : State) : State :=
  s.modStudio k fun st => { st with palC := rs.foldl (fun m r => if r.1 < 2 ^ 20 then putW m r.1 r.2 else m) st.palC }
/-- Undefined values in palette rows `[a, b)` and check rows `[c, d)` (R4). -/
def freeRows (k a b c d : Nat) (s : State) : State :=
  let f := s.fresh
  let n := 16 * (b - a)
  let s := s.modStudio k fun st =>
    { st with palB := (List.range n).foldl (fun m i => Map.put 0 (16 * a + i) (Config.free8 (f + i)) m) st.palB,
              palC := (List.range (d - c)).foldl (fun m i => if c + i < 2 ^ 20 then Map.put 0 (c + i) (Config.free32 (f + i)) m else m) st.palC }
  { s with fresh := f + n + (d - c) }
/-- The fill stops with a fault: it is recorded, and what was not completed is undefined. -/
def stopFill (n f : Nat) (x : Fill) (y : Raise) (s : State) : State :=
  let r := fillOf x.record
  let k := (s.cell n).studio
  let s := if r.scaled && !x.scales then freeRows k (256 * r.sslab) (256 * r.sslab + scaleRows r.ty r.ks) 0 0 s else s
  let c0 := 128 * r.cb
  let s := freeRows k (256 * (r.pslab + x.done)) (256 * (r.pslab + r.ks)) (if r.chk then c0 + x.done * kps r.ty else 0)
    (if r.chk then c0 + r.ks * kps r.ty else 0) s
  modFill n f (fun x => { x with fault := some ⟨y.code, y.sub, y.addr, 0, x.handler, none⟩ }) s
/-- The scale copy, or the next slab with its check rows. -/
def fillStep (w : Who) (f : Nat) (x : Fill) (s : State) : Except Raise State := do
  let r := fillOf x.record
  if r.scaled && !x.scales then
    let s ← fillColumns w r.ssrc r.sstride (256 * r.sslab) (scaleRows r.ty r.ks) s
    return modFill w.cell f (fun x => { x with scales := true }) s
  let s ← fillColumns w (r.src + 256 * x.done) r.cstride (256 * (r.pslab + x.done)) 256 s
  let s := if r.chk then putChecks w.k (checkRows (s.studio w.k) r x.done) s else s
  return modFill w.cell f (fun x => { x with done := x.done + 1 }) s
/-- R272: a slab, or the scales first; nothing while an earlier access of the rows is incomplete, or at a migrating page. -/
def execFillSlab (n f : Nat) (s : State) : Host.Outcome State Fault Refusal :=
  let c := s.cell n
  let x := Map.getD c.fills f default
  .next (if c.place ≠ .resident ∨ s.clockStopped ∨ !x.busy ∨ x.fault.isSome ∨ (fillOf x.record).ks ≤ x.done ∨ !writeClear c.studio x.id (fillSpan x) s then s else
    match fillStep (s.whoOf n) f x s with
    | .ok s => s
    | .error y => if y.hold then s else stopFill n f x y s)
/-- R272: the slot becomes idle. -/
def execFillComplete (n f : Nat) (s : State) : Host.Outcome State Fault Refusal :=
  let c := s.cell n
  let x := Map.getD c.fills f default
  .next (if c.place = .resident ∧ !s.clockStopped ∧ x.busy ∧ (x.fault.isSome ∨ (fillOf x.record).ks ≤ x.done) then
      settleZaps c.studio (settleEngine n (modFill n f (fun x => { x with busy := false }) s)) else s)

/-! ### Soft errors (R277, R439) -/

/-- Flip one bit of a list of bytes. -/
def flipBit (b : List (BitVec 8)) (i : Nat) : List (BitVec 8) := b.modify (i / 8) fun x => x ^^^ BitVec.ofNat 8 (2 ^ (i % 8))
/-- A bit of a tile's data, checksums or magnitudes flips; a line becomes unreadable; a bit of a cached code line flips. -/
def execSoftError (t : SoftTarget) (s : State) : Host.Outcome State Fault Refusal :=
  .next (match t with
    | .tileBit n m w b =>
      let c := s.cell n
      if m < c.tileCount ∧ w < 608 ∧ b < 32 then
        let t := c.tile m
        s.modCell n fun y => y.setTile m { tileOf (flipBit (tileBytes t) (32 * w + b)) with badTab := t.badTab }
      else s
    | .memLine l => { s with poison := Map.ins l true s.poison }
    | .codeLine k l b => s.modStudio k fun st => { st with icache := Map.upd l (fun x => flipBit x (b % 512)) st.icache })

end Sys2Proof.Machine
end

