-- ==== Sys2Proof/Machine/EvBrush.lean ====
section
/-! DEFINITION. Events of the Brush: bursts and completion of copies (R404-R408, R412), multicast hops (R413), collective
rounds (R414, R415). -/
namespace Sys2Proof.Machine
open Sys2Proof State

def modBrush (n i : Nat) (f : Brush → Brush) (s : State) : State := s.modCell n fun c => { c with brush := c.brush.modify i f }

/-! ### Reports (R307, R310, R407) -/

/-- `k` landings counted one after another on a word. -/
def landings : Nat → Word16 → Word16
  | 0, w => w
  | k + 1, w => landings k (match swChange .landing w 1 with | .ok w => w | .error _ => w)
/-- The same at a word of a cell's scratchpad. -/
def landScratch (n a k : Nat) (s : State) : State :=
  s.modCell n fun c => c.putScratch s.fresh a (landings k (Word16.of (Map.bytes c.scratch a 16))).bytes
/-- A word in global memory at one location, at its target for host and peer memory. -/
def landHome (r : GRef) (w : Who) (va k : Nat) (s : State) (x : Xlat) : Except Raise State :=
  let pa := physOf x va
  let t := { tagOf w x 0 with direct := true }
  let (s, bs, bad) := s.readAt w.k t true pa 16
  if bad then fault fMemUncorr pa else .ok (noteRcv r t pa (s.storeHome w.k t pa (landings k (Word16.of bs)).bytes))
/-- `k` bytes reported to a word in global memory, in the cell's view: deferred in a rival, suppressed in a shadow copy, where
the page is external (log 60). A poisoned word is MEM_UNCORR (R439). -/
def landGlobal (r : GRef) (w : Who) (va k : Nat) (s : State) : Except Raise State := do
  match ← s.checkOne w { n := 16, rd := true, wr := true } va with
  | (_, none) => fault fPageAbsent va
  | (s, some x) =>
    match writeClass s w va x false with
    | .perform xs => xs.foldlM (landHome r w va k) s
    | .suppress => return s
    | .defer => addEscape s w.view { op := 0xA7, sub := 0, mode := 0, lane := 255, addr := BitVec.ofNat 64 va, data := [BitVec.ofNat 64 k] }
/-- A late fault of a command is held for its group (R408, R429). -/
def brushFault (n : Nat) (b : Brush) (y : Raise) (s : State) : State :=
  s.lateFault ⟨n, b.grp⟩ ⟨y.code, y.sub, y.addr, 0, b.handler, none⟩
/-- Report `k` landed bytes of a command; none where the report must wait, at a migrating page or for room in a journal (R158, R167): what
lands with it then waits too. -/
def reportBytes (n : Nat) (b : Brush) (k : Nat) (s : State) : Option State :=
  match b.report with
  | 1 => some ((List.range k).foldl (fun s _ => barBytes n b.bar 1 s) s)
  | 2 => some (landScratch n b.word.toNat k s)
  | 3 => if k = 0 then some s else match landGlobal ⟨n, b.grp⟩ (s.whoOf n) b.word.toNat k s with
    | .ok s => some s
    | .error y => if y.hold then none else some (brushFault n b y s)
  | _ => some s
/-- Command `i` moves something: it, and every earlier one of the cell, has started (R408). -/
def startBrush (n i : Nat) (s : State) : State :=
  s.modCell n fun c => { c with brush := c.brush.zipIdx.map fun x => if x.2 ≤ i then { x.1 with started := true } else x.1 }

/-! ### The records of a shadowed cell's commands (R437) -/

/-- A landed burst leaves a record for its group's write stream. -/
def keepSig (n : Nat) (b : Brush) (va : Nat) (bs : List (BitVec 8)) (s : State) : State :=
  match (s.cell n).role with
  | .plain => s
  | _ => s.modCell n fun c => { c with sigs := c.sigs ++ [(b.id, b.grp, va, bs)] }
/-- A hop leaves one for each 4 KiB burst of its bytes. -/
def keepHop (n : Nat) (b : Brush) (s : State) : State :=
  (chunks 4096 b.rec64.length 0 b.rec64.length).foldl (fun s q =>
    keepSig n b (chainDst b.chain + q.1) ((b.rec64.drop q.1).take q.2) s) s
/-- The records enter the streams with the commands of a group in issue order: those that no earlier command can come before. -/
def flushSigs (n : Nat) (s : State) : State :=
  let c := s.cell n
  let waits := fun (x : Nat × Nat × Nat × List (BitVec 8)) =>
    c.brush.any fun b => b.grp == x.2.1 && b.id < x.1 && (b.major == 0xC9 || b.major == 0xCA)
  let s := ((c.sigs.filter fun x => !waits x).mergeSort fun a b => a.1 ≤ b.1).foldl (fun s x => signWrite ⟨n, x.2.1⟩ x.2.2.1 x.2.2.2 s) s
  s.modCell n fun c => { c with sigs := c.sigs.filter waits }

/-! ### bcopy and bstore (R404, R405, R412) -/

/-- A nibble of the box as a `bcopy` reads it. -/
def nibbleIn (w : Who) (l : Layout) (cs : List Int) (n : Nat) (s : State) : Except Raise (State × Nat) :=
  match l.elemAt cs n with
  | none => .ok (s, l.fill % 16)
  | some a => do
    let (s, b) ← readRange w (a / 2) 1 s
    return (s, leNat b / 16 ^ (a % 2) % 16)
/-- The bytes of a unit as a `bcopy` reads it: memory, or the fill pattern outside. -/
def unitIn (w : Who) (l : Layout) (cs : List Int) (u : Nat) (s : State) : Except Raise (State × List (BitVec 8)) :=
  if l.ty.width = 4 then do
    let (s, a) ← nibbleIn w l cs (2 * u) s
    let (s, b) ← nibbleIn w l cs (2 * u + 1) s
    return (s, [BitVec.ofNat 8 (a + 16 * b)])
  else match l.elemAt cs u with
    | none => .ok (s, leBytes (unitBytes l) l.fill)
    | some a => readRange w (a / 2) (unitBytes l) s
/-- Bytes a unit of a command lands. -/
def unitLands (b : Brush) (u : Nat) : Nat :=
  let l := layoutOf b.layout
  let cs := coordInts b.coords
  if b.major = 0xC8 then unitBytes l
  else if l.ty.width = 4 then (if (l.elemAt cs (2 * u)).isSome || (l.elemAt cs (2 * u + 1)).isSome then 1 else 0)
  else if (l.elemAt cs u).isSome then unitBytes l else 0
/-- The bytes a `bstore` reads at `a`: free values where a `bcopy` of the cell overlaps it (R425). -/
def storeBytes (n : Nat) (b : Brush) (a k : Nat) (s : State) : List (BitVec 8) :=
  (List.range k).map fun i =>
    if b.crossings.any fun r => rangesMeet (a + i, 1) r then Config.free8 (s.fresh + i) else Map.getD (s.cell n).scratch (a + i) 0
/-- One unit of a command; the bytes that landed. -/
def moveUnit (w : Who) (b : Brush) (u : Nat) (s : State) : Except Raise (State × Nat) :=
  let l := layoutOf b.layout
  let cs := coordInts b.coords
  let at' := b.off + unitBytes l * u
  if b.major = 0xC8 then do
    let (s, bs) ← unitIn w l cs u s
    return (landIn w.cell at' (unitBytes l) (some bs) s, unitBytes l)
  else unitOut ⟨w.cell, b.grp⟩ w l cs u (some (storeBytes w.cell b at' (unitBytes l) s)) { s with fresh := s.fresh + unitBytes l }
/-- Units in order until one faults: the state, the bytes landed, and the fault with the units from it on. -/
def moveUnits (w : Who) (b : Brush) : List Nat → State → Nat → State × Nat × Option (Raise × List Nat)
  | [], s, n => (s, n, none)
  | u :: r, s, n => match moveUnit w b u s with
    | .ok (s, k) => moveUnits w b r s (n + k)
    | .error y => (s, n, some (y, u :: r))
/-- The command stops with a fault once `k` bytes of the burst have landed: its report is made for the whole of it, what it did not write
is undefined. -/
def stopBrush (n i : Nat) (b : Brush) (y : Raise) (rest : List Nat) (k : Nat) (s : State) : Option State :=
  let l := layoutOf b.layout
  let units := rest ++ (List.range (unitsOf l)).filter fun u => (b.done + 1) * (4096 / unitBytes l) ≤ u
  let s := units.foldl (freeUnit (s.whoOf n) b) s
  (reportBytes n b (k + (units.map (unitLands b)).foldl (· + ·) 0) s).map fun s =>
    modBrush n i (fun b => { b with stopped := true, done := burstsOf l }) (brushFault n b y s)
/-- The record of a landed `bstore` burst in its group's write stream (R437; log 91): the address of its first element in memory, and
the bytes. -/
def signBurst (n : Nat) (b : Brush) (us : List Nat) (s : State) : State :=
  if b.major ≠ 0xC9 then s else
  let l := layoutOf b.layout
  let u := unitBytes l
  let at' := (us.findSome? fun i => l.elemAt (coordInts b.coords) (if l.ty.width = 4 then 2 * i else i)).getD (2 * l.base)
  keepSig n b (at' / 2) (Map.bytes (s.cell n).scratch (b.off + u * us.headD 0) (u * us.length)) s
/-- R408: a burst of a copy, once its studio has landing space for the bytes that a `bcopy` reads (R423); the bursts of the commands that
have started come in any order. Elements of a `bstore` that share a byte
leave the value of either (log 58). -/
def execBrushBurst (n i : Nat) (s : State) : Host.Outcome State Fault Refusal :=
  let c := s.cell n
  .next (match c.brush[i]? with
    | none => s
    | some b =>
      let l := layoutOf b.layout
      let us := burstUnits l b.done
      if c.place ≠ .resident ∨ s.clockStopped ∨ (b.major ≠ 0xC8 ∧ b.major ≠ 0xC9) ∨ burstsOf l ≤ b.done
        ∨ (b.major = 0xC8 ∧ !landRoom c.studio (unitBytes l * us.length) s) then s else
      let s' := startBrush n i (signBurst n b us s)
      let us := if b.major = 0xC9 && Config.freeBool s.fresh then us.reverse else us
      let (s1, k, bad) := moveUnits (s.whoOf n) b us s'.tick 0
      let s2 := s1.perf c.studio c.ctx 0x0A k
      let r := match bad with
        | none => (reportBytes n b k s2).map (modBrush n i fun b => { b with done := b.done + 1 })
        | some (y, rest) => if y.hold then none else stopBrush n i b y rest k s2
      r.elim s (flushSigs n))

/-! ### Completion -/

/-- Every byte of the command has landed. -/
def brushDone (b : Brush) : Bool :=
  if b.major = 0xCA then b.stopped || b.hops ≤ b.hop
  else if b.major = 0xCB then b.stopped || 0 < b.done
  else burstsOf (layoutOf b.layout) ≤ b.done
/-- R408, R407: the arrival, and the command leaves the queue. -/
def execBrushCommandComplete (n i : Nat) (s : State) : Host.Outcome State Fault Refusal :=
  let c := s.cell n
  .next (match c.brush[i]? with
    | some b =>
      if c.place ≠ .resident ∨ s.clockStopped ∨ !brushDone b then s else
      let s := flushSigs n (s.modCell n fun c => { c with brush := c.brush.eraseIdx i })
      if b.report = 0 then barArrival n b.bar s else s
    | none => s)

/-! ### bmcast (R413) -/

/-- The next hop: the bytes land in the receiver and its word is raised; a range beyond its allocation is HANDLE, found late. -/
def execBmcastHop (n i : Nat) (s : State) : Host.Outcome State Fault Refusal :=
  let c := s.cell n
  .next (match c.brush[i]? with
    | none => s
    | some b =>
      if c.place ≠ .resident ∨ s.clockStopped ∨ b.major ≠ 0xCA ∨ brushDone b then s else
      match stageCell c (c.stage + b.hop + 1) s with
      | none => s
      | some m =>
        let r := s.cell m
        let len := chainLen b.chain
        if r.place ≠ .resident then s
        else if r.scratchSz < chainDst b.chain + len ∨ r.scratchSz < chainWord b.chain + 16 then
          let s' := brushFault n b { code := fHandle, addr := b.chain } (startBrush n i s)
          ((reportBytes n b len s').map (modBrush n i fun b => { b with stopped := true })).getD s
        else
          let s1 := landIn m (chainDst b.chain) len (some b.rec64) (keepHop n b (startBrush n i s))
          let s2 := (landScratch m (chainWord b.chain) len s1).perf r.studio r.ctx 0x0A len
          let s3 := modBrush n i (fun b => { b with hop := b.hop + 1 }) s2
          (if b.hops ≤ b.hop + 1 then reportBytes n b len s3 else some s3).elim s (flushSigs n))

/-! ### bred (R414, R415) -/

def unpackVals (w n : Nat) (b : List (BitVec 8)) : List (BitVec 64) := (List.range n).map fun i => BitVec.ofNat 64 (field b (w * i) w)
/-- Accept a contribution into its round, opening the round if it is the first. -/
def acceptInto (n : Nat) (b : Brush) (s : State) : State :=
  let part : Contrib := ⟨n, b.id, unpackVals (collWidth b.sub) b.hop b.rec64⟩
  match roundOf b.chain b.round s with
  | some r => { s with rounds := s.rounds.map fun x => if x == r then { x with parts := x.parts ++ [part] } else x }
  | none => { s with rounds := s.rounds ++ [⟨b.chain, b.round, s.homeSlice b.chain.toNat, b.sub, b.hop, b.layout, [part]⟩] }
/-- Bytes of the results of a collective. -/
def bredBytes (b : Brush) : Nat := collWidth b.sub * b.hop
/-- R414: acceptance at the round's home slice, which the hash of its tag names; a contribution that disagrees with the first raises
HANDLE. The studio keeps landing space for the results (R423), for which the contribution waits. -/
def execBredAccept (n i : Nat) (s : State) : Host.Outcome State Fault Refusal :=
  let c := s.cell n
  .next (match c.brush[i]? with
    | none => s
    | some b =>
      if c.place ≠ .resident ∨ s.clockStopped ∨ b.major ≠ 0xCB ∨ b.accepted ∨ !s.inService (.slice (s.homeSlice b.chain.toNat))
        ∨ 131072 < (s.studio c.studio).landing + bredBytes b then s else
      let s' := startBrush n i s
      let agrees := match roundOf b.chain b.round s with | some r => roundAgrees r b.sub b.hop b.layout | none => true
      if agrees then
        acceptInto n b ((modBrush n i (fun b => { b with accepted := true }) s').modStudio c.studio fun st => { st with landing := st.landing + bredBytes b })
      else
        let s' := brushFault n b { code := fHandle, addr := b.addr } s'
        (reportBytes n b (bredBytes b) (modBrush n i (fun b => { b with accepted := true, stopped := true }) s')).getD s)
/-- One element of the result (R415). -/
def reduceElem (variant : Nat) (xs : List Nat) : Nat :=
  match variant with
  | 0 => toF32 0 (sumV false (xs.map (val .f32)))
  | 1 => (match xs with | [] => 0 | x :: r => r.foldl faddBits x)
  | 2 => (xs.foldl (· + ·) 0) % 2 ^ 32
  | _ => (xs.foldl (· + ·) 0) % 2 ^ 64
/-- The contributions in the order `.fast` adds them: an open one (log 26). -/
def openOrder (f : Nat) (ps : List Contrib) : List Contrib :=
  (ps.zipIdx.mergeSort fun a b => (Config.free32 (f + a.2)).toNat ≤ (Config.free32 (f + b.2)).toNat).map Prod.fst
/-- Index and command of a participant's `bred`. -/
def partCmd (p : Contrib) (s : State) : Option (Nat × Brush) :=
  match Map.find p.cell s.cells with
  | none => none
  | some c => (c.brush.zipIdx.find? fun x => x.1.id == p.id).map fun x => (x.2, x.1)
/-- Participants the round waits for: P of its first contribution. -/
def roundSize (r : Round) (s : State) : Option Nat := r.parts.head?.bind fun p => (partCmd p s).map fun x => x.2.hops
/-- Deliver the results to one participant, with the report of its bytes; none where the report must wait. -/
def deliverRound (res : List (BitVec 64)) (w : Nat) (s : State) (p : Contrib) : Option State :=
  match partCmd p s with
  | none => some s
  | some (i, b) =>
    let c := s.cell p.cell
    let s := landIn p.cell b.off (w * res.length) (some (packVals w res)) s
    let s := if c.place ≠ .resident then s
      else (s.perf c.studio c.ctx 0x0A (w * res.length)).modStudio c.studio fun st => { st with landing := st.landing - bredBytes b }
    (reportBytes p.cell b (w * res.length) s).map (modBrush p.cell i fun b => { b with done := 1 })
/-- A participant's release at `.sys`, or the acquire of its wait (R415). -/
def roundFence (acq : Bool) (s : State) (p : Contrib) : State :=
  match partCmd p s with
  | none => s
  | some (_, b) =>
    let c := s.cell p.cell
    if c.place ≠ .resident then s
    else if acq then acquireCaches (s.whoOf p.cell) 5 none s else releaseActs ⟨p.cell, b.grp⟩ (s.whoOf p.cell) 5 none s
/-- R414, R415: all P contributions are accepted, and every participant receives the results. -/
def execBredRoundComplete (tag : BitVec 64) (k : Nat) (s : State) : Host.Outcome State Fault Refusal :=
  .next (match roundOf tag k s with
    | none => s
    | some r =>
      match roundSize r s with
      | none => s
      | some p =>
        if r.parts.length < p ∨ s.clockStopped then s else
        let w := collWidth r.variant
        let ps := if r.variant = 1 then openOrder s.fresh r.parts else r.parts
        let res := (List.range r.n).map fun i => BitVec.ofNat 64 (reduceElem r.variant (ps.map fun x => (x.vals.getD i 0).toNat))
        let s1 := { s with rounds := s.rounds.filter (· != r), fresh := s.fresh + ps.length }
        let s2 := r.parts.foldl (roundFence false) s1
        (r.parts.foldlM (deliverRound res w) s2).elim s (r.parts.foldl (roundFence true)))

end Sys2Proof.Machine
end

