-- ==== Sys2Proof/Machine/Agents.lean ====
section
/-! DEFINITION. Accesses of the launch controller, the codec engines, host and peers: in view 0, at the home (R162, R354). -/
namespace Sys2Proof.Machine
open Sys2Proof State

/-- Read at the home, host and peer memory at its target: the buffers of each line merged first; whether a byte comes from a poisoned
line. A miss that finds every way pinned counts in PINBYPASS (R163). -/
def homeRead (pa n : Nat) (s : State) : State × List (BitVec 8) × Bool :=
  let lns := distinct ((List.range n).map fun i => (pa + i) / 128)
  let s := lns.foldl (fun s ln => ((s.mergeLine ln).meetTarget ln).bypass (Tag.own 0) ln) s
  (s, s.homeBytes pa n, lns.any s.homeBad)
/-- Write at the home, line by line; host and peer memory takes the bytes at once. -/
def homePut (t : Tag) (pa : Nat) (bs : List (BitVec 8)) (s : State) : State :=
  (distinct ((List.range bs.length).map fun i => (pa + i) / 128)).foldl (fun s ln =>
    let lo := max pa (128 * ln)
    let hi := min (pa + bs.length) (128 * ln + 128)
    ((s.mergeLine ln).homeWrite t lo ((bs.drop (lo - pa)).take (hi - lo))).sendTarget ln) s

/-- Who accesses: the launch controller for a context, or a codec engine for its context, one of whose buffers it may be. -/
inductive Agent where
  | ctl (c : Nat)
  | engine (e c : Nat) (buffer : Bool)
deriving DecidableEq, Repr
def Agent.ctx : Agent → Nat
  | .ctl c => c
  | .engine _ c _ => c
/-- The page is a dropped arena's, as the agent knows: an engine by its own vector (R326), the controller by the arena's entry. -/
def agentDead (g : Agent) (va : Nat) (leaf : BitVec 64) (s : State) : Bool :=
  let a := leafArena leaf
  let gen := s.captureGen g.ctx va leaf
  a ≠ 0 && ((match g with
    | .ctl _ => gen != (s.arena a).gen
    | .engine e _ _ => s.staleAt (unitEngine e) (BitVec.ofNat 12 a) gen) || s.pageDead ⟨0, g.ctx, 0, 0⟩ va a)
/-- The page is a sealed arena's, as the agent knows (R336): an engine by the seal bit it holds under the page's generation. -/
def agentSealed (g : Agent) (va : Nat) (leaf : BitVec 64) (s : State) : Bool :=
  let a := leafArena leaf
  a ≠ 0 && (match g with
    | .ctl _ => (s.arena a).state == 2
    | .engine e _ _ => s.unitSeal (unitEngine e) a && s.unitGen (unitEngine e) a == s.captureGen g.ctx va leaf)
/-- The page is none of an arena of the engine's context, where a buffer of its command lies (R465). -/
def agentOutside (g : Agent) (leaf : BitVec 64) (s : State) : Bool :=
  match g with
  | .engine _ c true => leafArena leaf = 0 || (s.arena (leafArena leaf)).owner != c
  | _ => false
/-- The checks of R157 in view 0, with no region check, for one address of an agent. -/
def agentOne (g : Agent) (va : Nat) (wr : Bool) (s : State) : Except Raise (State × Xlat) := do
  let c := g.ctx
  let some (leaf, sh, at') := s.walk (s.ctx c).root.toNat (va % 2 ^ 57) | .error (s.walkFault ⟨0, c, 0, 0⟩ va)
  let x : Xlat := ⟨leaf, sh, s.captureGen c va leaf, 0, at'⟩
  if leafKind leaf = 3 then fault fProt va 3
  if leafRes leaf = 0 && (!s.targetOk (physOf x va) || isRegWindow (physOf x va)) then fault fProt va 2
  if (wr && !leafBit leaf 3) || (!wr && !leafBit leaf 2) || agentOutside g leaf s then fault fProt va 0
  if agentDead g va leaf s then fault fArenaDead va
  if wr && agentSealed g va leaf s then fault fArenaSealed va
  if leafRes leaf = 1 then holdHere
  if leafRes leaf = 2 then fault fPageAbsent va
  if wr && leafBit leaf 7 && s.undoWaits c (physOf x va) then holdHere
  if s.touchDead ⟨0, c, 0, 0⟩ va x then fault fArenaDead va
  let some s := s.chargeTouch c va leaf | fault fQuota va
  return (s, x)
/-- Tag of an agent's access. -/
def agentTag (c : Nat) (x : Xlat) : Tag := { tagOf ⟨0, c, 0, 0⟩ x 0 with cell := none }
/-- Read bytes at a virtual address, in aligned pieces of `step` bytes. -/
def agentRead (g : Agent) (step va len : Nat) (s : State) : Except Raise (State × List (BitVec 8)) :=
  (chunks step (len + 1) (va % 2 ^ 57) len).foldlM (fun (x : State × List (BitVec 8)) q => do
    let (s, t) ← agentOne g q.1 false x.1
    let (s, b, bad) := homeRead (physOf t q.1) q.2 s
    if bad then fault fMemUncorr (physOf t q.1)
    return (s, x.2 ++ b)) (s, [])
/-- Write bytes at a virtual address, in aligned pieces of `step` bytes. -/
def agentWrite (g : Agent) (step va : Nat) (bs : List (BitVec 8)) (s : State) : Except Raise State :=
  (chunks step (bs.length + 1) (va % 2 ^ 57) bs.length).foldlM (fun s q => do
    let (s, t) ← agentOne g q.1 true s
    return homePut (agentTag g.ctx t) (physOf t q.1) ((bs.drop (q.1 - va % 2 ^ 57)).take q.2) s) s
/-- One change of a synchronisation word by an agent (R310, R386, R466); the word after it. -/
def agentSw (g : Agent) (va : Nat) (f : Word16 → Except (BitVec 8) Word16) (s : State) : Except Raise (State × Word16) := do
  if va % 16 ≠ 0 then fault fAlign va
  let (s, t) ← agentOne g va true s
  let (s, bs, bad) := homeRead (physOf t va) 16 s
  if bad then fault fMemUncorr (physOf t va)
  match f (Word16.of bs) with
  | .error e => fault e va
  | .ok w => return (homePut (agentTag g.ctx t) (physOf t va) w.bytes s, w)

/-! ### Writes that a migrating page holds (R158) -/

def Held.agent (h : Held) : Agent := match h.engine with | some e => .engine e h.ctx false | none => .ctl h.ctx
/-- Perform an agent's write. -/
def Held.perform (h : Held) (s : State) : Except Raise State :=
  match h.what with
  | .bytes step bs => agentWrite h.agent step h.va bs s
  | .done => (agentSw h.agent h.va (fun w => swChange .add w 1) s).map Prod.fst
/-- An agent's write: held, behind those held for its place, while its page is migrating or its journal full (R158, R167); refused for
another reason it is reported to the supervisor (R386). That the controller goes on meanwhile: log 117. -/
def putHeld (s : State) (h : Held) : State :=
  if s.held.any fun x => x.ctx == h.ctx && x.va == h.va then { s with held := s.held ++ [h] } else
  match h.perform s with
  | .ok s => s
  | .error y => if y.hold then { s with held := s.held ++ [h] } else s.supReport (errRecord y.code 5 0 0 0 0 0 h.ticket)
/-- Held writes are tried anew, in order. -/
def tryHeld (s : State) : State := s.held.foldl putHeld { s with held := [] }
/-- The launch controller writes bytes for a task of a context, in pieces of 8. -/
def ctlWrite (c va : Nat) (bs : List (BitVec 8)) (t : BitVec 64) (s : State) : State := putHeld s ⟨c, none, va, .bytes 8 bs, t⟩

end Sys2Proof.Machine
end

