-- ==== Sys2Proof/Machine/System.lean ====
section
/-! DEFINITION. System registers, traps, return from an exception, supervisor calls, the error queue, checkpoints,
translation control, self-tests (R145, R146, R205, R431, R445-R454). -/
namespace Sys2Proof.Machine
open Sys2Proof State

/-- Original groups with a lane among the active ones (R205). -/
def keyGroups (gd : Guard) (s : State) : List Nat := distinct ((s.active gd).map fun p => s.clOf p / 32)
/-- A shadow rate as SHADOWRATE reads it (R145, R437). -/
def shadowRate (s : State) : BitVec 64 :=
  let f := match s.task s.cc.ticket with | some t => t.lrec.shadow | none => 0
  if f = 0 then (s.ctx s.cc.ctx).shadowDefault.setWidth 64 else BitVec.ofNat 64 f
/-- STUDIOMAP as the launch latched it at its admission (R24, R145). -/
def studioMap (s : State) : BitVec 192 := match s.task s.cc.ticket with | some t => t.caps.1 | none => s.module.capStudio
/-- ERRQCNT (R431). -/
def errqCount (c : Ctx) : BitVec 64 := BitVec.ofNat 64 (c.errq.length + 2 ^ 16 * c.errLost.toNat)
/-- Word `k` of a system register, at issue (R145, R205, R341, R431). -/
def sysRead (gd : Guard) (n k : Nat) (s : State) : BitVec 64 :=
  let g := s.cg
  let c := s.ctx s.cc.ctx
  match n with
  | 0x000 => c.trapvec
  | 0x001 => g.trapcause
  | 0x002 => g.trappc
  | 0x003 => g.trapaddr
  | 0x004 => g.trapsave
  | 0x010 => BitVec.ofNat 64 s.cc.ctx
  | 0x011 => c.crown.setWidth 64
  | 0x020 => c.rpseq
  | 0x021 => c.rpqpos
  | 0x022 => c.rpentry
  | 0x030 => shadowRate s
  | 0x040 => BitVec.ofNat 64 ((studioMap s).toNat / 2 ^ (64 * k))
  | 0x050 => Config.featOffer
  | 0x051 => s.module.featAccept
  | 0x060 => s.module.lifecycle.setWidth 64
  | 0x200 => errqCount c
  | 0x201 => c.ckptstat
  | 0x300 => if k = 0 then c.arwin.setWidth 64 else c.arwinLen.setWidth 64
  | 0x400 => (Map.getD s.cc.groups ((keyGroups gd s).headD 0) default).rndkey
  | _ => 0
/-- R146. -/
def execMfsys (o : SOp) (s : State) : Host.Outcome State Fault Refusal :=
  issueOk (.mfsys o) s fun s =>
    if (s.active o.gd).isEmpty then s else s.writeG o.dest (sysRead o.gd o.sysreg.toNat o.imm.toNat s)
/-- Writable of R146 and R205. -/
def sysWritable (n : Nat) (s : State) : Bool := n == 0x400 || (n == 0x002 && s.cg.handler)
/-- R146: TRAPPC, or RNDKEY of every original group that has an active lane (R205). -/
def sysWrite (gd : Guard) (n : Nat) (v : BitVec 64) (s : State) : State :=
  if n = 0x002 then s.modCg fun g => { g with trappc := v }
  else (keyGroups gd s).foldl (fun s i => s.modGroup ⟨s.cur.cell, i⟩ fun g => { g with rndkey := v }) s
def execMtsys (o : SOp) (s : State) : Host.Outcome State Fault Refusal :=
  issue (.mtsys o) s fun s => do
    if (s.active o.gd).isEmpty then return s
    require (sysWritable o.sysreg.toNat s) fProt o.sysreg.toNat 5
    return sysWrite o.gd o.sysreg.toNat (s.gsrc o.a) s

/-- R447: SOFT_TRAP resumes at the next slot; in handler mode the task fails. -/
def execTrap (o : SOp) (s : State) : Host.Outcome State Fault Refusal :=
  issue (.trap o) s fun s =>
    if (s.active o.gd).isEmpty then .ok s
    else .error { code := fSoftTrap, imm := BitVec.ofNat 16 o.imm.toNat, next := true }

/-- The frontier when the active lanes wait at an `rte` and the others go on (R448). -/
def rteWait (gd : Guard) (s : State) : State :=
  let e := s.entry
  let m := maskOf (s.active gd)
  let pc := s.crun.pc
  let s1 := s.endRun (fun p => if m.getLsbD p then none else some (nextPC pc)) none .no
  let same := fun (x : Entry) => joins x pc true
  let es := s1.cg.entries
  let es' := if es.any same then es.map (fun x => if same x then { x with mask := x.mask ||| m } else x)
             else es ++ [⟨pc, m, e.prio, 0, true, .rte⟩]
  s1.modCg fun g => { g with entries := es' }
/-- R448. -/
def execRte (o : SOp) (s : State) : Host.Outcome State Fault Refusal :=
  issueWith (.rte o) s fun s => do
    require s.cg.handler fIllegalOp
    if (s.active o.gd).isEmpty then return (s, .seq)
    require (s.cc.saved != some s.cur.grp) fMatrixOwner
    s.targetsCheck false [s.cg.trappc]
    return ((rteWait o.gd s).handlerMeeting, .done)

/-- A privileged instruction outside a system context (R446). -/
def privileged (gd : Guard) (s : State) : Except Raise Unit :=
  require ((s.active gd).isEmpty || (s.ctx s.cc.ctx).system) fProt 0 5
/-- Refused inside a rival (R446); in a shadow copy it ends the copy (R370; log 51). -/
def notInRival (gd : Guard) (addr : Nat) (s : State) : Except Raise Unit :=
  if refuses s && !(s.active gd).isEmpty then refuse s addr else .ok ()
/-- A result of a cross-studio operation to a g register, with the acquire its arrival makes. -/
def replyG (d : Dst) (x : BitVec 64) (acq : Nat) (s : State) : State :=
  s.produce { writes := (match d with | .g i => [RegWrite.g i.toNat x] | _ => []), regs := dstRegs d 64, pred := none,
              fault := none, ckpt := none, acq := acq }

/-- The supervisor's reply (R449): its version, an open value of a published service, or 2^64 - 1. -/
def syscReply (n : Nat) (arg : BitVec 64) (fresh : Nat) : BitVec 64 :=
  if n = 0 then Config.sysc 0 0 0 else if Config.syscKnown n then Config.sysc n arg fresh else BitVec.allOnes 64
/-- R449. -/
def execSysc (o : SOp) (s : State) : Host.Outcome State Fault Refusal :=
  issue (.sysc o) s fun s => do
    notInRival o.gd 0 s
    if (s.active o.gd).isEmpty then return s
    let x := syscReply o.imm.toNat (s.gsrc o.a) s.fresh
    return replyG o.dest x 5 (releaseActs s.cur (s.whoOf s.cur.cell) 5 none s.tick)

/-- R450: the stores are checked before any record leaves. -/
def execErrq (o : SOp) (s : State) : Host.Outcome State Fault Refusal :=
  issue (.errq o) s fun s => do
    let a := (s.gsrc o.a).toNat
    notInRival o.gd a s
    if a % 32 ≠ 0 then fault fAlign a
    if (s.active o.gd).isEmpty then return s
    let c := s.cc.ctx
    let rs := ((s.ctx c).errq).take o.imm.toNat
    let s ← writeVa (s.whoOf s.cur.cell) 32 a rs.flatten s
    let s := s.modCtx c fun x => { x with errq := x.errq.drop rs.length }
    return replyG o.dest (BitVec.ofNat 64 rs.length) 0 s

/-- Whether every page of the 512-byte record is recoverable (R451). -/
def rcvRecord (w : Who) (a : Nat) (s : State) : Except Raise State :=
  (chunks 64 8 a 512).foldlM (fun s q => do
    match ← s.checkOne w { n := 1, rd := false, wr := true } q.1 with
    | (_, none) => fault fPageAbsent q.1
    | (s, some x) => if leafBit x.leaf 7 then return s else fault fProt q.1 3) s
/-- Heads of the context's queues 0-63, 8 bytes each, as their descriptors hold them (R375, R451). -/
def queueHeads (c : Ctx) (s : State) : List (BitVec 8) := (List.range 64).flatMap fun q => s.homeBytes (c.qtab.toNat + 32 * q + 24) 8
/-- R451: the checks, the `.rcv` release, the record, then the commit (CKPT_PREPARE_ACK, CKPT_SEAL), which fills gD. -/
def execCkpt (o : SOp) (s : State) : Host.Outcome State Fault Refusal :=
  issue (.ckpt o) s fun s => do
    let n := s.gsrc o.a
    let a := match o.a with | .g i _ => s.gval (i + 1) | _ => 0
    notInRival o.gd a.toNat s
    if (s.active o.gd).isEmpty then return s
    let c := s.cc.ctx
    let x := s.ctx c
    require (bits x.ckptstat.toNat 1 0 ≠ 1 && x.rpseq.toNat < n.toNat) fHandle n.toNat
    if a.toNat % 64 ≠ 0 then fault fAlign a.toNat
    let w := s.whoOf s.cur.cell
    let s ← rcvRecord w (a.toNat % 2 ^ 57) s
    if rcvFull s.cur s then holdHere else   -- behind its own release
    let s := releaseActs s.cur w 6 none s
    let s := s.modCtx c fun x => { x with ckptstat := BitVec.ofNat 64 (n.toNat * 4 + 1) }
    let s ← writeVa w 64 a.toNat (queueHeads (s.ctx c) s) s
    let s := releaseActs s.cur w 6 none s
    let s := { s with ckpts := Map.ins c ⟨n, a.setWidth 57, [], false⟩ s.ckpts }
    return s.produce { writes := [], regs := dstRegs o.dest 64, pred := none, fault := none, ckpt := some c }

/-- R452. -/
def execRpset (o : SOp) (s : State) : Host.Outcome State Fault Refusal :=
  issue (.rpset o) s fun s => do
    let a := s.gsrc o.a
    notInRival o.gd a.toNat s
    require (a.toNat % 64 = 0 && a.toNat < 2 ^ 57) fHandle a.toNat
    if (s.active o.gd).isEmpty then return s
    return s.modCtx s.cc.ctx fun x => { x with rpentry := a }

/-- R453. The alignment is checked with no active lane too (log 122). -/
def execTlbinv (o : SOp) (s : State) : Host.Outcome State Fault Refusal :=
  issue (.tlbinv o) s fun s => do
    privileged o.gd s
    let a := (s.gsrc o.a).toNat
    let len := match o.a with | .g i _ => (s.gval (i + 1)).toNat | _ => 0
    if a % 65536 ≠ 0 then fault fAlign a
    if len % 65536 ≠ 0 then fault fAlign len
    if (s.active o.gd).isEmpty then return s
    let (s, id) := startShoot s.cc.ctx (a % 2 ^ 57) len [] s
    return s.modCg fun g => { g with holds := g.holds ++ [.shoot id] }

/-- R453. With no free frame for the new table, QUOTA, sub-cause 1 (log 49). -/
def execPgsplit (o : SOp) (s : State) : Host.Outcome State Fault Refusal :=
  issue (.pgsplit o) s fun s => do
    privileged o.gd s
    if (s.active o.gd).isEmpty then return s
    let a := (s.gsrc o.a).toNat
    match s.walk (s.ctx s.cc.ctx).root.toNat (a % 2 ^ 57) with
    | none => fault fProt a 1
    | some (leaf, sh, at') => if sh = 16 then return s else splinter leaf sh at' s

/-- R454: a retired unit is answered with 2; the test of any other is due, and gD is written once it has been made (SELF_TEST; log 50). -/
def execStest (o : SOp) (s : State) : Host.Outcome State Fault Refusal :=
  issue (.stest o) s fun s => do
    privileged o.gd s
    let c := bits o.imm.toNat 2 0
    let k := bits o.imm.toNat 18 3
    require (k < unitCount c) fHandle k
    if (s.active o.gd).isEmpty then return s
    let u := unitOf c k
    if !s.inService u then return replyG o.dest 2 0 s
    return (s.callTest u).produce { writes := [], regs := dstRegs o.dest 64, pred := none, fault := none, ckpt := none, test := some u }

end Sys2Proof.Machine
end

