-- ==== Sys2Proof/Machine/Views.lean ====
section
/-! DEFINITION. Views: opening, commit and discard (R353-R358, R361, R362, R368). -/
namespace Sys2Proof.Machine
open Sys2Proof State

/-- Free view tags. -/
def freeViews (s : State) : List Nat := ((List.range 63).map (· + 1)).filter fun v => (s.view v).state == 0
/-- Crown arena of a context. -/
def crownOf (c : Nat) (s : State) : Nat := bits (s.ctx c).crown.toNat 11 0
/-- The crown arena a launch record names, or its context's (R378). -/
def recCrown (c : Nat) (r : LRec) (s : State) : Nat := if r.crown = 0 then crownOf c s else bits r.crown 11 0
/-- Open a view with its arena under `crown`; none where no tag is free or the arena cannot be created. -/
def openView (crown c use parent quota index : Nat) (s : State) : Option (State × Nat) :=
  match freeViews s with
  | [] => none
  | v :: _ =>
    match childArena crown { parent := 0, depth := 0, owner := c, quota := quota, resv := 0, view := true } s with
    | .error _ => none
    | .ok (s, a) =>
      some (s.modView v fun _ =>
        { state := 1, use := BitVec.ofNat 2 use, parent := parent, owner := c, arena := a, agen := (s.arena a).gen,
          index := BitVec.ofNat 3 index, depth := if use = 0 then (s.view parent).depth + 1 else 0, wended := false, score := 0,
          copied := 0, quota := quota, overlay := [], escs := [] }, v)
/-- Word 0 of a view table entry (R354). -/
def viewWord0 (w : View) : BitVec 64 :=
  BitVec.ofNat 64 (w.state.toNat * 2 ^ 62 + w.use.toNat * 2 ^ 60 + w.parent % 64 * 2 ^ 54 + w.owner % 64 * 2 ^ 48 + w.arena % 4096 * 2 ^ 36
    + w.agen.toNat * 2 ^ 32 + w.index.toNat * 2 ^ 29 + w.depth.toNat * 2 ^ 26 + (if w.wended then 2 ^ 25 else 0) + w.escs.length % 256 * 2 ^ 16)

/-- Clear the cow bit of a copy's source leaf when no open view holds a copy taken from it (R357, R362). -/
def uncow (c pg src : Nat) (s : State) : State :=
  if s.views.any (fun v => v.2.state != 0 && v.2.overlay.any fun o => o.1 == pg && o.2.src == src && v.2.owner == c) then s
  else if src ≠ 0 then s.modView src fun w => { w with overlay := Map.upd pg (fun o => { o with leaf := o.leaf &&& ~~~0x20 }) w.overlay }
  else match s.walk (s.ctx c).root.toNat (pg * 65536) with
    | some (leaf, 16, at') => if leafBit leaf 5 then s.setLeafAt at' (leaf &&& ~~~0x20) else s
    | _ => s
/-- The view's arena is dropped, and some frames return with its sweep; where it was dropped before, with what is left of that sweep
(R334, R372). -/
def dropWith (w : View) (fs : List Nat) (s : State) : State :=
  let e := s.arena w.arena
  if e.gen = w.agen && e.state ≠ 3 && e.state ≠ 0 then (dropTree w.arena fs s).1
  else if s.sweeps.any fun x => x.arena == w.arena && x.gen == w.agen.toNat then
    { s with sweeps := s.sweeps.map fun x => if x.arena == w.arena && x.gen == w.agen.toNat then { x with frames := x.frames ++ fs } else x }
  else fs.foldl (fun s f => s.freeFrame f) s
/-- Free a tag: the arena dropped with `frames`, and the page of its escape queue, to return, the entry cleared, the sources' cow bits
cleared. -/
def closeView (v : Nat) (frames : List Nat) (s : State) : State :=
  let w := s.view v
  let srcs := w.overlay.map fun o => (o.1, o.2.src)
  let s := s.modView v fun _ => { (default : View) with state := 0 }
  srcs.foldl (fun s x => uncow w.owner x.1 x.2 s) (dropWith w (frames ++ w.queue.toList) s)
/-- Discard of a view with every open view beneath it (R362). -/
def discardView : Nat → Nat → State → State
  | 0, _, s => s
  | n + 1, v, s =>
    let kids := (s.views.filter fun w => w.1 != v && w.1 != 0 && w.2.state != 0 && w.2.parent == v).map Prod.fst
    let s := kids.foldl (fun s k => discardView n k s) s
    closeView v ((s.view v).overlay.map fun o => leafFrame o.2.leaf) s

/-- Write back and invalidate every line of the view's frames, in every studio, its read-only path included, and in L2 (R361 step 1). -/
def flushFrames (fs : List Nat) (s : State) : State :=
  let s := s.studios.foldl (fun s st =>
    let s := s.mergeReds st.1 fun b => fs.contains (b.line / 512)
    let s := ((st.2.l1.map Prod.fst).filter fun ln => fs.contains (ln / 512)).foldl (fun s ln => (s.wbL1 st.1 ln).dropL1 st.1 ln) s
    s.modStudio st.1 fun x => { x with ro := x.ro.filter fun l => !fs.contains (l.1 / 512) }) s
  let ls := (s.l2.map Prod.fst).filter fun ln => fs.contains (ln / 512)
  ls.foldl (fun s ln => let s := s.wbL2 ln; if ((Map.find ln s.l2).getD default).pin then s else { s with l2 := Map.del ln s.l2 }) s
/-- Whether the arena a copy was taken from has been dropped since (R361). -/
def origGone (o : Overlay) (s : State) : Bool :=
  o.arena ≠ 0 && ((s.arena o.arena).gen != o.gen || (s.arena o.arena).state == 3 || (s.arena o.arena).state == 0)
/-- A large leaf that maps a page is splintered down to the page (R159), as far as the pool has frames for the tables. -/
def splinterTo (c pg : Nat) : Nat → State → State
  | 0, s => s
  | n + 1, s =>
    match s.walk (s.ctx c).root.toNat (pg * 65536) with
    | some (old, sh, at') => if sh = 16 then s else (match splinter old sh at' s with | .ok s => splinterTo c pg n s | .error _ => s)
    | none => s
/-- The lines of frame `f` that frame `g` will replace with other bytes have their undo records first, as at a write (R167, R301). -/
def undoPage (c f g : Nat) (s : State) : State :=
  (List.range 512).foldl (fun s i =>
    if s.memLine (512 * f + i) == s.homeLine (512 * g + i) then s else s.recordUndo c (512 * f + i)) s
/-- The undo records of frame `f`'s page, which frame `to'` holds from now on: for a recoverable page those of its lines, the ones that its
replacement by frame `g` makes among them. -/
def replaceUndo (c f g to' : Nat) (rcv : Bool) (s : State) : State :=
  let s := if rcv then undoPage c f g s else s
  let us := s.undoOf f
  (((s.dropUndo f).dropUndo g).dropUndo to').carryUndo to' us
/-- Put a leaf in place of the base's mapping of a page; the replaced frame, if any. A large leaf is splintered first; where the pool has
no frame for a table, the page keeps its frame, which takes the copy's bytes (DESIGN CHOICE, log 107). A recoverable page's undo records
stay with it (R301). -/
def replaceBase (c pg : Nat) (leaf : BitVec 64) (s : State) : State × Option Nat :=
  let s := splinterTo c pg 2 s
  match s.walk (s.ctx c).root.toNat (pg * 65536) with
  | some (old, 16, at') =>
    ((replaceUndo c (leafFrame old) (leafFrame leaf) (leafFrame leaf) (leafBit leaf 7) s).setLeafAt at' leaf, some (leafFrame old))
  | some (old, sh, _) =>
    let f := physOf ⟨old, sh, 0, 0, 0⟩ (pg * 65536) / 65536
    let s := replaceUndo c f (leafFrame leaf) f (leafBit leaf 7) (s.settleFrame (leafFrame leaf))
    let us := s.undoOf f
    (((s.freeFrame f).giveFrames f 1 |>.carryUndo f us).copyLines (leafFrame leaf * 65536) f, none)
  | none => (s, none)
/-- Install one copy of view `v` in its parent `u`; the answer lists shoot-downs begun and frames left to the view's sweep. -/
def commitPage (c u pg : Nat) (o : Overlay) (x : State × List Nat × List Nat) : State × List Nat × List Nat :=
  let (s, ids, left) := x
  let low := o.leaf.toNat % 2 ^ 52
  if origGone o s then (s, ids, leafFrame o.leaf :: left)
  else if u = 0 then
    match replaceBase c pg (BitVec.ofNat 64 (o.arena * 2 ^ 52 + low) &&& ~~~0x20) s with
    | (s, some f) => let (s, id) := startShoot c (pg * 65536) 65536 [f] s
                     (s, ids ++ [id], left)
    | (s, none) => (s, ids, leafFrame o.leaf :: left)
  else
    let w := s.view u
    let leaf := BitVec.ofNat 64 (w.arena * 2 ^ 52 + low) &&& ~~~0x20
    let s := s.addCharge w.arena 1
    match Map.find pg w.overlay with
    | some old =>
      let s := s.modView u fun w => { w with overlay := Map.ins pg { old with leaf := leaf } w.overlay }
      let (s, id) := startShoot c (pg * 65536) 65536 [leafFrame old.leaf] s
      (s, ids ++ [id], left)
    | none => (s.modView u fun w => { w with overlay := Map.ins pg { o with leaf := leaf } w.overlay, copied := w.copied + 1 }, ids, left)
/-- A rival parent takes the entries of a rival that commits into it, in a queue of its own (R360). The commit does not fail: with no
page to be had for the queue it stands uncharged (log 89). -/
def appendEscapes (u : Nat) (es : List Esc) (s : State) : State :=
  if es.isEmpty then s else
  let s := match queuePage s u 0 0 with | .ok s => s | .error _ => s
  s.modView u fun p => { p with escs := p.escs ++ es }
/-- Commit of an ended view into its parent (R361), with what Brush commands have landed in its copies: the state, the shoot-downs to wait for, and the escape entries that are
still to be performed (the parent is not a rival). -/
def commitView (v : Nat) (s : State) : State × List Nat × List Esc :=
  let w := s.view v
  let u := w.parent
  let fs := w.overlay.map fun o => leafFrame o.2.leaf
  let mine := fun (l : Landing) => fs.any fun f => landsIn f l
  let s := (s.landed.filter mine).foldl landNow { s with landed := s.landed.filter fun l => !mine l }
  let s := flushFrames fs s
  let (s, ids, left) := w.overlay.foldl (fun x o => commitPage w.owner u o.1 o.2 x) (s, [], [])
  let rival := s.isRival u
  let s := if rival then appendEscapes u w.escs s else s
  (closeView v left s, ids, if rival then [] else w.escs)

end Sys2Proof.Machine
end

