-- ==== Sys2Proof/Machine/Tasks.lean ====
section
/-! DEFINITION. Task queues, launch records, task states, and the instructions over them (R374-R394). -/
namespace Sys2Proof.Machine
open Sys2Proof State

/-! ### Queue descriptors (R375) -/

structure QDesc where
  base : Nat
  en : Bool
  dev : Bool
  n : Nat
  tail : Nat
  head : Nat
  ok : Bool
deriving DecidableEq, Repr
def qdescAt (c q : Nat) (s : State) : Nat := (s.ctx c).qtab.toNat + 32 * q
/-- The launch controller's part of a queue. -/
def queue (c q : Nat) (s : State) : Queue := Map.getD (s.ctx c).queues q default
def modQueue (c q : Nat) (f : Queue → Queue) (s : State) : State :=
  s.modCtx c fun x => { x with queues := Map.ins q (f (Map.getD x.queues q default)) x.queues }
/-- A descriptor as it stands in memory; a device queue's tail is the controller's own. -/
def qdesc (c q : Nat) (s : State) : QDesc :=
  let b := s.homeBytes (qdescAt c q s) 32
  let w0 := field b 0 8
  let w1 := field b 8 4
  let dev := bits w1 5 5 == 1
  { base := w0, en := bits w1 6 6 == 1, dev := dev, n := bits w1 4 0,
    tail := if dev then (queue c q s).tail.toNat else field b 16 8, head := field b 24 8,
    ok := w0 < 2 ^ 57 && w1 < 2 ^ 7 && zeroAt b 12 4 && 4 ≤ bits w1 4 0 && bits w1 4 0 ≤ 16 }
def QDesc.full (d : QDesc) : Bool := (d.tail + 2 ^ 64 - d.head) % 2 ^ 64 == 2 ^ d.n
/-- A word of the descriptor, written by the controller. -/
def setQword (c q off : Nat) (v : Nat) (s : State) : State :=
  homePut (Tag.own c) (qdescAt c q s + off) (leBytes 8 v) s
/-- Address of entry `i`. -/
def entryVa (d : QDesc) (i : Nat) : Nat := d.base + 64 * (i % 2 ^ d.n)
/-- The controller pair of the context journals a change before it acts on it, in both copies of its journal (R388). Of each subject the
latest change of a kind is kept. -/
def journalCtl (c kind subject value : Nat) (s : State) : State :=
  let r : CtlRec := ⟨s.fresh, kind, subject, value⟩
  let put := fun (i : Nat) (m : Map (List CtlRec)) =>
    Map.ins i ((Map.getD m i []).filter (fun x => !(x.kind == kind && x.subject == subject)) ++ [r]) m
  { s.tick with ctlLog := put (2 * (c % 2) + 1) (put (2 * (c % 2)) s.ctlLog) }
/-- The head of a queue advances. -/
def setHead (c q v : Nat) (s : State) : State := setQword c q 24 v (journalCtl c 1 (64 * c + q) v s)
/-- The host has written bytes in memory: where they take in the tail of a device queue, that is reported to the supervisor (R375, R395). -/
def noteTails (pa n : Nat) (s : State) : State :=
  (s.ctxs.map Prod.fst).foldl (fun s c => (List.range 64).foldl (fun s q =>
    let t := qdescAt c q s + 16
    if t < pa + n && pa < t + 8 && (qdesc c q s).dev then s.notify (.tail c q) else s) s) s

/-! ### Launch records (R378, R379) -/

def rangeOk (r : List (BitVec 8)) : Bool := field r 0 8 < 2 ^ 57 && field r 8 8 < 2 ^ 43 && bits (field r 8 8) 42 40 ≤ 4
def rangeOf (r : List (BitVec 8)) : Nat × Nat × Nat := (field r 0 8, bits (field r 8 8) 39 0, bits (field r 8 8) 42 40)
def shadowOk (n : Nat) : Bool := n == 0 || n == 31 || (3 ≤ n && n ≤ 16)
/-- Numbers of dependences, preloads and ranges of a header. -/
def recCounts (h : List (BitVec 8)) : Nat × Nat × Nat := let w := field h 16 8; (bits w 63 60, bits w 59 55, bits w 54 49)
/-- The header's fields are in range. -/
def headerOk (h : List (BitVec 8)) : Bool :=
  let w := field h 16 8
  let (nd, np, nr) := recCounts h
  nd ≤ 8 && np ≤ 16 && nr ≤ 32 && shadowOk (bits w 46 42) && bits w 38 34 ≤ 16 && bits w 33 21 ≤ 6144 && bits w 20 15 ≤ 32
  && 1 ≤ bits w 14 9 && bits w 14 9 ≤ 32 && field h 24 8 < 2 ^ 49 && field h 32 8 < 2 ^ 57 && field h 32 8 % 16 == 0 && zeroAt h 40 24
  && bits w 20 15 * 64 * (bits w 8 0 + 1) ≤ 196608 && wellFormedPc (BitVec.ofNat 64 (field h 0 8))
/-- A record's fields: the header `h` and the rest `b`. -/
def lrecOf (h b : List (BitVec 8)) : LRec :=
  let g := field h 8 8
  let w := field h 16 8
  let x := field h 24 8
  let (nd, np, nr) := recCounts h
  let at' := fun k => (b.drop (16 * k)).take 16
  { entry := BitVec.ofNat 64 (field h 0 8), x := bits g 19 0 + 1, y := bits g 39 20 + 1, z := bits g 59 40 + 1, s := bits g 63 60 + 1,
    cores := bits w 48 48 == 1, snap := bits w 47 47 == 1, shadow := bits w 46 42, prio := bits w 41 39, tiles := bits w 38 34,
    scratch := 64 * bits w 33 21, lstore := 64 * bits w 20 15, budget := bits w 14 9, shape := bits w 8 0 + 1, pal := bits x 48 48 == 1,
    squota := bits x 47 16, crown := bits x 15 0, done := BitVec.ofNat 57 (field h 32 8),
    deps := (List.range nd).map fun i => BitVec.ofNat 64 (field b (16 * (nr + np) + 8 * i) 8),
    pre := (List.range np).map fun i => (field (at' (nr + i)) 0 8, BitVec.ofNat 64 (field (at' (nr + i)) 8 8)),
    ranges := (List.range nr).map fun i => rangeOf (at' i) }
/-- Ranges and preloads are well formed. -/
def bodyOk (h b : List (BitVec 8)) : Bool :=
  let (_, np, nr) := recCounts h
  (List.range nr).all (fun i => rangeOk ((b.drop (16 * i)).take 16))
  && (List.range np).all (fun i => field b (16 * (nr + i)) 8 ≤ 95)
/-- The entry line as fetch reads it for a context: none where it cannot be read; a migrating page holds (R57, R59). -/
def agentLine (c : Nat) (pc : BitVec 64) (s : State) : Except Raise (State × Option Nat) :=
  let va := pcLine pc % 2 ^ 57
  match s.walk (s.ctx c).root.toNat va with
  | none => .ok (s, none)
  | some (leaf, sh, at') =>
    let x : Xlat := ⟨leaf, sh, 0, 0, at'⟩
    if leafKind leaf = 3 || !leafBit leaf 4 || agentDead (.ctl c) va leaf s then .ok (s, none)
    else if leafRes leaf = 1 then holdHere
    else if leafRes leaf = 2 || !s.targetOk (physOf x va) then .ok (s, none)
    else match s.chargeTouch c va leaf with
      | none => .ok (s, none)
      | some s =>
        let (s, b, bad) := homeRead (physOf x va) 64 s
        let ln := leNat b
        .ok (s, if bad || !slotOk ln (pcSlot pc) then none else some ln)
/-- The entry line marks its slot a target and the budget reaches it (R60, R63, R379). -/
def entryOk (r : LRec) (ln : Nat) : Bool := lineTarget ln (pcSlot r.entry) && lineBudget ln ≤ r.budget
/-- Read and check a record at a context's address: none where it is malformed. Only a migrating page is an error here. -/
def readLaunch (c a : Nat) (s : State) : Except Raise (State × Option LRec) :=
  let get := fun (va n : Nat) (s : State) => (match agentRead (.ctl c) 8 va n s with
    | .ok (s, b) => .ok (s, some b)
    | .error y => if y.hold then .error y else .ok (s, none) : Except Raise (State × Option (List (BitVec 8))))
  do
  if a % 64 ≠ 0 then return (s, none)
  match ← get a 64 s with
  | (s, none) => return (s, none)
  | (s, some h) =>
    if !headerOk h then return (s, none)
    let (nd, np, nr) := recCounts h
    match ← get (a + 64) (16 * (nr + np) + 8 * nd) s with
    | (s, none) => return (s, none)
    | (s, some b) =>
      let r := lrecOf h b
      let crownOk := r.crown = 0 || (handleOf c (BitVec.ofNat 64 r.crown) s).isOk
      if !bodyOk h b || !crownOk || (r.snap && !s.featOn 0) then return (s, none)
      match ← agentLine c r.entry s with
      | (s, none) => return (s, none)
      | (s, some ln) => return (s, if entryOk r ln then some r else none)

/-- The completion word that a malformed record's header names, where the header can be read and the field is in range (log 110). -/
def recDone (c a : Nat) (s : State) : BitVec 57 :=
  match (if a % 64 = 0 then agentRead (.ctl c) 8 a 64 s else holdHere) with
  | .ok (_, h) => if field h 32 8 < 2 ^ 57 && field h 32 8 % 16 == 0 then BitVec.ofNat 57 (field h 32 8) else 0
  | .error _ => 0

/-! ### Task states (R382), the end of a task (R386, R387) -/

/-- The entry index of a task that recovery submits, which no ring entry holds (R441). -/
def noEntry : BitVec 64 := BitVec.allOnes 64
/-- Change a task's state and write it to its queue entry, at the task's end with the fault field; nothing else of the entry's word is the
controller's to write (R376). -/
def setTaskState (t : BitVec 64) (st : Nat) (s : State) : State :=
  match s.task t with
  | none => s
  | some x =>
    let s := (journalCtl x.ctx 0 t.toNat st s).modTask t fun y => { y with state := st }
    if x.entryIdx = noEntry then s else
    let va := entryVa (qdesc x.ctx x.queue s) x.entryIdx.toNat + 16
    let f := if st = 8 then x.fault else 0
    ctlWrite x.ctx va (BitVec.ofNat 8 st :: (if 7 ≤ st then [f] else [])) t s
/-- The completion word's change, by the controller (R386 step 3). -/
def completionWord (x : Task) (s : State) : State :=
  if x.lrec.done = 0 then s else putHeld s ⟨x.ctx, none, x.lrec.done.toNat, .done, x.ticket⟩
/-- Every write of the context's cells reaches its home at `.sys` (R386 step 2), what its Brush commands have landed among them. -/
def releaseAll (c : Nat) (s : State) : State :=
  let s := s.settleLanded
  let s := (s.studios.map Prod.fst).foldl (fun s k =>
    (s.mergeReds k fun b => redHas b fun a => a.ctx == c).releaseL1 k (some (((s.studio k).l1.filter fun l => l.2.ctx == c).map Prod.fst))) s
  s.releaseSys none
/-- Drop a task's per-thread arena (R166, R386). -/
def dropPt (x : Task) (s : State) : State :=
  let e := s.arena x.ptArena
  if x.ptArena ≠ 0 && e.pt && e.task == x.ticket && (e.state = 1 || e.state = 2) then (dropTree x.ptArena [] s).1 else s
/-- Virtual pages of a range. -/
def rangePages (r : Nat × Nat × Nat) : List Nat :=
  if r.2.1 = 0 then [] else
  (List.range ((r.1 % 65536 + r.2.1 + 65535) / 65536)).map fun i => (r.1 / 65536 * 65536 + 65536 * i) % 2 ^ 57
/-- Clear the pin bit of leaves of a task's pin ranges that no other live task pins (R380): one that readies its ranges, or has. A task that
never came to ready its own has pinned none. -/
def unpinRanges (x : Task) (s : State) : State :=
  if x.state < 4 then s else
  let live := s.tasks.filter fun y => y.ctx == x.ctx && y.ticket != x.ticket && (y.state = 4 || y.state = 5 || y.state = 6)
  let pinned := fun (va : Nat) => live.any fun y => y.lrec.ranges.any fun r => r.2.2 == 4 && (rangePages r).contains va
  (x.lrec.ranges.filter fun r => r.2.2 == 4).foldl (fun s r =>
    (rangePages r).foldl (fun s va =>
      match s.walk (s.ctx x.ctx).root.toNat va with
      | some (leaf, _, at') => if pinned va || !leafBit leaf 6 then s else s.setLeafAt at' (leaf &&& ~~~0x40)
      | none => s) s) s
/-- Task-private regions become invalid (R338). -/
def dropTaskRegions (x : Task) (s : State) : State :=
  s.modCtx x.ctx fun c => { c with regions := c.regions.filter fun r => !(r.2.mode == 2 && r.2.task == x.tag) }
/-- The change of a task's completion word waits for its page. -/
def wordHeld (t : BitVec 64) (s : State) : Bool := s.held.any fun h => h.ticket == t && h.what == .done
/-- Steps 2 and 3 of a task's end (R386): what it held returns, every write is released, the completion word is changed. -/
def closeTask (x : Task) (s : State) : State :=
  completionWord x (releaseAll x.ctx (unpinRanges x (dropTaskRegions x (dropPt x s))))
/-- End a task, done (7) or failed (8), and cancel what depends on a failed one: the tasks still waiting for it, in turn. While the change of
its completion word waits for a page (R158) the steps after it wait too; `again` tells that it has been made by now. -/
def endTask : Nat → (again : Bool) → BitVec 64 → Nat → State → State
  | 0, _, _, _, s => s
  | n + 1, again, t, st, s =>
    match s.task t with
    | none => s
    | some x =>
      if x.ending.isSome && !again then s else
      let s := if again then s else closeTask x s
      if wordHeld t s then s.modTask t fun y => { y with failing := true, ending := some st } else
      let s := (setTaskState t st s).modTask t fun y => { y with failing := false, ending := none, replay := none }
      if st = 7 then s else
      let deps := s.tasks.filter fun y => y.ctx == x.ctx && y.state == 3 && y.deps.contains t
      deps.foldl (fun s y => match s.task y.ticket with
        | some z => if z.state = 3 then
            let s := s.modTask y.ticket fun w => { w with fault := 0xFF }
            endTask n false y.ticket 8 (s.report y.ctx (errRecord 0xFF 5 0 0 0 0 0 y.ticket)) else s
        | none => s) s
/-- End a task that has no cell, with a code and the address its record gives (R379, R380, R387). -/
def failNow (t : BitVec 64) (code : BitVec 8) (addr : Nat) (s : State) : State :=
  match s.task t with
  | none => s
  | some x =>
    let s := s.modTask t fun y => { y with fault := code }
    endTask (s.tasks.length + 1) false t 8 (s.report x.ctx (errRecord code 5 0 0 addr 0 0 t))
/-- Held writes are tried anew, and the tasks whose completion word has been changed by that come to their end (R386). -/
def settleHeld (s : State) : State :=
  let s := tryHeld s
  s.tasks.foldl (fun s x => match x.ending with
    | some st => endTask (s.tasks.length + 1) true x.ticket st s
    | none => s) s
/-- A task that has come to wait: a dependence that names no task of the context fails it, a failed one cancels it (R387). -/
def settleDeps (t : BitVec 64) (s : State) : State :=
  match s.task t with
  | none => s
  | some x =>
    let of' := fun (u : BitVec 64) => s.tasks.find? fun y => y.ticket == u && y.ctx == x.ctx
    if x.deps.any fun u => (of' u).isNone then failNow t fHandle 0 s
    else if x.deps.any (fun u => match of' u with | some y => y.state == 8 | none => false) then failNow t 0xFF 0 s
    else s
/-- Every dependence has ended. -/
def depsDone (x : Task) (s : State) : Bool := x.deps.all fun u => s.tasks.any fun y => y.ticket == u && y.ctx == x.ctx && 7 ≤ y.state
def LRec.cells (r : LRec) : Nat := r.x * r.y * r.z * r.s
/-- Every earlier task of the queue has all its cells admitted (R382). -/
def earlierAdmitted (x : Task) (s : State) : Bool :=
  s.tasks.all fun y => !(y.ctx == x.ctx && y.queue == x.queue && y.ticket.toNat < x.ticket.toNat) || 7 ≤ y.state || (y.state == 6 && y.lrec.cells ≤ y.next)

/-- Ticket of a sequence number (R381). -/
def ticketOf (c q seq : Nat) : BitVec 64 := BitVec.ofNat 64 (seq * 2 ^ 12 + c * 64 + q)
/-- A free task tag, the number regions and per-thread memory know the task by. -/
def freshTag (s : State) : Nat := s.tasks.foldl (fun m x => max m (x.tag + 1)) 1
/-- The reserved fields of a queue entry are zero (R376, R4). -/
def entryFieldsOk (b : List (BitVec 8)) : Bool := bits (field b 0 8) 62 57 == 0 && bits (field b 16 8) 63 16 == 0 && zeroAt b 24 40
/-- Take entry `i` of a queue (R379, R382): its ticket, and the state after. Only a migrating page is an error here. -/
def takeEntry (c q i : Nat) (s : State) : Except Raise (State × BitVec 64) := do
  let d := qdesc c q s
  let (s, b) ← (match agentRead (.ctl c) 8 (entryVa d i) 64 s with
    | .ok r => .ok r
    | .error y => if y.hold then .error y else .ok (s, []) : Except Raise (State × List (BitVec 8)))
  let w0 := field b 0 8
  let a := w0 % 2 ^ 57
  let (s, r) ← if b.length = 64 && entryFieldsOk b then readLaunch c a s else pure (s, none)
  let t := ticketOf c q ((queue c q s).seq + 1)
  let s := modQueue c q (fun x => { x with seq := x.seq + 1 }) s
  let x : Task := { (default : Task) with ticket := t, ctx := c, queue := q, entryIdx := BitVec.ofNat 64 i, state := 1,
                                           recAddr := BitVec.ofNat 57 a, lrec := r.getD { (default : LRec) with done := if b.length = 64 then recDone c a s else 0 },
                                           deps := (r.getD default).deps, tag := freshTag s }
  let s := { s with tasks := s.tasks ++ [x] }
  let s := setTaskState t 1 (ctlWrite c (entryVa d i + 8) (leBytes 8 t.toNat) t s)
  if r.isNone then return (failNow t fHandle 0 s, t)
  if w0 / 2 ^ 63 = 1 then return (setTaskState t 2 s, t)
  return (settleDeps t (setTaskState t 3 s), t)
/-- Take entries up to the tail; head advances past each. A migrating page leaves the rest to the next scan. -/
def takeAll (c q : Nat) : Nat → State → State
  | 0, s => s
  | n + 1, s =>
    let d := qdesc c q s
    if d.head = d.tail then s else
    match takeEntry c q d.head s with
    | .ok (s, _) => takeAll c q n (setHead c q ((d.head + 1) % 2 ^ 64) s)
    | .error _ => s.kick (64 * c + q)
/-- Entries of a queue not yet taken. -/
def QDesc.left (d : QDesc) : Nat := min 65536 ((d.tail + 2 ^ 64 - d.head) % 2 ^ 64)

/-! ### Instructions (R391-R394) -/

/-- Outcome of a device queue's submission: enabled and a device queue, or HANDLE (R392); a malformed descriptor disables it (R375). -/
def deviceQueue (c q : Nat) (s : State) : Except Raise QDesc :=
  let d := qdesc c q s
  if d.ok && d.en && d.dev then .ok d
  else .error { code := fHandle, clr := if d.ok then .no else .badQueue c q }
/-- Write the entry, count it, kick the queue and let the controller take it, after those it has still to take: the ticket (R376, R377,
R392). A ring page that is migrating holds the instruction (R158). -/
def submit (c q a : Nat) (hold : Bool) (d : QDesc) (s : State) : Except Raise (State × BitVec 64) := do
  let w := (if hold then 2 ^ 63 else 0) + a % 2 ^ 57
  let s := takeAll c q d.left s
  if (qdesc c q s).head ≠ d.tail then holdHere
  let s ← (match agentWrite (.ctl c) 64 (entryVa d d.tail) (leBytes 8 w ++ leBytes 56 0) s with
    | .ok s => .ok s
    | .error y => if y.hold then .error y else .ok (s.supReport (errRecord y.code 5 0 0 0 0 0 0)) : Except Raise State)
  let nt := BitVec.ofNat 64 (d.tail + 1)
  let s := setQword c q 16 nt.toNat (modQueue c q (fun x => { x with tail := nt }) s)
  let (s, t) ← takeEntry c q d.tail s
  return (setHead c q nt.toNat s, t)
/-- Length of a list of calls made by a group. -/
def callsOf {α : Type} (l : List (Nat × α)) (g : Nat) : List α := (l.filter fun x => x.1 == g).map Prod.snd
/-- The original of a shadow copy. -/
def originalOf (s : State) : Cell := match s.cc.role with | .copy o => s.cell o | _ => default
/-- The answer of the original's call that matches the copy's next; the copy waits until it has been made (R370). -/
def matching {α : Type} (mine theirs : List (Nat × α)) (s : State) : Except Raise α :=
  match (callsOf theirs s.cur.grp)[(callsOf mine s.cur.grp).length]? with
  | some x => .ok x
  | none => holdHere
/-- R392. In a rival, deferred with gD := 0; in a shadow copy the original's ticket. -/
def launchEffect (hold : Bool) (o : XOp) (s : State) : Except Raise State := do
  if (s.active o.gd).isEmpty then return s
  let a := (s.gval o.record).toNat
  let q := bits o.imm.toNat 5 0
  let w := s.whoOf s.cur.cell
  let done := fun (t : BitVec 64) (s : State) =>
    let s := signWrite s.cur a (leBytes 8 ((if hold then 2 ^ 63 else 0) + q)) s   -- the entry submitted (R370; log 88)
    replyG o.dest t 0 (s.modCc fun c => { c with launches := c.launches ++ [(s.cur.grp, t)] })
  if inCopy s s.cur.cell then
    let t ← matching s.cc.launches (originalOf s).launches s
    return done t s
  let check := fun (s : State) => do
    let (s, _) ← checkLanes w { n := 64, rd := true, wr := false } [(s.uniPos o.gd, a % 2 ^ 57, [(a % 2 ^ 57, 64)])] s
    return s
  if inRival s s.cur.cell then
    let s ← check s
    let s ← addEscape s w.view { op := 0xC0, sub := if hold then 1 else 0, mode := 0, lane := 255, addr := BitVec.ofNat 64 a, data := [BitVec.ofNat 64 q] }
    return replyG o.dest 0 0 s
  let d ← deviceQueue w.ctx q s
  if d.full then return done 0 (releaseActs s.cur w 4 none s)
  let s ← check s
  let s := releaseActs s.cur w 4 none s
  let (s, t) ← submit w.ctx q a hold d s
  return done t s
/-- R392. -/
def execTlaunch (o : XOp) (s : State) : Host.Outcome State Fault Refusal := issue (.tlaunch o) s (launchEffect (o.sub == 1) o)

/-- The task gT names, of the acting context and held (R393). -/
def heldTask (o : XOp) (s : State) : Except Raise Task :=
  match s.task (s.gval o.record) with
  | some x => if x.ctx = s.cc.ctx ∧ x.state = 2 then .ok x else fault fHandle (s.gval o.record).toNat
  | none => fault fHandle (s.gval o.record).toNat
/-- R393. -/
def execTdep (o : XOp) (s : State) : Host.Outcome State Fault Refusal :=
  issue (.tdep o) s fun s => do
    if (s.active o.gd).isEmpty then return s
    if refuses s then refuse s 0
    let x ← heldTask o s
    let u := s.gsrc o.coord
    require (x.deps.length < 8 && u ≠ x.ticket) fHandle x.ticket.toNat
    return s.modTask x.ticket fun y => { y with deps := y.deps ++ [u] }
/-- R393. -/
def execTdepGo (o : XOp) (s : State) : Host.Outcome State Fault Refusal :=
  issue (.tdepGo o) s fun s => do
    if (s.active o.gd).isEmpty then return s
    if refuses s then refuse s 0
    let x ← heldTask o s
    return settleDeps x.ticket (setTaskState x.ticket 3 s)

/-- Share `k` of `n` over `i` iterations with tiles of `l` (R394): the two words. -/
def shareOf (k n i l : Nat) : BitVec 64 × BitVec 64 :=
  if n ≤ k then (BitVec.ofNat 64 (2 ^ 61 + i), BitVec.ofNat 64 i) else
  let b := k * i / n
  let e := (k + 1) * i / n
  (BitVec.ofNat 64 ((if b % l ≠ 0 then 2 ^ 63 else 0) + (if e % l ≠ 0 ∧ e < i then 2 ^ 62 else 0) + b), BitVec.ofNat 64 e)
/-- The pair gD, g(D+1) of a share, as it arrives. -/
def replyShare (d : Dst) (x : BitVec 64 × BitVec 64) (s : State) : State :=
  let s := s.modCc fun c => { c with wnext := c.wnext ++ [(s.cur.grp, x)] }
  match d with
  | .g i => s.produce { writes := [.g i.toNat x.1, .g (i.toNat + 1) x.2], regs := [.g i.toNat, .g (i.toNat + 1)], pred := none,
                        fault := none, ckpt := none }
  | _ => s
/-- R394. -/
def execWorknext (o : XOp) (s : State) : Host.Outcome State Fault Refusal :=
  issue (.worknext o) s fun s => do
    if (s.active o.gd).isEmpty then return s
    if inRival s s.cur.cell then fault fWorldEscape
    let i := (s.gval o.record).toNat
    let l := o.imm.toNat
    if inCopy s s.cur.cell then
      let x ← matching s.cc.wnext (originalOf s).wnext s
      return replyShare o.dest x s
    let some t := s.task s.cc.ticket | fault fHandle
    require (1 ≤ i && i ≤ 2 ^ 48) fHandle
    require (!t.shared || (i = t.iters && l = t.tileLen)) fHandle
    let s := (journalCtl t.ctx 2 t.ticket.toNat (t.share + 1) s).modTask t.ticket fun y => { y with shared := true, iters := i, tileLen := l, share := y.share + 1 }
    return replyShare o.dest (shareOf t.share t.lrec.cells i l) s

end Sys2Proof.Machine
end

