-- ==== Sys2Proof/Machine/EvCaches.lean ====
section
/-! DEFINITION. Events of caches, broadcasts and translations: merges (R176), evictions and poison (R161, R439), drops, sweeps
and seals (R333-R336), shoot-downs (R160), migrations (R178, R380), leaves the supervisor rewrites. -/
namespace Sys2Proof.Machine
open Sys2Proof State

/-! ### Reductions (R176) -/

/-- R176: a buffer merges into its home slice, with the line's others, in the order of their applications (log 84). -/
def execRedMerge (k i : Nat) (s : State) : Host.Outcome State Fault Refusal :=
  .next (match (s.studio k).reds[i]? with
    | some b => s.mergeReds k fun c => c.line == b.line
    | none => s)

/-! ### Evictions (R161, R163, R439) -/

/-- R161: the line leaves the cache, its dirty bytes written back; a stale line is not written, a pinned one stays. -/
def evict (u : CacheUnit) (ln : Nat) (bad : Bool) (s : State) : State :=
  match u with
  | .l1 k =>
    (match s.l1Live k ln with
     | some l => if bad && l.dirty ≠ 0 then (poisonLine 0 k ln l s).dropL1 k ln else (s.wbL1 k ln).dropL1 k ln
     | none => s.modStudio k fun st => { st with l1 := Map.del ln st.l1 })
  | .ro k => s.modStudio k fun st => { st with ro := Map.del ln st.ro }
  | .icache k => s.modStudio k fun st => { st with icache := Map.del ln st.icache }
  | .l2 =>
    (match Map.find ln s.l2, s.l2Live ln with
     | some l, some _ =>
       if l.pin then s
       else if bad && l.dirty ≠ 0 then poisonLine 1 (s.homeSlice (128 * ln)) ln l s
       else let s := s.wbL2 ln
            { s with l2 := Map.del ln s.l2 }
     | _, _ => { s with l2 := Map.del ln s.l2 })
  | .replica j => { s with replicas := Map.del (64 * ln + j % 64) s.replicas }
def execCacheEviction (u : CacheUnit) (ln : Nat) (bad : Bool) (s : State) : Host.Outcome State Fault Refusal := .next (evict u ln bad s)

/-! ### Drop broadcasts and sweeps (R333, R334) -/

/-- The first broadcast of an arena a unit has not applied, and the generation it brings. -/
def nextDrop (u a : Nat) (s : State) : Option (Sweep × BitVec 4) :=
  match s.sweeps.dropWhile fun w => !(w.arena == a && w.units.contains u) with
  | [] => none
  | w :: r => some (w, match r.find? fun x => x.arena == a with | some x => BitVec.ofNat 4 x.gen | none => (s.arena a).gen)
def taggedBy (a g : Nat) (l : Line) : Bool := l.arena.toNat == a && l.gen.toNat == g
def tlbOf (a g : Nat) (e : TlbEntry) : Bool := leafArena e.leaf == a && e.gen.toNat == g
/-- Without the applications made under generation `g` of arena `a`, which are discarded. -/
def dropReds (a g : Nat) (bs : List RedBuf) : List RedBuf :=
  (bs.map fun b => { b with apps := b.apps.filter fun x => !(x.arena.toNat == a && x.gen.toNat == g) }).filter fun b => !b.apps.isEmpty
/-- A studio's part of a sweep: lines, buffers and translations of the generation go, without write-back. -/
def sweepStudio (k a g : Nat) (s : State) : State :=
  let gone := ((s.studio k).l1.filter fun l => taggedBy a g l.2).map Prod.fst
  let s := s.modStudio k fun st =>
    { st with l1 := st.l1.filter (fun l => !taggedBy a g l.2), ro := st.ro.filter (fun l => !taggedBy a g l.2),
              reds := dropReds a g st.reds, tlb := st.tlb.filter fun e => !tlbOf a g e }
  gone.foldl (fun s ln => s.fireIn ln k) s
/-- A variable lies in generation `g` of arena `a`: in one of its pages, or in a copy that a view of its holds or has held, whose frame
returns with the sweep. -/
def varIn (a g : Nat) (e : SvEntry) (s : State) : Bool :=
  let f := e.var / 65536
  (s.sweeps.any fun w => w.arena == a && w.gen == g && w.frames.contains f)
  || (s.views.any fun v => v.2.state != 0 && v.2.arena == a && v.2.agen.toNat == g && v.2.overlay.any fun o => leafFrame o.2.leaf == f)
  || s.pages.any fun p => p.1 / 2 ^ 41 == e.ctx && p.2.arena == a && p.2.gen.toNat == g &&
    (match s.walk (s.ctx e.ctx).root.toNat (p.1 % 2 ^ 41 * 65536) with
     | some (leaf, sh, at') => physOf ⟨leaf, sh, 0, 0, at'⟩ (p.1 % 2 ^ 41 * 65536) / 65536 == f
     | none => false)
/-- A slice's part: its lines and replicas, with their pins, and the bindings of variables homed there. -/
def sweepSlice (j a g : Nat) (s : State) : State :=
  let home := fun ln => s.homeSlice (128 * ln) == j
  { s with l2 := s.l2.filter (fun l => !(home l.1 && taggedBy a g l.2)), replicas := s.replicas.filter (fun l => !(l.1 % 64 == j && taggedBy a g l.2)),
           svs := s.svs.map fun d => (d.1, d.2.filter fun e => !(s.homeSlice e.var == j && varIn a g e s)) }
def sweepDie (d a g : Nat) (s : State) : State :=
  { s with dieTlb := Map.upd d (fun l => l.filter fun e => !tlbOf a g e) s.dieTlb }
def sweepUnit (u a g : Nat) (s : State) : State :=
  if u < 192 then sweepStudio u a g s else if u < 256 then sweepSlice (u - 192) a g s
  else if u < 260 then sweepDie (u - 256) a g s else s
/-- R333 step 3 and R334: one unit applies the broadcast, sweeps the old generation and acknowledges. A unit that holds a later
generation already, from an acquire (R300), keeps it. -/
def applyDrop (u a : Nat) (s : State) : State :=
  match nextDrop u a s with
  | none => s
  | some (w, g) =>
    let x := Map.getD s.units u default
    let s := { s with units := Map.ins u { x with gen := if Map.getD x.gen a 0 = BitVec.ofNat 4 w.gen then Map.put 0 a g x.gen else x.gen, seals := Map.put false a false x.seals } s.units }
    let s := sweepUnit u a w.gen s
    { s with sweeps := s.sweeps.map fun x => if x.arena == a && x.gen == w.gen then { x with units := x.units.filter (· != u) } else x }
def execDropBroadcastApply (u a : Nat) (s : State) : Host.Outcome State Fault Refusal := .next (applyDrop u a s)

/-- Pages of a generation of an arena, with the frame each maps and where its leaf stands (0 where no leaf of the arena stands). -/
def arenaPages (a g : Nat) (s : State) : List (Nat × Nat × Nat) :=
  (s.pages.filter fun p => p.2.arena == a && p.2.gen.toNat == g && !p.2.dead).map fun p =>
    match s.walk (s.ctx (p.1 / 2 ^ 41)).root.toNat (p.1 % 2 ^ 41 * 65536) with
    | some (leaf, sh, at') =>
      if leafArena leaf = a then (p.1, physOf ⟨leaf, sh, 0, 0, at'⟩ (p.1 % 2 ^ 41 * 65536) / 65536, at') else (p.1, 0, 0)
    | none => (p.1, 0, 0)
/-- A line lies in the page that an entry maps. -/
def TlbEntry.covers (e : TlbEntry) (ln : Nat) : Bool :=
  let lo := leafFrame e.leaf * 65536 / 2 ^ e.shift * 2 ^ e.shift / 128
  lo ≤ ln && ln < lo + 2 ^ e.shift / 128
/-- A landing of studio `k` in a line that `p` picks. -/
def landsAt (k : Nat) (p : Nat → Bool) (l : Landing) : Bool := match l.place with | .memory j _ pa => j == k && p (pa / 128) | .scratch _ _ => false
/-- A studio's part of a shoot-down: it drops the entries that `p` picks. What it has written under them reaches home first, its Brush's
landings too, and so does what it has written under an entry that left its TLB before, for want of room (R160 step 4). -/
def shootStudio (k : Nat) (p : TlbEntry → Bool) (s : State) : State :=
  let tlb := (s.studio k).tlb
  let drains := fun ln => tlb.any (fun e => p e && e.covers ln) || !tlb.any fun e => !p e && e.covers ln
  let s := (s.landed.filter (landsAt k drains)).foldl landNow { s with landed := s.landed.filter fun l => !landsAt k drains l }
  let s := s.mergeReds k fun b => drains b.line
  let s := (((s.studio k).l1.map Prod.fst).filter drains).foldl (fun s ln => s.wbL1 k ln) s
  s.modStudio k fun st => { st with tlb := st.tlb.filter fun e => !p e }
/-- The sequence of R160 carried through for some pages of contexts: no unit holds a translation of them any more. -/
def shootPages (ps : List Nat) (s : State) : State :=
  let hit : TlbEntry → Bool := fun e => ps.any fun p => e.ctx == p / 2 ^ 41 && e.page == p % 2 ^ 41 * 65536 / 2 ^ e.shift
  let s := (s.studios.map Prod.fst).foldl (fun s k => shootStudio k hit s) s
  { s with dieTlb := s.dieTlb.map fun d => (d.1, d.2.filter fun e => !hit e) }
/-- One ancestor of a dropped root gives its charge `c` back: the arena's entry, while it lives in that generation or, dropped itself, has
not lived since; and, where it is a root being swept, what it will give back in turn (R330, R352). -/
def giveBack (c : Nat) (s : State) (x : Nat × BitVec 4) : State :=
  let e := s.arena x.1
  let last := (s.sweeps.reverse.find? fun w => w.arena == x.1).map (·.gen)
  let s := if (e.gen = x.2 ∧ (e.state = 1 ∨ e.state = 2)) ∨ (e.state = 3 ∧ last = some x.2.toNat)
           then s.modArena x.1 fun e => { e with charge := e.charge - c } else s
  { s with sweeps := s.sweeps.map fun w => if w.arena == x.1 && w.gen == x.2.toNat then { w with charge := w.charge - c } else w }
/-- The charge of the sweep's root leaves each ancestor that still holds it, in one change. What the swept arena held of other drops'
charges has gone with it: no later sweep gives it back there, nor, past a root, above it. -/
def returnCharge (w : Sweep) (s : State) : State :=
  let me := (w.arena, BitVec.ofNat 4 w.gen)
  let s := if w.root then w.up.foldl (giveBack w.charge) s else s
  { s with sweeps := s.sweeps.map fun x => { x with up := if w.root then x.up.takeWhile (· != me) else x.up.filter (· != me) } }
/-- Every unit has acknowledged: variables that were bound in the meantime removed (R340), leaves invalidated through a shoot-down, charge
set cleared, frames returned, the root's charge given back, the sweeping bit cleared (R334, R332). A page that carries another arena's
leaf by now is left alone. -/
def finishSweep (w : Sweep) (s : State) : State :=
  let s := { s with svs := s.svs.map fun d => (d.1, d.2.filter fun e => !varIn w.arena w.gen e s) }
  let ps := arenaPages w.arena w.gen s
  let s := ps.foldl (fun (s : State) (p : Nat × Nat × Nat) => if p.2.2 = 0 then s else s.setLeafAt p.2.2 0) s
  let s := shootPages (ps.map Prod.fst) s
  let s := { s with pages := ps.foldl (fun (m : Map Page) (p : Nat × Nat × Nat) => Map.upd p.1 (fun x => { x with dead := true, charged := false }) m) s.pages }
  let s := (distinct ((ps.filter fun p => p.2.2 ≠ 0).map fun p => p.2.1) ++ w.frames).foldl (fun (s : State) f => s.freeFrame f) s
  let s := returnCharge w s
  let s := s.modArena w.arena fun e => { e with sweeping := setBit e.sweeping w.gen false }
  let s := s.modArena w.arena fun e =>
    if e.sweeping = 0 ∧ e.state = 3 then { e with state := 0, owner := 0, parent := 0, depth := 0 } else e
  { s with sweeps := s.sweeps.filter fun x => !(x.arena == w.arena && x.gen == w.gen) }
/-- R334. -/
def execSweepComplete (a g : Nat) (s : State) : Host.Outcome State Fault Refusal :=
  .next (match s.sweeps.find? fun w => w.arena == a && w.gen == g with
    | some w => if w.units.isEmpty then finishSweep w s else s
    | none => s)

/-- A unit applies the broadcasts of an arena until it has acknowledged the sweep of generation `g`; no more than 16 of them can wait. -/
def applyUntil (a g : Nat) (s : State) (u : Nat) : State :=
  (List.range 16).foldl (fun s _ => if s.sweeps.any fun w => w.arena == a && w.gen == g && w.units.contains u then applyDrop u a s else s) s
/-- Every drop of a context's arenas is completed by every unit, whoever owns the number by now: for the end of a context. -/
def settleDrops (c : Nat) (s : State) : State :=
  (s.sweeps.filter fun (w : Sweep) => w.ctx == c).foldl (fun (s : State) (w : Sweep) =>
    let s := allUnits.foldl (applyUntil w.arena w.gen) s
    match s.sweeps.find? fun (x : Sweep) => x.arena == w.arena && x.gen == w.gen with
    | some x => finishSweep x s
    | none => s) s

/-! ### Seal broadcasts (R336) -/

/-- Dirty bytes of the arena's lines go home; a slice writes them to memory. -/
def sealUnit (u a g : Nat) (s : State) : State :=
  if u < 192 then
    let s := s.mergeReds u fun b => redHas b fun x => x.arena.toNat == a && x.gen.toNat == g
    (((s.studio u).l1.filter fun l => taggedBy a g l.2).map Prod.fst).foldl (fun s ln => s.wbL1 u ln) s
  else if u < 256 then
    ((s.l2.filter fun l => s.homeSlice (128 * l.1) == u - 192 && taggedBy a g l.2).map Prod.fst).foldl (fun s ln => s.wbL2 ln) s
  else s
/-- R336 steps 2 and 3: a slice acknowledges once every studio has, and a unit once it has applied the drops of the number's earlier
lives, whose broadcasts came first. An arena dropped since is only acknowledged. -/
def execSealBroadcastApply (u a : Nat) (s : State) : Host.Outcome State Fault Refusal :=
  .next (match s.sealbs.find? fun w => w.arena == a && w.units.contains u with
    | none => s
    | some w =>
      if 192 ≤ u ∧ w.units.any (· < 192) then s else
      if (s.arena a).gen.toNat = w.gen ∧ (nextDrop u a s).isSome then s else
      let s := if (s.arena a).gen.toNat ≠ w.gen then s else
        sealUnit u a w.gen { s with units := Map.ins u (let x := Map.getD s.units u default
                                                        { x with seals := Map.put false a true x.seals }) s.units }
      { s with sealbs := (s.sealbs.map fun x => if x.arena == a && x.gen == w.gen then { x with units := x.units.filter (· != u) } else x).filter
                           fun x => !x.units.isEmpty })

/-! ### Shoot-downs (R160) -/

/-- A leaf with another residency. -/
def withRes (leaf : BitVec 64) (r : Nat) : BitVec 64 := BitVec.ofNat 64 (leaf.toNat - leafRes leaf * 4096 + r * 4096)
def leafWord (at' : Nat) (s : State) : BitVec 64 := s.pte at' 0
/-- Where a leaf maps: contexts with virtual base and log2 size. -/
def leafMaps (at' : Nat) (s : State) : List (Nat × Nat × Nat) :=
  (s.ctxs.map Prod.fst).flatMap fun c => ((s.leavesOf c).filter fun l => l.at' == at').map fun l => (c, l.va, l.shift)
/-- A page of the maps `ms` whose leaf becomes `v` is no longer what it was listed as for another arena, or for a life of the arena that
has ended (R333, R335). -/
def unlistPages (ms : List (Nat × Nat × Nat)) (v : BitVec 64) (s : State) : State :=
  { s with pages := s.pages.filter fun p =>
      !(ms.any (fun m => m.1 == p.1 / 2 ^ 41 && m.2.1 / 65536 ≤ p.1 % 2 ^ 41 && p.1 % 2 ^ 41 < m.2.1 / 65536 + 2 ^ m.2.2 / 65536)
        && (p.2.dead || p.2.arena != leafArena v || p.2.gen != (s.arena (leafArena v)).gen)) }
/-- The supervisor's new value of a leaf stands, in every place that maps it before or after; writes held there are tried anew (R158). -/
def putLeaf (a : Nat) (v : BitVec 64) (s : State) : State :=
  let ms := leafMaps a s
  let s := s.setLeafAt a v
  settleHeld (unlistPages (distinct (ms ++ leafMaps a s)) v s)
/-- Every unit has acknowledged a shoot-down: the frames it holds return to the pool, and lanes go by the leaf as it stands (R159). -/
def endShoot (w : Shoot) (s : State) : State :=
  w.frames.foldl (fun s f => s.freeFrame f) { s with shoots := s.shoots.filter fun (x : Shoot) => x.id != w.id }
/-- One unit drops the overlapping entries, drains and acknowledges; the last one ends the shoot-down. -/
def ackShoot (u : Nat) (w : Shoot) (s : State) : State :=
  let s : State := if u < 192 then shootStudio u (inShoot w) s
    else { s with dieTlb := Map.upd (u - 256) (fun l => l.filter fun e => !inShoot w e) s.dieTlb }
  let s := { s with shoots := s.shoots.map fun (x : Shoot) => if x.id == w.id then { x with units := x.units.filter (· != u) } else x }
  if s.shoots.any (fun (x : Shoot) => x.id == w.id && x.units.isEmpty) then endShoot w s else s
/-- R160 steps 3 to 5. -/
def execTlbShootdownAck (u i : Nat) (s : State) : Host.Outcome State Fault Refusal :=
  .next (match s.shoots[i]? with
    | some w => if w.units.contains u then ackShoot u w s else s
    | none => s)
/-- Every unit that has not acknowledged a shoot-down does so: for steps that wait for it. -/
def finishShoot (id : Nat) (s : State) : State :=
  match s.shoots.find? fun w => w.id == id with
  | some w => w.units.foldl (fun s u => match s.shoots.find? fun x => x.id == id with | some x => ackShoot u x s | none => s) s
  | none => s

/-! ### Migrations and rewritten leaves (R158, R160, R178, R380) -/

/-- The leaf that concerns a part of a page: a large page is splintered first, and the part is one of its 512 pieces (R159). -/
def partLeaf (p : LeafPlace) (s : State) : Option (State × Nat) :=
  let at' := p.addr
  match p.part with
  | none => some (s, at')
  | some i =>
    let l := leafWord at' s
    let sz := bits l.toNat 11 10
    if !(leafBit l 0 && leafBit l 1) || sz = 0 || 512 ≤ i then none else
    match splinter l (sizeShift sz) at' s with
    | .ok s => some (s, bits (leafWord at' s).toNat 51 12 * 4096 + 8 * i)
    | .error _ => none
/-- Shoot-downs of every place that maps a leaf, or, where none does, of every translation: the entry may be a table's. For a part of a
page each carries the leaf's place with its value before the change (R159). -/
def shootLeaf (ms : List (Nat × Nat × Nat)) (x : Option (Nat × BitVec 64)) (s : State) : State :=
  let x := if ms.isEmpty then none else x
  let ms := if ms.isEmpty then s.ctxs.map fun c => (c.1, 0, 57) else ms
  ms.foldl (fun s m =>
    let s := (startShoot m.1 m.2.1 (2 ^ m.2.2) [] s).1
    { s with shoots := s.shoots.map fun y => if y.id + 1 = s.fresh then { y with change := x } else y }) s
/-- R178: the service of a request begins; an absent page becomes migrating, or a part of it that is asked for, for lanes once the
translations of the part have been dropped (R159). -/
def execMigrationBegin (p : LeafPlace) (s : State) : Host.Outcome State Fault Refusal :=
  let at' := p.addr
  let l := leafWord at' s
  .next (if !Map.getD s.module.requests at' false then s
    else if !(leafBit l 0 && leafBit l 1 && leafRes l = 2) then s.modModule fun m => { m with requests := Map.del at' m.requests }
    else match partLeaf p s with
    | some (s, a) =>
      let s := s.modModule fun m => { m with requests := Map.del at' m.requests }
      let old := leafWord a s
      let s := s.setLeafAt a (withRes old 1)
      if p.part.isSome then shootLeaf (leafMaps a s) (some (a, old)) s else s
    | none => s)
/-- The frames from `f` that a page moves to are the pool's, and aligned as its size asks. -/
def mayMove (f n : Nat) (s : State) : Bool :=
  let busy := s.busyFrame
  f % n == 0 && f + n ≤ s.poolFrames && !(List.range n).any fun j => busy (f + j)
/-- The leaf with another frame. -/
def withFrame (leaf : BitVec 64) (f : Nat) : BitVec 64 := BitVec.ofNat 64 (leaf.toNat - leafFrame leaf * 65536 + f * 65536)
/-- A shoot-down of the leaf's page is in progress: a unit may still hold an access under its old translation (R160). -/
def leafShot (at' : Nat) (s : State) : Bool :=
  (leafMaps at' s).any fun m => s.shoots.any fun w => m.1 == w.ctx && m.2.1 < w.base + w.len && w.base < m.2.1 + 2 ^ m.2.2
/-- R380: a migration ends: the page is resident, at its frame or at one of the pool it moves to, or absent (log 62). Its bytes leave
their frame only once no access under an old translation is left (R160, R303). Writes that agents held for it follow (R158). -/
def execMigrationEnd (at' : Nat) (fate : PageFate) (s : State) : Host.Outcome State Fault Refusal :=
  let l := leafWord at' s
  let n := 2 ^ sizeShift (bits l.toNat 11 10) / 65536
  .next (if !(leafBit l 0 && leafBit l 1 && leafRes l = 1) || leafShot at' s then s
    else match fate with
    | .absent => settleHeld (s.setLeafAt at' (withRes l 2))
    | .stays => settleHeld (s.setLeafAt at' (withRes l 0))
    | .moved f => if !mayMove f n s then s else
      settleHeld (((List.range n).foldl (fun s j => s.moveFrame (leafFrame l + j) (f + j)) s).setLeafAt at' (withRes (withFrame l f) 0)))
/-- R160 steps 1 and 2: the supervisor rewrites a leaf and has the translations of its pages dropped; an entry that maps no page as a
leaf may be a table's, and every translation goes (log 63). Lanes go by the old leaf of a part of a large page until that is done
(R159). -/
def execLeafRewrite (p : LeafPlace) (v : BitVec 64) (s : State) : Host.Outcome State Fault Refusal :=
  .next (match partLeaf p s with
    | none => s
    | some (s, a) =>
      let ms := leafMaps a s
      let old := leafWord a s
      let s := putLeaf a v s
      if p.part.isSome then shootLeaf ms (some (a, old)) s
      else shootLeaf (distinct (ms ++ leafMaps a s)) none s)

end Sys2Proof.Machine
end

