-- ==== Sys2Proof/Machine/EvTransfer.lean ====
section
/-! DEFINITION. Events of the underdrawing engine (R46, R397-R400), of ring messages (R419, R421) and of the torus (R422-R424). -/
namespace Sys2Proof.Machine
open Sys2Proof State

/-! ### Walks (R399, R400) -/

/-- Fields of a stream descriptor. -/
def walkNd (d : List (BitVec 8)) : Nat := bits (field d 8 4) 10 8 + 1
def walkTy (d : List (BitVec 8)) : Ty := tyOf (bits (field d 8 4) 3 0)
def walkCount (d : List (BitVec 8)) (k : Nat) : Nat := field d (16 + 4 * k) 4
def walkStep (d : List (BitVec 8)) (k : Nat) : Int := sext 64 (field d (48 + 8 * k) 8)
/-- Address of the element at position `p` of group `g`. -/
def walkAddr (w : Walk) (g p : Nat) : Nat :=
  let d := w.desc
  let i : Int := (List.range (walkNd d)).foldl (fun a k => a + (w.iter.getD k 0 : Int) * walkStep d k) 0
  (((field d 0 8 : Nat) + i + (p : Int) * sext 32 (field d 12 4) + (g : Int) * sext 64 (field d 112 8)) % (2 : Int) ^ 57).toNat
/-- The next iteration vector, loop 0 fastest; none after the last. -/
def nextIter (d : List (BitVec 8)) : List Nat → Nat → Option (List Nat)
  | [], _ => none
  | x :: r, k =>
    if x + 1 < walkCount d k then some ((x + 1) :: r)
    else (nextIter d r (k + 1)).map fun r => 0 :: r
/-- The value of one position; 0 where no lane exists (R26). -/
def walkValue (w : Who) (k : Walk) (shape g p : Nat) (s : State) : Except Raise (State × BitVec 32) :=
  if shape ≤ 32 * g + p then .ok (s, 0) else
  let t := walkTy k.desc
  let va := walkAddr k g p
  if t.width ≠ 4 ∧ va % (t.width / 8) ≠ 0 then fault fAlign va else
  do let (s, b) ← readVa w false 8 va ((t.width + 7) / 8) s
     return (s, BitVec.ofNat 32 (extend t (leNat b) 32))
/-- An entry of group `g`. -/
def walkEntry (w : Who) (k : Walk) (shape g : Nat) (s : State) : Except Raise (State × List (BitVec 32)) :=
  (List.range 32).foldlM (fun (x : State × List (BitVec 32)) p => do
    let (s, v) ← walkValue w k shape g p x.1
    return (s, x.2 ++ [v])) (s, [])
def modWalk (n i : Nat) (f : Walk → Walk) (s : State) : State := s.modCell n fun c => { c with walks := c.walks.modify i f }
/-- The walk goes on to the next group, the next vector, or its end. -/
def stepWalk (groups : Nat) (w : Walk) : Walk :=
  if w.grp + 1 < groups then { w with grp := w.grp + 1 }
  else match nextIter w.desc w.iter 0 with
    | some it => { w with grp := 0, iter := it }
    | none => { w with grp := 0, state := 1 }
/-- The walk stops: it writes its fault into its queue's record of every group, also over an earlier walk's (R400). -/
def stopWalk (n i q : Nat) (y : Raise) (s : State) : State :=
  let f : LateFault := ⟨y.code, y.sub, y.addr, 0, false, none⟩
  modWalk n i (fun w => { w with state := 2 }) (s.modCell n fun c =>
    { c with groups := c.groups.map fun g => (g.1, { g.2 with qfault := Map.ins q f g.2.qfault }) })
/-- One push of walk `i`; a full queue stalls it, and an earlier running walk of its queue goes first (R400). -/
def pushWalk (n i : Nat) (s : State) : State :=
  let c := s.cell n
  match c.walks[i]? with
  | none => s
  | some w =>
    let q := walkQueue w
    if w.state ≠ 0 ∨ (c.walks.take i).any (fun x => walkQueue x == q && x.state == 0) ∨ 16 ≤ queueLen (s.group ⟨n, w.grp⟩) q then s else
    match walkEntry (s.whoOf n) w c.shape w.grp s with
    | .error y => if y.hold then s else stopWalk n i q y s
    | .ok (s, e) =>
      let s := s.modGroup ⟨n, w.grp⟩ fun g => { g with queues := Map.ins q ((Map.getD g.queues q []) ++ [e]) g.queues }
      modWalk n i (stepWalk c.groupCount) s
/-- R400, R46: a push, or an access of the sketch context of a cell that has one, whose accesses are the schedule's (log 45). All of
them wait for the arithmetic clock, which drives the studio and the engine (R20, R468). -/
def execWalkPush (n : Nat) (a : WalkAct) (s : State) : Host.Outcome State Fault Refusal :=
  let c := s.cell n
  .next (if c.place ≠ .resident ∨ s.clockStopped then s else
    match a with
    | .push i => pushWalk n i s
    | .sketchDiscard => if c.sketchEntry = 0 then s else s.modStudio c.studio fun st => { st with sketch := satInc st.sketch }
    | .sketchPrefetch va => if c.sketchEntry = 0 then s else pfLane (s.whoOf n) 0 s va.toNat)

/-! ### Ring messages (R419) -/

/-- A message of a group with a number, and those of its cell sent earlier to the same ring. -/
def msgAt (n g i : Nat) (s : State) : Option Msg := (s.group ⟨n, g⟩).msgs[i]?
def msgFirst (n : Nat) (m : Msg) (s : State) : Bool :=
  !((s.cell n).groups.any fun g => g.2.msgs.any fun x => x.seq < m.seq && x.ring == m.ring && x.recv == m.recv)
/-- One of those that went before it to the ring is held: it holds the message behind it (R419). -/
def msgBehind (n : Nat) (m : Msg) (s : State) : Bool :=
  (s.cell n).groups.any fun g => g.2.msgs.any fun x => x.seq < m.seq && x.ring == m.ring && x.recv == m.recv && x.refused
def modMsg (n g i : Nat) (f : Msg → Msg) (s : State) : State := s.modGroup ⟨n, g⟩ fun x => { x with msgs := x.msgs.modify i f }
/-- The message leaves the sender: its landing space is free again. -/
def dropMsg (n g i : Nat) (m : Msg) (s : State) : State :=
  let s := s.modGroup ⟨n, g⟩ fun x => { x with msgs := x.msgs.eraseIdx i }
  s.modStudio (s.cell n).studio fun st => { st with landing := st.landing - m.bytes.length }
/-- Packet of a message. -/
def packetOf (m : Msg) (s : State) : Option Packet := s.packets.find? fun p => p.id == m.seq
def arrived (p : Packet) : Bool := p.at_x == p.to_x && p.at_y == p.to_y
/-- Slots of a ring in use. -/
def ringUsed (c : Cell) (r : Ring) : Nat := (counterAt c r.tailAt + 2 ^ 32 - counterAt c r.headAt) % 2 ^ 32
/-- The receiver's ring, where it can be reached: the cell is resident at the node and the ring declared. -/
def reachRing (c : Cell) (m : Msg) (s : State) : Option (Nat × Ring) :=
  match cellAt c.ticket m.recv s with
  | none => none
  | some d => if (s.cell d).place = .resident then (Map.find m.ring (s.cell d).rings).map fun r => (d, r) else none
/-- Write the message into slot tail, advance tail, raise the word. -/
def landMsg (d : Nat) (r : Ring) (m : Msg) (s : State) : State :=
  let t := counterAt (s.cell d) r.tailAt
  let s := s.modCell d fun c => c.putScratch s.fresh (r.base + r.size * (t % r.slots)) m.bytes
  let s := s.modCell d fun c => c.setCounter s.fresh r.tailAt ((t + 1) % 2 ^ 32)
  if r.swen then landScratch d r.sw 1 s else s
/-- A message refused for good: HANDLE before the sending group's next run. -/
def refuseMsg (n g i : Nat) (m : Msg) (s : State) : State :=
  (dropMsg n g i m s).lateFault ⟨n, g⟩ ⟨fHandle, 0, BitVec.ofNat 64 m.recv, 0, m.handler, none⟩
def linearIn (c : Cell) (s : State) : Nat := linearOf c (match s.task c.ticket with | some t => t.lrec | none => default)
/-- R419: what becomes of a message whose packet has arrived; one longer than a slot is refused for good (log 61). -/
def execRingDelivery (n g i : Nat) (s : State) : Host.Outcome State Fault Refusal :=
  let c := s.cell n
  .next (match msgAt n g i s with
    | none => s
    | some m =>
      match packetOf m s with
      | none => s
      | some p =>
        if m.refused ∨ !arrived p then s else
        let s' := { s with packets := s.packets.filter fun x => x.id != m.seq }
        if !msgFirst n m s then (if msgBehind n m s then modMsg n g i (fun m => { m with refused := true }) s' else s) else
        let s := s'
        match reachRing c m s with
        | none => modMsg n g i (fun m => { m with refused := true }) s
        | some (d, r) =>
          if nodeOf (s.cell d).studio ≠ (p.to_x, p.to_y) then modMsg n g i (fun m => { m with refused := true }) s
          else if r.prod ≠ linearIn c s ∨ r.size < m.bytes.length then refuseMsg n g i m s
          else if r.slots ≤ ringUsed (s.cell d) r then modMsg n g i (fun m => { m with refused := true }) s
          else dropMsg n g i m (landMsg d r m s))
/-- R419: a held message is sent again once its ring is declared, its receiver resident and a slot free. -/
def execRingRetry (n g i : Nat) (s : State) : Host.Outcome State Fault Refusal :=
  let c := s.cell n
  .next (match msgAt n g i s with
    | none => s
    | some m =>
      if c.place ≠ .resident ∨ !m.refused ∨ !msgFirst n m s then s else
      match reachRing c m s with
      | none => s
      | some (d, r) =>
        if r.prod = linearIn c s ∧ r.slots ≤ ringUsed (s.cell d) r then s
        else sendPacket m.seq c.studio (s.cell d).studio (modMsg n g i (fun m => { m with refused := false }) s))

/-! ### The torus (R422, R424) -/

/-- The ring a packet takes next: row, then column, by the shorter direction, + when both are 8 hops. -/
def nextRing (p : Packet) : Nat :=
  let dx := (p.to_x + 16 - p.at_x) % 16
  let dy := (p.to_y + 16 - p.at_y) % 16
  if dx ≠ 0 then (if dx ≤ 8 then 1 else 2) else if dy ≠ 0 then (if dy ≤ 8 then 3 else 4) else 0
/-- The node one hop along a ring. -/
def hopTo (p : Packet) (ring : Nat) : Nat × Nat :=
  match ring with
  | 1 => ((p.at_x + 1) % 16, p.at_y)
  | 2 => ((p.at_x + 15) % 16, p.at_y)
  | 3 => (p.at_x, (p.at_y + 1) % 16)
  | _ => (p.at_x, (p.at_y + 15) % 16)
/-- Buffers in use of a ring's direction and class at a node. -/
def buffersUsed (cls ring x y : Nat) (s : State) : Nat :=
  (s.packets.filter fun q => q.cls == cls && q.ring == ring && q.at_x == x && q.at_y == y).length
/-- Packets of one buffer leave in order. -/
def packetFirst (i : Nat) (p : Packet) (s : State) : Bool :=
  !((s.packets.take i).any fun q => q.cls == p.cls && q.ring == p.ring && q.at_x == p.at_x && q.at_y == p.at_y && !arrived q)
/-- A packet may move: it enters a ring while one buffer stays free there, or goes one hop into a free buffer; two buffers per ring,
direction and class at a node (log 57). -/
def mayHop (i : Nat) (p : Packet) (s : State) : Bool :=
  let ring := nextRing p
  ring != 0 && packetFirst i p s
  && (if p.ring ≠ ring then buffersUsed p.cls ring p.at_x p.at_y s == 0
      else let (x, y) := hopTo p ring
           buffersUsed p.cls ring x y s ≤ 1)
/-- The output of a router that a packet asks for: its node, the ring, the class. -/
def routerKey (p : Packet) : Nat := ((p.at_x * 16 + p.at_y) * 5 + nextRing p) * 2 + p.cls
/-- How far a packet's input port, 0 for injection, comes after the one that its router served last (R424; the order of the
ports: log 120). -/
def portTurn (p : Packet) (s : State) : Nat := (p.ring + 4 - Map.getD s.routers (routerKey p) 4) % 5
/-- It is the packet's turn: none that may move to the same output stands at a port that comes first. -/
def packetTurn (p : Packet) (s : State) : Bool :=
  !s.packets.zipIdx.any fun q => routerKey q.1 == routerKey p && portTurn q.1 s < portTurn p s && mayHop q.2 q.1 s
/-- R424: a packet moves, each router serving its input ports in turn. An arrived packet sinks. -/
def execTorusHop (i : Nat) (s : State) : Host.Outcome State Fault Refusal :=
  .next (match s.packets[i]? with
    | none => s
    | some p =>
      if !mayHop i p s ∨ !packetTurn p s then s else
      let s := { s with routers := Map.ins (routerKey p) p.ring s.routers }
      let ring := nextRing p
      if p.ring ≠ ring then { s with packets := s.packets.eraseIdx i ++ [{ p with ring := ring }] }
      else
        let (x, y) := hopTo p ring
        let q := { p with at_x := x, at_y := y }
        { s with packets := s.packets.eraseIdx i ++ [if arrived q then { q with ring := 0 } else q] })

end Sys2Proof.Machine
end

