-- ==== Sys2Proof/Machine/SaveArea.lean ====
section
/-! DEFINITION. The save area of a cell: its layout, its bytes, its pages (R244, R271, R428, R433, R434). The order of the fields within
a block is the model's (log 44). -/
namespace Sys2Proof.Machine
open Sys2Proof State

/-! ### Layout (R433) -/

/-- Bytes of a group's blocks before its trap frame. Every block is a multiple of 64 bytes. -/
def frameOff (budget : Nat) : Nat := 768 + 64 + (896 + 1024 * budget) + 16512 + 16448
def groupArea (budget : Nat) : Nat := frameOff budget + 64
/-- Offset of the trap frame of group `g`. -/
def frameAt (budget g : Nat) : Nat := 64 + g * groupArea budget + frameOff budget
/-- Offset of the Easel block, past the groups'. -/
def easelAt (budget groups : Nat) : Nat := 64 + groups * groupArea budget
def saveBytes (shape budget scratch lstore : Nat) : Nat := easelAt budget ((shape + 31) / 32) + 47616 + scratch + shape * lstore
def savePages (shape budget scratch lstore : Nat) : Nat := (saveBytes shape budget scratch lstore + 65535) / 65536
def Cell.areaPages (c : Cell) : Nat := savePages c.shape c.budget c.scratchSz c.lstoreSz

/-! ### Bytes -/

/-- A piece of the area: an offset and its bytes. -/
abbrev Chunk := Nat × List (BitVec 8)
def flag (b : Bool) : BitVec 8 := if b then 1 else 0
/-- Way of waiting and condition of an entry. -/
def wayOf (pc : BitVec 64) : Wait → Nat × Nat
  | .no => (0, 0)
  | .barrier b ph => (1, b + (if ph then 256 else 0))
  | .sword _ va gen _ _ => (2, va.toNat / 16 % 2 ^ 32 * 2 ^ 32 + gen.toNat)
  | .monitor => (3, 0)
  | .tile m _ _ => (4, m)
  | .fill f _ _ => (5, f)
  | .regroup => (6, pc.toNat)
  | .restore => (7, pc.toNat)
  | .rte => (8, pc.toNat)
def entryBytes (e : Entry) : List (BitVec 8) :=
  leBytes 8 e.pc.toNat ++ leBytes 4 e.mask.toNat ++ [e.prio.setWidth 8, e.wait, BitVec.ofNat 8 (wayOf e.pc e.st).1, flag e.handler]
  ++ leBytes 8 (wayOf e.pc e.st).2
def controlBytes (g : Group) : List (BitVec 8) :=
  [g.disp.setWidth 8] ++ leBytes 2 g.passed.toNat ++ [flag g.handler, flag g.parked] ++ leBytes 8 g.rndkey.toNat ++ leBytes 2 g.arrA.toNat
  ++ leBytes 2 g.arrP.toNat ++ leBytes 8 (g.mon.elim 0 (· + 1)) ++ [flag g.fired]
/-- Registers of group `i`: g, the full/empty bits, the predicates, the v registers lane by lane. -/
def regChunks (o : Nat) (c : Cell) (i : Nat) (g : Group) : List Chunk :=
  g.gregs.map (fun x => (o + 8 * x.1, leBytes 8 x.2.toNat))
  ++ [(o + 768, leBytes 32 g.vEmpty.toNat ++ leBytes 12 g.gEmpty.toNat)]
  ++ (c.preds.filter fun x => x.1 / 32 == i).map (fun x => (o + 832 + 2 * (x.1 % 32), leBytes 2 x.2.toNat))
  ++ (c.vregs.filter fun x => x.1 / 8192 == i).map fun x =>
       (o + 896 + 4 * (x.1 / 256 % 32 * (8 * c.budget) + x.1 % 256), leBytes 4 x.2.toNat)
def queueChunks (o : Nat) (g : Group) : List Chunk :=
  g.queues.flatMap (fun q => (o + 16384 + q.1, [BitVec.ofNat 8 q.2.length])
    :: q.2.zipIdx.map fun e => (o + 2048 * q.1 + 128 * e.2, e.1.flatMap fun w => leBytes 4 w.toNat))
  ++ g.qfault.map fun q => (o + 16392 + 15 * q.1, [q.2.code, q.2.sub.setWidth 8] ++ leBytes 8 q.2.addr.toNat)
def msgChunks (o : Nat) (g : Group) : List Chunk :=
  g.msgs.zipIdx.map fun m => (o + 4112 * m.2,
    [BitVec.ofNat 8 m.1.ring, flag m.1.handler, flag m.1.refused, 0] ++ leBytes 4 m.1.recv ++ leBytes 2 m.1.bytes.length ++ leBytes 6 0 ++ m.1.bytes)
/-- Blocks of group `i`; the trap frame stands as it was written. -/
def groupChunks (c : Cell) (i : Nat) (g : Group) : List Chunk :=
  let o := 64 + i * groupArea c.budget
  let r := o + 832
  let q := r + 896 + 1024 * c.budget
  g.entries.zipIdx.map (fun e => (o + 24 * e.2, entryBytes e.1)) ++ [(o + 768, controlBytes g)] ++ regChunks r c i g ++ queueChunks q g
  ++ msgChunks (q + 16512) g
def fillBytes16 (f : Fill) : List (BitVec 8) :=
  [flag f.busy, flag f.scales, f.fault.elim 0 (·.code), BitVec.ofNat 8 f.granule] ++ leBytes 4 f.done ++ leBytes 8 f.addr.toNat
def brushBytes (b : Brush) : List (BitVec 8) :=
  [BitVec.ofNat 8 b.major, BitVec.ofNat 8 b.sub, BitVec.ofNat 8 b.report, BitVec.ofNat 8 b.bar, BitVec.ofNat 8 b.granule, flag b.stopped,
   flag b.accepted, BitVec.ofNat 8 b.hop] ++ leBytes 4 b.off ++ leBytes 4 (4096 * b.done) ++ leBytes 8 b.word.toNat ++ leBytes 8 b.chain.toNat
  ++ b.coords.flatMap fun x => leBytes 4 x.toNat
def barBytes8 (b : Bar) : List (BitVec 8) :=
  leBytes 5 (b.pend % (2 : Int) ^ 40).toNat ++ [b.members.setWidth 8, b.arrived.setWidth 8,
    BitVec.ofNat 8 ((if b.phase then 1 else 0) + (if b.ovf then 2 else 0) + (if b.excess then 4 else 0))]
/-- Blocks after the groups'. -/
def restChunks (c : Cell) : List Chunk :=
  let o := easelAt c.budget c.groupCount
  [(o, matrixImage c)] ++ c.fills.map (fun f => (o + 41472 + 16 * f.1, fillBytes16 f.2))
  ++ c.brush.zipIdx.map (fun b => (o + 41600 + 64 * b.2, brushBytes b.1)) ++ c.descs.map (fun d => (o + 42624 + 192 * d.1, d.2))
  ++ c.walks.zipIdx.map (fun w => (o + 44160 + 64 * w.2, [BitVec.ofNat 8 w.1.state] ++ leBytes 3 w.1.grp ++ w.1.iter.flatMap fun i => leBytes 4 i))
  ++ c.rings.map (fun r => (o + 46208 + 16 * r.1, leBytes 8 r.2.w0.toNat ++ leBytes 8 r.2.w1.toNat))
  ++ c.bars.map (fun b => (o + 46336 + 8 * b.1, barBytes8 b.2)) ++ c.remap.map (fun r => (o + 46464 + 2 * r.1, leBytes 2 r.2))
  ++ c.chainSave.zipIdx.map (fun x => (o + 47488 + 16 * x.2, leBytes 8 x.1.1 ++ leBytes 8 x.1.2.toNat))
  ++ c.scratch.map (fun x => (o + 47616 + x.1, [x.2]))
  ++ c.lstore.map fun x => (o + 47616 + c.scratchSz + x.1 / 2048 * c.lstoreSz + x.1 % 2048, [x.2])
def headerBytes (c : Cell) : List (BitVec 8) :=
  let w := c.wrec.getD default
  leBytes 2 0x5043 ++ [BitVec.ofNat 8 c.groupCount, BitVec.ofNat 8 c.budget] ++ leBytes 2 c.shape ++ [flag c.regrouped, BitVec.ofNat 8 (c.saved.elim 0 (· + 1))]
  ++ leBytes 2 c.ptSlot ++ [BitVec.ofNat 8 c.view, flag w.unresolved, BitVec.ofNat 8 w.first, BitVec.ofNat 8 w.views.length]
/-- The area's bytes that are not zero, by offset. -/
def areaBytes (c : Cell) : List (Nat × BitVec 8) :=
  (((0, headerBytes c) :: c.groups.flatMap (fun g => groupChunks c g.1 g.2) ++ restChunks c).flatMap fun x =>
    x.2.zipIdx.map fun b => (x.1 + b.2, b.1)).filter fun x => x.2 != 0
/-- An offset lies in a trap frame. -/
def inFrame (c : Cell) (o : Nat) : Bool := (List.range c.groupCount).any fun g => frameAt c.budget g ≤ o && o < frameAt c.budget g + 64

/-! ### Pages -/

/-- Replace the entries of a table with keys in `[lo, hi)` by those of another. -/
def Map.splice {α : Type} (lo hi : Nat) (m small : Map α) : Map α :=
  m.filter (fun x => decide (x.1 < lo)) ++ small.filter (fun x => decide (lo ≤ x.1 ∧ x.1 < hi)) ++ m.filter fun x => decide (hi ≤ x.1)
/-- Write page `p` of an area to frame `f`; the bytes at the offsets that `keep` picks stay. -/
def writeAreaPage (keep : Nat → Bool) (bs : List (Nat × BitVec 8)) (p f : Nat) (s : State) : State :=
  let lns := (s.l2.map Prod.fst).filter fun ln => ln / 512 == f
  let s := lns.foldl (fun s ln => let s := s.wbL2 ln; if ((Map.find ln s.l2).getD default).pin then s else { s with l2 := Map.del ln s.l2 }) s
  let kept := s.mem.filter fun x => x.1 / 65536 == f && keep (65536 * p + x.1 % 65536)
  let page := (bs.filter fun x => x.1 / 65536 == p).foldl (fun m x => Map.put memDefault (65536 * f + x.1 % 65536) x.2 m) kept
  freshPins { s with mem := Map.splice (65536 * f) (65536 * f + 65536) s.mem page } f
/-- Write the bytes `bs`, by offset, to the frames of an area in order. -/
def writePages (keep : Nat → Bool) (bs : List (Nat × BitVec 8)) (fs : List Nat) (s : State) : State :=
  fs.zipIdx.foldl (fun s x => writeAreaPage keep bs x.2 x.1 s) s
/-- Write a cell's state to its save area (R433); the trap frames in it stay. -/
def writeArea (n : Nat) (s : State) : State :=
  let c := s.cell n
  writePages (inFrame c) (areaBytes c) c.area s

/-- The crown a cell's save area is charged to (R434). -/
def areaCrown (c : Cell) (s : State) : Nat := recCrown c.ctx (match s.task c.ticket with | some x => x.lrec | none => default) s
/-- `n` frames of the pool, one by one. -/
def takeMany : Nat → State → Option (State × List Nat)
  | 0, s => some (s, [])
  | n + 1, s => match s.takeFrames 1 with
    | none => none
    | some (f, s) => (takeMany n (s.zeroFrame f)).map fun x => (x.1, f :: x.2)
/-- `n` pages that no context's tables map, charged to arena `a`. An error 0 waits for frames, any other is the refused charge (R250,
R434). -/
def areaFrames (a n : Nat) (s : State) : Except Nat (State × List Nat) :=
  match s.chargePages a n with
  | none => .error 1
  | some s => match takeMany n s with
    | none => .error 0
    | some x => .ok x
/-- The save area of a rival or of a shadow copy. -/
def giveArea (n : Nat) (s : State) : Except Nat State := do
  let c := s.cell n
  if !c.area.isEmpty then return s
  let (s, fs) ← areaFrames (areaCrown c s) c.areaPages s
  return s.modCell n fun c => { c with area := fs }
/-- It goes back when the cell does. -/
def dropArea (n : Nat) (s : State) : State :=
  let c := s.cell n
  if c.area.isEmpty then s else
  (c.area.foldl (fun s f => s.freeFrame f) (s.subCharge (areaCrown c s) c.areaPages)).modCell n fun c => { c with area := [] }

end Sys2Proof.Machine
end

