-- ==== Sys2Proof/Machine/World.lean ====
section
/-! DEFINITION. Worlds: fork, end, choose, abort, query (R359-R367). -/
namespace Sys2Proof.Machine
open Sys2Proof State

/-- The world of the acting cell that its group may resolve: an unresolved one, or the one its own `choose` is still resolving. -/
def openWorld (s : State) : Option World :=
  match s.cc.wrec with
  | some w => if w.unresolved || w.left.any (fun l => l.1 == s.cur.grp) then some w else none
  | none => none
/-- The acting cell has a world that is unresolved, or that a `choose` is still resolving. -/
def worldBusy (s : State) : Bool := match s.cc.wrec with | some w => w.unresolved || w.left.isSome | none => false

/-! ### forkw (R364) -/

/-- Open `n` rival views under `u`, indexed from `k`; none where tags or arenas are short. -/
def openRivals (crown c u quota : Nat) : Nat → Nat → State → Option (State × List Nat)
  | 0, _, s => some (s, [])
  | n + 1, k, s =>
    match openView crown c 0 u quota k s with
    | none => none
    | some (s, v) => (openRivals crown c u quota n (k + 1) s).map fun x => (x.1, v :: x.2)
/-- The fork is accepted: it takes effect once the cell has stopped (RIVAL_ADMISSION). -/
def startFork (o : AOp) (vs : List Nat) (s : State) : State :=
  let dst := match o.d with | .g i => i.toNat | _ => 0
  let pf := if atTry o then atPf o else 0
  let ps := if pf = 0 then [] else (s.active o.gd).map fun p => RegWrite.p (s.clOf p) pf false
  let s := s.produce { writes := ps, regs := [.g dst], pred := if pf = 0 then none else some pf, fault := none, ckpt := none, fork := true }
  s.modCc fun c => { c with fork := some ⟨s.cur.grp, dst, vs⟩ }
/-- R364: the checks and the opening of the views. -/
def execForkw (o : AOp) (s : State) : Host.Outcome State Fault Refusal :=
  issue (.forkw o) s fun s => do
    let n := uniA o s
    let q := uniB o s
    require (2 ≤ n && n ≤ 8 && 1 ≤ q && q < 2 ^ 32) fHandle
    if (s.active o.gd).isEmpty then return s
    if inCopy s s.cur.cell then refuse s 0
    require (!worldBusy s && s.cc.fork.isNone) fHandle
    require ((s.view s.cc.view).depth ≠ 4) fWorldDepth
    match (if (freeViews s).length < n then none else openRivals (recCrown (actx s) (match s.task s.cc.ticket with | some t => t.lrec | none => default) s) (actx s) s.cc.view q n 0 s) with
    | some (s, vs) => return startFork o vs s
    | none => answer o fViewExhaust s (fault fViewExhaust)

/-! ### wend (R365) -/

/-- R365: a later `wend` of a rival that has ended has no effect. -/
def execWend (o : AOp) (s : State) : Host.Outcome State Fault Refusal :=
  issue (.wend o) s fun s => do
    if (s.active o.gd).isEmpty then return s
    require (inRival s s.cur.cell) fHandle
    if s.cc.ended then return s
    let x := BitVec.ofNat 64 (uniA o s)
    let s := s.modView s.cc.view fun w => { w with score := x, wended := true }
    return s.modCc fun c => { c with ended := true }

/-! ### Performing escape entries (R360, R361, R366) -/

/-- The M-family operation an entry stands for. -/
def escOp (e : Esc) : MOp :=
  { gd := ⟨0, false⟩, variant := BitVec.ofNat 4 (e.sub.toNat / 16), ty := ([Ty.i8, .i16, .i32, .i64, .n8, .n16, .n32, .n64, .f64, .f32,
      .f16, .bf16, .e4m3, .e5m2, .e2m1, .gq4].getD (e.sub.toNat % 16) .n8), data := .v 0, index := .imm 0, base := none,
    scope := [Scope.plain, .grp, .cell, .die, .dev, .sys, .rcv, .auto].getD (e.mode.toNat / 4) .plain,
    order := [Order.rlx, .acq, .rel, .ar].getD (e.mode.toNat % 4) .rlx, res := 0, hint := 0, shift := 0, off := 0 }
/-- A global access of an entry: checked at its address, its release actions, then its effect. -/
def escAccess (e : Esc) (a : Acc) (s : State) (f : LaneAcc → State → Except Raise State) : Except Raise State := do
  let w := s.whoOf s.cur.cell
  let o := escOp e
  let (s, ls) ← checkLanes w a [(0, e.addr.toNat, [(e.addr.toNat % 2 ^ 57, a.n)])] s
  match ls with
  | [] => return s
  | l :: _ =>
    let s := enterScope w o.scope ls s
    f l (if isRel o.order then releaseFor w o.scope ls s else s)
/-- One deferred operation, performed by the choosing group. -/
def performEsc (e : Esc) (s : State) : Except Raise State :=
  let w := s.whoOf s.cur.cell
  let o := escOp e
  let v := ((e.data.getD 0 0).toNat)
  let n := o.ty.width / 8
  let sw := fun op => escAccess e { n := 16, rd := true, wr := true, kind := true } s fun l s =>
    match writeClass s w l.va l.xlat true with
    | .perform xs => swAll s.cur w l.va op v xs s
    | _ => .ok s
  match e.op with
  | 0x81 => escAccess e { n := n, rd := false, wr := true, io := true } s fun l s => storeLane w o l v s
  | 0x88 => escAccess e { n := n, rd := true, wr := true, kind := true } s fun l s => redLane w o l v s
  | 0xA5 => sw .init
  | 0xA6 => sw .expect
  | 0xA7 => sw .add
  | 0xC5 =>
    let g := e.data.getD 0 0
    let s := releaseActs s.cur w 2 none s
    if sendFull (msgLen g) s then holdHere
    else .ok (sendMessage s.cur e.addr.toNat (e.data.getD 1 0).toNat (Map.bytes s.cc.scratch (msgOff g) (msgLen g)) s.cg.handler s)
  | _ => do
    let d ← deviceQueue w.ctx v s
    let s := releaseActs s.cur w 4 none s
    if d.full then return s
    let (s, _) ← checkLanes w { n := 64, rd := true, wr := false } [(0, e.addr.toNat, [(e.addr.toNat % 2 ^ 57, 64)])] s
    let (s, _) ← submit w.ctx v e.addr.toNat (e.sub == 1) d s
    return s
/-- Entries in queue order; the first fault, with the entry's address, stops them. One that must wait leaves itself and those after it. -/
def performEscs : List Esc → State → State × List Esc × Option Raise
  | [], s => (s, [], none)
  | e :: r, s => match performEsc e s with
    | .ok s => performEscs r s
    | .error y => (s, e :: r, some (if y.hold then y else { y with addr := e.addr, lane := 0 }))

/-! ### choose, wabort (R366) -/

/-- Discard the rivals of a world that `p` picks. -/
def discardRivals (w : World) (p : Nat → Bool) (s : State) : State :=
  (w.views.zipIdx.filter fun x => p x.2).foldl (fun s x => discardView 8 x.1 s) s
/-- Index with the lowest score; the lowest index on ties. -/
def bestRival (w : World) (s : State) : Nat :=
  (w.views.zipIdx.foldl (fun (b : Option (Nat × Nat)) x =>
    let sc := (s.view x.1).score.toNat
    match b with | some (m, _) => if sc < m then some (sc, x.2) else b | none => some (sc, x.2)) none).elim 0 Prod.snd
def resolveWorld (s : State) : State := s.modCc fun c => { c with wrec := c.wrec.map fun w => { w with unresolved := false, left := none } }
/-- Perform the entries of the chosen rival `k`: the state, and what stops the instruction: an entry that must wait, which the
instruction goes on with though the world has been acted on, or the fault of one that failed (the commit stands; log 38). -/
def performLeft (o : AOp) (k : Nat) (es : List Esc) (s : State) : State × Option Raise :=
  match performEscs es s with
  | (s, r, some y) => (if y.hold then s.modCc fun c => { c with wrec := c.wrec.map fun w => { w with unresolved := false, left := some (s.cur.grp, k, r) } } else resolveWorld s, some y)
  | (s, _, none) => ((resolveWorld s).produceG o.gd o.d (BitVec.ofNat 64 k) 0 false, none)
/-- Resolve with rival `k`. -/
def chooseRival (o : AOp) (w : World) (k : Nat) (s : State) : Except Raise (State × Option Raise) := do
  match w.left with
  | some (_, k, es) => return performLeft o k es s
  | none =>
    let v := w.views.getD k 0
    let u := (s.view v).parent
    require (!(s.isRival u && 64 < (s.view u).escs.length + (s.view v).escs.length)) fWorldEscape
    let s := discardRivals w (· != k) s
    let (s, ids, escs) := commitView v s
    -- the shoot-downs of the commit end before the entries are performed (R361 steps 3 and 4)
    let s := ids.foldl (fun s id => finishShoot id s) s
    return performLeft o k escs (releaseActs s.cur (s.whoOf s.cur.cell) 4 none s)
/-- An instruction whose fault may come after an effect that stands. -/
def issueResolve (i : Instr) (s : State) (body : State → Except Raise (State × Option Raise)) : Host.Outcome State Fault Refusal :=
  match (do s.usesCheck i; body s) with
  | .error x => .next (s.raise x)
  | .ok (s', some x) => .next (s'.raise x)
  | .ok (s', none) => .next (s'.advance i .seq)
/-- R366. -/
def execChoose (o : AOp) (s : State) : Host.Outcome State Fault Refusal :=
  issueResolve (.choose o) s fun s => do
    if (s.active o.gd).isEmpty then return (s, none)
    let some w := openWorld s | fault fHandle
    let k := uniA o s
    require (w.left.isSome || k < w.views.length) fHandle k
    chooseRival o w k s
/-- R366. -/
def execChooseMin (o : AOp) (s : State) : Host.Outcome State Fault Refusal :=
  issueResolve (.chooseMin o) s fun s => do
    if (s.active o.gd).isEmpty then return (s, none)
    let some w := openWorld s | fault fHandle
    chooseRival o w (bestRival w s) s
/-- R366. -/
def execWabort (o : AOp) (s : State) : Host.Outcome State Fault Refusal :=
  issue (.wabort o) s fun s => do
    if (s.active o.gd).isEmpty then return s
    let some w := openWorld s | fault fHandle
    let s := discardRivals w (fun _ => true) s
    return resolveWorld (releaseActs s.cur (s.whoOf s.cur.cell) 4 none s)

/-! ### wquery (R367) -/

/-- Word 0 of a rival's entry with its present state, word 1 as at the rival's end. -/
def rivalWord (w : World) (k sel : Nat) : BitVec 64 :=
  let x := w.words.getD k (0, 0)
  if sel = 0 then x.2 else BitVec.ofNat 64 (x.1.toNat % 2 ^ 62 + (if w.unresolved then 2 ^ 63 else 0))
/-- R367. -/
def execWquery (o : AOp) (s : State) : Host.Outcome State Fault Refusal :=
  issue (.wquery o) s fun s => do
    let k := uniA o s
    require (k < 8) fHandle k
    if (s.active o.gd).isEmpty then return s
    let some w := s.cc.wrec | fault fHandle
    require (k < w.views.length) fHandle k
    return s.produceG o.gd o.d (rivalWord w k (atSel o)) 0 false

end Sys2Proof.Machine
end

