-- ==== Sys2Proof/Machine/EvTasks.lean ====
section
/-! DEFINITION. Events of the launch controller: kicks (R377), ranges (R380), the take-over (R389); and the shared steps of
admission, save, restore and retirement that the events of cells and of recovery stand on (R14, R28, R29, R50, R249, R434). -/
namespace Sys2Proof.Machine
open Sys2Proof State

/-! ### Kicks (R375-R377) -/

/-- R377 step 3: a pending bit is set. -/
def execKickWrite (c q : Nat) (s : State) : Host.Outcome State Fault Refusal :=
  .next (if c < 64 ∧ q < 64 then s.kick (64 * c + q) else s)
def hasCtx (c : Nat) (s : State) : Bool := (Map.find c s.ctxs).isSome
/-- What serving a queue does: a malformed descriptor disables it; a device queue is fed by `tlaunch` alone, whatever a host has made of its
tail (R375, R395). -/
def serveQueue (c q : Nat) (s : State) : State :=
  let d := qdesc c q s
  if !d.ok then s.disableQueue c q
  else if !d.en then s
  else takeAll c q d.left s
/-- R377: the bit is cleared, tail is read with an acquire at `.sys`, entries are taken; not before a recovery of the context is over (R443). -/
def execServeKick (c q : Nat) (s : State) : Host.Outcome State Fault Refusal :=
  let b := 64 * c + q
  .next (if s.module.bootFailed ∨ 64 ≤ q ∨ !Map.getD s.module.kick b false ∨ !hasCtx c s ∨ (s.ctx c).rejoin then s else
    serveQueue c q (((settleHeld s).modModule fun m => { m with kick := Map.del b m.kick }).acquireSys none))
/-- The later change a journal copy holds. -/
def lastChange (l : List CtlRec) : Nat := l.foldl (fun m r => max m r.seq) 0
/-- What a journalled change says of a task or a queue is so (R389 step 3). -/
def resumeFrom (s : State) (r : CtlRec) : State :=
  match r.kind with
  | 0 => s.modTask (BitVec.ofNat 64 r.subject) fun x => { x with state := r.value }
  | 1 => if hasCtx (r.subject / 64) s then setQword (r.subject / 64) (r.subject % 64) 24 r.value s else s
  | _ => s.modTask (BitVec.ofNat 64 r.subject) fun x => { x with share := r.value }
/-- R389: the standby core of a pair takes over from the journal, of whose copies the one with the later change stands; kick bits and
tails are scanned again. -/
def execControllerTakeover (pair : Nat) (s : State) : Host.Outcome State Fault Refusal :=
  .next (if 2 ≤ pair then s else
    let a := Map.getD s.ctlLog (2 * pair) []
    let b := Map.getD s.ctlLog (2 * pair + 1) []
    let log := if lastChange a < lastChange b then b else a
    let s := { s with ctlLog := Map.ins (2 * pair + 1) log (Map.ins (2 * pair) log s.ctlLog) }
    let s := log.foldl resumeFrom s
    let s := s.modModule fun m => { m with takeover := Map.ins pair (!Map.getD m.takeover pair false) m.takeover }
    let cs := (s.ctxs.map Prod.fst).filter fun c => c % 2 == pair
    cs.foldl (fun s c => (List.range 64).foldl (fun s q =>
      let d := qdesc c q s
      if !d.ok || d.en then s.kick (64 * c + q) else s) s) s)

/-! ### Ranges (R380) -/

/-- How readying stands: ready, waiting for a page or a seal, or refused with a code and an address. -/
inductive Ready where
  | ready (s : State)
  | waits (s : State)
  | refused (code : BitVec 8) (addr : Nat)
deriving DecidableEq, Repr
/-- The absent pages among some are charged to their arenas, every 64 KiB of a large one that lies in the range (R331); one of an arena that
has been dropped since is ARENA_DEAD (R350). A code refuses the range. -/
def chargeAbsent (c : Nat) (ps : List Nat) (s : State) : Except (BitVec 8 × Nat) State :=
  ps.foldlM (fun s va => match s.walk (s.ctx c).root.toNat va with
    | some (leaf, sh, at') =>
      if leafRes leaf ≠ 2 then .ok s
      else if s.touchDead ⟨0, c, 0, 0⟩ va ⟨leaf, sh, s.captureGen c va leaf, 0, at'⟩ then .error (fArenaDead, va)
      else match s.chargeTouch c va leaf with | some s => .ok s | none => .error (fQuota, va)
    | none => .ok s) s
/-- Read-and-write and pin modes: the migration of absent pages begins. -/
def readyPages (c : Nat) (pin : Bool) : List Nat → State → Bool → Ready
  | [], s, w => if w then .waits s else .ready s
  | va :: r, s, w =>
    match s.walk (s.ctx c).root.toNat va with
    | none => .refused fProt va
    | some (leaf, _, at') =>
      let leaf := if pin then leaf ||| 0x40 else leaf
      let s := if pin then s.setLeafAt at' leaf else s
      if leafRes leaf = 2 then readyPages c pin r (s.setLeafAt at' (withRes leaf 1)) true
      else readyPages c pin r s (w || leafRes leaf == 1)
/-- Seal mode: the whole range in one arena, sealed if it is live. -/
def readySeal (c : Nat) (ps : List Nat) (s : State) : Ready :=
  let as := ps.map fun va => (s.walk (s.ctx c).root.toNat va).elim 0 fun x => leafArena x.1
  let a := as.headD 0
  if ps.isEmpty then .ready s
  else if a = 0 ∨ as.any (· != a) then .refused fHandle (ps.headD 0)
  else if (s.arena a).state = 1 then
    let s := s.modArena a fun e => { e with state := 2 }
    .waits { s with sealbs := s.sealbs ++ [({ arena := a, gen := (s.arena a).gen.toNat, units := allUnits } : SealB)] }
  else if s.sealbs.any fun w => w.arena == a then .waits s
  else .ready s
/-- The first address of a range with no valid translation. -/
def firstUnmapped (c : Nat) (rs : List (Nat × Nat × Nat)) (s : State) : Option Nat :=
  (rs.flatMap fun r => (rangePages r).zipIdx.map fun x => if x.2 = 0 then r.1 else x.1).find? fun va =>
    (s.walk (s.ctx c).root.toNat va).isNone
/-- Ready the ranges in order; every one is begun before the task waits. -/
def readyAll (c : Nat) : List (Nat × Nat × Nat) → State → Bool → Ready
  | [], s, w => if w then .waits s else .ready s
  | r :: rs, s, w =>
    let x := if r.2.2 = 3 then readySeal c (rangePages r) s else
      match chargeAbsent c (rangePages r) s with
      | .ok s => readyPages c (r.2.2 == 4) (rangePages r) s false
      | .error y => .refused y.1 y.2
    match x with
    | .ready s => readyAll c rs s w
    | .waits s => readyAll c rs s true
    | .refused code a => .refused code a
/-- R380, R382: a waiting task whose turn has come readies its ranges, then is admissible. -/
def execReadyRanges (t : BitVec 64) (s : State) : Host.Outcome State Fault Refusal :=
  .next (match s.task t with
    | none => s
    | some x =>
      if x.failing ∨ x.replay.isSome ∨ !((x.state = 3 ∧ depsDone x s ∧ earlierAdmitted x s) ∨ x.state = 4) then s else
      let s := if x.state = 3 then setTaskState t 4 s else s
      match firstUnmapped x.ctx x.lrec.ranges s with
      | some va => failNow t fProt va s
      | none =>
        match readyAll x.ctx x.lrec.ranges s false with
        | .ready s => setTaskState t 5 s
        | .waits s => s
        | .refused code a => failNow t code (if code = fProt then a else 0) s)

/-! ### What fits on a studio (R14, R24, R249) -/

/-- What a cell takes: groups, lane registers, lane-store bytes, scratchpad bytes, tiles. -/
structure Load where
  groups : Nat
  regs : Nat
  lstore : Nat
  scratch : Nat
  tiles : Nat
deriving DecidableEq, Repr
def loadOf (shape budget lstore scratch tiles : Nat) : Load :=
  let g := (shape + 31) / 32
  ⟨g, g * 8 * budget * 32, shape * lstore, scratch, tiles⟩
def Cell.load (c : Cell) : Load := loadOf c.shape c.budget c.lstoreSz c.scratchSz c.tileCount
def LRec.load (r : LRec) : Load := loadOf r.shape r.budget r.lstore r.scratch r.tiles
/-- The limits of R14 over the loads of a studio's cells. -/
def withinLimits (ls : List Load) : Bool :=
  let sum := fun (f : Load → Nat) => (ls.map f).foldl (· + ·) 0
  ls.length ≤ 16 && sum Load.groups ≤ 48 && sum Load.regs ≤ 131072 && sum Load.lstore ≤ 196608 && sum Load.scratch ≤ 393216
  && sum Load.tiles ≤ 32
/-- Studio `k` can take a cell of context `c` beside its residents and the loads `more` planned for it. -/
def canTake (k c : Nat) (pal : Bool) (l : Load) (more : List Load) (s : State) : Bool :=
  let rs := residents k s
  s.inService (.studio k) && withinLimits (rs.map (fun x => x.2.load) ++ more ++ [l])
  && rs.all fun x => x.2.ctx == c || !(x.2.pal || pal)
/-- Hops between two nodes of the torus. -/
def ringDist (a b : Nat) : Nat := let d := (a + 16 - b) % 16; min d (16 - d)
def hops (j k : Nat) : Nat := let (x, y) := nodeOf j; let (u, v) := nodeOf k; ringDist x u + ringDist y v
/-- Preference for a studio by its hops from the stage before: one hop first, then that studio itself, then the fewer (R29; log 90). -/
def hopRank (h : Nat) : Nat := if h = 1 then 0 else if h = 0 then 1 else h
/-- The lowest studio that can, or with a stage before it the preferred one, the lower on ties (R29). -/
def chooseStudio (near : Option Nat) (can : Nat → Bool) : Option Nat :=
  let ks := (List.range 192).filter can
  match near with
  | none => ks.head?
  | some j =>
    let key := fun k => hopRank (hops j k)
    (ks.foldl (fun (b : Option (Nat × Nat)) k => match b with
      | some (d, _) => if key k < d then some (key k, k) else b
      | none => some (key k, k)) none).map Prod.snd
/-- Studios for the next `n` cells, `i` the number of the first, `S` stages; `got` what has been placed, newest first. -/
def planCells (can : Nat → List Load → Bool) (l : Load) (S : Nat) : Nat → Nat → List Nat → Option (List Nat)
  | 0, _, got => some got.reverse
  | n + 1, i, got =>
    let near := if i % S = 0 then none else got.head?
    match chooseStudio near fun k => can k ((got.filter (· == k)).map fun _ => l) with
    | some k => planCells can l S n (i + 1) (k :: got)
    | none => none
/-- Cells admitted together: all of a co-resident task, else a stage gang or one cell (R29). -/
def batchOf (x : Task) : Nat := if x.lrec.cores then x.lrec.cells else x.lrec.s
def planTask (x : Task) (s : State) : Option (List Nat) :=
  planCells (fun k more => canTake k x.ctx x.lrec.pal x.lrec.load more s) x.lrec.load x.lrec.s (batchOf x) x.next []
/-- The same with every studio empty (R384). -/
def couldFit (x : Task) (s : State) : Bool :=
  (planCells (fun k more => s.inService (.studio k) && withinLimits (more ++ [x.lrec.load])) x.lrec.load x.lrec.s (batchOf x) x.next []).isSome

/-! ### Which task is next (R383) -/

/-- Saved cells of a task, the head of its admission order (R385). -/
def savedCells (t : BitVec 64) (s : State) : List (Nat × Cell) := s.cells.filter fun c => c.2.ticket == t && c.2.place == .saved
def wantsAdmission (x : Task) (s : State) : Bool :=
  (x.state = 5 || x.state = 6) && !x.failing && x.replay.isNone && (x.next < x.lrec.cells || !(savedCells x.ticket s).isEmpty)
def pairOf (x : Task) : Nat := 64 * x.ctx + x.queue
/-- The task whose cells are admitted next. -/
def nextTask (s : State) : Option Task :=
  let ts := s.tasks.filter fun x => wantsAdmission x s
  let top := ts.foldl (fun m x => max m x.lrec.prio) 0
  let key := fun (x : Task) => ((pairOf x + 4096 - Map.getD s.module.rr top 0) % 4096) * 2 ^ 64 + x.ticket.toNat
  (ts.filter fun x => x.lrec.prio == top).foldl (fun (b : Option Task) x => match b with
    | some y => if key x < key y then some x else b
    | none => some x) none
/-- The pointer of the task's priority moves past its pair. -/
def movePointer (x : Task) (s : State) : State :=
  s.modModule fun m => { m with rr := Map.ins x.lrec.prio ((pairOf x + 1) % 4096) m.rr }

/-! ### The palette's owner (R249, R250) -/

/-- Pages of a palette save area. -/
def palPages : Nat := 320
/-- The bytes of a save area that are not zero, by offset: the block store in palette-row order, then, from 16 MiB on, the check store in
check-row order. -/
def palBytes (b : Map (BitVec 8)) (c : Map (BitVec 32)) : List (Nat × BitVec 8) :=
  let words : List (Nat × BitVec 8) := c.flatMap fun (x : Nat × BitVec 32) =>
    (leBytes 4 x.2.toNat).zipIdx.map fun (y : BitVec 8 × Nat) => (0x1000000 + 4 * x.1 + y.2, y.1)
  (b ++ words).filter fun x => x.2 != 0
/-- Contents go to a context's save area for studio `k`, with the zaps that still wait there (R275). Without an area the context has had no
palette-bound cell there, and both stores are zero. -/
def fillPalSave (o k : Nat) (b : Map (BitVec 8)) (c : Map (BitVec 32)) (zs : List Zap) (s : State) : State :=
  match Map.find k (s.ctx o).palSaves with
  | none => s
  | some p => writePages (fun _ => false) (palBytes b c) p.frames
      (s.modCtx o fun x => { x with palSaves := Map.ins k { p with b := b, c := c, zaps := zs } x.palSaves })
/-- The studio's palette goes to its owner's save area, if it has an owner. -/
def savePalette (k : Nat) (s : State) : State :=
  let st := s.studio k
  match st.owner with
  | some o => fillPalSave o k st.palB st.palC st.zaps s
  | none => s
/-- What a context's save area for studio `j` holds is loaded into studio `k`; zeros where it has none. -/
def loadPalette (k j c : Nat) (s : State) : State :=
  let p := (Map.find j (s.ctx c).palSaves).getD { b := [], c := [], zaps := [] }
  s.modStudio k fun st => { st with owner := some c, palB := p.b, palC := p.c, zaps := p.zaps }
/-- The studio comes to a context: the palette goes to the owner's save area, and the new owner's contents are loaded over zeros (R249). -/
def changeOwner (k c : Nat) (s : State) : State :=
  if (s.studio k).owner = some c then s else loadPalette k k c (savePalette k s)
/-- A context's save area for a studio, at its first palette-bound cell there: charged to its crown, its pages taken (R250). An error 0
waits for frames, any other is the refused charge. -/
def chargePalette (k c : Nat) (pal : Bool) (s : State) : Except Nat State := do
  if !pal || (Map.find k (s.ctx c).palSaves).isSome then return s
  let (s, fs) ← areaFrames (crownOf c s) palPages s
  return s.modCtx c fun x => { x with palSaves := Map.ins k { b := [], c := [], zaps := [], frames := fs } x.palSaves }

/-! ### Group slots and the cell's place -/

/-- The lowest free group slot of a studio. -/
def freeSlot (k : Nat) (s : State) : Nat := (firstFree (fun i => (Map.find i (s.studio k).slots).isSome) 0 48).getD 0
/-- Give every group of a cell a slot of the studio it stands on. -/
def takeSlots (n : Nat) (s : State) : State :=
  ((s.cell n).groups.map Prod.fst).foldl (fun s g =>
    let k := (s.cell n).studio
    let i := freeSlot k s
    (s.modStudio k fun st => { st with slots := Map.ins i ⟨n, g⟩ st.slots }).modGroup ⟨n, g⟩ fun x => { x with slot := i }) s
/-- Landing space that a cell has reserved on its studio (R419, R423): for its messages, for the replies it waits for, and for the results
of collectives that its contributions have been accepted in. -/
def landingOf (c : Cell) : Nat :=
  (c.groups.flatMap fun g => (g.2.msgs.map fun m => m.bytes.length) ++ g.2.outs.map fun p => p.land).foldl (· + ·) 0
  + ((c.brush.filter fun b => b.major == 0xCB && b.accepted && !b.stopped && b.done == 0).map bredBytes).foldl (· + ·) 0
/-- The cell gives up its slots and landing space. -/
def leaveStudio (n : Nat) (s : State) : State :=
  let c := s.cell n
  s.modStudio c.studio fun st => { st with slots := st.slots.filter fun x => x.2.cell != n, landing := st.landing - landingOf c }
/-- A landing in a cell's scratchpad. -/
def landsInCell (n : Nat) (l : Landing) : Bool := match l.place with | .scratch m _ => m == n | .memory _ _ _ => false
/-- Remove a cell of any place; the save area of a rival or a copy goes with it. An `rgset` of its that has not completed sets no region,
and palette zaps that waited for its commands are made (R275). -/
def removeCell (n : Nat) (s : State) : State :=
  let c := s.cell n
  let s := dropArea n (if c.place = .resident then leaveStudio n s else s)
  let mine := c.groups.flatMap fun g => g.2.outs.filterMap fun p => p.region
  let s := s.modCtx c.ctx fun x => { x with regions := x.regions.filter fun r => !(r.2.pend.any fun n => mine.contains (r.1, n)) }
  let s := { s with cells := Map.del n s.cells, landed := s.landed.filter fun l => !landsInCell n l,
                    packets := s.packets.filter fun p => !(c.groups.any fun g => g.2.msgs.any fun m => m.seq == p.id) }
  if c.place = .unplaced then s else settleZaps c.studio s

/-! ### Stopping and saving (R50, R261, R408, R433, R434) -/

/-- A started command of `done` of `total` steps may stop here: after a step k with k + 1 a multiple of its granule, or at its end (R261). -/
def atGranule (g done total : Nat) : Bool := total ≤ done || (0 < g && 0 < done && done % g == 0)
/-- Boundaries of the cell's engine commands (R50). A multicast that has started stops only at its end; a contribution is in flight until it
has been accepted, and waits at its home from then on (R414). -/
def enginesStop (c : Cell) : Bool :=
  c.cmds.all (fun x => !x.started || atGranule x.granule x.done (cmdSlabs x))
  && c.fills.all (fun x => !x.2.busy || x.2.fault.isSome || (x.2.done == 0 && !x.2.scales) || atGranule x.2.granule x.2.done (fillOf x.2.record).ks)
  && c.brush.all fun b =>
    if b.major == 0xCB then b.accepted
    else !b.started || (if b.major == 0xCA then brushDone b else atGranule b.granule b.done (burstsOf (layoutOf b.layout)))
/-- Every run has ended, every producer completed (but a fork's answer, and an `stest`'s, which may wait for this cell to stop), no message
is on the torus. -/
def canStop (n : Nat) (s : State) : Bool :=
  let c := s.cell n
  c.place == .resident && enginesStop c && c.groups.all fun g => g.2.run.isNone && g.2.outs.all (fun p => p.fork || p.test.isSome) && g.2.msgs.all (·.refused)
/-- A release, or an acquire, at `.dev` by every group of a cell. -/
def releaseCell (n : Nat) (s : State) : State :=
  ((s.cell n).groups.map Prod.fst).foldl (fun s g => releaseActs ⟨n, g⟩ (s.whoOf n) 4 none s) s
def acquireCell (n : Nat) (s : State) : State := acquireActs (s.whoOf n) 4 none s
/-- Pre-emption fires the group's monitor (R182): a wait at it resumes as woken (R51), and one still to come ends at once. -/
def wokenGroup (g : Group) : Group := if g.mon.isSome then { g with fired := true } else g
/-- The chain slots its context holds on its studio, with their records' addresses, go into a stopped cell's save list, beside those of an
earlier list that it still waits to load (R240). -/
def noteChains (n : Nat) (s : State) : State :=
  let held := (s.studio (s.cell n).studio).chains.filter fun c => c.2.ctx == (s.cell n).ctx
  s.modCell n fun c => { c with chainSave := held.foldl (fun m x => Map.ins x.1 x.2.addr m) c.chainSave }
/-- A cell leaves its studio for its save area (R433), as `f` places it; what its copies have landed stands before that (R408). -/
def stowCell (n : Nat) (f : Cell → Cell) (s : State) : State :=
  let s := leaveStudio n (releaseCell n (noteChains n s.settleLanded))
  writeArea n (s.modCell n fun c => f { c with groups := c.groups.map fun g => (g.1, wokenGroup g.2) })
/-- Save a cell. -/
def saveCell (n : Nat) (s : State) : State := stowCell n (fun c => { c with place := .saved }) s
/-- Place a cell on a studio: slots, landing space, the palette's owner, an acquire at `.dev`, the chains of its save list. -/
def placeCell (n k : Nat) (s : State) : State :=
  let c := (s.cell n).ctx
  let s := (changeOwner k c s.tick).modCell n fun c => { c with place := .resident, studio := k, adm := s.fresh }
  let s := takeSlots n s
  reloadChains n (acquireCell n (s.modStudio k fun st => { st with landing := st.landing + landingOf (s.cell n) }))

end Sys2Proof.Machine
end

