-- ==== Sys2Proof/Machine/Fetch.lean ====
section
/-! DEFINITION. Which group an issue slot acts for, and how a word is laid where the next step fetches it. -/
namespace Sys2Proof.Machine
open Sys2Proof
namespace State

/-- The group at a studio's group slot with a run in flight that may issue: its cell resident, its task running, its run not
held at a migrating page. -/
def issuing (s : State) (k slot : Nat) : Option GRef :=
  match Map.find slot (s.studio k).slots with
  | none => none
  | some r =>
    let c := s.cell r.cell
    match (s.group r).run with
    | some u => if c.place = .resident && !u.held && !s.stopped r.cell then some r else none
    | none => none

/-- The virtual address of the line `withFetchWord` lays, and the tables and frame that map it. -/
def fwVa : Nat := 0x10000
def fwTable : Nat := 0x100000
def fwFrame : Nat := 0x120

/-- A line with the word in slot 0, slot 0 a target and a run end, parity even, priority 0. -/
def fwLine (w : Nat) : Nat :=
  let lw := 2 ^ 12 + 2 ^ 17 + (if popc (bits w 95 0) 120 % 2 = 1 then 2 ^ 28 else 0)
  w + lw * 2 ^ 480

def setBytes (s : State) (pa : Nat) : List (BitVec 8) → State
  | [] => s
  | b :: r => (s.setMemByte pa b).setBytes (pa + 1) r

/-- Page tables of the one page: five tables of 4 KiB, the leaf RC, cached, R W X, arena 0. -/
def fwTables (s : State) : State :=
  let e := fun (s : State) (k ix v : Nat) => s.setBytes (fwTable + 4096 * k + 8 * ix) (leBytes 8 v)
  let p := fun k => fwTable + 4096 * k + 1
  let s := e s 0 0 (p 1)
  let s := e s 1 0 (p 2)
  let s := e s 2 0 (p 3)
  let s := e s 3 0 (p 4)
  e s 4 1 (fwFrame * 65536 + 2 ^ 14 + 0x1F)

/-- A cell of 32 lanes of context 0 on studio 0, its one group in slot 0 with a run in flight at the line. -/
def fwCell : Cell :=
  let e : Entry := ⟨BitVec.ofNat 64 fwVa, 0xFFFFFFFF, 0, 0, false, .no⟩
  let u : Run := { start := BitVec.ofNat 64 fwVa, pc := BitVec.ofNat 64 fwVa, handler := false, temps := [], popped := [],
                   empty := [], pend := [], hist := [], nres := 1, held := false, last := false }
  let g : Group := { (default : Group) with entries := [e], run := some u, settled := true }
  { (default : Cell) with place := .resident, nstage := 1, shape := 32, budget := 32, groups := [(0, g)] }

/-- A fresh cell number. -/
def freshCell (s : State) : Nat := s.cells.foldl (fun n c => max n (c.1 + 1)) 0

end State
end Sys2Proof.Machine
end

