-- ==== Sys2Proof/Machine/EvCells.lean ====
section
/-! DEFINITION. Events of cells: admission (R28, R29, R383, R384), pre-emption and restore (R50, R51, R385, R434), rivals (R364),
retirement and the end of a task (R53, R365, R370, R386). -/
namespace Sys2Proof.Machine
open Sys2Proof State

/-! ### The walk table (R398, R399) -/

def walkDescOk (d : List (BitVec 8)) : Bool :=
  let w := field d 8 4
  let nd := bits w 10 8 + 1
  field d 0 8 < 2 ^ 57 && bits w 31 11 == 0 && !w.testBit 7 && (tyOf (bits w 3 0)).width ≤ 32 && zeroAt d 120 8
  && (List.range 8).all fun k => if k < nd then field d (16 + 4 * k) 4 != 0 else field d (16 + 4 * k) 4 == 0 && field d (48 + 8 * k) 8 == 0
def walkHeaderOk (h : List (BitVec 8)) : Bool :=
  field h 0 2 ≤ 32 && zeroAt h 2 6 && (field h 8 8 == 0 || wellFormedPc (BitVec.ofNat 64 (field h 8 8)))
/-- The walks of a table read whole; none where it is malformed. -/
def walksOf (h b : List (BitVec 8)) : Option (List Walk) :=
  let ds := (List.range (field h 0 2)).map fun i => (b.drop (128 * i)).take 128
  if walkHeaderOk h && ds.all walkDescOk then some (ds.map fun d => { desc := d, iter := List.replicate (walkNd d) 0, grp := 0, state := 0 })
  else none
/-- Read the table at a new cell's g95. A table that cannot be read counts as malformed; a migrating page waits. -/
def startWalks (n : Nat) (s : State) : Except Nat State :=
  let a := (s.group ⟨n, 0⟩).greg 95
  if a = 0 then .ok s else
  let w := s.whoOf n
  let get := fun (va len : Nat) (s : State) => (match readVa w false 8 va len s with
    | .ok (s, b) => .ok (s, some b)
    | .error y => if y.hold then .error 0 else .ok (s, none) : Except Nat (State × Option (List (BitVec 8))))
  let bad := fun (s : State) => s.modCell n fun c => { c with badWalks := true, walkTable := a }
  do
  if a.toNat % 8 ≠ 0 ∨ 2 ^ 57 ≤ a.toNat then return bad s
  match ← get a.toNat 16 s with
  | (s, none) => return bad s
  | (s, some h) =>
    if !walkHeaderOk h then return bad s
    match ← get (a.toNat + 16) (128 * field h 0 2) s with
    | (s, none) => return bad s
    | (s, some b) =>
      match walksOf h b with
      | none => return bad s
      | some ws => return s.modCell n fun c => { c with walks := ws, walkTable := a, sketchEntry := BitVec.ofNat 64 (field h 8 8) }

/-! ### Creating a cell (R28, R166, R249, R428, R434) -/

/-- Map `n` pages at `va` for a context, listed as arena `a`'s; an error 0 where the place is taken or no frame is free. -/
def mapFor (c a : Nat) (charged : Bool) (va n : Nat) (s : State) : Except Nat State :=
  let root := (s.ctx c).root.toNat
  if (List.range n).any fun i => (s.walk root (va + 65536 * i)).isSome then .error 0 else
  match mapPages root a n va n s with
  | some s => .ok (listPages c a (s.arena a).gen charged va n s)
  | none => .error 0
/-- Per-thread pages of a slot: mapped at their first cell; undefined again at a later one. -/
def threadPages (c a base : Nat) (gs : List Nat) (s : State) : Except Nat State :=
  gs.foldlM (fun s g =>
    let va := (base + g * 2 ^ 21) % 2 ^ 57
    if (s.pageOf c va).any (fun p => p.arena == a && !p.dead) then
      .ok ((List.range 32).foldl (fun s i =>
        match s.pageOf c (va + 65536 * i), s.walk (s.ctx c).root.toNat (va + 65536 * i) with
        | some p, some (leaf, _, _) => if p.charged then s.freeFill (leafFrame leaf) else s
        | _, _ => s) s)
    else mapFor c a false va 32 s) s
/-- The lowest per-thread slot no cell of the task holds. -/
def freePtSlot (t : BitVec 64) (s : State) : Option Nat :=
  firstFree (fun i => s.cells.any fun c => c.2.ticket == t && c.2.ptSlot == i) 0 3072
/-- A cell of a task as it is created, before it has a place. -/
def freshCellOf (x : Task) (i slot : Nat) (ptbase : BitVec 57) (view : Nat) (role : Role) : Cell :=
  let r := x.lrec
  let gang := i / r.s
  { (default : Cell) with
    place := .unplaced, view := view, ctx := x.ctx, ticket := x.ticket, tag := x.tag, idx := i, x := BitVec.ofNat 20 (gang % r.x),
    y := BitVec.ofNat 20 (gang / r.x % r.y), z := BitVec.ofNat 20 (gang / r.x / r.y), stage := i % r.s, nstage := r.s, world := 0,
    shape := r.shape, budget := r.budget, tileCount := r.tiles, scratchSz := r.scratch, lstoreSz := r.lstore, pal := r.pal,
    prio := r.prio, ptbase := ptbase, ptSlot := slot, role := role }
/-- A group at cell creation: one entry of the existing lanes at the kernel's entry, the preloads in place, TRAPSAVE at its frame in the
save area mapped at `trapsave`. -/
def newGroup (c : Cell) (r : LRec) (g : Nat) (prio : BitVec 6) (trapsave : Nat) : Group :=
  { (default : Group) with
    entries := [⟨r.entry, c.existMask g, prio, 0, false, .no⟩], gregs := r.pre.foldl (fun m x => Map.put 0 x.1 x.2 m) [],
    trapsave := BitVec.ofNat 64 (trapsave + frameAt c.budget g), settled := true, first := true }
/-- Put a new cell on a studio. The initial entries have the priority of the kernel entry's line; where that line cannot be read at this
moment (its page absent or migrating by now) they have priority 0: DESIGN CHOICE, R31 names no other (log 112). -/
def installCell (n k : Nat) (x : Task) (c : Cell) (trapsave : Nat) (s : State) : Except Nat State :=
  let s := { s with cells := Map.ins n { c with studio := k } s.cells }
  let prio := s.priorityAt (s.whoOf n) x.lrec.entry 0
  let gs := (List.range c.groupCount).map fun g => (g, newGroup c x.lrec g prio trapsave)
  startWalks n (placeCell n k (s.modCell n fun c => { c with groups := gs }))
/-- Views of a shadowed cell: original and copy under the task's view; none where tags or arenas are short (R370). -/
def shadowViews (x : Task) (s : State) : Option (State × Nat × Nat) := do
  if (freeViews s).length < 2 then none
  let crown := recCrown x.ctx x.lrec s
  let (s, a) ← openView crown x.ctx 2 x.view noLimit 0 s
  let (s, b) ← openView crown x.ctx 3 x.view noLimit 0 s
  return (s, a, b)
/-- Shadowing is possible for a task (R437, R460). -/
def mayShadow (x : Task) (s : State) : Bool :=
  let f := if x.lrec.shadow = 0 then (s.ctx x.ctx).shadowDefault.toNat else x.lrec.shadow
  f ≠ 31 && s.featOn 3
/-- A studio for a shadow copy: on another die where one can take it, else any (R370). `rest` are the studios planned for cells still to
come, whose room is kept (R14). -/
def copyStudio (x : Task) (k : Nat) (rest : List Nat) (s : State) : Option Nat :=
  let can := fun j => canTake j x.ctx x.lrec.pal x.lrec.load ((rest.filter (· == j)).map fun _ => x.lrec.load) s
  ((List.range 192).find? fun j => dieOf j != dieOf k && can j).orElse fun _ => (List.range 192).find? can
/-- The cell with its copy beside it, where it is drawn, two tags are free and a studio can take the copy, which has a save area and a
palette charge of its own (R250, R434). -/
def installPair (n k : Nat) (x : Task) (c : Cell) (draw : Bool) (ts : Nat) (rest : List Nat) (s : State) : Except Nat State := do
  let plain := installCell n k x { c with view := x.view, role := .plain } ts s
  if !draw then return ← plain
  match shadowViews x s with
  | none => plain
  | some (s, a, b) =>
    let s1 ← installCell n k x { c with view := a, role := .original (n + 1) } ts s
    match copyStudio x k rest s1 with
    | none => plain
    | some j =>
      let s1 ← chargePalette j x.ctx x.lrec.pal s1
      giveArea (n + 1) (← installCell (n + 1) j x { c with view := b, role := .copy n, area := [] } ts s1)
/-- Frames that a context's pages from `va` stand in. -/
def framesAt (c va n : Nat) (s : State) : List Nat :=
  (List.range n).filterMap fun i => (s.walk (s.ctx c).root.toNat (va + 65536 * i)).map fun x => leafFrame x.1
/-- Pages of a cell's save area under a record. -/
def LRec.areaPages (r : LRec) : Nat := savePages r.shape r.budget r.scratch r.lstore
/-- Admit cell `i` of a task on studio `k`, its save area at `ts`: an error 0 waits, any other is the refused charge of QUOTA. -/
def admitCell (x : Task) (i k : Nat) (ptbase : BitVec 57) (ts : Nat) (draw : Bool) (rest : List Nat) (s : State) : Except Nat State := do
  let crown := recCrown x.ctx x.lrec s
  if !canTake k x.ctx x.lrec.pal x.lrec.load [] s then .error 0
  let some slot := freePtSlot x.ticket s | .error 0
  let s ← chargePalette k x.ctx x.lrec.pal s
  let n := x.lrec.areaPages
  let some s := s.chargePages crown n | .error 1
  let s ← mapFor x.ctx crown true ts n s
  let c := { freshCellOf x i slot ptbase x.view .plain with area := framesAt x.ctx ts n s }
  let s ← threadPages x.ctx x.ptArena (ptbase.toNat + 16 * slot * 2 ^ 21) (List.range c.groupCount) s
  installPair s.freshCell k x c (draw && mayShadow x s) ts rest s
/-- Admit the planned cells; their save areas follow one another from `ts` on, and a cell after the first is drawn freely. -/
def admitCells (x : Task) (ptbase : BitVec 57) (shadow : Bool) : List Nat → Nat → Nat → State → Except Nat State
  | [], _, _, s => .ok s
  | k :: ks, j, ts, s => do
    let draw := if j = 0 then shadow else Config.freeBool s.fresh
    let s ← admitCell x (x.next + j) k ptbase ts draw ks s.tick
    admitCells x ptbase shadow ks (j + 1) (ts + 65536 * x.lrec.areaPages) s

/-! ### Admission (R24, R166, R368, R383, R384, R460) -/

/-- The launch starts: it keeps the capacity figures latched at its admission (R24), its shadow rate (R437) and what memory holds, and every
studio's read-only path is invalidated (R148, R172). -/
def markStart (t : BitVec 64) (s : State) : State :=
  let m := s.module
  let s : State := { s with studios := s.studios.map fun k => (k.1, { k.2 with ro := [] }) }
  s.modTask t fun x =>
    { x with lrec := { x.lrec with shadow := if x.lrec.shadow = 0 then (s.ctx x.ctx).shadowDefault.toNat else x.lrec.shadow },
             caps := (m.capStudio, m.capSlice, m.capChan, m.capLane), startMem := s.mem, startL2 := s.l2, startOut := [], startBad := s.poison }
/-- What the first cells of a launch bring: capacities latched, features locked, the snapshot view, the per-thread arena. -/
def openLaunch (x : Task) (s : State) : Except Nat State := do
  let s := markStart x.ticket (s.latchCapacity.modModule fun m => { m with featLocked := true })
  let crown := recCrown x.ctx x.lrec s
  if x.lrec.snap && (freeViews s).isEmpty then .error 0
  let s ← (if !x.lrec.snap then .ok s else
    match openView crown x.ctx 1 0 (if x.lrec.squota = 0 then noLimit else x.lrec.squota) 0 s with
    | some (s, v) => .ok (s.modTask x.ticket fun y => { y with view := v })
    | none => .error 1 : Except Nat State)
  match childArena crown { parent := 0, depth := 0, owner := x.ctx, quota := noLimit, resv := 0, pt := true, task := x.ticket } s with
  | .ok (s, a) => return s.modTask x.ticket fun y => { y with ptArena := a }
  | .error _ => .error 1
/-- Views a task's cells run in, with every view beneath them, end with the task. -/
def taskCellsOf (t : BitVec 64) (s : State) : List (Nat × Cell) := s.cells.filter fun c => c.2.ticket == t
/-- A failing task whose last cell is gone: its view discarded, its end (R386). -/
def finishFailed (t : BitVec 64) (s : State) : State :=
  match s.task t with
  | none => s
  | some x =>
    if !x.failing || !(taskCellsOf t s).isEmpty then s else
    let s := if x.view = 0 then s else discardView 8 x.view s
    endTask (s.tasks.length + 1) false t 8 (s.modTask t fun y => { y with view := 0 })
/-- A task fails, with or without cells. -/
def failLaunch (t : BitVec 64) (code : BitVec 8) (s : State) : State := finishFailed t (s.failTask t code)
/-- Admit the next cells of the task whose turn it is. -/
def admitLaunch (x : Task) (p : Placement) (s : State) : Except Nat State := do
  let s ← if x.next = 0 then openLaunch x s else .ok s
  let some y := s.task x.ticket | .error 0
  match planTask y s with
  | none => if y.lrec.cores && !couldFit y s then .error 1 else .error 0
  | some ks =>
    let s ← admitCells y p.ptbase p.shadow ks 0 p.trapsave.toNat s
    let s := s.modTask y.ticket fun z => { z with next := z.next + ks.length }
    return movePointer y (if y.state = 5 then setTaskState y.ticket 6 s else s)
/-- Addresses the controller may give: pages of their own, one per-thread base for a task. -/
def placementOk (p : Placement) (s : State) : Bool :=
  p.ptbase.toNat % 65536 == 0 && p.trapsave.toNat % 65536 == 0 && p.trapsave != 0
  && (taskCellsOf p.ticket s).all fun c => c.2.ptbase == p.ptbase
/-- R383: the next cells of the task whose turn it is, saved cells before them; QUOTA ends the task (R384, R434). -/
def execCellAdmission (p : Placement) (s : State) : Host.Outcome State Fault Refusal :=
  .next (match nextTask s with
    | none => s
    | some x =>
      if s.module.bootFailed ∨ x.ticket ≠ p.ticket ∨ !(savedCells x.ticket s).isEmpty ∨ !placementOk p s then s else
      match admitLaunch x p s with
      | .ok s => s
      | .error 0 => s
      | .error _ => if x.next = 0 then failNow x.ticket fQuota 0 s else failLaunch x.ticket fQuota s)

/-! ### Pre-emption and restore (R50, R51, R250, R385) -/

/-- The cells that stop together: all of a co-resident task, else one. -/
def gangOf (n : Nat) (s : State) : List Nat :=
  let c := s.cell n
  match s.task c.ticket with
  | some x => if x.lrec.cores then ((taskCellsOf c.ticket s).filter fun d => d.2.place == .resident).map Prod.fst else [n]
  | none => [n]
/-- The victim of R385: lowest priority below `p`, the most recently admitted of it. -/
def victim (p : Nat) (s : State) : Option Nat :=
  let cs := s.cells.filter fun c => c.2.place == .resident && c.2.prio < p
  (cs.foldl (fun (b : Option (Nat × Cell)) c => match b with
    | some (_, d) => if c.2.prio < d.prio || (c.2.prio == d.prio && d.adm < c.2.adm) then some c else b
    | none => some c) none).map Prod.fst
/-- Whether a studio may take a saved or clone cell back. -/
def mayTake (n k : Nat) (more : List Load) (s : State) : Bool :=
  let c := s.cell n
  canTake k c.ctx c.pal c.load more s && (!c.pal || k == c.studio || !s.inService (.studio c.studio))
/-- The studio of the cell before it in its gang. -/
def stageBefore (c : Cell) (s : State) : Option Nat :=
  if c.stage = 0 then none else (stageCell c (c.stage - 1) s).map fun m => (s.cell m).studio
/-- The studio a cell is restored on, under R29 and R250. -/
def restoreStudio (n : Nat) (s : State) : Option Nat := chooseStudio (stageBefore (s.cell n) s) fun k => mayTake n k [] s
/-- The palette of a retired studio follows its cell (R250): what it holds goes to the context's save area for that studio, and from there
to the studio where the cell is restored. An uncorrectable error of the read, which the spec leaves to the hardware, ends or rolls back
the task. -/
def followPalette (n old k : Nat) (s : State) : State :=
  let c := s.cell n
  if !c.pal ∨ old = k then s else
  let s := if (s.studio old).owner = some c.ctx then savePalette old s else s
  if Config.freeBool s.fresh then
    (if s.rollsBack n fMemUncorr then s.tick.requestRollback c.ticket fMemUncorr else s.tick.failTask c.ticket fMemUncorr)
  else loadPalette k old c.ctx (changeOwner k c.ctx s.tick)
/-- A cell comes to a studio with its palette's save area there: none where that waits for frames. A refused charge fails the task with
QUOTA, its sub-cause 4 nowhere to be read (R250, R427, R430): the cell stays where it is. -/
def comeTo (n k : Nat) (place : State → State) (s : State) : Option State :=
  let c := s.cell n
  match chargePalette k c.ctx c.pal s with
  | .ok s => some (place s)
  | .error 0 => none
  | .error _ => some (s.failTask c.ticket fQuota)
/-- Restore one cell on studio `k`; `f` follows where it comes to stand there. -/
def restoreOne (n k : Nat) (f : State → State) (s : State) : Option State :=
  comeTo n k (fun s' => f (placeCell n k (followPalette n (s.cell n).studio k s'))) s
/-- Restore cells one after another; none where one has no place. -/
def restoreAll : List Nat → State → Option State
  | [], s => some s
  | n :: r, s => do
    let k ← restoreStudio n s
    restoreAll r (← restoreOne n k id s)
/-- The cells of a saved task in the order of their numbers (R51). -/
def savedOrder (x : Task) (s : State) : List (Nat × Cell) := (savedCells x.ticket s).mergeSort fun a b => a.2.idx ≤ b.2.idx
/-- What is restored together: the head, or a co-resident task whole. -/
def restoreUnit (x : Task) (s : State) : List Nat :=
  let saved := (savedOrder x s).map Prod.fst
  if x.lrec.cores then saved else saved.take 1
/-- The next task's head does not fit (R385): its saved cells first, then those not yet placed. -/
def headStuck (x : Task) (s : State) : Bool :=
  match restoreUnit x s with
  | [] => (planTask x s).isNone
  | g => (restoreAll g s).isNone
/-- R385, R50: the victim of an admissible task that cannot be admitted, be it the next in turn or not, or any cell of a studio that leaves
service, is saved with its gang once all can stop. -/
def execPreemptCell (n : Nat) (s : State) : Host.Outcome State Fault Refusal :=
  let due := (s.tasks.any fun x => x.state == 5 && wantsAdmission x s && headStuck x s && victim x.lrec.prio s == some n) || !s.inService (.studio (s.cell n).studio)
  let g := gangOf n s
  .next (if due ∧ (s.cell n).place = .resident ∧ g.all (fun m => canStop m s) then g.foldl (fun s m => saveCell m s) s else s)

/-- R51: the head of the next task's order is restored, a co-resident task whole; one that the module could not hold any more, with every
studio empty, fails with QUOTA, as one not yet admitted does (R384, R385, R395). -/
def execRestoreCell (n k : Nat) (s : State) : Host.Outcome State Fault Refusal :=
  .next (match nextTask s with
    | none => s
    | some x =>
      if (restoreUnit x s).head? ≠ some n then s
      else if x.lrec.cores && !couldFit x s then failLaunch x.ticket fQuota s
      else if restoreStudio n s ≠ some k then s else
      match restoreAll (restoreUnit x s) s with
      | some s => movePointer x s
      | none => s)

/-! ### Rivals (R364) -/

/-- The answer of a fork arrives in its leader group: gD, and pF false. -/
def answerFork (n leader dst : Nat) (x : BitVec 64) (s : State) : State :=
  let r : GRef := ⟨n, leader⟩
  match (s.group r).outs.find? fun p => p.fork with
  | none => s
  | some p =>
    let s := s.modGroup r fun g => { g with outs := g.outs.filter fun q => !q.fork }
    s.complete r { p with writes := p.writes ++ [.g dst x] }
/-- Clone `k` of a stopped cell in view `v`. -/
def makeClone (n m : Nat) (f : Fork) (k v : Nat) (s : State) : State :=
  let c := s.cell n
  let d := { c with place := .unplaced, area := [], rival := true, view := v, world := BitVec.ofNat 3 k, fork := none, wrec := none, role := .plain,
                    groups := c.groups.map fun g => (g.1, { wokenGroup g.2 with msgs := [] }) }
  answerFork m f.leader f.dst 1 { s with cells := Map.ins m d s.cells }
def makeClones (n : Nat) (f : Fork) : List Nat → Nat → State → State
  | [], _, s => s
  | v :: r, k, s => makeClones n f r (k + 1) (makeClone n s.freshCell f k v s)
/-- The fork takes effect: the cell saved in its save area with its world's record, its clones made. -/
def takeFork (n : Nat) (f : Fork) (s : State) : State :=
  let w : World := { unresolved := true, first := f.views.headD 0, views := f.views, leader := f.leader, dst := f.dst,
                     words := f.views.map fun _ => (0, 0) }
  makeClones n f f.views 0 (stowCell n (fun c => { c with place := .forked, fork := none, wrec := some w }) s)
/-- The clone of a view. -/
def cloneIn (v : Nat) (s : State) : Option Nat := (s.cells.find? fun c => c.2.rival && c.2.view == v).map Prod.fst
/-- Clones are placed in index order. -/
def cloneTurn (n : Nat) (s : State) : Bool :=
  let c := s.cell n
  !(s.cells.any fun d => d.2.rival && d.2.place == .unplaced && (s.view d.2.view).parent == (s.view c.view).parent
    && d.2.ticket == c.ticket && d.2.idx == c.idx && d.2.world.toNat < c.world.toNat)
/-- A clone comes to a studio, with its save area and its palette charge; a refused charge fails its task with QUOTA (R250, R434). -/
def placeClone (n k : Nat) (s : State) : State :=
  let c := s.cell n
  if !canTake k c.ctx c.pal c.load [] s then s else
  match giveArea n s with
  | .error 0 => s
  | .error _ => s.failTask c.ticket fQuota
  | .ok t => (comeTo n k (placeCell n k) t).getD s
/-- A co-resident task of another ticket waits for its cells, and none of a priority up to its own is admitted meanwhile (R384). -/
def gangWaits (c : Cell) (s : State) : Bool :=
  match nextTask s with
  | some x => x.lrec.cores && x.ticket != c.ticket && c.prio ≤ x.lrec.prio
  | none => false
/-- R364: a fork takes effect, rival 0 on the cell's studio; or a clone finds a studio. -/
def execRivalAdmission (n k : Nat) (s : State) : Host.Outcome State Fault Refusal :=
  let c := s.cell n
  .next (match c.fork with
    | some f =>
      if k ≠ c.studio ∨ !canStop n s then s else
      let s := takeFork n f s
      (match cloneIn (f.views.headD 0) s with
       | some m => placeClone m k s
       | none => s)
    | none =>
      if c.rival ∧ c.place = .unplaced ∧ cloneTurn n s ∧ !gangWaits c s then placeClone n k s else s)
/-- R364: every rival has ended; the cell is restored with gD := 0. -/
def execWorldParentRestore (n k : Nat) (s : State) : Host.Outcome State Fault Refusal :=
  let c := s.cell n
  .next (match c.wrec with
    | some w =>
      if c.place = .forked ∧ w.unresolved ∧ w.views.all (fun v => (s.view v).state == 2) ∧ restoreStudio n s = some k then
        (restoreOne n k (answerFork n w.leader w.dst 0) s).getD s
      else s
    | none => s)

/-! ### Retirement (R53, R259, R338, R365, R370) -/

/-- Nothing of the cell runs, and every command it issued has completed. A late fault that a done group holds has no run left to be
delivered before: it is discarded (R53, R143). -/
def cellIdle (n : Nat) (s : State) : Bool :=
  let c := s.cell n
  c.cmds.isEmpty && c.brush.isEmpty && c.fills.all (fun f => !f.2.busy) && c.fork.isNone
  && !(s.studio c.studio).zaps.any (fun z => z.cell == n)
  && c.groups.all fun g => g.2.entries.isEmpty && g.2.run.isNone && g.2.outs.isEmpty && g.2.msgs.isEmpty
/-- A rival stops at `wend`, or when its lanes have exited: runs over, started commands complete. -/
def rivalOver (n : Nat) (s : State) : Bool :=
  let c := s.cell n
  c.rival && c.place == .resident && c.fork.isNone
  && ((c.ended && c.cmds.all (fun x => !x.started) && c.fills.all (fun f => !f.2.busy) && !c.brush.any (·.started)
       && c.groups.all fun g => g.2.run.isNone && g.2.outs.isEmpty) || cellIdle n s)
/-- Views under `v`, itself among them; `n` bounds the depth. -/
def viewTree : Nat → Nat → State → List Nat
  | 0, _, _ => []
  | n + 1, v, s => v :: (s.views.filter fun w => w.1 != v && w.2.state != 0 && w.2.parent == v).flatMap fun w => viewTree n w.1 s
/-- Discard a view with the cells that run in it or beneath it. -/
def dropView (v : Nat) (s : State) : State :=
  let vs := viewTree 8 v s
  let cs := (s.cells.filter fun c => vs.contains c.2.view).map Prod.fst
  discardView 8 v (cs.foldl (fun s n => removeCell n s) s)
/-- An unresolved world is aborted before its cell goes (R366). -/
def abortWorld (n : Nat) (s : State) : State :=
  match (s.cell n).wrec with
  | some w => if !w.unresolved then s else
      let s := w.views.foldl (fun s v => dropView v s) s
      s.modCell n fun c => { c with wrec := some { w with unresolved := false } }
  | none => s
/-- A rival ends: its view is ended, its words stand in the parent's record, its resources return (R365). A tile's pending uncorr raises
nothing then: DESIGN CHOICE, R259 speaks only of a cell that retires (log 113). -/
def endRival (n : Nat) (s : State) : State :=
  let c := s.cell n
  let s := abortWorld n (releaseCell n s)
  let s := s.modView c.view fun v => if v.wended then { v with state := 2 } else { v with state := 2, score := BitVec.allOnes 64 }
  let v := s.view c.view
  let words := fun (w : World) => (w.views.zip w.words).map fun x => if x.1 = c.view then (viewWord0 v, v.score) else x.2
  let s := { s with cells := s.cells.map fun d => match d.2.wrec with
    | some w => if w.unresolved ∧ w.views.contains c.view then (d.1, { d.2 with wrec := some { w with words := words w } }) else d
    | none => d }
  removeCell n s
/-- Regions private to a cell become invalid (R338). -/
def dropCellRegions (c : Cell) (s : State) : State :=
  s.modCtx c.ctx fun x => { x with regions := x.regions.filter fun r => !(r.2.mode == 1 && r.2.task == c.tag && r.2.slot == c.ptSlot) }
/-- Save-area pages, trap frames and cell-private regions go back (R338, R434). -/
def freeSaveArea (c : Cell) (s : State) : State :=
  let r := match s.task c.ticket with | some x => x.lrec | none => default
  let crown := recCrown c.ctx r s
  let s := s.subCharge crown (savePages c.shape c.budget c.scratchSz c.lstoreSz)
  let n := c.areaPages
  let va := (Map.getD c.groups 0 default).trapsave.toNat - frameAt c.budget 0
  let s := dropCellRegions c s
  let s := (List.range n).foldl (fun s i =>
    match s.walk (s.ctx c.ctx).root.toNat (va + 65536 * i) with
    | some (_, _, at') => { (s.setLeafAt at' 0) with pages := Map.del (pageKey c.ctx (va + 65536 * i)) s.pages }
    | none => s) s
  let (s, id) := startShoot c.ctx va (65536 * n) c.area s
  finishShoot id s
/-- The area of a cell that has one mapped leaves the cell with it. -/
def leaveArea (n : Nat) (s : State) : State := (freeSaveArea (s.cell n) s).modCell n fun c => { c with area := [] }
/-- Commit a view and wait for its shoot-downs. -/
def commitNow (v : Nat) (s : State) : State :=
  let (s, ids, _) := commitView v (s.modView v fun w => { w with state := 2 })
  ids.foldl (fun s id => finishShoot id s) s
/-- The last cell of a task has retired: done (R386). -/
def taskDone (x : Task) (s : State) : State :=
  let s := if x.view = 0 then s else (commitNow x.view s).modTask x.ticket fun y => { y with view := 0 }
  endTask (s.tasks.length + 1) false x.ticket 7 s
/-- Count a retired cell and end the task after its last. -/
def countRetired (t : BitVec 64) (s : State) : State :=
  let s := s.modTask t fun x => { x with retired := x.retired + 1 }
  match s.task t with
  | some x => if x.lrec.cells ≤ x.retired ∧ !x.failing ∧ x.replay.isNone then taskDone x s else s
  | none => s
/-- A shadowed cell's signature (R437). -/
def signature (c : Cell) : BitVec 64 := crcBytes 0 (c.groups.flatMap fun g => leBytes 8 g.2.crc.toNat)
/-- The cell keeps only its signature until the other run has retired (R438). -/
def awaitCompare (n : Nat) (s : State) : State :=
  let c := s.cell n
  (leaveStudio n s).modCell n fun x => { x with place := .unplaced, view := 0, sigDone := some (signature c) }
/-- The resolution of a shadow view, and whether the cell counts for its task. -/
def retireCell (n : Nat) (s : State) : State :=
  let c := s.cell n
  let s := abortWorld n (releaseCell n s)
  let use := if c.view = 0 then 1 else (s.view c.view).use.toNat
  match use with
  | 2 =>
    let s := commitNow c.view s
    match c.role with
    | .original _ => awaitCompare n (dropCellRegions c s)
    | _ => countRetired c.ticket (removeCell n (leaveArea n s))
  | 3 =>
    let s := discardView 8 c.view s
    match c.role with
    | .copy _ => awaitCompare n s
    | _ => removeCell n s
  | _ => countRetired c.ticket (removeCell n (leaveArea n s))
/-- A cell of a failing task ends where it stands. -/
def dropCell (n : Nat) (s : State) : State :=
  let c := s.cell n
  let s := abortWorld n s
  let s := match c.fork with | some f => f.views.foldl (fun s v => discardView 8 v s) s | none => s
  -- a rival's tag is its parent's to free
  let own := c.view ≠ 0 && (s.view c.view).use.toNat ≠ 1 && !c.rival
  let s := if own then dropView c.view s else s
  let s := if c.rival || (match c.role with | .copy _ => true | _ => false) then s else leaveArea n s
  finishFailed c.ticket (removeCell n s)
/-- R53, R365: a cell of a failing task ends; a rival ends; a cell with all done retires, a pending uncorr being its
task's TILE_UNCORR (R259); an original whose copy has ended early leaves. -/
def execCellRetirement (n : Nat) (s : State) : Host.Outcome State Fault Refusal :=
  let c := s.cell n
  .next (if (Map.find n s.cells).isNone then s
    else if (match s.task c.ticket with | some x => x.failing | none => false) then dropCell n s
    else if s.stopped n then s
    else if rivalOver n s then endRival n s
    else if c.rival then s
    else if c.sigDone.isSome then
      (match c.role with
       | .plain => countRetired c.ticket (removeCell n (leaveArea n s))
       | _ => s)
    else if c.place = .resident ∧ cellIdle n s then
      (if c.tiles.any (fun t => uncorr t.2) then
         let s := s.modCell n fun y => { y with tiles := [] }
         if s.rollsBack n fTileUncorr then s.requestRollback c.ticket fTileUncorr else s.failTask c.ticket fTileUncorr
       else retireCell n s)
    else s)

end Sys2Proof.Machine
end

