-- ==== Sys2Proof/Machine/EvRecovery.lean ====
section
/-! DEFINITION. Events of recovery: rollback and replay (R435), shadow comparison (R437, R438), checkpoints (R440), recovery
(R441), containment resets (R442, R443), error reports and self-tests (R444). -/
namespace Sys2Proof.Machine
open Sys2Proof State

/-! ### Rollback (R435) -/

/-- Every cell of a task is removed, its save area and private regions returned. -/
def removeCells (t : BitVec 64) (s : State) : State :=
  (taskCellsOf t s).foldl (fun s c =>
    let s := if c.2.rival || (match c.2.role with | .copy _ => true | _ => false) then s else leaveArea c.1 s
    removeCell c.1 s) s
/-- Every arena the task's cells created is dropped. -/
def dropTaskArenas (t : BitVec 64) (s : State) : State :=
  let as := (s.arenas.filter fun a => a.2.task == t && t != 0).map Prod.fst
  as.foldl (fun s a => if (s.arena a).state = 1 ∨ (s.arena a).state = 2 then (dropTree a [] s).1 else s) s
/-- Views of a task's cells that stand beside its launch view: those of shadows in the base, and of rivals, one that has ended among them. -/
def dropTaskViews (x : Task) (s : State) : State :=
  let vs := ((taskCellsOf x.ticket s).flatMap fun c =>
    c.2.view :: (c.2.fork.elim [] (·.views) ++ c.2.wrec.elim [] fun w => if w.unresolved then w.views else [])).filter (· ≠ 0)
  let s := vs.foldl (fun s v => if (s.view v).state = 0 then s else discardView 8 v s) s
  if x.view ≠ 0 ∧ (s.view x.view).state ≠ 0 then discardView 8 x.view s else s
/-- R435: cells, view and arenas go, ROLLBACK is recorded, the task is readied anew; the third time it fails. Its share and its state are
journalled (R388). -/
def rollBack (x : Task) (code : BitVec 8) (s : State) : State :=
  let s := dropTaskViews x s
  let s := dropTaskArenas x.ticket (dropPt x (removeCells x.ticket s))
  let n := x.rollbacks + 1
  let s := s.report x.ctx (errRecord 0x42 5 0 n 0 0 0 x.ticket)
  let s := (journalCtl x.ctx 2 x.ticket.toNat 0 s).modTask x.ticket fun y =>
    { y with rollbacks := n, replay := none, next := 0, retired := 0, view := 0, ptArena := 0, share := 0, shared := false, iters := 0, tileLen := 0 }
  if 3 ≤ n then failNow x.ticket code 0 s else setTaskState x.ticket 4 s
def execRollback (t : BitVec 64) (s : State) : Host.Outcome State Fault Refusal :=
  .next (match s.task t with
    | some x => match x.replay with
      | some code => if x.failing ∨ 7 ≤ x.state then s else rollBack x code s
      | none => s
    | none => s)

/-! ### Shadow comparison (R438) -/

/-- R438: signatures compared once both runs have retired; a mismatch is recorded, calls for the self-test of both studios (R444) and rolls a
protected launch back. -/
def execShadowCompare (a b : Nat) (s : State) : Host.Outcome State Fault Refusal :=
  let x := s.cell a
  let y := s.cell b
  .next (match x.sigDone, y.sigDone with
    | some p, some q =>
      if x.role ≠ .original b ∨ y.role ≠ .copy a ∨ s.stopped a then s else
      let s := s.modCtx x.ctx fun c => { c with shadowRun := satInc c.shadowRun }
      let s := removeCell b s
      if p = q then countRetired x.ticket (removeCell a (leaveArea a s)) else
      let s := s.report x.ctx (errRecord 0x41 5 0 0 0 0 0 x.ticket)
      let s := (s.modCtx x.ctx fun c => { c with shadowMism := satInc c.shadowMism }).callTest (.studio x.studio) |>.callTest (.studio y.studio)
      if (match s.task x.ticket with | some t => t.lrec.snap | none => false) then s.requestRollback x.ticket 0x41
      else countRetired x.ticket (removeCell a (leaveArea a s))
    | _, _ => s)

/-! ### Checkpoints (R440, R451) -/

/-- R440 phase 1 at one ground die: its journal position, a new undo epoch, the commit record. -/
def execCkptPrepareAck (c d : Nat) (s : State) : Host.Outcome State Fault Refusal :=
  .next (match Map.find c s.ckpts with
    | some k =>
      if 12 ≤ d ∨ k.unreachable ∨ (Map.find d k.acks).isSome then s else
      let j := (s.gessoOf d).pos
      let s := s.modGesso d fun g => { g with pos := g.pos + 1, commits := ⟨c, k.n, j, [], [], false⟩ :: g.commits }
      { s with ckpts := Map.ins c { k with acks := Map.ins d j k.acks } s.ckpts }
    | none => s)
/-- The list of (d, J_d) in die order. -/
def ckptList (k : Ckpt) : List (BitVec 8) := (List.range 12).flatMap fun d => leBytes 8 d ++ leBytes 8 (Map.getD k.acks d 0)
/-- The commit record of a checkpoint on a die. -/
def commitOn (c : Nat) (n : BitVec 64) (d : Nat) (s : State) : Option Commit := (s.gessoOf d).commits.find? fun k => k.ctx == c && k.n == n
/-- Every die holds a commit record whose stored digest is that of the stored list. -/
def wholeCkpt (c : Nat) (n : BitVec 64) (s : State) : Bool :=
  (List.range 12).all fun d => match commitOn c n d s with
    | some k => k.sealed && k.digest == Config.shake256 k.list
    | none => false
/-- Each die checks the digest against the list and stores both. -/
def storeSeal (c : Nat) (n : BitVec 64) (l dg : List (BitVec 8)) (s : State) : State :=
  (List.range 12).foldl (fun s d => s.modGesso d fun g =>
    { g with commits := g.commits.map fun k => if k.ctx == c && k.n == n && dg == Config.shake256 l then { k with list := l, digest := dg, sealed := true } else k }) s
/-- Commits of a context on a die up to number `n`, that one included: the epoch the checkpoint opened there. -/
def epochOf (c : Nat) (n : BitVec 64) (g : Gesso) : Nat :=
  ((g.commits.dropWhile fun k => !(k.ctx == c && k.n == n)).filter fun k => k.ctx == c).length
/-- Undo records before the previous whole checkpoint's epoch, and the release records it covers, are trimmed. -/
def trimJournals (c : Nat) (prev : BitVec 64) (s : State) : State :=
  (List.range 12).foldl (fun s d => s.modGesso d fun g =>
    { g with undo := g.undo.filter (fun u => !(u.ctx == c && u.epoch < epochOf c prev g)), rels := g.rels.filter fun r => (s.cell r.cell).ctx != c }) s
/-- The producers that `q` picks complete with `x` in their g registers. -/
def answerAll (q : Producer → Bool) (x : BitVec 64) (s : State) : State :=
  s.cells.foldl (fun s n => n.2.groups.foldl (fun s g =>
    let r : GRef := ⟨n.1, g.1⟩
    let s := s.modGroup r fun y => { y with outs := y.outs.filter fun p => !q p }
    (g.2.outs.filter q).foldl (fun s p =>
      s.complete r { p with writes := p.regs.map fun y => match y with | .g i => RegWrite.g i x | .v i => RegWrite.v 0 i 0 }) s) s) s
/-- The waiting `ckpt` gets its answer. -/
def answerCkpt (c : Nat) (x : BitVec 64) (s : State) : State := answerAll (fun p => p.ckpt == some c) x s
/-- CKPT_TORN of a context. -/
def noteTorn (c : Nat) (s : State) : State := s.report c (errRecord 0x43 5 0 0 0 0 0 0)
/-- R440 phase 2: whole or torn, and the result of `ckpt`. Writes that the journals of agents held up are tried anew (R167). -/
def execCkptSeal (c : Nat) (s : State) : Host.Outcome State Fault Refusal :=
  .next (match Map.find c s.ckpts with
    | none => s
    | some k =>
      if k.acks.length < 12 ∧ !k.unreachable then s else
      let l := ckptList k
      let s := if k.unreachable then s else storeSeal c k.n l (Config.shake256 l) s
      let s := { s with ckpts := Map.del c s.ckpts }
      if !k.unreachable && wholeCkpt c k.n s then
        let s := trimJournals c (s.ctx c).rpseq s
        answerCkpt c 0 (settleHeld (s.modCtx c fun x => { x with rpseq := k.n, rpqpos := k.addr.setWidth 64, ckptstat := BitVec.ofNat 64 (k.n.toNat * 4) }))
      else
        let s := s.modCtx c fun x => { x with ckptstat := BitVec.ofNat 64 (k.n.toNat * 4 + 2) }
        answerCkpt c 1 (noteTorn c s))

/-! ### Recovery (R441) -/

/-- A landing in a recoverable page of a context. -/
def landsRcv (c : Nat) (l : Landing) : Bool := match l.place with | .memory _ t _ => t.ctx == c && t.rcv | .scratch _ _ => false
/-- A line of L2 that recovery finds: it goes, a pinned one stays and takes what memory holds, its dirty bytes dropped (R163). -/
def forget (gone : Nat × Line → Bool) (s : State) : State :=
  { s with l2 := (s.l2.filter fun l => !gone l || l.2.pin).map fun l =>
      if gone l then (l.1, { l.2 with data := s.memLine l.1, dirty := 0, bad := Map.getD s.poison l.1 false }) else l }
/-- A context's undo records concern the frame: no other context has come to map it in its place (R5; log 127). -/
def undoReaches (c f : Nat) (s : State) : Bool :=
  let maps := fun c => (s.leavesOf c).any fun l => l.first ≤ f && f < l.first + l.count
  maps c || !(s.ctxs.map Prod.fst).any maps
/-- Cached copies of a context's recoverable lines go, replicas among them, with what copies have landed there; then every undo record after
the checkpoint is applied, newest first, but none to a frame that has become another context's. -/
def undoLines (c : Nat) (s : State) : State :=
  let mine := fun (l : Nat × Line) => l.2.ctx == c && l.2.rcv
  let s := forget mine s
  let s := { s with replicas := s.replicas.filter (fun l => !mine l),
                    landed := s.landed.filter (fun l => !landsRcv c l),
                    studios := s.studios.map fun k => (k.1, { k.2 with l1 := k.2.l1.filter (fun l => !mine l),
                                                                       reds := (k.2.reds.map fun b => { b with apps := b.apps.filter fun a => !(a.ctx == c && a.rcv) }).filter fun b => !b.apps.isEmpty }) }
  (List.range 12).foldl (fun s d =>
    let g := s.gessoOf d
    let e := epochOf c (s.ctx c).rpseq g
    (g.undo.filter fun u => u.ctx == c && e ≤ u.epoch && undoReaches c (u.line / 512) s).foldl (fun (s : State) u =>
      let m := u.data.zipIdx.foldl (fun m b => Map.put memDefault (128 * u.line + b.2) b.1 m) s.mem
      forget (fun l => l.1 == u.line) { s with mem := m, poison := Map.del u.line s.poison, replicas := s.replicas.filter fun r => r.1 / 64 != u.line }) s) s
/-- Running tasks of a context fail with a code, their cells ended at once. -/
def failRunning (c : Nat) (code : BitVec 8) (s : State) : State :=
  (s.tasks.filter fun x => x.ctx == c && x.state == 6).foldl (fun s x =>
    let s := s.failTask x.ticket code
    let s := dropTaskViews x s
    finishFailed x.ticket ((removeCells x.ticket s).modTask x.ticket fun y => { y with view := 0 })) s
/-- Arenas created after the last whole checkpoint's commit are dropped. -/
def dropLateArenas (c : Nat) (s : State) : State :=
  let as := (s.arenas.filter fun a => a.2.owner == c && (s.ctx c).rpseq.toNat ≤ a.2.since && !a.2.crown).map Prod.fst
  as.foldl (fun s a => if (s.arena a).owner = c ∧ ((s.arena a).state = 1 ∨ (s.arena a).state = 2) then (dropTree a [] s).1 else s) s
/-- Set the queue heads from the record at RPQPOS, and journal them; a word that cannot be read leaves its head. Only a migrating page is an
error here. -/
def resetHeads (c : Nat) (s : State) : Except Raise State :=
  (List.range 64).foldlM (fun s q =>
    match agentRead (.ctl c) 8 ((s.ctx c).rpqpos.toNat + 8 * q) 8 s with
    | .ok (s, b) => .ok (setHead c q (leNat b) s)
    | .error y => if y.hold then .error y else .ok s) s
/-- The replay entry's task, submitted on queue 0 with no ring entry. Only a migrating page is an error here. -/
def submitReplay (c : Nat) (s : State) : Except Raise State := do
  let a := (s.ctx c).rpentry
  if a = 0 then return s
  let (s, r) ← readLaunch c a.toNat s
  let t := ticketOf c 0 ((queue c 0 s).seq + 1)
  let s := modQueue c 0 (fun x => { x with seq := x.seq + 1 }) s
  let l : LRec := r.getD { (default : LRec) with done := recDone c a.toNat s }
  let x : Task := { (default : Task) with ticket := t, ctx := c, queue := 0, entryIdx := noEntry, state := 1, recAddr := a.setWidth 57,
                                           lrec := l, deps := l.deps, tag := freshTag s }
  let s := { s with tasks := s.tasks ++ [x] }
  return if r.isNone then failNow t fHandle 0 s else settleDeps t (setTaskState t 3 s)
/-- Entries past a reset head are taken again: host queues at their next scan, device queues now. A malformed descriptor disables its
queue. -/
def retakeEntries (c : Nat) (s : State) : State :=
  (List.range 64).foldl (fun s q =>
    let d := qdesc c q s
    if !d.ok then s.disableQueue c q
    else if !d.en then s
    else if d.dev then takeAll c q d.left s
    else s.kick (64 * c + q)) s
/-- R441 steps 3 and 4: the queues and the replay entry; they wait for a page that is migrating (R158). -/
def rejoin (c : Nat) (s : State) : State :=
  match resetHeads c s >>= submitReplay c with
  | .ok s => retakeEntries c (s.modCtx c fun x => { x with rejoin := false })
  | .error _ => s.modCtx c fun x => { x with rejoin := true }
/-- A checkpoint of a context in progress is torn, and recorded so (R430, R451). -/
def tearCkpt (c : Nat) (s : State) : State :=
  let s := s.modCtx c fun x => if bits x.ckptstat.toNat 1 0 = 1 then { x with ckptstat := x.ckptstat + 1 } else x
  if (Map.find c s.ckpts).isSome then noteTorn c { s with ckpts := Map.del c s.ckpts } else s
/-- R441. A checkpoint in progress is torn. -/
def recoverCtx (c : Nat) (s : State) : State :=
  rejoin c (tearCkpt c (failRunning c 0xFF (dropLateArenas c (undoLines c s))))
/-- R441; or what is left of a recovery that waits for a page. -/
def execRecovery (c : Nat) (s : State) : Host.Outcome State Fault Refusal :=
  .next (if !hasCtx c s ∨ (s.ctx c).rpseq = 0 then s else if (s.ctx c).rejoin then rejoin c s else recoverCtx c s)

/-! ### Codec engine resets (R467) -/

/-- Status code and state of an engine's status register. -/
def engStat (st code : Nat) : BitVec 64 := BitVec.ofNat 64 (st + 256 * code)
def engCtx (e : Engine) : Nat := bits e.ctl.toNat 7 2
/-- Write a status byte to the command at a ring index. -/
def engStatus (e : Nat) (i : Nat) (code : Nat) (s : State) : State :=
  let x := s.engine e
  let va := bits x.ring.toNat 56 6 * 64 + 64 * (i % 2 ^ bits x.ring.toNat 4 0) + 2
  putHeld s ⟨engCtx x, some e, va, .bytes 1 [BitVec.ofNat 8 code], 0⟩
/-- The command's working arena is dropped. -/
def dropWorking (c : Nat) (cmd : List (BitVec 8)) (s : State) : State :=
  match liveHandle c (BitVec.ofNat 64 (field cmd 40 8)) s with
  | .ok a => if (s.arena a).crown || (s.arena a).pt || (s.arena a).view then s else (dropTree a [] s).1
  | .error _ => s
/-- End the command in progress with a status: stream state is discarded. -/
def endCommand (e code : Nat) (s : State) : State :=
  let x := s.engine e
  match x.cmd with
  | none => s
  | some _ => (engStatus e x.cmdAt.toNat code s).modEngine e fun x => { x with cmd := none, row := 0, backGen := 0, stat := engStat 0 code }
/-- R467: the command in progress ends, ENGHEAD moves to ENGTAIL, the working arena goes. An engine takes a command only to start it, so none
is taken and not started; commands not taken are passed over. ENGCTL[1] is 0 again once the reset it asked for has been made: DESIGN
CHOICE, R464 and R467 do not say when it falls (log 109). -/
def resetEngine (e code : Nat) (s : State) : State :=
  let x := s.engine e
  let s := endCommand e code s
  let s := match x.cmd with | some cmd => dropWorking (engCtx x) cmd s | none => s
  s.modEngine e fun y => { y with head := y.tail, cmd := none, row := 0, backGen := 0, ctl := y.ctl &&& ~~~2,
                                  stat := engStat 0 (if x.cmd.isSome then code else bits y.stat.toNat 15 8) }

/-! ### Containment resets (R442, R443) -/

/-- Slices of a die write back what they can read; which lines cannot be read is open. -/
def flushDie (d : Nat) (s : State) : State × List Nat :=
  let ls := (s.l2.filter fun l => s.homeSlice (128 * l.1) / 16 == d).map Prod.fst
  ls.foldl (fun (x : State × List Nat) ln =>
    let l := Map.getD x.1.l2 ln default
    let bad := l.dirty != 0 && Config.freeBool x.1.fresh
    let s := evict .l2 ln bad { x.1.tick with l2 := Map.upd ln (fun y => { y with pin := false }) x.1.l2 }
    (s, if bad then l.ctx :: x.2 else x.2)) (s, [])
/-- A unit reset with its SRAM wiped acknowledges what it was waited for. -/
def ackUnit (u : Nat) (s : State) : State :=
  let left := fun (l : List Nat) => l.filter (· != u)
  let s := { s with sweeps := s.sweeps.map (fun (w : Sweep) => { w with units := left w.units }),
                    sealbs := (s.sealbs.map (fun (w : SealB) => { w with units := left w.units })).filter (fun (w : SealB) => !w.units.isEmpty) }
  (s.shoots.filter fun (w : Shoot) => w.units.contains u).foldl (fun (s : State) (w : Shoot) =>
    match s.shoots.find? (fun (y : Shoot) => y.id == w.id) with
    | some y => ackShoot u y s
    | none => s) s
/-- A unit's generation and seal vectors after its reset: those of the arena table. -/
def reloadUnit (u : Nat) (s : State) : State :=
  { s with units := Map.ins u ⟨s.arenas.foldl (fun m a => Map.put 0 a.1 a.2.gen m) [], s.arenas.foldl (fun m a => Map.put false a.1 (a.2.state == 2) m) []⟩ s.units }
/-- Codec engines of a die (R18). -/
def enginesOfDie (d : Nat) : List Nat := (List.range 6).map (6 * d + ·) ++ (List.range 2).map (24 + 2 * d + ·)
def unitsOfDie (d : Nat) : List Nat :=
  (List.range 48).map (48 * d + ·) ++ (List.range 16).map (fun j => unitSlice (16 * d + j)) ++ [unitDie d] ++ (enginesOfDie d).map unitEngine
def dieOfNode (x y : Nat) : Nat := x / 8 + 2 * (y / 8)
/-- Messages whose packets stood on the die's routers are held and sent again (R419). -/
def losePackets (d : Nat) (s : State) : State :=
  let lost := (s.packets.filter fun p => dieOfNode p.at_x p.at_y == d).map fun p => p.id
  { s with packets := s.packets.filter (fun p => !lost.contains p.id),
           cells := s.cells.map fun c => (c.1, { c.2 with groups := c.2.groups.map fun g =>
             (g.1, { g.2 with msgs := g.2.msgs.map fun m => if lost.contains m.seq then { m with refused := true } else m }) }) }
/-- The rounds homed on a die's slices are lost with their SRAM: the contributions are made again, to a round of the same number (log 119). -/
def loseRounds (d : Nat) (s : State) : State :=
  let gone := s.rounds.filter fun r => r.home / 16 == d
  let again := fun (s : State) (p : Contrib) => match partCmd p s with
    | none => s
    | some (i, b) =>
      let c := s.cell p.cell
      let s := modBrush p.cell i (fun b => { b with accepted := false }) s
      if c.place ≠ .resident then s else s.modStudio c.studio fun st => { st with landing := st.landing - bredBytes b }
  { (gone.flatMap (·.parts)).foldl again s with rounds := s.rounds.filter fun r => r.home / 16 != d }
/-- A studio after a reset of its die: of what it held, the counters of R312 stand, which only a module reset clears (R305). -/
def wipeStudio (x : Studio) : Studio := { (default : Studio) with corr := x.corr, uncorr := x.uncorr, resmiss := x.resmiss, sketch := x.sketch }
/-- Reset a die's studios, slices, routers and codec engines, with their SRAM. The engines' registers stand, but for what R467 does (R470). -/
def resetDie (d : Nat) (s : State) : State :=
  let s := { s with studios := s.studios.map (fun k => if dieOf k.1 = d then (k.1, wipeStudio k.2) else k), dieTlb := Map.del d s.dieTlb,
                    svs := Map.del d s.svs, replicas := s.replicas.filter (fun r => r.1 % 64 / 16 != d),
                    routers := s.routers.filter fun r => dieOfNode (r.1 / 160) (r.1 / 10 % 16) != d }
  let s := loseRounds d (losePackets d s)
  let s := (unitsOfDie d).foldl (fun s u => reloadUnit u (ackUnit u s)) s
  (enginesOfDie d).foldl (fun s e => resetEngine e 6 s) s
/-- Step 4 of R442: the studios and slices of the die that are in service are tested (R444), those that fail retired. -/
def testDie (d : Nat) (s : State) : State :=
  ((List.range 48).map (fun j => ErrUnit.studio (48 * d + j)) ++ (List.range 16).map fun j => ErrUnit.slice (16 * d + j)).foldl callTest s
/-- R442: contexts with a cell on the die, or a line poisoned, are recovered, or their running tasks fail. -/
def execContainmentReset (d : Nat) (s : State) : Host.Outcome State Fault Refusal :=
  .next (if 4 ≤ d then s else
    let here := (s.cells.filter fun c => c.2.place == .resident && dieOf c.2.studio == d).map fun c => c.2.ctx
    let (s, hurt) := flushDie d s
    let cs := (distinct (here ++ hurt)).filter fun c => hasCtx c s
    let s := { s with ckpts := s.ckpts.map fun k => (k.1, { k.2 with unreachable := true }) }
    let s := resetDie d s
    testDie d (cs.foldl (fun s c => if (s.ctx c).rpseq ≠ 0 then recoverCtx c s else failRunning c fMemUncorr s) s))

/-! ### Errors and self-tests (R312, R444) -/

/-- A corrected or uncorrectable error a unit reports is counted, and its self-test is due (SELF_TEST). -/
def execErrorReport (u : ErrUnit) (corrected : Bool) (s : State) : Host.Outcome State Fault Refusal :=
  .next (if (unitClass u).2 < unitCount (unitClass u).1 then s.countError u corrected else s)
/-- What leaves service for the test: a studio's cells are pre-empted with their gangs, a slice's lines written back. -/
def clearUnit (u : ErrUnit) (s : State) : Option State :=
  match u with
  | .studio k =>
    let ns := distinct ((residents k s).flatMap fun c => gangOf c.1 s)
    if ns.all (fun n => canStop n s) then some (ns.foldl (fun s n => saveCell n s) s) else none
  | .slice j => some (s.flushSlice j)
  | _ => some s
/-- The test has been made: it is due no more, and every `stest` that waits for it gets its result (R454). -/
def testMade (u : ErrUnit) (x : BitVec 64) (s : State) : State :=
  answerAll (fun p => p.test == some u) x (s.modModule fun m => { m with due := m.due.filter (· != u) })
/-- R444: a unit's due test is made once the unit is out of service: a pass returns it to service, a fail retires it. A unit that has been
retired in the meantime is not tested. -/
def execSelfTest (u : ErrUnit) (pass : Bool) (s : State) : Host.Outcome State Fault Refusal :=
  .next (if !s.module.due.contains u then s
    else if !s.inService u then testMade u 2 s
    else match clearUnit u s with
    | some s => testMade u (if pass then 0 else 1) (if pass then s else s.retireUnit u)
    | none => s)

end Sys2Proof.Machine
end

