-- ==== Sys2Proof/Machine/EvModule.lean ====
section
/-! DEFINITION. Events of the module in its system: reset and life cycle (R457, R459), features (R460), attestation (R458), power
(R468, R469), codec engines (R463-R467), host and peers (R456, R461, R462), contexts (R145, R347). -/
namespace Sys2Proof.Machine
open Sys2Proof State

/-! ### Reset, life cycle, features (R457, R459, R460) -/

/-- Transitions of LIFECYCLE: forward only. -/
def lifeMay (a b : BitVec 2) : Bool := (a.toNat, b.toNat) ∈ [(0, 1), (1, 2), (1, 3), (2, 3)]
/-- The ROM's check of an image of at most `size` bytes, read by offset and length (R457): its digest, where the tag and the reserved bytes
are as they must be, the digest is the body's, the signature verifies and the security version is at least the fused minimum. -/
def checkImage (read : Nat → Nat → List (BitVec 8)) (size : Nat) : Option (List (BitVec 8)) :=
  let h := read 0 256
  let digest := (h.drop 16).take 64
  if field h 0 4 ≠ 0x4749 then none
  else if size < 256 + field h 8 8 || !zeroAt h 194 62 || digest != Config.shake256 (read 256 (field h 8 8)) then none
  else if Config.verify digest ((h.drop 80).take 114) && Config.minVersion ≤ field h 4 4 then some digest else none
/-- The image at an offset of the flash. -/
def flashImage (flash : Map (BitVec 8)) (at' size : Nat) : Option (List (BitVec 8)) := checkImage (fun o n => Map.bytes flash (at' + o) n) size
/-- A signed command that asks for a target, verified as an image is. -/
def commandOk (target : BitVec 2) (signed : List (BitVec 8)) : Bool :=
  (checkImage (fun o n => (signed.drop o).take n) signed.length).isSome && Config.lifeTarget signed == target
/-- A signed command asks for a transition, in force at the next module reset. -/
def execLifecycleTransition (target : BitVec 2) (signed : List (BitVec 8)) (s : State) : Host.Outcome State Fault Refusal :=
  .next (if commandOk target signed && lifeMay s.module.lifecycle target then s.modModule fun m => { m with lifeNext := some target } else s)
/-- The images accepted in load order (R457): a boot image, A or else B, the supervisor's, the launch controller's. None where no boot image
is accepted; an image that is not accepted is the last that is tried (log 22). -/
def bootImages (flash : Map (BitVec 8)) (b : Boot) : Option (List (List (BitVec 8))) :=
  ((flashImage flash 0 0x4000000).orElse fun _ => flashImage flash 0x4000000 0x4000000).map fun d =>
    d :: (match flashImage flash 0x8000000 0x40000000 with
          | none => []
          | some e => e :: (flashImage flash (0x8000000 + b.second) (0x40000000 - b.second)).toList)
/-- A digest extends register MEASk. -/
def extend (m : Map (List (BitVec 8))) (k : Nat) (d : List (BitVec 8)) : Map (List (BitVec 8)) :=
  Map.ins k (Config.shake256 (Map.getD m k (leBytes 64 0) ++ d)) m
/-- The MEAS registers after a boot, from zeros: each accepted image extends one; once it runs, the supervisor extends MEAS3 to MEAS7. -/
def measure (ds : List (List (BitVec 8))) (more : List (Nat × List (BitVec 8))) : Map (List (BitVec 8)) :=
  let m := (ds.take 3).zipIdx.foldl (fun m d => extend m d.2 d.1) []
  (more.filter fun x => 2 ≤ ds.length && 3 ≤ x.1 && x.1 ≤ 7).foldl (fun m x => extend m x.1 x.2) m
/-- Where the flash regions after boot images A and B begin (R457). -/
def afterImages : Nat := 0x08000000
/-- The flash as a module reset leaves it: decommissioning erases all of it but the boot images. -/
def flashAfter (b : Boot) (s : State) : Map (BitVec 8) :=
  let f := b.flash.foldl (fun f w => Map.setBytes f w.1 w.2) s.module.flash
  if s.module.lifeNext = some 3 && s.module.lifecycle ≠ 3 then f.filter fun c => c.1 < afterImages else f
/-- The size of a journal that the supervisor sets lies between 256 MiB and 8 GiB (R167). -/
def journalSize (n : Nat) : Nat := max 0x10000000 (min 0x200000000 n)
/-- R459, R457: everything is wiped but the host's memory and the flash; a transition asked for takes effect; the boot is checked and
measured, and the supervisor it starts sets the size of the journals (R167). -/
def execModuleReset (image : Boot) (s : State) : Host.Outcome State Fault Refusal :=
  let flash := flashAfter image s
  let m := { Module.reset with lifecycle := s.module.lifeNext.getD s.module.lifecycle, flash := flash }
  let m := match bootImages flash image with
    | some ds => { m with meas := measure ds image.more, journal := journalSize image.journal }
    | none => { m with bootFailed := true }
  .next { State.reset with mem := s.mem.filter (fun c => 2 ^ 48 ≤ c.1), module := m, agenda := s.agenda, fresh := s.fresh }
/-- R460. -/
def execFeatAcceptWrite (v : BitVec 64) (s : State) : Host.Outcome State Fault Refusal := .next (s.writeFeat v)

/-! ### Attestation (R458) -/

/-- Put bytes in the mailbox. -/
def putAttest (at' : Nat) (bs : List (BitVec 8)) (s : State) : State :=
  s.modModule fun m => { m with attest := bs.zipIdx.foldl (fun a b => Map.put 0 (at' + b.2) b.1 a) m.attest }
/-- The host writes the nonce and 1 to byte 32. -/
def execAttestRequest (nonce : List (BitVec 8)) (s : State) : Host.Outcome State Fault Refusal :=
  .next (if nonce.length = 32 then putAttest 0 (nonce ++ [1]) s else s)
/-- The report: nonce, MEAS0-MEAS7, LIFECYCLE, FEAT_OFFER, FEAT_ACCEPT, CAPSTUDIO, the signature over the digest of these. -/
def report458 (s : State) : List (BitVec 8) :=
  let b := s.regBytes 0x3000 32 ++ s.regBytes 0x2000 512 ++ s.regBytes 0x1010 8 ++ s.regBytes 0x1000 8 ++ s.regBytes 0x1008 8 ++ s.regBytes 0x1100 32
  b ++ Config.sign (Config.shake256 b)
/-- The complex serves a request once MEAS2 is extended; in the manufacturing and decommissioned states it refuses with 3, which needs
no measurement. -/
def execAttestReport (s : State) : Host.Outcome State Fault Refusal :=
  let l := s.module.lifecycle.toNat
  .next (if Map.getD s.module.attest 32 0 ≠ 1 then s
    else if l = 0 ∨ l = 3 then putAttest 32 [3] s
    else if (Map.find 2 s.module.meas).isNone then s
    else putAttest 32 [2] (putAttest 64 (report458 s) s))

/-! ### Power (R468, R469) -/

/-- The supervisor's request, in force at once: no result depends on the state (log 40). -/
def execPowerWrite (x : BitVec 2) (s : State) : Host.Outcome State Fault Refusal := .next (s.writePower x)
/-- Power above the limit steps the module down and marks it capped. -/
def execPowerCapStepdown (s : State) : Host.Outcome State Fault Refusal :=
  .next (if s.module.powerNow = 3 then s else s.modModule fun m => { m with powerNow := m.powerNow + 1, capped := true })

/-! ### Codec engines (R463-R467) -/

def engineOn (e : Nat) (s : State) : Bool := e < 32 && s.featOn 4
def engineState (x : Engine) : Nat := bits x.stat.toNat 1 0
def lastCode (x : Engine) : Nat := bits x.stat.toNat 15 8
def ringBits (x : Engine) : Nat := bits x.ring.toNat 4 0
/-- R467: ENGCTL[1] was written 1. -/
def execEngineReset (e : Nat) (s : State) : Host.Outcome State Fault Refusal :=
  .next (if engineOn e s && (s.engine e).ctl.getLsbD 1 then resetEngine e 6 s else s)
def execEngtailWrite (e : Nat) (v : BitVec 64) (s : State) : Host.Outcome State Fault Refusal :=
  .next (if e < 32 then s.writeTail e v else s)
def isEncoder (e : Nat) : Bool := 24 ≤ e
/-- A command the engine supports: decode 1 on engines 0-23, encode 2 on engines 24-31, with nothing in a reserved place (R4, R18,
R465; log 95). -/
def kindOk (e : Nat) (cmd : List (BitVec 8)) : Bool :=
  field cmd 0 1 == (if isEncoder e then 2 else 1) && field cmd 1 1 < 2 && field cmd 3 5 == 0 && field cmd 48 16 == 0
/-- An agent for a buffer of the engine's command (R465). -/
def engBuffer (e : Nat) (x : Engine) : Agent := .engine e (engCtx x) true
/-- What a decode engine reads of its stream next (R18): as much as the codec asks for, after what it has read and never past the length
the command gives (log 95). With the state it answers all that the command has read of its stream so far. -/
def getStream (e : Nat) (cmd : List (BitVec 8)) (s : State) : Except Raise (State × List (BitVec 8)) := do
  let x := s.engine e
  if isEncoder e then return (s, [])
  let m := (Config.free32 s.fresh).toNat % (field cmd 16 8 - x.out + 1)
  let (s, bs) ← agentRead (engBuffer e x) 1 (field cmd 8 8 + x.out) m s.tick
  return (s.modEngine e fun y => { y with out := y.out + m, got := x.got ++ bs }, x.got ++ bs)
/-- The streams an engine accepts (R463). -/
def accepts (e : Nat) (i : StreamInfo) : Bool :=
  let top := fun (d n : Nat) => i.level ≤ (if isEncoder e then n else d)
  i.profile == 0 &&
  match i.format with
  | 0 => (i.chroma == 1 || (i.chroma == 0 && !isEncoder e)) && (i.depth == 8 || i.depth == 10) && top 60 51
  | 1 => i.tier == 0 && top 61 51
  | _ => false
/-- R465: an idle enabled engine takes the command at its head and looks at its stream; a command of another kind, or of a stream it does not
accept, ends with 0x02, one that it or whose stream it cannot read with 0x03. -/
def execEngineTakeCommand (e : Nat) (s : State) : Host.Outcome State Fault Refusal :=
  let x := s.engine e
  .next (if !engineOn e s ∨ !x.ctl.getLsbD 0 ∨ x.ctl.getLsbD 1 ∨ engineState x ≠ 0 ∨ x.head = x.tail ∨ ringBits x < 4 ∨ 12 < ringBits x then s else
    let va := bits x.ring.toNat 56 6 * 64 + 64 * (x.head.toNat % 2 ^ ringBits x)
    let begin := fun (cmd : List (BitVec 8)) (s : State) => s.modEngine e fun y =>
      { y with cmd := some cmd, cmdAt := y.head, head := y.head + 1, row := 0, last := false, out := 0, rowLen := 0, got := [],
               stat := engStat 1 (lastCode y) }
    match agentRead (.engine e (engCtx x) false) 64 va 64 s with
    | .error y => if y.hold then s else resetEngine e 3 (begin [] s)
    | .ok (s1, cmd) =>
      let s1 := begin cmd s1
      if !kindOk e cmd then endCommand e 2 s1 else
      match getStream e cmd s1 with
      | .error y => if y.hold then s else resetEngine e 3 s1
      | .ok (s2, bs) => if accepts e (Config.streamInfo cmd bs) then s2 else endCommand e 2 s2)
/-- Row `r`'s up word; the back word follows it. -/
def upWord (cmd : List (BitVec 8)) (r : Nat) : Nat := field cmd 32 8 + 32 * r
/-- Step 3's change of the up word: one that finds a flag set is refused; one that would overflow is not counted and sets ovf (R310). -/
def raiseUp (w : Word16) : Except (BitVec 8) Word16 :=
  if w.flags ≠ 0 then .error fSyncOvf else
  swChange .landing { w with target := if w.target = 0 then 1 else w.target } 1
/-- Step 3: the back word re-armed, the up word raised; the back word's generation. Where the up word refuses its change, the back word
stays as step 3 has left it (R467). -/
def handOff (g : Agent) (cmd : List (BitVec 8)) (r : Nat) (s : State) : State × Except Raise Nat :=
  match agentSw g (upWord cmd r + 16) (fun w => .ok { w with target := 1, count := 0 }) s with
  | .error y => (s, .error y)
  | .ok (s, b) => match agentSw g (upWord cmd r) raiseUp s with
    | .error y => (s, .error y)
    | .ok (s, _) => (s, .ok b.gen)
/-- The engine goes on to the next row, or the next frame's first. -/
def nextRow (last : Bool) (x : Engine) : Engine := { x with row := if last then 0 else x.row + 1, stat := engStat 1 (lastCode x) }
/-- What an encode engine makes of a row (R18): its share of the encoded stream, as much as the codec decides, goes to the stream
buffer after what earlier rows put there and never past the length the command gives (log 95). -/
def putStream (e : Nat) (cmd : List (BitVec 8)) (s : State) : Except Raise State :=
  let x := s.engine e
  if !isEncoder e then .ok s else
  let m := (Config.free32 s.fresh).toNat % (field cmd 16 8 - x.out + 1)
  let bs := (List.range m).map fun i => Config.codecByte e x.row i s.tick.fresh
  (agentWrite (engBuffer e x) 1 (field cmd 8 8 + x.out) bs s.tick.tick).map fun s => s.modEngine e fun y => { y with out := y.out + m }
/-- What an engine does for a row of `n` bytes: a decode engine reads on in its stream, the row's bytes, which the stream decides, go to the
frame pool (log 21), and an encode engine adds to its stream. No row is made of a stream that now names what the engine does not
accept (R463). -/
def makeRow (e n : Nat) (cmd : List (BitVec 8)) (s : State) : Except Raise (State × Bool) := do
  let (s, got) ← getStream e cmd s
  if !accepts e (Config.streamInfo cmd got) then return (s, false)
  let x := s.engine e
  let bs := (List.range n).map fun i => Config.codecByte e x.row i s.fresh
  let s ← agentWrite (engBuffer e x) 1 (field cmd 24 8 + n * x.row) bs s.tick
  return (← putStream e cmd s, true)
/-- R466 steps 1 to 3: the row; with the hand-off on the engine waits. A fault ends the command with 0x03, a word's overflow with 0x05. -/
def execCodecRow (e n : Nat) (last : Bool) (s : State) : Host.Outcome State Fault Refusal :=
  let x := s.engine e
  .next (match x.cmd with
    | none => s
    | some cmd =>
      if !engineOn e s ∨ engineState x ≠ 1 then s else
      match makeRow e n cmd s with
      | .error y => if y.hold then s else resetEngine e 3 s
      | .ok (s1, false) => endCommand e 2 s1
      | .ok (s1, true) =>
        if field cmd 1 1 % 2 = 0 then s1.modEngine e (nextRow last) else
        match handOff (engBuffer e x) cmd x.row s1 with
        | (s2, .ok g) => s2.modEngine e fun y => { y with backGen := BitVec.ofNat 32 g, last := last, rowLen := n, stat := engStat 2 (lastCode y) }
        | (s2, .error y) => if y.hold then s else resetEngine e (if y.code = fSyncOvf ∨ y.code = fHandle then 5 else 3) s2)
/-- R466 steps 4 and 5: the back word's generation has changed; the engine acquires, so that it knows of every drop point that happened
before (R300), and the row is read back as reference and output. -/
def execCodecHandoffResume (e : Nat) (s : State) : Host.Outcome State Fault Refusal :=
  let x := s.engine e
  .next (match x.cmd with
    | none => s
    | some cmd =>
      if !engineOn e s ∨ engineState x ≠ 2 then s else
      match agentRead (engBuffer e x) 16 (upWord cmd x.row + 16) 16 s with
      | .error y => if y.hold then s else resetEngine e 3 s
      | .ok (s1, b) =>
        if (Word16.of b).gen = x.backGen.toNat then s1 else
        match agentRead (engBuffer e x) 1 (field cmd 24 8 + x.rowLen * x.row) x.rowLen (s1.learnDrops (unitEngine e)) with
        | .error y => if y.hold then s else resetEngine e 3 (s1.learnDrops (unitEngine e))
        | .ok (s2, _) => s2.modEngine e fun y => nextRow y.last y)
/-- R466: a wait longer than the timeout ends the command with 0x04. -/
def execEngineTimeout (e : Nat) (s : State) : Host.Outcome State Fault Refusal :=
  let x := s.engine e
  .next (if engineOn e s ∧ engineState x = 2 ∧ bits x.ctl.toNat 31 16 ≠ 0 then resetEngine e 4 s else s)
/-- R465: the command ends done (0x00), corrupt (0x01, with a reset), or unsupported (0x02). The engine reads what it still needs of its
stream: one that it does not accept ends with 0x02 and never with 0x00 (R463). -/
def execEngineCommandEnd (e : Nat) (status : BitVec 8) (s : State) : Host.Outcome State Fault Refusal :=
  let x := s.engine e
  .next (match x.cmd with
    | none => s
    | some cmd =>
      if !engineOn e s ∨ engineState x ≠ 1 then s
      else if status = 1 then resetEngine e 1 s
      else if status ≠ 0 ∧ status ≠ 2 then s else
      match getStream e cmd s with
      | .error y => if y.hold then s else resetEngine e 3 s
      | .ok (s1, bs) =>
        if !accepts e (Config.streamInfo cmd bs) then endCommand e 2 s1 else if status = 0 then endCommand e 0 s1 else s)

/-! ### Host and peers (R303, R456, R461, R462) -/

/-- An access to HBM from outside, in view 0 at the home; a read merges what its lines have buffered. -/
def outsideAccess (off : Nat) (write : Bool) (bytes : List (BitVec 8)) (s : State) : State :=
  if Config.hbm < off + bytes.length then s
  else if write then homePut (Tag.own 0) off bytes s
  else (homeRead off bytes.length s).1
/-- What the host and the peers store into their own memories, physical target `k` of R150: a store reaches it at once, past what L2
holds of it (R296, R303; log 100). -/
def ownStore (k off : Nat) (write : Bool) (bytes : List (BitVec 8)) (s : State) : State :=
  if !write || (k + 1) * 2 ^ 48 < off + bytes.length then s else s.setBytes off bytes
/-- R461: through BAR2, or the host's own; with no image booted the endpoint serves only the register window (R457). The launch controller
reports a write to the tail of a device queue (R395). -/
def execHostBar2Access (off : Nat) (write : Bool) (bytes : List (BitVec 8)) (s : State) : Host.Outcome State Fault Refusal :=
  .next (if 2 ^ 48 ≤ off then ownStore 1 off write bytes s else if s.module.bootFailed then s else
    let t := outsideAccess off write bytes s
    if write && off + bytes.length ≤ Config.hbm then noteTails off bytes.length t else t)
/-- R462: a peer's access, where the domain was accepted; the bound variables it touches have a remote participant from then on, and
what this module has not written back of them is written back first (R293). A physical address from 2^49 on names a peer's own memory
(log 100). -/
def execPeerAccess (off : Nat) (write : Bool) (bytes : List (BitVec 8)) (s : State) : Host.Outcome State Fault Refusal :=
  .next (if 2 ^ 49 ≤ off then ownStore 2 off write bytes s
    else if s.module.bootFailed || !s.featOn 5 then s
    else outsideAccess off write bytes ((List.range ((off + bytes.length + 15) / 16 - off / 16)).foldl (fun s i => s.remoteScope (off / 16 * 16 + 16 * i)) s))
/-- R462: a peer of the domain becomes unreachable. -/
def execPeerUnreachable (m : Nat) (s : State) : Host.Outcome State Fault Refusal :=
  .next (if m < 256 ∧ Config.peer m then s.modModule fun x => { x with peers := Map.ins m true x.peers } else s)
/-- R456: the host or the supervisor writes a word of the register window through BAR0. -/
def execRegisterWrite (off : Nat) (v : BitVec 64) (s : State) : Host.Outcome State Fault Refusal :=
  .next (if off % 8 = 0 ∧ off < 2 ^ 32 then s.regStore off v else s)

/-! ### Contexts (R145, R341, R347, R375, R437, R446) -/

/-- The 32 bytes of a new queue descriptor. -/
def queueBytes (q : QInit) : List (BitVec 8) :=
  leBytes 8 q.base.toNat ++ leBytes 4 (q.n.toNat + (if q.dev then 32 else 0) + (if q.en then 64 else 0)) ++ leBytes 20 0
/-- The supervisor writes the descriptor table; queues not named get an empty descriptor. -/
def writeQueues (c : CtxInit) (s : State) : State :=
  (List.range 64).foldl (fun s q =>
    let b := match c.queues[q]? with | some x => queueBytes x | none => leBytes 32 0
    homePut (Tag.own 0) (c.qtab.toNat + 32 * q) b s) s
/-- A context may be created: its number free, its crown a free arena, its window aligned, its registers well formed. -/
def ctxOk (c : CtxInit) (s : State) : Bool :=
  c.ctx < 64 && !hasCtx c.ctx s && !s.module.bootFailed && c.crown != 0 && (s.arena c.crown.toNat).state == 0
  && c.arwin.toNat % 2 ^ 25 == 0 && c.arwinLen.toNat % 2 ^ 25 == 0 && c.root.toNat % 4096 == 0 && c.qtab.toNat % 32 == 0
  && (c.shadowRate == 31 || (3 ≤ c.shadowRate.toNat && c.shadowRate.toNat ≤ 16))
def newCtx (c : CtxInit) (gen : BitVec 4) : Ctx :=
  { root := c.root, trapvec := c.trapvec, crown := BitVec.ofNat 16 (gen.toNat * 4096 + c.crown.toNat), arwin := c.arwin, arwinLen := c.arwinLen,
    rpseq := 0, rpqpos := 0, rpentry := 0, ckptstat := 0, qtab := c.qtab, queues := [], system := c.system, errq := [], errLost := 0,
    regions := [], shadowDefault := c.shadowRate, shadowRun := 0, shadowMism := 0, palSaves := [] }
/-- The crown of a context, at a free number. -/
def newCrown (c : CtxInit) (s : State) : State :=
  newArena c.crown.toNat { parent := 0, depth := 1, owner := c.ctx, quota := c.crownQuota.toNat, resv := 0, crown := true } s
/-- What the supervisor changes of a context later: TRAPVEC, ARCROWN, ARWIN and the default shadow rate (R145, R341, R437; log 121). The
crown named is one of the context's, or a new one at a free number. -/
def changeOk (c : CtxInit) (s : State) : Bool :=
  let e := s.arena c.crown.toNat
  hasCtx c.ctx s && !s.module.bootFailed && c.crown != 0 && (e.state == 0 || (e.state == 1 && e.crown && e.owner == c.ctx))
  && c.arwin.toNat % 2 ^ 25 == 0 && c.arwinLen.toNat % 2 ^ 25 == 0
  && (c.shadowRate == 31 || (3 ≤ c.shadowRate.toNat && c.shadowRate.toNat ≤ 16))
def changeCtx (c : CtxInit) (s : State) : State :=
  let e := s.arena c.crown.toNat
  let s := s.modCtx c.ctx fun x => { x with trapvec := c.trapvec, crown := BitVec.ofNat 16 (e.gen.toNat * 4096 + c.crown.toNat),
                                            arwin := c.arwin, arwinLen := c.arwinLen, shadowDefault := c.shadowRate }
  if e.state = 0 then newCrown c s else s
/-- The supervisor creates a context and its crown, or changes a context's registers. -/
def execContextCreation (c : CtxInit) (s : State) : Host.Outcome State Fault Refusal :=
  .next (if ctxOk c s then
      writeQueues c (newCrown c { s with ctxs := Map.ins c.ctx (newCtx c (s.arena c.crown.toNat).gen) s.ctxs })
    else if changeOk c s then changeCtx c s else s)
/-- A studio's traces of a context: its palette with the zaps that wait, chain slots, counters, translations and code (R5). -/
def forgetStudio (c : Nat) (x : Studio) : Studio :=
  let x := { x with icache := [], chains := x.chains.filter fun k => k.2.ctx != c, tlb := x.tlb.filter fun e => e.ctx != c,
                    perf := x.perf.map fun p => (p.1, if p.2.owner == some c then { p.2 with owner := none, value := 0 } else p.2) }
  if x.owner = some c then { x with owner := none, palB := [], palC := [], zaps := [] } else x
/-- A landing in memory that belongs to a context. -/
def landsFor (c : Nat) (l : Landing) : Bool := match l.place with | .memory _ t _ => t.ctx == c | .scratch _ _ => false
/-- A context ends: its cells, tasks and views go, its crown is dropped, its pins, bindings, save areas and tables end, with what the launch
controller's journal and held writes say of it. Of its crowns every one is dropped. A codec engine's command in progress keeps running
under the number of the context that has ended, and its accesses meet what is left of its pages (log 129). -/
def execContextEnd (c : Nat) (s : State) : Host.Outcome State Fault Refusal :=
  .next (if !hasCtx c s then s else
    let s := (s.cells.filter fun x => x.2.ctx == c).foldl (fun s x => removeCell x.1 s) s
    let vs := (s.views.filter fun v => v.1 != 0 && v.2.state != 0 && v.2.owner == c).map Prod.fst
    let s := vs.foldl (fun s v => if (s.view v).state = 0 then s else discardView 8 v s) s
    let crowns := (s.arenas.filter fun a => a.2.crown && a.2.owner == c).map Prod.fst
    let s := crowns.foldl (fun s a => if (s.arena a).state = 1 ∨ (s.arena a).state = 2 then (dropTree a [] s).1 else s) s
    let s := settleDrops c s
    let s := ((s.ctx c).palSaves.flatMap fun p => p.2.frames).foldl (fun s f => s.freeFrame f) s
    let s := { s with pages := s.pages.filter fun p => p.1 / 2 ^ 41 != c }
    { s with landed := s.landed.filter (fun l => !landsFor c l), held := s.held.filter (fun h => h.ctx != c),
             ctlLog := s.ctlLog.map (fun l => (l.1, l.2.filter fun r => r.subject / 64 % 64 != c)),
             tasks := s.tasks.filter (fun x => x.ctx != c), ckpts := Map.del c s.ckpts, ctxs := Map.del c s.ctxs,
             l2 := s.l2.map (fun l => if l.2.ctx == c then (l.1, { l.2 with pin := false }) else l),
             svs := s.svs.map (fun d => (d.1, d.2.filter fun e => e.ctx != c)),
             dieTlb := s.dieTlb.map (fun d => (d.1, d.2.filter fun e => e.ctx != c)),
             studios := s.studios.map fun k => (k.1, forgetStudio c k.2) })

end Sys2Proof.Machine
end

