-- ==== Sys2Proof/Machine/IntArith.lean ====
section
/-! DEFINITION. Moves, integer arithmetic, conversion, address and dot-product instructions (R109-R126). -/
namespace Sys2Proof.Machine
open Sys2Proof State

/-- An element-wise integer instruction: the pattern `f` gives per position, written as type `t` (R109). -/
def alu (i : Instr) (o : AOp) (t : Ty) (s : State) (f : State → Nat → Nat) : Host.Outcome State Fault Refusal :=
  issueOk i s fun s => s.apply o.gd o.d t (f s)
/-- Fin(T, E, sat) of an exact value E over A, B and C (R115). -/
def intAlu (i : Instr) (o : AOp) (s : State) (f : Int → Int → Int → Int) : Host.Outcome State Fault Refusal :=
  alu i o o.ty s fun s p => fin o.ty (f (s.read 0 o.a o.ty p) (s.read 1 o.b o.ty p) (s.read 2 o.c o.ty p)) (o.m.getLsbD 0)

/-- R79: nothing a program can read changes; the run goes on. -/
def execNop (o : AOp) (s : State) : Host.Outcome State Fault Refusal := issueOk (.nop o) s fun s => s
/-- R114. -/
def execMov (o : AOp) (s : State) : Host.Outcome State Fault Refusal :=
  alu (.mov o) o o.ty s fun s p => s.src 0 o.a o.ty.width p
/-- R114: a 64-bit signed type takes the immediate sign-extended, any other its low bits. -/
def execMovi (o : AOp) (s : State) : Host.Outcome State Fault Refusal :=
  alu (.movi o) o o.ty s fun _ _ => if o.ty == .i64 then (o.m.signExtend 64).toNat else o.m.toNat % 2 ^ o.ty.width
/-- R114: the high half of the destination; its low half is kept. -/
def movwEffect (o : AOp) (s : State) : State :=
  match o.d with
  | .g i => if (s.active o.gd).isEmpty then s else
      s.modCg fun g => g.setG i.toNat (o.m ++ (g.greg i.toNat).setWidth 32)
  | .t i => (s.active o.gd).foldl (fun s p => s.modRun fun r =>
      { r with temps := Map.put 0 (8 * p + i.toNat) (o.m ++ (Map.getD r.temps (8 * p + i.toNat) 0).setWidth 32) r.temps }) s
  | .v i => (s.active o.gd).foldl (fun s p => match s.cc.clAt s.cur.grp p with
      | some cl => s.modCc fun c => c.setV cl (i.toNat + 1) o.m | none => s) s
def execMovw (o : AOp) (s : State) : Host.Outcome State Fault Refusal := issueOk (.movw o) s (movwEffect o)
/-- R115. -/
def execAdd (o : AOp) (s : State) : Host.Outcome State Fault Refusal := intAlu (.add o) o s fun a b _ => a + b
/-- R115. -/
def execSub (o : AOp) (s : State) : Host.Outcome State Fault Refusal := intAlu (.sub o) o s fun a b _ => a - b
/-- R115. -/
def execMul (o : AOp) (s : State) : Host.Outcome State Fault Refusal := intAlu (.mul o) o s fun a b _ => a * b
/-- R115: the upper half of the exact product. -/
def execMulhi (o : AOp) (s : State) : Host.Outcome State Fault Refusal :=
  intAlu (.mulhi o) o s fun a b _ => a * b / (2 : Int) ^ o.ty.width
/-- R115. -/
def execMad (o : AOp) (s : State) : Host.Outcome State Fault Refusal := intAlu (.mad o) o s fun a b c => a * b + c
/-- R115. -/
def execSad (o : AOp) (s : State) : Host.Outcome State Fault Refusal := intAlu (.sad o) o s fun a b c => (a - b).natAbs + c
/-- R115. -/
def execNeg (o : AOp) (s : State) : Host.Outcome State Fault Refusal := intAlu (.neg o) o s fun a _ _ => -a
/-- R115. -/
def execAbs (o : AOp) (s : State) : Host.Outcome State Fault Refusal := intAlu (.abs o) o s fun a _ _ => a.natAbs
/-- R115. -/
def execMin (o : AOp) (s : State) : Host.Outcome State Fault Refusal := intAlu (.min o) o s fun a b _ => min a b
/-- R115. -/
def execMax (o : AOp) (s : State) : Host.Outcome State Fault Refusal := intAlu (.max o) o s fun a b _ => max a b
/-- R115: max(B, min(A, C)). -/
def execClamp (o : AOp) (s : State) : Host.Outcome State Fault Refusal := intAlu (.clamp o) o s fun a b c => max b (min a c)

/-- Carry-in of R116. -/
def carryIn (o : AOp) (s : State) (p : Nat) : Int :=
  if o.m.getLsbD 16 && s.predAt p (bits o.m.toNat 11 8) then 1 else 0
/-- Sum or difference and its carry or borrow per position, then the writes (R116). -/
def carryEffect (o : AOp) (sum : Int → Int → Int → Int) (s : State) : State :=
  let r := (s.active o.gd).map fun p =>
    let x := sum (s.read 0 o.a o.ty p) (s.read 1 o.b o.ty p) (carryIn o s p)
    (p, x)
  r.foldl (fun s x => (s.write o.d o.ty (fin o.ty x.2 false) x.1).setPredAt x.1 (bits o.m.toNat 15 12)
    (decide (x.2 < 0 ∨ (2 : Int) ^ o.ty.width ≤ x.2))) s
/-- R116. -/
def execAddc (o : AOp) (s : State) : Host.Outcome State Fault Refusal :=
  issueOk (.addc o) s (carryEffect o fun a b k => a + b + k)
/-- R116: the predicate takes the borrow. -/
def execSubb (o : AOp) (s : State) : Host.Outcome State Fault Refusal :=
  issueOk (.subb o) s (carryEffect o fun a b k => a - b - k)

/-- Quotient of R117: truncated; all ones for a zero divisor, whatever `.sat`. -/
def divPattern (t : Ty) (a b : Int) (sat : Bool) : Nat := if b = 0 then 2 ^ t.width - 1 else fin t (Int.tdiv a b) sat
def execDiv (o : AOp) (s : State) : Host.Outcome State Fault Refusal :=
  alu (.div o) o o.ty s fun s p => divPattern o.ty (s.read 0 o.a o.ty p) (s.read 1 o.b o.ty p) (o.m.getLsbD 0)
/-- Remainder of R117, with the sign of the dividend. -/
def execRem (o : AOp) (s : State) : Host.Outcome State Fault Refusal :=
  alu (.rem o) o o.ty s fun s p =>
    let a := s.read 0 o.a o.ty p
    let b := s.read 1 o.b o.ty p
    fin o.ty (if b = 0 then a else a - b * Int.tdiv a b) false

/-- R124: the source read as stype, into the destination type. -/
def execCvti (o : AOp) (s : State) : Host.Outcome State Fault Refusal :=
  alu (.cvti o) o o.ty s fun s p => fin o.ty (s.read 0 o.a (o.stype 0x17) p) (o.m.getLsbD 0)
/-- Address of R125. -/
def leaValue (o : AOp) (s : State) (p : Nat) : Nat :=
  ((s.read 0 o.a .n64 p + s.read 1 o.b o.ty p * 2 ^ bits o.m.toNat 2 0 + sext 24 (bits o.m.toNat 31 8)) % (2 : Int) ^ 57).toNat
def execLea (o : AOp) (s : State) : Host.Outcome State Fault Refusal := alu (.lea o) o .n64 s (leaValue o)
/-- Sum of four byte products and the accumulator (R126). -/
def dot4 (t : Ty) (a b : Nat) : Int :=
  (List.range 4).foldl (fun x k => x + tyVal t (bits a (8 * k + 7) (8 * k)) * tyVal t (bits b (8 * k + 7) (8 * k))) 0
def execDot4i (o : AOp) (s : State) : Host.Outcome State Fault Refusal :=
  let r : Ty := if o.ty == .i8 then .i32 else .n32
  alu (.dot4i o) o r s fun s p =>
    fin r (s.read 2 o.c r p + dot4 o.ty (s.src 0 o.a 32 p) (s.src 1 o.b 32 p)) (o.m.getLsbD 0)

end Sys2Proof.Machine
end

