-- ==== Sys2Proof/Machine/Lane.lean ====
section
/-! DEFINITION. Cross-lane instructions, by position (R228-R234). -/
namespace Sys2Proof.Machine
open Sys2Proof State

/-- Source position of a shuffle (R229). -/
def shuffleFrom (variant w p n : Nat) : Nat :=
  let base := p - p % w
  match variant with
  | 0 => base + n % w
  | 1 => if p < base + n then p else p - n
  | 2 => if base + w ≤ p + n then p else p + n
  | _ => Nat.xor p (n % w)
def execLshfl (o : AOp) (s : State) : Host.Outcome State Fault Refusal :=
  issueOk (.lshfl o) s fun s => s.apply o.gd o.d o.ty fun p =>
    s.src 0 o.a o.ty.width (shuffleFrom o.variant.toNat (2 ^ (bits o.m.toNat 11 9 + 1)) p (s.src 1 o.b 32 p))
/-- R230. -/
def execLbcast (o : AOp) (s : State) : Host.Outcome State Fault Refusal :=
  issueOk (.lbcast o) s fun s =>
    let q := s.src 1 o.b 8 (s.uniPos o.gd) % 32
    s.apply o.gd o.d o.ty fun _ => s.src 0 o.a o.ty.width q
/-- Byte `k` of the permutation (R231). -/
def permByte (ab c k : Nat) : Nat :=
  let n := bits c (4 * k + 3) (4 * k)
  let b := bits ab (8 * (n % 8) + 7) (8 * (n % 8))
  if n < 8 then b else if b ≥ 128 then 255 else 0
def execLperm (o : AOp) (s : State) : Host.Outcome State Fault Refusal :=
  issueOk (.lperm o) s fun s => s.apply o.gd o.d .n32 fun p =>
    let ab := s.src 0 o.a 32 p + s.src 1 o.b 32 p * 2 ^ 32
    let c := s.src 2 o.c 32 p
    (List.range 4).foldl (fun x k => x + permByte ab c k * 2 ^ (8 * k)) 0

/-- f32 addition under a rounding code. -/
def faddMode (mode a b : Nat) : Nat :=
  arith .f32 { mode := mode } [val .f32 a, val .f32 b] (addV (mode == 3) (val .f32 a) (val .f32 b))
/-- Combination of two patterns by a reduction variant (R232). -/
def combine (variant : Nat) (t : Ty) (mode a b : Nat) : Nat :=
  match variant with
  | 0 => (a + b) % 2 ^ t.width
  | 1 => if tyVal t a ≤ tyVal t b then a else b
  | 2 => if tyVal t a ≥ tyVal t b then a else b
  | 3 => a.land b
  | 4 => a.lor b
  | 5 => a.xor b
  | 6 => faddMode mode a b
  | 7 => fminmax .f32 false false a b
  | _ => fminmax .f32 true false a b
/-- One level of the tree of R232 at stride `st`. -/
def treeLevel (mode : Nat) (v : List (Option Nat)) (st : Nat) : List (Option Nat) :=
  (List.range 32).map fun p =>
    if p % (2 * st) = 0 then
      match v.getD p none, v.getD (p + st) none with
      | some a, some b => some (faddMode mode a b)
      | none, some b => some b
      | a, none => a
    else v.getD p none
def treeSum (mode : Nat) (v : List (Option Nat)) : Nat := (([1, 2, 4, 8, 16].foldl (treeLevel mode) v).getD 0 none).getD 0
/-- The reduction of the active lanes' values. -/
def reduceValue (o : AOp) (s : State) : Nat :=
  let w := o.ty.width
  let ps := s.active o.gd
  let mode := bits o.m.toNat 8 6
  if o.variant = 6 then treeSum mode ((List.range 32).map fun p => if ps.contains p then some (s.src 0 o.a w p) else none)
  else match ps with
    | [] => 0
    | p :: r => r.foldl (fun x q => combine o.variant.toNat o.ty mode x (s.src 0 o.a w q)) (s.src 0 o.a w p)
/-- Type a reduction's result is written as. -/
def redTy (t : Ty) : Ty := if t == .f32 then .n32 else t
def execLred (o : AOp) (s : State) : Host.Outcome State Fault Refusal :=
  issueOk (.lred o) s fun s => s.apply o.gd o.d (redTy o.ty) fun _ => reduceValue o s

/-- Variant of a scan as a reduction, and whether it excludes the lane itself (R233). -/
def scanKind : Nat → Nat × Bool
  | 0 => (0, false) | 1 => (0, true) | 2 => (1, false) | 3 => (2, false) | 4 => (6, false) | _ => (6, true)
/-- Values along the active positions. -/
def scanFrom (k : Nat) (t : Ty) (mode : Nat) (get : Nat → Nat) (excl : Bool) : Option Nat → List Nat → List (Nat × Nat)
  | _, [] => []
  | acc, p :: r =>
    let v := match acc with | none => get p | some a => combine k t mode a (get p)
    let out := if excl then acc.getD (if k = 6 then 0x80000000 else 0) else v
    (p, out) :: scanFrom k t mode get excl (some v) r
def execLscan (o : AOp) (s : State) : Host.Outcome State Fault Refusal :=
  issueOk (.lscan o) s fun s =>
    let (k, excl) := scanKind o.variant.toNat
    let l := scanFrom k o.ty (bits o.m.toNat 8 6) (fun p => s.src 0 o.a o.ty.width p) excl none (s.active o.gd)
    l.foldl (fun s x => s.write o.d (redTy o.ty) x.2 x.1) s
/-- R234. -/
def execLmap (o : AOp) (s : State) : Host.Outcome State Fault Refusal :=
  issueOk (.lmap o) s fun s =>
    let ps := s.active o.gd
    let v := fun p => s.src 0 o.a o.ty.width p
    s.apply o.gd o.d .n32 fun p => (maskOf (ps.filter fun q => v q == v p)).toNat

end Sys2Proof.Machine
end

