-- ==== Sys2Proof/Machine/Logic.lean ====
section
/-! DEFINITION. Logic, shifts, bit fields, counts, selection and comparison (R118-R123). -/
namespace Sys2Proof.Machine
open Sys2Proof State

/-- A bitwise instruction on the w-bit patterns UA and UB (R118). -/
def bitAlu (i : Instr) (o : AOp) (s : State) (f : Nat → Nat → Nat) : Host.Outcome State Fault Refusal :=
  alu i o o.ty s fun s p => f (s.src 0 o.a o.ty.width p) (s.src 1 o.b o.ty.width p) % 2 ^ o.ty.width
/-- R118. -/
def execAnd (o : AOp) (s : State) : Host.Outcome State Fault Refusal := bitAlu (.and o) o s Nat.land
/-- R118. -/
def execOr (o : AOp) (s : State) : Host.Outcome State Fault Refusal := bitAlu (.or o) o s Nat.lor
/-- R118. -/
def execXor (o : AOp) (s : State) : Host.Outcome State Fault Refusal := bitAlu (.xor o) o s Nat.xor
/-- R118: UA AND NOT UB. -/
def execAndn (o : AOp) (s : State) : Host.Outcome State Fault Refusal :=
  bitAlu (.andn o) o s fun a b => a.land (2 ^ o.ty.width - 1 - b)
/-- R118. -/
def execNot (o : AOp) (s : State) : Host.Outcome State Fault Refusal := bitAlu (.not o) o s fun a _ => 2 ^ o.ty.width - 1 - a

/-- Shift amount: the low 8 bits of b, unsigned (R119). -/
def shiftAlu (i : Instr) (o : AOp) (s : State) (f : Nat → Nat → Nat) : Host.Outcome State Fault Refusal :=
  alu i o o.ty s fun s p => f (s.src 0 o.a o.ty.width p) (s.src 1 o.b 8 p) % 2 ^ o.ty.width
/-- R119. -/
def execShl (o : AOp) (s : State) : Host.Outcome State Fault Refusal := shiftAlu (.shl o) o s fun a n => a * 2 ^ n
/-- R119. -/
def execShr (o : AOp) (s : State) : Host.Outcome State Fault Refusal := shiftAlu (.shr o) o s fun a n => a / 2 ^ n
/-- R119: the pattern read as signed, whatever the type. -/
def execSar (o : AOp) (s : State) : Host.Outcome State Fault Refusal :=
  shiftAlu (.sar o) o s fun a n => ((sext o.ty.width a / (2 : Int) ^ n) % (2 : Int) ^ o.ty.width).toNat
/-- R119. -/
def execRol (o : AOp) (s : State) : Host.Outcome State Fault Refusal :=
  shiftAlu (.rol o) o s fun a n => let w := o.ty.width
                                   a * 2 ^ (n % w) + a / 2 ^ (w - n % w)

/-- Position and length of a bit field: from the word with fi = 1, else from a register (R120). -/
def fieldPos (o : AOp) (s : State) (fld : Nat) (x : Src) (p : Nat) : Nat × Nat :=
  let v := if o.m.getLsbD 16 then o.m.toNat else s.src fld x 32 p
  (bits v 7 0, bits v 15 8)
/-- Field of the extended value (R120). -/
def bfxValue (t : Ty) (a : Int) (pos len : Nat) : Int :=
  let f := a / (2 : Int) ^ pos % (2 : Int) ^ len
  if t.signed && len > 0 && f ≥ (2 : Int) ^ (len - 1) then f - (2 : Int) ^ len else f
def execBfx (o : AOp) (s : State) : Host.Outcome State Fault Refusal :=
  alu (.bfx o) o o.ty s fun s p =>
    let (pos, len) := fieldPos o s 1 o.b p
    fin o.ty (bfxValue o.ty (s.read 0 o.a o.ty p) pos len) false
/-- Insertion of R120: bits of the field beyond w are dropped. -/
def bfiValue (w ua ub pos len : Nat) : Nat :=
  let m := (2 ^ len - 1) * 2 ^ pos % 2 ^ w
  (ua.land (2 ^ w - 1 - m)).lor ((ub * 2 ^ pos).land m)
def execBfi (o : AOp) (s : State) : Host.Outcome State Fault Refusal :=
  alu (.bfi o) o o.ty s fun s p =>
    let (pos, len) := fieldPos o s 2 o.c p
    bfiValue o.ty.width (s.src 0 o.a o.ty.width p) (s.src 1 o.b o.ty.width p) pos len

/-- R121: the w-bit pattern reversed. -/
def brevValue (w a : Nat) : Nat := (List.range w).foldl (fun x i => 2 * x + (if a.testBit i then 1 else 0)) 0
/-- R121: zeros above the highest one, w for 0. -/
def clzValue (w a : Nat) : Nat := if a = 0 then w else w - 1 - a.log2
/-- R121: zeros below the lowest one, w for 0. -/
def ctzValue (w a : Nat) : Nat := ((List.range w).find? fun i => a.testBit i).getD w
def unary (i : Instr) (o : AOp) (s : State) (f : Nat → Nat → Nat) : Host.Outcome State Fault Refusal :=
  alu i o o.ty s fun s p => f o.ty.width (s.src 0 o.a o.ty.width p)
def execBrev (o : AOp) (s : State) : Host.Outcome State Fault Refusal := unary (.brev o) o s brevValue
/-- R121. -/
def execPopc (o : AOp) (s : State) : Host.Outcome State Fault Refusal := unary (.popc o) o s fun w a => popc a w
def execClz (o : AOp) (s : State) : Host.Outcome State Fault Refusal := unary (.clz o) o s clzValue
def execCtz (o : AOp) (s : State) : Host.Outcome State Fault Refusal := unary (.ctz o) o s ctzValue

/-- R123. -/
def execSel (o : AOp) (s : State) : Host.Outcome State Fault Refusal :=
  alu (.sel o) o o.ty s fun s p =>
    if s.predAt p (bits o.m.toNat 11 8) then s.src 0 o.a o.ty.width p else s.src 1 o.b o.ty.width p
/-- The conditions of R122 by variant. -/
def icond (k : Nat) (a b : Int) : Bool :=
  match k with
  | 0 => a == b | 1 => a != b | 2 => a < b | 3 => a ≤ b | 4 => a > b | _ => a ≥ b
def execCmp (o : AOp) (s : State) : Host.Outcome State Fault Refusal :=
  issueOk (.cmp o) s fun s => s.applyPred o.gd (bits o.m.toNat 15 12) fun p =>
    icond o.variant.toNat (s.read 0 o.a o.ty p) (s.read 1 o.b o.ty p)

end Sys2Proof.Machine
end

