-- ==== Sys2Proof/Machine/Predicates.lean ====
section
/-! DEFINITION. Predicate logic, votes, and moves between lanes and the group (R127-R129). -/
namespace Sys2Proof.Machine
open Sys2Proof State

/-- Fields of the PM word (R110): pd, pa, pb. -/
def pmD (o : AOp) : Nat := bits o.m.toNat 15 12
def pmA (o : AOp) : Nat := bits o.m.toNat 11 8
def pmB (o : AOp) : Nat := bits o.m.toNat 7 4
/-- A predicate instruction: pd of each active lane from pa and pb (R127). -/
def predOp (i : Instr) (o : AOp) (s : State) (f : Bool → Bool → Bool) : Host.Outcome State Fault Refusal :=
  issueOk i s fun s => s.applyPred o.gd (pmD o) fun p => f (s.predAt p (pmA o)) (s.predAt p (pmB o))
/-- R127. -/
def execPand (o : AOp) (s : State) : Host.Outcome State Fault Refusal := predOp (.pand o) o s and
/-- R127. -/
def execPor (o : AOp) (s : State) : Host.Outcome State Fault Refusal := predOp (.por o) o s or
/-- R127. -/
def execPxor (o : AOp) (s : State) : Host.Outcome State Fault Refusal := predOp (.pxor o) o s xor
/-- R127. -/
def execPnot (o : AOp) (s : State) : Host.Outcome State Fault Refusal := predOp (.pnot o) o s fun a _ => !a
/-- R127. -/
def execPmov (o : AOp) (s : State) : Host.Outcome State Fault Refusal := predOp (.pmov o) o s fun a _ => a

/-- V of R128: active positions whose pa is true. -/
def voters (o : AOp) (s : State) : List Nat := (s.active o.gd).filter fun p => s.predAt p (pmA o)
/-- R128. -/
def execBallot (o : AOp) (s : State) : Host.Outcome State Fault Refusal :=
  alu (.ballot o) o .n32 s fun s _ => (maskOf (voters o s)).toNat
/-- R128. -/
def execPcnt (o : AOp) (s : State) : Host.Outcome State Fault Refusal :=
  alu (.pcnt o) o .n32 s fun s _ => (voters o s).length
/-- R128. -/
def execVany (o : AOp) (s : State) : Host.Outcome State Fault Refusal :=
  issueOk (.vany o) s fun s => s.applyPred o.gd (pmD o) fun _ => !(voters o s).isEmpty
/-- R128. -/
def execVall (o : AOp) (s : State) : Host.Outcome State Fault Refusal :=
  issueOk (.vall o) s fun s => s.applyPred o.gd (pmD o) fun _ => voters o s == s.active o.gd
/-- R129: the value of the lane at position b mod 32, active or not, into the group's register. -/
def execVtog (o : AOp) (s : State) : Host.Outcome State Fault Refusal :=
  alu (.vtog o) o o.ty s fun s p => s.src 0 o.a o.ty.width (s.src 1 o.b 8 p % 32)
/-- R129: the inverse of `ballot`. -/
def execGtov (o : AOp) (s : State) : Host.Outcome State Fault Refusal :=
  issueOk (.gtov o) s fun s => s.applyPred o.gd (pmD o) fun p => (s.gsrc o.a).getLsbD p

end Sys2Proof.Machine
end

