-- ==== Sys2Proof/Machine/Quant.lean ====
section
/-! DEFINITION. Quantised vectors: block scales, quantise, dequantise (R195-R202, R224-R227). -/
namespace Sys2Proof.Machine
open Sys2Proof State

/-- Elements per group of a quantised format (R224), its block size (R196, R199). -/
def qElems (q : Ty) : Nat := if q == .e4m3 || q == .e5m2 then 128 else 256
def qBlock (q : Ty) : Nat := if q == .e2m1 then 16 else if q == .gq4 then 64 else 32
def qBlocks (q : Ty) : Nat := qElems q / qBlock q
/-- Pattern of element `i` of the range at vN in the unpacked format U, by position (R187, R224). -/
def rangeElem (s : State) (n : Nat) (u : Ty) (i : Nat) : Nat :=
  let k := 32 / u.width
  let m := 32 * k
  (s.vAt (i % m / k) (n + i / m)).toNat / 2 ^ (u.width * (i % m % k)) % 2 ^ u.width
/-- Pattern of element `i` of the quantised register vN. -/
def quantElem (s : State) (n : Nat) (q : Ty) (i : Nat) : Nat :=
  let k := 32 / q.width
  (s.vAt (i / k) n).toNat / 2 ^ (q.width * (i % k)) % 2 ^ q.width
/-- Its value, not yet scaled: +0 where no lane stands, for gq4 too, which has no code for it (R224). -/
def quantVal (s : State) (n : Nat) (q : Ty) (i : Nat) : Val :=
  if (s.cc.clAt s.cur.grp (i / (32 / q.width))).isNone then .fin false 0 0
  else if q == .gq4 then gqLevel (quantElem s n q i) else val q (quantElem s n q i)

/-- A run that holds infinities of both signs (R201). -/
def infClash (xs : List Val) : Bool := xs.contains (.inf false) && xs.contains (.inf true)
/-- Output `i` of a Hadamard run of the inputs `xs` (R201): exact, divided by 2^d. -/
def hadamardOut (rm : Bool) (xs : List Val) (d : Nat) (i : Nat) : Val :=
  match firstNan xs with
  | some v => v
  | none => if infClash xs then .inv else match sumV rm (xs.zipIdx.map fun x => if popc (i.land x.2) 5 % 2 = 1 then x.1.neg else x.1) with
    | .fin n m e => .fin n m (e - d)
    | v => v
/-- The transform of hsz on the whole vector (R201): size 0 none, 1 T16 = H16 ÷ 4, 2 T32 = H32 ÷ 8. -/
def hadamard (rm : Bool) (hsz : Nat) (xs : List Val) : List Val :=
  if hsz = 0 then xs else
  let n := if hsz = 1 then 16 else 32
  (List.range xs.length).map fun i => hadamardOut rm ((xs.drop (i / n * n)).take n) (if hsz = 1 then 2 else 3) (i % n)

/-- S of a GQ4 instruction: its pattern and value. -/
def gqS (o : AOp) (s : State) : Nat := s.src 1 o.b 32 (s.uniPos o.gd)
/-- A scale: none where it marks its block. -/
def absScale : Val → Option (Bool × Nat × Int)
  | .fin n m e => if m = 0 then none else some (n, m, e)
  | _ => none
/-- Scale of block `b`: sign, mantissa, exponent; none for a NaN scale or an S that is 0, infinite or NaN (R197, R199). -/
def scaleOf (s : State) (q : Ty) (vs j S b : Nat) : Option (Bool × Nat × Int) :=
  if q == .gq4 then
    let code := (s.vAt j vs).toNat / 2 ^ (8 * b) % 256
    (absScale (val .f32 S)).map fun x => (x.1, x.2.1 * (code + 1), x.2.2 - 8)
  else
    let k := j * qBlocks q + b
    (e8m2 ((s.vAt (k / 2) vs).toNat / 2 ^ (16 * (k % 2)) % 65536)).map fun x => (false, x.1, x.2)

/-- m1 2^e1 ≥ m2 2^e2. -/
def geMag (m1 : Nat) (e1 : Int) (m2 : Nat) (e2 : Int) : Bool :=
  let e := min e1 e2
  decide (m2 * 2 ^ (e2 - e).toNat ≤ m1 * 2 ^ (e1 - e).toNat)
def maxQ (q : Ty) : Nat := if q == .e4m3 then 448 else if q == .e5m2 then 57344 else 6
/-- Largest magnitude of a block without NaN or infinity. -/
def amaxOf (ys : List Val) : Nat × Int :=
  ys.foldl (fun a y => match y with | .fin _ m e => if geMag a.1 a.2 m e then a else (m, e) | _ => a) (0, 0)
def notFinite : Val → Bool | .fin _ _ _ => false | _ => true
/-- Scale code of a block and whether it is marked (R225). -/
def scaleFor (q : Ty) (S : Nat) (ys : List Val) : Nat × Bool :=
  let a := amaxOf ys
  let mk := ys.any notFinite || (q == .gq4 && (absScale (val .f32 S)).isNone)
  if q == .gq4 then
    (if mk then 255 else match absScale (val .f32 S) with
      | some (_, m, e) => ((List.range 256).find? fun k => geMag (m * (k + 1)) (e - 8) a.1 a.2).getD 255
      | none => 255, mk)
  else
    (if mk then 0x03FC else if a.1 = 0 then 0
     else ((List.range 0x3FC).find? fun k => match e8m2 k with
       | some (m, e) => geMag (m * maxQ q) e a.1 a.2 | none => false).getD 0x03FB, mk)
/-- Lane position, bit offset and width of the scale of block `b` (R197, R199). -/
def scalePlace (q : Ty) (j b : Nat) : Nat × Nat × Nat :=
  if q == .gq4 then (j, 8 * b, 8) else let k := j * qBlocks q + b
                                      (k / 2, 16 * (k % 2), 16)
def replaceBits (v sh w x : Nat) : Nat := v - v / 2 ^ sh % 2 ^ w * 2 ^ sh + x % 2 ^ w * 2 ^ sh

/-- R225. -/
def fsclEffect (o : AOp) (s : State) : State :=
  let q := o.ty
  let u := o.stype 0x45
  let j := bits o.m.toNat 17 13
  let S := gqS o s
  let ys := hadamard false (bits o.m.toNat 27 26) ((List.range (qElems q)).map fun i => val u (rangeElem s o.a.vIdx u i))
  let sc := (List.range (qBlocks q)).map fun b => (scalePlace q j b, scaleFor q S ((ys.drop (b * qBlock q)).take (qBlock q)))
  let new := (s.active o.gd).map fun p =>
    let mine := sc.filter fun x => x.1.1 == p
    (p, mine.foldl (fun v x => replaceBits v x.1.2.1 x.1.2.2 x.2.1) (s.vAt p o.d.vIdx).toNat, mine.any fun x => x.2.2)
  new.foldl (fun s x => (s.write o.d .n32 x.2.1 x.1).setPredAt x.1 (bits o.m.toNat 31 28) x.2.2) s
def execFscl (o : AOp) (s : State) : Host.Outcome State Fault Refusal := issueOk (.fscl o) s (fsclEffect o)

/-- NaN code of a quantised format (R226). -/
def qNaN (q : Ty) : Nat := genNaN q
/-- Code of Y ÷ scale under the rounding of the instruction (R226); an infinite Y overflows (R189). -/
def quantCode (q : Ty) (c : RCtx) (y : Val) (sc : Bool × Nat × Int) : Nat :=
  match y with
  | .fin n m e =>
    let neg := n != sc.1
    if q == .gq4 then let (a, b) := atUnit m sc.2.1 (e - sc.2.2) 0
                      gqRound c neg a b
    else roundTo q c neg m sc.2.1 (e - sc.2.2)
  | .inf n => if q == .gq4 then (if n != sc.1 then 0 else 15) else overflow q c (n != sc.1)
  | _ => qNaN q
/-- R226. -/
def fqntEffect (o : AOp) (s : State) : State :=
  let q := o.ty
  let u := o.stype 0x43
  let m := o.m.toNat
  let S := gqS o s
  let xs := (List.range (qElems q)).map fun i => rangeElem s o.a.vIdx u i
  let ys := hadamard (bits m 8 6 = 3) (bits m 27 26) (xs.map (val u))
  let blocks := (List.range (qBlocks q)).map fun b =>
    (scaleOf s q (bits m 25 18) (bits m 17 13) S b, ((ys.drop (b * qBlock q)).take (qBlock q)).any fun y => y.isNan || y == .inv)
  let k := 32 / q.width
  let new := (s.active o.gd).map fun p =>
    let codes := (List.range k).map fun t =>
      let i := k * p + t
      match blocks.getD (i / qBlock q) (none, true) with
      | (some sc, false) =>
        let ops := if q == Ty.gq4 then [xs.getD i 0, S] else [xs.getD i 0]
        (quantCode q (fmCtx o.m (drawFor s (bits m 8 6) 0x43 p i ops)) (ys.getD i .inv) sc, false)
      | _ => (qNaN q, true)
    (p, codes.zipIdx.foldl (fun v x => v + x.1.1 * 2 ^ (q.width * x.2)) 0, codes.any fun x => x.2)
  new.foldl (fun s x => (s.write o.d .n32 x.2.1 x.1).setPredAt x.1 (bits m 31 28) x.2.2) s
def execFqnt (o : AOp) (s : State) : Host.Outcome State Fault Refusal := issueOk (.fqnt o) s (fqntEffect o)

/-- Exact value of a quantised element `x` under its scale (R196, R199), S read as `.ftz` has it (R192); a NaN E8M2 scale gives the
generated NaN. -/
def dequantVal (s : State) (q : Ty) (ftz : Bool) (vs j S b : Nat) (x : Val) : Val :=
  if q == .gq4 then
    let k := (s.vAt j vs).toNat / 2 ^ (8 * b) % 256
    match valF .f32 ftz S with
    | .fin n m e => mulV x (.fin n (m * (k + 1)) (e - 8))
    | v => mulV v x
  else match scaleOf s q vs j S b with
    | none => .inv
    | some (_, m, e) => match x with
      | .fin n a y => .fin n (a * m) (y + e)
      | v => v
/-- R227. -/
def fdqtEffect (o : AOp) (s : State) : State :=
  let u := o.ty
  let q := o.stype 0x44
  let m := o.m.toNat
  let S := gqS o s
  let k := 32 / u.width
  let new := (s.active o.gd).flatMap fun p => (List.range (rangeLen q u)).map fun r =>
    let w := (List.range k).foldl (fun w t =>
      let i := 32 * k * r + k * p + t
      let code := quantElem s o.a.vIdx q i
      let ops := if q == .gq4 then [code, S] else [code]
      let c := fmCtx o.m (drawFor s (bits m 8 6) 0x44 p i ops)
      w + roundVal u c true (dequantVal s q c.ftz (bits m 25 18) (bits m 17 13) S (i / qBlock q) (quantVal s o.a.vIdx q i)) * 2 ^ (u.width * t)) 0
    (p, r, w)
  new.foldl (fun s x => s.write (.v (BitVec.ofNat 8 (o.d.vIdx + x.2.1))) .n32 x.2.2 x.1) s
def execFdqt (o : AOp) (s : State) : Host.Outcome State Fault Refusal := issueOk (.fdqt o) s (fdqtEffect o)

end Sys2Proof.Machine
end

