-- ==== Sys2Proof/Machine/Dispatch.lean ====
section
/-! DEFINITION. One arm per constructor: the meaning of each instruction and event. -/
namespace Sys2Proof.Machine
open Host

def exec (i : Instr) (s : State) : Host.Outcome State Fault Refusal :=
  match i with
  | .nop o => Sys2Proof.Machine.execNop o s
  | .mov o => Sys2Proof.Machine.execMov o s
  | .movi o => Sys2Proof.Machine.execMovi o s
  | .movw o => Sys2Proof.Machine.execMovw o s
  | .add o => Sys2Proof.Machine.execAdd o s
  | .sub o => Sys2Proof.Machine.execSub o s
  | .addc o => Sys2Proof.Machine.execAddc o s
  | .subb o => Sys2Proof.Machine.execSubb o s
  | .mul o => Sys2Proof.Machine.execMul o s
  | .mulhi o => Sys2Proof.Machine.execMulhi o s
  | .mad o => Sys2Proof.Machine.execMad o s
  | .sad o => Sys2Proof.Machine.execSad o s
  | .neg o => Sys2Proof.Machine.execNeg o s
  | .abs o => Sys2Proof.Machine.execAbs o s
  | .min o => Sys2Proof.Machine.execMin o s
  | .max o => Sys2Proof.Machine.execMax o s
  | .clamp o => Sys2Proof.Machine.execClamp o s
  | .and o => Sys2Proof.Machine.execAnd o s
  | .or o => Sys2Proof.Machine.execOr o s
  | .xor o => Sys2Proof.Machine.execXor o s
  | .andn o => Sys2Proof.Machine.execAndn o s
  | .not o => Sys2Proof.Machine.execNot o s
  | .shl o => Sys2Proof.Machine.execShl o s
  | .shr o => Sys2Proof.Machine.execShr o s
  | .sar o => Sys2Proof.Machine.execSar o s
  | .rol o => Sys2Proof.Machine.execRol o s
  | .bfx o => Sys2Proof.Machine.execBfx o s
  | .bfi o => Sys2Proof.Machine.execBfi o s
  | .brev o => Sys2Proof.Machine.execBrev o s
  | .popc o => Sys2Proof.Machine.execPopc o s
  | .clz o => Sys2Proof.Machine.execClz o s
  | .ctz o => Sys2Proof.Machine.execCtz o s
  | .sel o => Sys2Proof.Machine.execSel o s
  | .cmp o => Sys2Proof.Machine.execCmp o s
  | .cvti o => Sys2Proof.Machine.execCvti o s
  | .div o => Sys2Proof.Machine.execDiv o s
  | .rem o => Sys2Proof.Machine.execRem o s
  | .lea o => Sys2Proof.Machine.execLea o s
  | .dot4i o => Sys2Proof.Machine.execDot4i o s
  | .pand o => Sys2Proof.Machine.execPand o s
  | .por o => Sys2Proof.Machine.execPor o s
  | .pxor o => Sys2Proof.Machine.execPxor o s
  | .pnot o => Sys2Proof.Machine.execPnot o s
  | .pmov o => Sys2Proof.Machine.execPmov o s
  | .ballot o => Sys2Proof.Machine.execBallot o s
  | .pcnt o => Sys2Proof.Machine.execPcnt o s
  | .vany o => Sys2Proof.Machine.execVany o s
  | .vall o => Sys2Proof.Machine.execVall o s
  | .vtog o => Sys2Proof.Machine.execVtog o s
  | .gtov o => Sys2Proof.Machine.execGtov o s
  | .fadd o => Sys2Proof.Machine.execFadd o s
  | .fsub o => Sys2Proof.Machine.execFsub o s
  | .fmul o => Sys2Proof.Machine.execFmul o s
  | .ffma o => Sys2Proof.Machine.execFfma o s
  | .fmin o => Sys2Proof.Machine.execFmin o s
  | .fmax o => Sys2Proof.Machine.execFmax o s
  | .fcmp o => Sys2Proof.Machine.execFcmp o s
  | .fclass o => Sys2Proof.Machine.execFclass o s
  | .frnd o => Sys2Proof.Machine.execFrnd o s
  | .frcp o => Sys2Proof.Machine.execFrcp o s
  | .frsq o => Sys2Proof.Machine.execFrsq o s
  | .fsqrt o => Sys2Proof.Machine.execFsqrt o s
  | .fexpf o => Sys2Proof.Machine.execFexpf o s
  | .flog2 o => Sys2Proof.Machine.execFlog2 o s
  | .fsinf o => Sys2Proof.Machine.execFsinf o s
  | .fcosf o => Sys2Proof.Machine.execFcosf o s
  | .xins o => Sys2Proof.Machine.execXins o s
  | .xgetE o => Sys2Proof.Machine.execXgetE o s
  | .xgetM o => Sys2Proof.Machine.execXgetM o s
  | .fcvt o => Sys2Proof.Machine.execFcvt o s
  | .fcvtPk o => Sys2Proof.Machine.execFcvtPk o s
  | .fqnt o => Sys2Proof.Machine.execFqnt o s
  | .fdqt o => Sys2Proof.Machine.execFdqt o s
  | .fscl o => Sys2Proof.Machine.execFscl o s
  | .fdot2 o => Sys2Proof.Machine.execFdot2 o s
  | .dadd o => Sys2Proof.Machine.execDadd o s
  | .dmul o => Sys2Proof.Machine.execDmul o s
  | .dfma o => Sys2Proof.Machine.execDfma o s
  | .dcmp o => Sys2Proof.Machine.execDcmp o s
  | .dcvt o => Sys2Proof.Machine.execDcvt o s
  | .dcvtInt o => Sys2Proof.Machine.execDcvtInt o s
  | .chld o => Sys2Proof.Machine.execChld o s
  | .chrun o => Sys2Proof.Machine.execChrun o s
  | .lshfl o => Sys2Proof.Machine.execLshfl o s
  | .lperm o => Sys2Proof.Machine.execLperm o s
  | .lbcast o => Sys2Proof.Machine.execLbcast o s
  | .lred o => Sys2Proof.Machine.execLred o s
  | .lscan o => Sys2Proof.Machine.execLscan o s
  | .lmap o => Sys2Proof.Machine.execLmap o s
  | .cvdecl o => Sys2Proof.Machine.execCvdecl o s
  | .cvsign o => Sys2Proof.Machine.execCvsign o s
  | .mfence o => Sys2Proof.Machine.execMfence o s
  | .mzero o => Sys2Proof.Machine.execMzero o s
  | .mma o => Sys2Proof.Machine.execMma o s
  | .mmar o => Sys2Proof.Machine.execMmar o s
  | .mwait o => Sys2Proof.Machine.execMwait o s
  | .mdrain o => Sys2Proof.Machine.execMdrain o s
  | .mread o => Sys2Proof.Machine.execMread o s
  | .mwrite o => Sys2Proof.Machine.execMwrite o s
  | .mcheck o => Sys2Proof.Machine.execMcheck o s
  | .msave o => Sys2Proof.Machine.execMsave o s
  | .mrestore o => Sys2Proof.Machine.execMrestore o s
  | .pfill o => Sys2Proof.Machine.execPfill o s
  | .pwait o => Sys2Proof.Machine.execPwait o s
  | .pzapB o => Sys2Proof.Machine.execPzapB o s
  | .pzapC o => Sys2Proof.Machine.execPzapC o s
  | .ld o => Sys2Proof.Machine.execLd o s
  | .st o => Sys2Proof.Machine.execSt o s
  | .ldc o => Sys2Proof.Machine.execLdc o s
  | .lds o => Sys2Proof.Machine.execLds o s
  | .sts o => Sys2Proof.Machine.execSts o s
  | .ldl o => Sys2Proof.Machine.execLdl o s
  | .stl o => Sys2Proof.Machine.execStl o s
  | .atom o => Sys2Proof.Machine.execAtom o s
  | .red o => Sys2Proof.Machine.execRed o s
  | .pf o => Sys2Proof.Machine.execPf o s
  | .rqpage o => Sys2Proof.Machine.execRqpage o s
  | .cwbL2 o => Sys2Proof.Machine.execCwbL2 o s
  | .cwbMem o => Sys2Proof.Machine.execCwbMem o s
  | .cinv o => Sys2Proof.Machine.execCinv o s
  | .cpin o => Sys2Proof.Machine.execCpin o s
  | .cunpin o => Sys2Proof.Machine.execCunpin o s
  | .icinv o => Sys2Proof.Machine.execIcinv o s
  | .fetchbar o => Sys2Proof.Machine.execFetchbar o s
  | .fence o => Sys2Proof.Machine.execFence o s
  | .monarm o => Sys2Proof.Machine.execMonarm o s
  | .monwait o => Sys2Proof.Machine.execMonwait o s
  | .svbind o => Sys2Proof.Machine.execSvbind o s
  | .svunbind o => Sys2Proof.Machine.execSvunbind o s
  | .barinit o => Sys2Proof.Machine.execBarinit o s
  | .bararr o => Sys2Proof.Machine.execBararr o s
  | .barwait o => Sys2Proof.Machine.execBarwait o s
  | .bartest o => Sys2Proof.Machine.execBartest o s
  | .barexp o => Sys2Proof.Machine.execBarexp o s
  | .swinit o => Sys2Proof.Machine.execSwinit o s
  | .swexp o => Sys2Proof.Machine.execSwexp o s
  | .swadd o => Sys2Proof.Machine.execSwadd o s
  | .swwait o => Sys2Proof.Machine.execSwwait o s
  | .swpoll o => Sys2Proof.Machine.execSwpoll o s
  | .ctrsel o => Sys2Proof.Machine.execCtrsel o s
  | .ctrrd o => Sys2Proof.Machine.execCtrrd o s
  | .arnew o => Sys2Proof.Machine.execArnew o s
  | .aralloc o => Sys2Proof.Machine.execAralloc o s
  | .arfree o => Sys2Proof.Machine.execArfree o s
  | .arseal o => Sys2Proof.Machine.execArseal o s
  | .ardrop o => Sys2Proof.Machine.execArdrop o s
  | .arquery o => Sys2Proof.Machine.execArquery o s
  | .rgset o => Sys2Proof.Machine.execRgset o s
  | .rgclr o => Sys2Proof.Machine.execRgclr o s
  | .rgquery o => Sys2Proof.Machine.execRgquery o s
  | .forkw o => Sys2Proof.Machine.execForkw o s
  | .wend o => Sys2Proof.Machine.execWend o s
  | .choose o => Sys2Proof.Machine.execChoose o s
  | .chooseMin o => Sys2Proof.Machine.execChooseMin o s
  | .wabort o => Sys2Proof.Machine.execWabort o s
  | .wquery o => Sys2Proof.Machine.execWquery o s
  | .tlaunch o => Sys2Proof.Machine.execTlaunch o s
  | .tdep o => Sys2Proof.Machine.execTdep o s
  | .tdepGo o => Sys2Proof.Machine.execTdepGo o s
  | .worknext o => Sys2Proof.Machine.execWorknext o s
  | .qpop o => Sys2Proof.Machine.execQpop o s
  | .ringdecl o => Sys2Proof.Machine.execRingdecl o s
  | .ringdeclClr o => Sys2Proof.Machine.execRingdeclClr o s
  | .rsend o => Sys2Proof.Machine.execRsend o s
  | .rhead o => Sys2Proof.Machine.execRhead o s
  | .ldesc o => Sys2Proof.Machine.execLdesc o s
  | .bcopy o => Sys2Proof.Machine.execBcopy o s
  | .bstore o => Sys2Proof.Machine.execBstore o s
  | .bmcast o => Sys2Proof.Machine.execBmcast o s
  | .bred o => Sys2Proof.Machine.execBred o s
  | .br o => Sys2Proof.Machine.execBr o s
  | .braAny o => Sys2Proof.Machine.execBraAny o s
  | .braAll o => Sys2Proof.Machine.execBraAll o s
  | .brx o => Sys2Proof.Machine.execBrx o s
  | .call o => Sys2Proof.Machine.execCall o s
  | .calli o => Sys2Proof.Machine.execCalli o s
  | .ret o => Sys2Proof.Machine.execRet o s
  | .prio o => Sys2Proof.Machine.execPrio o s
  | .regroup o => Sys2Proof.Machine.execRegroup o s
  | .regroupRestore o => Sys2Proof.Machine.execRegroupRestore o s
  | .exit o => Sys2Proof.Machine.execExit o s
  | .trail o => Sys2Proof.Machine.execTrail o s
  | .trap o => Sys2Proof.Machine.execTrap o s
  | .rte o => Sys2Proof.Machine.execRte o s
  | .mfsys o => Sys2Proof.Machine.execMfsys o s
  | .mtsys o => Sys2Proof.Machine.execMtsys o s
  | .sysc o => Sys2Proof.Machine.execSysc o s
  | .errq o => Sys2Proof.Machine.execErrq o s
  | .ckpt o => Sys2Proof.Machine.execCkpt o s
  | .rpset o => Sys2Proof.Machine.execRpset o s
  | .tlbinv o => Sys2Proof.Machine.execTlbinv o s
  | .pgsplit o => Sys2Proof.Machine.execPgsplit o s
  | .stest o => Sys2Proof.Machine.execStest o s
  | .runDispatch studio => Sys2Proof.Machine.execRunDispatch studio s
  | .fetchResume studio slot => Sys2Proof.Machine.execFetchResume studio slot s
  | .longLatencyComplete cell grp idx => Sys2Proof.Machine.execLongLatencyComplete cell grp idx s
  | .heldAccessResume studio slot => Sys2Proof.Machine.execHeldAccessResume studio slot s
  | .regroupMeetingComplete cell => Sys2Proof.Machine.execRegroupMeetingComplete cell s
  | .regroupRestoreComplete cell => Sys2Proof.Machine.execRegroupRestoreComplete cell s
  | .easelCommandStart cell idx => Sys2Proof.Machine.execEaselCommandStart cell idx s
  | .easelSlab cell idx => Sys2Proof.Machine.execEaselSlab cell idx s
  | .easelCommandComplete cell idx => Sys2Proof.Machine.execEaselCommandComplete cell idx s
  | .fillSlab cell slot => Sys2Proof.Machine.execFillSlab cell slot s
  | .fillComplete cell slot => Sys2Proof.Machine.execFillComplete cell slot s
  | .walkPush cell act => Sys2Proof.Machine.execWalkPush cell act s
  | .brushBurst cell idx => Sys2Proof.Machine.execBrushBurst cell idx s
  | .brushCommandComplete cell idx => Sys2Proof.Machine.execBrushCommandComplete cell idx s
  | .bmcastHop cell idx => Sys2Proof.Machine.execBmcastHop cell idx s
  | .bredAccept cell idx => Sys2Proof.Machine.execBredAccept cell idx s
  | .bredRoundComplete tag round => Sys2Proof.Machine.execBredRoundComplete tag round s
  | .ringDelivery cell grp idx => Sys2Proof.Machine.execRingDelivery cell grp idx s
  | .ringRetry cell grp idx => Sys2Proof.Machine.execRingRetry cell grp idx s
  | .torusHop idx => Sys2Proof.Machine.execTorusHop idx s
  | .redMerge studio idx => Sys2Proof.Machine.execRedMerge studio idx s
  | .cacheEviction unit line unreadable => Sys2Proof.Machine.execCacheEviction unit line unreadable s
  | .dropBroadcastApply unit arena => Sys2Proof.Machine.execDropBroadcastApply unit arena s
  | .sweepComplete arena gen => Sys2Proof.Machine.execSweepComplete arena gen s
  | .sealBroadcastApply unit arena => Sys2Proof.Machine.execSealBroadcastApply unit arena s
  | .tlbShootdownAck unit idx => Sys2Proof.Machine.execTlbShootdownAck unit idx s
  | .rivalAdmission cell studio => Sys2Proof.Machine.execRivalAdmission cell studio s
  | .worldParentRestore cell studio => Sys2Proof.Machine.execWorldParentRestore cell studio s
  | .kickWrite ctx queue => Sys2Proof.Machine.execKickWrite ctx queue s
  | .serveKick ctx queue => Sys2Proof.Machine.execServeKick ctx queue s
  | .readyRanges ticket => Sys2Proof.Machine.execReadyRanges ticket s
  | .migrationEnd leafAt resident => Sys2Proof.Machine.execMigrationEnd leafAt resident s
  | .cellAdmission p => Sys2Proof.Machine.execCellAdmission p s
  | .preemptCell cell => Sys2Proof.Machine.execPreemptCell cell s
  | .restoreCell cell studio => Sys2Proof.Machine.execRestoreCell cell studio s
  | .cellRetirement cell => Sys2Proof.Machine.execCellRetirement cell s
  | .controllerTakeover pair => Sys2Proof.Machine.execControllerTakeover pair s
  | .rollback ticket => Sys2Proof.Machine.execRollback ticket s
  | .shadowCompare original copy => Sys2Proof.Machine.execShadowCompare original copy s
  | .ckptPrepareAck ctx die => Sys2Proof.Machine.execCkptPrepareAck ctx die s
  | .ckptSeal ctx => Sys2Proof.Machine.execCkptSeal ctx s
  | .recovery ctx => Sys2Proof.Machine.execRecovery ctx s
  | .containmentReset die => Sys2Proof.Machine.execContainmentReset die s
  | .errorReport unit corrected => Sys2Proof.Machine.execErrorReport unit corrected s
  | .selfTest unit pass => Sys2Proof.Machine.execSelfTest unit pass s
  | .moduleReset image => Sys2Proof.Machine.execModuleReset image s
  | .lifecycleTransition target signed => Sys2Proof.Machine.execLifecycleTransition target signed s
  | .featAcceptWrite value => Sys2Proof.Machine.execFeatAcceptWrite value s
  | .attestRequest nonce => Sys2Proof.Machine.execAttestRequest nonce s
  | .attestReport => Sys2Proof.Machine.execAttestReport s
  | .powerWrite state => Sys2Proof.Machine.execPowerWrite state s
  | .powerCapStepdown => Sys2Proof.Machine.execPowerCapStepdown s
  | .engineReset engine => Sys2Proof.Machine.execEngineReset engine s
  | .engtailWrite engine value => Sys2Proof.Machine.execEngtailWrite engine value s
  | .engineTakeCommand engine => Sys2Proof.Machine.execEngineTakeCommand engine s
  | .codecRow engine rowBytes lastRow => Sys2Proof.Machine.execCodecRow engine rowBytes lastRow s
  | .codecHandoffResume engine => Sys2Proof.Machine.execCodecHandoffResume engine s
  | .engineTimeout engine => Sys2Proof.Machine.execEngineTimeout engine s
  | .engineCommandEnd engine status => Sys2Proof.Machine.execEngineCommandEnd engine status s
  | .hostBar2Access offset write bytes => Sys2Proof.Machine.execHostBar2Access offset write bytes s
  | .peerAccess offset write bytes => Sys2Proof.Machine.execPeerAccess offset write bytes s
  | .peerUnreachable module => Sys2Proof.Machine.execPeerUnreachable module s
  | .registerWrite offset value => Sys2Proof.Machine.execRegisterWrite offset value s
  | .arithmeticCycle studio => Sys2Proof.Machine.execArithmeticCycle studio s
  | .runSettled cell grp => Sys2Proof.Machine.execRunSettled cell grp s
  | .softError target => Sys2Proof.Machine.execSoftError target s
  | .migrationBegin leafAt => Sys2Proof.Machine.execMigrationBegin leafAt s
  | .contextCreation c => Sys2Proof.Machine.execContextCreation c s
  | .contextEnd ctx => Sys2Proof.Machine.execContextEnd ctx s
  | .leafRewrite leafAt value => Sys2Proof.Machine.execLeafRewrite leafAt value s

end Sys2Proof.Machine
end

