-- ==== Sys2Proof/Machine/Step.lean ====
section
/-! DEFINITION. One step of the module: the next move of the agenda, or one the schedule picks. -/
namespace Sys2Proof.Machine
open Sys2Proof

/-- One move: an issue slot fetches, decodes and runs the next instruction of its run, or an event happens. A move that is
not enabled changes nothing (log 3). -/
def perform (m : Move) (s : State) : Host.Outcome State Fault Refusal :=
  match m with
  | .issue k slot =>
    match s.issuing k slot with
    | none => .next s
    | some r =>
      let s := { s with cur := r }
      match s.decodeStage with
      | .error x => .next (s.raise x)
      | .ok (s', i) => exec i s'
  | .event e => if e.raw.isNone then exec e s else .next s

/-- One step: the head of the agenda; with an empty agenda, the move `Config.schedule` gives at the counter (log 2). -/
def step (s : State) : Host.Outcome State Fault Refusal :=
  match s.agenda with
  | m :: r => perform m { s with agenda := r }
  | [] => perform (Config.schedule s.fresh) s.tick

/-- `s` with a word laid at a mapped line, a cell whose group has a run in flight there, every feature accepted, and the
agenda naming that issue slot: the next step fetches and runs exactly that instruction (log 4). -/
def State.withFetchWord (s : State) (nbits w : Nat) : State :=
  let w := w % 2 ^ (if nbits < 96 then nbits else 96)
  let c := s.freshCell
  let s := s.fwTables.setBytes (State.fwFrame * 65536) (leBytes 64 (State.fwLine w))
  let s := { s with cells := Map.ins c State.fwCell s.cells, agenda := .issue 0 0 :: s.agenda, cur := ⟨c, 0⟩ }
  let s := s.modCtx 0 fun x => { x with root := BitVec.ofNat 52 State.fwTable }
  let s := s.modModule fun m => { m with featAccept := Config.featOffer }
  s.modStudio 0 fun st => { st with slots := Map.ins 0 ⟨c, 0⟩ st.slots, tlb := [], icache := [] }

end Sys2Proof.Machine
end

