-- ==== Sys2Proof/Safety.lean ====
section
/-! DEFINITION. The terms the statements are written in: a state that a run may pass through, an instruction that issues, what a
register holds, and what a step leaves alone. -/
namespace Sys2Proof
open Machine State

/-- A safe state: memory stands in its canonical form. -/
def Safe (s : State) : Prop := Memory.wf s.mem = true

/-- The issue checks of `i` pass in `s` (BUDGET, direct target, R39, R37), and its queue pops succeed; `s1` is the state after the
pops, `s` itself for an instruction that pops nothing. -/
def Issues (i : Instr) (s s1 : State) : Prop := s.usesCheck i = .ok () ∧ s.popAll (popFields i) = .ok s1

/-- The acting group's run goes on to the next slot, or ends there with every lane going on: what an instruction does after an
effect that does not leave the run (R32, R34). -/
abbrev goesOn (i : Instr) (s : State) : State := s.advance i .seq

/-- The destination `d` holds the pattern `u` of type `ty` in the lane at position `p` (R103, R104, R108). -/
def Holds (t : State) (d : Dst) (ty : Ty) (u p : Nat) : Prop :=
  match d with
  | .v i => ∀ cl, t.cc.clAt t.cur.grp p = some cl →
      if ty.width = 64 then t.cc.vreg cl i.toNat = BitVec.ofNat 32 u ∧ t.cc.vreg cl (i.toNat + 1) = BitVec.ofNat 32 (u / 2 ^ 32)
      else t.cc.vreg cl i.toNat = BitVec.ofNat 32 (extend ty u 32)
  | .g i => t.cg.greg i.toNat = BitVec.ofNat 64 (extend ty u 64)
  | .t i => t.cg.run.isSome → Map.getD t.crun.temps (8 * p + i.toNat) 0 = BitVec.ofNat 64 (extend ty u 64)

/-- No register. -/
def noneV : Nat → Nat → Prop := fun _ _ => False
def noneG : Nat → Prop := fun _ => False

/-- What an instruction that goes on to the next slot leaves of the acting group's run and frontier. While the run goes on, its PC is that
slot, the frontier stands, and every temporary but those `tp p j` names (number `j` in position `p`); of the run only what it has left
empty or pending may differ besides. Where the run has ended, every other entry stands with its lanes, its wait count aged (R32), but
that the lanes of the issuing entry may have joined it at the next slot. -/
structure RunFrame (s t : State) (tp : Nat → Nat → Prop) : Prop where
  settled : t.cg.settled = (s.cg.settled && t.cg.run.isSome)
  goes : t.cg.run.isSome = true → t.cg.entries = s.cg.entries ∧
    t.crun = { s.crun with pc := nextPC s.crun.pc, popped := [], temps := t.crun.temps, hist := t.crun.hist,
                           empty := t.crun.empty, pend := t.crun.pend }
  temps : t.cg.run.isSome = true → ∀ p j, j < 8 → ¬tp p j →
    Map.getD t.crun.temps (8 * p + j) 0 = Map.getD s.crun.temps (8 * p + j) 0
  others : t.cg.run = none → ∀ x ∈ s.cg.entries.erase s.entry, ∃ y ∈ t.cg.entries, y.pc = x.pc ∧ y.handler = x.handler
    ∧ x.mask &&& y.mask = x.mask ∧ (joins x (nextPC s.crun.pc) s.entry.handler = false → y = aged x)

/-- `t` is `s` but for registers, predicates and the run and frontier of the acting group: `v cl r`, `g r`, `p cl r` and `tp p j` tell which
v registers, g registers, predicate bits and temporaries may differ. Memory, caches, every other register and every other group and cell
stand. -/
structure RegFrame (s t : State) (v : Nat → Nat → Prop) (g : Nat → Prop) (p : Nat → Nat → Prop) (tp : Nat → Nat → Prop := noneV) : Prop where
  rest : t = { s with cells := t.cells }
  cells : ∀ c, c ≠ s.cur.cell → Map.find c t.cells = Map.find c s.cells
  cell : t.cc = { s.cc with vregs := t.cc.vregs, preds := t.cc.preds, groups := t.cc.groups }
  vregs : ∀ cl r, r < 256 → ¬v cl r → t.cc.vreg cl r = s.cc.vreg cl r
  preds : ∀ cl r, ¬p cl r → t.cc.pred cl r = s.cc.pred cl r
  groups : ∀ k, k ≠ s.cur.grp → Map.find k t.cc.groups = Map.find k s.cc.groups
  group : t.cg = { s.cg with gregs := t.cg.gregs, entries := t.cg.entries, run := t.cg.run, settled := t.cg.settled }
  gregs : ∀ r, ¬g r → t.cg.greg r = s.cg.greg r
  run : RunFrame s t tp
  marks : t.cg.run.isSome = true → t.crun.empty = s.crun.empty ∧ t.crun.pend = s.crun.pend

/-- The v register `r` of original lane `cl` is one that `d` names in a lane active for `gd`. -/
def DstV (s : State) (gd : Guard) (d : Dst) (ty : Ty) (cl r : Nat) : Prop :=
  (∃ p ∈ s.active gd, s.cc.clAt s.cur.grp p = some cl) ∧ Reg.v r ∈ dstRegs d ty.width
/-- The g register `r` is the one `d` names. -/
def DstG (d : Dst) (r : Nat) : Prop := Reg.g r ∈ dstRegs d 64
/-- The temporary `j` of position `p` is the one `d` names, in an active lane. -/
def DstT (s : State) (gd : Guard) (d : Dst) (p j : Nat) : Prop := p ∈ s.active gd ∧ ∃ i, d = .t i ∧ i.toNat = j

/-- An element-wise result (R109): every active lane's destination holds `f` of its position, evaluated before any write; a g
destination is written once, with `f` of the position a uniform operand is read at, and not at all with no lane active. -/
def ElementWise (s t : State) (gd : Guard) (d : Dst) (ty : Ty) (f : Nat → Nat) : Prop :=
  match d with
  | .g _ => s.active gd ≠ [] → Holds t d ty (f (s.uniPos gd) % 2 ^ ty.width) (s.uniPos gd)
  | _ => ∀ p ∈ s.active gd, Holds t d ty (f p % 2 ^ ty.width) p

/-- `t` is `s` but for what starting a long-latency producer and the advance of the run change in the acting group: its producers,
the empty bits of `regs`, the pending bit of `pf`, its run and frontier. -/
structure LongFrame (s t : State) (regs : List Reg) (pf : Nat) : Prop where
  rest : t = { s with cells := t.cells }
  cells : ∀ c, c ≠ s.cur.cell → Map.find c t.cells = Map.find c s.cells
  cell : t.cc = { s.cc with groups := t.cc.groups }
  groups : ∀ k, k ≠ s.cur.grp → Map.find k t.cc.groups = Map.find k s.cc.groups
  group : t.cg = { s.cg with vEmpty := t.cg.vEmpty, gEmpty := t.cg.gEmpty, pPend := t.cg.pPend, outs := t.cg.outs,
                             entries := t.cg.entries, run := t.cg.run, settled := t.cg.settled }
  empties : ∀ r, r ∉ regs → t.cg.isEmpty r = s.cg.isEmpty r
  pends : ∀ q, q ≠ pf → t.cg.pPend.getLsbD q = s.cg.pPend.getLsbD q
  run : RunFrame s t noneV

/-- A producer started between `s` and `t` (R38): it will write `ws`, its registers are empty and its predicate pending until
LONG_LATENCY_COMPLETE. -/
def Started (s t : State) (ws : List RegWrite) (regs : List Reg) (pf : Option Nat) : Prop :=
  t.cg.outs = s.cg.outs ++ [{ writes := ws, regs := regs, pred := pf, fault := none, ckpt := none }]
  ∧ ∀ r ∈ regs, match r with | .v i => i < 256 → t.cg.isEmpty r = true | .g i => i < 96 → t.cg.isEmpty r = true

/-- `t` is `s` but for the acting group's run and frontier and the tables of the acting cell. -/
structure CellFrame (s t : State) : Prop where
  rest : t = { s with cells := t.cells }
  cells : ∀ c, c ≠ s.cur.cell → Map.find c t.cells = Map.find c s.cells
  groups : ∀ k, k ≠ s.cur.grp → Map.find k t.cc.groups = Map.find k s.cc.groups
  group : t.cg = { s.cg with entries := t.cg.entries, run := t.cg.run, settled := t.cg.settled }

end Sys2Proof
end

