-- ==== Sys2Proof/Rules.lean ====
section
/-! DEFINITION. The result tables of the rules, as the statements use them: what each instruction of a family computes in a lane. -/
namespace Sys2Proof.Rules
open Sys2Proof Machine State

/-- An element-wise instruction: its operands, the type its result is written as, and the pattern `F` of each position. -/
abbrev Elem := AOp × Ty × (State → Nat → Nat)

/-- E of R115, an exact value of A, B and C. -/
def exact115 : Instr → Option (AOp × (Int → Int → Int → Int))
  | .add o => some (o, fun a b _ => a + b)
  | .sub o => some (o, fun a b _ => a - b)
  | .mul o => some (o, fun a b _ => a * b)
  | .mulhi o => some (o, fun a b _ => (a * b).fdiv (2 ^ o.ty.width))
  | .mad o => some (o, fun a b c => a * b + c)
  | .sad o => some (o, fun a b c => |a - b| + c)
  | .neg o => some (o, fun a _ _ => -a)
  | .abs o => some (o, fun a _ _ => |a|)
  | .min o => some (o, fun a b _ => min a b)
  | .max o => some (o, fun a b _ => max a b)
  | .clamp o => some (o, fun a b c => max b (min a c))
  | _ => none

/-- The w-bit pattern of source field `n` (R118). -/
def pat (s : State) (n : Nat) (x : Src) (t : Ty) (p : Nat) : Nat := s.src n x t.width p

/-- F of the moves, the divisions, `cvti`, `lea`, `dot4i` (R114, R117, R124-R126). -/
def intElem : Instr → Option Elem
  | .mov o => some (o, o.ty, fun s p => (s.read 0 o.a o.ty p % 2 ^ o.ty.width).toNat)
  | .movi o => some (o, o.ty, fun _ _ =>
      if o.ty.width = 64 then ((if o.ty.signed then o.m.toInt else (o.m.toNat : Int)) % 2 ^ 64).toNat else o.m.toNat % 2 ^ o.ty.width)
  | .div o => some (o, o.ty, fun s p =>
      let a := s.read 0 o.a o.ty p
      let b := s.read 1 o.b o.ty p
      if b = 0 then 2 ^ o.ty.width - 1 else fin o.ty (a.tdiv b) (o.m.getLsbD 0))
  | .rem o => some (o, o.ty, fun s p =>
      let a := s.read 0 o.a o.ty p
      let b := s.read 1 o.b o.ty p
      fin o.ty (if b = 0 then a else a - b * a.tdiv b) false)
  | .cvti o => some (o, o.ty, fun s p => fin o.ty (s.read 0 o.a (o.stype 0x17) p) (o.m.getLsbD 0))
  | .lea o => some (o, .n64, fun s p =>
      ((s.read 0 o.a .n64 p + s.read 1 o.b o.ty p * 2 ^ bits o.m.toNat 2 0 + sext 24 (bits o.m.toNat 31 8)) % 2 ^ 57).toNat)
  | .dot4i o =>
      let r : Ty := if o.ty == .i8 then .i32 else .n32
      let byte := fun (s : State) (n : Nat) (x : Src) (p k : Nat) => tyVal o.ty (s.src n x 32 p / 2 ^ (8 * k) % 256)
      some (o, r, fun s p => fin r (s.read 2 o.c r p + byte s 0 o.a p 0 * byte s 1 o.b p 0 + byte s 0 o.a p 1 * byte s 1 o.b p 1
        + byte s 0 o.a p 2 * byte s 1 o.b p 2 + byte s 0 o.a p 3 * byte s 1 o.b p 3) (o.m.getLsbD 0))
  | _ => none

/-- P of the logic instructions, the shifts, the field instructions, the counts and `sel` (R118-R121, R123). -/
def bitElem : Instr → Option Elem
  | .and o => some (o, o.ty, fun s p => pat s 0 o.a o.ty p &&& pat s 1 o.b o.ty p)
  | .or o => some (o, o.ty, fun s p => pat s 0 o.a o.ty p ||| pat s 1 o.b o.ty p)
  | .xor o => some (o, o.ty, fun s p => pat s 0 o.a o.ty p ^^^ pat s 1 o.b o.ty p)
  | .andn o => some (o, o.ty, fun s p => pat s 0 o.a o.ty p &&& (2 ^ o.ty.width - 1 - pat s 1 o.b o.ty p))
  | .not o => some (o, o.ty, fun s p => 2 ^ o.ty.width - 1 - pat s 0 o.a o.ty p)
  | .shl o => some (o, o.ty, fun s p => pat s 0 o.a o.ty p * 2 ^ pat s 1 o.b .n8 p % 2 ^ o.ty.width)
  | .shr o => some (o, o.ty, fun s p => pat s 0 o.a o.ty p / 2 ^ pat s 1 o.b .n8 p)
  | .sar o => some (o, o.ty, fun s p =>
      ((sext o.ty.width (pat s 0 o.a o.ty p)).fdiv (2 ^ pat s 1 o.b .n8 p) % 2 ^ o.ty.width).toNat)
  | .rol o => some (o, o.ty, fun s p =>
      let w := o.ty.width
      let n := pat s 1 o.b .n8 p % w
      (pat s 0 o.a o.ty p * 2 ^ n + pat s 0 o.a o.ty p / 2 ^ (w - n)) % 2 ^ w)
  | .bfx o => some (o, o.ty, fun s p =>
      let v := if o.m.getLsbD 16 then o.m.toNat else s.src 1 o.b 32 p
      let f := (s.read 0 o.a o.ty p).fdiv (2 ^ bits v 7 0) % 2 ^ bits v 15 8
      fin o.ty (if o.ty.signed ∧ 0 < bits v 15 8 ∧ 2 ^ (bits v 15 8 - 1) ≤ f then f - 2 ^ bits v 15 8 else f) false)
  | .bfi o => some (o, o.ty, fun s p =>
      let v := if o.m.getLsbD 16 then o.m.toNat else s.src 2 o.c 32 p
      let m := (2 ^ bits v 15 8 - 1) * 2 ^ bits v 7 0 % 2 ^ o.ty.width
      (pat s 0 o.a o.ty p &&& (2 ^ o.ty.width - 1 - m)) ||| (pat s 1 o.b o.ty p * 2 ^ bits v 7 0 &&& m))
  | .brev o => some (o, o.ty, fun s p => brevValue o.ty.width (pat s 0 o.a o.ty p))
  | .popc o => some (o, o.ty, fun s p => popc (pat s 0 o.a o.ty p) o.ty.width)
  | .clz o => some (o, o.ty, fun s p => clzValue o.ty.width (pat s 0 o.a o.ty p))
  | .ctz o => some (o, o.ty, fun s p => ctzValue o.ty.width (pat s 0 o.a o.ty p))
  | .sel o => some (o, o.ty, fun s p =>
      if s.predAt p (bits o.m.toNat 11 8) then pat s 0 o.a o.ty p else pat s 1 o.b o.ty p)
  | _ => none

/-- Votes, lane moves, permutations, reductions and maps (R128-R132, R229-R234). -/
def laneElem : Instr → Option Elem
  | .ballot o => some (o, .n32, fun s _ => (maskOf (voters o s)).toNat)
  | .pcnt o => some (o, .n32, fun s _ => (voters o s).length)
  | .vtog o => some (o, o.ty, fun s p => pat s 0 o.a o.ty (pat s 1 o.b .n8 p % 32))
  | .lshfl o => some (o, o.ty, fun s p =>
      pat s 0 o.a o.ty (shuffleFrom o.variant.toNat (2 ^ (bits o.m.toNat 11 9 + 1)) p (s.src 1 o.b 32 p)))
  | .lbcast o => some (o, o.ty, fun s _ => pat s 0 o.a o.ty (s.src 1 o.b 8 (s.uniPos o.gd) % 32))
  | .lperm o => some (o, .n32, fun s p =>
      let ab := s.src 0 o.a 32 p + s.src 1 o.b 32 p * 2 ^ 32
      let c := s.src 2 o.c 32 p
      permByte ab c 0 + permByte ab c 1 * 2 ^ 8 + permByte ab c 2 * 2 ^ 16 + permByte ab c 3 * 2 ^ 24)
  | .lred o => some (o, redTy o.ty, fun s _ => reduceValue o s)
  | .lmap o => some (o, .n32, fun s p =>
      (maskOf ((s.active o.gd).filter fun q => pat s 0 o.a o.ty q = pat s 0 o.a o.ty p)).toNat)
  | _ => none

/-- The predicate a comparison, a predicate instruction or a vote writes in each active lane (R122, R127-R129, R214). -/
def predRule : Instr → Option (AOp × Nat × (State → Nat → Bool))
  | .cmp o => some (o, bits o.m.toNat 15 12, fun s p =>
      let a := s.read 0 o.a o.ty p
      let b := s.read 1 o.b o.ty p
      match o.variant.toNat with
      | 0 => a = b | 1 => a ≠ b | 2 => a < b | 3 => a ≤ b | 4 => b < a | _ => b ≤ a)
  | .fcmp o => some (o, bits o.m.toNat 31 28, fun s p =>
      fcond o.variant.toNat (valF o.ty (o.m.getLsbD 5) (elemOf s 0 o.a o.ty p 0)) (valF o.ty (o.m.getLsbD 5) (elemOf s 1 o.b o.ty p 0)))
  | .dcmp o => some (o, bits o.m.toNat 31 28, fun s p =>
      fcond o.variant.toNat (valF o.ty (o.m.getLsbD 5) (elemOf s 0 o.a o.ty p 0)) (valF o.ty (o.m.getLsbD 5) (elemOf s 1 o.b o.ty p 0)))
  | .pand o => some (o, bits o.m.toNat 15 12, fun s p => s.predAt p (bits o.m.toNat 11 8) && s.predAt p (bits o.m.toNat 7 4))
  | .por o => some (o, bits o.m.toNat 15 12, fun s p => s.predAt p (bits o.m.toNat 11 8) || s.predAt p (bits o.m.toNat 7 4))
  | .pxor o => some (o, bits o.m.toNat 15 12, fun s p => s.predAt p (bits o.m.toNat 11 8) != s.predAt p (bits o.m.toNat 7 4))
  | .pnot o => some (o, bits o.m.toNat 15 12, fun s p => !s.predAt p (bits o.m.toNat 11 8))
  | .pmov o => some (o, bits o.m.toNat 15 12, fun s p => s.predAt p (bits o.m.toNat 11 8))
  | .vany o => some (o, bits o.m.toNat 15 12, fun s _ => (s.active o.gd).any fun q => s.predAt q (bits o.m.toNat 11 8))
  | .vall o => some (o, bits o.m.toNat 15 12, fun s _ => (s.active o.gd).all fun q => s.predAt q (bits o.m.toNat 11 8))
  | .gtov o => some (o, bits o.m.toNat 15 12, fun s p => (s.gsrc o.a).getLsbD p)
  | _ => none

/-- One rounding of a function of the sources, element by element (R211, R212, R221). -/
def perElement (major : Nat) (o : AOp) (f : RCtx → List Nat → Nat) : Elem :=
  (o, (if o.ty.width = 64 then .n64 else .n32), fun s p =>
    let e := fun k =>
      let srcs := (aSources major o).map fun x => elemOf s x.1 x.2 o.ty p k
      let mixed := (aSources major o).zipWith (fun x u => drawOf s x.1 x.2 p u) srcs
      f (fmCtx o.m (drawFor s (bits o.m.toNat 8 6) major p k mixed)) srcs
    if o.m.getLsbD 2 then e 0 + e 1 * 2 ^ o.ty.width else e 0)
/-- Exact arithmetic on the source values, rounded once (R192, R193). -/
def once (major : Nat) (o : AOp) (f : RCtx → List Val → Val) : Elem :=
  perElement major o fun c l => arith o.ty c (l.map (valF o.ty c.ftz)) (f c (l.map (valF o.ty c.ftz)))
/-- A function of the one source value. -/
def ofOne (major : Nat) (o : AOp) (f : RCtx → Val → Nat) : Elem := perElement major o fun c l => f c (valF o.ty c.ftz (l.getD 0 0))

/-- The floating-point instructions of majors 0x30-0x4B with one result per lane (R212-R223). -/
def floatElem : Instr → Option Elem
  | .fadd o => some (once 0x30 o fun c l => addV (c.mode == 3) (v0 l) (v1 l))
  | .fsub o => some (once 0x31 o fun c l => addV (c.mode == 3) (v0 l) (v1 l).neg)
  | .fmul o => some (once 0x32 o fun _ l => mulV (v0 l) (v1 l))
  | .ffma o => some (once 0x33 o fun c l => addV (c.mode == 3) (mulV (v0 l) (v1 l)) (v2 l))
  | .fmin o => some (perElement 0x34 o fun c l => fminmax o.ty false c.ftz (l.getD 0 0) (l.getD 1 0))
  | .fmax o => some (perElement 0x35 o fun c l => fminmax o.ty true c.ftz (l.getD 0 0) (l.getD 1 0))
  | .fclass o => some (o, .n32, fun s p => classOf o.ty (elemOf s 0 o.a o.ty p 0))
  | .frnd o => some (ofOne 0x38 o (frndV o.ty))
  | .frcp o => some (ofOne 0x39 o (frcpV o.ty))
  | .frsq o => some (ofOne 0x3A o (frsqV o.ty))
  | .fsqrt o => some (ofOne 0x3B o (fsqrtV o.ty))
  | .fexpf o => some (ofOne 0x3C o fexpfV)
  | .flog2 o => some (ofOne 0x3D o flog2V)
  | .fsinf o => some (ofOne 0x3E o fsinfV)
  | .fcosf o => some (ofOne 0x3F o fcosfV)
  | .xins o => some (o, .n32, fun s p =>
      let a := elemOf s 0 o.a o.ty p 0
      let c := fmCtx o.m (drawFor s (bits o.m.toNat 8 6) 0x40 p 0 [drawOf s 0 o.a p a, s.src 1 o.b 32 p])
      xinsV o.ty c (valF o.ty c.ftz a) (s.read 1 o.b .i32 p))
  | .xgetE o => some (o, .i32, fun s p => (xgetExp (valF o.ty (o.m.getLsbD 5) (elemOf s 0 o.a o.ty p 0)) % (2 : Int) ^ 32).toNat)
  | .xgetM o => some (ofOne 0x41 o (xgetMant o.ty))
  | .fcvt o => some (o, writeTy o.ty, fun s p =>
      let st := o.stype 0x42
      let u := if st.code < 8 then s.src 0 o.a st.width p else elemOf s 0 o.a st p 0
      convert o.ty st (fmCtx o.m (drawFor s (bits o.m.toNat 8 6) 0x42 p 0 [drawOf s 0 o.a p u])) u)
  | .dcvt o => some (o, writeTy o.ty, fun s p =>
      let st := o.stype 0x4B
      let u := if st.code < 8 then s.src 0 o.a st.width p else elemOf s 0 o.a st p 0
      convert o.ty st (fmCtx o.m (drawFor s (bits o.m.toNat 8 6) 0x4B p 0 [drawOf s 0 o.a p u])) u)
  | .fcvtPk o => some (o, .n32, fun s p =>
      let l := [elemOf s 0 o.a .f32 p 0, elemOf s 1 o.b .f32 p 0]
      let c := fun k => fmCtx o.m (drawFor s (bits o.m.toNat 8 6) 0x42 p k l)
      convert o.ty .f32 (c 0) (elemOf s 0 o.a .f32 p 0) + convert o.ty .f32 (c 1) (elemOf s 1 o.b .f32 p 0) * 2 ^ 16)
  | .fdot2 o => some (o, .n32, fun s p =>
      let e := fun n x k => elemOf s n x o.ty p k
      let cw := elemOf s 2 o.c .f32 p 0
      let c := fmCtx o.m (drawFor s (bits o.m.toNat 8 6) 0x46 p 0
        [e 0 o.a 0 + e 0 o.a 1 * 2 ^ 16, e 1 o.b 0 + e 1 o.b 1 * 2 ^ 16, cw])
      let v := valF o.ty c.ftz
      let l := [v (e 0 o.a 0), v (e 0 o.a 1), v (e 1 o.b 0), v (e 1 o.b 1), valF .f32 c.ftz cw]
      arith .f32 c l (sumV (c.mode == 3) [valF .f32 c.ftz cw, mulV (v (e 0 o.a 0)) (v (e 1 o.b 0)), mulV (v (e 0 o.a 1)) (v (e 1 o.b 1))]))
  | .dadd o => some (once 0x47 o fun c l => addV (c.mode == 3) (v0 l) (v1 l))
  | .dmul o => some (once 0x48 o fun _ l => mulV (v0 l) (v1 l))
  | .dfma o => some (once 0x49 o fun c l => addV (c.mode == 3) (mulV (v0 l) (v1 l)) (v2 l))
  | .dcvtInt o => some (ofOne 0x4B o (frndV o.ty))
  | _ => none

/-- The value `chrun` writes in a lane (R237): the chain `ch` run on the elements of its operands, one for a 32-bit type and two for a
16-bit one, each rounded as the chain's out byte says. -/
def chainElem (o : AOp) (ch : Chain) (s : State) (p : Nat) : Nat :=
  let one := fun (e : Nat) =>
    let xyz := [elemOf s 0 o.a o.ty p e, elemOf s 1 o.b o.ty p e, elemOf s 2 o.c o.ty p e].map (chainIn o.ty)
    let c : RCtx := { mode := bits ch.out.toNat 2 0, ftz := bits ch.out.toNat 3 3 == 1, sat := bits ch.out.toNat 4 4 == 1,
                      draw := drawFor s (bits ch.out.toNat 2 0) 0x61 p e xyz }
    roundVal o.ty c true (val .f32 (runChain ch xyz))
  if o.ty.width = 16 then one 0 + one 1 * 2 ^ 16 else one 0

/-- The accesses of `ld` and `st` in global memory, or in per-thread memory (R166). -/
def lanesOf (o : MOp) (s : State) (ps : List Nat) (l : List (Nat × Nat × List (Nat × Nat))) : Prop :=
  if o.variant = 1 then ptLanes o (o.ty.width / 8) s ps = .ok l else l = globalLanes o (o.ty.width / 8) s ps

/-- The checks of R157 that a load, store or atomic to global memory asks for in each lane. -/
def globalAcc (s : State) : Instr → Option (MOp × Acc)
  | .ld o => some (o, { n := o.ty.width / 8, rd := true, wr := false, io := true, absorb := o.res != 0, home := wide o.scope })
  | .ldc o => some (o, { n := o.ty.width / 8, rd := true, wr := false, absorb := true, io := refuses s })
  | .st o => some (o, { n := o.ty.width / 8, rd := false, wr := true, io := true, home := wide o.scope })
  | .atom o => some (o, { n := o.ty.width / 8, rd := true, wr := true, io := refuses s, home := true })
  | .red o => some (o, { n := o.ty.width / 8, rd := true, wr := true, kind := true })
  | _ => none

/-- The acting group may use the matrix state (R263, R271): its own `msave` holds it, or none does and the group is not in handler mode. -/
def mayUseTiles (s : State) : Prop := s.cc.saved = some s.cur.grp ∨ (s.cc.saved = none ∧ s.cg.handler = false)

/-- Where the lanes of an entry go on: the lanes `ps` at `target`, every other lane at the next slot. -/
def splitAt (s : State) (ps : List Nat) (target : Nat → BitVec 64) (p : Nat) : Option (BitVec 64) :=
  some (if p ∈ ps then target p else nextPC s.crun.pc)

end Sys2Proof.Rules
end

