-- ==== Sys2Proof/Certificates/Slice0/Obligations.lean ====
section
/-! DEFINITION. The statements, one definition each; `OBLIGATIONS.json` lists them with the rules they rest on. -/
open Sys2Proof Sys2Proof.Machine Sys2Proof.Machine.State Sys2Proof.Rules

/-! ### Lane arithmetic -/

/-- R115: `add`, `sub`, `mul`, `mulhi`, `mad`, `sad`, `neg`, `abs`, `min`, `max` and `clamp` answer a next state in which every active
lane's destination holds Fin(T, E, sat) of its own sources, and nothing else but the frontier has changed. -/
def Obligations.IntegerArithmeticResults : Prop :=
  ∀ i o e s s1, Rules.exact115 i = some (o, e) → i.WellFormed → Issues i s s1 →
    ∃ t, exec i s = .next t
      ∧ ElementWise s1 t o.gd o.d o.ty (fun p => fin o.ty (e (s1.read 0 o.a o.ty p) (s1.read 1 o.b o.ty p) (s1.read 2 o.c o.ty p)) (o.m.getLsbD 0))
      ∧ RegFrame s1 t (DstV s1 o.gd o.d o.ty) (DstG o.d) noneV (DstT s1 o.gd o.d)

/-- R114, R117-R121, R123-R126, R128-R130, R229-R232, R234: moves, divisions, conversions, `lea`, `dot4i`; logic, shifts, fields,
counts, `sel`; `ballot`, `pcnt`, `vtog` and the lane moves: every active lane's destination holds its rule's result of its own sources,
and nothing else but the frontier has changed. -/
def Obligations.MoveLogicShiftAndLaneResults : Prop :=
  ∀ i o ty f s s1, (Rules.intElem i = some (o, ty, f) ∨ Rules.bitElem i = some (o, ty, f) ∨ Rules.laneElem i = some (o, ty, f)) → i.WellFormed → Issues i s s1 →
    ∃ t, exec i s = .next t ∧ ElementWise s1 t o.gd o.d ty (f s1) ∧ RegFrame s1 t (DstV s1 o.gd o.d ty) (DstG o.d) noneV (DstT s1 o.gd o.d)

/-- R212-R223: the floating-point instructions with one result per lane. The model's choices in it: `fexpf`, `flog2`, `fsinf` and `fcosf` are
taken to 400 bits before they are rounded (log 17), `.sat` of an infinity (log 18), what a packed draw mixes (log 19), the first NaN of a
packed `fdot2` source (log 114), narrow immediates (log 115), an immediate float source of a conversion (log 132) and element 1 of one of
`fdot2` (log 133). -/
def Obligations.FloatResults : Prop :=
  ∀ i o ty f s s1, Rules.floatElem i = some (o, ty, f) → i.WellFormed → Issues i s s1 →
    ∃ t, exec i s = .next t ∧ ElementWise s1 t o.gd o.d ty (f s1) ∧ RegFrame s1 t (DstV s1 o.gd o.d ty) (DstG o.d) noneV (DstT s1 o.gd o.d)

/-- R122, R127-R129, R214: `cmp`, `fcmp`, `dcmp`, the predicate instructions, `vany`, `vall` and `gtov` write their predicate in every
active lane (p0 discards, R105) and leave every other bit, register and byte. -/
def Obligations.PredicateResults : Prop :=
  ∀ i o r f s s1, Rules.predRule i = some (o, r, f) → i.WellFormed → Issues i s s1 →
    ∃ t, exec i s = .next t
      ∧ (r ≠ 0 → ∀ p ∈ s1.active o.gd, (s1.cc.clAt s1.cur.grp p).isSome → t.predAt p r = f s1 p)
      ∧ RegFrame s1 t noneV noneG (fun cl q => q = r ∧ ∃ p ∈ s1.active o.gd, s1.cc.clAt s1.cur.grp p = some cl)

/-- R116: `addc` and `subb` write the wrapped sum or difference with the carry-in, and the carry or borrow, in every active lane. -/
def Obligations.CarryResults : Prop :=
  ∀ (sub : Bool) (o : AOp) s s1, let i := if sub then Instr.subb o else Instr.addc o
    i.WellFormed → Issues i s s1 →
    let k := fun p => if o.m.getLsbD 16 ∧ s1.predAt p (bits o.m.toNat 11 8) then (1 : Int) else 0
    let x := fun p => if sub then s1.read 0 o.a o.ty p - s1.read 1 o.b o.ty p - k p else s1.read 0 o.a o.ty p + s1.read 1 o.b o.ty p + k p
    ∃ t, exec i s = .next t
      ∧ (∀ p ∈ s1.active o.gd, (s1.cc.clAt s1.cur.grp p).isSome →
          Holds t o.d o.ty (x p % 2 ^ o.ty.width).toNat p
          ∧ (bits o.m.toNat 15 12 ≠ 0 → t.predAt p (bits o.m.toNat 15 12) = if sub then decide (x p < 0) else decide (2 ^ o.ty.width ≤ x p)))
      ∧ RegFrame s1 t (DstV s1 o.gd o.d o.ty) (DstG o.d)
          (fun cl q => q = bits o.m.toNat 15 12 ∧ ∃ p ∈ s1.active o.gd, s1.cc.clAt s1.cur.grp p = some cl) (DstT s1 o.gd o.d)

/-- R79, R114: `nop` changes nothing a program reads; `movw` writes the high half of its destination and keeps the low half. -/
def Obligations.NopAndMovwResults : Prop :=
  (∀ o s s1, Issues (.nop o) s s1 → ∃ t, exec (.nop o) s = .next t ∧ RegFrame s1 t noneV noneG noneV) ∧
  (∀ o s s1, (Instr.movw o).WellFormed → Issues (.movw o) s s1 → ∃ t, exec (.movw o) s = .next t
    ∧ (match o.d with
       | .v i => ∀ p ∈ s1.active o.gd, ∀ cl, s1.cc.clAt s1.cur.grp p = some cl →
           t.cc.vreg cl (i.toNat + 1) = o.m ∧ t.cc.vreg cl i.toNat = s1.cc.vreg cl i.toNat
       | .g i => s1.active o.gd ≠ [] → t.cg.greg i.toNat = o.m ++ (s1.cg.greg i.toNat).setWidth 32
       | .t i => ∀ p ∈ s1.active o.gd, t.cg.run.isSome →
           Map.getD t.crun.temps (8 * p + i.toNat) 0 = o.m ++ (Map.getD s1.crun.temps (8 * p + i.toNat) 0).setWidth 32)
    ∧ RegFrame s1 t (DstV s1 o.gd o.d .n64) (DstG o.d) noneV (DstT s1 o.gd o.d))

/-- R225-R227, R233: `fscl`, `fqnt`, `fdqt` and `lscan` answer the next state of their effect; it writes only the destination registers
of the active lanes and, for `fscl` and `fqnt`, their predicate. -/
def Obligations.RangeConversionAndScanFrames : Prop :=
  (∀ o s s1, (Instr.fscl o).WellFormed → Issues (.fscl o) s s1 → ∃ t, exec (.fscl o) s = .next t ∧ t = goesOn (.fscl o) (fsclEffect o s1)
    ∧ RegFrame s1 t (DstV s1 o.gd o.d .n32) noneG (fun cl q => q = bits o.m.toNat 31 28 ∧ ∃ p ∈ s1.active o.gd, s1.cc.clAt s1.cur.grp p = some cl) (DstT s1 o.gd o.d)) ∧
  (∀ o s s1, (Instr.fqnt o).WellFormed → Issues (.fqnt o) s s1 → ∃ t, exec (.fqnt o) s = .next t ∧ t = goesOn (.fqnt o) (fqntEffect o s1)
    ∧ RegFrame s1 t (DstV s1 o.gd o.d .n32) noneG (fun cl q => q = bits o.m.toNat 31 28 ∧ ∃ p ∈ s1.active o.gd, s1.cc.clAt s1.cur.grp p = some cl) (DstT s1 o.gd o.d)) ∧
  (∀ o s s1, (Instr.fdqt o).WellFormed → Issues (.fdqt o) s s1 → ∃ t, exec (.fdqt o) s = .next t ∧ t = goesOn (.fdqt o) (fdqtEffect o s1)
    ∧ RegFrame s1 t (fun cl r => (∃ p ∈ s1.active o.gd, s1.cc.clAt s1.cur.grp p = some cl)
        ∧ o.d.vIdx ≤ r ∧ r < o.d.vIdx + rangeLen (o.stype 0x44) o.ty) noneG noneV) ∧
  (∀ o s s1, (Instr.lscan o).WellFormed → Issues (.lscan o) s s1 → ∃ t, exec (.lscan o) s = .next t
    ∧ (∀ x ∈ scanFrom (scanKind o.variant.toNat).1 o.ty (bits o.m.toNat 8 6) (fun p => s1.src 0 o.a o.ty.width p)
        (scanKind o.variant.toNat).2 none (s1.active o.gd), Holds t o.d (redTy o.ty) (x.2 % 2 ^ (redTy o.ty).width) x.1)
    ∧ RegFrame s1 t (DstV s1 o.gd o.d o.ty) (DstG o.d) noneV (DstT s1 o.gd o.d))

/-! ### Memory -/

/-- R164, R165, R171: `lds` and `ldl` with every active lane aligned and inside its space start a producer that will write each lane's
little-endian bytes; scratchpad, lane store, memory and every register stand until it completes. The scratchpad passes beyond the first
are counted. -/
def Obligations.ScratchpadAndLaneStoreLoads : Prop :=
  ∀ (lane : Bool) (o : MOp) s s1, let i := if lane then Instr.ldl o else Instr.lds o
    i.WellFormed → Issues i s s1 →
    let n := o.ty.width / 8
    let ps := if lane then s1.active o.gd else accessLanes o.gd o.data.isG s1
    let size := if lane then s1.cc.lstoreSz else s1.cc.scratchSz
    (∀ p ∈ ps, addrOf o s1 p % n = 0 ∧ addrOf o s1 p + n ≤ size) →
    let value := fun p => leNat (if lane then Map.bytes s1.cc.lstore (2048 * s1.clOf p + addrOf o s1 p) n else Map.bytes s1.cc.scratch (addrOf o s1 p) n)
    let s2 := if lane then s1 else countPasses n (ps.map (addrOf o s1)) s1
    ∃ t, exec i s = .next t
      ∧ Started s2 t (ps.flatMap fun p => s1.lateWrite o.data (memTy o.ty) (value p) p) (dstRegs o.data o.ty.width) none
      ∧ LongFrame s2 t (dstRegs o.data o.ty.width) 0

/-- R164, R165, R174: `sts` (relaxed) and `stl` with every active lane aligned and inside its space store each lane's bytes, lanes in
increasing order; every other byte of scratchpad and lane store, all of memory and every register stand. The scratchpad passes beyond
the first are counted. R164, R174, R176: `sts` with a release merges the group's accumulation buffers, then stores. -/
def Obligations.ScratchpadAndLaneStoreStores : Prop :=
  (∀ (lane : Bool) (o : MOp) s s1, let i := if lane then Instr.stl o else Instr.sts o
    i.WellFormed → Issues i s s1 → o.order = .rlx →
    let n := o.ty.width / 8
    let ps := s1.active o.gd
    let size := if lane then s1.cc.lstoreSz else s1.cc.scratchSz
    (∀ p ∈ ps, addrOf o s1 p % n = 0 ∧ addrOf o s1 p + n ≤ size) →
    let at' := fun p => if lane then 2048 * s1.clOf p + addrOf o s1 p else addrOf o s1 p
    ∃ t, exec i s = .next t
      ∧ (∀ p ∈ ps, (∀ q ∈ ps, p < q → at' q + n ≤ at' p ∨ at' p + n ≤ at' q) →
          Map.bytes (if lane then t.cc.lstore else t.cc.scratch) (at' p) n = leBytes n (storeValue o s1 p))
      ∧ (∀ a, (∀ p ∈ ps, a < at' p ∨ at' p + n ≤ a) →
          Map.getD (if lane then t.cc.lstore else t.cc.scratch) a 0 = Map.getD (if lane then s1.cc.lstore else s1.cc.scratch) a 0)
      ∧ t.cc = { s1.cc with groups := t.cc.groups, lstore := if lane then t.cc.lstore else s1.cc.lstore,
                            scratch := if lane then s1.cc.scratch else t.cc.scratch, scrLog := if lane then s1.cc.scrLog else t.cc.scrLog }
      ∧ CellFrame (if lane then s1 else countPasses n (ps.map at') s1) t ∧ RunFrame s1 t noneV) ∧
  (∀ (o : MOp) s s1, (Instr.sts o).WellFormed → Issues (.sts o) s s1 → o.order = .rel →
    let n := o.ty.width / 8
    (∀ p ∈ s1.active o.gd, addrOf o s1 p % n = 0 ∧ addrOf o s1 p + n ≤ s1.cc.scratchSz) →
    let s2 := (countPasses n ((s1.active o.gd).map (addrOf o s1)) s1).mergeGroup s1.ck s1.cur
    exec (.sts o) s = .next (goesOn (.sts o) (s2.modCc fun c =>
      ((s1.active o.gd).map fun p => (addrOf o s1 p, leBytes n (storeValue o s1 p))).foldl (fun c x => c.putScratch s2.fresh x.1 x.2) c)))

/-- R164, R165: an `lds`, `sts`, `ldl` or `stl` that is misaligned raises ALIGN, and one that leaves the allocation PROT with
sub-cause 4, for the lowest such lane; TRAPADDR is to hold its offset. R157 point 1: an `ld`, `ldc`, `st`, `atom` or `red` of a lane at an
address that is no multiple of its width, all lower lanes passing their checks, raises ALIGN for that lane, before any lane's access is
performed; of `ld` and `st`, so does a lane of `.pt`, R166, at an offset that is none. -/
def Obligations.AccessChecksRaise : Prop :=
  (∀ (i : Instr) (o : MOp) s s1 p ps qs,
    (i = .lds o ∧ accessLanes o.gd o.data.isG s1 = ps ++ p :: qs) ∨ ((i = .sts o ∨ i = .ldl o ∨ i = .stl o) ∧ s1.active o.gd = ps ++ p :: qs) →
    Issues i s s1 →
    let n := o.ty.width / 8
    let size := if i = .ldl o ∨ i = .stl o then s1.cc.lstoreSz else s1.cc.scratchSz
    (∀ q ∈ ps, addrOf o s1 q % n = 0 ∧ addrOf o s1 q + n ≤ size) →
    (addrOf o s1 p % n ≠ 0 → exec i s = .next (s.raise { code := fAlign, addr := BitVec.ofNat 64 (addrOf o s1 p), lane := p }))
    ∧ (addrOf o s1 p % n = 0 → size < addrOf o s1 p + n →
        exec i s = .next (s.raise { code := fProt, sub := 4, addr := BitVec.ofNat 64 (addrOf o s1 p), lane := p }))) ∧
  (∀ (i : Instr) (o : MOp) a s s1 s2 ls p ps qs, globalAcc s1 i = some (o, a) → Issues i s s1 →
    (o.variant = 1 → i ≠ .ld o ∧ i ≠ .st o) → (i = .st o → refuses s1 = false ∨ o.scope ≠ .rcv) →
    (if i = .ld o ∨ i = .ldc o then accessLanes o.gd o.data.isG s1 else s1.active o.gd) = ps ++ p :: qs →
    checkLanes (s1.whoOf s1.cur.cell) a (globalLanes o a.n s1 ps) s1 = .ok (s2, ls) →
    addrOf o s1 p % a.n ≠ 0 →
    exec i s = .next (s.raise { code := fAlign, addr := BitVec.ofNat 64 (addrOf o s1 p), lane := p })) ∧
  (∀ (store : Bool) (o : MOp) s s1 s2 ls p ps qs, let i := if store then Instr.st o else Instr.ld o
    Issues i s s1 → o.variant = 1 → (store = true → refuses s1 = false ∨ o.scope ≠ .rcv) →
    (if store then s1.active o.gd else accessLanes o.gd o.data.isG s1) = ps ++ p :: qs →
    ∀ a, globalAcc s1 i = some (o, a) →
    let n := o.ty.width / 8
    (∀ q ∈ ps, addrOf o s1 q % n = 0 ∧ addrOf o s1 q + n ≤ 65536) →
    checkLanes (s1.whoOf s1.cur.cell) a (ps.map (ptAcc o n s1)) s1 = .ok (s2, ls) → addrOf o s1 p % n ≠ 0 →
    exec i s = .next (s.raise { code := fAlign, addr := BitVec.ofNat 64 (addrOf o s1 p), lane := p }))

/-- R157, R171, R172: `ld` and `ldc` whose lanes pass their checks read every lane, start a producer with the lanes' values, which keeps
landing space for its reply once there is room for it (R423; log 57), and then make the acquire actions of their order. They read as they
issue (log 7), the flag of a load with g data goes to every active lane (log 79), and which of the values R172 allows `ldc` reads is left
open (log 83). -/
def Obligations.GlobalLoadsComplete : Prop :=
  (∀ (o : MOp) a s s1 l s2 ls, Issues (.ld o) s s1 → lanesOf o s1 (accessLanes o.gd o.data.isG s1) l → globalAcc s1 (.ld o) = some (o, a) →
    checkLanes (s1.whoOf s1.cur.cell) a l s1 = .ok (s2, ls) →
    (refuses s2 = true → ∀ x ∈ ls, ioLane x = false) →
    let w := s1.whoOf s1.cur.cell
    let s3 := enterScope w o.scope ls s2
    let n := replyBytes (fun ln => !wide o.scope && (s3.l1Live w.k ln).isSome) ls
    landRoom s3.ck n s3 = true →
    let r := spreadFlag o ls (readLanes w o.hint.toNat o.scope o.data (memTy o.ty) o.res.toNat ls s3)
    let s4 := awaitReply n (finishLoad o.data (memTy o.ty) o.res.toNat r.2.1 r.2.2 r.1)
    exec (.ld o) s = .next (goesOn (.ld o) (if isAcq o.order then acquireFor w o.scope ls s4 else s4))) ∧
  (∀ (o : MOp) a s s1 s2 ls, Issues (.ldc o) s s1 → globalAcc s1 (.ldc o) = some (o, a) →
    checkLanes (s1.whoOf s1.cur.cell) a (globalLanes o a.n s1 (accessLanes o.gd o.data.isG s1)) s1 = .ok (s2, ls) →
    (∀ x ∈ ls, ioLane x = false) →
    let w := s1.whoOf s1.cur.cell
    let n := replyBytes (fun ln => (Map.find ln (s2.studio w.k).ro).isSome) ls
    landRoom s2.ck n s2 = true →
    let r := spreadFlag o ls (ldcLanes w o.hint.toNat o.data (memTy o.ty) o.res.toNat a.n ls s2)
    exec (.ldc o) s = .next (goesOn (.ldc o) (awaitReply n (finishLoad o.data (memTy o.ty) o.res.toNat r.2.1 r.2.2 r.1))))

/-- R157, R174, R175, R176: `st`, `red` and `atom` whose lanes pass their checks make the release actions of their order, then act lane by
lane in increasing position. `st` and `red` complete in the base view, also those of a shadowed cell; in a rival world, R359, external
stores and reductions are deferred, with room in the escape queue; in a shadow copy, R370, they are suppressed; and they complete
wherever no lane's part is refused. `.rcv` is not for a cell in a world. Reads and writes stand at their issue (log 7), lanes act in order (log 16),
`red` and `atom` need both R and W of their page (log 32), and `atom` waits for landing space (log 57). -/
def Obligations.GlobalStoresAndAtomicsComplete : Prop :=
  (∀ (o : MOp) a s s1 l s2 ls, Issues (.st o) s s1 → lanesOf o s1 (s1.active o.gd) l → (refuses s1 = true → o.scope ≠ .rcv) →
    globalAcc s1 (.st o) = some (o, a) → checkLanes (s1.whoOf s1.cur.cell) a l s1 = .ok (s2, ls) →
    rcvWait o s2 = .ok () →
    let w := s1.whoOf s1.cur.cell
    let s3 := if isRel o.order then releaseFor w o.scope ls (enterScope w o.scope ls s2) else enterScope w o.scope ls s2
    let xs := ls.zip ((s1.active o.gd).map (storeValue o s1))
    let sign := fun (x : LaneAcc × Nat) (s : State) => signWrite s.cur x.1.va (leBytes (o.ty.width / 8) x.2) s
    (w.view = 0 → ∃ t, xs.foldlM (fun s x => storeLane w o x.1 x.2 s) s3 = .ok t ∧ exec (.st o) s = .next (goesOn (.st o) t))
    ∧ (∀ t, xs.foldlM (fun s x => storeLane w o x.1 x.2 s) s3 = .ok t → exec (.st o) s = .next (goesOn (.st o) t))
    ∧ (w.view ≠ 0 → (∀ x ∈ ls, s3.external w.ctx w.view x.va x.xlat.leaf = true) →
      ((s3.view w.view).use = 0 → (s3.view w.view).queue.isSome = true → (s3.view w.view).escs.length + ls.length ≤ 64 →
        exec (.st o) s = .next (goesOn (.st o) (xs.foldl (fun s x => (sign x s).modView w.view fun v =>
          { v with escs := v.escs ++ [escOf 0x81 o x.1.p x.1.va [x.2]] }) s3)))
      ∧ ((s3.view w.view).use = 3 → exec (.st o) s = .next (goesOn (.st o) (xs.foldl (fun s x => sign x s) s3))))) ∧
  (∀ (o : MOp) a s s1 s2 ls, Issues (.red o) s s1 → globalAcc s1 (.red o) = some (o, a) →
    checkLanes (s1.whoOf s1.cur.cell) a (globalLanes o a.n s1 (s1.active o.gd)) s1 = .ok (s2, ls) →
    let w := s1.whoOf s1.cur.cell
    let s3 := if isRel o.order then releaseFor w o.scope ls (enterScope w o.scope ls s2) else enterScope w o.scope ls s2
    let xs := ls.zip ((s1.active o.gd).map (storeValue o s1))
    let sign := fun (x : LaneAcc × Nat) (s : State) => signWrite s.cur x.1.va (leBytes (o.ty.width / 8) x.2) s
    (w.view = 0 → ∃ t, xs.foldlM (fun s x => redLane w o x.1 x.2 s) s3 = .ok t ∧ exec (.red o) s = .next (goesOn (.red o) t))
    ∧ (∀ t, xs.foldlM (fun s x => redLane w o x.1 x.2 s) s3 = .ok t → exec (.red o) s = .next (goesOn (.red o) t))
    ∧ (w.view ≠ 0 →
      ((s3.view w.view).use = 0 → (s3.view w.view).queue.isSome = true → (s3.view w.view).escs.length + ls.length ≤ 64 →
        exec (.red o) s = .next (goesOn (.red o) (xs.foldl (fun s x => (sign x s).modView w.view fun v =>
          { v with escs := v.escs ++ [escOf 0x88 o x.1.p x.1.va [x.2]] }) s3)))
      ∧ ((s3.view w.view).use = 3 → exec (.red o) s = .next (goesOn (.red o) (xs.foldl (fun s x => sign x s) s3))))) ∧
  (∀ (o : MOp) a s s1 s2 ls, Issues (.atom o) s s1 → globalAcc s1 (.atom o) = some (o, a) →
    checkLanes (s1.whoOf s1.cur.cell) a (globalLanes o a.n s1 (s1.active o.gd)) s1 = .ok (s2, ls) →
    (refuses s2 = true → ∀ x ∈ ls, s2.external (s1.whoOf s1.cur.cell).ctx (s1.whoOf s1.cur.cell).view x.va x.xlat.leaf = false) →
    landRoom s2.ck (replyBytes (fun _ => false) ls) s2 = true →
    let w := s1.whoOf s1.cur.cell
    let get := fun p j => s1.src 3 (.v (BitVec.ofNat 8 j) false) o.ty.width p
    let vals := (s1.active o.gd).map fun p => (get p o.data.vIdx,
      if o.variant = 7 then get p (if o.ty.width = 64 then o.data.vIdx + 2 else o.data.vIdx + 1) else 0)
    let s3 := enterScope w o.scope ls s2
    let r := atomLanes w o (ls.zip vals) (if isRel o.order then releaseFor w o.scope ls s3 else s3)
    let s4 := awaitReply (replyBytes (fun _ => false) ls) (finishLoad o.data (memTy o.ty) 0 r.2.1 r.2.2 r.1)
    exec (.atom o) s = .next (goesOn (.atom o) (if isAcq o.order then acquireFor w o.scope ls s4 else s4)))

/-- R175: what one lane's `atom` writes, by variant, on the memory pattern `m`, the operand `v` and, for `cas`, the new value: wrapping sum,
signed or unsigned least and greatest, and, or, xor, exchange, compare and exchange; of f32 the sum rounded to nearest with the rules for
NaN. What it returns is the pattern that the word held at home, and the word takes the result. -/
def Obligations.AtomicOperationValues : Prop :=
  (∀ (m v new : Nat), atomOp 0 .f32 m v new = arith .f32 {} [val .f32 m, val .f32 v] (addV false (val .f32 m) (val .f32 v))) ∧
  (∀ w (o : MOp) again x va v new (s : State), let n := o.ty.width / 8
    let pa := physOf x va
    let t := accTag w x o.hint.toNat 5 again
    let r := s.readAt w.k t true pa n
    let s2 := r.1.storeHome w.k t pa (leBytes n (atomOp o.variant.toNat o.ty (leNat r.2.1) v new))
    r.2.2 = false → atomLane w o again x va v new s = (noteRcv s2.cur t pa s2, leNat r.2.1, none)) ∧
  ∀ (t : Ty) (m v new : Nat), t ∈ tyW → m < 2 ^ t.width → v < 2 ^ t.width →
    atomOp 0 t m v new = (m + v) % 2 ^ t.width
    ∧ tyVal t (atomOp 1 t m v new) = min (tyVal t m) (tyVal t v)
    ∧ tyVal t (atomOp 2 t m v new) = max (tyVal t m) (tyVal t v)
    ∧ atomOp 3 t m v new = m &&& v ∧ atomOp 4 t m v new = m ||| v ∧ atomOp 5 t m v new = m ^^^ v
    ∧ atomOp 6 t m v new = v ∧ atomOp 7 t m v new = if m = v then new else m

/-- R155, R161: a studio reads back the bytes it wrote to a cached line of its own, and every other byte of the line as before; every
other line of its L1 stands, where the line's set has room for it. -/
def Obligations.StoreThenLoadReturnsValue : Prop :=
  ∀ (s : State) k (t t' : Tag) pa bs, t.l1 = true → t'.l1 = true → t'.direct = false → s.staleAt k t.arena t.gen = false →
    (∀ l, Map.find (pa / 128) (s.studio k).l1 = some l → s.staleAt k l.arena l.gen = false ∧ l.data.length = 128 ∧ l.bad = false) →
    (Map.find (pa / 128) (s.studio k).l1 = none → (s.l1Others k (pa / 128)).length < 8) → s.homeBad (pa / 128) = false →
    s.studios.all (fun x => x.2.reds.isEmpty) = true → s.replicable t' = false → (s.homeLine (pa / 128)).length = 128 →
    bs ≠ [] → pa % 128 + bs.length ≤ 128 →
    let s' := s.writeAt k t false pa bs
    (s'.readAt k t' false pa bs.length).2 = (bs, false)
    ∧ (∀ q, q / 128 = pa / 128 → (q < pa ∨ pa + bs.length ≤ q) →
        (s'.readAt k t' false q 1).2.1 = (s.readAt k t' false q 1).2.1)
    ∧ ∀ ln, ln ≠ pa / 128 → Map.find ln (s'.studio k).l1 = Map.find ln (s.studio k).l1

/-- R177: a `fence` with an active lane makes its release actions, then its acquire actions, at its scope; with none it changes nothing
but the frontier. R162: the acquire actions of scope `die` or wider, not limited to a bound variable, leave no line in the studio's L1. -/
def Obligations.FenceAndAcquireActions : Prop :=
  (∀ (o : MOp) s s1, Issues (.fence o) s s1 →
    (s1.active o.gd = [] → exec (.fence o) s = .next (goesOn (.fence o) s1)) ∧
    (s1.active o.gd ≠ [] → refuses s1 = false → rcvWait o s1 = .ok () →
      let w := s1.whoOf s1.cur.cell
      let k := (scopeRank w o.scope none s1).2
      let s2 := if isRel o.order then releaseActs s1.cur w k none s1 else s1
      exec (.fence o) s = .next (goesOn (.fence o) (if isAcq o.order then acquireActs w k none s2 else s2)))) ∧
  (∀ (s : State) w k, 3 ≤ k → ∀ ln, Map.find ln ((acquireActs w k none s).studio w.k).l1 = none)

/-! ### Cache lines, monitors, bindings -/

/-- R179, R180, R181, R182: with the lanes' checks passed, `cwb.l2` and `cwb.mem` write the lines back, `cinv` writes them back and
drops them from L1, `cunpin` clears their pins, `icinv` drops them from the instruction cache, `monarm` arms the monitor. R178, R180,
R181, R182: `pf` never faults, one request for each line; `rqpage` asks for the absent page of each lane; `cpin` fills and pins each lane's line, unless 16 lines
of its set are pinned; `fetchbar` completes at once; `monwait` waits exactly while the monitor is armed and has not fired, and disarms
it as it goes on. R183: `svbind` with an aligned range of 1 to 2^25 lines and room in its entry and table adds the range to the
variable's entry; `svunbind` removes the entry. The model's choices: the upper bound of the length (log 48), `icinv` and `fetchbar` at
issue (log 47), no permission asked of the page (log 35), the flags of `cpin` pending until it completes (log 101). -/
def Obligations.MemoryControlInstructionsComplete : Prop :=
  ((∀ (o : MOp) s s1 s2 ls, checkLanes (s1.whoOf s1.cur.cell) (lineAcc 1 false) (lineLanes o s1) s1 = .ok (s2, ls) →
    let lines := distinct (ls.map fun l => physOf l.xlat l.va / 128)
    (Issues (.cwbL2 o) s s1 → exec (.cwbL2 o) s = .next (goesOn (.cwbL2 o) (lines.foldl (fun s ln => s.wbL1 s.ck ln) s2)))
    ∧ (Issues (.cwbMem o) s s1 → exec (.cwbMem o) s = .next (goesOn (.cwbMem o) (lines.foldl (fun s ln => (s.wbL1 s.ck ln).wbL2 ln) s2)))
    ∧ (Issues (.cinv o) s s1 → exec (.cinv o) s = .next (goesOn (.cinv o) (lines.foldl (fun s ln => (s.wbL1 s.ck ln).dropL1 s.ck ln) s2)))
    ∧ (Issues (.cunpin o) s s1 → refuses s1 = false → exec (.cunpin o) s = .next (goesOn (.cunpin o)
        (lines.foldl (fun s ln => { s with l2 := Map.upd ln (fun x => { x with pin := false }) s.l2 }) s2)))) ∧
  (∀ (o : MOp) s s1 s2 ls, checkLanes (s1.whoOf s1.cur.cell) (lineAcc 1 false) (uniLanes o 1 s1) s1 = .ok (s2, ls) →
    (Issues (.icinv o) s s1 → exec (.icinv o) s = .next (goesOn (.icinv o) (s2.modStudio s2.ck fun st =>
        { st with icache := ls.foldl (fun m l => Map.del (physOf l.xlat l.va / 64) m) st.icache })))
    ∧ (Issues (.monarm o) s s1 → ∀ l r, ls = l :: r → exec (.monarm o) s = .next (goesOn (.monarm o)
        (s2.modCg fun g => { g with mon := some (physOf l.xlat l.va / 128), fired := false }))))) ∧
  ((∀ (o : MOp) s s1, Issues (.pf o) s s1 → exec (.pf o) s = .next (goesOn (.pf o)
    ((distinct ((s1.active o.gd).map fun p => addrOf o s1 p / 128 * 128)).foldl (pfLane (s1.whoOf s1.cur.cell) o.hint.toNat) s1))) ∧
  (∀ (o : MOp) s s1 s2, Issues (.rqpage o) s s1 → (s1.active o.gd).foldlM (requestLane (s1.whoOf s1.cur.cell) o) s1 = .ok s2 →
    exec (.rqpage o) s = .next (goesOn (.rqpage o) s2)
    ∧ ∀ p s3 a, s1.active o.gd = [p] → absentLeaf (s1.whoOf s1.cur.cell) (addrOf o s1 p) s1 = .ok (s3, a) →
        s2 = match a with | some a => s3.modModule fun m => { m with requests := Map.ins a true m.requests } | none => s3) ∧
  (∀ (o : MOp) s s1 s2 ls, Issues (.cpin o) s s1 → refuses s1 = false →
    checkLanes (s1.whoOf s1.cur.cell) (lineAcc 1 true) (lineLanes o s1) s1 = .ok (s2, ls) →
    let r := pinLanes (s1.whoOf s1.cur.cell) o.res.toNat ls s2
    exec (.cpin o) s = .next (goesOn (.cpin o) (if o.res = 0 then r.1 else
      r.1.produce { writes := r.2, regs := [], pred := some o.res.toNat, fault := none, ckpt := none }))) ∧
  (∀ (o : MOp) s s1, Issues (.fetchbar o) s s1 → exec (.fetchbar o) s = .next (goesOn (.fetchbar o) s1)) ∧
  (∀ (o : MOp) s s1, Issues (.monwait o) s s1 → s1.active o.gd ≠ [] →
    (s1.cg.mon.isSome = true → s1.cg.fired = false →
      exec (.monwait o) s = .next (s1.endRun (fun _ => some (nextPC s1.crun.pc)) none .monitor))
    ∧ (s1.cg.mon = none ∨ s1.cg.fired = true →
      exec (.monwait o) s = .next (goesOn (.monwait o) (s1.modCg fun g => { g with mon := none, fired := false }))))) ∧
  (∀ (o : MOp) s s1 s2 l r, refuses s1 = false →
    checkLanes (s1.whoOf s1.cur.cell) (lineAcc 16 false) (uniLanes o 16 s1) s1 = .ok (s2, l :: r) →
    let pa := physOf l.xlat l.va
    (∀ i s3, Issues (.svbind o) s s1 → o.data = .g i →
      let base := (s2.gval i).toNat
      let len := (s2.gval (i + 1)).toNat
      base % 128 = 0 → base < 2 ^ 57 → len % 128 = 0 → len ≠ 0 → len ≤ 2 ^ 32 →
      bindRange s1.cc.ctx pa l.va base len s2 = .ok s3 → exec (.svbind o) s = .next (goesOn (.svbind o) s3))
    ∧ (Issues (.svunbind o) s s1 → exec (.svunbind o) s = .next (goesOn (.svunbind o)
        { s2 with svs := Map.ins (s2.svDie pa) ((svTable s2 (s2.svDie pa)).filter fun e => !(e.ctx == s1.cc.ctx && e.var == pa / 16 * 16)) s2.svs })))

/-! ### Control flow -/

/-- R136, R138, R140, R141: where each lane goes on after `br`, `bra.any`, `bra.all`, `brx`, `call`, `calli`, `ret` and `prio`; the
calls write the link, the slot after them, in every active lane first. -/
def Obligations.BranchesAndCallsContinue : Prop :=
  ∀ (o : BOp) s s1,
    let act := s1.active o.gd
    let all := positions s1.entry.mask
    let direct := fun _ => directTarget s1.crun.pc o
    let indirect := fun p => BitVec.ofNat 64 (s1.src 0 o.a 64 p)
    let linked := s1.apply o.gd o.link .n64 fun _ => (nextPC s1.crun.pc).toNat
    (Issues (.br o) s s1 → exec (.br o) s = .next (s1.endRun (splitAt s1 act direct) none .no))
    ∧ (Issues (.braAny o) s s1 → exec (.braAny o) s = .next (if act = [] then goesOn (.braAny o) s1 else s1.endRun (splitAt s1 all direct) none .no))
    ∧ (Issues (.braAll o) s s1 → exec (.braAll o) s = .next (if act = all then s1.endRun (splitAt s1 all direct) none .no else goesOn (.braAll o) s1))
    ∧ (Issues (.brx o) s s1 → s1.targetsCheck false (act.map indirect) = .ok () →
        exec (.brx o) s = .next (s1.endRun (splitAt s1 act indirect) none .no))
    ∧ (Issues (.call o) s s1 → exec (.call o) s = .next (linked.endRun (splitAt s1 act direct) none .no))
    ∧ (Issues (.calli o) s s1 → s1.targetsCheck true (act.map indirect) = .ok () →
        exec (.calli o) s = .next (linked.endRun (splitAt s1 act indirect) none .no))
    ∧ (Issues (.ret o) s s1 → s1.targetsCheck false (act.map indirect) = .ok () →
        exec (.ret o) s = .next (s1.endRun (splitAt s1 act indirect) none .no))
    ∧ (Issues (.prio o) s s1 → exec (.prio o) s = .next (s1.endRun (fun _ => some (nextPC s1.crun.pc)) (some o.prio) .no))

/-- R32: at a run's end every lane of the issuing entry with a continuation stands in an entry of its kind at that PC, the run is over,
and a lane of another entry that is not joined stays where it was; only the acting group's frontier changes. -/
def Obligations.RunEndPlacesEveryLane : Prop :=
  ∀ (s : State) cont prio st, let t := s.endRun cont prio st
    (∀ p ∈ positions s.entry.mask, ∀ pc, cont p = some pc →
      ∃ e ∈ t.cg.entries, e.pc = pc ∧ e.handler = s.entry.handler ∧ e.mask.getLsbD p = true)
    ∧ (∀ e ∈ s.cg.entries.erase s.entry, ∀ p, e.mask.getLsbD p = true →
        ∃ e' ∈ t.cg.entries, e'.pc = e.pc ∧ e'.handler = e.handler ∧ e'.mask.getLsbD p = true)
    ∧ t.cg.run = none ∧ CellFrame s t ∧ t.cc = { s.cc with groups := t.cc.groups } ∧ t.cg.settled = false

/-- R143, R144, R142: `exit` removes its active lanes and the others go on; `regroup` and `regroup.restore` with an active lane make
the whole entry wait at the next slot; `trail` ends the run, and marks registers it names at most empty (log 23). -/
def Obligations.ExitRegroupTrailComplete : Prop :=
  (∀ (o : BOp) s s1, Issues (.exit o) s s1 → exec (.exit o) s = .next
    (s1.endRun (fun p => if p ∈ s1.active o.gd then none else some (nextPC s1.crun.pc)) none .no).handlerMeeting) ∧
  (∀ (o : BOp) s s1, Issues (.regroup o) s s1 → s1.active o.gd ≠ [] →
    exec (.regroup o) s = .next (s1.endRun (fun _ => some (nextPC s1.crun.pc)) none .regroup)) ∧
  (∀ (o : BOp) s s1, Issues (.regroupRestore o) s s1 → s1.active o.gd ≠ [] →
    exec (.regroupRestore o) s = .next (s1.endRun (fun _ => some (nextPC s1.crun.pc)) none .restore)) ∧
  (∀ (o : BOp) s s1 rs, Issues (.trail o) s s1 → trailRegs o s1 = some rs → ∃ t, exec (.trail o) s = .next t
    ∧ t.cg.run = none ∧ t.cg.settled = true ∧ (∀ r, r ∉ rs → t.cg.isEmpty r = s1.cg.isEmpty r)
    ∧ ∀ r, s1.cg.isEmpty r = true → t.cg.isEmpty r = true)

/-! ### System registers, traps, services -/

/-- R146, R145, R205, R431, R456: `mfsys` with an active lane gives its g destination the word of the register it names, and changes no other
register, predicate or byte. R146, R205: `mtsys` writes TRAPPC in handler mode and RNDKEY of every original group with an active lane;
any other register, and TRAPPC outside handler mode, raises PROT with sub-cause 5. -/
def Obligations.SystemRegisterAccess : Prop :=
  (∀ (o : SOp) s s1 d, (Instr.mfsys o).WellFormed → Issues (.mfsys o) s s1 → o.dest = .g d → s1.active o.gd ≠ [] →
    let c := s1.ctx s1.cc.ctx
    ∃ t, exec (.mfsys o) s = .next t
      ∧ (o.sysreg = 0x000 → t.cg.greg d.toNat = c.trapvec) ∧ (o.sysreg = 0x001 → t.cg.greg d.toNat = s1.cg.trapcause)
      ∧ (o.sysreg = 0x002 → t.cg.greg d.toNat = s1.cg.trappc) ∧ (o.sysreg = 0x003 → t.cg.greg d.toNat = s1.cg.trapaddr)
      ∧ (o.sysreg = 0x004 → t.cg.greg d.toNat = s1.cg.trapsave) ∧ (o.sysreg = 0x010 → t.cg.greg d.toNat = BitVec.ofNat 64 s1.cc.ctx)
      ∧ (o.sysreg = 0x011 → t.cg.greg d.toNat = c.crown.setWidth 64) ∧ (o.sysreg = 0x020 → t.cg.greg d.toNat = c.rpseq)
      ∧ (o.sysreg = 0x021 → t.cg.greg d.toNat = c.rpqpos) ∧ (o.sysreg = 0x022 → t.cg.greg d.toNat = c.rpentry)
      ∧ (∀ x, o.sysreg = 0x030 → s1.task s1.cc.ticket = some x →
          t.cg.greg d.toNat = if x.lrec.shadow = 0 then c.shadowDefault.setWidth 64 else BitVec.ofNat 64 x.lrec.shadow)
      ∧ (o.sysreg = 0x060 → t.cg.greg d.toNat = s1.module.lifecycle.setWidth 64)
      ∧ (∀ p ps, o.sysreg = 0x400 → s1.active o.gd = p :: ps →
          t.cg.greg d.toNat = (Map.getD s1.cc.groups (s1.clOf p / 32) default).rndkey)
      ∧ (o.sysreg = 0x040 → t.cg.greg d.toNat = BitVec.ofNat 64 ((studioMap s1).toNat / 2 ^ (64 * o.imm.toNat)))
      ∧ (o.sysreg = 0x050 → t.cg.greg d.toNat = 0x3F) ∧ (o.sysreg = 0x051 → t.cg.greg d.toNat = s1.module.featAccept)
      ∧ (o.sysreg = 0x200 → t.cg.greg d.toNat = BitVec.ofNat 64 (c.errq.length + 65536 * c.errLost.toNat))
      ∧ (o.sysreg = 0x201 → t.cg.greg d.toNat = c.ckptstat)
      ∧ (o.sysreg = 0x300 → t.cg.greg d.toNat = if o.imm = 0 then c.arwin.setWidth 64 else c.arwinLen.setWidth 64)
      ∧ RegFrame s1 t noneV (DstG o.dest) noneV) ∧
  (∀ (o : SOp) s s1, Issues (.mtsys o) s s1 → s1.active o.gd ≠ [] →
    (o.sysreg = 0x002 → s1.cg.handler = true → exec (.mtsys o) s = .next (goesOn (.mtsys o) (s1.modCg fun g => { g with trappc := s1.gsrc o.a })))
    ∧ (o.sysreg = 0x400 → exec (.mtsys o) s = .next (goesOn (.mtsys o)
        ((distinct ((s1.active o.gd).map fun p => s1.clOf p / 32)).foldl
          (fun t i => t.modGroup ⟨t.cur.cell, i⟩ fun g => { g with rndkey := s1.gsrc o.a }) s1)))
    ∧ (o.sysreg ≠ 0x400 → (o.sysreg ≠ 0x002 ∨ s1.cg.handler = false) →
        exec (.mtsys o) s = .next (s.raise { code := fProt, sub := 5, addr := BitVec.ofNat 64 o.sysreg.toNat })))

/-- R427, R428: a fault of an instruction outside handler mode, in a context with a handler at a line marked as a target and a writable
trap frame, is taken: TRAPCAUSE, TRAPADDR and TRAPPC are set, the 64-byte frame is stored at TRAPSAVE, the group enters handler mode,
and the entry's lanes go on at TRAPVEC as a handler entry in place of the entry that faulted. -/
def Obligations.TakingAnException : Prop :=
  ∀ (s : State) (x : Raise) s1 ln s2 y, x.hold = false → x.endCopy = false → x.clr = .no → s.rollsBack s.cur.cell x.code = false →
    s.cg.handler = false →
    let tv := (s.ctx s.cc.ctx).trapvec
    let w := s.whoOf s.cur.cell
    let va := s.cg.trapsave.toNat % 2 ^ 57
    tv ≠ 0 → wellFormedPc tv = true → s.fetchSlot w tv = .ok (s1, ln) → lineTarget ln (pcSlot tv) = true → s1.cg = s.cg → s1.crun = s.crun →
    s1.checkOne w { n := 64, rd := false, wr := true, region := false } va = .ok (s2, some y) → s2.cur = s.cur →
    let pc := if x.next then nextPC s.crun.pc else s.crun.pc
    let cause := BitVec.ofNat 64 (x.code.toNat + 256 * x.sub.toNat + 65536 * x.imm.toNat + 2 ^ 39 * (x.lane % 32))
    let s3 := s2.writeAt w.k (tagOf w y 0) false (physOf y va)
      (leBytes 8 pc.toNat ++ leBytes 4 s.entry.mask.toNat ++ [BitVec.ofNat 8 s.entry.prio.toNat, s.entry.wait, 0, 0]
        ++ leBytes 8 cause.toNat ++ leBytes 8 x.addr.toNat ++ leBytes 32 0)
    s.raise x = s3.modCg fun g => { g with
      run := none, settled := false, handler := true, trapcause := cause, trappc := pc, trapaddr := x.addr,
      entries := g.entries.erase s.entry ++ [⟨tv, s.entry.mask, linePriority ln, 0, true, .no⟩] }

/-- R429: a fault in handler mode, other than one that rolls a protected launch back, fails the task with the fault's code. -/
def Obligations.FaultInHandlerModeFailsTheTask : Prop :=
  ∀ (s : State) (x : Raise) (k : Task), x.hold = false → x.endCopy = false → x.clr = .no → s.rollsBack s.cur.cell x.code = false →
    s.cg.handler = true → s.task s.cc.ticket = some k → k.failing = false → k.state < 7 →
    ∃ k', (s.raise x).task s.cc.ticket = some k' ∧ k'.failing = true ∧ k'.fault = x.code

/-- R447: `trap` with an active lane takes the exception SOFT_TRAP, its immediate in TRAPCAUSE, and resumes at the next slot. R448:
`rte` outside handler mode raises ILLEGAL_OP; in handler mode its active lanes wait at it, and the meeting completes when every handler
lane left waits so. R448: a meeting with lanes that have not exited, in a group without the saved mark and with a readable frame whose
lanes are among them, and with TRAPPC a target (R60), leaves handler mode, removes the handler entries and restores the entry of TRAPPC
with the frame's mask among the lanes left. -/
def Obligations.TrapsAndReturns : Prop :=
  (∀ (o : SOp) s s1, Issues (.trap o) s s1 →
    (s1.active o.gd ≠ [] → exec (.trap o) s = .next (s.raise { code := 0x28, imm := BitVec.ofNat 16 o.imm.toNat, next := true }))
    ∧ (s1.active o.gd = [] → exec (.trap o) s = .next (goesOn (.trap o) s1))) ∧
  (∀ (o : SOp) s s1, Issues (.rte o) s s1 →
    (s1.cg.handler = false → exec (.rte o) s = .next (s.raise { code := fIllegalOp }))
    ∧ (s1.cg.handler = true → s1.active o.gd ≠ [] → s1.cc.saved ≠ some s1.cur.grp → s1.targetsCheck false [s1.cg.trappc] = .ok () →
        exec (.rte o) s = .next (rteWait o.gd s1).handlerMeeting)) ∧
  (∀ (s s1 : State) y, let w := s.whoOf s.cur.cell
    let va := s.cg.trapsave.toNat % 2 ^ 57
    let live := s.cg.entries.foldl (fun m e => if e.handler then m ||| e.mask else m) (0 : BitVec 32)
    let rest := s.cg.entries.filter fun e => !e.handler
    s.cc.saved ≠ some s.cur.grp → live ≠ 0 → s.checkOne w { n := 64, rd := true, wr := false, region := false } va = .ok (s1, some y) →
    let r := s1.readAt w.k (tagOf w y 0) false (physOf y va) 64
    let mask := BitVec.ofNat 32 (leNat ((r.2.1.drop 8).take 4)) &&& live
    r.2.2 = false → mask ≠ 0 → s.targetsCheck false [s.cg.trappc] = .ok () → rest.find? (fun x => x.pc == s.cg.trappc) = none →
    s.leaveHandler = r.1.modCg fun g => { g with
      handler := false
      entries := rest ++ [⟨s.cg.trappc, mask, BitVec.ofNat 6 (r.2.1.getD 12 0).toNat, r.2.1.getD 13 0, false, .no⟩] })

/-- R449-R454: `sysc`, `errq`, `ckpt`, `rpset`, and, in a system context, `tlbinv`, `pgsplit` and `stest`, with an active lane and
their operands in range, complete with the effect their rules give. `tlbinv` takes every aligned address, mapped or not: log 34 reads R453
so, and addresses go modulo 2^57 (log 96). The reply of `sysc` is open (log 20). `stest` of a retired unit gives 2; of any other it calls for the unit's test, whose outcome it
waits for (log 50). R446: `tlbinv`, `pgsplit` and `stest` with an active lane outside a system context raise PROT with sub-cause 5. -/
def Obligations.ServicesComplete : Prop :=
  (∀ (o : SOp) s s1, s1.active o.gd ≠ [] → refuses s1 = false →
    let w := s1.whoOf s1.cur.cell
    let a := s1.gsrc o.a
    let c := s1.cc.ctx
    (Issues (.sysc o) s s1 → exec (.sysc o) s = .next (goesOn (.sysc o)
        (replyG o.dest (syscReply o.imm.toNat a s1.fresh) 5 (releaseActs s1.cur w 5 none s1.tick))))
    ∧ (∀ s2, Issues (.errq o) s s1 → a.toNat % 32 = 0 →
        let rs := ((s1.ctx c).errq).take o.imm.toNat
        writeVa w 32 a.toNat rs.flatten s1 = .ok s2 →
        exec (.errq o) s = .next (goesOn (.errq o) (replyG o.dest (BitVec.ofNat 64 rs.length) 0
          (s2.modCtx c fun x => { x with errq := x.errq.drop rs.length }))))
    ∧ (Issues (.rpset o) s s1 → a.toNat % 64 = 0 → a.toNat < 2 ^ 57 →
        exec (.rpset o) s = .next (goesOn (.rpset o) (s1.modCtx c fun x => { x with rpentry := a })))
    ∧ (∀ s2 s4, Issues (.ckpt o) s s1 →
        let at' := match o.a with | .g i _ => s1.gval (i + 1) | _ => 0
        bits (s1.ctx c).ckptstat.toNat 1 0 ≠ 1 → (s1.ctx c).rpseq.toNat < a.toNat → at'.toNat % 64 = 0 →
        rcvRecord w (at'.toNat % 2 ^ 57) s1 = .ok s2 → rcvFull s2.cur s2 = false →
        let s3 := releaseActs s2.cur w 6 none s2
        let s3' := s3.modCtx c fun x => { x with ckptstat := BitVec.ofNat 64 (a.toNat * 4 + 1) }
        writeVa w 64 at'.toNat (queueHeads (s3'.ctx c) s3') s3' = .ok s4 →
        let s5 := releaseActs s4.cur w 6 none s4
        exec (.ckpt o) s = .next (goesOn (.ckpt o) (({ s5 with ckpts := Map.ins c ⟨a, at'.setWidth 57, [], false⟩ s5.ckpts } : State).produce
          { writes := [], regs := dstRegs o.dest 64, pred := none, fault := none, ckpt := some c })))
    ∧ ((s1.ctx c).system = true →
        (Issues (.tlbinv o) s s1 →
          let len := match o.a with | .g i _ => (s1.gval (i + 1)).toNat | _ => 0
          a.toNat % 65536 = 0 → len % 65536 = 0 →
          let r := startShoot c (a.toNat % 2 ^ 57) len [] s1
          exec (.tlbinv o) s = .next (goesOn (.tlbinv o) (r.1.modCg fun g => { g with holds := g.holds ++ [.shoot r.2] })))
        ∧ (∀ leaf sh at', Issues (.pgsplit o) s s1 → s1.walk (s1.ctx c).root.toNat (a.toNat % 2 ^ 57) = some (leaf, sh, at') →
          (sh = 16 → exec (.pgsplit o) s = .next (goesOn (.pgsplit o) s1))
          ∧ ∀ s2, sh ≠ 16 → splinter leaf sh at' s1 = .ok s2 → exec (.pgsplit o) s = .next (goesOn (.pgsplit o) s2))
        ∧ (Issues (.stest o) s s1 → bits o.imm.toNat 18 3 < unitCount (bits o.imm.toNat 2 0) →
          let u := unitOf (bits o.imm.toNat 2 0) (bits o.imm.toNat 18 3)
          (s1.inService u = false → exec (.stest o) s = .next (goesOn (.stest o) (replyG o.dest 2 0 s1)))
          ∧ (s1.inService u = true → exec (.stest o) s = .next (goesOn (.stest o) ((s1.callTest u).produce
              { writes := [], regs := dstRegs o.dest 64, pred := none, fault := none, ckpt := none, test := some u })))))) ∧
  (∀ (o : SOp) s s1, s1.active o.gd ≠ [] → (s1.ctx s1.cc.ctx).system = false → ∀ i, i = .tlbinv o ∨ i = .pgsplit o ∨ i = .stest o →
    Issues i s s1 → exec i s = .next (s.raise { code := fProt, sub := 5 }))

/-! ### Barriers, synchronisation words, counters -/

/-- R307: a barrier completes exactly when its arrivals are its members, nothing is pending, and neither overflow nor excess stands:
its phase inverts and its arrivals return to 0. -/
def Obligations.BarrierCompletion : Prop :=
  ∀ (b : Bar), (b.arrived = b.members → b.pend = 0 → b.ovf = false → b.excess = false →
      settleBar b = { b with phase := !b.phase, arrived := 0 })
    ∧ ((b.arrived ≠ b.members ∨ b.pend ≠ 0 ∨ b.ovf = true ∨ b.excess = true) → settleBar b = b)

/-- R316-R318: `barinit`, `bararr`, `barwait`, `bartest` and `barexp` of a cell that is not regrouped, with an active lane and their
conditions met; a wait that has ended shows what Brush commands have landed (R297; log 118). R44, R315: every barrier instruction of a regrouped cell raises BAR_MISUSE, whatever its guard. -/
def Obligations.BarrierInstructionsComplete : Prop :=
  (∀ (o : XOp) s s1, s1.cc.regrouped = false → s1.active o.gd ≠ [] →
    let n := o.bar.toNat
    let b := s1.cc.bar n
    (Issues (.barinit o) s s1 → b.arrived = 0 → b.pend = 0 → reporting s1.cc n = false →
      exec (.barinit o) s = .next (goesOn (.barinit o) (s1.modCc fun c =>
        let c := c.putBar n { b with members := BitVec.ofNat 6 o.count.toNat, phase := false, ovf := false, excess := false }
        { c with groups := c.groups.map (fun g => (g.1, { g.2 with arrA := setBit g.2.arrA n false, arrP := setBit g.2.arrP n false })) })))
    ∧ (Issues (.bararr o) s s1 → (arrA n s1 = true → arrP n s1 = b.phase → exec (.bararr o) s = .next (goesOn (.bararr o) s1)))
    ∧ (Issues (.bararr o) s s1 → (arrA n s1 = false ∨ arrP n s1 ≠ b.phase) → b.arrived ≠ b.members →
        let s2 := releaseActs s1.cur (s1.whoOf s1.cur.cell) 2 none s1
        exec (.bararr o) s = .next (goesOn (.bararr o) (setBar s2.cur.cell n { b with arrived := b.arrived + 1 }
          (s2.modCg fun g => { g with arrA := setBit g.arrA n true, arrP := setBit g.arrP n b.phase }))))
    ∧ (Issues (.barwait o) s s1 → arrA n s1 = true → b.excess = false → b.ovf = false → b.phase ≠ arrP n s1 →
        exec (.barwait o) s = .next (goesOn (.barwait o) s1.settleLanded))
    ∧ (Issues (.barwait o) s s1 → arrA n s1 = true → b.excess = false → b.ovf = false → b.phase = arrP n s1 →
        exec (.barwait o) s = .next ((s1.perf s1.ck s1.cc.ctx 0x0C).endRun (fun _ => some (nextPC s1.crun.pc)) none (.barrier n (arrP n s1))))
    ∧ (Issues (.bartest o) s s1 → exec (.bartest o) s = .next (goesOn (.bartest o)
        ((if arrA n s1 && b.phase != arrP n s1 then s1.settleLanded else s1).applyPred o.gd (bits o.imm.toNat 3 0) fun _ =>
          arrA n s1 && b.phase != arrP n s1)))
    ∧ (Issues (.barexp o) s s1 → (s1.gval o.record).toNat < 2 ^ 40 → b.pend + ((s1.gval o.record).toNat : Int) ≤ 2 ^ 39 - 1 →
        exec (.barexp o) s = .next (goesOn (.barexp o) (setBar s1.cur.cell n { b with pend := b.pend + ((s1.gval o.record).toNat : Int) } s1)))) ∧
  (∀ (o : XOp) s s1, s1.cc.regrouped = true → ∀ i, i = .barinit o ∨ i = .bararr o ∨ i = .barwait o ∨ i = .bartest o ∨ i = .barexp o →
    Issues i s s1 → exec i s = .next (s.raise { code := fBarMisuse, addr := BitVec.ofNat 64 o.bar.toNat }))

/-- R310, R319: what `swinit`, `swexp`, `swadd` and a landing make of a synchronisation word, and when the word settles. -/
def Obligations.SynchronisationWordChanges : Prop :=
  ∀ (w : Word16) n,
    swChange .init w n = .ok { w with target := n, count := 0, flags := 0 }.settle
    ∧ (w.flags = 0 → w.target + n < 2 ^ 40 → swChange .expect w n = .ok { w with target := w.target + n }.settle)
    ∧ (w.flags = 0 → w.count + n < 2 ^ 40 → swChange .add w n = .ok { w with count := w.count + n }.settle
        ∧ swChange .landing w n = .ok { w with count := w.count + n }.settle)
    ∧ (w.flags / 2 = 0 → (w.ovf = true ∨ 2 ^ 40 ≤ w.target + n) → swChange .expect w n = .error fSyncOvf)
    ∧ (w.flags / 2 = 0 → (w.ovf = true ∨ 2 ^ 40 ≤ w.count + n) → swChange .add w n = .error fSyncOvf)
    ∧ (w.flags / 2 ≠ 0 → swChange .expect w n = .error fHandle ∧ swChange .add w n = .error fHandle)
    ∧ (w.target ≠ 0 → w.count = w.target → w.flags % 2 = 0 → w.settle = { w with gen := (w.gen + 1) % 2 ^ 32, target := 0, count := 0 })
    ∧ (w.target = 0 ∨ w.count ≠ w.target ∨ w.flags % 2 = 1 → w.settle = w)

/-- R319, R320: `swinit`, `swexp` and `swadd` on a scratchpad word (relaxed) whose change does not fault, and on a global word, in the base
view, also of a shadowed cell, in a rival world, R359, where the change is deferred with room in the escape queue, and in a shadow copy,
R370, where it is suppressed; `swwait` goes on when the generation has moved, with what Brush commands have landed shown (log 118), and
waits while it has not; `swpoll` starts a producer with the count or the generation it read as it issues (log 7). -/
def Obligations.SynchronisationWordInstructionsComplete : Prop :=
  (∀ (o : MOp) s s1 a, swAddr o s1 = .ok a → s1.active o.gd ≠ [] → (s1.gdst o.data).toNat < 2 ^ 40 → ∀ i op,
    (i, op) = (Instr.swinit o, SwOp.init) ∨ (i, op) = (Instr.swexp o, SwOp.expect) ∨ (i, op) = (Instr.swadd o, SwOp.add) → Issues i s s1 →
    (∀ y, o.variant.getLsbD 0 = true → isRel o.order = false → swChange op (Word16.of (Map.bytes s1.cc.scratch a 16)) (s1.gdst o.data).toNat = .ok y →
      exec i s = .next (goesOn i (s1.modCell s1.cur.cell fun c => c.putScratch s1.fresh a y.bytes)))
    ∧ (∀ s2 l r, o.variant.getLsbD 0 = false →
      checkLanes (s1.whoOf s1.cur.cell) { n := 16, rd := true, wr := true, kind := true } [(s1.uniPos o.gd, a, [(a, 16)])] s1 = .ok (s2, l :: r) →
      let w := s1.whoOf s1.cur.cell
      let s3 := enterScope w o.scope (l :: r) s2
      let s3 := signWrite s3.cur l.va (leBytes 8 (s1.gdst o.data).toNat) (if isRel o.order then releaseFor w o.scope (l :: r) s3 else s3)
      let major := match op with | .init => 0xA5 | .expect => 0xA6 | _ => 0xA7
      (∀ s4, w.view = 0 → swHome s3.cur w l.va l.xlat op (s1.gdst o.data).toNat s3 = .ok s4 → exec i s = .next (goesOn i s4))
      ∧ (w.view ≠ 0 → (s3.view w.view).use = 0 → (s3.view w.view).queue.isSome = true → (s3.view w.view).escs.length < 64 →
          exec i s = .next (goesOn i (s3.modView w.view fun v =>
            { v with escs := v.escs ++ [{ escOf major o 255 a [(s1.gdst o.data).toNat] with sub := BitVec.ofNat 8 (o.variant.toNat * 16) }] })))
      ∧ (w.view ≠ 0 → (s3.view w.view).use = 3 → exec i s = .next (goesOn i s3)))) ∧
  (∀ (o : MOp) s s1 s2 x ls, Issues (.swwait o) s s1 → swRead o s1 = .ok (s2, some (x, ls)) → x.ovf = false →
    let gen := (s1.gdst o.data).toNat % 2 ^ 32
    let a := addrOf o s2 (s2.uniPos o.gd)
    (x.gen ≠ gen → ls = [] → exec (.swwait o) s = .next (goesOn (.swwait o) s2.settleLanded))
    ∧ (∀ l r, x.gen ≠ gen → ls = l :: r → exec (.swwait o) s = .next (goesOn (.swwait o)
        (swAcquire (s2.whoOf s2.cur.cell) (acqScope o) (some (physOf l.xlat l.va)) s2)))
    ∧ (x.gen = gen → exec (.swwait o) s = .next ((s2.perf s2.ck s2.cc.ctx 0x0D).endRun (fun _ => some (nextPC s2.crun.pc)) none
        (.sword (o.variant.getLsbD 0) (BitVec.ofNat 57 a) (BitVec.ofNat 32 gen) (acqScope o) s2.cg.handler)))) ∧
  (∀ (o : MOp) s s1 s2 x ls, Issues (.swpoll o) s s1 → swRead o s1 = .ok (s2, some (x, ls)) → isAcq o.order = false →
    exec (.swpoll o) s = .next (goesOn (.swpoll o) (s2.produce
      { writes := s2.lateWrite o.data .n64 (if o.variant.getLsbD 1 then x.count else x.gen) 0, regs := dstRegs o.data 64, pred := none,
        fault := none, ckpt := none })))

/-- R321, R313: `ctrsel` gives a PERF counter of the studio to the context with its event and value 0; `ctrrd` reads a counter into its
g destination (a PERF counter of another context reads 0), and `.clr` zeroes an owned one. -/
def Obligations.CounterInstructionsComplete : Prop :=
  (∀ (o : SOp) s s1, Issues (.ctrsel o) s s1 → s1.active o.gd ≠ [] → exec (.ctrsel o) s = .next (goesOn (.ctrsel o)
    (s1.modStudio s1.ck fun st => { st with perf := Map.ins (o.sysreg.toNat - 0x100) ⟨0, some s1.cc.ctx, BitVec.ofNat 8 o.imm.toNat⟩ st.perf }))) ∧
  (∀ (o : SOp) s s1 d, (Instr.ctrrd o).WellFormed → Issues (.ctrrd o) s s1 → s1.active o.gd ≠ [] → o.dest = .g d → ∃ t, exec (.ctrrd o) s = .next t
    ∧ t.cg.greg d.toNat = counterRead o.sysreg.toNat o.imm.toNat s1
    ∧ (o.sub = 0 → RegFrame s1 t noneV (DstG o.dest) noneV)
    ∧ (o.sub = 1 → ∀ p, Map.find (o.sysreg.toNat - 0x100) (s1.studio s1.ck).perf = some p →
        ∃ p', Map.find (o.sysreg.toNat - 0x100) (t.studio t.ck).perf = some p' ∧ (p.owner = some s1.cc.ctx → p'.value = 0) ∧ (p.owner ≠ some s1.cc.ctx → p' = p)))

/-! ### Chains -/

/-- R236, R237: `chld` of a well-formed record puts its chain in the slot; `chrun` of a chain of the acting context writes the chain's
value of its own elements, rounded by the chain's out byte, in every active lane, and changes nothing else. -/
def Obligations.ChainInstructionsComplete : Prop :=
  (∀ (o : AOp) s s2 c, Issues (.chld o) s s → s.active o.gd ≠ [] → loadChain (s.whoOf s.cur.cell) (s.gsrc o.a) s = .ok (s2, some c) →
    exec (.chld o) s = .next (goesOn (.chld o) (s2.modStudio s2.ck fun st => { st with chains := Map.ins (bits o.m.toNat 2 0) c st.chains }))) ∧
  (∀ (o : AOp) s s1 ch, (Instr.chrun o).WellFormed → Issues (.chrun o) s s1 →
    Map.find (bits o.m.toNat 2 0) (s1.studio s1.ck).chains = some ch → ch.ctx = s1.cc.ctx → ∃ t, exec (.chrun o) s = .next t
    ∧ ElementWise s1 t o.gd o.d .n32 (Rules.chainElem o ch s1) ∧ RegFrame s1 t (DstV s1 o.gd o.d .n32) (DstG o.d) noneV (DstT s1 o.gd o.d))

/-! ### Arenas and regions -/

/-- R345: a new arena is live, one level below its parent, first in the parent's child list, with its quota, charged its reserve; the
number keeps its generation, and the reserve is charged to the parent and its ancestors, each once, and to no other arena. -/
def Obligations.NewArenaFields : Prop :=
  ∀ (p : Nat) (x : NewArena) (s s2 : State) n, p ≠ 0 → ((s.arena p).state = 1 ∨ (s.arena p).state = 2) → childArena p x s = .ok (s2, n) →
    n ≠ p ∧ 1 ≤ n ∧ n ≤ 4095 ∧ (s.arena p).depth ≠ 8 ∧ s.chargeRefused p x.resv = false
    ∧ (s2.arena n).state = 1 ∧ (s2.arena n).gen = (s.arena n).gen ∧ (s2.arena n).parent = p ∧ (s2.arena n).depth = (s.arena p).depth + 1
    ∧ (s2.arena n).owner = x.owner ∧ (s2.arena n).quota = x.quota ∧ (s2.arena n).resv = x.resv ∧ (s2.arena n).charge = x.resv
    ∧ (s2.arena n).child = 0 ∧ (s2.arena p).child = n ∧ (s2.arena n).sibling = (s.arena p).child
    ∧ ((s.ancestors 9 p).Nodup → ∀ b, b ≠ n →
        (s2.arena b).charge = if b ∈ s.ancestors 9 p then (s.arena b).charge + x.resv else (s.arena b).charge)

/-- R343, R345-R348: the arena instructions with an active lane, out of a rival world, on a handle their rule accepts. R337, R349:
`rgset` of an aligned range that meets no region takes the lowest free entry, which holds for accesses once the instruction has
completed; one that meets a region raises REGION, or answers 0 with
its predicate under `.try`; `rgclr` clears an entry the cell may clear, as it is performed (log 108); `rgquery` answers the region at an
address. A length beyond 32 bits of lines is kept whole (log 124). -/
def Obligations.ArenaAndRegionInstructionsComplete : Prop :=
  (∀ (o : AOp) s s1 a, s1.active o.gd ≠ [] → refuses s1 = false →
    let h := BitVec.ofNat 64 (uniA o s1)
    let pf := if atTry o then atPf o else 0
    (liveHandle s1.cc.ctx h s1 = .ok a →
      (Issues (.arnew o) s s1 → 1 ≤ uniB o s1 → uniB o s1 < 2 ^ 32 → uniC o s1 ≤ uniB o s1 →
        let r := childArena a { parent := a, depth := 0, owner := s1.cc.ctx, quota := uniB o s1, resv := uniC o s1, task := s1.cc.ticket } s1
        (∀ s2 n, r = .ok (s2, n) →
          exec (.arnew o) s = .next (goesOn (.arnew o) (s2.produceG o.gd o.d (BitVec.ofNat 64 (n + (s2.arena n).gen.toNat * 2 ^ 12)) pf false)))
        ∧ (∀ y, r = .error y → atTry o = true → exec (.arnew o) s = .next (goesOn (.arnew o) (s1.produceG o.gd o.d 0 (atPf o) true))))
      ∧ (∀ s2 x, Issues (.aralloc o) s s1 → 1 ≤ uniB o s1 → uniB o s1 ≤ 2 ^ 20 → (s1.arena a).state ≠ 2 →
          allocPages a (uniB o s1) (o.variant = 1) s1 = .ok (s2, x) →
          exec (.aralloc o) s = .next (goesOn (.aralloc o) (s2.produceG o.gd o.d x pf false)))
      ∧ (∀ s2, Issues (.arfree o) s s1 → 1 ≤ uniC o s1 → uniC o s1 ≤ 2 ^ 20 → uniB o s1 < 2 ^ 57 → uniB o s1 % 65536 = 0 → (s1.arena a).state ≠ 2 →
          notMapped s1.cc.ctx a ((List.range (uniC o s1)).map fun i => uniB o s1 + 65536 * i) s1 = none →
          freePages a (uniB o s1) (uniC o s1) s1 = .ok s2 → exec (.arfree o) s = .next (goesOn (.arfree o) s2))
      ∧ ((s1.arena a).crown = false → (s1.arena a).pt = false → (s1.arena a).view = false →
          (Issues (.arseal o) s s1 → (s1.arena a).state ≠ 2 →
            let sealed := s1.modArena a fun e => { e with state := 2 }
            exec (.arseal o) s = .next (goesOn (.arseal o)
              ((({ sealed with sealbs := sealed.sealbs ++ [({ arena := a, gen := (s1.arena a).gen.toNat, units := allUnits } : SealB)] } : State)).modCg fun g =>
                { g with holds := g.holds ++ [Hold.sealUnits a (s1.arena a).gen.toNat] })))
          ∧ (Issues (.arseal o) s s1 → (s1.arena a).state = 2 → exec (.arseal o) s = .next (goesOn (.arseal o) s1))
          ∧ (Issues (.ardrop o) s s1 →
              let r := dropTree a [] s1
              let s2 := r.2.foldl (fun s x => s.learnDrop s.ck x.1) r.1
              exec (.ardrop o) s = .next (goesOn (.ardrop o) (s2.modCg fun g => { g with
                holds := g.holds ++ [if o.variant = 1 then Hold.sweep r.2 else Hold.drop r.2 [s2.ck, unitDie (dieOf s2.ck)]] })))))
    ∧ (Issues (.arquery o) s s1 → handleOf s1.cc.ctx h s1 = .ok a → exec (.arquery o) s = .next (goesOn (.arquery o)
        (s1.produceG o.gd o.d (BitVec.ofNat 64 (match bits o.m.toNat 3 0 with
          | 0 => arenaWord0 (s1.arena a) | 1 => (s1.arena a).quota | 2 => (s1.arena a).charge | _ => (s1.arena a).resv)) 0 false)))) ∧
  (∀ (o : AOp) s s1, s1.active o.gd ≠ [] →
    let b := uniA o s1
    let l := uniB o s1
    let c := s1.cc.ctx
    let pf := if atTry o then atPf o else 0
    (Issues (.rgset o) s s1 → refuses s1 = false → b % 128 = 0 → b < 2 ^ 57 → l % 128 = 0 → l ≠ 0 → b + l ≤ 2 ^ 57 →
      (∀ i, overlaps c b l s1 = false → i < 1024 → Map.find i (s1.ctx c).regions = none → (∀ j < i, (Map.find j (s1.ctx c).regions).isSome) →
        exec (.rgset o) s = .next (goesOn (.rgset o) ((s1.tick.modCtx c fun x => { x with
          regions := Map.ins i ⟨BitVec.ofNat 2 (bits o.m.toNat 3 0), s1.cc.tag, s1.cc.ptSlot, l / 128, b, some s1.fresh⟩ x.regions }).produceG
            o.gd o.d (BitVec.ofNat 64 i) pf false (some (i, s1.fresh)))))
      ∧ (overlaps c b l s1 = true → exec (.rgset o) s = .next (if atTry o then goesOn (.rgset o) (s1.produceG o.gd o.d 0 (atPf o) true)
          else s.raise { code := fRegion, addr := BitVec.ofNat 64 b })))
    ∧ (Issues (.rgclr o) s s1 → refuses s1 = false → b < 1024 →
        (∀ r, Map.find b (s1.ctx c).regions = some r → ownsRegion r s1 = true →
          exec (.rgclr o) s = .next (goesOn (.rgclr o) (s1.modCtx c fun x => { x with regions := Map.del b x.regions })))
        ∧ (∀ r, Map.find b (s1.ctx c).regions = some r → ownsRegion r s1 = false →
          exec (.rgclr o) s = .next (s.raise { code := fRegion, addr := BitVec.ofNat 64 b }))
        ∧ (Map.find b (s1.ctx c).regions = none → exec (.rgclr o) s = .next (goesOn (.rgclr o) s1)))
    ∧ (Issues (.rgquery o) s s1 →
        (∀ i r, s1.regionAt c b = some (i, r) →
          exec (.rgquery o) s = .next (goesOn (.rgquery o) (s1.produceG o.gd o.d (BitVec.ofNat 64 (2 ^ 63 + 2 ^ 12 * r.mode.toNat + i)) 0 false)))
        ∧ (s1.regionAt c b = none → exec (.rgquery o) s = .next (goesOn (.rgquery o) (s1.produceG o.gd o.d 0 0 false)))))

/-- R333: the drop point of an arena: its generation advances to the next one that is not being swept, the old one is marked as being
swept, its state is sweeping, its links are cleared; no other arena changes. -/
def Obligations.DropPoint : Prop :=
  ∀ (s : State) a, let e := s.arena a
    let t := dropOne a s
    (t.arena a).state = 3 ∧ (t.arena a).child = 0 ∧ (t.arena a).sibling = 0
    ∧ (t.arena a).sweeping = setBit e.sweeping e.gen.toNat true
    ∧ (∀ k, 1 ≤ k → k < 16 → e.sweeping.getLsbD ((e.gen.toNat + k) % 16) = false →
        (∀ j, 1 ≤ j → j < k → e.sweeping.getLsbD ((e.gen.toNat + j) % 16) = true) → (t.arena a).gen.toNat = (e.gen.toNat + k) % 16)
    ∧ ∀ b, b ≠ a → t.arena b = s.arena b

/-! ### Worlds -/

/-- R392-R394: `tlaunch`, `tdep`, `tdep.go` and `worknext` of a cell in no rival world and no shadow copy. R364-R367: `forkw`, `wend`,
`choose`, `choose.min`, `wabort` and `wquery` with an active lane and their conditions met. The commit's shoot-downs end within `choose`
(log 38), and the write-stream record of `tlaunch` is the model's (log 88). -/
def Obligations.TaskAndWorldInstructionsComplete : Prop :=
  (∀ (o : XOp) s s1, s1.active o.gd ≠ [] → inCopy s1 s1.cur.cell = false → inRival s1 s1.cur.cell = false →
    let a := (s1.gval o.record).toNat
    let q := bits o.imm.toNat 5 0
    let w := s1.whoOf s1.cur.cell
    let launched := fun (t : BitVec 64) (s : State) =>
      let s := signWrite s.cur a (leBytes 8 ((if o.sub = 1 then 2 ^ 63 else 0) + q)) s
      replyG o.dest t 0 (s.modCc fun c => { c with launches := c.launches ++ [(s.cur.grp, t)] })
    (∀ d, Issues (.tlaunch o) s s1 → deviceQueue s1.cc.ctx q s1 = .ok d →
      (d.full = true → exec (.tlaunch o) s = .next (goesOn (.tlaunch o) (launched 0 (releaseActs s1.cur w 4 none s1))))
      ∧ (∀ s2 ls s4 t, d.full = false →
          checkLanes w { n := 64, rd := true, wr := false } [(s1.uniPos o.gd, a % 2 ^ 57, [(a % 2 ^ 57, 64)])] s1 = .ok (s2, ls) →
          submit s1.cc.ctx q a (o.sub == 1) d (releaseActs s2.cur w 4 none s2) = .ok (s4, t) →
          exec (.tlaunch o) s = .next (goesOn (.tlaunch o) (launched t s4))))
    ∧ (∀ x, s1.task (s1.gval o.record) = some x → x.ctx = s1.cc.ctx → x.state = 2 →
        (Issues (.tdep o) s s1 → x.deps.length < 8 → s1.gsrc o.coord ≠ x.ticket →
          exec (.tdep o) s = .next (goesOn (.tdep o) (s1.modTask x.ticket fun y => { y with deps := y.deps ++ [s1.gsrc o.coord] })))
        ∧ (Issues (.tdepGo o) s s1 → exec (.tdepGo o) s = .next (goesOn (.tdepGo o) (settleDeps x.ticket (setTaskState x.ticket 3 s1)))))
    ∧ (∀ t i, Issues (.worknext o) s s1 → s1.task s1.cc.ticket = some t → o.dest = .g i → 1 ≤ a → a ≤ 2 ^ 48 →
        (t.shared = true → a = t.iters ∧ o.imm.toNat = t.tileLen) →
        let x := shareOf t.share t.lrec.cells a o.imm.toNat
        let s2 := (journalCtl t.ctx 2 t.ticket.toNat (t.share + 1) s1).modTask t.ticket fun y => { y with shared := true, iters := a, tileLen := o.imm.toNat, share := y.share + 1 }
        exec (.worknext o) s = .next (goesOn (.worknext o) ((s2.modCc fun c => { c with wnext := c.wnext ++ [(s2.cur.grp, x)] }).produce
          { writes := [.g i.toNat x.1, .g (i.toNat + 1) x.2], regs := [.g i.toNat, .g (i.toNat + 1)], pred := none, fault := none, ckpt := none })))) ∧
  (∀ (o : AOp) s s1, s1.active o.gd ≠ [] →
    (∀ s2 vs, Issues (.forkw o) s s1 → 2 ≤ uniA o s1 → uniA o s1 ≤ 8 → 1 ≤ uniB o s1 → uniB o s1 < 2 ^ 32 → inCopy s1 s1.cur.cell = false →
      worldBusy s1 = false → s1.cc.fork = none → (s1.view s1.cc.view).depth ≠ 4 → uniA o s1 ≤ (freeViews s1).length →
      openRivals (recCrown s1.cc.ctx (match s1.task s1.cc.ticket with | some t => t.lrec | none => default) s1) s1.cc.ctx s1.cc.view (uniB o s1)
        (uniA o s1) 0 s1 = some (s2, vs) → exec (.forkw o) s = .next (goesOn (.forkw o) (startFork o vs s2)))
    ∧ (Issues (.wend o) s s1 → inRival s1 s1.cur.cell = true →
        (s1.cc.ended = false → exec (.wend o) s = .next (goesOn (.wend o)
          ((s1.modView s1.cc.view fun w => { w with score := BitVec.ofNat 64 (uniA o s1), wended := true }).modCc fun c => { c with ended := true })))
        ∧ (s1.cc.ended = true → exec (.wend o) s = .next (goesOn (.wend o) s1)))
    ∧ (∀ w i k, s1 = s → Issues i s s → openWorld s = some w →
        ((i = .choose o ∧ k = uniA o s ∧ k < w.views.length) ∨ (i = .chooseMin o ∧ k = bestRival w s)) →
        let v := w.views.getD k 0
        let u := (s.view v).parent
        (s.isRival u = true → (s.view u).escs.length + (s.view v).escs.length ≤ 64) →
        let r := commitView v (discardRivals w (· != k) s)
        let s3 := r.2.1.foldl (fun s id => finishShoot id s) r.1
        ∀ s4, w.left = none → performEscs r.2.2 (releaseActs s3.cur (s3.whoOf s3.cur.cell) 4 none s3) = (s4, [], none) →
          exec i s = .next (goesOn i ((resolveWorld s4).produceG o.gd o.d (BitVec.ofNat 64 k) 0 false)))
    ∧ (∀ w, Issues (.wabort o) s s1 → openWorld s1 = some w →
        let s2 := discardRivals w (fun _ => true) s1
        exec (.wabort o) s = .next (goesOn (.wabort o) (resolveWorld (releaseActs s2.cur (s2.whoOf s2.cur.cell) 4 none s2))))
    ∧ (∀ w, Issues (.wquery o) s s1 → s1.cc.wrec = some w → uniA o s1 < 8 → uniA o s1 < w.views.length →
        exec (.wquery o) s = .next (goesOn (.wquery o) (s1.produceG o.gd o.d (rivalWord w (uniA o s1) (bits o.m.toNat 3 0)) 0 false))))

/-- R366: `choose.min` picks the rival with the least score, the lowest index among equals. -/
def Obligations.ChooseMinPicksTheLeastScore : Prop :=
  ∀ (w : World) (s : State) j, j < w.views.length →
    let score := fun k => (s.view (w.views.getD k 0)).score.toNat
    bestRival w s < w.views.length ∧ score (bestRival w s) ≤ score j ∧ (j < bestRival w s → score (bestRival w s) < score j)

/-! ### Tasks -/

/-- R394: the shares of `worknext` cover the iterations in order: share 0 begins at 0, each next share begins where the one before it
ends, and the last ends at the number of iterations; a share past them is empty and says so in bit 61. -/
def Obligations.WorkSharesCoverTheIterations : Prop :=
  ∀ (n i l : Nat), 1 ≤ n → i ≤ 2 ^ 48 →
    (shareOf 0 n i l).1.toNat % 2 ^ 61 = 0 ∧ (shareOf (n - 1) n i l).2.toNat = i
    ∧ (∀ k, k + 1 < n → (shareOf k n i l).2.toNat = (shareOf (k + 1) n i l).1.toNat % 2 ^ 61)
    ∧ ∀ k, n ≤ k → (shareOf k n i l).1.toNat = 2 ^ 61 + i ∧ (shareOf k n i l).2.toNat = i

/-! ### Transfer queues -/

/-- R397: a pop takes the oldest entry; with a malformed walk table it raises HANDLE; of an empty queue that a walk may still feed it
holds, and of one that has ended it raises the walk's recorded fault, or EMPTY_READ. -/
def Obligations.QueuePops : Prop :=
  ∀ (s : State) q,
    (s.cc.badWalks = true → s.pop q = .error { code := fHandle, addr := s.cc.walkTable })
    ∧ (s.cc.badWalks = false →
      (∀ x r, Map.getD s.cg.queues q [] = x :: r → s.pop q = .ok (s.modCg fun g => { g with queues := Map.put [] q r g.queues }, x))
      ∧ (Map.getD s.cg.queues q [] = [] →
          (queueEnded s.cc s.cg q = false → s.pop q = .error { code := 0, hold := true })
          ∧ (queueEnded s.cc s.cg q = true →
            (∀ f, Map.find q s.cg.qfault = some f → s.pop q = .error { code := f.code, sub := f.sub, addr := f.addr, clr := .queue q })
            ∧ (Map.find q s.cg.qfault = none → s.pop q = .error { code := fEmptyRead, addr := BitVec.ofNat 64 q }))))

/-- R401: `qpop` pops one entry, two for a 64-bit type, or the entries its immediate counts under `.drop`; a lane of a v destination
receives its own 32 bits of each entry through a producer, a t destination at once. R408, R411-R414: the Brush instructions with an
active lane, out of a rival world and a regrouped cell, on valid records, with room in the command queue: `ldesc` sets the descriptor
slot; `bcopy`, `bstore`, `bmcast` and `bred` queue their command after a release at the cell, what they will write reading as undefined
values from then on (R297; which commands count as overlapping is log 97, until when the values are open log 118), `bred` making the
group's next run wait for its acceptance. R418-R420: `ringdecl` of a well-formed descriptor with the ring free declares it with both counters 0;
`ringdecl.clr` removes it; `rsend` of a cell in no rival world and no copy sends the message's bytes as they stand, after a release at
the cell, where the group has fewer than 4 messages and the landing space takes it; `rhead` advances the head by at most the entries
present. -/
def Obligations.TransferInstructionsComplete : Prop :=
  (∀ (o : AOp) s q s2 xs, Issues (.qpop o) s s → o.a = .q q →
    let word := fun (p : Nat) => (xs.map fun x => (List.getD x p (0 : BitVec 32)).toNat).foldr (fun a b => a + 2 ^ 32 * b) 0
    (o.variant = 1 → popMany q.toNat o.m.toNat s = .ok (s2, xs) → exec (.qpop o) s = .next (goesOn (.qpop o) s2))
    ∧ (o.variant ≠ 1 → popMany q.toNat (if o.ty = .n64 then 2 else 1) s = .ok (s2, xs) →
      (∀ i, o.d = .t i → exec (.qpop o) s = .next (goesOn (.qpop o) ((s2.active o.gd).foldl (fun s p => s.write o.d o.ty (word p) p) s2)))
      ∧ ((∀ i, o.d ≠ .t i) → exec (.qpop o) s = .next (goesOn (.qpop o) (s2.produce
          { writes := (s2.active o.gd).flatMap fun p => s2.lateWrite o.d o.ty (word p) p, regs := dstRegs o.d o.ty.width, pred := none,
            fault := none, ckpt := none }))))) ∧
  (∀ (o : XOp) s s1, s1.active o.gd ≠ [] →
    (∀ s2 r d, Issues (.ldesc o) s s1 → o.dest = .g d → readLayout ((s1.gval o.record).toNat % 2 ^ 57) s1 = .ok (s2, r) →
      (∀ i m, o.coord = .g i m → (s1.gval i).toNat < 2 ^ 57) →
      let rec' := match o.coord with | .g i _ => leBytes 8 (s1.gval i).toNat ++ r.drop 8 | _ => r
      exec (.ldesc o) s = .next (goesOn (.ldesc o) ((s2.modCc fun c => { c with descs := Map.ins o.imm.toNat rec' c.descs }).produce
        { writes := [.g d.toNat (BitVec.ofNat 64 (2 ^ 63 + o.imm.toNat))], regs := dstRegs o.dest 64, pred := none, fault := none, ckpt := none })))
    ∧ (refuses s1 = false → reportCheck o s1 = .ok () → s1.cc.brush.length < 16 →
      (∀ major i r s2 cs, (i, major) = (Instr.bcopy o, 0xC8) ∨ (i, major) = (Instr.bstore o, 0xC9) → Issues i s s1 →
        (handleForm (s1.gval o.record) s1 = .ok (.slot r) ∧ s2 = s1 ∨
          ∃ va, handleForm (s1.gval o.record) s1 = .ok (.mem va) ∧ readLayout va s1 = .ok (s2, r) ∧ s2.cc.brush.length < 16) →
        o.imm.toNat + (layoutOf r).bytes ≤ s2.cc.scratchSz → o.imm.toNat + (layoutOf r).bytes ≤ s1.cc.scratchSz →
        leaderCoords o (layoutOf r).dims s2 = .ok cs → ((layoutOf r).ty.width = 4 → (coordInts cs).getD 0 0 % 2 = 0) →
        (major = 0xC9 → refuses s2 = true → storesExternal (layoutOf r) (coordInts cs) s2 = none) →
        let b := { brushCmd major o s2 with layout := r, coords := cs }
        exec i s = .next (goesOn i (clearDest b (queueBrush (crossed b s2) (crossStores b s2)))))
      ∧ (Issues (.bmcast o) s s1 →
          let k := s1.gval o.record
          k.toNat < 2 ^ 56 → Machine.chainDst k % 16 = 0 → s1.cc.stage + o.count.toNat ≤ s1.cc.nstage - 1 → o.imm.toNat + chainLen k ≤ s1.cc.scratchSz →
          exec (.bmcast o) s = .next (goesOn (.bmcast o) (clearHops k o.count.toNat (queueBrush { brushCmd 0xCA o s1 with
            chain := k, hops := o.count.toNat, rec64 := Map.bytes s1.cc.scratch o.imm.toNat (chainLen k) } s1))))
      ∧ (∀ s2 r, Issues (.bred o) s s1 →
          let a := (s1.gval o.record).toNat % 2 ^ 57
          readRecord (s1.whoOf s1.cur.cell) 64 a 64 s1 = .ok (s2, r) → collOk r s2 = true → s2.cc.brush.length < 16 →
          let c := collOf r
          let w := collWidth o.sub.toNat
          let k := Map.getD s2.cc.bredRounds c.tag.toNat 0
          c.src + w * c.n ≤ s2.cc.scratchSz → c.dst + w * c.n ≤ s2.cc.scratchSz →
          (∀ x, roundOf c.tag k s2 = some x → roundAgrees x o.sub.toNat c.n c.mask = true) →
          let b : Brush := { brushCmd 0xCB o s2 with off := c.dst, chain := c.tag, hops := c.p, hop := c.n, layout := c.mask, round := k,
                                                     rec64 := packVals w (collVals o.sub.toNat c s2), addr := BitVec.ofNat 64 a }
          let s3 := (landIn s2.cur.cell c.dst (w * c.n) none (queueBrush b s2)).modCc fun x => { x with bredRounds := Map.ins c.tag.toNat (k + 1) x.bredRounds }
          exec (.bred o) s = .next (goesOn (.bred o) (s3.modCg fun g => { g with holds := g.holds ++ [.bredAccept s3.cur.cell b.id] }))))) ∧
  (∀ (o : MOp) s s1, s1.active o.gd ≠ [] →
    let k := o.off.toNat % 8
    let g := s1.gdst o.data
    (∀ i, Issues (.ringdecl o) s s1 → o.data = .g i → let r : Ring := ⟨s1.gval i, s1.gval (i + 1)⟩
      r.ok s1.cc.scratchSz = true → Map.find k s1.cc.rings = none → exec (.ringdecl o) s = .next (goesOn (.ringdecl o) (s1.modCc fun c =>
        (({ c with rings := Map.ins k r c.rings } : Cell).setCounter s1.fresh r.headAt 0).setCounter s1.fresh r.tailAt 0)))
    ∧ (Issues (.ringdeclClr o) s s1 → exec (.ringdeclClr o) s = .next (goesOn (.ringdeclClr o) (s1.modCc fun c => { c with rings := Map.del k c.rings })))
    ∧ (Issues (.rsend o) s s1 → inCopy s1 s1.cur.cell = false → inRival s1 s1.cur.cell = false →
        let recv := s1.src 0 o.index 64 (s1.uniPos o.gd)
        let n := bits g.toNat 39 24
        let bs := Map.bytes s1.cc.scratch (bits g.toNat 23 0) n
        let s2 := releaseActs s1.cur (s1.whoOf s1.cur.cell) 2 none s1
        let s3 := signWrite s2.cur recv bs s2
        g.toNat < 2 ^ 40 → 1 ≤ n → n ≤ 4096 → bits g.toNat 23 0 + n ≤ s1.cc.scratchSz → recv < taskCells s1 → recv < 2 ^ 32 →
        inCopy s3 s3.cur.cell = false → inRival s3 s3.cur.cell = false → s3.cg.msgs.length < 4 → (s3.studio s3.ck).landing + n ≤ 131072 →
        exec (.rsend o) s = .next (goesOn (.rsend o) (sendMessage s3.cur k recv bs s3.cg.handler s3)))
    ∧ (∀ r, Issues (.rhead o) s s1 → Map.find k s1.cc.rings = some r →
        let head := counterAt s1.cc r.headAt
        g.toNat ≤ (counterAt s1.cc r.tailAt + 2 ^ 32 - head) % 2 ^ 32 →
        let s2 := releaseActs s1.cur (s1.whoOf s1.cur.cell) 2 none s1
        exec (.rhead o) s = .next (goesOn (.rhead o) (s2.modCc fun c => c.setCounter s2.fresh r.headAt ((head + g.toNat) % 2 ^ 32)))))

/-! ### The matrix state and the palette -/

/-- R246, R264-R270: the convergence registers and the commands on tiles, by a group that may use the tiles, with an active lane and
room in the command queue. R267, R269, R271: `mwait` waits exactly while commands are outstanding on its tile, and raises TILE_UNCORR
of a tile so marked; one that observes a tile's commands ends their operand windows (R276), and `mread` judges those still open; `mread` of a tile with none outstanding starts a producer of its rows, or of its check words; `msave` and
`mrestore` move the matrix state to and from their area. R272-R274: `pfill` of a well-formed record with its slot free makes the fill
busy after a release at the cell; `pwait` waits exactly while it is, and then raises its recorded fault; `pzap.b` and `pzap.c` of a
range in the store are entered in order. The model's choices: the operand windows and what they taint (log 46), the bytes of the saved
state and the commands saved with it (log 53), an s operand of an unscaled `mma` ignored (log 111). -/
def Obligations.MatrixInstructionsComplete : Prop :=
  (∀ (o : XOp) s s1, s1.active o.gd ≠ [] → mayUseTiles s1 →
    let w := s1.cc.cv o.cv
    let n := cvSigned w + (s1.active o.gd).length
    let queued := fun (c : Cmd) => s1.tick.modCc fun x => { x with cmds := x.cmds ++ [{ c with id := s1.fresh }] }
    (Issues (.cvdecl o) s s1 → cvSigned w = 0 → o.val ≤ s1.cc.shape →
      exec (.cvdecl o) s = .next (goesOn (.cvdecl o) (s1.modCc fun c => c.setCv o.cv (cvWord (cvCredits w) 0 o.val))))
    ∧ (Issues (.cvsign o) s s1 → cvDeclared w ≠ 0 → cvCredits w + n / cvDeclared w ≤ 15 → exec (.cvsign o) s = .next (goesOn (.cvsign o)
        (s1.modCc fun c =>
          let c := c.setCv o.cv (cvWord (cvCredits w + n / cvDeclared w) (n % cvDeclared w) (cvDeclared w))
          { c with cvFired := Map.ins o.cv (Map.getD c.cvFired o.cv [] ++ List.replicate (n / cvDeclared w) (Map.getD s1.cc.cvFence o.cv 0)) c.cvFired })))
    ∧ (Issues (.mfence o) s s1 → cvDeclared w ≠ 0 → exec (.mfence o) s = .next (goesOn (.mfence o) (s1.tick.modCc fun c => c.fenceCv o.cv s1.fresh)))
    ∧ (o.tile < s1.cc.tileCount → s1.cc.cmds.length < 8 →
      (Issues (.mzero o) s s1 → exec (.mzero o) s = .next (goesOn (.mzero o) (queued (cmdOf 0x73 o))))
      ∧ (Issues (.mwrite o) s s1 → exec (.mwrite o) s = .next (goesOn (.mwrite o)
          (queued { cmdOf 0x79 o with rows := captureRows o s1, mask := maskOf (s1.active o.gd) })))
      ∧ (Issues (.mdrain o) s s1 → 64 * o.val + 2048 ≤ s1.cc.scratchSz → exec (.mdrain o) s = .next (goesOn (.mdrain o) (queued (cmdOf 0x77 o))))
      ∧ (Issues (.mcheck o) s s1 → exec (.mcheck o) s = .next (goesOn (.mcheck o) (queued (cmdOf 0x7A o))))
      ∧ (∀ int, s1.cc.pal = true → cvDeclared w ≠ 0 → refuses s1 = false → modeAhead s1.cc o.tile = int →
          let d := s1.gval o.record
          let sl := s1.src 0 o.coord 32 (s1.uniPos o.gd)
          (Issues (.mma o) s s1 → mulCheck false d sl s1 = .ok int → exec (.mma o) s = .next (goesOn (.mma o)
            (queued { cmdOf 0x74 o with desc := d, coord := BitVec.ofNat 64 sl, segs := [{ cb := mdCb d, pslab := mdSlab d, sslab := sl, rows := 32 }] })))
          ∧ (Issues (.mmar o) s s1 → mulCheck true d 0 s1 = .ok int → 64 * o.val + 8 * o.count.toNat ≤ s1.cc.scratchSz →
            exec (.mmar o) s = .next (goesOn (.mmar o) (queued { cmdOf 0x75 o with desc := d, coord := 0, segs := [] })))))) ∧
  (∀ (o : XOp) s s1, s1.active o.gd ≠ [] →
    let a := (s1.gval o.record).toNat % 2 ^ 57
    (o.tile < s1.cc.tileCount → mayUseTiles s1 →
      (Issues (.mwait o) s s1 →
        (tileBusy s1.cc o.tile = true → exec (.mwait o) s = .next (s1.endRun (fun _ => some (nextPC s1.crun.pc)) none (.tile o.tile (tileCmds s1.cc o.tile) s1.cg.handler)))
        ∧ (tileBusy s1.cc o.tile = false → (s1.cc.tile o.tile).status.getLsbD 28 = false →
            exec (.mwait o) s = .next (goesOn (.mwait o) (endWindows s1.cur.cell o.tile s1)))
        ∧ (tileBusy s1.cc o.tile = false → (s1.cc.tile o.tile).status.getLsbD 28 = true → exec (.mwait o) s = .next (s.raise
            { code := fTileUncorr, sub := if (s1.cc.tile o.tile).badTab then 1 else 0, addr := BitVec.ofNat 64 o.tile, clr := .tile o.tile })))
      ∧ (Issues (.mread o) s s1 → tileBusy s1.cc o.tile = false →
          let s2 := settleWatch s1.cur.cell o.tile s1
          exec (.mread o) s = .next (goesOn (.mread o) ((s2.modCc fun c =>
            { c with cmds := c.cmds.map fun x => if x.tile == o.tile && isMul x then { x with taint := true } else x }).produce
            { writes := (s2.active o.gd).flatMap fun p => (readWords (o.sub == 1) (s2.cc.tile o.tile) p).zipIdx.map fun x =>
                RegWrite.v (s2.clOf p) (o.dest.vIdx + x.2) (BitVec.ofNat 32 x.1),
              regs := vRange o.dest.vIdx (if o.sub = 0 then 16 else 4), pred := none, fault := none, ckpt := none }))))
    ∧ (∀ s2, Issues (.msave o) s s1 → s1.cg.handler = true → s1.cc.saved = none → (s1.cc.cmds.any fun c => c.started) = false → a % 64 = 0 →
        writeVa (s1.whoOf s1.cur.cell) 64 a (matrixImage s1.cc) s1 = .ok s2 →
        exec (.msave o) s = .next (goesOn (.msave o) (s2.modCc fun c =>
          { c with saved := some s2.cur.grp, savedCmds := c.cmds, savedFired := c.cvFired, savedWatch := c.watch,
                   savedTabs := (c.tiles.filter fun t => t.2.badTab).map Prod.fst, cmds := [], tiles := [], cvs := [], cvFired := [], watch := [] })))
    ∧ (∀ s2 b, Issues (.mrestore o) s s1 → s1.cc.saved = some s1.cur.grp → s1.cc.cmds = [] → a % 64 = 0 →
        readVa (s1.whoOf s1.cur.cell) false 64 a 41472 s1 = .ok (s2, b) → imageOk s2.cc b = true →
        exec (.mrestore o) s = .next (goesOn (.mrestore o) (settleZaps s2.ck (s2.modCc fun c => restoreImage c b))))) ∧
  (∀ (o : XOp) s s1, s1.active o.gd ≠ [] → s1.cc.pal = true → mayUseTiles s1 →
    let f := o.imm.toNat
    (∀ s2 r, Issues (.pfill o) s s1 → refuses s1 = false →
      let a := (s1.gval o.record).toNat % 2 ^ 57
      a % 64 = 0 → readRecord (s1.whoOf s1.cur.cell) 64 a 64 s1 = .ok (s2, r) → fillOk r = true → (Map.getD s2.cc.fills f default).busy = false →
      let s3 := releaseActs s2.cur (s1.whoOf s1.cur.cell) 2 none s2
      let x : Fill := { busy := true, addr := BitVec.ofNat 57 a, record := r, scales := false, done := 0, granule := o.granule.toNat,
                        fault := none, grp := s3.cur.grp, handler := s3.cg.handler, id := s3.fresh }
      exec (.pfill o) s = .next (goesOn (.pfill o) (s3.tick.modCc fun c => { c with fills := Map.ins f x c.fills })))
    ∧ (Issues (.pwait o) s s1 → let x := Map.getD s1.cc.fills f default
        (x.busy = true → exec (.pwait o) s = .next (s1.endRun (fun _ => some (nextPC s1.crun.pc)) none (.fill f x.id s1.cg.handler)))
        ∧ (x.busy = false → x.fault = none → exec (.pwait o) s = .next (goesOn (.pwait o) s1))
        ∧ (∀ y, x.busy = false → x.fault = some y →
            exec (.pwait o) s = .next (s.raise { code := y.code, sub := y.sub, addr := y.addr, clr := .fill f })))
    ∧ (∀ chk i, (i, chk) = (Instr.pzapB o, false) ∨ (i, chk) = (Instr.pzapC o, true) → Issues i s s1 →
        let v := (s1.gval o.record).toNat
        v < 2 ^ 24 → bits v 11 0 + (bits v 23 12 + 1) ≤ 4096 →
        let s2 := s1.tick.modStudio s1.ck fun st => { st with zaps := st.zaps ++ [⟨chk, bits v 11 0, bits v 23 12 + 1, s1.fresh, s1.cur.cell⟩] }
        exec i s = .next (goesOn i (settleZaps s2.ck s2))))

/-! ### Events: runs and meetings -/

/-- R33-R40: with a free issue slot, no late fault due and a group picked, RUN_DISPATCH starts that group's run at its entry's PC; its
count of refused turns is cleared and its count of dispatches advances. The waits are evaluated first (log 14). -/
def Obligations.RunDispatchStartsAPickedRun : Prop :=
  ∀ (k : Nat) (s : State) slot r e top, s.module.powerNow ≠ 3 → s.module.bootFailed = false →
    let s1 := settleWaits k s
    let s2 := countRefusals k s1
    lateDelivery s1 (studioGroups k s1) = none → inFlight k s1 < 4 → arbitrate k (readyGroups k s2) s2 = some ((slot, r, e), top) →
    (runOf r e s2).refused = false → entryMarked r e s2 = true → ∃ t u, exec (.runDispatch k) s = .next t
      ∧ t.cur = r ∧ (t.group r).run = some u ∧ u.start = e.pc ∧ u.pc = e.pc ∧ u.handler = e.handler ∧ u.held = false ∧ u.empty = []
      ∧ (t.group r).passed = 0 ∧ (t.group r).disp = (s2.group r).disp + 1 ∧ (u.unknown ≠ some e.pc → (t.group r).first = false) ∧ t.mem = s2.mem

/-- R40: the group picked: through the 384 path one passed over most often; else one of the highest task priority, at the first slot
from the priority's pointer on, or, with none there, at the first slot. -/
def Obligations.ArbitrationOrder : Prop :=
  ∀ (k : Nat) rs (s : State) x top, arbitrate k rs s = some (x, top) → x ∈ rs
    ∧ (top = none → 384 ≤ (s.group x.2.1).passed.toNat ∧ ∀ y ∈ rs, (s.group y.2.1).passed.toNat ≤ (s.group x.2.1).passed.toNat)
    ∧ (∀ p, top = some p → p = taskPrio x.2.1 s ∧ (∀ y ∈ rs, (s.group y.2.1).passed.toNat < 384 ∧ taskPrio y.2.1 s ≤ p)
      ∧ (rs.Pairwise (fun a b => a.1 < b.1) → let rr := Map.getD (s.studio k).rr p 0
          ∀ y ∈ rs, taskPrio y.2.1 s = p → (rr ≤ y.1 → rr ≤ x.1 ∧ x.1 ≤ y.1) ∧ (x.1 < rr → x.1 ≤ y.1)))

/-- R37, R38, R57, R158, R26: the events of a run in flight, each with its condition met: a held run goes on once its slot can be
fetched, or its fetch faults, and one that dispatch could not see further is judged by R34 and R37 first (log 92); a producer's result
arrives with its registers full again, a group whose run has ended and whose holds are past is settled, the clock of a studio advances. -/
def Obligations.RunEventsComplete : Prop :=
  (∀ k slot (s : State) r u i, heldGroup k slot s = some r → (s.group r).run = some u → (i = .fetchResume k slot ∨ i = .heldAccessResume k slot) →
    (∀ y, s.fetchSlot (s.whoOf r.cell) u.pc = .error y →
      (y.hold = true → exec i s = .next s)
      ∧ (y.hold = false → exec i s = .next ((clearHeld r s).modGroup r fun g => { g with run := g.run.map fun u => { u with unknown := none } })))
    ∧ (∀ s1 ln, s.fetchSlot (s.whoOf r.cell) u.pc = .ok (s1, ln) →
      (u.unknown ≠ some u.pc → exec i s = .next (clearHeld r s))
      ∧ (u.unknown = some u.pc →
        let sc := (clearHeld r s).scanRun (s.whoOf r.cell) (pcLine u.start) (24 - u.hist.length) u.pc
        sc.refused = false → ((s.group r).first = true → lineTarget ln (pcSlot u.pc) = true) →
        runReady r sc.is ((runUses r sc.is (clearHeld r s)).map (restUses u)) (clearHeld r s) = true →
        exec i s = .next ((clearHeld r s).modGroup r fun g =>
          { g with first := false, run := g.run.map fun u => { u with unknown := sc.unknown } })))) ∧
  (∀ cell grp i (s : State) p, let r : GRef := ⟨cell, grp⟩
    (s.group r).outs[i]? = some p → p.ckpt = none → p.fork = false → p.test = none → p.fault = none → p.acq = 0 → ∃ t, exec (.longLatencyComplete cell grp i) s = .next t
      ∧ t = (s.modGroup r fun g => { g with outs := g.outs.eraseIdx i }).complete r p ∧ (t.group r).outs = (s.group r).outs.eraseIdx i
      ∧ (∀ x ∈ p.regs, match x with
          | .v j => j < 256 → (t.group r).isEmpty x = false
          | .g j => j < 96 → (t.group r).isEmpty x = false)
      ∧ (∀ q, p.pred = some q → q < 16 → (t.group r).pPend.getLsbD q = false)
      ∧ (∀ j x, p.writes = [.g j x] → (t.group r).greg j = x)) ∧
  (∀ cell grp (s : State), (s.group ⟨cell, grp⟩).run = none → (∀ h ∈ (s.group ⟨cell, grp⟩).holds, holdPast h s = true) →
    exec (.runSettled cell grp) s = .next (s.modGroup ⟨cell, grp⟩ fun g => { g with settled := true, holds := [] })) ∧
  (∀ k (s : State), s.module.powerNow ≠ 3 → ∃ t, exec (.arithmeticCycle k) s = .next t
    ∧ (t.studio k).clk = (s.studio k).clk + 1 ∧ t.mem = s.mem ∧ t.cells = s.cells)

/-- R42-R44: with every live lane of a resident cell waiting at a meeting of one kind and nothing outstanding, the meeting completes:
lanes are placed, a group's g registers come from its donor, and after a regroup a group without lanes is parked. -/
def Obligations.MeetingsComplete : Prop :=
  ∀ n (s : State), let c := s.cell n
    (meets1 .regroup c = true → ∃ t, exec (.regroupMeetingComplete n) s = .next t ∧
      let pl := packLanes c.groupCount ((meeters c).mergeSort meetBefore) 0 0 none
      (t.cell n).regrouped = true ∧ (t.cell n).groups = meetGroups (s.whoOf n) pl (fun x => x.cl / 32) true c.groups s
      ∧ (∀ x ∈ pl, x.1.cl < c.shape → ∃ y ∈ pl, y.1.cl = x.1.cl ∧ (t.cell n).placeOf x.1.cl = 32 * y.2.1 + y.2.2)
      ∧ t = s.setCell n (t.cell n) ∧ t.cell n = { c with groups := (t.cell n).groups, remap := (t.cell n).remap, regrouped := true })
    ∧ (meets1 .restore c = true → exec (.regroupRestoreComplete n) s = .next (s.modCell n fun c => { c with
        groups := meetGroups (s.whoOf n) (((meeters c).mergeSort meetBefore).map fun x => (x, x.cl / 32, x.cl % 32)) (fun x => x.grp) false c.groups s
        remap := []
        regrouped := false }))

/-- R42 step 4: the packing places every lane of the meeting, in order, at positions 0 to 31 of the cell's groups, no two at one place. -/
def Obligations.RegroupPlacesEveryLane : Prop :=
  ∀ (G : Nat) (l : List Meeter), l.length ≤ 32 * G → let pl := packLanes G l 0 0 none
    pl.map Prod.fst = l ∧ (∀ x ∈ pl, x.2.1 < G ∧ x.2.2 < 32) ∧ (pl.map fun x => 32 * x.2.1 + x.2.2).Nodup

/-! ### Events: engines -/

/-- R255-R260, R266-R270, R272, R277: the events of Easel commands and fills, each with its condition met. Slabs act on the operands as
they stand, and a tile whose operands were written in their window ends undefined (log 46). R46, R397-R400, R404-R408, R412-R415: the
events of the Brush and of the walks, each with its condition met. A burst reads the bytes as they stand at its event (log 7), in either
direction of a `bstore` (log 28), once a `bcopy` has landing space (log 57), and what it lands is read from the next wait on (log 118); the
order of a `.fast` round is open (log 26). R419, R421-R424: the events of ring messages and of the torus, each with its condition met;
a router serves its input ports in turn. Which packets travel, and two buffers to a ring direction, are the model's reading (log 57). -/
def Obligations.EngineEventsComplete : Prop :=
  ((∀ n i (s : State) c, let x := s.cell n
    x.place = .resident → s.clockStopped = false → x.cmds[i]? = some c →
    ((residents x.studio s).any (fun c => c.2.cmds.any (·.started)) = false → easelTurn x.studio s = some n → oldestReady x s = some i →
      exec (.easelCommandStart n i) s = .next (settleZaps x.studio
        ((startCmd n i c (settleWatch n c.tile s)).modStudio x.studio fun st => { st with easelNext := n + 1 })))
    ∧ (c.started = true → c.done < cmdSlabs c → exec (.easelSlab n i) s = .next
        ((modCmd n i (fun c => { c with done := c.done + 1 }) (s.modCell n fun y =>
          y.setTile c.tile (slabStep (s.studio x.studio) x.scratch c.desc c.segs c.done (x.tile c.tile)))).perf x.studio x.ctx 8))
    ∧ (c.started = true → cmdSlabs c ≤ c.done → exec (.easelCommandComplete n i) s = .next
        (settleZaps x.studio (settleEngine n ((finishCmd n c s).modCell n fun y => { y with cmds := y.cmds.eraseIdx i }))))) ∧
  (∀ n f (s : State), let x := Map.getD (s.cell n).fills f default
    (s.cell n).place = .resident → s.clockStopped = false → x.busy = true →
    (∀ t, x.fault = none → x.done < (fillOf x.record).ks → writeClear (s.cell n).studio x.id (fillSpan x) s = true → fillStep (s.whoOf n) f x s = .ok t →
      exec (.fillSlab n f) s = .next t)
    ∧ (x.fault ≠ none ∨ (fillOf x.record).ks ≤ x.done → exec (.fillComplete n f) s = .next
        (settleZaps (s.cell n).studio (settleEngine n (s.modCell n fun c => { c with fills := Map.upd f (fun x => { x with busy := false }) c.fills }))))) ∧
  (∀ (s : State) n m w b, m < (s.cell n).tileCount → w < 608 → b < 32 → exec (.softError (.tileBit n m w b)) s = .next
    (s.modCell n fun y => y.setTile m { tileOf (flipBit (tileBytes ((s.cell n).tile m)) (32 * w + b)) with badTab := ((s.cell n).tile m).badTab })) ∧
  (∀ (s : State) l, exec (.softError (.memLine l)) s = .next { s with poison := Map.ins l true s.poison }) ∧
  (∀ (s : State) k l b, exec (.softError (.codeLine k l b)) s = .next
    (s.modStudio k fun st => { st with icache := Map.upd l (fun x => flipBit x (b % 512)) st.icache }))) ∧
  ((∀ n i (s : State) b, let c := s.cell n
    c.place = .resident → s.clockStopped = false → c.brush[i]? = some b →
    (∀ s1 k, (b.major = 0xC8 ∨ b.major = 0xC9) → b.done < burstsOf (layoutOf b.layout) →
      let us := burstUnits (layoutOf b.layout) b.done
      (b.major = 0xC8 → landRoom c.studio (unitBytes (layoutOf b.layout) * us.length) s = true) →
      moveUnits (s.whoOf n) b (if b.major = 0xC9 && Config.freeBool s.fresh then us.reverse else us) (startBrush n i (signBurst n b us s)).tick 0
        = (s1, k, none) →
      let r := reportBytes n b k (s1.perf c.studio c.ctx 0x0A k)
      (∀ t, r = some t → exec (.brushBurst n i) s = .next (flushSigs n (modBrush n i (fun b => { b with done := b.done + 1 }) t)))
      ∧ (r = none → exec (.brushBurst n i) s = .next s))
    ∧ (brushDone b = true → let t := flushSigs n (s.modCell n fun c => { c with brush := c.brush.eraseIdx i })
        exec (.brushCommandComplete n i) s = .next (if b.report = 0 then barArrival n b.bar t else t))
    ∧ (∀ m t, b.major = 0xCA → brushDone b = false → stageCell c (c.stage + b.hop + 1) s = some m → (s.cell m).place = .resident →
        let len := chainLen b.chain
        Machine.chainDst b.chain + len ≤ (s.cell m).scratchSz → chainWord b.chain + 16 ≤ (s.cell m).scratchSz →
        let s1 := landIn m (Machine.chainDst b.chain) len (some b.rec64) (keepHop n b (startBrush n i s))
        let s2 := modBrush n i (fun b => { b with hop := b.hop + 1 }) ((landScratch m (chainWord b.chain) len s1).perf (s.cell m).studio (s.cell m).ctx 0x0A len)
        (if b.hops ≤ b.hop + 1 then reportBytes n b len s2 else some s2) = some t → exec (.bmcastHop n i) s = .next (flushSigs n t))
    ∧ (b.major = 0xCB → b.accepted = false → s.inService (.slice (s.homeSlice b.chain.toNat)) = true → (s.studio c.studio).landing + bredBytes b ≤ 131072 →
        (∀ r, roundOf b.chain b.round s = some r → roundAgrees r b.sub b.hop b.layout = true) →
        exec (.bredAccept n i) s = .next (acceptInto n b ((modBrush n i (fun b => { b with accepted := true }) (startBrush n i s)).modStudio c.studio
          fun st => { st with landing := st.landing + bredBytes b })))) ∧
  (∀ tag k (s : State) r p t, s.clockStopped = false → roundOf tag k s = some r → roundSize r s = some p → p ≤ r.parts.length →
    let w := collWidth r.variant
    let ps := if r.variant = 1 then openOrder s.fresh r.parts else r.parts
    let res := (List.range r.n).map fun i => BitVec.ofNat 64 (reduceElem r.variant (ps.map fun x => (x.vals.getD i 0).toNat))
    let s1 : State := { s with rounds := s.rounds.filter (· != r), fresh := s.fresh + ps.length }
    r.parts.foldlM (deliverRound res w) (r.parts.foldl (roundFence false) s1) = some t →
    exec (.bredRoundComplete tag k) s = .next (r.parts.foldl (roundFence true) t)) ∧
  (∀ n i (s : State) w s1 e, let c := s.cell n
    let q := walkQueue w
    c.place = .resident → s.clockStopped = false → c.walks[i]? = some w → w.state = 0 → (c.walks.take i).any (fun x => walkQueue x == q && x.state == 0) = false →
    queueLen (s.group ⟨n, w.grp⟩) q < 16 → walkEntry (s.whoOf n) w c.shape w.grp s = .ok (s1, e) →
    exec (.walkPush n (.push i)) s = .next (modWalk n i (stepWalk c.groupCount)
      (s1.modGroup ⟨n, w.grp⟩ fun g => { g with queues := Map.ins q ((Map.getD g.queues q []) ++ [e]) g.queues })))) ∧
  ((∀ n g i (s : State) m p, let c := s.cell n
    msgAt n g i s = some m → msgFirst n m s = true →
    (packetOf m s = some p → m.refused = false → arrived p = true →
      let s1 : State := { s with packets := s.packets.filter fun x => x.id != m.seq }
      (∀ d r, reachRing c m s1 = some (d, r) → nodeOf (s1.cell d).studio = (p.to_x, p.to_y) → r.prod = linearIn c s1 → m.bytes.length ≤ r.size →
        (ringUsed (s1.cell d) r < r.slots → exec (.ringDelivery n g i) s = .next (dropMsg n g i m (landMsg d r m s1)))
        ∧ (r.slots ≤ ringUsed (s1.cell d) r → exec (.ringDelivery n g i) s = .next (modMsg n g i (fun m => { m with refused := true }) s1)))
      ∧ (reachRing c m s1 = none → exec (.ringDelivery n g i) s = .next (modMsg n g i (fun m => { m with refused := true }) s1)))
    ∧ (∀ d r, c.place = .resident → m.refused = true → reachRing c m s = some (d, r) → (r.prod ≠ linearIn c s ∨ ringUsed (s.cell d) r < r.slots) →
        exec (.ringRetry n g i) s = .next (sendPacket m.seq c.studio (s.cell d).studio (modMsg n g i (fun m => { m with refused := false }) s)))) ∧
  (∀ i (s : State) p, s.packets[i]? = some p → nextRing p ≠ 0 → packetFirst i p s = true → packetTurn p s = true →
    let ring := nextRing p
    let served := Map.ins (routerKey p) p.ring s.routers
    (p.ring ≠ ring → buffersUsed p.cls ring p.at_x p.at_y s = 0 →
      exec (.torusHop i) s = .next { s with packets := s.packets.eraseIdx i ++ [{ p with ring := ring }], routers := served })
    ∧ (p.ring = ring → let z := hopTo p ring
        let q := { p with at_x := z.1, at_y := z.2 }
        buffersUsed p.cls ring z.1 z.2 s ≤ 1 →
        exec (.torusHop i) s = .next { s with packets := s.packets.eraseIdx i ++ [if arrived q then { q with ring := 0 } else q], routers := served })))

/-- R16, R422: a packet that has not arrived takes the ring of its row while its column differs, and every hop on the ring it takes
brings it one nearer to its destination along the shorter way. -/
def Obligations.TorusHopsApproach : Prop :=
  ∀ (p : Packet), p.at_x < 16 → p.at_y < 16 → p.to_x < 16 → p.to_y < 16 → arrived p = false →
    let z := hopTo p (nextRing p)
    nextRing p ≠ 0 ∧ z.1 < 16 ∧ z.2 < 16 ∧ (p.at_x ≠ p.to_x → z.2 = p.at_y)
    ∧ ringDist z.1 p.to_x + ringDist z.2 p.to_y + 1 = ringDist p.at_x p.to_x + ringDist p.at_y p.to_y

/-! ### Events: caches, arenas, translations -/

/-- R158-R161, R163, R176, R333-R336, R380: the events of caches, broadcasts and translations, each with its condition met. Capacity,
the units of a broadcast, and what a migration and a rewrite do beside the leaf are the model's reading (logs 8, 37, 62, 63), and so are the
order in which a line's buffers merge (log 84) and the held writes that a migration's end lets go (log 117). A page's bytes move once no
unit holds an access under its old translation (R160, R303), and lanes go by the old leaf of a part of a large page until its shoot-down
is complete (R159). -/
def Obligations.CacheAndTranslationEventsComplete : Prop :=
  (∀ k i (s : State) b, (s.studio k).reds[i]? = some b →
    let s1 := s.modStudio k fun st => { st with reds := st.reds.filter fun c => c.line != b.line }
    exec (.redMerge k i) s = .next ((redOrder ((s.studio k).reds.filter fun c => c.line == b.line)).foldl (fun s x => s.applyRed k x.1 x.2) s1)) ∧
  (∀ (s : State) k ln l, s.l1Live k ln = some l → exec (.cacheEviction (.l1 k) ln false) s = .next ((s.wbL1 k ln).dropL1 k ln)) ∧
  (∀ (s : State) ln l l', Map.find ln s.l2 = some l → s.l2Live ln = some l' →
    (l.pin = false → exec (.cacheEviction .l2 ln false) s = .next { s.wbL2 ln with l2 := Map.del ln (s.wbL2 ln).l2 })
    ∧ (l.pin = true → ∀ bad, exec (.cacheEviction .l2 ln bad) s = .next s)) ∧
  (∀ u a (s : State) w g, nextDrop u a s = some (w, g) → let x := Map.getD s.units u default
    let s1 := sweepUnit u a w.gen { s with units := Map.ins u { x with
      gen := if Map.getD x.gen a 0 = BitVec.ofNat 4 w.gen then Map.put 0 a g x.gen else x.gen, seals := Map.put false a false x.seals } s.units }
    exec (.dropBroadcastApply u a) s = .next { s1 with
      sweeps := s1.sweeps.map fun x => if x.arena == a && x.gen == w.gen then { x with units := x.units.filter (· != u) } else x }) ∧
  (∀ a g (s : State) w, s.sweeps.find? (fun w => w.arena == a && w.gen == g) = some w → w.units = [] → ∃ t, exec (.sweepComplete a g) s = .next t
    ∧ t = finishSweep w s ∧ (g < 16 → (t.arena a).sweeping.getLsbD g = false)) ∧
  (∀ u a (s : State) w, s.sealbs.find? (fun w => w.arena == a && w.units.contains u) = some w → (u < 192 ∨ ∀ x ∈ w.units, 192 ≤ x) →
    (s.arena a).gen.toNat = w.gen → nextDrop u a s = none →
    let x := Map.getD s.units u default
    let s1 := sealUnit u a w.gen { s with units := Map.ins u { x with seals := Map.put false a true x.seals } s.units }
    exec (.sealBroadcastApply u a) s = .next { s1 with sealbs :=
      (s1.sealbs.map fun x => if x.arena == a && x.gen == w.gen then { x with units := x.units.filter (· != u) } else x).filter fun x => !x.units.isEmpty }) ∧
  (∀ u i (s : State) w, s.shoots[i]? = some w → w.units.contains u = true → exec (.tlbShootdownAck u i) s = .next (ackShoot u w s)) ∧
  (∀ (p : LeafPlace) (s : State), let at' := p.addr
    Map.getD s.module.requests at' false = true → let l := s.pte at' 0
    let t := s.modModule fun m => { m with requests := Map.del at' m.requests }
    ((leafBit l 0 && leafBit l 1 && leafRes l = 2) = false → exec (.migrationBegin p) s = .next t)
    ∧ (leafBit l 0 = true → leafBit l 1 = true → leafRes l = 2 → ∀ s2 a, partLeaf p s = some (s2, a) →
        let s3 := s2.modModule fun m => { m with requests := Map.del at' m.requests }
        let s4 := s3.setLeafAt a (withRes (s3.pte a 0) 1)
        (p.part = none → exec (.migrationBegin p) s = .next s4)
        ∧ (p.part ≠ none → exec (.migrationBegin p) s = .next (shootLeaf (leafMaps a s4) (some (a, s3.pte a 0)) s4)))) ∧
  (∀ at' (s : State), let l := s.pte at' 0
    let n := 2 ^ sizeShift (bits l.toNat 11 10) / 65536
    leafBit l 0 = true → leafBit l 1 = true → leafRes l = 1 →
    (leafShot at' s = true → ∀ fate, exec (.migrationEnd at' fate) s = .next s)
    ∧ (leafShot at' s = false →
      exec (.migrationEnd at' .absent) s = .next (settleHeld (s.setLeafAt at' (withRes l 2)))
      ∧ exec (.migrationEnd at' .stays) s = .next (settleHeld (s.setLeafAt at' (withRes l 0)))
      ∧ (∀ f, mayMove f n s = true → exec (.migrationEnd at' (.moved f)) s = .next
          (settleHeld (((List.range n).foldl (fun s j => s.moveFrame (leafFrame l + j) (f + j)) s).setLeafAt at' (withRes (withFrame l f) 0)))))) ∧
  (∀ p v (s s2 : State) a, partLeaf p s = some (s2, a) →
    let s3 := putLeaf a v s2
    (p.part = none → exec (.leafRewrite p v) s = .next (shootLeaf (distinct (leafMaps a s2 ++ leafMaps a s3)) none s3))
    ∧ (p.part ≠ none → exec (.leafRewrite p v) s = .next (shootLeaf (leafMaps a s2) (some (a, s2.pte a 0)) s3)))

/-! ### Events: the launch controller and cells -/

/-- R375-R377, R380, R382-R384, R389: the events of the launch controller, each with its condition met. The controller's choices are
the event's parameters (log 29), held writes are tried as a kick is served (log 117), and an admission waits for its frames (log 70). R50, R51, R53, R364, R365, R385, R386: the events of cells, each with its condition met. What a saved
cell, a clone and an ending rival keep is the model's reading (logs 44, 71, 74). -/
def Obligations.LaunchAndCellEventsComplete : Prop :=
  ((∀ c q (s : State), c < 64 → q < 64 → ∃ t, exec (.kickWrite c q) s = .next t ∧ Map.getD t.module.kick (64 * c + q) false = true) ∧
  (∀ c q (s : State), s.module.bootFailed = false → q < 64 → Map.getD s.module.kick (64 * c + q) false = true → hasCtx c s = true →
    (s.ctx c).rejoin = false →
    exec (.serveKick c q) s = .next (serveQueue c q (((settleHeld s).modModule fun m => { m with kick := Map.del (64 * c + q) m.kick }).acquireSys none))) ∧
  (∀ t (s s2 : State) x, s.task t = some x → x.failing = false → x.replay = none →
    ((x.state = 3 ∧ depsDone x s = true ∧ earlierAdmitted x s = true) ∨ x.state = 4) →
    let s1 := if x.state = 3 then setTaskState t 4 s else s
    firstUnmapped x.ctx x.lrec.ranges s1 = none → readyAll x.ctx x.lrec.ranges s1 false = .ready s2 →
    exec (.readyRanges t) s = .next (setTaskState t 5 s2)) ∧
  (∀ (p : Placement) (s s2 : State) x, nextTask s = some x → x.ticket = p.ticket → s.module.bootFailed = false → savedCells x.ticket s = [] →
    placementOk p s = true → admitLaunch x p s = .ok s2 → exec (.cellAdmission p) s = .next s2) ∧
  (∀ pair (s : State), pair < 2 → ∃ t, exec (.controllerTakeover pair) s = .next t
    ∧ Map.getD t.module.takeover pair false = !Map.getD s.module.takeover pair false
    ∧ (let a := Map.getD s.ctlLog (2 * pair) []
       let b := Map.getD s.ctlLog (2 * pair + 1) []
       let log := if lastChange a < lastChange b then b else a
       Map.getD t.ctlLog (2 * pair) [] = log ∧ Map.getD t.ctlLog (2 * pair + 1) [] = log
       ∧ (log = [] → t.tasks = s.tasks ∧ t.cells = s.cells ∧ t.mem = s.mem)
       ∧ (∀ r x, log = [r] → r.kind = 0 → s.task (BitVec.ofNat 64 r.subject) = some x →
           ∃ y, t.task (BitVec.ofNat 64 r.subject) = some y ∧ y.state = r.value)))) ∧
  ((∀ n (s : State), (s.cell n).place = .resident → (gangOf n s).all (fun m => canStop m s) = true →
    ((∃ x ∈ s.tasks, x.state = 5 ∧ wantsAdmission x s = true ∧ headStuck x s = true ∧ victim x.lrec.prio s = some n) ∨ s.inService (.studio (s.cell n).studio) = false) →
    exec (.preemptCell n) s = .next ((gangOf n s).foldl (fun s m => saveCell m s) s)) ∧
  (∀ n k (s s2 : State) x, nextTask s = some x → (restoreUnit x s).head? = some n → (x.lrec.cores && !couldFit x s) = false → restoreStudio n s = some k →
    restoreAll (restoreUnit x s) s = some s2 →
    exec (.restoreCell n k) s = .next (movePointer x s2)) ∧
  (∀ n (s : State) f m, (s.cell n).fork = some f → canStop n s = true → let t := takeFork n f s
    let k := (s.cell n).studio
    cloneIn (f.views.headD 0) t = some m → canTake k (t.cell m).ctx (t.cell m).pal (t.cell m).load [] t = true →
    ∀ t2 t3, giveArea m t = .ok t2 → comeTo m k (placeCell m k) t2 = some t3 → exec (.rivalAdmission n k) s = .next t3) ∧
  (∀ n k (s : State), let c := s.cell n
    c.fork = none → c.rival = true → c.place = .unplaced → cloneTurn n s = true → gangWaits c s = false →
    canTake k c.ctx c.pal c.load [] s = true →
    ∀ t2 t3, giveArea n s = .ok t2 → comeTo n k (placeCell n k) t2 = some t3 → exec (.rivalAdmission n k) s = .next t3) ∧
  (∀ n k (s : State) w, (s.cell n).wrec = some w → (s.cell n).place = .forked → w.unresolved = true → (∀ v ∈ w.views, (s.view v).state = 2) →
    restoreStudio n s = some k → ∀ t, restoreOne n k (answerFork n w.leader w.dst 0) s = some t → exec (.worldParentRestore n k) s = .next t) ∧
  (∀ n (s : State) c, Map.find n s.cells = some c → c.tiles.any (fun t => uncorr t.2) = false → c.sigDone = none →
    (s.stopped n = false → c.rival = true → rivalOver n s = true → exec (.cellRetirement n) s = .next (endRival n s))
    ∧ (s.stopped n = false → c.rival = false → c.place = .resident → cellIdle n s = true → exec (.cellRetirement n) s = .next (retireCell n s))
    ∧ (∀ x, s.task c.ticket = some x → x.failing = true → exec (.cellRetirement n) s = .next (dropCell n s))))

/-- R435-R444: the events of recovery, each with its condition met. The digest is opaque, and which lines a reset die loses is free
(logs 22, 72). A self-test is one that is due (log 50), and held writes are tried as a checkpoint is sealed (log 117). -/
def Obligations.RecoveryEventsComplete : Prop :=
  (∀ t (s : State) x code, s.task t = some x → x.replay = some code → x.failing = false → x.state < 7 → exec (.rollback t) s = .next (rollBack x code s)) ∧
  (∀ a b (s : State) p, (s.cell a).sigDone = some p → (s.cell b).sigDone = some p → (s.cell a).role = .original b → (s.cell b).role = .copy a →
    s.stopped a = false → let x := s.cell a
    exec (.shadowCompare a b) s = .next (countRetired x.ticket (removeCell a (leaveArea a
      (removeCell b (s.modCtx x.ctx fun c => { c with shadowRun := satInc c.shadowRun })))))) ∧
  (∀ c d (s : State) k, Map.find c s.ckpts = some k → d < 12 → k.unreachable = false → Map.find d k.acks = none →
    let j := (s.gessoOf d).pos
    let t := s.modGesso d fun g => { g with pos := g.pos + 1, commits := ⟨c, k.n, j, [], [], false⟩ :: g.commits }
    exec (.ckptPrepareAck c d) s = .next { t with ckpts := Map.ins c { k with acks := Map.ins d j k.acks } t.ckpts }) ∧
  (∀ c (s : State) k, Map.find c s.ckpts = some k → 12 ≤ k.acks.length → k.unreachable = false →
    let s1 := storeSeal c k.n (ckptList k) (Config.shake256 (ckptList k)) s
    let s2 : State := { s1 with ckpts := Map.del c s1.ckpts }
    wholeCkpt c k.n s2 = true → exec (.ckptSeal c) s = .next (answerCkpt c 0 (settleHeld ((trimJournals c (s2.ctx c).rpseq s2).modCtx c fun x =>
      { x with rpseq := k.n, rpqpos := k.addr.setWidth 64, ckptstat := BitVec.ofNat 64 (k.n.toNat * 4) })))) ∧
  (∀ c (s : State), hasCtx c s = true → (s.ctx c).rpseq ≠ 0 → (s.ctx c).rejoin = false → exec (.recovery c) s = .next (recoverCtx c s)) ∧
  (∀ d (s : State), d < 4 →
    let here := (s.cells.filter fun c => c.2.place == .resident && dieOf c.2.studio == d).map fun c => c.2.ctx
    let f := flushDie d s
    let cs := (State.distinct (here ++ f.2)).filter fun c => hasCtx c f.1
    let s2 := resetDie d { f.1 with ckpts := f.1.ckpts.map fun k => (k.1, { k.2 with unreachable := true }) }
    exec (.containmentReset d) s = .next (testDie d (cs.foldl (fun s c => if (s.ctx c).rpseq ≠ 0 then recoverCtx c s else failRunning c fMemUncorr s) s2))) ∧
  (∀ u b (s : State), (unitClass u).2 < unitCount (unitClass u).1 → exec (.errorReport u b) s = .next (s.countError u b)) ∧
  (∀ u pass (s s2 : State), s.module.due.contains u = true → s.inService u = true → clearUnit u s = some s2 →
    exec (.selfTest u pass) s = .next (testMade u (if pass then 0 else 1) (if pass then s2 else s2.retireUnit u)))

/-! ### Events: the module -/

/-- R457-R460, R468, R469: reset, life cycle, features, attestation and power. A module reset keeps the host's memory and nothing else
of memory, and the flash, of which decommissioning leaves the boot images alone; LIFECYCLE takes the transition asked for; MEAS0-MEAS2
are measured from zeros. Host memory outlives a reset and a power state is in force at once (logs 40, 60), an image that is not accepted is
the last tried (log 22), ENGCTL[1] clears itself once its reset is made (log 109), and the end of a context completes its drops at once
(log 73). R463-R467: the events of a
codec engine, with the codec engines accepted, each with its condition met. The bytes of a row, and those an encode engine adds to its
stream, are free values (logs 21, 95). The host and the peers store into their own memories at 2^48 and 2^49 on (log 100), and a context
that exists is changed by CONTEXT_CREATION (log 121). R145, R303, R347, R456, R461, R462: accesses of the host and of peers, a peer lost, register
writes, and the life of a context. -/
def Obligations.ModuleEventsComplete : Prop :=
  ((∀ (b : Boot) (s : State), ∃ t, exec (.moduleReset b) s = .next t ∧ t.mem = s.mem.filter (fun c => 2 ^ 48 ≤ c.1) ∧ t.cells = [] ∧ t.tasks = []
    ∧ t.module.lifecycle = s.module.lifeNext.getD s.module.lifecycle
    ∧ (let f := b.flash.foldl (fun f w => Map.setBytes f w.1 w.2) s.module.flash
       (t.module.lifecycle ≠ 3 → t.module.flash = f)
       ∧ (t.module.lifecycle = 3 → s.module.lifecycle ≠ 3 → t.module.flash = f.filter fun c => c.1 < 0x08000000))
    ∧ (match bootImages t.module.flash b with
       | some ds => t.module.bootFailed = false ∧ t.module.meas = measure ds b.more ∧ t.module.journal = journalSize b.journal
       | none => t.module.bootFailed = true ∧ t.module.meas = [])) ∧
  (∀ target signed (s : State), exec (.lifecycleTransition target signed) s = .next
    (if commandOk target signed = true ∧ lifeMay s.module.lifecycle target = true then s.modModule fun m => { m with lifeNext := some target } else s)) ∧
  (∀ v (s : State), (s.module.featLocked = false → exec (.featAcceptWrite v) s = .next (s.modModule fun m => { m with featAccept := v &&& Config.featOffer }))
    ∧ (s.module.featLocked = true → exec (.featAcceptWrite v) s = .next s)) ∧
  (∀ nonce (s : State), nonce.length = 32 → exec (.attestRequest nonce) s = .next (putAttest 0 (nonce ++ [1]) s)) ∧
  (∀ (s : State), Map.getD s.module.attest 32 0 = 1 →
    (∀ d, (s.module.lifecycle = 1 ∨ s.module.lifecycle = 2) → Map.find 2 s.module.meas = some d →
      exec .attestReport s = .next (putAttest 32 [2] (putAttest 64 (report458 s) s)))
    ∧ ((s.module.lifecycle = 0 ∨ s.module.lifecycle = 3) → exec .attestReport s = .next (putAttest 32 [3] s))) ∧
  (∀ x (s : State), exec (.powerWrite x) s = .next (s.modModule fun m => { m with powerReq := x, powerNow := x, capped := false })) ∧
  (∀ (s : State), s.module.powerNow ≠ 3 → exec .powerCapStepdown s = .next (s.modModule fun m => { m with powerNow := m.powerNow + 1, capped := true }))) ∧
  (∀ e (s : State), engineOn e s = true → let x := s.engine e
    (x.ctl.getLsbD 1 = true → exec (.engineReset e) s = .next (resetEngine e 6 s))
    ∧ (∀ v, exec (.engtailWrite e v) s = .next (s.modEngine e fun x => { x with tail := v }))
    ∧ (∀ s1 cmd, x.ctl.getLsbD 0 = true → x.ctl.getLsbD 1 = false → engineState x = 0 → x.head ≠ x.tail → 4 ≤ ringBits x → ringBits x ≤ 12 →
        agentRead (.engine e (engCtx x) false) 64 (bits x.ring.toNat 56 6 * 64 + 64 * (x.head.toNat % 2 ^ ringBits x)) 64 s = .ok (s1, cmd) →
        let t := s1.modEngine e fun y =>
          { y with cmd := some cmd, cmdAt := y.head, head := y.head + 1, row := 0, last := false, out := 0, rowLen := 0, got := [],
                   stat := engStat 1 (lastCode y) }
        (kindOk e cmd = false → exec (.engineTakeCommand e) s = .next (endCommand e 2 t))
        ∧ (∀ s2 bs, kindOk e cmd = true → getStream e cmd t = .ok (s2, bs) →
            exec (.engineTakeCommand e) s = .next (if accepts e (Config.streamInfo cmd bs) then s2 else endCommand e 2 s2)))
    ∧ (∀ cmd, x.cmd = some cmd →
        (∀ n last s1 ok, engineState x = 1 → makeRow e n cmd s = .ok (s1, ok) →
          (field cmd 1 1 % 2 = 0 → exec (.codecRow e n last) s = .next (if ok then s1.modEngine e (nextRow last) else endCommand e 2 s1))
          ∧ (∀ s2 g, field cmd 1 1 % 2 = 1 → handOff (engBuffer e x) cmd x.row s1 = (s2, .ok g) → exec (.codecRow e n last) s = .next
              (if ok then s2.modEngine e fun y => { y with backGen := BitVec.ofNat 32 g, last := last, rowLen := n, stat := engStat 2 (lastCode y) }
               else endCommand e 2 s1)))
        ∧ (∀ s1 s2 b row, engineState x = 2 → agentRead (engBuffer e x) 16 (upWord cmd x.row + 16) 16 s = .ok (s1, b) →
            (Word16.of b).gen ≠ x.backGen.toNat →
            agentRead (engBuffer e x) 1 (field cmd 24 8 + x.rowLen * x.row) x.rowLen (s1.learnDrops (unitEngine e)) = .ok (s2, row) →
            exec (.codecHandoffResume e) s = .next (s2.modEngine e fun y => nextRow y.last y))
        ∧ (engineState x = 1 → exec (.engineCommandEnd e 1) s = .next (resetEngine e 1 s)
            ∧ ∀ s1 bs, getStream e cmd s = .ok (s1, bs) → let ok := accepts e (Config.streamInfo cmd bs)
                exec (.engineCommandEnd e 0) s = .next (endCommand e (if ok then 0 else 2) s1)
                ∧ exec (.engineCommandEnd e 2) s = .next (if ok then s else endCommand e 2 s1)))
    ∧ (engineState x = 2 → bits x.ctl.toNat 31 16 ≠ 0 → exec (.engineTimeout e) s = .next (resetEngine e 4 s))) ∧
  ((∀ off bytes (s : State), s.module.bootFailed = false → off + bytes.length ≤ Config.hbm →
    (exec (.hostBar2Access off true bytes) s = .next (noteTails off bytes.length (homePut (Tag.own 0) off bytes s))
      ∧ exec (.hostBar2Access off false bytes) s = .next (homeRead off bytes.length s).1)
    ∧ (s.featOn 5 = true →
      let t := (List.range ((off + bytes.length + 15) / 16 - off / 16)).foldl (fun s i => s.remoteScope (off / 16 * 16 + 16 * i)) s
      exec (.peerAccess off true bytes) s = .next (homePut (Tag.own 0) off bytes t)
      ∧ exec (.peerAccess off false bytes) s = .next (homeRead off bytes.length t).1)) ∧
  (∀ off bytes (s : State), 2 ^ 48 ≤ off → off + bytes.length ≤ 2 ^ 49 → exec (.hostBar2Access off true bytes) s = .next (s.setBytes off bytes)) ∧
  (∀ off bytes (s : State), 2 ^ 49 ≤ off → off + bytes.length ≤ 3 * 2 ^ 48 → exec (.peerAccess off true bytes) s = .next (s.setBytes off bytes)) ∧
  (∀ m (s : State), m < 256 → exec (.peerUnreachable m) s = .next
    (if Config.peer m then s.modModule fun x => { x with peers := Map.ins m true x.peers } else s)) ∧
  (∀ off v (s : State), off % 8 = 0 → off < 2 ^ 32 → exec (.registerWrite off v) s = .next (s.regStore off v)) ∧
  (∀ c (s : State), ctxOk c s = true → ∃ t, exec (.contextCreation c) s = .next t ∧ Map.find c.ctx t.ctxs = some (newCtx c (s.arena c.crown.toNat).gen)
    ∧ (t.arena c.crown.toNat).state = 1 ∧ (t.arena c.crown.toNat).crown = true ∧ (t.arena c.crown.toNat).owner = c.ctx
    ∧ (t.arena c.crown.toNat).quota = c.crownQuota.toNat ∧ (t.arena c.crown.toNat).charge = 0) ∧
  (∀ c (s : State), changeOk c s = true → exec (.contextCreation c) s = .next (changeCtx c s)) ∧
  (∀ c (s : State), hasCtx c s = true → ∃ t, exec (.contextEnd c) s = .next t ∧ hasCtx c t = false ∧ (∀ x ∈ t.tasks, x.ctx ≠ c)
    ∧ (∀ k x, Map.find k t.studios = some x → x.owner ≠ some c)))

/-! ### Encoding -/

/-- R65-R71: words written out from the encodings decode to the instructions they stand for (bits 95 to 64, 63 to 32, 31 to 0). -/
def Obligations.WordsDecodeAsEncoded : Prop :=
  decode 0x01001006_00401000_00000000 = .ok (.add ⟨⟨0, false⟩, 0, .i32, .v 3, .v 1 false, .v 2 false, .v 0 false, 0⟩)
  ∧ decode 0x16011000_00401000_00002000 = .ok (.cmp ⟨⟨0, false⟩, 2, .i32, .v 0, .v 1 false, .v 2 false, .v 0 false, 0x2000⟩)
  ∧ decode 0xD0000000_00000000_00000011 = .ok (.br ⟨⟨0, false⟩, 0, .v 0, .v 0 false, 0, 0, 2, 1⟩)
  ∧ decode 0xC300300A_84800000_00000000 = .ok (.qpop ⟨⟨0, false⟩, 0, .n32, .v 5, .q 2, .v 0 false, .v 0 false, 0⟩)
  ∧ decode 0xA4000000_1C000800_00000000 = .ok (.barexp ⟨⟨0, false⟩, 0, .v 0, 7, .v 0 false, 1, 0, 0, 0, 0⟩)

/-- R65-R71: every well-formed instruction, with every operand at every value its encoding admits, decodes from its own word. -/
def Obligations.EncodedInstructionsDecodeToThemselves : Prop :=  ∀ i : Instr, i.WellFormed → decode (encode i) = .ok i

/-- R65-R71: decoding drops no bit: a word that decodes is the word of the instruction it decodes to, which is well formed. -/
def Obligations.DecodedWordsAreTheirInstructionsWords : Prop :=
  ∀ n i, n < 2 ^ 96 → decode n = .ok i → i.WellFormed ∧ encode i = n

/-- R77: a word whose major opcode is reserved raises ILLEGAL_OP, whatever its other bits. -/
def Obligations.ReservedMajorsAreIllegal : Prop :=
  ∀ n, n < 2 ^ 96 → familyOf (bits n 95 88) = none → decode n = .error .illegalOp

/-! ### Steps -/

/-- R31, R35, R74: a step that issues fetches the line at the run's PC, decodes the slot and runs the instruction it stands for; a word
that names no instruction, or one of a feature not accepted, raises ILLEGAL_OP and one whose fields are not accepted ILLEGAL_FIELD. An
event that the agenda names happens; an issue of a slot with no run in flight changes nothing (log 3). -/
def Obligations.StepRunsTheDecodedInstruction : Prop :=
  (∀ (s : State) k slot rest r, s.agenda = .issue k slot :: rest → ({ s with agenda := rest } : State).issuing k slot = some r →
    let s0 : State := { s with agenda := rest, cur := r }
    s0.crun.unknown ≠ some s0.crun.pc →
    (∀ s1 ln, s0.fetchSlot (s0.whoOf s0.cur.cell) s0.crun.pc = .ok (s1, ln) → let j := pcSlot s0.crun.pc
      let accepted := s1.featOk (bits (slotWord ln j) 95 88)
      (∀ i, decode (slotWord ln j) = .ok i → accepted = true → s1.scopeFeatOk i = true → (needsEnd i = true → lineRunEnd ln j = true) →
        pairOk ln j i = true →
        let t := s1.modRun fun u => { u with last := lineRunEnd ln j, held := false, counted := true }
        step s = exec i (if s1.crun.counted then t else t.perf t.ck t.cc.ctx 3))
      ∧ (accepted = false ∨ decode (slotWord ln j) = .error .illegalOp → step s = .next (s0.raise { code := fIllegalOp }))
      ∧ (accepted = true → decode (slotWord ln j) = .error .illegalField → step s = .next (s0.raise { code := fIllegalField })))
    ∧ (∀ x, s0.fetchSlot (s0.whoOf s0.cur.cell) s0.crun.pc = .error x → step s = .next (s0.raise x))) ∧
  (∀ (s : State) k slot rest, s.agenda = .issue k slot :: rest → ({ s with agenda := rest } : State).issuing k slot = none →
    step s = .next { s with agenda := rest }) ∧
  (∀ (s : State) e rest, s.agenda = .event e :: rest → e.raw = none → step s = exec e { s with agenda := rest })

/-- Every fault of the spec is delivered to a handler or ends its task (R4, R386, R428), so every step of the module, from every state,
answers a next state: nothing a program or a command does stops the machine. -/
def Obligations.EveryStepAnswersANextState : Prop :=  ∀ s : State, ∃ t, step s = .next t

/-- Memory keeps its canonical form (addresses rising, no byte listed that reads as an unlisted one does) through every step. The form
is the model's own (log 1). -/
def Obligations.EveryStepKeepsMemoryCanonical : Prop :=  ∀ s t : State, Safe s → step s = .next t → Safe t

/-- R37, R39, R74: before any effect, whatever its guard, an instruction that names a v register beyond the cell's budget raises
BUDGET. -/
def Obligations.OverBudgetRegistersRaiseBudget : Prop :=
  ∀ (i : Instr) (s : State), i.raw ≠ none → 8 * s.cc.budget < vTop (usesOf i) → exec i s = .next (s.raise { code := fBudget })

/-- R24, R153, R375, R456, R459: after reset no context, task or cell exists, memory lists nothing, every arena is free, no feature is
accepted, no kick is pending, every unit is in service, and memory is canonical. That an unlisted byte of host or peer memory reads as 0
like one of HBM is the model's choice (log 1). -/
def Obligations.ResetLeaves : Prop :=
  Safe State.reset ∧ State.reset.mem = [] ∧ State.reset.ctxs = [] ∧ State.reset.tasks = [] ∧ State.reset.cells = [] ∧ State.reset.l2 = []
  ∧ (∀ a, (State.reset.arena a).state = 0) ∧ (∀ v, v ≠ 0 → (State.reset.view v).state = 0)
  ∧ State.reset.module.featAccept = 0 ∧ State.reset.module.featLocked = false ∧ State.reset.module.kick = [] ∧ State.reset.module.meas = []
  ∧ State.reset.module.powerNow = 0 ∧ (∀ k < 192, (State.reset.studio k).tlb = [] ∧ (State.reset.studio k).l1 = [] ∧ (State.reset.studio k).clk = 0)
  ∧ (∀ pa, State.reset.memByte pa = 0) ∧ (∀ u, State.reset.inService u = true)

/-! ### System registers -/

/-- R146, R205: `mfsys` completes whatever register it names: its g destination takes the register's word with an active lane, and
nothing is written with none. `mtsys` completes with no active lane, and where it may write its register: TRAPPC in handler mode,
RNDKEY always. -/
def Obligations.SystemRegisterInstructionsComplete : Prop :=
  (∀ (o : SOp) s s1, Issues (.mfsys o) s s1 → exec (.mfsys o) s = .next (goesOn (.mfsys o)
    (if s1.active o.gd = [] then s1 else s1.writeG o.dest (sysRead o.gd o.sysreg.toNat o.imm.toNat s1)))) ∧
  (∀ (o : SOp) s s1, Issues (.mtsys o) s s1 → (s1.active o.gd = [] ∨ o.sysreg = 0x400 ∨ (o.sysreg = 0x002 ∧ s1.cg.handler = true)) →
    exec (.mtsys o) s = .next (goesOn (.mtsys o)
      (if s1.active o.gd = [] then s1
       else if o.sysreg = 0x002 then s1.modCg fun g => { g with trappc := s1.gsrc o.a }
       else (distinct ((s1.active o.gd).map fun p => s1.clOf p / 32)).foldl
         (fun t i => t.modGroup ⟨t.cur.cell, i⟩ fun g => { g with rndkey := s1.gsrc o.a }) s1)))
end

