-- ==== Sys2Proof/Laws/Maps.lean ====
section
/-! SUPPORT. Reading a table after writing it, and the canonical form kept by every table operation. -/
namespace Sys2Proof.Machine

variable {α : Type}

@[simp] theorem Map.find_nil (k : Nat) : Map.find k ([] : Map α) = none := rfl
@[simp] theorem Map.find_ins_same (k : Nat) (v : α) (m : Map α) : Map.find k (Map.ins k v m) = some v := by
  induction m with
  | nil => simp [Map.ins, Map.find]
  | cons e r ih =>
    obtain ⟨k', v'⟩ := e
    simp only [Map.ins]
    split
    · simp [Map.find]
    · split
      · simp [Map.find]
      · simp [Map.find, *]
theorem Map.find_ins_ne {j k : Nat} (h : j ≠ k) (v : α) (m : Map α) : Map.find j (Map.ins k v m) = Map.find j m := by
  induction m with
  | nil => simp [Map.ins, Map.find, Ne.symm h]
  | cons e r ih =>
    obtain ⟨k', v'⟩ := e
    simp only [Map.ins]
    split
    · subst_vars; simp [Map.find, Ne.symm h]
    · split
      · simp [Map.find, Ne.symm h]
      · simp [Map.find, ih]
theorem Map.find_ins (j k : Nat) (v : α) (m : Map α) :
    Map.find j (Map.ins k v m) = if j = k then some v else Map.find j m := by
  by_cases h : j = k
  · subst h; simp
  · simp [h, Map.find_ins_ne h]
@[simp] theorem Map.find_del_same (k : Nat) (m : Map α) : Map.find k (Map.del k m) = none := by
  induction m with
  | nil => rfl
  | cons e r ih =>
    obtain ⟨k', v'⟩ := e
    simp only [Map.del]
    split
    · exact ih
    · simp [Map.find, *]
theorem Map.find_del_ne {j k : Nat} (h : j ≠ k) (m : Map α) : Map.find j (Map.del k m) = Map.find j m := by
  induction m with
  | nil => rfl
  | cons e r ih =>
    obtain ⟨k', v'⟩ := e
    simp only [Map.del]
    split
    · subst_vars; simp [Map.find, Ne.symm h, ih]
    · simp [Map.find, ih]
@[simp] theorem Map.getD_ins_same (k : Nat) (v d : α) (m : Map α) : Map.getD (Map.ins k v m) k d = v := by
  simp [Map.getD]
theorem Map.getD_ins_ne {j k : Nat} (h : j ≠ k) (v d : α) (m : Map α) : Map.getD (Map.ins k v m) j d = Map.getD m j d := by
  simp [Map.getD, Map.find_ins_ne h]
@[simp] theorem Map.getD_put_same [DecidableEq α] (k : Nat) (v d : α) (m : Map α) : Map.getD (Map.put d k v m) k d = v := by
  unfold Map.put
  split
  · simp [Map.getD, *]
  · simp
theorem Map.getD_put_ne [DecidableEq α] {j k : Nat} (h : j ≠ k) (v d : α) (m : Map α) :
    Map.getD (Map.put d k v m) j d = Map.getD m j d := by
  unfold Map.put
  split
  · simp [Map.getD, Map.find_del_ne h]
  · exact Map.getD_ins_ne h v d m
/-- A table read after a write: the value written, or what stood there. -/
theorem Map.getD_put [DecidableEq α] (j k : Nat) (v d : α) (m : Map α) :
    Map.getD (Map.put d k v m) j d = if j = k then v else Map.getD m j d := by
  by_cases h : j = k
  · subst h; simp
  · simp [h, Map.getD_put_ne h]
theorem Map.find_upd (j k : Nat) (f : α → α) (m : Map α) :
    Map.find j (Map.upd k f m) = if j = k then (Map.find k m).map f else Map.find j m := by
  unfold Map.upd
  by_cases h : j = k
  · subst h
    cases hf : Map.find j m with
    | none => simp [hf]
    | some v => simp
  · cases hf : Map.find k m with
    | none => simp [h]
    | some v => simp [h, Map.find_ins_ne h]

/-! ### The canonical form -/

/-- Every key of a table is above `k`. -/
def Map.above (k : Nat) (m : Map α) : Prop := ∀ e ∈ m, k < e.1

theorem Map.rising_cons (e : Nat × α) (m : Map α) : Map.rising (e :: m) = true ↔ Map.above e.1 m ∧ Map.rising m = true := by
  induction m generalizing e with
  | nil => simp [Map.rising, Map.above]
  | cons e' r ih =>
    rw [Map.rising]
    simp only [Bool.and_eq_true, decide_eq_true_eq]
    constructor
    · rintro ⟨h, hr⟩
      refine ⟨?_, hr⟩
      intro x hx
      rcases List.mem_cons.mp hx with rfl | hx
      · exact h
      · exact Nat.lt_trans h ((ih e').mp hr |>.1 x hx)
    · rintro ⟨h, hr⟩
      exact ⟨h e' (by simp), hr⟩
theorem Map.mem_ins {k : Nat} {v : α} {m : Map α} {x : Nat × α} (h : x ∈ Map.ins k v m) : x = (k, v) ∨ x ∈ m := by
  induction m with
  | nil => simpa [Map.ins] using h
  | cons e r ih =>
    obtain ⟨k', v'⟩ := e
    simp only [Map.ins] at h
    split at h
    · rcases List.mem_cons.mp h with h | h
      · exact .inl h
      · exact .inr (by simp [h])
    · split at h
      · rcases List.mem_cons.mp h with h | h
        · exact .inl h
        · exact .inr h
      · rcases List.mem_cons.mp h with h | h
        · exact .inr (by simp [h])
        · rcases ih h with h | h
          · exact .inl h
          · exact .inr (by simp [h])
theorem Map.mem_del {k : Nat} {m : Map α} {x : Nat × α} (h : x ∈ Map.del k m) : x ∈ m := by
  induction m with
  | nil => simp [Map.del] at h
  | cons e r ih =>
    obtain ⟨k', v'⟩ := e
    simp only [Map.del] at h
    split at h
    · exact List.mem_cons_of_mem _ (ih h)
    · rcases List.mem_cons.mp h with h | h
      · simp [h]
      · exact List.mem_cons_of_mem _ (ih h)
theorem Map.rising_ins (k : Nat) (v : α) {m : Map α} (h : Map.rising m = true) : Map.rising (Map.ins k v m) = true := by
  induction m with
  | nil => rfl
  | cons e r ih =>
    obtain ⟨k', v'⟩ := e
    obtain ⟨ha, hr⟩ := (Map.rising_cons _ _).mp h
    simp only [Map.ins]
    split
    · rename_i he; subst he; exact (Map.rising_cons _ _).mpr ⟨ha, hr⟩
    · split
      · rename_i hlt
        refine (Map.rising_cons _ _).mpr ⟨?_, h⟩
        intro x hx
        rcases List.mem_cons.mp hx with rfl | hx
        · exact hlt
        · exact Nat.lt_trans hlt (ha x hx)
      · rename_i hne hlt
        refine (Map.rising_cons _ _).mpr ⟨?_, ih hr⟩
        intro x hx
        rcases Map.mem_ins hx with rfl | hx
        · simp only; omega
        · exact ha x hx
theorem Map.rising_del (k : Nat) {m : Map α} (h : Map.rising m = true) : Map.rising (Map.del k m) = true := by
  induction m with
  | nil => rfl
  | cons e r ih =>
    obtain ⟨k', v'⟩ := e
    obtain ⟨ha, hr⟩ := (Map.rising_cons _ _).mp h
    simp only [Map.del]
    split
    · exact ih hr
    · exact (Map.rising_cons _ _).mpr ⟨fun x hx => ha x (Map.mem_del hx), ih hr⟩
theorem Map.rising_filter (p : Nat × α → Bool) {m : Map α} (h : Map.rising m = true) : Map.rising (m.filter p) = true := by
  induction m with
  | nil => rfl
  | cons e r ih =>
    obtain ⟨ha, hr⟩ := (Map.rising_cons _ _).mp h
    rw [List.filter_cons]
    split
    · exact (Map.rising_cons _ _).mpr ⟨fun x hx => ha x (List.mem_filter.mp hx).1, ih hr⟩
    · exact ih hr

/-- The first free number within bounds, when there is one: in range, not used, and every lower number in use. -/
theorem firstFree_some {used : Nat → Bool} {n lo k : Nat} (h : firstFree used lo n = some k) :
    lo ≤ k ∧ k < lo + n ∧ used k = false ∧ ∀ j, lo ≤ j → j < k → used j = true := by
  induction n generalizing lo with
  | zero => simp [firstFree] at h
  | succ n ih =>
    simp only [firstFree] at h
    split at h
    · rename_i hu
      obtain ⟨h1, h2, h3, h4⟩ := ih h
      refine ⟨by omega, by omega, h3, fun j hj hk => ?_⟩
      by_cases hjl : j = lo
      · subst hjl; exact hu
      · exact h4 j (by omega) hk
    · rename_i hu
      obtain rfl : lo = k := by simpa using h
      exact ⟨by omega, by omega, by simpa using hu, fun j hj hk => by omega⟩

end Sys2Proof.Machine
end

