-- ==== Sys2Proof/Laws/State.lean ====
section
/-! SUPPORT. What each elementary update of the state leaves alone, one lemma per field and update, and what it writes read
back through the accessors. -/
namespace Sys2Proof.Machine.State

/-! ### setCell -/

@[simp] theorem setCell_mem (s : State) (c : Nat) (v : Cell) : (s.setCell c v).mem = s.mem := rfl
@[simp] theorem setCell_poison (s : State) (c : Nat) (v : Cell) : (s.setCell c v).poison = s.poison := rfl
@[simp] theorem setCell_l2 (s : State) (c : Nat) (v : Cell) : (s.setCell c v).l2 = s.l2 := rfl
@[simp] theorem setCell_replicas (s : State) (c : Nat) (v : Cell) : (s.setCell c v).replicas = s.replicas := rfl
@[simp] theorem setCell_frames (s : State) (c : Nat) (v : Cell) : (s.setCell c v).frames = s.frames := rfl
@[simp] theorem setCell_studios (s : State) (c : Nat) (v : Cell) : (s.setCell c v).studios = s.studios := rfl
@[simp] theorem setCell_dieTlb (s : State) (c : Nat) (v : Cell) : (s.setCell c v).dieTlb = s.dieTlb := rfl
@[simp] theorem setCell_svs (s : State) (c : Nat) (v : Cell) : (s.setCell c v).svs = s.svs := rfl
@[simp] theorem setCell_units (s : State) (c : Nat) (v : Cell) : (s.setCell c v).units = s.units := rfl
@[simp] theorem setCell_arenas (s : State) (c : Nat) (v : Cell) : (s.setCell c v).arenas = s.arenas := rfl
@[simp] theorem setCell_pages (s : State) (c : Nat) (v : Cell) : (s.setCell c v).pages = s.pages := rfl
@[simp] theorem setCell_sweeps (s : State) (c : Nat) (v : Cell) : (s.setCell c v).sweeps = s.sweeps := rfl
@[simp] theorem setCell_sealbs (s : State) (c : Nat) (v : Cell) : (s.setCell c v).sealbs = s.sealbs := rfl
@[simp] theorem setCell_shoots (s : State) (c : Nat) (v : Cell) : (s.setCell c v).shoots = s.shoots := rfl
@[simp] theorem setCell_views (s : State) (c : Nat) (v : Cell) : (s.setCell c v).views = s.views := rfl
@[simp] theorem setCell_ctxs (s : State) (c : Nat) (v : Cell) : (s.setCell c v).ctxs = s.ctxs := rfl
@[simp] theorem setCell_tasks (s : State) (c : Nat) (v : Cell) : (s.setCell c v).tasks = s.tasks := rfl
@[simp] theorem setCell_gesso (s : State) (c : Nat) (v : Cell) : (s.setCell c v).gesso = s.gesso := rfl
@[simp] theorem setCell_ckpts (s : State) (c : Nat) (v : Cell) : (s.setCell c v).ckpts = s.ckpts := rfl
@[simp] theorem setCell_rounds (s : State) (c : Nat) (v : Cell) : (s.setCell c v).rounds = s.rounds := rfl
@[simp] theorem setCell_packets (s : State) (c : Nat) (v : Cell) : (s.setCell c v).packets = s.packets := rfl
@[simp] theorem setCell_routers (s : State) (c : Nat) (v : Cell) : (s.setCell c v).routers = s.routers := rfl
@[simp] theorem setCell_landed (s : State) (c : Nat) (v : Cell) : (s.setCell c v).landed = s.landed := rfl
@[simp] theorem setCell_held (s : State) (c : Nat) (v : Cell) : (s.setCell c v).held = s.held := rfl
@[simp] theorem setCell_ctlLog (s : State) (c : Nat) (v : Cell) : (s.setCell c v).ctlLog = s.ctlLog := rfl
@[simp] theorem setCell_module (s : State) (c : Nat) (v : Cell) : (s.setCell c v).module = s.module := rfl
@[simp] theorem setCell_agenda (s : State) (c : Nat) (v : Cell) : (s.setCell c v).agenda = s.agenda := rfl
@[simp] theorem setCell_cur (s : State) (c : Nat) (v : Cell) : (s.setCell c v).cur = s.cur := rfl
@[simp] theorem setCell_fresh (s : State) (c : Nat) (v : Cell) : (s.setCell c v).fresh = s.fresh := rfl

/-! ### modCell -/

@[simp] theorem modCell_mem (s : State) (c : Nat) (f : Cell → Cell) : (s.modCell c f).mem = s.mem := rfl
@[simp] theorem modCell_poison (s : State) (c : Nat) (f : Cell → Cell) : (s.modCell c f).poison = s.poison := rfl
@[simp] theorem modCell_l2 (s : State) (c : Nat) (f : Cell → Cell) : (s.modCell c f).l2 = s.l2 := rfl
@[simp] theorem modCell_replicas (s : State) (c : Nat) (f : Cell → Cell) : (s.modCell c f).replicas = s.replicas := rfl
@[simp] theorem modCell_frames (s : State) (c : Nat) (f : Cell → Cell) : (s.modCell c f).frames = s.frames := rfl
@[simp] theorem modCell_studios (s : State) (c : Nat) (f : Cell → Cell) : (s.modCell c f).studios = s.studios := rfl
@[simp] theorem modCell_dieTlb (s : State) (c : Nat) (f : Cell → Cell) : (s.modCell c f).dieTlb = s.dieTlb := rfl
@[simp] theorem modCell_svs (s : State) (c : Nat) (f : Cell → Cell) : (s.modCell c f).svs = s.svs := rfl
@[simp] theorem modCell_units (s : State) (c : Nat) (f : Cell → Cell) : (s.modCell c f).units = s.units := rfl
@[simp] theorem modCell_arenas (s : State) (c : Nat) (f : Cell → Cell) : (s.modCell c f).arenas = s.arenas := rfl
@[simp] theorem modCell_pages (s : State) (c : Nat) (f : Cell → Cell) : (s.modCell c f).pages = s.pages := rfl
@[simp] theorem modCell_sweeps (s : State) (c : Nat) (f : Cell → Cell) : (s.modCell c f).sweeps = s.sweeps := rfl
@[simp] theorem modCell_sealbs (s : State) (c : Nat) (f : Cell → Cell) : (s.modCell c f).sealbs = s.sealbs := rfl
@[simp] theorem modCell_shoots (s : State) (c : Nat) (f : Cell → Cell) : (s.modCell c f).shoots = s.shoots := rfl
@[simp] theorem modCell_views (s : State) (c : Nat) (f : Cell → Cell) : (s.modCell c f).views = s.views := rfl
@[simp] theorem modCell_ctxs (s : State) (c : Nat) (f : Cell → Cell) : (s.modCell c f).ctxs = s.ctxs := rfl
@[simp] theorem modCell_tasks (s : State) (c : Nat) (f : Cell → Cell) : (s.modCell c f).tasks = s.tasks := rfl
@[simp] theorem modCell_gesso (s : State) (c : Nat) (f : Cell → Cell) : (s.modCell c f).gesso = s.gesso := rfl
@[simp] theorem modCell_ckpts (s : State) (c : Nat) (f : Cell → Cell) : (s.modCell c f).ckpts = s.ckpts := rfl
@[simp] theorem modCell_rounds (s : State) (c : Nat) (f : Cell → Cell) : (s.modCell c f).rounds = s.rounds := rfl
@[simp] theorem modCell_packets (s : State) (c : Nat) (f : Cell → Cell) : (s.modCell c f).packets = s.packets := rfl
@[simp] theorem modCell_routers (s : State) (c : Nat) (f : Cell → Cell) : (s.modCell c f).routers = s.routers := rfl
@[simp] theorem modCell_landed (s : State) (c : Nat) (f : Cell → Cell) : (s.modCell c f).landed = s.landed := rfl
@[simp] theorem modCell_held (s : State) (c : Nat) (f : Cell → Cell) : (s.modCell c f).held = s.held := rfl
@[simp] theorem modCell_ctlLog (s : State) (c : Nat) (f : Cell → Cell) : (s.modCell c f).ctlLog = s.ctlLog := rfl
@[simp] theorem modCell_module (s : State) (c : Nat) (f : Cell → Cell) : (s.modCell c f).module = s.module := rfl
@[simp] theorem modCell_agenda (s : State) (c : Nat) (f : Cell → Cell) : (s.modCell c f).agenda = s.agenda := rfl
@[simp] theorem modCell_cur (s : State) (c : Nat) (f : Cell → Cell) : (s.modCell c f).cur = s.cur := rfl
@[simp] theorem modCell_fresh (s : State) (c : Nat) (f : Cell → Cell) : (s.modCell c f).fresh = s.fresh := rfl

/-! ### setGroup -/

@[simp] theorem setGroup_mem (s : State) (r : GRef) (v : Group) : (s.setGroup r v).mem = s.mem := rfl
@[simp] theorem setGroup_poison (s : State) (r : GRef) (v : Group) : (s.setGroup r v).poison = s.poison := rfl
@[simp] theorem setGroup_l2 (s : State) (r : GRef) (v : Group) : (s.setGroup r v).l2 = s.l2 := rfl
@[simp] theorem setGroup_replicas (s : State) (r : GRef) (v : Group) : (s.setGroup r v).replicas = s.replicas := rfl
@[simp] theorem setGroup_frames (s : State) (r : GRef) (v : Group) : (s.setGroup r v).frames = s.frames := rfl
@[simp] theorem setGroup_studios (s : State) (r : GRef) (v : Group) : (s.setGroup r v).studios = s.studios := rfl
@[simp] theorem setGroup_dieTlb (s : State) (r : GRef) (v : Group) : (s.setGroup r v).dieTlb = s.dieTlb := rfl
@[simp] theorem setGroup_svs (s : State) (r : GRef) (v : Group) : (s.setGroup r v).svs = s.svs := rfl
@[simp] theorem setGroup_units (s : State) (r : GRef) (v : Group) : (s.setGroup r v).units = s.units := rfl
@[simp] theorem setGroup_arenas (s : State) (r : GRef) (v : Group) : (s.setGroup r v).arenas = s.arenas := rfl
@[simp] theorem setGroup_pages (s : State) (r : GRef) (v : Group) : (s.setGroup r v).pages = s.pages := rfl
@[simp] theorem setGroup_sweeps (s : State) (r : GRef) (v : Group) : (s.setGroup r v).sweeps = s.sweeps := rfl
@[simp] theorem setGroup_sealbs (s : State) (r : GRef) (v : Group) : (s.setGroup r v).sealbs = s.sealbs := rfl
@[simp] theorem setGroup_shoots (s : State) (r : GRef) (v : Group) : (s.setGroup r v).shoots = s.shoots := rfl
@[simp] theorem setGroup_views (s : State) (r : GRef) (v : Group) : (s.setGroup r v).views = s.views := rfl
@[simp] theorem setGroup_ctxs (s : State) (r : GRef) (v : Group) : (s.setGroup r v).ctxs = s.ctxs := rfl
@[simp] theorem setGroup_tasks (s : State) (r : GRef) (v : Group) : (s.setGroup r v).tasks = s.tasks := rfl
@[simp] theorem setGroup_gesso (s : State) (r : GRef) (v : Group) : (s.setGroup r v).gesso = s.gesso := rfl
@[simp] theorem setGroup_ckpts (s : State) (r : GRef) (v : Group) : (s.setGroup r v).ckpts = s.ckpts := rfl
@[simp] theorem setGroup_rounds (s : State) (r : GRef) (v : Group) : (s.setGroup r v).rounds = s.rounds := rfl
@[simp] theorem setGroup_packets (s : State) (r : GRef) (v : Group) : (s.setGroup r v).packets = s.packets := rfl
@[simp] theorem setGroup_routers (s : State) (r : GRef) (v : Group) : (s.setGroup r v).routers = s.routers := rfl
@[simp] theorem setGroup_landed (s : State) (r : GRef) (v : Group) : (s.setGroup r v).landed = s.landed := rfl
@[simp] theorem setGroup_held (s : State) (r : GRef) (v : Group) : (s.setGroup r v).held = s.held := rfl
@[simp] theorem setGroup_ctlLog (s : State) (r : GRef) (v : Group) : (s.setGroup r v).ctlLog = s.ctlLog := rfl
@[simp] theorem setGroup_module (s : State) (r : GRef) (v : Group) : (s.setGroup r v).module = s.module := rfl
@[simp] theorem setGroup_agenda (s : State) (r : GRef) (v : Group) : (s.setGroup r v).agenda = s.agenda := rfl
@[simp] theorem setGroup_cur (s : State) (r : GRef) (v : Group) : (s.setGroup r v).cur = s.cur := rfl
@[simp] theorem setGroup_fresh (s : State) (r : GRef) (v : Group) : (s.setGroup r v).fresh = s.fresh := rfl

/-! ### modGroup -/

@[simp] theorem modGroup_mem (s : State) (r : GRef) (f : Group → Group) : (s.modGroup r f).mem = s.mem := rfl
@[simp] theorem modGroup_poison (s : State) (r : GRef) (f : Group → Group) : (s.modGroup r f).poison = s.poison := rfl
@[simp] theorem modGroup_l2 (s : State) (r : GRef) (f : Group → Group) : (s.modGroup r f).l2 = s.l2 := rfl
@[simp] theorem modGroup_replicas (s : State) (r : GRef) (f : Group → Group) : (s.modGroup r f).replicas = s.replicas := rfl
@[simp] theorem modGroup_frames (s : State) (r : GRef) (f : Group → Group) : (s.modGroup r f).frames = s.frames := rfl
@[simp] theorem modGroup_studios (s : State) (r : GRef) (f : Group → Group) : (s.modGroup r f).studios = s.studios := rfl
@[simp] theorem modGroup_dieTlb (s : State) (r : GRef) (f : Group → Group) : (s.modGroup r f).dieTlb = s.dieTlb := rfl
@[simp] theorem modGroup_svs (s : State) (r : GRef) (f : Group → Group) : (s.modGroup r f).svs = s.svs := rfl
@[simp] theorem modGroup_units (s : State) (r : GRef) (f : Group → Group) : (s.modGroup r f).units = s.units := rfl
@[simp] theorem modGroup_arenas (s : State) (r : GRef) (f : Group → Group) : (s.modGroup r f).arenas = s.arenas := rfl
@[simp] theorem modGroup_pages (s : State) (r : GRef) (f : Group → Group) : (s.modGroup r f).pages = s.pages := rfl
@[simp] theorem modGroup_sweeps (s : State) (r : GRef) (f : Group → Group) : (s.modGroup r f).sweeps = s.sweeps := rfl
@[simp] theorem modGroup_sealbs (s : State) (r : GRef) (f : Group → Group) : (s.modGroup r f).sealbs = s.sealbs := rfl
@[simp] theorem modGroup_shoots (s : State) (r : GRef) (f : Group → Group) : (s.modGroup r f).shoots = s.shoots := rfl
@[simp] theorem modGroup_views (s : State) (r : GRef) (f : Group → Group) : (s.modGroup r f).views = s.views := rfl
@[simp] theorem modGroup_ctxs (s : State) (r : GRef) (f : Group → Group) : (s.modGroup r f).ctxs = s.ctxs := rfl
@[simp] theorem modGroup_tasks (s : State) (r : GRef) (f : Group → Group) : (s.modGroup r f).tasks = s.tasks := rfl
@[simp] theorem modGroup_gesso (s : State) (r : GRef) (f : Group → Group) : (s.modGroup r f).gesso = s.gesso := rfl
@[simp] theorem modGroup_ckpts (s : State) (r : GRef) (f : Group → Group) : (s.modGroup r f).ckpts = s.ckpts := rfl
@[simp] theorem modGroup_rounds (s : State) (r : GRef) (f : Group → Group) : (s.modGroup r f).rounds = s.rounds := rfl
@[simp] theorem modGroup_packets (s : State) (r : GRef) (f : Group → Group) : (s.modGroup r f).packets = s.packets := rfl
@[simp] theorem modGroup_routers (s : State) (r : GRef) (f : Group → Group) : (s.modGroup r f).routers = s.routers := rfl
@[simp] theorem modGroup_landed (s : State) (r : GRef) (f : Group → Group) : (s.modGroup r f).landed = s.landed := rfl
@[simp] theorem modGroup_held (s : State) (r : GRef) (f : Group → Group) : (s.modGroup r f).held = s.held := rfl
@[simp] theorem modGroup_ctlLog (s : State) (r : GRef) (f : Group → Group) : (s.modGroup r f).ctlLog = s.ctlLog := rfl
@[simp] theorem modGroup_module (s : State) (r : GRef) (f : Group → Group) : (s.modGroup r f).module = s.module := rfl
@[simp] theorem modGroup_agenda (s : State) (r : GRef) (f : Group → Group) : (s.modGroup r f).agenda = s.agenda := rfl
@[simp] theorem modGroup_cur (s : State) (r : GRef) (f : Group → Group) : (s.modGroup r f).cur = s.cur := rfl
@[simp] theorem modGroup_fresh (s : State) (r : GRef) (f : Group → Group) : (s.modGroup r f).fresh = s.fresh := rfl

/-! ### modCg -/

@[simp] theorem modCg_mem (s : State) (f : Group → Group) : (s.modCg f).mem = s.mem := rfl
@[simp] theorem modCg_poison (s : State) (f : Group → Group) : (s.modCg f).poison = s.poison := rfl
@[simp] theorem modCg_l2 (s : State) (f : Group → Group) : (s.modCg f).l2 = s.l2 := rfl
@[simp] theorem modCg_replicas (s : State) (f : Group → Group) : (s.modCg f).replicas = s.replicas := rfl
@[simp] theorem modCg_frames (s : State) (f : Group → Group) : (s.modCg f).frames = s.frames := rfl
@[simp] theorem modCg_studios (s : State) (f : Group → Group) : (s.modCg f).studios = s.studios := rfl
@[simp] theorem modCg_dieTlb (s : State) (f : Group → Group) : (s.modCg f).dieTlb = s.dieTlb := rfl
@[simp] theorem modCg_svs (s : State) (f : Group → Group) : (s.modCg f).svs = s.svs := rfl
@[simp] theorem modCg_units (s : State) (f : Group → Group) : (s.modCg f).units = s.units := rfl
@[simp] theorem modCg_arenas (s : State) (f : Group → Group) : (s.modCg f).arenas = s.arenas := rfl
@[simp] theorem modCg_pages (s : State) (f : Group → Group) : (s.modCg f).pages = s.pages := rfl
@[simp] theorem modCg_sweeps (s : State) (f : Group → Group) : (s.modCg f).sweeps = s.sweeps := rfl
@[simp] theorem modCg_sealbs (s : State) (f : Group → Group) : (s.modCg f).sealbs = s.sealbs := rfl
@[simp] theorem modCg_shoots (s : State) (f : Group → Group) : (s.modCg f).shoots = s.shoots := rfl
@[simp] theorem modCg_views (s : State) (f : Group → Group) : (s.modCg f).views = s.views := rfl
@[simp] theorem modCg_ctxs (s : State) (f : Group → Group) : (s.modCg f).ctxs = s.ctxs := rfl
@[simp] theorem modCg_tasks (s : State) (f : Group → Group) : (s.modCg f).tasks = s.tasks := rfl
@[simp] theorem modCg_gesso (s : State) (f : Group → Group) : (s.modCg f).gesso = s.gesso := rfl
@[simp] theorem modCg_ckpts (s : State) (f : Group → Group) : (s.modCg f).ckpts = s.ckpts := rfl
@[simp] theorem modCg_rounds (s : State) (f : Group → Group) : (s.modCg f).rounds = s.rounds := rfl
@[simp] theorem modCg_packets (s : State) (f : Group → Group) : (s.modCg f).packets = s.packets := rfl
@[simp] theorem modCg_routers (s : State) (f : Group → Group) : (s.modCg f).routers = s.routers := rfl
@[simp] theorem modCg_landed (s : State) (f : Group → Group) : (s.modCg f).landed = s.landed := rfl
@[simp] theorem modCg_held (s : State) (f : Group → Group) : (s.modCg f).held = s.held := rfl
@[simp] theorem modCg_ctlLog (s : State) (f : Group → Group) : (s.modCg f).ctlLog = s.ctlLog := rfl
@[simp] theorem modCg_module (s : State) (f : Group → Group) : (s.modCg f).module = s.module := rfl
@[simp] theorem modCg_agenda (s : State) (f : Group → Group) : (s.modCg f).agenda = s.agenda := rfl
@[simp] theorem modCg_cur (s : State) (f : Group → Group) : (s.modCg f).cur = s.cur := rfl
@[simp] theorem modCg_fresh (s : State) (f : Group → Group) : (s.modCg f).fresh = s.fresh := rfl

/-! ### modCc -/

@[simp] theorem modCc_mem (s : State) (f : Cell → Cell) : (s.modCc f).mem = s.mem := rfl
@[simp] theorem modCc_poison (s : State) (f : Cell → Cell) : (s.modCc f).poison = s.poison := rfl
@[simp] theorem modCc_l2 (s : State) (f : Cell → Cell) : (s.modCc f).l2 = s.l2 := rfl
@[simp] theorem modCc_replicas (s : State) (f : Cell → Cell) : (s.modCc f).replicas = s.replicas := rfl
@[simp] theorem modCc_frames (s : State) (f : Cell → Cell) : (s.modCc f).frames = s.frames := rfl
@[simp] theorem modCc_studios (s : State) (f : Cell → Cell) : (s.modCc f).studios = s.studios := rfl
@[simp] theorem modCc_dieTlb (s : State) (f : Cell → Cell) : (s.modCc f).dieTlb = s.dieTlb := rfl
@[simp] theorem modCc_svs (s : State) (f : Cell → Cell) : (s.modCc f).svs = s.svs := rfl
@[simp] theorem modCc_units (s : State) (f : Cell → Cell) : (s.modCc f).units = s.units := rfl
@[simp] theorem modCc_arenas (s : State) (f : Cell → Cell) : (s.modCc f).arenas = s.arenas := rfl
@[simp] theorem modCc_pages (s : State) (f : Cell → Cell) : (s.modCc f).pages = s.pages := rfl
@[simp] theorem modCc_sweeps (s : State) (f : Cell → Cell) : (s.modCc f).sweeps = s.sweeps := rfl
@[simp] theorem modCc_sealbs (s : State) (f : Cell → Cell) : (s.modCc f).sealbs = s.sealbs := rfl
@[simp] theorem modCc_shoots (s : State) (f : Cell → Cell) : (s.modCc f).shoots = s.shoots := rfl
@[simp] theorem modCc_views (s : State) (f : Cell → Cell) : (s.modCc f).views = s.views := rfl
@[simp] theorem modCc_ctxs (s : State) (f : Cell → Cell) : (s.modCc f).ctxs = s.ctxs := rfl
@[simp] theorem modCc_tasks (s : State) (f : Cell → Cell) : (s.modCc f).tasks = s.tasks := rfl
@[simp] theorem modCc_gesso (s : State) (f : Cell → Cell) : (s.modCc f).gesso = s.gesso := rfl
@[simp] theorem modCc_ckpts (s : State) (f : Cell → Cell) : (s.modCc f).ckpts = s.ckpts := rfl
@[simp] theorem modCc_rounds (s : State) (f : Cell → Cell) : (s.modCc f).rounds = s.rounds := rfl
@[simp] theorem modCc_packets (s : State) (f : Cell → Cell) : (s.modCc f).packets = s.packets := rfl
@[simp] theorem modCc_routers (s : State) (f : Cell → Cell) : (s.modCc f).routers = s.routers := rfl
@[simp] theorem modCc_landed (s : State) (f : Cell → Cell) : (s.modCc f).landed = s.landed := rfl
@[simp] theorem modCc_held (s : State) (f : Cell → Cell) : (s.modCc f).held = s.held := rfl
@[simp] theorem modCc_ctlLog (s : State) (f : Cell → Cell) : (s.modCc f).ctlLog = s.ctlLog := rfl
@[simp] theorem modCc_module (s : State) (f : Cell → Cell) : (s.modCc f).module = s.module := rfl
@[simp] theorem modCc_agenda (s : State) (f : Cell → Cell) : (s.modCc f).agenda = s.agenda := rfl
@[simp] theorem modCc_cur (s : State) (f : Cell → Cell) : (s.modCc f).cur = s.cur := rfl
@[simp] theorem modCc_fresh (s : State) (f : Cell → Cell) : (s.modCc f).fresh = s.fresh := rfl

/-! ### modRun -/

@[simp] theorem modRun_mem (s : State) (f : Run → Run) : (s.modRun f).mem = s.mem := rfl
@[simp] theorem modRun_poison (s : State) (f : Run → Run) : (s.modRun f).poison = s.poison := rfl
@[simp] theorem modRun_l2 (s : State) (f : Run → Run) : (s.modRun f).l2 = s.l2 := rfl
@[simp] theorem modRun_replicas (s : State) (f : Run → Run) : (s.modRun f).replicas = s.replicas := rfl
@[simp] theorem modRun_frames (s : State) (f : Run → Run) : (s.modRun f).frames = s.frames := rfl
@[simp] theorem modRun_studios (s : State) (f : Run → Run) : (s.modRun f).studios = s.studios := rfl
@[simp] theorem modRun_dieTlb (s : State) (f : Run → Run) : (s.modRun f).dieTlb = s.dieTlb := rfl
@[simp] theorem modRun_svs (s : State) (f : Run → Run) : (s.modRun f).svs = s.svs := rfl
@[simp] theorem modRun_units (s : State) (f : Run → Run) : (s.modRun f).units = s.units := rfl
@[simp] theorem modRun_arenas (s : State) (f : Run → Run) : (s.modRun f).arenas = s.arenas := rfl
@[simp] theorem modRun_pages (s : State) (f : Run → Run) : (s.modRun f).pages = s.pages := rfl
@[simp] theorem modRun_sweeps (s : State) (f : Run → Run) : (s.modRun f).sweeps = s.sweeps := rfl
@[simp] theorem modRun_sealbs (s : State) (f : Run → Run) : (s.modRun f).sealbs = s.sealbs := rfl
@[simp] theorem modRun_shoots (s : State) (f : Run → Run) : (s.modRun f).shoots = s.shoots := rfl
@[simp] theorem modRun_views (s : State) (f : Run → Run) : (s.modRun f).views = s.views := rfl
@[simp] theorem modRun_ctxs (s : State) (f : Run → Run) : (s.modRun f).ctxs = s.ctxs := rfl
@[simp] theorem modRun_tasks (s : State) (f : Run → Run) : (s.modRun f).tasks = s.tasks := rfl
@[simp] theorem modRun_gesso (s : State) (f : Run → Run) : (s.modRun f).gesso = s.gesso := rfl
@[simp] theorem modRun_ckpts (s : State) (f : Run → Run) : (s.modRun f).ckpts = s.ckpts := rfl
@[simp] theorem modRun_rounds (s : State) (f : Run → Run) : (s.modRun f).rounds = s.rounds := rfl
@[simp] theorem modRun_packets (s : State) (f : Run → Run) : (s.modRun f).packets = s.packets := rfl
@[simp] theorem modRun_routers (s : State) (f : Run → Run) : (s.modRun f).routers = s.routers := rfl
@[simp] theorem modRun_landed (s : State) (f : Run → Run) : (s.modRun f).landed = s.landed := rfl
@[simp] theorem modRun_held (s : State) (f : Run → Run) : (s.modRun f).held = s.held := rfl
@[simp] theorem modRun_ctlLog (s : State) (f : Run → Run) : (s.modRun f).ctlLog = s.ctlLog := rfl
@[simp] theorem modRun_module (s : State) (f : Run → Run) : (s.modRun f).module = s.module := rfl
@[simp] theorem modRun_agenda (s : State) (f : Run → Run) : (s.modRun f).agenda = s.agenda := rfl
@[simp] theorem modRun_cur (s : State) (f : Run → Run) : (s.modRun f).cur = s.cur := rfl
@[simp] theorem modRun_fresh (s : State) (f : Run → Run) : (s.modRun f).fresh = s.fresh := rfl

/-! ### addLate -/

@[simp] theorem addLate_mem (s : State) (r : GRef) (f : LateFault) : (s.addLate r f).mem = s.mem := rfl
@[simp] theorem addLate_poison (s : State) (r : GRef) (f : LateFault) : (s.addLate r f).poison = s.poison := rfl
@[simp] theorem addLate_l2 (s : State) (r : GRef) (f : LateFault) : (s.addLate r f).l2 = s.l2 := rfl
@[simp] theorem addLate_replicas (s : State) (r : GRef) (f : LateFault) : (s.addLate r f).replicas = s.replicas := rfl
@[simp] theorem addLate_frames (s : State) (r : GRef) (f : LateFault) : (s.addLate r f).frames = s.frames := rfl
@[simp] theorem addLate_studios (s : State) (r : GRef) (f : LateFault) : (s.addLate r f).studios = s.studios := rfl
@[simp] theorem addLate_dieTlb (s : State) (r : GRef) (f : LateFault) : (s.addLate r f).dieTlb = s.dieTlb := rfl
@[simp] theorem addLate_svs (s : State) (r : GRef) (f : LateFault) : (s.addLate r f).svs = s.svs := rfl
@[simp] theorem addLate_units (s : State) (r : GRef) (f : LateFault) : (s.addLate r f).units = s.units := rfl
@[simp] theorem addLate_arenas (s : State) (r : GRef) (f : LateFault) : (s.addLate r f).arenas = s.arenas := rfl
@[simp] theorem addLate_pages (s : State) (r : GRef) (f : LateFault) : (s.addLate r f).pages = s.pages := rfl
@[simp] theorem addLate_sweeps (s : State) (r : GRef) (f : LateFault) : (s.addLate r f).sweeps = s.sweeps := rfl
@[simp] theorem addLate_sealbs (s : State) (r : GRef) (f : LateFault) : (s.addLate r f).sealbs = s.sealbs := rfl
@[simp] theorem addLate_shoots (s : State) (r : GRef) (f : LateFault) : (s.addLate r f).shoots = s.shoots := rfl
@[simp] theorem addLate_views (s : State) (r : GRef) (f : LateFault) : (s.addLate r f).views = s.views := rfl
@[simp] theorem addLate_ctxs (s : State) (r : GRef) (f : LateFault) : (s.addLate r f).ctxs = s.ctxs := rfl
@[simp] theorem addLate_tasks (s : State) (r : GRef) (f : LateFault) : (s.addLate r f).tasks = s.tasks := rfl
@[simp] theorem addLate_gesso (s : State) (r : GRef) (f : LateFault) : (s.addLate r f).gesso = s.gesso := rfl
@[simp] theorem addLate_ckpts (s : State) (r : GRef) (f : LateFault) : (s.addLate r f).ckpts = s.ckpts := rfl
@[simp] theorem addLate_rounds (s : State) (r : GRef) (f : LateFault) : (s.addLate r f).rounds = s.rounds := rfl
@[simp] theorem addLate_packets (s : State) (r : GRef) (f : LateFault) : (s.addLate r f).packets = s.packets := rfl
@[simp] theorem addLate_routers (s : State) (r : GRef) (f : LateFault) : (s.addLate r f).routers = s.routers := rfl
@[simp] theorem addLate_landed (s : State) (r : GRef) (f : LateFault) : (s.addLate r f).landed = s.landed := rfl
@[simp] theorem addLate_held (s : State) (r : GRef) (f : LateFault) : (s.addLate r f).held = s.held := rfl
@[simp] theorem addLate_ctlLog (s : State) (r : GRef) (f : LateFault) : (s.addLate r f).ctlLog = s.ctlLog := rfl
@[simp] theorem addLate_module (s : State) (r : GRef) (f : LateFault) : (s.addLate r f).module = s.module := rfl
@[simp] theorem addLate_agenda (s : State) (r : GRef) (f : LateFault) : (s.addLate r f).agenda = s.agenda := rfl
@[simp] theorem addLate_cur (s : State) (r : GRef) (f : LateFault) : (s.addLate r f).cur = s.cur := rfl
@[simp] theorem addLate_fresh (s : State) (r : GRef) (f : LateFault) : (s.addLate r f).fresh = s.fresh := rfl

/-! ### modStudio -/

@[simp] theorem modStudio_mem (s : State) (k : Nat) (f : Studio → Studio) : (s.modStudio k f).mem = s.mem := rfl
@[simp] theorem modStudio_poison (s : State) (k : Nat) (f : Studio → Studio) : (s.modStudio k f).poison = s.poison := rfl
@[simp] theorem modStudio_l2 (s : State) (k : Nat) (f : Studio → Studio) : (s.modStudio k f).l2 = s.l2 := rfl
@[simp] theorem modStudio_replicas (s : State) (k : Nat) (f : Studio → Studio) : (s.modStudio k f).replicas = s.replicas := rfl
@[simp] theorem modStudio_frames (s : State) (k : Nat) (f : Studio → Studio) : (s.modStudio k f).frames = s.frames := rfl
@[simp] theorem modStudio_dieTlb (s : State) (k : Nat) (f : Studio → Studio) : (s.modStudio k f).dieTlb = s.dieTlb := rfl
@[simp] theorem modStudio_svs (s : State) (k : Nat) (f : Studio → Studio) : (s.modStudio k f).svs = s.svs := rfl
@[simp] theorem modStudio_units (s : State) (k : Nat) (f : Studio → Studio) : (s.modStudio k f).units = s.units := rfl
@[simp] theorem modStudio_arenas (s : State) (k : Nat) (f : Studio → Studio) : (s.modStudio k f).arenas = s.arenas := rfl
@[simp] theorem modStudio_pages (s : State) (k : Nat) (f : Studio → Studio) : (s.modStudio k f).pages = s.pages := rfl
@[simp] theorem modStudio_sweeps (s : State) (k : Nat) (f : Studio → Studio) : (s.modStudio k f).sweeps = s.sweeps := rfl
@[simp] theorem modStudio_sealbs (s : State) (k : Nat) (f : Studio → Studio) : (s.modStudio k f).sealbs = s.sealbs := rfl
@[simp] theorem modStudio_shoots (s : State) (k : Nat) (f : Studio → Studio) : (s.modStudio k f).shoots = s.shoots := rfl
@[simp] theorem modStudio_views (s : State) (k : Nat) (f : Studio → Studio) : (s.modStudio k f).views = s.views := rfl
@[simp] theorem modStudio_ctxs (s : State) (k : Nat) (f : Studio → Studio) : (s.modStudio k f).ctxs = s.ctxs := rfl
@[simp] theorem modStudio_tasks (s : State) (k : Nat) (f : Studio → Studio) : (s.modStudio k f).tasks = s.tasks := rfl
@[simp] theorem modStudio_cells (s : State) (k : Nat) (f : Studio → Studio) : (s.modStudio k f).cells = s.cells := rfl
@[simp] theorem modStudio_gesso (s : State) (k : Nat) (f : Studio → Studio) : (s.modStudio k f).gesso = s.gesso := rfl
@[simp] theorem modStudio_ckpts (s : State) (k : Nat) (f : Studio → Studio) : (s.modStudio k f).ckpts = s.ckpts := rfl
@[simp] theorem modStudio_rounds (s : State) (k : Nat) (f : Studio → Studio) : (s.modStudio k f).rounds = s.rounds := rfl
@[simp] theorem modStudio_packets (s : State) (k : Nat) (f : Studio → Studio) : (s.modStudio k f).packets = s.packets := rfl
@[simp] theorem modStudio_routers (s : State) (k : Nat) (f : Studio → Studio) : (s.modStudio k f).routers = s.routers := rfl
@[simp] theorem modStudio_landed (s : State) (k : Nat) (f : Studio → Studio) : (s.modStudio k f).landed = s.landed := rfl
@[simp] theorem modStudio_held (s : State) (k : Nat) (f : Studio → Studio) : (s.modStudio k f).held = s.held := rfl
@[simp] theorem modStudio_ctlLog (s : State) (k : Nat) (f : Studio → Studio) : (s.modStudio k f).ctlLog = s.ctlLog := rfl
@[simp] theorem modStudio_module (s : State) (k : Nat) (f : Studio → Studio) : (s.modStudio k f).module = s.module := rfl
@[simp] theorem modStudio_agenda (s : State) (k : Nat) (f : Studio → Studio) : (s.modStudio k f).agenda = s.agenda := rfl
@[simp] theorem modStudio_cur (s : State) (k : Nat) (f : Studio → Studio) : (s.modStudio k f).cur = s.cur := rfl
@[simp] theorem modStudio_fresh (s : State) (k : Nat) (f : Studio → Studio) : (s.modStudio k f).fresh = s.fresh := rfl

/-! ### modCtx -/

@[simp] theorem modCtx_mem (s : State) (c : Nat) (f : Ctx → Ctx) : (s.modCtx c f).mem = s.mem := rfl
@[simp] theorem modCtx_poison (s : State) (c : Nat) (f : Ctx → Ctx) : (s.modCtx c f).poison = s.poison := rfl
@[simp] theorem modCtx_l2 (s : State) (c : Nat) (f : Ctx → Ctx) : (s.modCtx c f).l2 = s.l2 := rfl
@[simp] theorem modCtx_replicas (s : State) (c : Nat) (f : Ctx → Ctx) : (s.modCtx c f).replicas = s.replicas := rfl
@[simp] theorem modCtx_frames (s : State) (c : Nat) (f : Ctx → Ctx) : (s.modCtx c f).frames = s.frames := rfl
@[simp] theorem modCtx_studios (s : State) (c : Nat) (f : Ctx → Ctx) : (s.modCtx c f).studios = s.studios := rfl
@[simp] theorem modCtx_dieTlb (s : State) (c : Nat) (f : Ctx → Ctx) : (s.modCtx c f).dieTlb = s.dieTlb := rfl
@[simp] theorem modCtx_svs (s : State) (c : Nat) (f : Ctx → Ctx) : (s.modCtx c f).svs = s.svs := rfl
@[simp] theorem modCtx_units (s : State) (c : Nat) (f : Ctx → Ctx) : (s.modCtx c f).units = s.units := rfl
@[simp] theorem modCtx_arenas (s : State) (c : Nat) (f : Ctx → Ctx) : (s.modCtx c f).arenas = s.arenas := rfl
@[simp] theorem modCtx_pages (s : State) (c : Nat) (f : Ctx → Ctx) : (s.modCtx c f).pages = s.pages := rfl
@[simp] theorem modCtx_sweeps (s : State) (c : Nat) (f : Ctx → Ctx) : (s.modCtx c f).sweeps = s.sweeps := rfl
@[simp] theorem modCtx_sealbs (s : State) (c : Nat) (f : Ctx → Ctx) : (s.modCtx c f).sealbs = s.sealbs := rfl
@[simp] theorem modCtx_shoots (s : State) (c : Nat) (f : Ctx → Ctx) : (s.modCtx c f).shoots = s.shoots := rfl
@[simp] theorem modCtx_views (s : State) (c : Nat) (f : Ctx → Ctx) : (s.modCtx c f).views = s.views := rfl
@[simp] theorem modCtx_tasks (s : State) (c : Nat) (f : Ctx → Ctx) : (s.modCtx c f).tasks = s.tasks := rfl
@[simp] theorem modCtx_cells (s : State) (c : Nat) (f : Ctx → Ctx) : (s.modCtx c f).cells = s.cells := rfl
@[simp] theorem modCtx_gesso (s : State) (c : Nat) (f : Ctx → Ctx) : (s.modCtx c f).gesso = s.gesso := rfl
@[simp] theorem modCtx_ckpts (s : State) (c : Nat) (f : Ctx → Ctx) : (s.modCtx c f).ckpts = s.ckpts := rfl
@[simp] theorem modCtx_rounds (s : State) (c : Nat) (f : Ctx → Ctx) : (s.modCtx c f).rounds = s.rounds := rfl
@[simp] theorem modCtx_packets (s : State) (c : Nat) (f : Ctx → Ctx) : (s.modCtx c f).packets = s.packets := rfl
@[simp] theorem modCtx_routers (s : State) (c : Nat) (f : Ctx → Ctx) : (s.modCtx c f).routers = s.routers := rfl
@[simp] theorem modCtx_landed (s : State) (c : Nat) (f : Ctx → Ctx) : (s.modCtx c f).landed = s.landed := rfl
@[simp] theorem modCtx_held (s : State) (c : Nat) (f : Ctx → Ctx) : (s.modCtx c f).held = s.held := rfl
@[simp] theorem modCtx_ctlLog (s : State) (c : Nat) (f : Ctx → Ctx) : (s.modCtx c f).ctlLog = s.ctlLog := rfl
@[simp] theorem modCtx_module (s : State) (c : Nat) (f : Ctx → Ctx) : (s.modCtx c f).module = s.module := rfl
@[simp] theorem modCtx_agenda (s : State) (c : Nat) (f : Ctx → Ctx) : (s.modCtx c f).agenda = s.agenda := rfl
@[simp] theorem modCtx_cur (s : State) (c : Nat) (f : Ctx → Ctx) : (s.modCtx c f).cur = s.cur := rfl
@[simp] theorem modCtx_fresh (s : State) (c : Nat) (f : Ctx → Ctx) : (s.modCtx c f).fresh = s.fresh := rfl

/-! ### report -/

@[simp] theorem report_mem (s : State) (c : Nat) (r : List (BitVec 8)) : (s.report c r).mem = s.mem := rfl
@[simp] theorem report_poison (s : State) (c : Nat) (r : List (BitVec 8)) : (s.report c r).poison = s.poison := rfl
@[simp] theorem report_l2 (s : State) (c : Nat) (r : List (BitVec 8)) : (s.report c r).l2 = s.l2 := rfl
@[simp] theorem report_replicas (s : State) (c : Nat) (r : List (BitVec 8)) : (s.report c r).replicas = s.replicas := rfl
@[simp] theorem report_frames (s : State) (c : Nat) (r : List (BitVec 8)) : (s.report c r).frames = s.frames := rfl
@[simp] theorem report_studios (s : State) (c : Nat) (r : List (BitVec 8)) : (s.report c r).studios = s.studios := rfl
@[simp] theorem report_dieTlb (s : State) (c : Nat) (r : List (BitVec 8)) : (s.report c r).dieTlb = s.dieTlb := rfl
@[simp] theorem report_svs (s : State) (c : Nat) (r : List (BitVec 8)) : (s.report c r).svs = s.svs := rfl
@[simp] theorem report_units (s : State) (c : Nat) (r : List (BitVec 8)) : (s.report c r).units = s.units := rfl
@[simp] theorem report_arenas (s : State) (c : Nat) (r : List (BitVec 8)) : (s.report c r).arenas = s.arenas := rfl
@[simp] theorem report_pages (s : State) (c : Nat) (r : List (BitVec 8)) : (s.report c r).pages = s.pages := rfl
@[simp] theorem report_sweeps (s : State) (c : Nat) (r : List (BitVec 8)) : (s.report c r).sweeps = s.sweeps := rfl
@[simp] theorem report_sealbs (s : State) (c : Nat) (r : List (BitVec 8)) : (s.report c r).sealbs = s.sealbs := rfl
@[simp] theorem report_shoots (s : State) (c : Nat) (r : List (BitVec 8)) : (s.report c r).shoots = s.shoots := rfl
@[simp] theorem report_views (s : State) (c : Nat) (r : List (BitVec 8)) : (s.report c r).views = s.views := rfl
@[simp] theorem report_tasks (s : State) (c : Nat) (r : List (BitVec 8)) : (s.report c r).tasks = s.tasks := rfl
@[simp] theorem report_cells (s : State) (c : Nat) (r : List (BitVec 8)) : (s.report c r).cells = s.cells := rfl
@[simp] theorem report_gesso (s : State) (c : Nat) (r : List (BitVec 8)) : (s.report c r).gesso = s.gesso := rfl
@[simp] theorem report_ckpts (s : State) (c : Nat) (r : List (BitVec 8)) : (s.report c r).ckpts = s.ckpts := rfl
@[simp] theorem report_rounds (s : State) (c : Nat) (r : List (BitVec 8)) : (s.report c r).rounds = s.rounds := rfl
@[simp] theorem report_packets (s : State) (c : Nat) (r : List (BitVec 8)) : (s.report c r).packets = s.packets := rfl
@[simp] theorem report_routers (s : State) (c : Nat) (r : List (BitVec 8)) : (s.report c r).routers = s.routers := rfl
@[simp] theorem report_landed (s : State) (c : Nat) (r : List (BitVec 8)) : (s.report c r).landed = s.landed := rfl
@[simp] theorem report_held (s : State) (c : Nat) (r : List (BitVec 8)) : (s.report c r).held = s.held := rfl
@[simp] theorem report_ctlLog (s : State) (c : Nat) (r : List (BitVec 8)) : (s.report c r).ctlLog = s.ctlLog := rfl
@[simp] theorem report_module (s : State) (c : Nat) (r : List (BitVec 8)) : (s.report c r).module = s.module := rfl
@[simp] theorem report_agenda (s : State) (c : Nat) (r : List (BitVec 8)) : (s.report c r).agenda = s.agenda := rfl
@[simp] theorem report_cur (s : State) (c : Nat) (r : List (BitVec 8)) : (s.report c r).cur = s.cur := rfl
@[simp] theorem report_fresh (s : State) (c : Nat) (r : List (BitVec 8)) : (s.report c r).fresh = s.fresh := rfl

/-! ### modArena -/

@[simp] theorem modArena_mem (s : State) (a : Nat) (f : Arena → Arena) : (s.modArena a f).mem = s.mem := rfl
@[simp] theorem modArena_poison (s : State) (a : Nat) (f : Arena → Arena) : (s.modArena a f).poison = s.poison := rfl
@[simp] theorem modArena_l2 (s : State) (a : Nat) (f : Arena → Arena) : (s.modArena a f).l2 = s.l2 := rfl
@[simp] theorem modArena_replicas (s : State) (a : Nat) (f : Arena → Arena) : (s.modArena a f).replicas = s.replicas := rfl
@[simp] theorem modArena_frames (s : State) (a : Nat) (f : Arena → Arena) : (s.modArena a f).frames = s.frames := rfl
@[simp] theorem modArena_studios (s : State) (a : Nat) (f : Arena → Arena) : (s.modArena a f).studios = s.studios := rfl
@[simp] theorem modArena_dieTlb (s : State) (a : Nat) (f : Arena → Arena) : (s.modArena a f).dieTlb = s.dieTlb := rfl
@[simp] theorem modArena_svs (s : State) (a : Nat) (f : Arena → Arena) : (s.modArena a f).svs = s.svs := rfl
@[simp] theorem modArena_units (s : State) (a : Nat) (f : Arena → Arena) : (s.modArena a f).units = s.units := rfl
@[simp] theorem modArena_pages (s : State) (a : Nat) (f : Arena → Arena) : (s.modArena a f).pages = s.pages := rfl
@[simp] theorem modArena_sweeps (s : State) (a : Nat) (f : Arena → Arena) : (s.modArena a f).sweeps = s.sweeps := rfl
@[simp] theorem modArena_sealbs (s : State) (a : Nat) (f : Arena → Arena) : (s.modArena a f).sealbs = s.sealbs := rfl
@[simp] theorem modArena_shoots (s : State) (a : Nat) (f : Arena → Arena) : (s.modArena a f).shoots = s.shoots := rfl
@[simp] theorem modArena_views (s : State) (a : Nat) (f : Arena → Arena) : (s.modArena a f).views = s.views := rfl
@[simp] theorem modArena_ctxs (s : State) (a : Nat) (f : Arena → Arena) : (s.modArena a f).ctxs = s.ctxs := rfl
@[simp] theorem modArena_tasks (s : State) (a : Nat) (f : Arena → Arena) : (s.modArena a f).tasks = s.tasks := rfl
@[simp] theorem modArena_cells (s : State) (a : Nat) (f : Arena → Arena) : (s.modArena a f).cells = s.cells := rfl
@[simp] theorem modArena_gesso (s : State) (a : Nat) (f : Arena → Arena) : (s.modArena a f).gesso = s.gesso := rfl
@[simp] theorem modArena_ckpts (s : State) (a : Nat) (f : Arena → Arena) : (s.modArena a f).ckpts = s.ckpts := rfl
@[simp] theorem modArena_rounds (s : State) (a : Nat) (f : Arena → Arena) : (s.modArena a f).rounds = s.rounds := rfl
@[simp] theorem modArena_packets (s : State) (a : Nat) (f : Arena → Arena) : (s.modArena a f).packets = s.packets := rfl
@[simp] theorem modArena_routers (s : State) (a : Nat) (f : Arena → Arena) : (s.modArena a f).routers = s.routers := rfl
@[simp] theorem modArena_landed (s : State) (a : Nat) (f : Arena → Arena) : (s.modArena a f).landed = s.landed := rfl
@[simp] theorem modArena_held (s : State) (a : Nat) (f : Arena → Arena) : (s.modArena a f).held = s.held := rfl
@[simp] theorem modArena_ctlLog (s : State) (a : Nat) (f : Arena → Arena) : (s.modArena a f).ctlLog = s.ctlLog := rfl
@[simp] theorem modArena_module (s : State) (a : Nat) (f : Arena → Arena) : (s.modArena a f).module = s.module := rfl
@[simp] theorem modArena_agenda (s : State) (a : Nat) (f : Arena → Arena) : (s.modArena a f).agenda = s.agenda := rfl
@[simp] theorem modArena_cur (s : State) (a : Nat) (f : Arena → Arena) : (s.modArena a f).cur = s.cur := rfl
@[simp] theorem modArena_fresh (s : State) (a : Nat) (f : Arena → Arena) : (s.modArena a f).fresh = s.fresh := rfl

/-! ### modView -/

@[simp] theorem modView_mem (s : State) (v : Nat) (f : View → View) : (s.modView v f).mem = s.mem := rfl
@[simp] theorem modView_poison (s : State) (v : Nat) (f : View → View) : (s.modView v f).poison = s.poison := rfl
@[simp] theorem modView_l2 (s : State) (v : Nat) (f : View → View) : (s.modView v f).l2 = s.l2 := rfl
@[simp] theorem modView_replicas (s : State) (v : Nat) (f : View → View) : (s.modView v f).replicas = s.replicas := rfl
@[simp] theorem modView_frames (s : State) (v : Nat) (f : View → View) : (s.modView v f).frames = s.frames := rfl
@[simp] theorem modView_studios (s : State) (v : Nat) (f : View → View) : (s.modView v f).studios = s.studios := rfl
@[simp] theorem modView_dieTlb (s : State) (v : Nat) (f : View → View) : (s.modView v f).dieTlb = s.dieTlb := rfl
@[simp] theorem modView_svs (s : State) (v : Nat) (f : View → View) : (s.modView v f).svs = s.svs := rfl
@[simp] theorem modView_units (s : State) (v : Nat) (f : View → View) : (s.modView v f).units = s.units := rfl
@[simp] theorem modView_arenas (s : State) (v : Nat) (f : View → View) : (s.modView v f).arenas = s.arenas := rfl
@[simp] theorem modView_pages (s : State) (v : Nat) (f : View → View) : (s.modView v f).pages = s.pages := rfl
@[simp] theorem modView_sweeps (s : State) (v : Nat) (f : View → View) : (s.modView v f).sweeps = s.sweeps := rfl
@[simp] theorem modView_sealbs (s : State) (v : Nat) (f : View → View) : (s.modView v f).sealbs = s.sealbs := rfl
@[simp] theorem modView_shoots (s : State) (v : Nat) (f : View → View) : (s.modView v f).shoots = s.shoots := rfl
@[simp] theorem modView_ctxs (s : State) (v : Nat) (f : View → View) : (s.modView v f).ctxs = s.ctxs := rfl
@[simp] theorem modView_tasks (s : State) (v : Nat) (f : View → View) : (s.modView v f).tasks = s.tasks := rfl
@[simp] theorem modView_cells (s : State) (v : Nat) (f : View → View) : (s.modView v f).cells = s.cells := rfl
@[simp] theorem modView_gesso (s : State) (v : Nat) (f : View → View) : (s.modView v f).gesso = s.gesso := rfl
@[simp] theorem modView_ckpts (s : State) (v : Nat) (f : View → View) : (s.modView v f).ckpts = s.ckpts := rfl
@[simp] theorem modView_rounds (s : State) (v : Nat) (f : View → View) : (s.modView v f).rounds = s.rounds := rfl
@[simp] theorem modView_packets (s : State) (v : Nat) (f : View → View) : (s.modView v f).packets = s.packets := rfl
@[simp] theorem modView_routers (s : State) (v : Nat) (f : View → View) : (s.modView v f).routers = s.routers := rfl
@[simp] theorem modView_landed (s : State) (v : Nat) (f : View → View) : (s.modView v f).landed = s.landed := rfl
@[simp] theorem modView_held (s : State) (v : Nat) (f : View → View) : (s.modView v f).held = s.held := rfl
@[simp] theorem modView_ctlLog (s : State) (v : Nat) (f : View → View) : (s.modView v f).ctlLog = s.ctlLog := rfl
@[simp] theorem modView_module (s : State) (v : Nat) (f : View → View) : (s.modView v f).module = s.module := rfl
@[simp] theorem modView_agenda (s : State) (v : Nat) (f : View → View) : (s.modView v f).agenda = s.agenda := rfl
@[simp] theorem modView_cur (s : State) (v : Nat) (f : View → View) : (s.modView v f).cur = s.cur := rfl
@[simp] theorem modView_fresh (s : State) (v : Nat) (f : View → View) : (s.modView v f).fresh = s.fresh := rfl

/-! ### modModule -/

@[simp] theorem modModule_mem (s : State) (f : Module → Module) : (s.modModule f).mem = s.mem := rfl
@[simp] theorem modModule_poison (s : State) (f : Module → Module) : (s.modModule f).poison = s.poison := rfl
@[simp] theorem modModule_l2 (s : State) (f : Module → Module) : (s.modModule f).l2 = s.l2 := rfl
@[simp] theorem modModule_replicas (s : State) (f : Module → Module) : (s.modModule f).replicas = s.replicas := rfl
@[simp] theorem modModule_frames (s : State) (f : Module → Module) : (s.modModule f).frames = s.frames := rfl
@[simp] theorem modModule_studios (s : State) (f : Module → Module) : (s.modModule f).studios = s.studios := rfl
@[simp] theorem modModule_dieTlb (s : State) (f : Module → Module) : (s.modModule f).dieTlb = s.dieTlb := rfl
@[simp] theorem modModule_svs (s : State) (f : Module → Module) : (s.modModule f).svs = s.svs := rfl
@[simp] theorem modModule_units (s : State) (f : Module → Module) : (s.modModule f).units = s.units := rfl
@[simp] theorem modModule_arenas (s : State) (f : Module → Module) : (s.modModule f).arenas = s.arenas := rfl
@[simp] theorem modModule_pages (s : State) (f : Module → Module) : (s.modModule f).pages = s.pages := rfl
@[simp] theorem modModule_sweeps (s : State) (f : Module → Module) : (s.modModule f).sweeps = s.sweeps := rfl
@[simp] theorem modModule_sealbs (s : State) (f : Module → Module) : (s.modModule f).sealbs = s.sealbs := rfl
@[simp] theorem modModule_shoots (s : State) (f : Module → Module) : (s.modModule f).shoots = s.shoots := rfl
@[simp] theorem modModule_views (s : State) (f : Module → Module) : (s.modModule f).views = s.views := rfl
@[simp] theorem modModule_ctxs (s : State) (f : Module → Module) : (s.modModule f).ctxs = s.ctxs := rfl
@[simp] theorem modModule_tasks (s : State) (f : Module → Module) : (s.modModule f).tasks = s.tasks := rfl
@[simp] theorem modModule_cells (s : State) (f : Module → Module) : (s.modModule f).cells = s.cells := rfl
@[simp] theorem modModule_gesso (s : State) (f : Module → Module) : (s.modModule f).gesso = s.gesso := rfl
@[simp] theorem modModule_ckpts (s : State) (f : Module → Module) : (s.modModule f).ckpts = s.ckpts := rfl
@[simp] theorem modModule_rounds (s : State) (f : Module → Module) : (s.modModule f).rounds = s.rounds := rfl
@[simp] theorem modModule_packets (s : State) (f : Module → Module) : (s.modModule f).packets = s.packets := rfl
@[simp] theorem modModule_routers (s : State) (f : Module → Module) : (s.modModule f).routers = s.routers := rfl
@[simp] theorem modModule_landed (s : State) (f : Module → Module) : (s.modModule f).landed = s.landed := rfl
@[simp] theorem modModule_held (s : State) (f : Module → Module) : (s.modModule f).held = s.held := rfl
@[simp] theorem modModule_ctlLog (s : State) (f : Module → Module) : (s.modModule f).ctlLog = s.ctlLog := rfl
@[simp] theorem modModule_agenda (s : State) (f : Module → Module) : (s.modModule f).agenda = s.agenda := rfl
@[simp] theorem modModule_cur (s : State) (f : Module → Module) : (s.modModule f).cur = s.cur := rfl
@[simp] theorem modModule_fresh (s : State) (f : Module → Module) : (s.modModule f).fresh = s.fresh := rfl

/-! ### supReport -/

@[simp] theorem supReport_mem (s : State) (r : List (BitVec 8)) : (s.supReport r).mem = s.mem := rfl
@[simp] theorem supReport_poison (s : State) (r : List (BitVec 8)) : (s.supReport r).poison = s.poison := rfl
@[simp] theorem supReport_l2 (s : State) (r : List (BitVec 8)) : (s.supReport r).l2 = s.l2 := rfl
@[simp] theorem supReport_replicas (s : State) (r : List (BitVec 8)) : (s.supReport r).replicas = s.replicas := rfl
@[simp] theorem supReport_frames (s : State) (r : List (BitVec 8)) : (s.supReport r).frames = s.frames := rfl
@[simp] theorem supReport_studios (s : State) (r : List (BitVec 8)) : (s.supReport r).studios = s.studios := rfl
@[simp] theorem supReport_dieTlb (s : State) (r : List (BitVec 8)) : (s.supReport r).dieTlb = s.dieTlb := rfl
@[simp] theorem supReport_svs (s : State) (r : List (BitVec 8)) : (s.supReport r).svs = s.svs := rfl
@[simp] theorem supReport_units (s : State) (r : List (BitVec 8)) : (s.supReport r).units = s.units := rfl
@[simp] theorem supReport_arenas (s : State) (r : List (BitVec 8)) : (s.supReport r).arenas = s.arenas := rfl
@[simp] theorem supReport_pages (s : State) (r : List (BitVec 8)) : (s.supReport r).pages = s.pages := rfl
@[simp] theorem supReport_sweeps (s : State) (r : List (BitVec 8)) : (s.supReport r).sweeps = s.sweeps := rfl
@[simp] theorem supReport_sealbs (s : State) (r : List (BitVec 8)) : (s.supReport r).sealbs = s.sealbs := rfl
@[simp] theorem supReport_shoots (s : State) (r : List (BitVec 8)) : (s.supReport r).shoots = s.shoots := rfl
@[simp] theorem supReport_views (s : State) (r : List (BitVec 8)) : (s.supReport r).views = s.views := rfl
@[simp] theorem supReport_ctxs (s : State) (r : List (BitVec 8)) : (s.supReport r).ctxs = s.ctxs := rfl
@[simp] theorem supReport_tasks (s : State) (r : List (BitVec 8)) : (s.supReport r).tasks = s.tasks := rfl
@[simp] theorem supReport_cells (s : State) (r : List (BitVec 8)) : (s.supReport r).cells = s.cells := rfl
@[simp] theorem supReport_gesso (s : State) (r : List (BitVec 8)) : (s.supReport r).gesso = s.gesso := rfl
@[simp] theorem supReport_ckpts (s : State) (r : List (BitVec 8)) : (s.supReport r).ckpts = s.ckpts := rfl
@[simp] theorem supReport_rounds (s : State) (r : List (BitVec 8)) : (s.supReport r).rounds = s.rounds := rfl
@[simp] theorem supReport_packets (s : State) (r : List (BitVec 8)) : (s.supReport r).packets = s.packets := rfl
@[simp] theorem supReport_routers (s : State) (r : List (BitVec 8)) : (s.supReport r).routers = s.routers := rfl
@[simp] theorem supReport_landed (s : State) (r : List (BitVec 8)) : (s.supReport r).landed = s.landed := rfl
@[simp] theorem supReport_held (s : State) (r : List (BitVec 8)) : (s.supReport r).held = s.held := rfl
@[simp] theorem supReport_ctlLog (s : State) (r : List (BitVec 8)) : (s.supReport r).ctlLog = s.ctlLog := rfl
@[simp] theorem supReport_agenda (s : State) (r : List (BitVec 8)) : (s.supReport r).agenda = s.agenda := rfl
@[simp] theorem supReport_cur (s : State) (r : List (BitVec 8)) : (s.supReport r).cur = s.cur := rfl
@[simp] theorem supReport_fresh (s : State) (r : List (BitVec 8)) : (s.supReport r).fresh = s.fresh := rfl

/-! ### notify -/

@[simp] theorem notify_mem (s : State) (n : Notice) : (s.notify n).mem = s.mem := rfl
@[simp] theorem notify_poison (s : State) (n : Notice) : (s.notify n).poison = s.poison := rfl
@[simp] theorem notify_l2 (s : State) (n : Notice) : (s.notify n).l2 = s.l2 := rfl
@[simp] theorem notify_replicas (s : State) (n : Notice) : (s.notify n).replicas = s.replicas := rfl
@[simp] theorem notify_frames (s : State) (n : Notice) : (s.notify n).frames = s.frames := rfl
@[simp] theorem notify_studios (s : State) (n : Notice) : (s.notify n).studios = s.studios := rfl
@[simp] theorem notify_dieTlb (s : State) (n : Notice) : (s.notify n).dieTlb = s.dieTlb := rfl
@[simp] theorem notify_svs (s : State) (n : Notice) : (s.notify n).svs = s.svs := rfl
@[simp] theorem notify_units (s : State) (n : Notice) : (s.notify n).units = s.units := rfl
@[simp] theorem notify_arenas (s : State) (n : Notice) : (s.notify n).arenas = s.arenas := rfl
@[simp] theorem notify_pages (s : State) (n : Notice) : (s.notify n).pages = s.pages := rfl
@[simp] theorem notify_sweeps (s : State) (n : Notice) : (s.notify n).sweeps = s.sweeps := rfl
@[simp] theorem notify_sealbs (s : State) (n : Notice) : (s.notify n).sealbs = s.sealbs := rfl
@[simp] theorem notify_shoots (s : State) (n : Notice) : (s.notify n).shoots = s.shoots := rfl
@[simp] theorem notify_views (s : State) (n : Notice) : (s.notify n).views = s.views := rfl
@[simp] theorem notify_ctxs (s : State) (n : Notice) : (s.notify n).ctxs = s.ctxs := rfl
@[simp] theorem notify_tasks (s : State) (n : Notice) : (s.notify n).tasks = s.tasks := rfl
@[simp] theorem notify_cells (s : State) (n : Notice) : (s.notify n).cells = s.cells := rfl
@[simp] theorem notify_gesso (s : State) (n : Notice) : (s.notify n).gesso = s.gesso := rfl
@[simp] theorem notify_ckpts (s : State) (n : Notice) : (s.notify n).ckpts = s.ckpts := rfl
@[simp] theorem notify_rounds (s : State) (n : Notice) : (s.notify n).rounds = s.rounds := rfl
@[simp] theorem notify_packets (s : State) (n : Notice) : (s.notify n).packets = s.packets := rfl
@[simp] theorem notify_routers (s : State) (n : Notice) : (s.notify n).routers = s.routers := rfl
@[simp] theorem notify_landed (s : State) (n : Notice) : (s.notify n).landed = s.landed := rfl
@[simp] theorem notify_held (s : State) (n : Notice) : (s.notify n).held = s.held := rfl
@[simp] theorem notify_ctlLog (s : State) (n : Notice) : (s.notify n).ctlLog = s.ctlLog := rfl
@[simp] theorem notify_agenda (s : State) (n : Notice) : (s.notify n).agenda = s.agenda := rfl
@[simp] theorem notify_cur (s : State) (n : Notice) : (s.notify n).cur = s.cur := rfl
@[simp] theorem notify_fresh (s : State) (n : Notice) : (s.notify n).fresh = s.fresh := rfl

/-! ### bump -/

@[simp] theorem bump_mem (s : State) (n k : Nat) : (s.bump n k).mem = s.mem := rfl
@[simp] theorem bump_poison (s : State) (n k : Nat) : (s.bump n k).poison = s.poison := rfl
@[simp] theorem bump_l2 (s : State) (n k : Nat) : (s.bump n k).l2 = s.l2 := rfl
@[simp] theorem bump_replicas (s : State) (n k : Nat) : (s.bump n k).replicas = s.replicas := rfl
@[simp] theorem bump_frames (s : State) (n k : Nat) : (s.bump n k).frames = s.frames := rfl
@[simp] theorem bump_studios (s : State) (n k : Nat) : (s.bump n k).studios = s.studios := rfl
@[simp] theorem bump_dieTlb (s : State) (n k : Nat) : (s.bump n k).dieTlb = s.dieTlb := rfl
@[simp] theorem bump_svs (s : State) (n k : Nat) : (s.bump n k).svs = s.svs := rfl
@[simp] theorem bump_units (s : State) (n k : Nat) : (s.bump n k).units = s.units := rfl
@[simp] theorem bump_arenas (s : State) (n k : Nat) : (s.bump n k).arenas = s.arenas := rfl
@[simp] theorem bump_pages (s : State) (n k : Nat) : (s.bump n k).pages = s.pages := rfl
@[simp] theorem bump_sweeps (s : State) (n k : Nat) : (s.bump n k).sweeps = s.sweeps := rfl
@[simp] theorem bump_sealbs (s : State) (n k : Nat) : (s.bump n k).sealbs = s.sealbs := rfl
@[simp] theorem bump_shoots (s : State) (n k : Nat) : (s.bump n k).shoots = s.shoots := rfl
@[simp] theorem bump_views (s : State) (n k : Nat) : (s.bump n k).views = s.views := rfl
@[simp] theorem bump_ctxs (s : State) (n k : Nat) : (s.bump n k).ctxs = s.ctxs := rfl
@[simp] theorem bump_tasks (s : State) (n k : Nat) : (s.bump n k).tasks = s.tasks := rfl
@[simp] theorem bump_cells (s : State) (n k : Nat) : (s.bump n k).cells = s.cells := rfl
@[simp] theorem bump_gesso (s : State) (n k : Nat) : (s.bump n k).gesso = s.gesso := rfl
@[simp] theorem bump_ckpts (s : State) (n k : Nat) : (s.bump n k).ckpts = s.ckpts := rfl
@[simp] theorem bump_rounds (s : State) (n k : Nat) : (s.bump n k).rounds = s.rounds := rfl
@[simp] theorem bump_packets (s : State) (n k : Nat) : (s.bump n k).packets = s.packets := rfl
@[simp] theorem bump_routers (s : State) (n k : Nat) : (s.bump n k).routers = s.routers := rfl
@[simp] theorem bump_landed (s : State) (n k : Nat) : (s.bump n k).landed = s.landed := rfl
@[simp] theorem bump_held (s : State) (n k : Nat) : (s.bump n k).held = s.held := rfl
@[simp] theorem bump_ctlLog (s : State) (n k : Nat) : (s.bump n k).ctlLog = s.ctlLog := rfl
@[simp] theorem bump_agenda (s : State) (n k : Nat) : (s.bump n k).agenda = s.agenda := rfl
@[simp] theorem bump_cur (s : State) (n k : Nat) : (s.bump n k).cur = s.cur := rfl
@[simp] theorem bump_fresh (s : State) (n k : Nat) : (s.bump n k).fresh = s.fresh := rfl

/-! ### modTask -/

@[simp] theorem modTask_mem (s : State) (t : BitVec 64) (f : Task → Task) : (s.modTask t f).mem = s.mem := rfl
@[simp] theorem modTask_poison (s : State) (t : BitVec 64) (f : Task → Task) : (s.modTask t f).poison = s.poison := rfl
@[simp] theorem modTask_l2 (s : State) (t : BitVec 64) (f : Task → Task) : (s.modTask t f).l2 = s.l2 := rfl
@[simp] theorem modTask_replicas (s : State) (t : BitVec 64) (f : Task → Task) : (s.modTask t f).replicas = s.replicas := rfl
@[simp] theorem modTask_frames (s : State) (t : BitVec 64) (f : Task → Task) : (s.modTask t f).frames = s.frames := rfl
@[simp] theorem modTask_studios (s : State) (t : BitVec 64) (f : Task → Task) : (s.modTask t f).studios = s.studios := rfl
@[simp] theorem modTask_dieTlb (s : State) (t : BitVec 64) (f : Task → Task) : (s.modTask t f).dieTlb = s.dieTlb := rfl
@[simp] theorem modTask_svs (s : State) (t : BitVec 64) (f : Task → Task) : (s.modTask t f).svs = s.svs := rfl
@[simp] theorem modTask_units (s : State) (t : BitVec 64) (f : Task → Task) : (s.modTask t f).units = s.units := rfl
@[simp] theorem modTask_arenas (s : State) (t : BitVec 64) (f : Task → Task) : (s.modTask t f).arenas = s.arenas := rfl
@[simp] theorem modTask_pages (s : State) (t : BitVec 64) (f : Task → Task) : (s.modTask t f).pages = s.pages := rfl
@[simp] theorem modTask_sweeps (s : State) (t : BitVec 64) (f : Task → Task) : (s.modTask t f).sweeps = s.sweeps := rfl
@[simp] theorem modTask_sealbs (s : State) (t : BitVec 64) (f : Task → Task) : (s.modTask t f).sealbs = s.sealbs := rfl
@[simp] theorem modTask_shoots (s : State) (t : BitVec 64) (f : Task → Task) : (s.modTask t f).shoots = s.shoots := rfl
@[simp] theorem modTask_views (s : State) (t : BitVec 64) (f : Task → Task) : (s.modTask t f).views = s.views := rfl
@[simp] theorem modTask_ctxs (s : State) (t : BitVec 64) (f : Task → Task) : (s.modTask t f).ctxs = s.ctxs := rfl
@[simp] theorem modTask_cells (s : State) (t : BitVec 64) (f : Task → Task) : (s.modTask t f).cells = s.cells := rfl
@[simp] theorem modTask_gesso (s : State) (t : BitVec 64) (f : Task → Task) : (s.modTask t f).gesso = s.gesso := rfl
@[simp] theorem modTask_ckpts (s : State) (t : BitVec 64) (f : Task → Task) : (s.modTask t f).ckpts = s.ckpts := rfl
@[simp] theorem modTask_rounds (s : State) (t : BitVec 64) (f : Task → Task) : (s.modTask t f).rounds = s.rounds := rfl
@[simp] theorem modTask_packets (s : State) (t : BitVec 64) (f : Task → Task) : (s.modTask t f).packets = s.packets := rfl
@[simp] theorem modTask_routers (s : State) (t : BitVec 64) (f : Task → Task) : (s.modTask t f).routers = s.routers := rfl
@[simp] theorem modTask_landed (s : State) (t : BitVec 64) (f : Task → Task) : (s.modTask t f).landed = s.landed := rfl
@[simp] theorem modTask_held (s : State) (t : BitVec 64) (f : Task → Task) : (s.modTask t f).held = s.held := rfl
@[simp] theorem modTask_ctlLog (s : State) (t : BitVec 64) (f : Task → Task) : (s.modTask t f).ctlLog = s.ctlLog := rfl
@[simp] theorem modTask_module (s : State) (t : BitVec 64) (f : Task → Task) : (s.modTask t f).module = s.module := rfl
@[simp] theorem modTask_agenda (s : State) (t : BitVec 64) (f : Task → Task) : (s.modTask t f).agenda = s.agenda := rfl
@[simp] theorem modTask_cur (s : State) (t : BitVec 64) (f : Task → Task) : (s.modTask t f).cur = s.cur := rfl
@[simp] theorem modTask_fresh (s : State) (t : BitVec 64) (f : Task → Task) : (s.modTask t f).fresh = s.fresh := rfl

/-! ### modGesso -/

@[simp] theorem modGesso_mem (s : State) (d : Nat) (f : Gesso → Gesso) : (s.modGesso d f).mem = s.mem := rfl
@[simp] theorem modGesso_poison (s : State) (d : Nat) (f : Gesso → Gesso) : (s.modGesso d f).poison = s.poison := rfl
@[simp] theorem modGesso_l2 (s : State) (d : Nat) (f : Gesso → Gesso) : (s.modGesso d f).l2 = s.l2 := rfl
@[simp] theorem modGesso_replicas (s : State) (d : Nat) (f : Gesso → Gesso) : (s.modGesso d f).replicas = s.replicas := rfl
@[simp] theorem modGesso_frames (s : State) (d : Nat) (f : Gesso → Gesso) : (s.modGesso d f).frames = s.frames := rfl
@[simp] theorem modGesso_studios (s : State) (d : Nat) (f : Gesso → Gesso) : (s.modGesso d f).studios = s.studios := rfl
@[simp] theorem modGesso_dieTlb (s : State) (d : Nat) (f : Gesso → Gesso) : (s.modGesso d f).dieTlb = s.dieTlb := rfl
@[simp] theorem modGesso_svs (s : State) (d : Nat) (f : Gesso → Gesso) : (s.modGesso d f).svs = s.svs := rfl
@[simp] theorem modGesso_units (s : State) (d : Nat) (f : Gesso → Gesso) : (s.modGesso d f).units = s.units := rfl
@[simp] theorem modGesso_arenas (s : State) (d : Nat) (f : Gesso → Gesso) : (s.modGesso d f).arenas = s.arenas := rfl
@[simp] theorem modGesso_pages (s : State) (d : Nat) (f : Gesso → Gesso) : (s.modGesso d f).pages = s.pages := rfl
@[simp] theorem modGesso_sweeps (s : State) (d : Nat) (f : Gesso → Gesso) : (s.modGesso d f).sweeps = s.sweeps := rfl
@[simp] theorem modGesso_sealbs (s : State) (d : Nat) (f : Gesso → Gesso) : (s.modGesso d f).sealbs = s.sealbs := rfl
@[simp] theorem modGesso_shoots (s : State) (d : Nat) (f : Gesso → Gesso) : (s.modGesso d f).shoots = s.shoots := rfl
@[simp] theorem modGesso_views (s : State) (d : Nat) (f : Gesso → Gesso) : (s.modGesso d f).views = s.views := rfl
@[simp] theorem modGesso_ctxs (s : State) (d : Nat) (f : Gesso → Gesso) : (s.modGesso d f).ctxs = s.ctxs := rfl
@[simp] theorem modGesso_tasks (s : State) (d : Nat) (f : Gesso → Gesso) : (s.modGesso d f).tasks = s.tasks := rfl
@[simp] theorem modGesso_cells (s : State) (d : Nat) (f : Gesso → Gesso) : (s.modGesso d f).cells = s.cells := rfl
@[simp] theorem modGesso_ckpts (s : State) (d : Nat) (f : Gesso → Gesso) : (s.modGesso d f).ckpts = s.ckpts := rfl
@[simp] theorem modGesso_rounds (s : State) (d : Nat) (f : Gesso → Gesso) : (s.modGesso d f).rounds = s.rounds := rfl
@[simp] theorem modGesso_packets (s : State) (d : Nat) (f : Gesso → Gesso) : (s.modGesso d f).packets = s.packets := rfl
@[simp] theorem modGesso_routers (s : State) (d : Nat) (f : Gesso → Gesso) : (s.modGesso d f).routers = s.routers := rfl
@[simp] theorem modGesso_landed (s : State) (d : Nat) (f : Gesso → Gesso) : (s.modGesso d f).landed = s.landed := rfl
@[simp] theorem modGesso_held (s : State) (d : Nat) (f : Gesso → Gesso) : (s.modGesso d f).held = s.held := rfl
@[simp] theorem modGesso_ctlLog (s : State) (d : Nat) (f : Gesso → Gesso) : (s.modGesso d f).ctlLog = s.ctlLog := rfl
@[simp] theorem modGesso_module (s : State) (d : Nat) (f : Gesso → Gesso) : (s.modGesso d f).module = s.module := rfl
@[simp] theorem modGesso_agenda (s : State) (d : Nat) (f : Gesso → Gesso) : (s.modGesso d f).agenda = s.agenda := rfl
@[simp] theorem modGesso_cur (s : State) (d : Nat) (f : Gesso → Gesso) : (s.modGesso d f).cur = s.cur := rfl
@[simp] theorem modGesso_fresh (s : State) (d : Nat) (f : Gesso → Gesso) : (s.modGesso d f).fresh = s.fresh := rfl

/-! ### setMemByte -/

@[simp] theorem setMemByte_poison (s : State) (pa : Nat) (b : BitVec 8) : (s.setMemByte pa b).poison = s.poison := rfl
@[simp] theorem setMemByte_l2 (s : State) (pa : Nat) (b : BitVec 8) : (s.setMemByte pa b).l2 = s.l2 := rfl
@[simp] theorem setMemByte_replicas (s : State) (pa : Nat) (b : BitVec 8) : (s.setMemByte pa b).replicas = s.replicas := rfl
@[simp] theorem setMemByte_frames (s : State) (pa : Nat) (b : BitVec 8) : (s.setMemByte pa b).frames = s.frames := rfl
@[simp] theorem setMemByte_studios (s : State) (pa : Nat) (b : BitVec 8) : (s.setMemByte pa b).studios = s.studios := rfl
@[simp] theorem setMemByte_dieTlb (s : State) (pa : Nat) (b : BitVec 8) : (s.setMemByte pa b).dieTlb = s.dieTlb := rfl
@[simp] theorem setMemByte_svs (s : State) (pa : Nat) (b : BitVec 8) : (s.setMemByte pa b).svs = s.svs := rfl
@[simp] theorem setMemByte_units (s : State) (pa : Nat) (b : BitVec 8) : (s.setMemByte pa b).units = s.units := rfl
@[simp] theorem setMemByte_arenas (s : State) (pa : Nat) (b : BitVec 8) : (s.setMemByte pa b).arenas = s.arenas := rfl
@[simp] theorem setMemByte_pages (s : State) (pa : Nat) (b : BitVec 8) : (s.setMemByte pa b).pages = s.pages := rfl
@[simp] theorem setMemByte_sweeps (s : State) (pa : Nat) (b : BitVec 8) : (s.setMemByte pa b).sweeps = s.sweeps := rfl
@[simp] theorem setMemByte_sealbs (s : State) (pa : Nat) (b : BitVec 8) : (s.setMemByte pa b).sealbs = s.sealbs := rfl
@[simp] theorem setMemByte_shoots (s : State) (pa : Nat) (b : BitVec 8) : (s.setMemByte pa b).shoots = s.shoots := rfl
@[simp] theorem setMemByte_views (s : State) (pa : Nat) (b : BitVec 8) : (s.setMemByte pa b).views = s.views := rfl
@[simp] theorem setMemByte_ctxs (s : State) (pa : Nat) (b : BitVec 8) : (s.setMemByte pa b).ctxs = s.ctxs := rfl
@[simp] theorem setMemByte_tasks (s : State) (pa : Nat) (b : BitVec 8) : (s.setMemByte pa b).tasks = s.tasks := rfl
@[simp] theorem setMemByte_cells (s : State) (pa : Nat) (b : BitVec 8) : (s.setMemByte pa b).cells = s.cells := rfl
@[simp] theorem setMemByte_gesso (s : State) (pa : Nat) (b : BitVec 8) : (s.setMemByte pa b).gesso = s.gesso := rfl
@[simp] theorem setMemByte_ckpts (s : State) (pa : Nat) (b : BitVec 8) : (s.setMemByte pa b).ckpts = s.ckpts := rfl
@[simp] theorem setMemByte_rounds (s : State) (pa : Nat) (b : BitVec 8) : (s.setMemByte pa b).rounds = s.rounds := rfl
@[simp] theorem setMemByte_packets (s : State) (pa : Nat) (b : BitVec 8) : (s.setMemByte pa b).packets = s.packets := rfl
@[simp] theorem setMemByte_routers (s : State) (pa : Nat) (b : BitVec 8) : (s.setMemByte pa b).routers = s.routers := rfl
@[simp] theorem setMemByte_landed (s : State) (pa : Nat) (b : BitVec 8) : (s.setMemByte pa b).landed = s.landed := rfl
@[simp] theorem setMemByte_held (s : State) (pa : Nat) (b : BitVec 8) : (s.setMemByte pa b).held = s.held := rfl
@[simp] theorem setMemByte_ctlLog (s : State) (pa : Nat) (b : BitVec 8) : (s.setMemByte pa b).ctlLog = s.ctlLog := rfl
@[simp] theorem setMemByte_module (s : State) (pa : Nat) (b : BitVec 8) : (s.setMemByte pa b).module = s.module := rfl
@[simp] theorem setMemByte_agenda (s : State) (pa : Nat) (b : BitVec 8) : (s.setMemByte pa b).agenda = s.agenda := rfl
@[simp] theorem setMemByte_cur (s : State) (pa : Nat) (b : BitVec 8) : (s.setMemByte pa b).cur = s.cur := rfl
@[simp] theorem setMemByte_fresh (s : State) (pa : Nat) (b : BitVec 8) : (s.setMemByte pa b).fresh = s.fresh := rfl

/-! ### tick -/

@[simp] theorem tick_mem (s : State) : s.tick.mem = s.mem := rfl
@[simp] theorem tick_poison (s : State) : s.tick.poison = s.poison := rfl
@[simp] theorem tick_l2 (s : State) : s.tick.l2 = s.l2 := rfl
@[simp] theorem tick_replicas (s : State) : s.tick.replicas = s.replicas := rfl
@[simp] theorem tick_frames (s : State) : s.tick.frames = s.frames := rfl
@[simp] theorem tick_studios (s : State) : s.tick.studios = s.studios := rfl
@[simp] theorem tick_dieTlb (s : State) : s.tick.dieTlb = s.dieTlb := rfl
@[simp] theorem tick_svs (s : State) : s.tick.svs = s.svs := rfl
@[simp] theorem tick_units (s : State) : s.tick.units = s.units := rfl
@[simp] theorem tick_arenas (s : State) : s.tick.arenas = s.arenas := rfl
@[simp] theorem tick_pages (s : State) : s.tick.pages = s.pages := rfl
@[simp] theorem tick_sweeps (s : State) : s.tick.sweeps = s.sweeps := rfl
@[simp] theorem tick_sealbs (s : State) : s.tick.sealbs = s.sealbs := rfl
@[simp] theorem tick_shoots (s : State) : s.tick.shoots = s.shoots := rfl
@[simp] theorem tick_views (s : State) : s.tick.views = s.views := rfl
@[simp] theorem tick_ctxs (s : State) : s.tick.ctxs = s.ctxs := rfl
@[simp] theorem tick_tasks (s : State) : s.tick.tasks = s.tasks := rfl
@[simp] theorem tick_cells (s : State) : s.tick.cells = s.cells := rfl
@[simp] theorem tick_gesso (s : State) : s.tick.gesso = s.gesso := rfl
@[simp] theorem tick_ckpts (s : State) : s.tick.ckpts = s.ckpts := rfl
@[simp] theorem tick_rounds (s : State) : s.tick.rounds = s.rounds := rfl
@[simp] theorem tick_packets (s : State) : s.tick.packets = s.packets := rfl
@[simp] theorem tick_routers (s : State) : s.tick.routers = s.routers := rfl
@[simp] theorem tick_landed (s : State) : s.tick.landed = s.landed := rfl
@[simp] theorem tick_held (s : State) : s.tick.held = s.held := rfl
@[simp] theorem tick_ctlLog (s : State) : s.tick.ctlLog = s.ctlLog := rfl
@[simp] theorem tick_module (s : State) : s.tick.module = s.module := rfl
@[simp] theorem tick_agenda (s : State) : s.tick.agenda = s.agenda := rfl
@[simp] theorem tick_cur (s : State) : s.tick.cur = s.cur := rfl

/-! ### Reading back -/

@[simp] theorem cell_setCell_same (s : State) (c : Nat) (v : Cell) : (s.setCell c v).cell c = v := by simp [cell, setCell]
theorem cell_setCell_ne (s : State) {c d : Nat} (h : d ≠ c) (v : Cell) : (s.setCell c v).cell d = s.cell d := by
  simp [cell, setCell, Map.getD_ins_ne h]
@[simp] theorem cell_modCell_same (s : State) (c : Nat) (f : Cell → Cell) : (s.modCell c f).cell c = f (s.cell c) := by
  simp [modCell]
theorem cell_modCell_ne (s : State) {c d : Nat} (h : d ≠ c) (f : Cell → Cell) : (s.modCell c f).cell d = s.cell d := by
  simp [modCell, cell_setCell_ne s h]
@[simp] theorem cc_modCc (s : State) (f : Cell → Cell) : (s.modCc f).cc = f s.cc := by
  simp [cc, modCc]
@[simp] theorem cg_modCg (s : State) (f : Group → Group) : (s.modCg f).cg = f s.cg := by
  simp [cg, modCg, modGroup, setGroup, group]
theorem group_modGroup_same (s : State) (r : GRef) (f : Group → Group) : (s.modGroup r f).group r = f (s.group r) := by
  simp [modGroup, setGroup, group]
theorem group_modGroup_ne (s : State) {r q : GRef} (h : q ≠ r) (f : Group → Group) : (s.modGroup r f).group q = s.group q := by
  obtain ⟨c, g⟩ := r
  obtain ⟨c', g'⟩ := q
  by_cases hc : c' = c
  · subst hc
    have hg : g' ≠ g := fun hg => h (by rw [hg])
    simp [modGroup, setGroup, group, Map.getD_ins_ne hg]
  · simp [modGroup, setGroup, group, cell_modCell_ne _ hc]
@[simp] theorem crun_modRun (s : State) (f : Run → Run) : (s.modRun f).crun = f s.crun := by
  simp [crun, modRun]
@[simp] theorem studio_modStudio_same (s : State) (k : Nat) (f : Studio → Studio) : (s.modStudio k f).studio k = f (s.studio k) := by
  simp [studio, modStudio]
theorem studio_modStudio_ne (s : State) {k j : Nat} (h : j ≠ k) (f : Studio → Studio) : (s.modStudio k f).studio j = s.studio j := by
  simp [studio, modStudio, Map.getD_ins_ne h]
@[simp] theorem ctx_modCtx_same (s : State) (c : Nat) (f : Ctx → Ctx) : (s.modCtx c f).ctx c = f (s.ctx c) := by
  simp [ctx, modCtx]
theorem ctx_modCtx_ne (s : State) {c d : Nat} (h : d ≠ c) (f : Ctx → Ctx) : (s.modCtx c f).ctx d = s.ctx d := by
  simp [ctx, modCtx, Map.getD_ins_ne h]
@[simp] theorem arena_modArena_same (s : State) (a : Nat) (f : Arena → Arena) : (s.modArena a f).arena a = f (s.arena a) := by
  simp [arena, modArena]
theorem arena_modArena_ne (s : State) {a b : Nat} (h : b ≠ a) (f : Arena → Arena) : (s.modArena a f).arena b = s.arena b := by
  simp [arena, modArena, Map.getD_ins_ne h]
@[simp] theorem view_modView_same (s : State) (v : Nat) (f : View → View) : (s.modView v f).view v = f (s.view v) := by
  simp [view, modView]
theorem view_modView_ne (s : State) {v w : Nat} (h : w ≠ v) (f : View → View) : (s.modView v f).view w = s.view w := by
  simp [view, modView, Map.getD_ins_ne h]
@[simp] theorem module_modModule (s : State) (f : Module → Module) : (s.modModule f).module = f s.module := rfl
@[simp] theorem fresh_tick (s : State) : s.tick.fresh = s.fresh + 1 := rfl

/-! ### Bytes of memory -/

@[simp] theorem memByte_setMemByte_same (s : State) (pa : Nat) (b : BitVec 8) : (s.setMemByte pa b).memByte pa = b := by
  simp [memByte, setMemByte]
theorem memByte_setMemByte_ne (s : State) {pa q : Nat} (h : q ≠ pa) (b : BitVec 8) : (s.setMemByte pa b).memByte q = s.memByte q := by
  simp [memByte, setMemByte, Map.getD_put_ne h]

/-! ### Registers of a cell -/

@[simp] theorem vreg_setV_same (c : Cell) (cl i : Nat) (x : BitVec 32) : (c.setV cl i x).vreg cl i = x := by
  simp [Cell.vreg, Cell.setV]
theorem vreg_setV_ne (c : Cell) {cl i dl j : Nat} (h : 256 * dl + j ≠ 256 * cl + i) (x : BitVec 32) :
    (c.setV cl i x).vreg dl j = c.vreg dl j := by
  simp [Cell.vreg, Cell.setV, Map.getD_put_ne h]
@[simp] theorem greg_setG_same (g : Group) (i : Nat) (x : BitVec 64) : (g.setG i x).greg i = x := by
  simp [Group.greg, Group.setG]
theorem greg_setG_ne (g : Group) {i j : Nat} (h : j ≠ i) (x : BitVec 64) : (g.setG i x).greg j = g.greg j := by
  simp [Group.greg, Group.setG, Map.getD_put_ne h]
/-- Writes of p0 are ignored (R105). -/
@[simp] theorem setPred_p0 (c : Cell) (cl : Nat) (b : Bool) : c.setPred cl 0 b = c := rfl

end Sys2Proof.Machine.State
end

