-- ==== Sys2Proof/Laws/Memory.lean ====
section
/-! SUPPORT. Every memory operation keeps the canonical form of memory (`Memory.wf`). -/
namespace Sys2Proof.Machine

/-- A property that every turn of a fold keeps holds at its end. -/
theorem foldl_keeps {σ β : Type} {P : σ → Prop} {f : σ → β → σ} (hf : ∀ s x, P s → P (f s x)) :
    ∀ (l : List β) {s : σ}, P s → P (l.foldl f s)
  | [], _, h => h
  | x :: r, _, h => foldl_keeps hf r (hf _ x h)

theorem Memory.wf_iff {m : List Host.Cell} :
    Memory.wf m = true ↔ Map.rising m = true ∧ ∀ e ∈ m, e.2 ≠ Memory.default := by
  simp [Memory.wf]
theorem Memory.wf_put (pa : Nat) (b : BitVec 8) {m : List Host.Cell} (h : Memory.wf m = true) :
    Memory.wf (Map.put Memory.default pa b m) = true := by
  obtain ⟨hr, hd⟩ := Memory.wf_iff.mp h
  unfold Map.put
  split
  · exact Memory.wf_iff.mpr ⟨Map.rising_del _ hr, fun e he => hd e (Map.mem_del he)⟩
  · refine Memory.wf_iff.mpr ⟨Map.rising_ins _ _ hr, fun e he => ?_⟩
    rcases Map.mem_ins he with rfl | he
    · assumption
    · exact hd e he
theorem Memory.wf_filter (p : Host.Cell → Bool) {m : List Host.Cell} (h : Memory.wf m = true) : Memory.wf (m.filter p) = true := by
  obtain ⟨hr, hd⟩ := Memory.wf_iff.mp h
  exact Memory.wf_iff.mpr ⟨Map.rising_filter p hr, fun e he => hd e (List.mem_filter.mp he).1⟩

namespace State

/-- The memory of a state stands in its canonical form. -/
abbrev MemOk (s : State) : Prop := Memory.wf s.mem = true

theorem memOk_reset : State.reset.MemOk := rfl
/-- Updates that leave memory alone keep its form. -/
theorem memOk_of_eq {s t : State} (h : t.mem = s.mem) (hs : s.MemOk) : t.MemOk := by simpa [MemOk, h] using hs

theorem memOk_setMemByte (pa : Nat) (b : BitVec 8) {s : State} (h : s.MemOk) : (s.setMemByte pa b).MemOk := Memory.wf_put pa b h
theorem memOk_addJournal (d : Nat) (f : Gesso → Gesso) {s : State} (h : s.MemOk) : (s.addJournal d f).MemOk := by
  unfold addJournal
  dsimp only
  split <;> exact h
theorem memOk_recordUndo (c ln : Nat) {s : State} (h : s.MemOk) : (s.recordUndo c ln).MemOk := by
  unfold recordUndo
  split
  · exact h
  · exact memOk_addJournal _ _ h
theorem memOk_memWriteLine (ln : Nat) (l : Line) {s : State} (h : s.MemOk) : (s.memWriteLine ln l).MemOk := by
  have h1 : (if l.rcv then s.recordUndo l.ctx ln else s).MemOk := by
    split
    · exact memOk_recordUndo _ _ h
    · exact h
  have h2 : ((List.range 128).foldl (fun s i => if l.dirty.getLsbD i then s.setMemByte (128 * ln + i) (lineByte l i) else s)
      (if l.rcv then s.recordUndo l.ctx ln else s)).MemOk := by
    refine foldl_keeps (fun t i ht => ?_) _ h1
    split
    · exact memOk_setMemByte _ _ ht
    · exact ht
  unfold memWriteLine
  dsimp only
  split
  · exact h
  · split <;> exact h2
theorem memOk_fireWhere (ln : Nat) (p : Nat → Bool) {s : State} (h : s.MemOk) : (s.fireWhere ln p).MemOk := h
theorem memOk_fireIn (ln k : Nat) {s : State} (h : s.MemOk) : (s.fireIn ln k).MemOk := h
theorem memOk_fireHome (ln : Nat) (k : Option Nat) {s : State} (h : s.MemOk) : (s.fireHome ln k).MemOk := h
theorem memOk_tick {s : State} (h : s.MemOk) : s.tick.MemOk := h
theorem memOk_mergeHome (ln : Nat) (l : Line) {s : State} (h : s.MemOk) : (s.mergeHome ln l).MemOk := by
  unfold mergeHome
  split
  · exact h
  · exact memOk_memWriteLine _ _ h
theorem memOk_homeMerge (ln : Nat) (l : Line) (k : Option Nat) {s : State} (h : s.MemOk) : (s.homeMerge ln l k).MemOk :=
  memOk_mergeHome _ _ (memOk_fireHome _ _ h)
theorem memOk_wbL2 (ln : Nat) {s : State} (h : s.MemOk) : (s.wbL2 ln).MemOk := by
  unfold wbL2
  split
  · split
    · exact h
    · exact memOk_memWriteLine _ _ h
  · exact h
theorem memOk_roomL2 (j ln : Nat) {s : State} (h : s.MemOk) : (s.roomL2 j ln).MemOk := by
  unfold roomL2
  dsimp only
  split
  · exact h
  · split
    · exact h
    · split
      · split
        · exact memOk_tick h
        · exact memOk_wbL2 _ (memOk_tick h)
      · exact h
theorem memOk_addL2 (ln : Nat) (l : Line) {s : State} (h : s.MemOk) : (s.addL2 ln l).MemOk := memOk_roomL2 _ _ h
theorem memOk_bypass (t : Tag) (ln : Nat) {s : State} (h : s.MemOk) : (s.bypass t ln).MemOk := by
  unfold bypass
  split <;> exact h
theorem memOk_fillL2 (t : Tag) (ln : Nat) {s : State} (h : s.MemOk) : (s.fillL2 t ln).MemOk := by
  unfold fillL2
  split
  · exact h
  · split
    · exact memOk_bypass _ _ h
    · exact memOk_addL2 _ _ h
theorem memOk_setL1 (k ln : Nat) (l : Line) {s : State} (h : s.MemOk) : (s.setL1 k ln l).MemOk := h
theorem memOk_undoFirst (t : Tag) (ln : Nat) {s : State} (h : s.MemOk) : (s.undoFirst t ln).MemOk := by
  unfold undoFirst
  split
  · exact memOk_recordUndo _ _ h
  · exact h
theorem memOk_homeStore (t : Tag) (pa : Nat) (bs : List (BitVec 8)) (k : Option Nat) {s : State} (h : s.MemOk) :
    (s.homeStore t pa bs k).MemOk := memOk_homeMerge _ _ _ (memOk_undoFirst _ _ h)
theorem memOk_homeWrite (t : Tag) (pa : Nat) (bs : List (BitVec 8)) (k : Option Nat) {s : State} (h : s.MemOk) :
    (s.homeWrite t pa bs k).MemOk := memOk_homeStore _ _ _ _ (memOk_fillL2 _ _ h)
theorem memOk_meetTarget (ln : Nat) (io : Bool) {s : State} (h : s.MemOk) : (s.meetTarget ln io).MemOk := by
  unfold meetTarget
  split
  · exact h
  · exact memOk_wbL2 _ h
theorem memOk_sendTarget (ln : Nat) (io : Bool) {s : State} (h : s.MemOk) : (s.sendTarget ln io).MemOk := by
  unfold sendTarget
  split
  · exact h
  · exact memOk_wbL2 _ h
theorem memOk_failTask (t : BitVec 64) (code : BitVec 8) (d : Nat) (n : Bool) {s : State} (h : s.MemOk) : (s.failTask t code d n).MemOk := by
  unfold failTask
  split
  · exact h
  · dsimp only
    split
    · exact h
    · split <;> exact h
theorem memOk_lateFault (r : GRef) (f : LateFault) {s : State} (h : s.MemOk) : (s.lateFault r f).MemOk := by
  unfold lateFault
  dsimp only
  split
  · exact h
  · split
    · exact memOk_failTask _ _ _ _ h
    · exact h
theorem memOk_redFault (a : RedApp) {s : State} (h : s.MemOk) : (s.redFault a).MemOk := by
  unfold redFault
  split
  · exact h
  · exact memOk_lateFault _ _ h
theorem memOk_applyRed (k op : Nat) (a : RedApp) {s : State} (h : s.MemOk) : (s.applyRed k op a).MemOk := by
  unfold applyRed
  split
  · exact h
  · dsimp only
    split
    · exact memOk_redFault _ (memOk_meetTarget _ _ h)
    · exact memOk_sendTarget _ _ (memOk_homeWrite _ _ _ _ (memOk_meetTarget _ _ h))
theorem memOk_mergeReds (k : Nat) (p : RedBuf → Bool) {s : State} (h : s.MemOk) : (s.mergeReds k p).MemOk := by
  unfold mergeReds
  exact foldl_keeps (fun t x ht => memOk_applyRed _ _ _ ht) _ h
theorem memOk_mergeGroup (k : Nat) (r : GRef) {s : State} (h : s.MemOk) : (s.mergeGroup k r).MemOk := memOk_mergeReds _ _ h
theorem memOk_mergeLine (ln : Nat) {s : State} (h : s.MemOk) : (s.mergeLine ln).MemOk := by
  unfold mergeLine
  exact foldl_keeps (fun t b ht => memOk_mergeReds _ _ ht) _ h
theorem memOk_wbL1 (k ln : Nat) {s : State} (h : s.MemOk) : (s.wbL1 k ln).MemOk := by
  unfold wbL1
  split
  · split
    · exact h
    · refine memOk_setL1 _ _ _ (memOk_homeMerge _ _ _ ?_)
      split
      · exact memOk_mergeLine _ h
      · exact memOk_addL2 _ _ (memOk_mergeLine _ h)
  · exact h
theorem memOk_dropL1 (k ln : Nat) {s : State} (h : s.MemOk) : (s.dropL1 k ln).MemOk := by
  unfold dropL1
  split <;> exact h
theorem memOk_roomL1 (k ln : Nat) {s : State} (h : s.MemOk) : (s.roomL1 k ln).MemOk := by
  unfold roomL1
  dsimp only
  split
  · exact h
  · split
    · exact h
    · split
      · exact memOk_dropL1 _ _ (memOk_wbL1 _ _ (memOk_tick h))
      · exact h
theorem memOk_perf (k c e n : Nat) {s : State} (h : s.MemOk) : (s.perf k c e n).MemOk := by
  unfold perf
  split <;> exact h
theorem memOk_fillTlb (k : Nat) (e : TlbEntry) {s : State} (h : s.MemOk) : (s.fillTlb k e).MemOk := h
theorem memOk_fillDieTlb (d : Nat) (e : TlbEntry) {s : State} (h : s.MemOk) : (s.fillDieTlb d e).MemOk := h
theorem memOk_walkFill (k c v va : Nat) {s : State} (h : s.MemOk) : (s.walkFill k c v va).1.MemOk := by
  unfold walkFill
  split
  · exact h
  · split
    · exact h
    · dsimp only
      split <;> exact h
theorem memOk_overFill (k c v va : Nat) (leaf : BitVec 64) (g : BitVec 4) {s : State} (h : s.MemOk) : (s.overFill k c v va leaf g).MemOk := by
  have h1 := memOk_perf k c 6 1 h
  unfold overFill
  dsimp only
  split
  · exact h
  · split
    · exact memOk_tick (memOk_fillTlb _ _ h1)
    · exact memOk_tick (memOk_fillDieTlb _ _ (memOk_fillTlb _ _ (memOk_perf _ _ _ _ h1)))
theorem memOk_translate (k c v va : Nat) {s : State} (h : s.MemOk) : (s.translate k c v va).1.MemOk := by
  unfold translate
  have h1 := memOk_perf k c 6 1 h
  split
  · exact memOk_overFill _ _ _ _ _ _ h
  · split
    · split
      · exact h
      · exact memOk_walkFill _ _ _ _ h
    · dsimp only
      split
      · split
        · exact memOk_tick (memOk_fillTlb _ _ h1)
        · exact memOk_walkFill _ _ _ _ h1
      · exact memOk_walkFill _ _ _ _ (memOk_perf _ _ _ _ h1)
theorem memOk_addCharge (a n : Nat) {s : State} (h : s.MemOk) : (s.addCharge a n).MemOk := by
  unfold addCharge
  refine foldl_keeps (fun t x ht => ?_) _ h
  exact ht
theorem memOk_subCharge (a n : Nat) {s : State} (h : s.MemOk) : (s.subCharge a n).MemOk := by
  unfold subCharge
  refine foldl_keeps (fun t x ht => ?_) _ h
  exact ht
theorem memOk_chargePages {a n : Nat} {s t : State} (h : s.MemOk) (ht : s.chargePages a n = some t) : t.MemOk := by
  unfold chargePages at ht
  dsimp only at ht
  split at ht
  · cases ht
  · cases ht; exact memOk_addCharge _ _ h
theorem memOk_giveFrames (f n : Nat) {s : State} (h : s.MemOk) : (s.giveFrames f n).MemOk := by
  unfold giveFrames
  refine foldl_keeps (fun t j ht => ?_) _ h
  exact ht
theorem memOk_takeFrames {n f : Nat} {s t : State} (h : s.MemOk) (ht : s.takeFrames n = some (f, t)) : t.MemOk := by
  unfold takeFrames at ht
  simp only [Option.map_eq_some_iff] at ht
  obtain ⟨i, -, hi⟩ := ht
  cases hi
  exact memOk_giveFrames _ _ h
theorem memOk_fireFrame (f : Nat) {s : State} (h : s.MemOk) : (s.fireFrame f).MemOk := by
  unfold fireFrame
  exact foldl_keeps (fun _ _ ht => memOk_fireIn _ _ ht) _ h
theorem memOk_freeFrame (f : Nat) {s : State} (h : s.MemOk) : (s.freeFrame f).MemOk := Memory.wf_filter _ (memOk_fireFrame f h)
theorem memOk_zeroFrame (f : Nat) {s : State} (h : s.MemOk) : (s.zeroFrame f).MemOk := Memory.wf_filter _ h
theorem memOk_setLeafAt (a : Nat) (v : BitVec 64) {s : State} (h : s.MemOk) : (s.setLeafAt a v).MemOk := memOk_homeWrite _ _ _ _ h
theorem wf_fillBytes (f n : Nat) {m : List Host.Cell} (h : Memory.wf m = true) : Memory.wf (fillBytes f n m) = true := by
  unfold fillBytes
  exact foldl_keeps (P := fun m => Memory.wf m = true) (fun m i hm => Memory.wf_put _ _ hm) _ h
@[simp] theorem freshPins_mem (s : State) (f : Nat) : (s.freshPins f).mem = s.mem := rfl
theorem memOk_freshPins (f : Nat) {s : State} (h : s.MemOk) : (s.freshPins f).MemOk := memOk_of_eq (freshPins_mem s f) h
theorem memOk_freeFill (f : Nat) {s : State} (h : s.MemOk) : (s.freeFill f).MemOk := by
  have h1 : Memory.wf (fillBytes f s.fresh (s.freeFrame f).mem) = true := wf_fillBytes _ _ (memOk_freeFrame f h)
  unfold freeFill
  refine memOk_freshPins f ?_
  simpa only [MemOk] using h1
theorem memOk_chargeTouch {c va : Nat} {leaf : BitVec 64} {s t : State} (h : s.MemOk) (ht : s.chargeTouch c va leaf = some t) :
    t.MemOk := by
  unfold chargeTouch at ht
  split at ht
  · cases ht; exact h
  · simp only [Option.map_eq_some_iff] at ht
    obtain ⟨u, hu, ht⟩ := ht
    have h1 := memOk_chargePages h hu
    subst ht
    split
    · exact h1
    · split
      · exact memOk_freeFill _ h1
      · exact h1
theorem memOk_carryUndo (g : Nat) (us : List (Nat × Undo)) {s : State} (h : s.MemOk) : (s.carryUndo g us).MemOk := by
  induction us with
  | nil => exact h
  | cons _ _ ih => exact ih
theorem memOk_copyLines (src f : Nat) {s : State} (h : s.MemOk) : (s.copyLines src f).MemOk := by
  unfold copyLines
  refine memOk_freshPins f ?_
  refine foldl_keeps (fun t i ht => ?_) _ h
  exact foldl_keeps (P := fun m => Memory.wf m = true) (fun m b hm => Memory.wf_put _ _ hm) _ ht
theorem memOk_settleFrame (f : Nat) {s : State} (h : s.MemOk) : (s.settleFrame f).MemOk := by
  unfold settleFrame
  exact foldl_keeps (fun t i ht => memOk_wbL1 _ _ ht) _ (foldl_keeps (fun t j ht => memOk_mergeReds _ _ ht) _ h)
theorem memOk_copyPage (src f : Nat) {s : State} (h : s.MemOk) : (s.copyPage src f).MemOk := by
  have h1 := memOk_copyLines src f (memOk_zeroFrame f (memOk_settleFrame (src / 65536) h))
  simpa only [MemOk, copyPage] using h1
theorem memOk_moveFrame (f g : Nat) {s : State} (h : s.MemOk) : (s.moveFrame f g).MemOk := by
  unfold moveFrame
  refine memOk_freshPins g ?_
  exact foldl_keeps (P := fun m => Memory.wf m = true) (fun m b hm => Memory.wf_put _ _ hm) _
    (memOk_carryUndo _ _ (memOk_giveFrames _ _ (memOk_freeFrame _ (foldl_keeps (fun t ln ht => memOk_wbL2 _ ht) _ (memOk_settleFrame _ h)))))
theorem memOk_installOverlay (c v va : Nat) (x : Xlat) (leaf : BitVec 64) {s : State} (h : s.MemOk) :
    (s.installOverlay c v va x leaf).MemOk := by
  unfold installOverlay
  dsimp only
  split
  · exact h
  · split
    · exact memOk_setLeafAt _ _ h
    · exact h
theorem memOk_copyOnWrite {c v va : Nat} {x : Xlat} {s t : State} (h : s.MemOk) (ht : s.copyOnWrite c v va x = .ok t) :
    t.MemOk := by
  unfold copyOnWrite at ht
  split at ht
  · cases ht; exact h
  · dsimp only at ht
    split at ht
    · cases ht
    · rename_i u hu
      split at ht
      · cases ht
      · rename_i f w hw
        cases ht
        exact memOk_installOverlay _ _ _ _ _ (memOk_copyPage _ _ (memOk_takeFrames (memOk_chargePages h hu) hw))

theorem memOk_touch {w : Who} {a : Acc} {va : Nat} {x : Xlat} {s t : State} {y : Option Xlat} (h : s.MemOk)
    (ht : s.touch w a va x = .ok (t, y)) : t.MemOk := by
  unfold touch at ht
  split at ht
  · cases ht
  · split at ht
    · cases ht
    · rename_i u hu
      have h1 := memOk_chargeTouch h hu
      split at ht
      · split at ht
        · cases ht
        · rename_i v hv
          cases ht
          exact memOk_copyOnWrite h1 hv
      · cases ht
        split
        · exact memOk_recordUndo _ _ h1
        · exact h1
theorem memOk_checkOne {w : Who} {a : Acc} {va : Nat} {s t : State} {y : Option Xlat} (h : s.MemOk)
    (ht : s.checkOne w a va = .ok (t, y)) : t.MemOk := by
  have h0 := memOk_translate w.k w.ctx w.view va h
  unfold checkOne at ht
  split at ht
  · cases ht
  · split at ht
    · cases ht
    · rename_i u x hu
      rw [hu] at h0
      split at ht
      · cases ht
      · split at ht
        · cases ht; exact h0
        · exact memOk_touch h0 ht
theorem memOk_addReplica (k ln : Nat) (l : Line) {s : State} (h : s.MemOk) : (s.addReplica k ln l).MemOk := by
  unfold addReplica
  dsimp only
  split
  · exact h
  · exact memOk_roomL2 _ _ h
theorem memOk_fillL1 (k : Nat) (t : Tag) (ln : Nat) (data : List (BitVec 8)) {s : State} (h : s.MemOk) : (s.fillL1 k t ln data).MemOk :=
  memOk_setL1 _ _ _ (memOk_roomL1 _ _ h)
theorem memOk_readFill (k : Nat) (t : Tag) (ln : Nat) (data : List (BitVec 8)) (rep served l1 : Bool) {s : State} (h : s.MemOk) :
    (s.readFill k t ln data rep served l1).MemOk := by
  have h1 : (if rep then s.addReplica k ln (t.line data) else s).MemOk := by
    split
    · exact memOk_addReplica _ _ _ h
    · exact h
  unfold readFill
  dsimp only
  generalize (if rep then s.addReplica k ln (t.line data) else s) = u at h1
  have h2 : (if served then u else u.fillL2 t ln).MemOk := by
    split
    · exact h1
    · exact memOk_fillL2 _ _ h1
  split
  · exact memOk_fillL1 _ _ _ _ h2
  · exact h2
theorem memOk_refreshL1 (k ln : Nat) {s : State} (h : s.MemOk) : (s.refreshL1 k ln).MemOk := by
  unfold refreshL1
  split <;> exact h
theorem memOk_readAt (k : Nat) (t : Tag) (atHome : Bool) (pa n : Nat) {s : State} (h : s.MemOk) : (s.readAt k t atHome pa n).1.MemOk := by
  unfold readAt
  dsimp only
  split
  · exact h
  · dsimp only
    have h0 : (if (atHome || !t.l1 || t.again) = true then s else s.perf k t.ctx 5).MemOk := by
      split
      · exact h
      · exact memOk_perf _ _ _ _ h
    generalize (if (atHome || !t.l1 || t.again) = true then s else s.perf k t.ctx 5) = v at h0
    have h1 := memOk_mergeLine (pa / 128) (memOk_wbL1 k (pa / 128) h0)
    generalize ((v.wbL1 k (pa / 128)).mergeLine (pa / 128)) = u at h1
    have h2 : (if t.direct = true then u.meetTarget (pa / 128) t.io else u).MemOk := by
      split
      · exact memOk_meetTarget _ _ h1
      · exact h1
    generalize (if t.direct = true then u.meetTarget (pa / 128) t.io else u) = w at h2
    have h3 : ∀ b : Bool, ∀ d r q l, (if b then w.bypass t (pa / 128) else w.readFill k t (pa / 128) d r q l).MemOk := by
      intro b d r q l
      split
      · exact memOk_bypass _ _ h2
      · exact memOk_readFill _ _ _ _ _ _ _ h2
    split
    · exact memOk_refreshL1 _ _ (h3 _ _ _ _ _)
    · exact h3 _ _ _ _ _
theorem memOk_writeAt (k : Nat) (t : Tag) (atHome : Bool) (pa : Nat) (bs : List (BitVec 8)) {s : State} (h : s.MemOk) :
    (s.writeAt k t atHome pa bs).MemOk := by
  have h1 := memOk_fireIn (pa / 128) k h
  unfold writeAt
  dsimp only
  generalize s.fireIn (pa / 128) k = u at h1
  split
  · have h2 : (if t.rcv then u.recordUndo t.ctx (pa / 128) else u).MemOk := by
      split
      · exact memOk_recordUndo _ _ h1
      · exact h1
    generalize (if t.rcv then u.recordUndo t.ctx (pa / 128) else u) = u2 at h2
    have h3 : (if t.again = true then u2 else u2.perf k t.ctx 5).MemOk := by
      split
      · exact h2
      · exact memOk_perf _ _ _ _ h2
    generalize (if t.again = true then u2 else u2.perf k t.ctx 5) = u3 at h3
    have h3 := memOk_readFill k t (pa / 128) ((u3.mergeLine (pa / 128)).homeLine (pa / 128)) false false true
      (memOk_mergeLine (pa / 128) h3)
    have h4 : ∀ (w : State) (f : Line → Line), w.MemOk →
        (match w.l1Live k (pa / 128) with | some l => w.setL1 k (pa / 128) (f l) | none => w).MemOk := by
      intro w f hw
      split
      · exact memOk_setL1 _ _ _ hw
      · exact hw
    refine h4 _ (fun l => { l with data := _, dirty := _, rcv := _, bad := _ }) ?_
    split
    · exact h2
    · exact h3
  · have h2 := memOk_homeWrite t pa bs (some k) (memOk_mergeLine (pa / 128) (memOk_wbL1 k (pa / 128) h1))
    refine memOk_refreshL1 _ _ ?_
    split
    · exact memOk_sendTarget _ _ h2
    · exact h2
theorem memOk_storeHome (k : Nat) (t : Tag) (pa : Nat) (bs : List (BitVec 8)) {s : State} (h : s.MemOk) : (s.storeHome k t pa bs).MemOk :=
  memOk_refreshL1 _ _ (memOk_sendTarget _ _ (memOk_homeStore _ _ _ _ (memOk_fireIn _ _ h)))
theorem memOk_landNow (l : Landing) {s : State} (h : s.MemOk) : (s.landNow l).MemOk := by
  unfold landNow
  split
  · exact h
  · split
    · exact h
    · exact memOk_refreshL1 _ _ (memOk_sendTarget _ _ (memOk_mergeHome _ _ (memOk_undoFirst _ _ (memOk_wbL1 _ _ h))))
theorem memOk_settleLanded {s : State} (h : s.MemOk) : s.settleLanded.MemOk := by
  unfold settleLanded
  exact foldl_keeps (fun _ _ ht => memOk_landNow _ ht) _ h
theorem memOk_rmwAt (k : Nat) (t : Tag) (pa n : Nat) (f : List (BitVec 8) → List (BitVec 8)) {s : State} (h : s.MemOk) :
    (s.rmwAt k t pa n f).1.MemOk := by
  have h1 := memOk_readAt k { t with direct := true } true pa n h
  unfold rmwAt
  dsimp only
  split
  · exact h1
  · exact memOk_storeHome _ _ _ _ h1
theorem memOk_releaseL1 (k : Nat) (only : Option (List Nat)) {s : State} (h : s.MemOk) : (s.releaseL1 k only).MemOk := by
  unfold releaseL1
  exact foldl_keeps (fun t ln ht => memOk_wbL1 _ _ ht) _ h
theorem memOk_learnDrop (u a : Nat) {s : State} (h : s.MemOk) : (s.learnDrop u a).MemOk := by
  unfold learnDrop
  split <;> exact h
theorem memOk_learnDrops (k : Nat) {s : State} (h : s.MemOk) : (s.learnDrops k).MemOk := by
  unfold learnDrops
  exact foldl_keeps (fun _ _ ht => memOk_learnDrop _ _ ht) _ h
theorem memOk_acquireL1 (k : Nat) (only : Option (List Nat)) {s : State} (h : s.MemOk) : (s.acquireL1 k only).MemOk := by
  unfold acquireL1
  exact foldl_keeps (fun t ln ht => memOk_dropL1 _ _ (memOk_wbL1 _ _ ht)) _ (memOk_learnDrops k h)
theorem memOk_releaseSys (only : Option (List Nat)) {s : State} (h : s.MemOk) : (s.releaseSys only).MemOk := by
  unfold releaseSys
  exact foldl_keeps (fun t l ht => memOk_wbL2 _ ht) _ h
theorem memOk_acquireSys (only : Option (List Nat)) {s : State} (h : s.MemOk) : (s.acquireSys only).MemOk := by
  unfold acquireSys
  refine foldl_keeps (fun t ln ht => ?_) _ h
  have h1 := memOk_meetTarget ln false ht
  dsimp only
  split <;> exact h1
theorem memOk_widenRelease (w : Who) (e : SvEntry) {s : State} (h : s.MemOk) : (s.widenRelease w e).MemOk := by
  unfold widenRelease
  exact foldl_keeps (fun t k ht => memOk_releaseL1 _ _ ht) _ h
theorem memOk_setSv (d : Nat) (e e' : SvEntry) {s : State} (h : s.MemOk) : (s.setSv d e e').MemOk := h
theorem memOk_inferScope (w : Who) (pa : Nat) {s : State} (h : s.MemOk) : (s.inferScope w pa).1.MemOk := by
  unfold inferScope
  split
  · exact h
  · dsimp only
    have hw : ∀ c : Bool, ∀ e, (if c then s.widenRelease w e else s).MemOk := by
      intro c e
      split
      · exact memOk_widenRelease _ _ h
      · exact h
    exact memOk_setSv _ _ _ (hw _ _)
theorem memOk_remoteScope (pa : Nat) {s : State} (h : s.MemOk) : (s.remoteScope pa).MemOk := by
  unfold remoteScope
  refine foldl_keeps (fun t e ht => ?_) _ h
  split
  · exact ht
  · exact memOk_setSv _ _ _ (memOk_widenRelease _ _ ht)

end State
end Sys2Proof.Machine
end

