-- ==== Sys2Proof/Laws/Area.lean ====
section
/-! SUPPORT. Save areas, and stores from outside, keep the canonical form of memory. -/
namespace Sys2Proof.Machine

/-- Two tables in a row, every key of the first below every key of the second. -/
theorem Map.rising_append {α : Type} {a b : Map α} (ha : Map.rising a = true) (hb : Map.rising b = true)
    (h : ∀ x ∈ a, ∀ y ∈ b, x.1 < y.1) : Map.rising (a ++ b) = true := by
  induction a with
  | nil => exact hb
  | cons e r ih =>
    obtain ⟨h1, h2⟩ := (Map.rising_cons _ _).mp ha
    refine (Map.rising_cons _ _).mpr ⟨fun x hx => ?_, ih h2 fun x hx => h x (List.mem_cons_of_mem _ hx)⟩
    rcases List.mem_append.mp hx with hx | hx
    · exact h1 x hx
    · exact h e (List.mem_cons_self ..) x hx
theorem Map.mem_splice {α : Type} {lo hi : Nat} {m r : Map α} {x : Nat × α} (h : x ∈ Map.splice lo hi m r) : x ∈ m ∨ x ∈ r := by
  simp only [Map.splice, List.mem_append, List.mem_filter] at h
  rcases h with (h | h) | h
  · exact .inl h.1
  · exact .inr h.1
  · exact .inl h.1
theorem Map.rising_splice {α : Type} {lo hi : Nat} (hlh : lo ≤ hi) {m r : Map α} (hm : Map.rising m = true) (hr : Map.rising r = true) :
    Map.rising (Map.splice lo hi m r) = true := by
  unfold Map.splice
  refine Map.rising_append (Map.rising_append (Map.rising_filter _ hm) (Map.rising_filter _ hr) ?_) (Map.rising_filter _ hm) ?_
  · intro x hx y hy
    simp only [List.mem_filter, decide_eq_true_eq] at hx hy
    omega
  · intro x hx y hy
    simp only [List.mem_append, List.mem_filter, decide_eq_true_eq] at hx hy
    omega
theorem Memory.wf_splice {lo hi : Nat} (hlh : lo ≤ hi) {m r : List Host.Cell} (hm : Memory.wf m = true) (hr : Memory.wf r = true) :
    Memory.wf (Map.splice lo hi m r) = true := by
  obtain ⟨h1, h2⟩ := Memory.wf_iff.mp hm
  obtain ⟨h3, h4⟩ := Memory.wf_iff.mp hr
  exact Memory.wf_iff.mpr ⟨Map.rising_splice hlh h1 h3, fun e he => (Map.mem_splice he).elim (h2 e) (h4 e)⟩

namespace State

theorem memOk_setBytes (pa : Nat) (bs : List (BitVec 8)) {s : State} (h : s.MemOk) : (s.setBytes pa bs).MemOk := by
  induction bs generalizing pa s with
  | nil => exact h
  | cons b r ih => exact ih _ (memOk_setMemByte _ _ h)

end State

theorem memOk_writeAreaPage (keep : Nat → Bool) (bs : List (Nat × BitVec 8)) (p f : Nat) {s : State} (h : s.MemOk) : (writeAreaPage keep bs p f s).MemOk := by
  unfold writeAreaPage
  dsimp only
  have hs : ∀ (l : List Nat) {s : State}, s.MemOk →
      (l.foldl (fun s ln => let s := s.wbL2 ln; if ((Map.find ln s.l2).getD default).pin then s else { s with l2 := Map.del ln s.l2 }) s).MemOk :=
    fun l _ h => by
      refine foldl_keeps (P := State.MemOk) (fun t ln ht => ?_) l h
      dsimp only
      split <;> exact State.memOk_wbL2 ln ht
  refine Memory.wf_splice (by omega) (hs _ h) ?_
  exact foldl_keeps (P := fun m => Memory.wf m = true) (fun m x hm => Memory.wf_put _ _ hm) _ (Memory.wf_filter _ (hs _ h))
/-- An area written keeps memory canonical. -/
theorem memOk_writePages (keep : Nat → Bool) (bs : List (Nat × BitVec 8)) (fs : List Nat) {s : State} (h : s.MemOk) :
    (writePages keep bs fs s).MemOk :=
  foldl_keeps (fun t x ht => memOk_writeAreaPage _ _ _ _ ht) _ h
/-- A cell's state written to its save area keeps memory canonical (R433). -/
theorem memOk_writeArea (n : Nat) {s : State} (h : s.MemOk) : (writeArea n s).MemOk := memOk_writePages _ _ _ h
theorem memOk_takeMany {n : Nat} {s t : State} {fs : List Nat} (h : s.MemOk) (ht : takeMany n s = some (t, fs)) : t.MemOk := by
  induction n generalizing s fs with
  | zero => simp only [takeMany, Option.some.injEq, Prod.mk.injEq] at ht; exact ht.1 ▸ h
  | succ n ih =>
    unfold takeMany at ht
    split at ht
    · cases ht
    · rename_i hf
      obtain ⟨⟨u, gs⟩, hu, he⟩ := Option.map_eq_some_iff.mp ht
      cases he
      exact ih (State.memOk_zeroFrame _ (State.memOk_takeFrames h hf)) hu

end Sys2Proof.Machine
end

