-- ==== Sys2Proof/Laws/Ops.lean ====
section
/-! SUPPORT. What issuing an instruction can do, once for every instruction. -/
namespace Sys2Proof.Machine.State
open Sys2Proof

/-- Only a held load leaves something empty. -/
theorem holdDest_of_fault {x : Raise} (h : x.hold = false) (s : State) (i : Instr) : s.holdDest i x = s := by simp [holdDest, h]
/-- A held load changes the acting group's empty bits and its run, and nothing else. -/
theorem holdDest_eq (s : State) (i : Instr) (x : Raise) :
    s.holdDest i x = s ∨ s.holdDest i x = (s.modCg fun g => (usesOf i).wr.foldl (fun g r => g.setEmpty true r) g).modRun fun u =>
      { u with heldRegs := (usesOf i).wr } := by
  unfold holdDest
  split
  · exact .inr rfl
  · exact .inr rfl
  · exact .inr rfl
  · exact .inl rfl
/-- Issuing an instruction answers a next state, whatever its effect does: the advance after its effect, or the fault's. -/
theorem issueWith_next (i : Instr) (s : State) (body : State → Except Raise (State × After)) :
    ∃ t, issueWith i s body = .next t ∧
      ((∃ x, t = (s.raise x).holdDest i x) ∨ ∃ s1 s2 a, Issues i s s1 ∧ body s1 = .ok (s2, a) ∧ t = s2.advance i a) := by
  unfold issueWith
  cases hu : s.usesCheck i with
  | error x => exact ⟨_, rfl, .inl ⟨x, rfl⟩⟩
  | ok u =>
    cases hp : s.popAll (popFields i) with
    | error x => exact ⟨(s.raise x).holdDest i x, by simp [bind, Except.bind], .inl ⟨x, rfl⟩⟩
    | ok s1 =>
      cases hb : body s1 with
      | error x => exact ⟨(s.raise x).holdDest i x, by simp [bind, Except.bind, hb], .inl ⟨x, rfl⟩⟩
      | ok r =>
        obtain ⟨s2, a⟩ := r
        exact ⟨s2.advance i a, by simp [bind, Except.bind, hb], .inr ⟨s1, s2, a, ⟨hu, hp⟩, hb, rfl⟩⟩
theorem issueWith_ok {i : Instr} {s s1 s2 : State} {a : After} {body : State → Except Raise (State × After)} (h : Issues i s s1)
    (hb : body s1 = .ok (s2, a)) : issueWith i s body = .next (s2.advance i a) := by
  simp [issueWith, h.1, h.2, bind, Except.bind, hb]
theorem issueWith_error {i : Instr} {s s1 : State} {x : Raise} {body : State → Except Raise (State × After)} (h : Issues i s s1)
    (hb : body s1 = .error x) : issueWith i s body = .next ((s.raise x).holdDest i x) := by
  simp [issueWith, h.1, h.2, bind, Except.bind, hb]
theorem issue_ok {i : Instr} {s s1 s2 : State} {body : State → Except Raise State} (h : Issues i s s1) (hb : body s1 = .ok s2) :
    issue i s body = .next (goesOn i s2) :=
  issueWith_ok h (by simp [bind, Except.bind, pure, Except.pure, hb])
theorem issue_error {i : Instr} {s s1 : State} {x : Raise} {body : State → Except Raise State} (h : Issues i s s1)
    (hb : body s1 = .error x) : issue i s body = .next ((s.raise x).holdDest i x) :=
  issueWith_error h (by simp [bind, Except.bind, hb])
theorem issueOk_ready {i : Instr} {s s1 : State} {body : State → State} (h : Issues i s s1) :
    issueOk i s body = .next (goesOn i (body s1)) :=
  issue_ok h rfl

/-- The end of a run changes the acting group's frontier and nothing else. -/
theorem endRun_eq (s : State) (cont : Nat → Option (BitVec 64)) (prio : Option (BitVec 6)) (st : Wait) :
    ∃ es, s.endRun cont prio st = s.modCg fun g => { g with entries := es, run := none, settled := false } := ⟨_, rfl⟩
/-- Going on changes the acting group's frontier and run and nothing else. -/
theorem goesOn_eq (i : Instr) (s : State) :
    ∃ f : Group → Group, goesOn i s = s.modCg f
      ∧ ∀ g, f g = { g with entries := (f g).entries, run := (f g).run, settled := (f g).settled } := by
  unfold goesOn advance
  dsimp only
  split
  · obtain ⟨es, h⟩ := endRun_eq s (fun _ => some (nextPC s.crun.pc)) none .no
    exact ⟨_, h, fun g => rfl⟩
  · exact ⟨_, rfl, fun g => rfl⟩
theorem advance_eq (i : Instr) (s : State) (a : After) :
    ∃ f : Group → Group, (s.advance i a = s.modCg f ∨ s.advance i a = s)
      ∧ ∀ g, f g = { g with entries := (f g).entries, run := (f g).run, settled := (f g).settled } := by
  cases a with
  | done => exact ⟨id, .inr rfl, fun g => rfl⟩
  | seq => obtain ⟨f, h, hf⟩ := goesOn_eq i s; exact ⟨f, .inl h, hf⟩
  | go cont prio =>
    obtain ⟨es, h⟩ := endRun_eq s
      (fun p => match cont.find? (fun x => x.1 == p) with | some x => x.2 | none => some (nextPC s.crun.pc)) prio .no
    exact ⟨_, .inl h, fun g => rfl⟩
  | wait w =>
    obtain ⟨es, h⟩ := endRun_eq s (fun _ => some (nextPC s.crun.pc)) none w
    exact ⟨_, .inl h, fun g => rfl⟩

theorem memOk_modCg (f : Group → Group) {s : State} (h : s.MemOk) : (s.modCg f).MemOk := h
theorem memOk_advance (i : Instr) (a : After) {s : State} (h : s.MemOk) : (s.advance i a).MemOk := by
  obtain ⟨f, hf | hf, -⟩ := advance_eq i s a <;> rw [hf] <;> exact h

end Sys2Proof.Machine.State
end

