-- ==== Sys2Proof/Laws/Exec.lean ====
section
/-! SUPPORT. The form of every instruction's meaning: issued with the checks of `usesCheck` and its queue pops, then its own effect. -/
namespace Sys2Proof.Machine.State
open Sys2Proof Sys2Proof.Machine

/-- The outcome is that of issuing `i` in `s` with some effect. -/
def IssueForm (i : Instr) (s : State) (x : Host.Outcome State Fault Refusal) : Prop :=
  (∃ b, x = issueWith i s b) ∨ (∃ b, x = issueResolve i s b) ∨ ∃ s' b, s'.cur = s.cur ∧ x = issueWith i s' b ∧ (s' = s ∨ (s.usesCheck i).isOk = true)
theorem ite_of {α : Type} {p : α → Prop} {c : Bool} {x y : α} (hx : c = true → p x) (hy : p y) : p (if c = true then x else y) := by
  cases c
  · exact hy
  · exact hx rfl
theorem exec_nop_form (o : AOp) (s : State) : IssueForm (.nop o) s (exec (.nop o) s) := Or.inl ⟨_, rfl⟩
theorem exec_mov_form (o : AOp) (s : State) : IssueForm (.mov o) s (exec (.mov o) s) := Or.inl ⟨_, rfl⟩
theorem exec_movi_form (o : AOp) (s : State) : IssueForm (.movi o) s (exec (.movi o) s) := Or.inl ⟨_, rfl⟩
theorem exec_movw_form (o : AOp) (s : State) : IssueForm (.movw o) s (exec (.movw o) s) := Or.inl ⟨_, rfl⟩
theorem exec_add_form (o : AOp) (s : State) : IssueForm (.add o) s (exec (.add o) s) := Or.inl ⟨_, rfl⟩
theorem exec_sub_form (o : AOp) (s : State) : IssueForm (.sub o) s (exec (.sub o) s) := Or.inl ⟨_, rfl⟩
theorem exec_addc_form (o : AOp) (s : State) : IssueForm (.addc o) s (exec (.addc o) s) := Or.inl ⟨_, rfl⟩
theorem exec_subb_form (o : AOp) (s : State) : IssueForm (.subb o) s (exec (.subb o) s) := Or.inl ⟨_, rfl⟩
theorem exec_mul_form (o : AOp) (s : State) : IssueForm (.mul o) s (exec (.mul o) s) := Or.inl ⟨_, rfl⟩
theorem exec_mulhi_form (o : AOp) (s : State) : IssueForm (.mulhi o) s (exec (.mulhi o) s) := Or.inl ⟨_, rfl⟩
theorem exec_mad_form (o : AOp) (s : State) : IssueForm (.mad o) s (exec (.mad o) s) := Or.inl ⟨_, rfl⟩
theorem exec_sad_form (o : AOp) (s : State) : IssueForm (.sad o) s (exec (.sad o) s) := Or.inl ⟨_, rfl⟩
theorem exec_neg_form (o : AOp) (s : State) : IssueForm (.neg o) s (exec (.neg o) s) := Or.inl ⟨_, rfl⟩
theorem exec_abs_form (o : AOp) (s : State) : IssueForm (.abs o) s (exec (.abs o) s) := Or.inl ⟨_, rfl⟩
theorem exec_min_form (o : AOp) (s : State) : IssueForm (.min o) s (exec (.min o) s) := Or.inl ⟨_, rfl⟩
theorem exec_max_form (o : AOp) (s : State) : IssueForm (.max o) s (exec (.max o) s) := Or.inl ⟨_, rfl⟩
theorem exec_clamp_form (o : AOp) (s : State) : IssueForm (.clamp o) s (exec (.clamp o) s) := Or.inl ⟨_, rfl⟩
theorem exec_and_form (o : AOp) (s : State) : IssueForm (.and o) s (exec (.and o) s) := Or.inl ⟨_, rfl⟩
theorem exec_or_form (o : AOp) (s : State) : IssueForm (.or o) s (exec (.or o) s) := Or.inl ⟨_, rfl⟩
theorem exec_xor_form (o : AOp) (s : State) : IssueForm (.xor o) s (exec (.xor o) s) := Or.inl ⟨_, rfl⟩
theorem exec_andn_form (o : AOp) (s : State) : IssueForm (.andn o) s (exec (.andn o) s) := Or.inl ⟨_, rfl⟩
theorem exec_not_form (o : AOp) (s : State) : IssueForm (.not o) s (exec (.not o) s) := Or.inl ⟨_, rfl⟩
theorem exec_shl_form (o : AOp) (s : State) : IssueForm (.shl o) s (exec (.shl o) s) := Or.inl ⟨_, rfl⟩
theorem exec_shr_form (o : AOp) (s : State) : IssueForm (.shr o) s (exec (.shr o) s) := Or.inl ⟨_, rfl⟩
theorem exec_sar_form (o : AOp) (s : State) : IssueForm (.sar o) s (exec (.sar o) s) := Or.inl ⟨_, rfl⟩
theorem exec_rol_form (o : AOp) (s : State) : IssueForm (.rol o) s (exec (.rol o) s) := Or.inl ⟨_, rfl⟩
theorem exec_bfx_form (o : AOp) (s : State) : IssueForm (.bfx o) s (exec (.bfx o) s) := Or.inl ⟨_, rfl⟩
theorem exec_bfi_form (o : AOp) (s : State) : IssueForm (.bfi o) s (exec (.bfi o) s) := Or.inl ⟨_, rfl⟩
theorem exec_brev_form (o : AOp) (s : State) : IssueForm (.brev o) s (exec (.brev o) s) := Or.inl ⟨_, rfl⟩
theorem exec_popc_form (o : AOp) (s : State) : IssueForm (.popc o) s (exec (.popc o) s) := Or.inl ⟨_, rfl⟩
theorem exec_clz_form (o : AOp) (s : State) : IssueForm (.clz o) s (exec (.clz o) s) := Or.inl ⟨_, rfl⟩
theorem exec_ctz_form (o : AOp) (s : State) : IssueForm (.ctz o) s (exec (.ctz o) s) := Or.inl ⟨_, rfl⟩
theorem exec_sel_form (o : AOp) (s : State) : IssueForm (.sel o) s (exec (.sel o) s) := Or.inl ⟨_, rfl⟩
theorem exec_cmp_form (o : AOp) (s : State) : IssueForm (.cmp o) s (exec (.cmp o) s) := Or.inl ⟨_, rfl⟩
theorem exec_cvti_form (o : AOp) (s : State) : IssueForm (.cvti o) s (exec (.cvti o) s) := Or.inl ⟨_, rfl⟩
theorem exec_div_form (o : AOp) (s : State) : IssueForm (.div o) s (exec (.div o) s) := Or.inl ⟨_, rfl⟩
theorem exec_rem_form (o : AOp) (s : State) : IssueForm (.rem o) s (exec (.rem o) s) := Or.inl ⟨_, rfl⟩
theorem exec_lea_form (o : AOp) (s : State) : IssueForm (.lea o) s (exec (.lea o) s) := Or.inl ⟨_, rfl⟩
theorem exec_dot4i_form (o : AOp) (s : State) : IssueForm (.dot4i o) s (exec (.dot4i o) s) := Or.inl ⟨_, rfl⟩
theorem exec_pand_form (o : AOp) (s : State) : IssueForm (.pand o) s (exec (.pand o) s) := Or.inl ⟨_, rfl⟩
theorem exec_por_form (o : AOp) (s : State) : IssueForm (.por o) s (exec (.por o) s) := Or.inl ⟨_, rfl⟩
theorem exec_pxor_form (o : AOp) (s : State) : IssueForm (.pxor o) s (exec (.pxor o) s) := Or.inl ⟨_, rfl⟩
theorem exec_pnot_form (o : AOp) (s : State) : IssueForm (.pnot o) s (exec (.pnot o) s) := Or.inl ⟨_, rfl⟩
theorem exec_pmov_form (o : AOp) (s : State) : IssueForm (.pmov o) s (exec (.pmov o) s) := Or.inl ⟨_, rfl⟩
theorem exec_ballot_form (o : AOp) (s : State) : IssueForm (.ballot o) s (exec (.ballot o) s) := Or.inl ⟨_, rfl⟩
theorem exec_pcnt_form (o : AOp) (s : State) : IssueForm (.pcnt o) s (exec (.pcnt o) s) := Or.inl ⟨_, rfl⟩
theorem exec_vany_form (o : AOp) (s : State) : IssueForm (.vany o) s (exec (.vany o) s) := Or.inl ⟨_, rfl⟩
theorem exec_vall_form (o : AOp) (s : State) : IssueForm (.vall o) s (exec (.vall o) s) := Or.inl ⟨_, rfl⟩
theorem exec_vtog_form (o : AOp) (s : State) : IssueForm (.vtog o) s (exec (.vtog o) s) := Or.inl ⟨_, rfl⟩
theorem exec_gtov_form (o : AOp) (s : State) : IssueForm (.gtov o) s (exec (.gtov o) s) := Or.inl ⟨_, rfl⟩
theorem exec_fadd_form (o : AOp) (s : State) : IssueForm (.fadd o) s (exec (.fadd o) s) := Or.inl ⟨_, rfl⟩
theorem exec_fsub_form (o : AOp) (s : State) : IssueForm (.fsub o) s (exec (.fsub o) s) := Or.inl ⟨_, rfl⟩
theorem exec_fmul_form (o : AOp) (s : State) : IssueForm (.fmul o) s (exec (.fmul o) s) := Or.inl ⟨_, rfl⟩
theorem exec_ffma_form (o : AOp) (s : State) : IssueForm (.ffma o) s (exec (.ffma o) s) := Or.inl ⟨_, rfl⟩
theorem exec_fmin_form (o : AOp) (s : State) : IssueForm (.fmin o) s (exec (.fmin o) s) := Or.inl ⟨_, rfl⟩
theorem exec_fmax_form (o : AOp) (s : State) : IssueForm (.fmax o) s (exec (.fmax o) s) := Or.inl ⟨_, rfl⟩
theorem exec_fcmp_form (o : AOp) (s : State) : IssueForm (.fcmp o) s (exec (.fcmp o) s) := Or.inl ⟨_, rfl⟩
theorem exec_fclass_form (o : AOp) (s : State) : IssueForm (.fclass o) s (exec (.fclass o) s) := Or.inl ⟨_, rfl⟩
theorem exec_frnd_form (o : AOp) (s : State) : IssueForm (.frnd o) s (exec (.frnd o) s) := Or.inl ⟨_, rfl⟩
theorem exec_frcp_form (o : AOp) (s : State) : IssueForm (.frcp o) s (exec (.frcp o) s) := Or.inl ⟨_, rfl⟩
theorem exec_frsq_form (o : AOp) (s : State) : IssueForm (.frsq o) s (exec (.frsq o) s) := Or.inl ⟨_, rfl⟩
theorem exec_fsqrt_form (o : AOp) (s : State) : IssueForm (.fsqrt o) s (exec (.fsqrt o) s) := Or.inl ⟨_, rfl⟩
theorem exec_fexpf_form (o : AOp) (s : State) : IssueForm (.fexpf o) s (exec (.fexpf o) s) := Or.inl ⟨_, rfl⟩
theorem exec_flog2_form (o : AOp) (s : State) : IssueForm (.flog2 o) s (exec (.flog2 o) s) := Or.inl ⟨_, rfl⟩
theorem exec_fsinf_form (o : AOp) (s : State) : IssueForm (.fsinf o) s (exec (.fsinf o) s) := Or.inl ⟨_, rfl⟩
theorem exec_fcosf_form (o : AOp) (s : State) : IssueForm (.fcosf o) s (exec (.fcosf o) s) := Or.inl ⟨_, rfl⟩
theorem exec_xins_form (o : AOp) (s : State) : IssueForm (.xins o) s (exec (.xins o) s) := Or.inl ⟨_, rfl⟩
theorem exec_xgetE_form (o : AOp) (s : State) : IssueForm (.xgetE o) s (exec (.xgetE o) s) := Or.inl ⟨_, rfl⟩
theorem exec_xgetM_form (o : AOp) (s : State) : IssueForm (.xgetM o) s (exec (.xgetM o) s) := Or.inl ⟨_, rfl⟩
theorem exec_fcvt_form (o : AOp) (s : State) : IssueForm (.fcvt o) s (exec (.fcvt o) s) := Or.inl ⟨_, rfl⟩
theorem exec_fcvtPk_form (o : AOp) (s : State) : IssueForm (.fcvtPk o) s (exec (.fcvtPk o) s) := Or.inl ⟨_, rfl⟩
theorem exec_fqnt_form (o : AOp) (s : State) : IssueForm (.fqnt o) s (exec (.fqnt o) s) := Or.inl ⟨_, rfl⟩
theorem exec_fdqt_form (o : AOp) (s : State) : IssueForm (.fdqt o) s (exec (.fdqt o) s) := Or.inl ⟨_, rfl⟩
theorem exec_fscl_form (o : AOp) (s : State) : IssueForm (.fscl o) s (exec (.fscl o) s) := Or.inl ⟨_, rfl⟩
theorem exec_fdot2_form (o : AOp) (s : State) : IssueForm (.fdot2 o) s (exec (.fdot2 o) s) := Or.inl ⟨_, rfl⟩
theorem exec_dadd_form (o : AOp) (s : State) : IssueForm (.dadd o) s (exec (.dadd o) s) := Or.inl ⟨_, rfl⟩
theorem exec_dmul_form (o : AOp) (s : State) : IssueForm (.dmul o) s (exec (.dmul o) s) := Or.inl ⟨_, rfl⟩
theorem exec_dfma_form (o : AOp) (s : State) : IssueForm (.dfma o) s (exec (.dfma o) s) := Or.inl ⟨_, rfl⟩
theorem exec_dcmp_form (o : AOp) (s : State) : IssueForm (.dcmp o) s (exec (.dcmp o) s) := Or.inl ⟨_, rfl⟩
theorem exec_dcvt_form (o : AOp) (s : State) : IssueForm (.dcvt o) s (exec (.dcvt o) s) := Or.inl ⟨_, rfl⟩
theorem exec_dcvtInt_form (o : AOp) (s : State) : IssueForm (.dcvtInt o) s (exec (.dcvtInt o) s) := Or.inl ⟨_, rfl⟩
theorem exec_chrun_form (o : AOp) (s : State) : IssueForm (.chrun o) s (exec (.chrun o) s) := Or.inl ⟨_, rfl⟩
theorem exec_lshfl_form (o : AOp) (s : State) : IssueForm (.lshfl o) s (exec (.lshfl o) s) := Or.inl ⟨_, rfl⟩
theorem exec_lperm_form (o : AOp) (s : State) : IssueForm (.lperm o) s (exec (.lperm o) s) := Or.inl ⟨_, rfl⟩
theorem exec_lbcast_form (o : AOp) (s : State) : IssueForm (.lbcast o) s (exec (.lbcast o) s) := Or.inl ⟨_, rfl⟩
theorem exec_lred_form (o : AOp) (s : State) : IssueForm (.lred o) s (exec (.lred o) s) := Or.inl ⟨_, rfl⟩
theorem exec_lscan_form (o : AOp) (s : State) : IssueForm (.lscan o) s (exec (.lscan o) s) := Or.inl ⟨_, rfl⟩
theorem exec_lmap_form (o : AOp) (s : State) : IssueForm (.lmap o) s (exec (.lmap o) s) := Or.inl ⟨_, rfl⟩
theorem exec_cvdecl_form (o : XOp) (s : State) : IssueForm (.cvdecl o) s (exec (.cvdecl o) s) := Or.inl ⟨_, rfl⟩
theorem exec_cvsign_form (o : XOp) (s : State) : IssueForm (.cvsign o) s (exec (.cvsign o) s) := Or.inl ⟨_, rfl⟩
theorem exec_mfence_form (o : XOp) (s : State) : IssueForm (.mfence o) s (exec (.mfence o) s) := Or.inl ⟨_, rfl⟩
theorem exec_mzero_form (o : XOp) (s : State) : IssueForm (.mzero o) s (exec (.mzero o) s) := Or.inl ⟨_, rfl⟩
theorem exec_mma_form (o : XOp) (s : State) : IssueForm (.mma o) s (exec (.mma o) s) := Or.inl ⟨_, rfl⟩
theorem exec_mmar_form (o : XOp) (s : State) : IssueForm (.mmar o) s (exec (.mmar o) s) := Or.inl ⟨_, rfl⟩
theorem exec_mwait_form (o : XOp) (s : State) : IssueForm (.mwait o) s (exec (.mwait o) s) := Or.inl ⟨_, rfl⟩
theorem exec_mdrain_form (o : XOp) (s : State) : IssueForm (.mdrain o) s (exec (.mdrain o) s) := Or.inl ⟨_, rfl⟩
theorem exec_mread_form (o : XOp) (s : State) : IssueForm (.mread o) s (exec (.mread o) s) := Or.inl ⟨_, rfl⟩
theorem exec_mwrite_form (o : XOp) (s : State) : IssueForm (.mwrite o) s (exec (.mwrite o) s) := (by rw [show exec (.mwrite o) s = execMwrite o s from rfl]; unfold execMwrite issue; exact Or.inl ⟨_, rfl⟩)
theorem exec_mcheck_form (o : XOp) (s : State) : IssueForm (.mcheck o) s (exec (.mcheck o) s) := Or.inl ⟨_, rfl⟩
theorem exec_msave_form (o : XOp) (s : State) : IssueForm (.msave o) s (exec (.msave o) s) := Or.inl ⟨_, rfl⟩
theorem exec_mrestore_form (o : XOp) (s : State) : IssueForm (.mrestore o) s (exec (.mrestore o) s) := Or.inl ⟨_, rfl⟩
theorem exec_pfill_form (o : XOp) (s : State) : IssueForm (.pfill o) s (exec (.pfill o) s) := Or.inl ⟨_, rfl⟩
theorem exec_pwait_form (o : XOp) (s : State) : IssueForm (.pwait o) s (exec (.pwait o) s) := Or.inl ⟨_, rfl⟩
theorem exec_pzapB_form (o : XOp) (s : State) : IssueForm (.pzapB o) s (exec (.pzapB o) s) := Or.inl ⟨_, rfl⟩
theorem exec_pzapC_form (o : XOp) (s : State) : IssueForm (.pzapC o) s (exec (.pzapC o) s) := Or.inl ⟨_, rfl⟩
theorem exec_ld_form (o : MOp) (s : State) : IssueForm (.ld o) s (exec (.ld o) s) := Or.inl ⟨_, rfl⟩
theorem exec_st_form (o : MOp) (s : State) : IssueForm (.st o) s (exec (.st o) s) := Or.inl ⟨_, rfl⟩
theorem exec_ldc_form (o : MOp) (s : State) : IssueForm (.ldc o) s (exec (.ldc o) s) := Or.inl ⟨_, rfl⟩
theorem exec_lds_form (o : MOp) (s : State) : IssueForm (.lds o) s (exec (.lds o) s) := Or.inl ⟨_, rfl⟩
theorem exec_sts_form (o : MOp) (s : State) : IssueForm (.sts o) s (exec (.sts o) s) := Or.inl ⟨_, rfl⟩
theorem exec_ldl_form (o : MOp) (s : State) : IssueForm (.ldl o) s (exec (.ldl o) s) := Or.inl ⟨_, rfl⟩
theorem exec_stl_form (o : MOp) (s : State) : IssueForm (.stl o) s (exec (.stl o) s) := Or.inl ⟨_, rfl⟩
theorem exec_atom_form (o : MOp) (s : State) : IssueForm (.atom o) s (exec (.atom o) s) := Or.inl ⟨_, rfl⟩
theorem exec_red_form (o : MOp) (s : State) : IssueForm (.red o) s (exec (.red o) s) := Or.inl ⟨_, rfl⟩
theorem exec_pf_form (o : MOp) (s : State) : IssueForm (.pf o) s (exec (.pf o) s) := Or.inl ⟨_, rfl⟩
theorem exec_rqpage_form (o : MOp) (s : State) : IssueForm (.rqpage o) s (exec (.rqpage o) s) := Or.inl ⟨_, rfl⟩
theorem exec_cwbL2_form (o : MOp) (s : State) : IssueForm (.cwbL2 o) s (exec (.cwbL2 o) s) := Or.inl ⟨_, rfl⟩
theorem exec_cwbMem_form (o : MOp) (s : State) : IssueForm (.cwbMem o) s (exec (.cwbMem o) s) := Or.inl ⟨_, rfl⟩
theorem exec_cinv_form (o : MOp) (s : State) : IssueForm (.cinv o) s (exec (.cinv o) s) := Or.inl ⟨_, rfl⟩
theorem exec_cpin_form (o : MOp) (s : State) : IssueForm (.cpin o) s (exec (.cpin o) s) := Or.inl ⟨_, rfl⟩
theorem exec_cunpin_form (o : MOp) (s : State) : IssueForm (.cunpin o) s (exec (.cunpin o) s) := Or.inl ⟨_, rfl⟩
theorem exec_icinv_form (o : MOp) (s : State) : IssueForm (.icinv o) s (exec (.icinv o) s) := Or.inl ⟨_, rfl⟩
theorem exec_fetchbar_form (o : MOp) (s : State) : IssueForm (.fetchbar o) s (exec (.fetchbar o) s) := Or.inl ⟨_, rfl⟩
theorem exec_fence_form (o : MOp) (s : State) : IssueForm (.fence o) s (exec (.fence o) s) := Or.inl ⟨_, rfl⟩
theorem exec_monarm_form (o : MOp) (s : State) : IssueForm (.monarm o) s (exec (.monarm o) s) := Or.inl ⟨_, rfl⟩
theorem exec_monwait_form (o : MOp) (s : State) : IssueForm (.monwait o) s (exec (.monwait o) s) := Or.inl ⟨_, rfl⟩
theorem exec_svbind_form (o : MOp) (s : State) : IssueForm (.svbind o) s (exec (.svbind o) s) := Or.inl ⟨_, rfl⟩
theorem exec_svunbind_form (o : MOp) (s : State) : IssueForm (.svunbind o) s (exec (.svunbind o) s) := Or.inl ⟨_, rfl⟩
theorem exec_barinit_form (o : XOp) (s : State) : IssueForm (.barinit o) s (exec (.barinit o) s) := Or.inl ⟨_, rfl⟩
theorem exec_bararr_form (o : XOp) (s : State) : IssueForm (.bararr o) s (exec (.bararr o) s) := Or.inl ⟨_, rfl⟩
theorem exec_barwait_form (o : XOp) (s : State) : IssueForm (.barwait o) s (exec (.barwait o) s) := Or.inl ⟨_, rfl⟩
theorem exec_bartest_form (o : XOp) (s : State) : IssueForm (.bartest o) s (exec (.bartest o) s) := Or.inl ⟨_, rfl⟩
theorem exec_barexp_form (o : XOp) (s : State) : IssueForm (.barexp o) s (exec (.barexp o) s) := Or.inl ⟨_, rfl⟩
theorem exec_swinit_form (o : MOp) (s : State) : IssueForm (.swinit o) s (exec (.swinit o) s) := Or.inl ⟨_, rfl⟩
theorem exec_swexp_form (o : MOp) (s : State) : IssueForm (.swexp o) s (exec (.swexp o) s) := Or.inl ⟨_, rfl⟩
theorem exec_swadd_form (o : MOp) (s : State) : IssueForm (.swadd o) s (exec (.swadd o) s) := Or.inl ⟨_, rfl⟩
theorem exec_swwait_form (o : MOp) (s : State) : IssueForm (.swwait o) s (exec (.swwait o) s) := Or.inl ⟨_, rfl⟩
theorem exec_swpoll_form (o : MOp) (s : State) : IssueForm (.swpoll o) s (exec (.swpoll o) s) := Or.inl ⟨_, rfl⟩
theorem exec_ctrsel_form (o : SOp) (s : State) : IssueForm (.ctrsel o) s (exec (.ctrsel o) s) := Or.inl ⟨_, rfl⟩
theorem exec_ctrrd_form (o : SOp) (s : State) : IssueForm (.ctrrd o) s (exec (.ctrrd o) s) := Or.inl ⟨_, rfl⟩
theorem exec_arnew_form (o : AOp) (s : State) : IssueForm (.arnew o) s (exec (.arnew o) s) := Or.inl ⟨_, rfl⟩
theorem exec_aralloc_form (o : AOp) (s : State) : IssueForm (.aralloc o) s (exec (.aralloc o) s) := Or.inl ⟨_, rfl⟩
theorem exec_arfree_form (o : AOp) (s : State) : IssueForm (.arfree o) s (exec (.arfree o) s) := Or.inl ⟨_, rfl⟩
theorem exec_arseal_form (o : AOp) (s : State) : IssueForm (.arseal o) s (exec (.arseal o) s) := Or.inl ⟨_, rfl⟩
theorem exec_ardrop_form (o : AOp) (s : State) : IssueForm (.ardrop o) s (exec (.ardrop o) s) := Or.inl ⟨_, rfl⟩
theorem exec_arquery_form (o : AOp) (s : State) : IssueForm (.arquery o) s (exec (.arquery o) s) := Or.inl ⟨_, rfl⟩
theorem exec_rgset_form (o : AOp) (s : State) : IssueForm (.rgset o) s (exec (.rgset o) s) := Or.inl ⟨_, rfl⟩
theorem exec_rgclr_form (o : AOp) (s : State) : IssueForm (.rgclr o) s (exec (.rgclr o) s) := Or.inl ⟨_, rfl⟩
theorem exec_rgquery_form (o : AOp) (s : State) : IssueForm (.rgquery o) s (exec (.rgquery o) s) := Or.inl ⟨_, rfl⟩
theorem exec_forkw_form (o : AOp) (s : State) : IssueForm (.forkw o) s (exec (.forkw o) s) := Or.inl ⟨_, rfl⟩
theorem exec_wend_form (o : AOp) (s : State) : IssueForm (.wend o) s (exec (.wend o) s) := Or.inl ⟨_, rfl⟩
theorem exec_choose_form (o : AOp) (s : State) : IssueForm (.choose o) s (exec (.choose o) s) := (by rw [show exec (.choose o) s = execChoose o s from rfl]; unfold execChoose; exact Or.inr (Or.inl ⟨_, rfl⟩))
theorem exec_chooseMin_form (o : AOp) (s : State) : IssueForm (.chooseMin o) s (exec (.chooseMin o) s) := (by rw [show exec (.chooseMin o) s = execChooseMin o s from rfl]; unfold execChooseMin; exact Or.inr (Or.inl ⟨_, rfl⟩))
theorem exec_wabort_form (o : AOp) (s : State) : IssueForm (.wabort o) s (exec (.wabort o) s) := Or.inl ⟨_, rfl⟩
theorem exec_wquery_form (o : AOp) (s : State) : IssueForm (.wquery o) s (exec (.wquery o) s) := Or.inl ⟨_, rfl⟩
theorem exec_tlaunch_form (o : XOp) (s : State) : IssueForm (.tlaunch o) s (exec (.tlaunch o) s) := Or.inl ⟨_, rfl⟩
theorem exec_tdep_form (o : XOp) (s : State) : IssueForm (.tdep o) s (exec (.tdep o) s) := Or.inl ⟨_, rfl⟩
theorem exec_tdepGo_form (o : XOp) (s : State) : IssueForm (.tdepGo o) s (exec (.tdepGo o) s) := Or.inl ⟨_, rfl⟩
theorem exec_worknext_form (o : XOp) (s : State) : IssueForm (.worknext o) s (exec (.worknext o) s) := Or.inl ⟨_, rfl⟩
theorem exec_qpop_form (o : AOp) (s : State) : IssueForm (.qpop o) s (exec (.qpop o) s) := Or.inl ⟨_, rfl⟩
theorem exec_ringdecl_form (o : MOp) (s : State) : IssueForm (.ringdecl o) s (exec (.ringdecl o) s) := Or.inl ⟨_, rfl⟩
theorem exec_ringdeclClr_form (o : MOp) (s : State) : IssueForm (.ringdeclClr o) s (exec (.ringdeclClr o) s) := Or.inl ⟨_, rfl⟩
theorem exec_rsend_form (o : MOp) (s : State) : IssueForm (.rsend o) s (exec (.rsend o) s) := Or.inl ⟨_, rfl⟩
theorem exec_rhead_form (o : MOp) (s : State) : IssueForm (.rhead o) s (exec (.rhead o) s) := Or.inl ⟨_, rfl⟩
theorem exec_ldesc_form (o : XOp) (s : State) : IssueForm (.ldesc o) s (exec (.ldesc o) s) := Or.inl ⟨_, rfl⟩
theorem exec_bcopy_form (o : XOp) (s : State) : IssueForm (.bcopy o) s (exec (.bcopy o) s) := Or.inl ⟨_, rfl⟩
theorem exec_bstore_form (o : XOp) (s : State) : IssueForm (.bstore o) s (exec (.bstore o) s) := Or.inl ⟨_, rfl⟩
theorem exec_bmcast_form (o : XOp) (s : State) : IssueForm (.bmcast o) s (exec (.bmcast o) s) := Or.inl ⟨_, rfl⟩
theorem exec_bred_form (o : XOp) (s : State) : IssueForm (.bred o) s (exec (.bred o) s) := Or.inl ⟨_, rfl⟩
theorem exec_br_form (o : BOp) (s : State) : IssueForm (.br o) s (exec (.br o) s) := Or.inl ⟨_, rfl⟩
theorem exec_braAny_form (o : BOp) (s : State) : IssueForm (.braAny o) s (exec (.braAny o) s) := Or.inl ⟨_, rfl⟩
theorem exec_braAll_form (o : BOp) (s : State) : IssueForm (.braAll o) s (exec (.braAll o) s) := Or.inl ⟨_, rfl⟩
theorem exec_brx_form (o : BOp) (s : State) : IssueForm (.brx o) s (exec (.brx o) s) := Or.inl ⟨_, rfl⟩
theorem exec_call_form (o : BOp) (s : State) : IssueForm (.call o) s (exec (.call o) s) := Or.inl ⟨_, rfl⟩
theorem exec_calli_form (o : BOp) (s : State) : IssueForm (.calli o) s (exec (.calli o) s) := Or.inl ⟨_, rfl⟩
theorem exec_ret_form (o : BOp) (s : State) : IssueForm (.ret o) s (exec (.ret o) s) := Or.inl ⟨_, rfl⟩
theorem exec_prio_form (o : BOp) (s : State) : IssueForm (.prio o) s (exec (.prio o) s) := Or.inl ⟨_, rfl⟩
theorem exec_regroup_form (o : BOp) (s : State) : IssueForm (.regroup o) s (exec (.regroup o) s) := Or.inl ⟨_, rfl⟩
theorem exec_regroupRestore_form (o : BOp) (s : State) : IssueForm (.regroupRestore o) s (exec (.regroupRestore o) s) := Or.inl ⟨_, rfl⟩
theorem exec_exit_form (o : BOp) (s : State) : IssueForm (.exit o) s (exec (.exit o) s) := Or.inl ⟨_, rfl⟩
theorem exec_trail_form (o : BOp) (s : State) : IssueForm (.trail o) s (exec (.trail o) s) := Or.inl ⟨_, rfl⟩
theorem exec_trap_form (o : SOp) (s : State) : IssueForm (.trap o) s (exec (.trap o) s) := Or.inl ⟨_, rfl⟩
theorem exec_rte_form (o : SOp) (s : State) : IssueForm (.rte o) s (exec (.rte o) s) := Or.inl ⟨_, rfl⟩
theorem exec_mfsys_form (o : SOp) (s : State) : IssueForm (.mfsys o) s (exec (.mfsys o) s) := Or.inl ⟨_, rfl⟩
theorem exec_mtsys_form (o : SOp) (s : State) : IssueForm (.mtsys o) s (exec (.mtsys o) s) := Or.inl ⟨_, rfl⟩
theorem exec_sysc_form (o : SOp) (s : State) : IssueForm (.sysc o) s (exec (.sysc o) s) := Or.inl ⟨_, rfl⟩
theorem exec_errq_form (o : SOp) (s : State) : IssueForm (.errq o) s (exec (.errq o) s) := Or.inl ⟨_, rfl⟩
theorem exec_ckpt_form (o : SOp) (s : State) : IssueForm (.ckpt o) s (exec (.ckpt o) s) := Or.inl ⟨_, rfl⟩
theorem exec_rpset_form (o : SOp) (s : State) : IssueForm (.rpset o) s (exec (.rpset o) s) := Or.inl ⟨_, rfl⟩
theorem exec_tlbinv_form (o : SOp) (s : State) : IssueForm (.tlbinv o) s (exec (.tlbinv o) s) := Or.inl ⟨_, rfl⟩
theorem exec_pgsplit_form (o : SOp) (s : State) : IssueForm (.pgsplit o) s (exec (.pgsplit o) s) := Or.inl ⟨_, rfl⟩
theorem exec_stest_form (o : SOp) (s : State) : IssueForm (.stest o) s (exec (.stest o) s) := Or.inl ⟨_, rfl⟩
theorem exec_chld_form (o : AOp) (s : State) : IssueForm (.chld o) s (exec (.chld o) s) := by
  rw [show exec (.chld o) s = execChld o s from rfl]
  unfold execChld issue
  refine Or.inr (Or.inr ⟨_, _, ?_, rfl, ?_⟩)
  · exact ite_of (p := fun (x : State) => x.cur = s.cur) (fun _ => rfl) rfl
  · exact ite_of (p := fun (x : State) => x = s ∨ (s.usesCheck (.chld o)).isOk = true) (fun h => .inr (Bool.and_eq_true_iff.mp h).2) (.inl rfl)

end Sys2Proof.Machine.State
end

