-- ==== Sys2Proof/Laws/PerInstr.lean ====
section
/-! SUPPORT. Per instruction: its word has 96 bits and its major in the top byte. -/
namespace Sys2Proof.Laws.WordFits
open Sys2Proof

/-- The major of a family record. -/
def major : Raw → Nat
  | .a k _ | .m k _ | .b k _ | .x k _ | .s k _ => k

/-- The word has 96 bits, of which the top eight are the instruction's major (R64). -/
def Statement (i : Instr) : Prop :=
  ∀ r, i.raw = some r → encode i < 2 ^ 96 ∧ encode i / 2 ^ 88 = major r

theorem src_lt (a : Src) : a.field < 2 ^ 11 := by
  rcases a with ⟨i, t⟩ | ⟨i, t⟩ | r | i | i | i
  · have := i.isLt; cases t <;> simp [Src.field] <;> omega
  · have := i.isLt; cases t <;> simp [Src.field] <;> omega
  · cases r <;> decide
  all_goals have := i.isLt; simp only [Src.field]; omega
theorem dst_lt (d : Dst) : d.field < 2 ^ 10 := by
  cases d with | v i | g i | t i => have := i.isLt; simp only [Dst.field]; omega
theorem guard_lt (g : Guard) : g.bits ≤ 2 ^ 88 - 2 ^ 83 := by
  have := g.p.isLt; unfold Guard.bits; split <;> omega
theorem ty_lt (t : Ty) : t.code < 2 ^ 4 := by cases t <;> decide
theorem scope_lt (t : Scope) : t.code < 2 ^ 3 := by cases t <;> decide
theorem order_lt (t : Order) : t.code < 2 ^ 2 := by cases t <;> decide

/-- The fields below the major never reach it. -/
theorem word_parts (r : Raw) : ∃ low < 2 ^ 88, r.word = major r * 2 ^ 88 + low := by
  cases r with
  | a k o =>
    have := guard_lt o.gd; have := o.variant.isLt; have := ty_lt o.ty; have := dst_lt o.d; have := src_lt o.a
    have := src_lt o.b; have := src_lt o.c; have := o.m.isLt
    refine ⟨o.word 0, ?_, ?_⟩ <;> simp only [Raw.word, AOp.word, major] <;> omega
  | m k o =>
    have := guard_lt o.gd; have := o.variant.isLt; have := ty_lt o.ty; have := dst_lt o.data; have := src_lt o.index
    have := scope_lt o.scope; have := order_lt o.order; have := o.res.isLt; have := o.hint.isLt; have := o.shift.isLt
    have := o.off.isLt
    refine ⟨o.word 0, ?_, by simp only [Raw.word, MOp.word, major]; omega⟩
    simp only [MOp.word]
    split
    · rename_i b _
      have := b.isLt
      omega
    · omega
  | b k o =>
    have := guard_lt o.gd; have := o.sub.isLt; have := dst_lt o.link; have := src_lt o.a; have := o.prio.isLt
    have := o.aux.isLt; have := o.line.isLt; have := o.slot.isLt
    refine ⟨o.word 0, ?_, ?_⟩ <;> simp only [Raw.word, BOp.word, major] <;> omega
  | x k o =>
    have := guard_lt o.gd; have := o.sub.isLt; have := dst_lt o.dest; have := o.record.isLt; have := src_lt o.coord
    have := o.bar.isLt; have := o.report.isLt; have := o.count.isLt; have := o.imm.isLt; have := o.granule.isLt
    refine ⟨o.word 0, ?_, ?_⟩ <;> simp only [Raw.word, XOp.word, major] <;> omega
  | s k o =>
    have := guard_lt o.gd; have := o.sub.isLt; have := dst_lt o.dest; have := src_lt o.a; have := o.sysreg.isLt
    have := o.imm.isLt
    refine ⟨o.word 0, ?_, ?_⟩ <;> simp only [Raw.word, SOp.word, major] <;> omega

/-- A record with a one-byte major has a word of 96 bits under it. -/
theorem of_raw {i : Instr} {r : Raw} (h : i.raw = some r) (hk : major r < 256) : Statement i := by
  intro r' h'
  obtain rfl : r = r' := Option.some.inj (h.symm.trans h')
  obtain ⟨low, hl, hw⟩ := word_parts r
  simp only [encode, h, hw]
  omega

theorem nop (o) : Statement (.nop o) := of_raw rfl (by simp [major])
theorem mov (o) : Statement (.mov o) := of_raw rfl (by simp [major])
theorem movi (o) : Statement (.movi o) := of_raw rfl (by simp [major])
theorem movw (o) : Statement (.movw o) := of_raw rfl (by simp [major])
theorem add (o) : Statement (.add o) := of_raw rfl (by simp [major])
theorem sub (o) : Statement (.sub o) := of_raw rfl (by simp [major])
theorem addc (o) : Statement (.addc o) := of_raw rfl (by simp [major])
theorem subb (o) : Statement (.subb o) := of_raw rfl (by simp [major])
theorem mul (o) : Statement (.mul o) := of_raw rfl (by simp [major])
theorem mulhi (o) : Statement (.mulhi o) := of_raw rfl (by simp [major])
theorem mad (o) : Statement (.mad o) := of_raw rfl (by simp [major])
theorem sad (o) : Statement (.sad o) := of_raw rfl (by simp [major])
theorem neg (o) : Statement (.neg o) := of_raw rfl (by simp [major])
theorem abs (o) : Statement (.abs o) := of_raw rfl (by simp [major])
theorem min (o) : Statement (.min o) := of_raw rfl (by simp [major])
theorem max (o) : Statement (.max o) := of_raw rfl (by simp [major])
theorem clamp (o) : Statement (.clamp o) := of_raw rfl (by simp [major])
theorem and (o) : Statement (.and o) := of_raw rfl (by simp [major])
theorem or (o) : Statement (.or o) := of_raw rfl (by simp [major])
theorem xor (o) : Statement (.xor o) := of_raw rfl (by simp [major])
theorem andn (o) : Statement (.andn o) := of_raw rfl (by simp [major])
theorem not (o) : Statement (.not o) := of_raw rfl (by simp [major])
theorem shl (o) : Statement (.shl o) := of_raw rfl (by simp [major])
theorem shr (o) : Statement (.shr o) := of_raw rfl (by simp [major])
theorem sar (o) : Statement (.sar o) := of_raw rfl (by simp [major])
theorem rol (o) : Statement (.rol o) := of_raw rfl (by simp [major])
theorem bfx (o) : Statement (.bfx o) := of_raw rfl (by simp [major])
theorem bfi (o) : Statement (.bfi o) := of_raw rfl (by simp [major])
theorem brev (o) : Statement (.brev o) := of_raw rfl (by simp [major])
theorem popc (o) : Statement (.popc o) := of_raw rfl (by simp [major])
theorem clz (o) : Statement (.clz o) := of_raw rfl (by simp [major])
theorem ctz (o) : Statement (.ctz o) := of_raw rfl (by simp [major])
theorem sel (o) : Statement (.sel o) := of_raw rfl (by simp [major])
theorem cmp (o) : Statement (.cmp o) := of_raw rfl (by simp [major])
theorem cvti (o) : Statement (.cvti o) := of_raw rfl (by simp [major])
theorem div (o) : Statement (.div o) := of_raw rfl (by simp [major])
theorem rem (o) : Statement (.rem o) := of_raw rfl (by simp [major])
theorem lea (o) : Statement (.lea o) := of_raw rfl (by simp [major])
theorem dot4i (o) : Statement (.dot4i o) := of_raw rfl (by simp [major])
theorem pand (o) : Statement (.pand o) := of_raw rfl (by simp [major])
theorem por (o) : Statement (.por o) := of_raw rfl (by simp [major])
theorem pxor (o) : Statement (.pxor o) := of_raw rfl (by simp [major])
theorem pnot (o) : Statement (.pnot o) := of_raw rfl (by simp [major])
theorem pmov (o) : Statement (.pmov o) := of_raw rfl (by simp [major])
theorem ballot (o) : Statement (.ballot o) := of_raw rfl (by simp [major])
theorem pcnt (o) : Statement (.pcnt o) := of_raw rfl (by simp [major])
theorem vany (o) : Statement (.vany o) := of_raw rfl (by simp [major])
theorem vall (o) : Statement (.vall o) := of_raw rfl (by simp [major])
theorem vtog (o) : Statement (.vtog o) := of_raw rfl (by simp [major])
theorem gtov (o) : Statement (.gtov o) := of_raw rfl (by simp [major])
theorem fadd (o) : Statement (.fadd o) := of_raw rfl (by simp [major])
theorem fsub (o) : Statement (.fsub o) := of_raw rfl (by simp [major])
theorem fmul (o) : Statement (.fmul o) := of_raw rfl (by simp [major])
theorem ffma (o) : Statement (.ffma o) := of_raw rfl (by simp [major])
theorem fmin (o) : Statement (.fmin o) := of_raw rfl (by simp [major])
theorem fmax (o) : Statement (.fmax o) := of_raw rfl (by simp [major])
theorem fcmp (o) : Statement (.fcmp o) := of_raw rfl (by simp [major])
theorem fclass (o) : Statement (.fclass o) := of_raw rfl (by simp [major])
theorem frnd (o) : Statement (.frnd o) := of_raw rfl (by simp [major])
theorem frcp (o) : Statement (.frcp o) := of_raw rfl (by simp [major])
theorem frsq (o) : Statement (.frsq o) := of_raw rfl (by simp [major])
theorem fsqrt (o) : Statement (.fsqrt o) := of_raw rfl (by simp [major])
theorem fexpf (o) : Statement (.fexpf o) := of_raw rfl (by simp [major])
theorem flog2 (o) : Statement (.flog2 o) := of_raw rfl (by simp [major])
theorem fsinf (o) : Statement (.fsinf o) := of_raw rfl (by simp [major])
theorem fcosf (o) : Statement (.fcosf o) := of_raw rfl (by simp [major])
theorem xins (o) : Statement (.xins o) := of_raw rfl (by simp [major])
theorem xgetE (o) : Statement (.xgetE o) := of_raw rfl (by simp [major])
theorem xgetM (o) : Statement (.xgetM o) := of_raw rfl (by simp [major])
theorem fcvt (o) : Statement (.fcvt o) := of_raw rfl (by simp [major])
theorem fcvtPk (o) : Statement (.fcvtPk o) := of_raw rfl (by simp [major])
theorem fqnt (o) : Statement (.fqnt o) := of_raw rfl (by simp [major])
theorem fdqt (o) : Statement (.fdqt o) := of_raw rfl (by simp [major])
theorem fscl (o) : Statement (.fscl o) := of_raw rfl (by simp [major])
theorem fdot2 (o) : Statement (.fdot2 o) := of_raw rfl (by simp [major])
theorem dadd (o) : Statement (.dadd o) := of_raw rfl (by simp [major])
theorem dmul (o) : Statement (.dmul o) := of_raw rfl (by simp [major])
theorem dfma (o) : Statement (.dfma o) := of_raw rfl (by simp [major])
theorem dcmp (o) : Statement (.dcmp o) := of_raw rfl (by simp [major])
theorem dcvt (o) : Statement (.dcvt o) := of_raw rfl (by simp [major])
theorem dcvtInt (o) : Statement (.dcvtInt o) := of_raw rfl (by simp [major])
theorem chld (o) : Statement (.chld o) := of_raw rfl (by simp [major])
theorem chrun (o) : Statement (.chrun o) := of_raw rfl (by simp [major])
theorem lshfl (o) : Statement (.lshfl o) := of_raw rfl (by simp [major])
theorem lperm (o) : Statement (.lperm o) := of_raw rfl (by simp [major])
theorem lbcast (o) : Statement (.lbcast o) := of_raw rfl (by simp [major])
theorem lred (o) : Statement (.lred o) := of_raw rfl (by simp [major])
theorem lscan (o) : Statement (.lscan o) := of_raw rfl (by simp [major])
theorem lmap (o) : Statement (.lmap o) := of_raw rfl (by simp [major])
theorem cvdecl (o) : Statement (.cvdecl o) := of_raw rfl (by simp [major])
theorem cvsign (o) : Statement (.cvsign o) := of_raw rfl (by simp [major])
theorem mfence (o) : Statement (.mfence o) := of_raw rfl (by simp [major])
theorem mzero (o) : Statement (.mzero o) := of_raw rfl (by simp [major])
theorem mma (o) : Statement (.mma o) := of_raw rfl (by simp [major])
theorem mmar (o) : Statement (.mmar o) := of_raw rfl (by simp [major])
theorem mwait (o) : Statement (.mwait o) := of_raw rfl (by simp [major])
theorem mdrain (o) : Statement (.mdrain o) := of_raw rfl (by simp [major])
theorem mread (o) : Statement (.mread o) := of_raw rfl (by simp [major])
theorem mwrite (o) : Statement (.mwrite o) := of_raw rfl (by simp [major])
theorem mcheck (o) : Statement (.mcheck o) := of_raw rfl (by simp [major])
theorem msave (o) : Statement (.msave o) := of_raw rfl (by simp [major])
theorem mrestore (o) : Statement (.mrestore o) := of_raw rfl (by simp [major])
theorem pfill (o) : Statement (.pfill o) := of_raw rfl (by simp [major])
theorem pwait (o) : Statement (.pwait o) := of_raw rfl (by simp [major])
theorem pzapB (o) : Statement (.pzapB o) := of_raw rfl (by simp [major])
theorem pzapC (o) : Statement (.pzapC o) := of_raw rfl (by simp [major])
theorem ld (o) : Statement (.ld o) := of_raw rfl (by simp [major])
theorem st (o) : Statement (.st o) := of_raw rfl (by simp [major])
theorem ldc (o) : Statement (.ldc o) := of_raw rfl (by simp [major])
theorem lds (o) : Statement (.lds o) := of_raw rfl (by simp [major])
theorem sts (o) : Statement (.sts o) := of_raw rfl (by simp [major])
theorem ldl (o) : Statement (.ldl o) := of_raw rfl (by simp [major])
theorem stl (o) : Statement (.stl o) := of_raw rfl (by simp [major])
theorem atom (o) : Statement (.atom o) := of_raw rfl (by simp [major])
theorem red (o) : Statement (.red o) := of_raw rfl (by simp [major])
theorem pf (o) : Statement (.pf o) := of_raw rfl (by simp [major])
theorem rqpage (o) : Statement (.rqpage o) := of_raw rfl (by simp [major])
theorem cwbL2 (o) : Statement (.cwbL2 o) := of_raw rfl (by simp [major])
theorem cwbMem (o) : Statement (.cwbMem o) := of_raw rfl (by simp [major])
theorem cinv (o) : Statement (.cinv o) := of_raw rfl (by simp [major])
theorem cpin (o) : Statement (.cpin o) := of_raw rfl (by simp [major])
theorem cunpin (o) : Statement (.cunpin o) := of_raw rfl (by simp [major])
theorem icinv (o) : Statement (.icinv o) := of_raw rfl (by simp [major])
theorem fetchbar (o) : Statement (.fetchbar o) := of_raw rfl (by simp [major])
theorem fence (o) : Statement (.fence o) := of_raw rfl (by simp [major])
theorem monarm (o) : Statement (.monarm o) := of_raw rfl (by simp [major])
theorem monwait (o) : Statement (.monwait o) := of_raw rfl (by simp [major])
theorem svbind (o) : Statement (.svbind o) := of_raw rfl (by simp [major])
theorem svunbind (o) : Statement (.svunbind o) := of_raw rfl (by simp [major])
theorem barinit (o) : Statement (.barinit o) := of_raw rfl (by simp [major])
theorem bararr (o) : Statement (.bararr o) := of_raw rfl (by simp [major])
theorem barwait (o) : Statement (.barwait o) := of_raw rfl (by simp [major])
theorem bartest (o) : Statement (.bartest o) := of_raw rfl (by simp [major])
theorem barexp (o) : Statement (.barexp o) := of_raw rfl (by simp [major])
theorem swinit (o) : Statement (.swinit o) := of_raw rfl (by simp [major])
theorem swexp (o) : Statement (.swexp o) := of_raw rfl (by simp [major])
theorem swadd (o) : Statement (.swadd o) := of_raw rfl (by simp [major])
theorem swwait (o) : Statement (.swwait o) := of_raw rfl (by simp [major])
theorem swpoll (o) : Statement (.swpoll o) := of_raw rfl (by simp [major])
theorem ctrsel (o) : Statement (.ctrsel o) := of_raw rfl (by simp [major])
theorem ctrrd (o) : Statement (.ctrrd o) := of_raw rfl (by simp [major])
theorem arnew (o) : Statement (.arnew o) := of_raw rfl (by simp [major])
theorem aralloc (o) : Statement (.aralloc o) := of_raw rfl (by simp [major])
theorem arfree (o) : Statement (.arfree o) := of_raw rfl (by simp [major])
theorem arseal (o) : Statement (.arseal o) := of_raw rfl (by simp [major])
theorem ardrop (o) : Statement (.ardrop o) := of_raw rfl (by simp [major])
theorem arquery (o) : Statement (.arquery o) := of_raw rfl (by simp [major])
theorem rgset (o) : Statement (.rgset o) := of_raw rfl (by simp [major])
theorem rgclr (o) : Statement (.rgclr o) := of_raw rfl (by simp [major])
theorem rgquery (o) : Statement (.rgquery o) := of_raw rfl (by simp [major])
theorem forkw (o) : Statement (.forkw o) := of_raw rfl (by simp [major])
theorem wend (o) : Statement (.wend o) := of_raw rfl (by simp [major])
theorem choose (o) : Statement (.choose o) := of_raw rfl (by simp [major])
theorem chooseMin (o) : Statement (.chooseMin o) := of_raw rfl (by simp [major])
theorem wabort (o) : Statement (.wabort o) := of_raw rfl (by simp [major])
theorem wquery (o) : Statement (.wquery o) := of_raw rfl (by simp [major])
theorem tlaunch (o) : Statement (.tlaunch o) := of_raw rfl (by simp [major])
theorem tdep (o) : Statement (.tdep o) := of_raw rfl (by simp [major])
theorem tdepGo (o) : Statement (.tdepGo o) := of_raw rfl (by simp [major])
theorem worknext (o) : Statement (.worknext o) := of_raw rfl (by simp [major])
theorem qpop (o) : Statement (.qpop o) := of_raw rfl (by simp [major])
theorem ringdecl (o) : Statement (.ringdecl o) := of_raw rfl (by simp [major])
theorem ringdeclClr (o) : Statement (.ringdeclClr o) := of_raw rfl (by simp [major])
theorem rsend (o) : Statement (.rsend o) := of_raw rfl (by simp [major])
theorem rhead (o) : Statement (.rhead o) := of_raw rfl (by simp [major])
theorem ldesc (o) : Statement (.ldesc o) := of_raw rfl (by simp [major])
theorem bcopy (o) : Statement (.bcopy o) := of_raw rfl (by simp [major])
theorem bstore (o) : Statement (.bstore o) := of_raw rfl (by simp [major])
theorem bmcast (o) : Statement (.bmcast o) := of_raw rfl (by simp [major])
theorem bred (o) : Statement (.bred o) := of_raw rfl (by simp [major])
theorem br (o) : Statement (.br o) := of_raw rfl (by simp [major])
theorem braAny (o) : Statement (.braAny o) := of_raw rfl (by simp [major])
theorem braAll (o) : Statement (.braAll o) := of_raw rfl (by simp [major])
theorem brx (o) : Statement (.brx o) := of_raw rfl (by simp [major])
theorem call (o) : Statement (.call o) := of_raw rfl (by simp [major])
theorem calli (o) : Statement (.calli o) := of_raw rfl (by simp [major])
theorem ret (o) : Statement (.ret o) := of_raw rfl (by simp [major])
theorem prio (o) : Statement (.prio o) := of_raw rfl (by simp [major])
theorem regroup (o) : Statement (.regroup o) := of_raw rfl (by simp [major])
theorem regroupRestore (o) : Statement (.regroupRestore o) := of_raw rfl (by simp [major])
theorem exit (o) : Statement (.exit o) := of_raw rfl (by simp [major])
theorem trail (o) : Statement (.trail o) := of_raw rfl (by simp [major])
theorem trap (o) : Statement (.trap o) := of_raw rfl (by simp [major])
theorem rte (o) : Statement (.rte o) := of_raw rfl (by simp [major])
theorem mfsys (o) : Statement (.mfsys o) := of_raw rfl (by simp [major])
theorem mtsys (o) : Statement (.mtsys o) := of_raw rfl (by simp [major])
theorem sysc (o) : Statement (.sysc o) := of_raw rfl (by simp [major])
theorem errq (o) : Statement (.errq o) := of_raw rfl (by simp [major])
theorem ckpt (o) : Statement (.ckpt o) := of_raw rfl (by simp [major])
theorem rpset (o) : Statement (.rpset o) := of_raw rfl (by simp [major])
theorem tlbinv (o) : Statement (.tlbinv o) := of_raw rfl (by simp [major])
theorem pgsplit (o) : Statement (.pgsplit o) := of_raw rfl (by simp [major])
theorem stest (o) : Statement (.stest o) := of_raw rfl (by simp [major])
theorem runDispatch (x0) : Statement (.runDispatch x0) := by intro r h; cases h
theorem fetchResume (x0 x1) : Statement (.fetchResume x0 x1) := by intro r h; cases h
theorem longLatencyComplete (x0 x1 x2) : Statement (.longLatencyComplete x0 x1 x2) := by intro r h; cases h
theorem heldAccessResume (x0 x1) : Statement (.heldAccessResume x0 x1) := by intro r h; cases h
theorem regroupMeetingComplete (x0) : Statement (.regroupMeetingComplete x0) := by intro r h; cases h
theorem regroupRestoreComplete (x0) : Statement (.regroupRestoreComplete x0) := by intro r h; cases h
theorem easelCommandStart (x0 x1) : Statement (.easelCommandStart x0 x1) := by intro r h; cases h
theorem easelSlab (x0 x1) : Statement (.easelSlab x0 x1) := by intro r h; cases h
theorem easelCommandComplete (x0 x1) : Statement (.easelCommandComplete x0 x1) := by intro r h; cases h
theorem fillSlab (x0 x1) : Statement (.fillSlab x0 x1) := by intro r h; cases h
theorem fillComplete (x0 x1) : Statement (.fillComplete x0 x1) := by intro r h; cases h
theorem walkPush (x0 x1) : Statement (.walkPush x0 x1) := by intro r h; cases h
theorem brushBurst (x0 x1) : Statement (.brushBurst x0 x1) := by intro r h; cases h
theorem brushCommandComplete (x0 x1) : Statement (.brushCommandComplete x0 x1) := by intro r h; cases h
theorem bmcastHop (x0 x1) : Statement (.bmcastHop x0 x1) := by intro r h; cases h
theorem bredAccept (x0 x1) : Statement (.bredAccept x0 x1) := by intro r h; cases h
theorem bredRoundComplete (x0 x1) : Statement (.bredRoundComplete x0 x1) := by intro r h; cases h
theorem ringDelivery (x0 x1 x2) : Statement (.ringDelivery x0 x1 x2) := by intro r h; cases h
theorem ringRetry (x0 x1 x2) : Statement (.ringRetry x0 x1 x2) := by intro r h; cases h
theorem torusHop (x0) : Statement (.torusHop x0) := by intro r h; cases h
theorem redMerge (x0 x1) : Statement (.redMerge x0 x1) := by intro r h; cases h
theorem cacheEviction (x0 x1 x2) : Statement (.cacheEviction x0 x1 x2) := by intro r h; cases h
theorem dropBroadcastApply (x0 x1) : Statement (.dropBroadcastApply x0 x1) := by intro r h; cases h
theorem sweepComplete (x0 x1) : Statement (.sweepComplete x0 x1) := by intro r h; cases h
theorem sealBroadcastApply (x0 x1) : Statement (.sealBroadcastApply x0 x1) := by intro r h; cases h
theorem tlbShootdownAck (x0 x1) : Statement (.tlbShootdownAck x0 x1) := by intro r h; cases h
theorem rivalAdmission (x0 x1) : Statement (.rivalAdmission x0 x1) := by intro r h; cases h
theorem worldParentRestore (x0 x1) : Statement (.worldParentRestore x0 x1) := by intro r h; cases h
theorem kickWrite (x0 x1) : Statement (.kickWrite x0 x1) := by intro r h; cases h
theorem serveKick (x0 x1) : Statement (.serveKick x0 x1) := by intro r h; cases h
theorem readyRanges (x0) : Statement (.readyRanges x0) := by intro r h; cases h
theorem migrationEnd (x0 x1) : Statement (.migrationEnd x0 x1) := by intro r h; cases h
theorem cellAdmission (x0) : Statement (.cellAdmission x0) := by intro r h; cases h
theorem preemptCell (x0) : Statement (.preemptCell x0) := by intro r h; cases h
theorem restoreCell (x0 x1) : Statement (.restoreCell x0 x1) := by intro r h; cases h
theorem cellRetirement (x0) : Statement (.cellRetirement x0) := by intro r h; cases h
theorem controllerTakeover (x0) : Statement (.controllerTakeover x0) := by intro r h; cases h
theorem rollback (x0) : Statement (.rollback x0) := by intro r h; cases h
theorem shadowCompare (x0 x1) : Statement (.shadowCompare x0 x1) := by intro r h; cases h
theorem ckptPrepareAck (x0 x1) : Statement (.ckptPrepareAck x0 x1) := by intro r h; cases h
theorem ckptSeal (x0) : Statement (.ckptSeal x0) := by intro r h; cases h
theorem recovery (x0) : Statement (.recovery x0) := by intro r h; cases h
theorem containmentReset (x0) : Statement (.containmentReset x0) := by intro r h; cases h
theorem errorReport (x0 x1) : Statement (.errorReport x0 x1) := by intro r h; cases h
theorem selfTest (x0 x1) : Statement (.selfTest x0 x1) := by intro r h; cases h
theorem moduleReset (x0) : Statement (.moduleReset x0) := by intro r h; cases h
theorem lifecycleTransition (x0 x1) : Statement (.lifecycleTransition x0 x1) := by intro r h; cases h
theorem featAcceptWrite (x0) : Statement (.featAcceptWrite x0) := by intro r h; cases h
theorem attestRequest (x0) : Statement (.attestRequest x0) := by intro r h; cases h
theorem attestReport : Statement (.attestReport) := by intro r h; cases h
theorem powerWrite (x0) : Statement (.powerWrite x0) := by intro r h; cases h
theorem powerCapStepdown : Statement (.powerCapStepdown) := by intro r h; cases h
theorem engineReset (x0) : Statement (.engineReset x0) := by intro r h; cases h
theorem engtailWrite (x0 x1) : Statement (.engtailWrite x0 x1) := by intro r h; cases h
theorem engineTakeCommand (x0) : Statement (.engineTakeCommand x0) := by intro r h; cases h
theorem codecRow (x0 x1 x2) : Statement (.codecRow x0 x1 x2) := by intro r h; cases h
theorem codecHandoffResume (x0) : Statement (.codecHandoffResume x0) := by intro r h; cases h
theorem engineTimeout (x0) : Statement (.engineTimeout x0) := by intro r h; cases h
theorem engineCommandEnd (x0 x1) : Statement (.engineCommandEnd x0 x1) := by intro r h; cases h
theorem hostBar2Access (x0 x1 x2) : Statement (.hostBar2Access x0 x1 x2) := by intro r h; cases h
theorem peerAccess (x0 x1 x2) : Statement (.peerAccess x0 x1 x2) := by intro r h; cases h
theorem peerUnreachable (x0) : Statement (.peerUnreachable x0) := by intro r h; cases h
theorem registerWrite (x0 x1) : Statement (.registerWrite x0 x1) := by intro r h; cases h
theorem arithmeticCycle (x0) : Statement (.arithmeticCycle x0) := by intro r h; cases h
theorem runSettled (x0 x1) : Statement (.runSettled x0 x1) := by intro r h; cases h
theorem softError (x0) : Statement (.softError x0) := by intro r h; cases h
theorem migrationBegin (x0) : Statement (.migrationBegin x0) := by intro r h; cases h
theorem contextCreation (x0) : Statement (.contextCreation x0) := by intro r h; cases h
theorem contextEnd (x0) : Statement (.contextEnd x0) := by intro r h; cases h
theorem leafRewrite (x0 x1) : Statement (.leafRewrite x0 x1) := by intro r h; cases h

end Sys2Proof.Laws.WordFits
end

