-- ==== Sys2Proof/Tests/Slice0.lean ====
section
/-! SUPPORT. Tests on small states: words of the spec decode, ill-formed terms are refused, results worked out by hand, and for every
statement with hypotheses states and operands that meet them. -/
namespace Sys2Proof.Tests
set_option linter.unusedVariables false
set_option Elab.async false
open Sys2Proof Machine State Rules

/-! ### Small states and operands -/

/-- A cell of 32 lanes of context 0 with a run in flight, and nothing else. -/
def B : State := { State.reset with cells := [(0, State.fwCell)], cur := ⟨0, 0⟩ }
/-- The same with the addresses 0x10000 to 0x1FFFF mapped, readable, writable and executable. -/
def M : State := State.reset.withFetchWord 96 0
/-- `s` with a g register of the acting group set. -/
def withG (i : Nat) (x : BitVec 64) (s : State) : State := s.modCg fun g => { g with gregs := Map.put 0 i x g.gregs }
/-- `s` with a v register of a lane of the acting group set. -/
def withV (cl i : Nat) (x : BitVec 32) (s : State) : State := s.modCc fun c => { c with vregs := Map.put 0 (256 * cl + i) x c.vregs }
def p0 : Guard := ⟨0, false⟩
/-- Guarded so that no lane is active. -/
def np0 : Guard := ⟨0, true⟩
def v0s : Src := .v 0 false
def aop (variant : BitVec 4) (ty : Ty) (m : BitVec 32) : AOp := ⟨p0, variant, ty, .v 0, v0s, v0s, v0s, m⟩
def mop (variant : BitVec 4) (ty : Ty) (off : BitVec 32) : MOp := ⟨p0, variant, ty, .v 0, v0s, none, .plain, .rlx, 0, 0, 0, off⟩
def bop : BOp := ⟨p0, 0, .v 0, v0s, 0, 0, 0, 0⟩
def xop (sub : BitVec 8) : XOp := ⟨p0, sub, .v 0, 0, v0s, 0, 0, 0, 0, 0⟩
def sop (sub : BitVec 8) (reg : BitVec 12) (imm : BitVec 32) : SOp := ⟨p0, sub, .v 0, v0s, reg, imm⟩

/-- The issue checks, as a test. -/
def issuesB (i : Instr) (s : State) : Bool := decide (s.usesCheck i = .ok ()) && (popFields i).isEmpty
theorem issues {i : Instr} {s : State} (h : issuesB i s = true) : Issues i s s := by
  simp only [issuesB, Bool.and_eq_true, decide_eq_true_eq, List.isEmpty_iff] at h
  exact ⟨h.1, by rw [h.2]; rfl⟩
theorem wit {i : Instr} {s : State} {P : Prop} [Decidable P] (h : (issuesB i s && decide P) = true) : Issues i s s ∧ P := by
  simp only [Bool.and_eq_true, decide_eq_true_eq] at h
  exact ⟨issues h.1, h.2⟩
theorem issuesAll {s : State} {l : List Instr} {P : Instr → Bool} (h : (l.all fun i => P i && i.legal && issuesB i s) = true) :
    ∀ i ∈ l, P i = true ∧ i.WellFormed ∧ Issues i s s := by
  intro i hi
  have := List.all_eq_true.mp h i hi
  simp only [Bool.and_eq_true] at this
  exact ⟨this.1.1, this.1.2, issues this.2⟩
/-- A call that answers, with a property of its answer. -/
def okB {ε α : Type} (x : Except ε α) (P : α → Bool) : Bool := match x with | .ok a => P a | .error _ => false
theorem ok {ε α : Type} {x : Except ε α} {P : α → Prop} [DecidablePred P] (h : okB x (fun a => decide (P a)) = true) : ∃ a, x = .ok a ∧ P a := by
  cases x with
  | ok a => exact ⟨a, rfl, by simpa [okB] using h⟩
  | error _ => simp [okB] at h
theorem ok2 {ε δ α β : Type} {x : Except ε α} {y : α → Except δ β} {P : α → Prop} {Q : α → β → Prop} [DecidablePred P] [∀ a, DecidablePred (Q a)]
    (h : okB x (fun a => decide (P a) && okB (y a) fun b => decide (Q a b)) = true) : ∃ a, x = .ok a ∧ P a ∧ ∃ b, y a = .ok b ∧ Q a b := by
  cases x with
  | ok a => simp only [okB, Bool.and_eq_true, decide_eq_true_eq] at h; exact ⟨a, rfl, h.1, ok h.2⟩
  | error _ => simp [okB] at h

/-! ### Lane arithmetic: every row of the result tables issues in `B` -/

def intRows : List Instr :=
  [.add (aop 0 .i32 1), .sub (aop 0 .i32 0), .mul (aop 0 .i64 0), .mulhi (aop 0 .i32 0), .mad (aop 0 .i32 0), .sad (aop 0 .i32 0), .neg (aop 0 .i32 0),
   .abs (aop 1 .i32 0), .min (aop 0 .i32 0), .max (aop 1 .i32 0), .clamp (aop 0 .i32 0), .add { aop 0 .i32 0 with d := .t 7 },
   .add { aop 0 .i64 0 with d := .g 95, a := .g 1 false, b := .g 2 false }, .add { aop 0 .i32 0 with d := .v 255 }]
theorem witness_IntegerArithmeticResults : ∀ i ∈ intRows, (exact115 i).isSome = true ∧ i.WellFormed ∧ Issues i B B := issuesAll (by decide +kernel)
def moveRows : List Instr :=
  [.mov (aop 1 .i32 0), .movi (aop 2 .i32 0), .div (aop 0 .i32 0), .rem (aop 0 .i32 0), .cvti (aop 0 .i32 0), .lea (aop 0 .i32 0),
   .dot4i (aop 0 .i8 0), .and (aop 0 .i32 0), .or (aop 0 .i32 0), .xor (aop 0 .i32 0), .andn (aop 0 .i32 0), .not (aop 0 .i32 0),
   .shl (aop 0 .i32 0), .shr (aop 1 .i32 0), .sar (aop 2 .i32 0), .rol (aop 3 .i32 0), .bfx (aop 0 .i32 0), .bfi (aop 0 .i32 0),
   .brev (aop 0 .i32 0), .popc (aop 1 .i32 0), .clz (aop 2 .i32 0), .ctz (aop 3 .i32 0), .sel (aop 0 .i32 0), .ballot (aop 0 .n32 0),
   .pcnt (aop 0 .n32 0), .vtog { aop 0 .i32 0 with d := .g 6, b := .g 2 false }, .lshfl (aop 0 .n32 0),
   .lbcast { aop 0 .n32 0 with b := .g 2 false }, .lperm (aop 0 .n32 0), .lred (aop 0 .i32 0), .lmap (aop 0 .n32 0)]
theorem witness_MoveLogicShiftAndLaneResults : ∀ i ∈ moveRows, ((intElem i).isSome || (bitElem i).isSome || (laneElem i).isSome) = true
    ∧ i.WellFormed ∧ Issues i B B := issuesAll (by decide +kernel)
def floatRows : List Instr :=
  [.fadd (aop 0 .f32 0), .fsub (aop 0 .f32 0), .fmul (aop 0 .f32 0), .ffma (aop 0 .f32 0), .fmin (aop 0 .f32 0), .fmax (aop 0 .f32 0),
   .fclass (aop 0 .f32 0), .frnd (aop 0 .f32 0), .frcp (aop 0 .f32 0), .frsq (aop 0 .f32 0), .fsqrt (aop 0 .f32 0), .fexpf (aop 0 .f32 0),
   .flog2 (aop 0 .f32 0), .fsinf (aop 0 .f32 0), .fcosf (aop 0 .f32 0), .xins (aop 0 .f32 0), .xgetE (aop 0 .f32 0), .xgetM (aop 1 .f32 0),
   .fcvt (aop 0 .i32 4608), .dcvt (aop 0 .i32 4096), .fcvtPk (aop 1 .f16 4608), .fdot2 (aop 0 .f16 0), .dadd (aop 0 .f64 0), .dmul (aop 0 .f64 0),
   .dfma (aop 0 .f64 0), .dcvtInt (aop 1 .f64 4096)]
theorem witness_FloatResults : ∀ i ∈ floatRows, (floatElem i).isSome = true ∧ i.WellFormed ∧ Issues i B B := issuesAll (by decide +kernel)
def predRows : List Instr :=
  [.cmp (aop 0 .i32 0), .fcmp (aop 0 .f32 0), .dcmp (aop 0 .f64 0), .pand (aop 0 .i8 0), .por (aop 0 .i8 0), .pxor (aop 0 .i8 0),
   .pnot (aop 0 .i8 0), .pmov (aop 0 .i8 0), .vany (aop 0 .i8 0), .vall (aop 0 .i8 0), .gtov { aop 0 .i8 0 with a := .g 2 false }]
theorem witness_PredicateResults : ∀ i ∈ predRows, (predRule i).isSome = true ∧ i.WellFormed ∧ Issues i B B := issuesAll (by decide +kernel)
def otherRows : List Instr :=
  [.addc (aop 0 .n32 0), .subb (aop 0 .n32 0), .nop (aop 0 .i8 0), .movw (aop 3 .n64 0), .fscl (aop 0 .e4m3 4608), .fqnt (aop 0 .e4m3 4608),
   .fdqt (aop 0 .f32 6144), .lscan (aop 0 .i32 0)]
/-- Of `CarryResults`, `NopAndMovwResults` and `RangeConversionAndScanFrames`. -/
theorem witness_CarryNopMovwRangeScan : ∀ i ∈ otherRows, true = true ∧ i.WellFormed ∧ Issues i B B := issuesAll (by decide +kernel)

/-! ### Memory -/

/-- `B` with a scratchpad and a lane store of exactly four bytes. -/
def S4 : State := B.modCc fun c => { c with scratchSz := 4, lstoreSz := 4 }
theorem witness_ScratchpadAndLaneStoreLoads :
    ((Instr.lds (mop 0 .i32 0)).WellFormed ∧ Issues (.lds (mop 0 .i32 0)) S4 S4
      ∧ ∀ p ∈ accessLanes p0 false S4, addrOf (mop 0 .i32 0) S4 p % 4 = 0 ∧ addrOf (mop 0 .i32 0) S4 p + 4 ≤ S4.cc.scratchSz)
    ∧ ((Instr.ldl (mop 0 .i32 0)).WellFormed ∧ Issues (.ldl (mop 0 .i32 0)) S4 S4
      ∧ ∀ p ∈ S4.active p0, addrOf (mop 0 .i32 0) S4 p % 4 = 0 ∧ addrOf (mop 0 .i32 0) S4 p + 4 ≤ S4.cc.lstoreSz) :=
  ⟨⟨by decide +kernel, issues (by decide +kernel), by decide +kernel⟩, ⟨by decide +kernel, issues (by decide +kernel), by decide +kernel⟩⟩
def relSts : MOp := { mop 0 .i32 0 with order := .rel, scope := .cell }
theorem witness_ScratchpadAndLaneStoreStores :
    ((Instr.sts (mop 0 .i32 0)).WellFormed ∧ Issues (.sts (mop 0 .i32 0)) S4 S4 ∧ (mop 0 .i32 0).order = .rlx
      ∧ ∀ p ∈ S4.active p0, addrOf (mop 0 .i32 0) S4 p % 4 = 0 ∧ addrOf (mop 0 .i32 0) S4 p + 4 ≤ S4.cc.scratchSz)
    ∧ ((Instr.stl (mop 0 .i32 0)).WellFormed ∧ Issues (.stl (mop 0 .i32 0)) S4 S4)
    ∧ ((Instr.sts relSts).WellFormed ∧ Issues (.sts relSts) S4 S4 ∧ relSts.order = .rel
      ∧ ∀ p ∈ S4.active p0, addrOf relSts S4 p % 4 = 0 ∧ addrOf relSts S4 p + 4 ≤ S4.cc.scratchSz) :=
  ⟨⟨by decide +kernel, issues (by decide +kernel), rfl, by decide +kernel⟩, ⟨by decide +kernel, issues (by decide +kernel)⟩,
   ⟨by decide +kernel, issues (by decide +kernel), rfl, by decide +kernel⟩⟩
/-- Lane 1 at offset 1 (no multiple of 4), and lane 1 at offset 4 (the first word past the allocation). -/
theorem witness_AccessChecksRaise :
    (let s := withV 1 0 1 S4
     Issues (.sts (mop 0 .i32 0)) s s ∧ s.active p0 = [0] ++ 1 :: (List.range 32).drop 2 ∧ addrOf (mop 0 .i32 0) s 0 + 4 ≤ s.cc.scratchSz
      ∧ addrOf (mop 0 .i32 0) s 1 % 4 ≠ 0)
    ∧ (let s := withV 1 0 4 S4
       Issues (.sts (mop 0 .i32 0)) s s ∧ s.active p0 = [0] ++ 1 :: (List.range 32).drop 2 ∧ addrOf (mop 0 .i32 0) s 1 % 4 = 0
        ∧ s.cc.scratchSz < addrOf (mop 0 .i32 0) s 1 + 4)
    ∧ (let s := withV 1 0 1 S4
       ∀ i ∈ [Instr.lds (mop 0 .i32 0), .ldl (mop 0 .i32 0), .stl (mop 0 .i32 0)], true = true ∧ i.WellFormed ∧ Issues i s s) :=
  ⟨wit (by decide +kernel), wit (by decide +kernel), issuesAll (by decide +kernel)⟩
/-- `M` with lane 1 one byte past lane 0, its per-thread base at the mapped page. -/
def Mis : State := withV 1 0 1 (M.modCc fun c => { c with ptbase := 0x10000 })
def word0 : MOp := mop 0 .i32 0x10000
theorem witness_GlobalAccessesCheckAlignment :
    ((∀ i ∈ [Instr.ld word0, .ldc word0, .st word0, .atom word0, .red word0], true = true ∧ i.WellFormed ∧ Issues i Mis Mis)
      ∧ refuses Mis = false ∧ Mis.active p0 = [0] ++ 1 :: (List.range 32).drop 2 ∧ addrOf word0 Mis 1 % 4 ≠ 0
      ∧ ∃ r, checkLanes (Mis.whoOf 0) { n := 4, rd := true, wr := true, home := true } (globalLanes word0 4 Mis [0]) Mis = .ok r ∧ r.2 ≠ [])
    ∧ ((∀ i ∈ [Instr.ld (mop 1 .i32 0), .st (mop 1 .i32 0)], true = true ∧ i.WellFormed ∧ Issues i Mis Mis)
      ∧ addrOf (mop 1 .i32 0) Mis 0 = 0 ∧ addrOf (mop 1 .i32 0) Mis 1 % 4 ≠ 0
      ∧ ∃ r, checkLanes (Mis.whoOf 0) { n := 4, rd := false, wr := true, io := true } ([0].map (ptAcc (mop 1 .i32 0) 4 Mis)) Mis = .ok r ∧ r.2 ≠ []) :=
  ⟨⟨issuesAll (by decide +kernel), by decide +kernel, by decide +kernel, by decide +kernel, ok (by decide +kernel)⟩,
   issuesAll (by decide +kernel), by decide +kernel, by decide +kernel, ok (by decide +kernel)⟩

/-- Every lane at address 0x1FFFC, the last word mapped. -/
def lastWord : MOp := mop 0 .i32 0x1FFFC
theorem witness_GlobalLoadsComplete :
    (Issues (.ld lastWord) M M ∧ lanesOf lastWord M (accessLanes p0 false M) (globalLanes lastWord 4 M (accessLanes p0 false M))
      ∧ ∃ r, checkLanes (M.whoOf 0) { n := 4, rd := true, wr := false, io := true, absorb := lastWord.res != 0, home := wide lastWord.scope }
          (globalLanes lastWord 4 M (accessLanes p0 false M)) M = .ok r ∧ (refuses r.1 = false ∧ (let s3 := enterScope (M.whoOf 0) lastWord.scope r.2 r.1
            landRoom s3.ck (replyBytes (fun ln => !wide lastWord.scope && (s3.l1Live 0 ln).isSome) r.2) s3 = true)))
    ∧ (Issues (.ldc lastWord) M M ∧ ∃ r, checkLanes (M.whoOf 0) { n := 4, rd := true, wr := false, absorb := true, io := refuses M }
        (globalLanes lastWord 4 M (accessLanes p0 false M)) M = .ok r ∧ (r.2 ≠ [] ∧ (∀ x ∈ r.2, ioLane x = false)
          ∧ landRoom r.1.ck (replyBytes (fun ln => (Map.find ln (r.1.studio 0).ro).isSome) r.2) r.1 = true)) :=
  ⟨⟨issues (by decide +kernel), by simp [lanesOf, lastWord, mop, Ty.width], ok (by decide +kernel)⟩, issues (by decide +kernel), ok (by decide +kernel)⟩
/-- The cell of `M` in view 1 of use `u`, that has its queue page; the mapped page of kind `k`. -/
def Vw (k u : Nat) : State := ({ M.setLeafAt 0x104008 (BitVec.ofNat 64 (0x1200000 + k * 2 ^ 14 + 0x1F)) with
  views := [(1, { (default : View) with state := 1, use := BitVec.ofNat 2 u, queue := some 9 })] } : State).modCc fun c => { c with view := 1 }
theorem witness_GlobalStoresAndAtomicsComplete :
    ((Issues (.st lastWord) M M ∧ M.cc.view = 0 ∧ refuses M = false)
      ∧ lanesOf lastWord M (M.active p0) (globalLanes lastWord 4 M (M.active p0))
      ∧ ∃ r, checkLanes (M.whoOf 0) { n := 4, rd := false, wr := true, io := true, home := wide lastWord.scope } (globalLanes lastWord 4 M (M.active p0)) M = .ok r
        ∧ (r.2.length = 32 ∧ rcvWait lastWord r.1 = .ok ()))
    -- deferred in a rival, suppressed in a shadow copy
    ∧ (∀ u ∈ [0, 3], let s := Vw 3 u
      Issues (.st lastWord) s s ∧ (s.whoOf 0).view = 1
        ∧ ∃ r, checkLanes (s.whoOf 0) { n := 4, rd := false, wr := true, io := true, home := wide lastWord.scope } (globalLanes lastWord 4 s (s.active p0)) s = .ok r
          ∧ (r.2.length = 32 ∧ rcvWait lastWord r.1 = .ok () ∧ (let s3 := enterScope (s.whoOf 0) lastWord.scope r.2 r.1
              (∀ x ∈ r.2, s3.external 0 1 x.va x.xlat.leaf = true) ∧ (s3.view 1).use.toNat = u ∧ (s3.view 1).queue.isSome = true
                ∧ (s3.view 1).escs.length + r.2.length ≤ 64)))
    ∧ (Issues (.red lastWord) M M
      ∧ ∃ r, checkLanes (M.whoOf 0) { n := 4, rd := true, wr := true, kind := true } (globalLanes lastWord 4 M (M.active p0)) M = .ok r ∧ r.2.length = 32)
    ∧ (∀ u ∈ [0, 3], let s := Vw 1 u
      Issues (.red lastWord) s s
        ∧ ∃ r, checkLanes (s.whoOf 0) { n := 4, rd := true, wr := true, kind := true } (globalLanes lastWord 4 s (s.active p0)) s = .ok r
          ∧ (r.2.length = 32 ∧ (let s3 := enterScope (s.whoOf 0) lastWord.scope r.2 r.1
              (s3.view 1).use.toNat = u ∧ (s3.view 1).queue.isSome = true ∧ (s3.view 1).escs.length + r.2.length ≤ 64)))
    ∧ (Issues (.atom lastWord) M M
      ∧ ∃ r, checkLanes (M.whoOf 0) { n := 4, rd := true, wr := true, io := refuses M, home := true } (globalLanes lastWord 4 M (M.active p0)) M = .ok r
        ∧ (refuses r.1 = false ∧ landRoom r.1.ck (replyBytes (fun _ => false) r.2) r.1 = true)) :=
  ⟨⟨wit (by decide +kernel), by simp [lanesOf, lastWord, mop, Ty.width], ok (by decide +kernel)⟩,
   fun u hu => ⟨issues (by revert u; decide +kernel), by revert u; decide +kernel, ok (by revert u; decide +kernel)⟩,
   ⟨issues (by decide +kernel), ok (by decide +kernel)⟩,
   fun u hu => ⟨issues (by revert u; decide +kernel), ok (by revert u; decide +kernel)⟩,
   ⟨issues (by decide +kernel), ok (by decide +kernel)⟩⟩
/-- At the ends of the range; a lane whose word reads without a fault. -/
theorem witness_AtomicOperationValues : Ty.i32 ∈ tyW ∧ 2 ^ 32 - 1 < 2 ^ Ty.i32.width ∧ 1 < 2 ^ Ty.i32.width
    ∧ ∃ r, M.checkOne (M.whoOf 0) { n := 4, rd := true, wr := true, home := true } 0x1FFFC = .ok r
      ∧ (r.1.readAt 0 (accTag (M.whoOf 0) (r.2.getD default) 0 5 false) true (physOf (r.2.getD default) 0x1FFFC) 4).2.2 = false :=
  ⟨by decide, by decide, by decide, ok (by decide +kernel)⟩
/-- Four bytes at the end of a line of a cached page of arena 0. -/
def tag0 : Tag := { ctx := 0, arena := 0, gen := 0, view := 0, rcv := false, l1 := true, l2 := true }
theorem witness_StoreThenLoadReturnsValue :
    tag0.l1 = true ∧ tag0.direct = false ∧ M.staleAt 0 tag0.arena tag0.gen = false ∧ Map.find (0x40007C / 128) (M.studio 0).l1 = none
    ∧ (M.l1Others 0 (0x40007C / 128)).length < 8 ∧ M.homeBad (0x40007C / 128) = false ∧ M.studios.all (fun x => x.2.reds.isEmpty) = true
    ∧ M.replicable tag0 = false ∧ (M.homeLine (0x40007C / 128)).length = 128 ∧ leBytes 4 7 ≠ [] ∧ 0x40007C % 128 + (leBytes 4 7).length ≤ 128 := by
  decide +kernel
def fenceOp (gd : Guard) : MOp := { mop 0 .i8 0 with gd := gd, base := some 0, scope := .die, order := .ar }
theorem witness_FenceAndAcquireActions :
    (Issues (.fence (fenceOp np0)) M M ∧ M.active np0 = []) ∧ (Issues (.fence (fenceOp p0)) M M ∧ M.active p0 ≠ [] ∧ refuses M = false ∧ rcvWait (fenceOp p0) M = .ok ())
    ∧ 3 ≤ (scopeRank (M.whoOf 0) .die none M).2 :=
  ⟨wit (by decide +kernel), wit (by decide +kernel), by decide +kernel⟩

/-! ### Cache lines, monitors, bindings -/

def at10 (n : Nat) : MOp := { mop 0 .i8 (BitVec.ofNat 32 n) with index := .imm 0 }
def perLane : MOp := mop 0 .i8 0x10000
/-- The bindings' operands: base 0, and the longest range the model takes. -/
def Sb : State := withG 7 (2 ^ 32) M
/-- The page absent, and predicate 1 true in lane 0 alone. -/
def Ab : State := (M.setLeafAt 0x104008 (0x1200000 + 2 ^ 14 + 2 ^ 13 + 0x1F)).modCc fun c => { c with preds := [(0, 2)] }
def laneP : Guard := ⟨1, false⟩
theorem witness_MemoryControlInstructionsComplete :
    ((∀ i ∈ [Instr.cwbL2 perLane, .cinv perLane, .cunpin perLane, .cwbMem { perLane with variant := 1 }], true = true ∧ i.WellFormed ∧ Issues i M M)
      ∧ refuses M = false ∧ (∃ r, checkLanes (M.whoOf 0) (lineAcc 1 false) (lineLanes perLane M) M = .ok r ∧ r.2 ≠ [])
      ∧ ∃ r, checkLanes (M.whoOf 0) (lineAcc 1 true) (lineLanes perLane M) M = .ok r ∧ r.2 ≠ [])
    ∧ ((∀ i ∈ [Instr.icinv (at10 0x1FFFF), .monarm (at10 0x1FFFF)], true = true ∧ i.WellFormed ∧ Issues i M M)
      ∧ ∃ r, checkLanes (M.whoOf 0) (lineAcc 1 false) (uniLanes (at10 0x1FFFF) 1 M) M = .ok r ∧ r.2 ≠ [])
    ∧ ((∀ i ∈ [Instr.pf perLane, .rqpage perLane, .cpin perLane, .fetchbar { mop 0 .i8 0 with base := some 0 }, .monwait { mop 0 .i8 0 with base := some 0 }],
        true = true ∧ i.WellFormed ∧ Issues i M M)
      ∧ (∃ t, (Ab.active p0).foldlM (requestLane (Ab.whoOf 0) perLane) Ab = .ok t ∧ t.module.requests = [(0x104008, true)])
      ∧ (Ab.active laneP = [0] ∧ okB (absentLeaf (Ab.whoOf 0) 0x10000 Ab) (fun x => x.2 == some 0x104008) = true) ∧ M.cg.mon = none ∧ M.active p0 ≠ [])
    ∧ ((∀ i ∈ [Instr.svbind { at10 0x10000 with data := .g 6 }, .svunbind (at10 0x10000)], true = true ∧ i.WellFormed ∧ Issues i Sb Sb)
      ∧ (refuses Sb = false ∧ (Sb.gval 6).toNat = 0 ∧ (Sb.gval 7).toNat = 2 ^ 32)
      ∧ ∃ r, checkLanes (Sb.whoOf 0) (lineAcc 16 false) (uniLanes (at10 0x10000) 16 Sb) Sb = .ok r ∧ r.2 ≠ []
        ∧ ∃ t, bindRange 0 0x10000 0x10000 0 (2 ^ 32) r.1 = .ok t ∧ t.svs ≠ []) :=
  ⟨⟨issuesAll (by decide +kernel), by decide +kernel, ok (by decide +kernel), ok (by decide +kernel)⟩,
   ⟨issuesAll (by decide +kernel), ok (by decide +kernel)⟩,
   ⟨issuesAll (by decide +kernel), ok (by decide +kernel), by decide +kernel⟩,
   ⟨issuesAll (by decide +kernel), by decide +kernel, ok2 (by decide +kernel)⟩⟩
/-- A monitor armed and not fired. -/
theorem witness_MonitorWaits : let s := M.modCg fun g => { g with mon := some 512 }
    Issues (.monwait { mop 0 .i8 0 with base := some 0 }) s s ∧ s.cg.mon.isSome = true ∧ s.cg.fired = false :=
  wit (by decide +kernel)

/-! ### Control flow -/

/-- `M` with a code line in place of its word: every slot a target, a run end in slot 0, a budget of 32 units. -/
def C : State := M.setBytes 0x1200000 (leBytes 64 ((32 + 2 ^ 12 + 31 * 2 ^ 17) * 2 ^ 480))
/-- The same with g2 the code pointer of slot 4. -/
def Ci : State := withG 2 0x10004 C
def viaG2 : BOp := { bop with a := .g 2 false }
theorem witness_BranchesAndCallsContinue :
    (∀ i ∈ [Instr.br { bop with slot := 4 }, .braAny bop, .braAll { bop with sub := 1 }, .call bop, .prio { bop with prio := 63 }],
      true = true ∧ i.WellFormed ∧ Issues i C C)
    ∧ (∀ i ∈ [Instr.brx viaG2, .ret viaG2], true = true ∧ i.WellFormed ∧ Issues i Ci Ci)
    ∧ Ci.targetsCheck false ((Ci.active p0).map fun p => BitVec.ofNat 64 (Ci.src 0 viaG2.a 64 p)) = .ok ()
    ∧ (let s := withG 2 0x10000 C
       Issues (.calli viaG2) s s ∧ s.targetsCheck true ((s.active p0).map fun p => BitVec.ofNat 64 (s.src 0 viaG2.a 64 p)) = .ok ()) :=
  ⟨issuesAll (by decide +kernel), issuesAll (by decide +kernel), by decide +kernel, issues (by decide +kernel), by decide +kernel⟩
/-- Lane 31 of the entry goes on, and a second entry stands. -/
theorem witness_RunEndPlacesEveryLane : let s := M.modCg fun g => { g with entries := g.entries ++ [⟨0x10002, 2, 0, 0, false, .no⟩] }
    31 ∈ positions s.entry.mask ∧ s.cg.entries.erase s.entry ≠ [] := by decide +kernel
theorem witness_ExitRegroupTrailComplete :
    (∀ i ∈ [Instr.exit bop, .regroup bop, .regroupRestore { bop with sub := 1 }, .trail { bop with aux := 1 }], true = true ∧ i.WellFormed ∧ Issues i B B)
    ∧ B.active p0 ≠ [] ∧ trailRegs { bop with aux := 1 } B = some [] := ⟨issuesAll (by decide +kernel), by decide +kernel⟩

/-! ### System registers, traps, services -/

/-- A task, the ticket of the cells of `M`. -/
def task0 : Task := { (default : Task) with state := 6 }
/-- `s` with its cells belonging to a task. -/
def withTask (s : State) : State := { s with tasks := [task0] }
def sysOp (r : BitVec 12) : SOp := { sop 0 r 0 with dest := .g 6 }
def setOp (r : BitVec 12) : SOp := { sop 0 r 0 with a := .g 2 false }
theorem witness_SystemRegisterAccess :
    (∀ i ∈ [0x000, 0x001, 0x002, 0x003, 0x004, 0x010, 0x011, 0x020, 0x021, 0x022, 0x040, 0x050, 0x051, 0x060, 0x200, 0x201, 0x300, 0x400].map fun r => Instr.mfsys (sysOp r),
      true = true ∧ i.WellFormed ∧ Issues i B B)
    ∧ (∀ i ∈ [Instr.mfsys { sysOp 0x040 with imm := 2 }, .mfsys { sysOp 0x300 with imm := 1 }, .mtsys (setOp 0x400), .mtsys (setOp 0x000)],
      true = true ∧ i.WellFormed ∧ Issues i B B)
    ∧ B.active p0 = 0 :: (List.range 32).drop 1 ∧ B.cg.handler = false
    ∧ (let s := B.modCg fun g => { g with handler := true }
       Issues (.mtsys (setOp 0x002)) s s ∧ s.cg.handler = true)
    ∧ (let s := withTask B
       Issues (.mfsys (sysOp 0x030)) s s ∧ s.task s.cc.ticket = some task0) :=
  ⟨issuesAll (by decide +kernel), issuesAll (by decide +kernel), by decide +kernel, by decide +kernel, wit (by decide +kernel), wit (by decide +kernel)⟩

theorem witness_SystemRegisterInstructionsComplete :
    (∀ i ∈ [Instr.mfsys { sysOp 0x001 with gd := np0 }, .mfsys (sysOp 0x300), .mtsys { setOp 0x002 with gd := np0 }, .mtsys (setOp 0x400)],
      true = true ∧ i.WellFormed ∧ Issues i B B) ∧ B.active np0 = [] ∧ (setOp 0x400).sysreg = 0x400 := ⟨issuesAll (by decide +kernel), by decide +kernel⟩

/-- A context with a trap handler at the line of `C` and group 0's trap frame at 0x10040. -/
def H : State := (C.modCtx 0 fun c => { c with trapvec := 0x10000 }).modCg fun g => { g with trapsave := 0x10040 }
theorem witness_TakingAnException :
    H.rollsBack H.cur.cell 0x28 = false ∧ H.cg.handler = false ∧ (H.ctx H.cc.ctx).trapvec ≠ 0 ∧ wellFormedPc (H.ctx H.cc.ctx).trapvec = true
    ∧ ∃ r, H.fetchSlot (H.whoOf 0) 0x10000 = .ok r ∧ (lineTarget r.2 0 = true ∧ r.1.cg = H.cg ∧ r.1.crun = H.crun)
      ∧ ∃ x, r.1.checkOne (H.whoOf 0) { n := 64, rd := false, wr := true, region := false } 0x10040 = .ok x ∧ (x.2.isSome = true ∧ x.1.cur = H.cur) :=
  ⟨by decide +kernel, by decide +kernel, by decide +kernel, by decide +kernel, ok2 (by decide +kernel)⟩
theorem witness_FaultInHandlerModeFailsTheTask : let s := withTask (H.modCg fun g => { g with handler := true })
    s.rollsBack s.cur.cell fAlign = false ∧ s.cg.handler = true ∧ s.task s.cc.ticket = some task0 ∧ task0.failing = false ∧ task0.state < 7 := by
  decide +kernel
/-- `H` in its handler, TRAPPC at slot 4, with a frame that names lanes 0 to 3. -/
def Hh : State := (H.setBytes 0x1200040 (leBytes 8 0x10004 ++ leBytes 4 0xF)).modCg fun g =>
  { g with handler := true, trappc := 0x10004, run := g.run.map (fun u => { u with handler := true }), entries := [⟨0x10000, 0xFFFFFFFF, 0, 0, true, .no⟩] }
theorem witness_TrapsAndReturns :
    (Issues (.trap (sop 0 0 0xFFFF)) H H ∧ H.active p0 ≠ []) ∧ (Issues (.trap { sop 0 0 0 with gd := np0 }) H H ∧ H.active np0 = [])
    ∧ (Issues (.rte (sop 0 0 0)) H H ∧ H.cg.handler = false)
    ∧ (Issues (.rte (sop 0 0 0)) Hh Hh ∧ Hh.cg.handler = true ∧ Hh.active p0 ≠ [] ∧ Hh.cc.saved ≠ some Hh.cur.grp
      ∧ Hh.targetsCheck false [Hh.cg.trappc] = .ok ())
    ∧ (Hh.cg.entries.foldl (fun m e => if e.handler then m ||| e.mask else m) (0 : BitVec 32) ≠ 0
      ∧ (Hh.cg.entries.filter fun e => !e.handler).find? (fun x => x.pc == Hh.cg.trappc) = none
      ∧ ∃ x, Hh.checkOne (Hh.whoOf 0) { n := 64, rd := true, wr := false, region := false } 0x10040 = .ok x
        ∧ (x.2.isSome = true ∧ BitVec.ofNat 32 (leNat (((x.1.readAt 0 (tagOf (Hh.whoOf 0) (x.2.getD default) 0) false 0x1200040 64).2.1.drop 8).take 4)) ≠ 0)) :=
  ⟨wit (by decide +kernel), wit (by decide +kernel), wit (by decide +kernel),
   wit (by decide +kernel), ⟨by decide +kernel, by decide +kernel, ok (by decide +kernel)⟩⟩

/-- A system context with its page recoverable, g2 and g3 pointing into it. -/
def Y : State := withG 3 0x10000 (withG 2 0x10000 ((M.setLeafAt 0x104008 (0x1200000 + 2 ^ 14 + 0x9F)).modCtx 0 fun c => { c with system := true }))
/-- The same with undo records for the lines of a checkpoint's record, so that writing them needs none. -/
def Yu : State := { Y with gesso := [(0, { (default : Gesso) with undo := (List.range 4).map fun i => ⟨0, 0, 0x24000 + i, []⟩ })] }
/-- The same with a large leaf in place of the table of pages. -/
def Yl : State := Y.setLeafAt 0x103000 (2 ^ 14 + 2 ^ 10 + 0x1F)
def g2Op (dest : Dst) (imm : BitVec 32) : SOp := { sop 0 0 imm with a := .g 2 false, dest := dest }
theorem witness_ServicesComplete :
    (∀ i ∈ [Instr.sysc (g2Op (.g 6) 0), .errq (g2Op (.g 6) 1), .rpset (g2Op (.v 0) 0), .ckpt (g2Op (.g 6) 0), .tlbinv (g2Op (.v 0) 0),
        .pgsplit (g2Op (.v 0) 0), .stest { sop 0 0 0x5F8 with dest := .g 6 }], true = true ∧ i.WellFormed ∧ Issues i Y Y)
    ∧ Y.active p0 ≠ [] ∧ refuses Y = false ∧ (∃ t, writeVa (Y.whoOf 0) 32 0x10000 [] Y = .ok t ∧ t.cur = Y.cur)
    ∧ (Y.gsrc (.g 2 false)).toNat % 65536 = 0 ∧ (Y.ctx 0).rpseq.toNat < (Y.gsrc (.g 2 false)).toNat ∧ bits (Y.ctx 0).ckptstat.toNat 1 0 ≠ 1
    ∧ (∃ t, rcvRecord (Y.whoOf 0) 0x10000 Yu = .ok t ∧ rcvFull t.cur t = false)
    ∧ (Y.ctx 0).system = true ∧ (Y.walk (Y.ctx 0).root.toNat 0x10000).map (fun x => x.2.1) = some 16
    ∧ bits 0x5F8 18 3 < unitCount (bits 0x5F8 2 0)
    ∧ ((Yl.walk (Yl.ctx 0).root.toNat 0x10000).map (fun x => x.2.1) = some 25 ∧ ∃ t, splinter (2 ^ 14 + 2 ^ 10 + 0x1F) 25 0x103000 Yl = .ok t ∧ True)
    ∧ ((M.ctx M.cc.ctx).system = false ∧ ∀ i ∈ [Instr.tlbinv (g2Op (.v 0) 0), .pgsplit (g2Op (.v 0) 0), .stest { sop 0 0 0 with dest := .g 6 }],
        true = true ∧ i.WellFormed ∧ Issues i M M) :=
  ⟨issuesAll (by decide +kernel), by decide +kernel, by decide +kernel, ok (by decide +kernel), by decide +kernel, by decide +kernel, by decide +kernel,
   ok (by decide +kernel), by decide +kernel, by decide +kernel, by decide +kernel, ⟨by decide +kernel, ok (by decide +kernel)⟩, by decide +kernel,
   issuesAll (by decide +kernel)⟩

/-! ### Barriers, synchronisation words, counters, chains -/

theorem witness_BarrierCompletion :
    (let b : Bar := ⟨0, 63, 63, true, false, false⟩; b.arrived = b.members ∧ b.pend = 0 ∧ b.ovf = false ∧ b.excess = false)
    ∧ (let b : Bar := ⟨0, 63, 62, true, false, false⟩; b.arrived ≠ b.members) := by decide
def barOp : XOp := { xop 0 with bar := 15 }
/-- The cell with the acting group arrived in the present phase of barrier 15, and in an earlier one. -/
def Ba (ph : Bool) : State := M.modCg fun g => { g with arrA := 0x8000, arrP := if ph then 0x8000 else 0 }
theorem witness_BarrierInstructionsComplete :
    (∀ i ∈ [Instr.barinit { barOp with count := 32 }, .bararr barOp, .bartest barOp, .barexp { barOp with record := 2 }], true = true ∧ i.WellFormed ∧ Issues i M M)
    ∧ (M.cc.regrouped = false ∧ M.active p0 ≠ [] ∧ (M.cc.bar 15).arrived = 0 ∧ (M.cc.bar 15).pend = 0 ∧ reporting M.cc 15 = false ∧ arrA 15 M = false
      ∧ (M.cc.bar 15).arrived ≠ (M.cc.bar 15).members)
    ∧ (let s := Ba false
       Issues (.bararr barOp) s s ∧ Issues (.barwait barOp) s s ∧ arrA 15 s = true ∧ arrP 15 s = (s.cc.bar 15).phase)
    ∧ (let s := Ba true
       Issues (.barwait barOp) s s ∧ (s.cc.bar 15).phase ≠ arrP 15 s ∧ (s.cc.bar 15).excess = false ∧ (s.cc.bar 15).ovf = false)
    ∧ (let s := withG 2 (2 ^ 39 - 1) M
       Issues (.barexp { barOp with record := 2 }) s s ∧ (s.gval 2).toNat < 2 ^ 40 ∧ (s.cc.bar 15).pend + ((s.gval 2).toNat : Int) ≤ 2 ^ 39 - 1)
    ∧ (let s := M.modCc fun c => { c with regrouped := true }
       s.cc.regrouped = true ∧ Issues (.bararr { barOp with gd := np0 }) s s) :=
  ⟨issuesAll (by decide +kernel), by decide +kernel, ⟨issues (by decide +kernel), issues (by decide +kernel), by decide +kernel⟩,
   wit (by decide +kernel), wit (by decide +kernel), by decide +kernel, issues (by decide +kernel)⟩
/-- At the ends of the 40-bit fields, and one past them. -/
theorem witness_SynchronisationWordChanges :
    (let w : Word16 := ⟨2 ^ 40 - 2, 2 ^ 40 - 2, 0, 0⟩
     w.flags = 0 ∧ w.target + 1 < 2 ^ 40 ∧ w.count + 1 < 2 ^ 40 ∧ 2 ^ 40 ≤ w.target + 2 ∧ 2 ^ 40 ≤ w.count + 2)
    ∧ (let w : Word16 := ⟨1, 1, 2 ^ 32 - 1, 0⟩; w.target ≠ 0 ∧ w.count = w.target ∧ w.flags % 2 = 0) ∧ (⟨0, 0, 0, 2⟩ : Word16).flags / 2 ≠ 0
    ∧ (⟨0, 0, 0, 1⟩ : Word16).flags % 2 = 1 := by decide
/-- A scratchpad of one word, g6 holding the largest amount. -/
def Sw : State := withG 6 (2 ^ 40 - 1) (M.modCc fun c => { c with scratchSz := 16 })
def swOp (v : BitVec 4) (off : BitVec 32) : MOp := { mop v .i8 off with data := .g 6, index := .imm 0 }
theorem witness_SynchronisationWordInstructionsComplete :
    (∀ i ∈ [Instr.swinit (swOp 1 0), .swexp (swOp 1 0), .swadd (swOp 1 0), .swinit (swOp 0 0x1FFF0), .swexp (swOp 0 0x1FFF0), .swadd (swOp 0 0x1FFF0)],
      true = true ∧ i.WellFormed ∧ Issues i Sw Sw)
    ∧ swAddr (swOp 1 0) Sw = .ok 0 ∧ swAddr (swOp 0 0x1FFF0) Sw = .ok 0x1FFF0 ∧ (Sw.gdst (.g 6)).toNat < 2 ^ 40
    ∧ (∀ op ∈ [SwOp.init, .expect, .add], (swChange op (Word16.of (Map.bytes Sw.cc.scratch 0 16)) (2 ^ 40 - 1)).isOk = true)
    ∧ (∃ r, checkLanes (Sw.whoOf 0) { n := 16, rd := true, wr := true, kind := true } [(0, 0x1FFF0, [(0x1FFF0, 16)])] Sw = .ok r ∧ r.2 ≠ []
      ∧ ∃ t, (match r.2 with | l :: _ => swHome ⟨0, 0⟩ (Sw.whoOf 0) l.va l.xlat .add 1 r.1 | [] => fault 0) = .ok t ∧ t.cur = Sw.cur)
    -- deferred in a rival, suppressed in a shadow copy
    ∧ (∀ u ∈ [0, 3], let s := withG 6 1 (Vw 1 u)
       (Issues (.swadd (swOp 0 0x1FFF0)) s s ∧ swAddr (swOp 0 0x1FFF0) s = .ok 0x1FFF0 ∧ (s.whoOf 0).view = 1)
        ∧ ∃ r, checkLanes (s.whoOf 0) { n := 16, rd := true, wr := true, kind := true } [(0, 0x1FFF0, [(0x1FFF0, 16)])] s = .ok r
          ∧ (r.2 ≠ [] ∧ (let s3 := enterScope (s.whoOf 0) .grp r.2 r.1
              (s3.view 1).use.toNat = u ∧ (s3.view 1).queue.isSome = true ∧ (s3.view 1).escs.length < 64)))
    ∧ ((∀ i ∈ [Instr.swwait (swOp 1 0), .swpoll (swOp 1 0), .swwait (swOp 0 0x1FFF0)], true = true ∧ i.WellFormed ∧ Issues i Sw Sw)
      ∧ (∃ r, swRead (swOp 1 0) Sw = .ok r ∧ (r.2.map fun x => (x.1.gen, x.1.ovf)) = some (0, false)
        ∧ (Sw.gdst (.g 6)).toNat % 2 ^ 32 ≠ 0)
      ∧ (∃ r, swRead (swOp 0 0x1FFF0) Sw = .ok r ∧ (r.2.map fun x => (x.1.ovf, x.2.isEmpty)) = some (false, false))
      ∧ ((withG 6 0 Sw).gdst (.g 6)).toNat % 2 ^ 32 = 0 ∧ Issues (.swwait (swOp 1 0)) (withG 6 0 Sw) (withG 6 0 Sw)) :=
  ⟨issuesAll (by decide +kernel), by decide +kernel, by decide +kernel, by decide +kernel, by decide +kernel, ok2 (by decide +kernel),
   fun u hu => ⟨wit (by revert u; decide +kernel), ok (by revert u; decide +kernel)⟩,
   issuesAll (by decide +kernel), ok (by decide +kernel), ok (by decide +kernel), by decide +kernel, issues (by decide +kernel)⟩
theorem witness_CounterInstructionsComplete :
    (∀ i ∈ [Instr.ctrsel (sop 0 0x107 0), .ctrrd (sysOp 0x107), .ctrrd { sysOp 0x107 with sub := 1 }, .ctrrd (sysOp 0x113)],
      true = true ∧ i.WellFormed ∧ Issues i M M) ∧ M.active p0 ≠ []
    ∧ (let s := M.modStudio 0 fun st => { st with perf := [(7, ⟨5, some 0, 3⟩)] }
       Map.find (0x107 - 0x100) (s.studio s.ck).perf = some ⟨5, some 0, 3⟩ ∧ Issues (.ctrrd { sysOp 0x107 with sub := 1 }) s s) :=
  ⟨issuesAll (by decide +kernel), by decide +kernel, by decide +kernel, issues (by decide +kernel)⟩
/-- A chain of one addition of inputs 0 and 1 into k0: its record at 0x10100, and the same in slot 7. -/
def chain1 : Chain := ⟨[BitVec.ofNat 64 (2 ^ 56 + 3 * 2 ^ 52 + 2 ^ 44)], [0, 0, 0, 0], 0, 0, 0x10100⟩
def Ch : State := withG 2 0x10100 (M.setBytes 0x1200100 ([1, 0] ++ leBytes 30 0 ++ leBytes 8 (2 ^ 56 + 3 * 2 ^ 52 + 2 ^ 44)))
def chOp7 : AOp := { aop 0 .i8 7 with a := .g 2 false }
theorem witness_ChainInstructionsComplete :
    ((Instr.chld chOp7).WellFormed ∧ Issues (.chld chOp7) Ch Ch ∧ Ch.active p0 ≠ [] ∧ ∃ r, loadChain (Ch.whoOf 0) (Ch.gsrc (.g 2 false)) Ch = .ok r ∧ r.2 = some chain1)
    ∧ (let s := Ch.modStudio 0 fun st => { st with chains := [(7, chain1)] }
       (Instr.chrun (aop 0 .f32 7)).WellFormed ∧ Issues (.chrun (aop 0 .f32 7)) s s ∧ Map.find 7 (s.studio s.ck).chains = some chain1
        ∧ chain1.ctx = s.cc.ctx) :=
  ⟨⟨by decide +kernel, issues (by decide +kernel), by decide +kernel, ok (by decide +kernel)⟩, by decide +kernel, issues (by decide +kernel), by decide +kernel⟩

/-! ### Arenas and regions -/

def liveArena : Arena := { (default : Arena) with state := 1, owner := 0, depth := 1, quota := 100 }
/-- Arena 1 live with the page of `M` charged to it, an arena window at 4 GiB, and operands in g2, g4, g8. -/
def Ar (b c : BitVec 64) : State := withG 8 c (withG 4 b (withG 2 1 ((({ M with arenas := [(1, liveArena)], pages := [(1, ⟨1, 0, true, false⟩)] } : State).setLeafAt
  0x104008 (2 ^ 52 + 0x1200000 + 2 ^ 14 + 0x1F)).modCtx 0 fun x => { x with arwin := 0x100000000, arwinLen := 0x100000000, crown := 1 })))
def arOp (variant : BitVec 4) (m : BitVec 32) : AOp := { aop variant .n64 m with a := .g 2 false }
def arOp3 (variant : BitVec 4) (m : BitVec 32) : AOp := { arOp variant m with d := .g 6, b := .g 4 false, c := .g 8 false }
/-- `.try` with predicate 1. -/
def tryM : BitVec 32 := 0x18000000
theorem witness_NewArenaFields : ((Ar 0 0).arena 1).state = 1 ∧ ∃ r, childArena 1 { parent := 1, depth := 0, owner := 0, quota := 100, resv := 100 } (Ar 0 0) = .ok r
    ∧ (r.2 = 2 ∧ ((Ar 0 0).ancestors 9 1).Nodup) := ⟨by decide +kernel, ok (by decide +kernel)⟩
theorem witness_ArenaInstructions :
    (∀ i ∈ [Instr.arnew (arOp3 0 0), .aralloc { arOp3 0 0 with c := v0s }, .arseal (arOp 0 0), .ardrop (arOp 0 0), .ardrop (arOp 1 0),
        .arquery { arOp 0 3 with d := .g 6 }, .arnew (arOp3 0 tryM)], true = true ∧ i.WellFormed ∧ Issues i (Ar 1 1) (Ar 1 1))
    ∧ (Ar 1 1).active p0 ≠ [] ∧ refuses (Ar 1 1) = false ∧ liveHandle 0 1 (Ar 1 1) = .ok 1 ∧ handleOf 0 1 (Ar 1 1) = .ok 1 ∧ ((Ar 1 1).arena 1).state ≠ 2
    ∧ (uniA (arOp3 0 0) (Ar 1 1), uniB (arOp3 0 0) (Ar 1 1), uniC (arOp3 0 0) (Ar 1 1)) = (1, 1, 1)
    ∧ (∃ r, childArena 1 { parent := 1, depth := 0, owner := 0, quota := 1, resv := 1, task := 0 } (Ar 1 1) = .ok r ∧ r.2 = 2)
    ∧ (childArena 1 { parent := 1, depth := 0, owner := 0, quota := 101, resv := 101, task := 0 } (Ar 101 101)).isOk = false
    ∧ (∃ r, allocPages 1 1 false (Ar 1 1) = .ok r ∧ r.2 = 0x100000000)
    ∧ (let s := Ar 0x10000 1
       Issues (.arfree { arOp3 0 0 with d := .v 0 }) s s ∧ uniB (arOp3 0 0) s = 0x10000 ∧ notMapped 0 1 [0x10000] s = none ∧ ∃ t, freePages 1 0x10000 1 s = .ok t ∧ True)
    ∧ (let s := (Ar 0 0).modArena 1 fun e => { e with state := 2 }
       Issues (.arseal (arOp 0 0)) s s ∧ liveHandle 0 1 s = .ok 1 ∧ (s.arena 1).state = 2) :=
  ⟨issuesAll (by decide +kernel), by decide +kernel, by decide +kernel, by decide +kernel, by decide +kernel, by decide +kernel, by decide +kernel,
   ok (by decide +kernel), by decide +kernel, ok (by decide +kernel),
   ⟨issues (by decide +kernel), by decide +kernel, by decide +kernel, ok (by decide +kernel)⟩, wit (by decide +kernel)⟩
/-- A region of the last line of the address space; one that would meet it; the last index. -/
def Rg (a b : BitVec 64) : State := withG 4 b (withG 2 a (M.modCtx 0 fun x => { x with regions := [(0, ⟨2, 0, 0, 1, 0, none⟩), (1023, ⟨2, 5, 0, 1, 128, none⟩)] }))
def rgOp : AOp := { arOp 0 2 with d := .g 6, b := .g 4 false }
theorem witness_RegionInstructions :
    (let s := Rg (2 ^ 57 - 128) 128
     (Instr.rgset rgOp).WellFormed ∧ Issues (.rgset rgOp) s s ∧ s.active p0 ≠ [] ∧ refuses s = false ∧ uniA rgOp s = 2 ^ 57 - 128 ∧ uniB rgOp s = 128
      ∧ overlaps 0 (2 ^ 57 - 128) 128 s = false ∧ Map.find 1 (s.ctx 0).regions = none ∧ ∀ j < 1, (Map.find j (s.ctx 0).regions).isSome = true)
    ∧ overlaps 0 0 128 (Rg 0 128) = true
    ∧ (let s := Rg 1023 0
       Issues (.rgclr (arOp 0 0)) s s ∧ uniA (arOp 0 0) s < 1024 ∧ Map.find 1023 (s.ctx 0).regions = some ⟨2, 5, 0, 1, 128, none⟩ ∧ ownsRegion ⟨2, 5, 0, 1, 128, none⟩ s = false
        ∧ ownsRegion ⟨2, 0, 0, 1, 0, none⟩ s = true ∧ Map.find 512 (s.ctx 0).regions = none)
    ∧ (let s := Rg 127 0
       Issues (.rgquery { arOp 0 0 with d := .g 6 }) s s ∧ s.regionAt 0 127 = some (0, ⟨2, 0, 0, 1, 0, none⟩) ∧ s.regionAt 0 256 = none) :=
  ⟨⟨by decide +kernel, issues (by decide +kernel), by decide +kernel⟩, by decide +kernel, wit (by decide +kernel),
   issues (by decide +kernel), by decide +kernel⟩

/-! ### Worlds and tasks -/

/-- `s` with g0 (a record or a ticket), g2 and g4. -/
def ops (a b c : BitVec 64) (s : State) : State := withG 4 c (withG 2 b (withG 0 a s))
/-- A queue descriptor at 0x18000: 16 entries at 0x19000, enabled, a device queue; its head is `h`, its controller's tail `t`. -/
def Tq (h : Nat) (t : BitVec 64) : State := ((M.setBytes 0x1208000 (leBytes 8 0x19000 ++ leBytes 16 100 ++ leBytes 8 h)).modCtx 0 fun x =>
  { x with qtab := 0x1208000, queues := [(0, ⟨t, 0, false⟩)] })
theorem witness_TaskInstructions :
    (∀ i ∈ [Instr.tlaunch { xop 0 with dest := .g 6 }, .tdep { xop 0 with coord := .g 2 false }, .tdepGo (xop 1), .worknext { xop 0 with dest := .g 6, imm := 1 }],
      true = true ∧ i.WellFormed ∧ Issues i (Tq 0 0) (Tq 0 0))
    ∧ inCopy (Tq 0 0) 0 = false ∧ inRival (Tq 0 0) 0 = false ∧ (Tq 0 0).active p0 ≠ []
    ∧ (∃ d, deviceQueue 0 0 (Tq 0 16) = .ok d ∧ d.full = true)
    ∧ (let s := ops 0x10000 0 0 (Tq 15 15)
       (∃ d, deviceQueue 0 0 s = .ok d ∧ d.full = false ∧ d.tail = 15)
        ∧ ∃ r, checkLanes (s.whoOf 0) { n := 64, rd := true, wr := false } [(0, 0x10000, [(0x10000, 64)])] s = .ok r ∧ r.2 ≠ []
          ∧ ∃ x, (do let d ← deviceQueue 0 0 s; submit 0 0 0x10000 false d (releaseActs r.1.cur (s.whoOf 0) 4 none r.1)) = .ok x ∧ x.2 = ticketOf 0 0 1)
    ∧ (let s := ops 0 5 0 { M with tasks := [{ task0 with state := 2 }] }
       s.task (s.gval 0) = some { task0 with state := 2 } ∧ task0.ctx = s.cc.ctx ∧ task0.deps.length < 8 ∧ s.gsrc (.g 2 false) ≠ task0.ticket)
    ∧ (let s := ops (2 ^ 48) 0 0 (withTask M)
       s.task s.cc.ticket = some task0 ∧ (s.gval 0).toNat = 2 ^ 48 ∧ task0.shared = false) :=
  ⟨issuesAll (by decide +kernel), by decide +kernel, by decide +kernel, by decide +kernel, ok (by decide +kernel), ⟨ok (by decide +kernel), ok2 (by decide +kernel)⟩,
   by decide +kernel⟩
def wOp (variant : BitVec 4) : AOp := { aop variant .n64 0 with d := .g 6, a := .g 2 false }
/-- A world of two ended rivals, scores 7 and 3, that the acting cell has forked. -/
def world2 : World := ⟨true, 1, [1, 2], 0, 6, [], none⟩
def Wo : State := let v := { (default : View) with state := 2, wended := true }
  withG 2 1 (({ M with views := [(1, { v with score := 7 }), (2, { v with score := 3, index := 1 })] } : State).modCc fun c => { c with wrec := some world2 })
/-- A rival: the acting cell in view 1. -/
def Ri : State := ({ M with views := [(1, { (default : View) with state := 1 })] } : State).modCc fun c => { c with view := 1 }
theorem witness_WorldInstructions :
    (let s := withG 4 (2 ^ 32 - 1) (withG 2 8 (({ Ar 0 0 with arenas := [(1, { liveArena with crown := true })] } : State)))
     let o : AOp := { wOp 0 with b := .g 4 false }
     (Instr.forkw o).WellFormed ∧ Issues (.forkw o) s s ∧ s.active p0 ≠ [] ∧ uniA o s = 8 ∧ uniB o s = 2 ^ 32 - 1 ∧ inCopy s 0 = false ∧ worldBusy s = false
      ∧ s.cc.fork = none ∧ (s.view s.cc.view).depth ≠ 4 ∧ 8 ≤ (freeViews s).length
      ∧ (openRivals (recCrown 0 default s) 0 s.cc.view (2 ^ 32 - 1) 8 0 s).isSome = true)
    ∧ (Issues (.wend { aop 0 .n64 0 with a := .g 2 false }) Ri Ri ∧ inRival Ri 0 = true ∧ Ri.cc.ended = false)
    ∧ (let s := Ri.modCc fun c => { c with ended := true }
       Issues (.wend { aop 0 .n64 0 with a := .g 2 false }) s s ∧ inRival s 0 = true ∧ s.cc.ended = true)
    ∧ ((∀ i ∈ [Instr.choose (wOp 0), .chooseMin { aop 1 .n64 0 with d := .g 6 }, .wabort (aop 0 .n64 0), .wquery (wOp 0)],
        true = true ∧ i.WellFormed ∧ Issues i Wo Wo)
      ∧ openWorld Wo = some world2 ∧ Wo.cc.wrec = some world2 ∧ uniA (wOp 0) Wo = 1 ∧ 1 < world2.views.length ∧ bestRival world2 Wo = 1
      ∧ Wo.isRival (Wo.view 2).parent = false ∧ world2.left = none
      ∧ (let r := commitView 2 (discardRivals world2 (· != 1) Wo)
         let s3 := r.2.1.foldl (fun s id => finishShoot id s) r.1
         (performEscs r.2.2 (releaseActs s3.cur (s3.whoOf s3.cur.cell) 4 none s3)).2 = ([], none))) :=
  ⟨⟨by decide +kernel, issues (by decide +kernel), by decide +kernel⟩,
   wit (by decide +kernel), wit (by decide +kernel),
   issuesAll (by decide +kernel), by decide +kernel⟩
theorem witness_ChooseMinPicksTheLeastScore : 1 < world2.views.length := by decide
theorem witness_WorkSharesCoverTheIterations : 1 ≤ 1 ∧ 2 ^ 48 ≤ 2 ^ 48 ∧ (0 : Nat) + 1 < 2 := by decide

/-! ### Transfers -/

/-- Queue 1 of the acting group with two entries. -/
def Qs : State := B.modCg fun g => { g with queues := [(1, [[1], [2]])] }
theorem witness_QueuePops :
    (let s := B.modCc fun c => { c with badWalks := true }; s.cc.badWalks = true)
    ∧ (Qs.cc.badWalks = false ∧ Map.getD Qs.cg.queues 1 [] = [1] :: [[2]])
    ∧ (let s := B.modCc fun c => { c with walks := [⟨leBytes 8 0 ++ leBytes 8 16, [], 0, 0⟩] }
       Map.getD s.cg.queues 1 [] = [] ∧ queueEnded s.cc s.cg 1 = false)
    ∧ (Map.getD B.cg.queues 1 [] = [] ∧ queueEnded B.cc B.cg 1 = true ∧ Map.find 1 B.cg.qfault = none)
    ∧ (let s := B.modCg fun g => { g with qfault := [(1, default)] }; queueEnded s.cc s.cg 1 = true ∧ Map.find 1 s.cg.qfault = some default) := by decide +kernel
def popOp (variant : BitVec 4) (ty : Ty) (d : Dst) (m : BitVec 32) : AOp := { aop variant ty m with d := d, a := .q 1 }
/-- One element of type i8: the box of a record at 0x10200 and in slot 7. -/
def rec1 : List (BitVec 8) := leBytes 16 0 ++ leBytes 4 1 ++ leBytes 172 0
def Bx : State := withG 2 0x10200 (withG 0 (2 ^ 63 + 7) (((M.setBytes 0x1200200 rec1).modCc fun c => { c with descs := [(7, rec1)], scratchSz := 1, nstage := 2 })))
theorem witness_TransferPopsAndBoxes :
    ((∀ i ∈ [Instr.qpop (popOp 1 .n32 (.v 0) 2), .qpop (popOp 0 .n32 (.t 7) 0), .qpop (popOp 0 .n64 (.v 4) 0)],
        true = true ∧ i.WellFormed ∧ Issues i Qs Qs)
      ∧ (∃ r, popMany 1 2 Qs = .ok r ∧ r.2 = [[1], [2]]) ∧ ∃ r, popMany 1 1 Qs = .ok r ∧ r.2 = [[1]])
    ∧ (∀ i ∈ [Instr.ldesc { xop 0 with dest := .g 6, record := 2, coord := .g 4 false, imm := 7 }, .bcopy (xop 0), .bstore (xop 0)],
        true = true ∧ i.WellFormed ∧ Issues i Bx Bx)
    ∧ Bx.active p0 ≠ [] ∧ refuses Bx = false ∧ reportCheck (xop 0) Bx = .ok () ∧ Bx.cc.brush.length < 16
    ∧ (∃ r, readLayout 0x10200 Bx = .ok r ∧ r.2 = rec1) ∧ (Bx.gval 4).toNat < 2 ^ 57 ∧ handleForm (Bx.gval 0) Bx = .ok (.slot rec1)
    ∧ handleForm 0x10200 Bx = .ok (.mem 0x10200) ∧ 0 + (layoutOf rec1).bytes = Bx.cc.scratchSz ∧ leaderCoords (xop 0) (layoutOf rec1).dims Bx = .ok [0]
    ∧ (layoutOf rec1).ty.width ≠ 4 :=
  ⟨⟨issuesAll (by decide +kernel), ok (by decide +kernel), ok (by decide +kernel)⟩, issuesAll (by decide +kernel), by decide +kernel, by decide +kernel,
   by decide +kernel, by decide +kernel, ok (by decide +kernel), by decide +kernel⟩
/-- A collective record at 0x10200 of one element, one contribution, this module; a ring of two slots of 16 bytes in g6, g7. -/
def collRec : List (BitVec 8) := leBytes 8 1 ++ leBytes 24 0 ++ leBytes 32 1
def ringW : Ring := ⟨BitVec.ofNat 64 (2 ^ 36), BitVec.ofNat 64 (2 ^ 16 * 9 + 8)⟩
def Co : State := ops 0x10200 1 (16 * 2 ^ 24) (withG 6 ringW.w0 (withG 7 ringW.w1 ((withTask (M.setBytes 0x1200200 collRec)).modCc fun c =>
  { c with scratchSz := 40, nstage := 2, rings := [(1, ringW)], scratch := Map.setBytes c.scratch 36 (leBytes 4 2) })))
def ringOp (variant : BitVec 4) (off : BitVec 32) (d : Dst) : MOp := { mop variant .i8 off with data := d, index := .imm 0 }
theorem witness_TransferStagesCollectivesRings :
    (let s := ops 0 0 0 Co
     (Instr.bmcast { xop 0 with count := 1 }).WellFormed ∧ Issues (.bmcast { xop 0 with count := 1 }) s s ∧ (s.gval 0).toNat < 2 ^ 56
      ∧ Machine.chainDst (s.gval 0) % 16 = 0 ∧ s.cc.stage + 1 ≤ s.cc.nstage - 1 ∧ 24 + chainLen (s.gval 0) ≤ s.cc.scratchSz ∧ refuses s = false)
    ∧ ((Instr.bred (xop 0)).WellFormed ∧ Issues (.bred (xop 0)) Co Co ∧ ∃ r, readRecord (Co.whoOf 0) 64 0x10200 64 Co = .ok r
      ∧ (collOk r.2 r.1 = true ∧ (collOf r.2).src + 4 * (collOf r.2).n ≤ r.1.cc.scratchSz ∧ roundOf (collOf r.2).tag 0 r.1 = none))
    ∧ ((∀ i ∈ [Instr.ringdecl (ringOp 0 7 (.g 6)), .ringdeclClr (ringOp 1 7 (.v 0)), .rsend (ringOp 0 1 (.g 4)), .rhead (ringOp 0 1 (.g 2))],
        true = true ∧ i.WellFormed ∧ Issues i Co Co)
      ∧ ringW.ok Co.cc.scratchSz = true ∧ Map.find 7 Co.cc.rings = none ∧ inCopy Co 0 = false ∧ inRival Co 0 = false)
    ∧ ((Co.gdst (.g 4)).toNat < 2 ^ 40 ∧ bits (Co.gdst (.g 4)).toNat 39 24 = 16 ∧ 0 + 16 ≤ Co.cc.scratchSz)
    ∧ (Map.find 1 Co.cc.rings = some ringW ∧ (Co.gdst (.g 2)).toNat ≤ (counterAt Co.cc ringW.tailAt + 2 ^ 32 - counterAt Co.cc ringW.headAt) % 2 ^ 32)
    ∧ (let s := Co.modTask 0 fun t => { t with lrec := { (default : LRec) with x := 1, y := 1, z := 1, s := 1 } }
       let s2 := releaseActs s.cur (s.whoOf 0) 2 none s
       let s3 := signWrite s2.cur 0 (Map.bytes s.cc.scratch 0 16) s2
       0 < taskCells s ∧ inCopy s3 s3.cur.cell = false ∧ inRival s3 s3.cur.cell = false ∧ s3.cg.msgs.length < 4 ∧ (s3.studio s3.ck).landing + 16 ≤ 131072) :=
  ⟨⟨by decide +kernel, issues (by decide +kernel), by decide +kernel⟩, ⟨by decide +kernel, issues (by decide +kernel), ok (by decide +kernel)⟩,
   ⟨issuesAll (by decide +kernel), by decide +kernel⟩, by decide +kernel⟩

/-! ### The matrix state -/

/-- A cell of one tile with a palette; register 0 declared for 32 lanes, 31 of them signed off. -/
def Mx : State := withG 2 0 (M.modCc fun c => { c with tileCount := 1, pal := true, scratchSz := 196608, cvs := [(0, cvWord 14 0 32)] })
theorem witness_MatrixCommands :
    (∀ i ∈ [Instr.cvdecl { xop 0 with imm := 32 }, .cvsign (xop 0), .mfence (xop 0), .mzero (xop 0), .mwrite (xop 0), .mdrain { xop 0 with imm := 3040 },
        .mcheck (xop 0), .mma { xop 0 with coord := .g 2 false }, .mmar { xop 0 with count := 1 }], true = true ∧ i.WellFormed ∧ Issues i Mx Mx)
    ∧ Mx.active p0 ≠ [] ∧ (Mx.cc.saved = none ∧ Mx.cg.handler = false) ∧ cvSigned (Mx.cc.cv 0) = 0 ∧ 32 ≤ Mx.cc.shape ∧ cvDeclared (Mx.cc.cv 0) ≠ 0
    ∧ cvCredits (Mx.cc.cv 0) + (cvSigned (Mx.cc.cv 0) + (Mx.active p0).length) / cvDeclared (Mx.cc.cv 0) = 15
    ∧ 0 < Mx.cc.tileCount ∧ Mx.cc.cmds.length < 8 ∧ 64 * 3040 + 2048 = Mx.cc.scratchSz ∧ Mx.cc.pal = true ∧ refuses Mx = false
    ∧ (let d : BitVec 64 := BitVec.ofNat 64 (0xBB * 2 ^ 56)
       let s := withG 0 d Mx
       modeAhead s.cc 0 = false ∧ mulCheck false d 0 s = .ok false ∧ mulCheck true d 0 s = .ok false ∧ s.gval 0 = d) :=
  ⟨issuesAll (by decide +kernel), by decide +kernel⟩
/-- `Mx` with a command outstanding on tile 0; with the tile marked; in a handler that may save; with the area saved by group 0. -/
def Mb : State := Mx.modCc fun c => { c with cmds := [default] }
def Mu : State := Mx.modCc fun c => { c with tiles := [(0, { (default : Tile) with status := 0x10000000 })] }
def Mh : State := (withG 0 0x10040 (withTask Mx)).modCg fun g => { g with
  handler := true
  run := g.run.map fun u => { u with handler := true }
  entries := g.entries.map fun e => { e with handler := true } }
/-- The 648 chunks of an area at 0x10040 lie in the one mapped page: the first and the last pass the checks of the store and the load. -/
theorem witness_MatrixWaitsReadsSaves :
    (Issues (.mwait (xop 0)) Mb Mb ∧ tileBusy Mb.cc 0 = true ∧ Mb.cg.handler = false)
    ∧ (Issues (.mwait (xop 0)) Mx Mx ∧ tileBusy Mx.cc 0 = false ∧ (Mx.cc.tile 0).status.getLsbD 28 = false)
    ∧ (Issues (.mwait (xop 0)) Mu Mu ∧ tileBusy Mu.cc 0 = false ∧ (Mu.cc.tile 0).status.getLsbD 28 = true)
    ∧ ((Instr.mread (xop 0)).WellFormed ∧ Issues (.mread (xop 0)) Mx Mx)
    ∧ (Issues (.msave (xop 0)) Mh Mh ∧ Mh.active p0 ≠ [] ∧ Mh.cg.handler = true ∧ Mh.cc.saved = none ∧ (Mh.cc.cmds.any fun c => c.started) = false
      ∧ (Mh.gval 0).toNat % 2 ^ 57 % 64 = 0
      ∧ ∃ x, Mh.checkOne (Mh.whoOf 0) { n := 1, rd := false, wr := true } 0x10040 = .ok x ∧ x.2.isSome = true
        ∧ ∃ y, x.1.checkOne (Mh.whoOf 0) { n := 1, rd := false, wr := true } (0x10040 + 64 * 647) = .ok y ∧ y.2.isSome = true)
    ∧ (let s := (Mh.setBytes 0x1200040 (leBytes 4 0x00014D53)).modCc fun c => { c with saved := some 0 }
       Issues (.mrestore (xop 0)) s s ∧ s.cc.saved = some s.cur.grp ∧ s.cc.cmds = []
        ∧ (∃ r, readVa (s.whoOf 0) false 64 0x10040 64 s = .ok r ∧ imageOk r.1.cc r.2 = true)
        ∧ ∃ r, readVa (s.whoOf 0) false 64 (0x10040 + 64 * 647) 64 s = .ok r ∧ r.2.length = 64) :=
  ⟨wit (by decide +kernel), wit (by decide +kernel), wit (by decide +kernel),
   ⟨by decide +kernel, issues (by decide +kernel)⟩,
   ⟨issues (by decide +kernel), by decide +kernel, by decide +kernel, by decide +kernel, by decide +kernel, by decide +kernel, ok2 (by decide +kernel)⟩,
   ⟨issues (by decide +kernel), by decide +kernel, by decide +kernel, ok (by decide +kernel), ok (by decide +kernel)⟩⟩
/-- A zero record at 0x10000: one slab of i8. -/
def Pf (f : Option Fill) : State := withG 0 0x10040 (Mx.modCc fun c => { c with fills := match f with | some x => [(1, x)] | none => [] })
def pOp : XOp := { xop 0 with imm := 1 }
theorem witness_PaletteInstructions :
    ((Instr.pfill pOp).WellFormed ∧ Issues (.pfill pOp) (Pf none) (Pf none) ∧ refuses (Pf none) = false
      ∧ ∃ r, readRecord ((Pf none).whoOf 0) 64 0x10040 64 (Pf none) = .ok r ∧ (fillOk r.2 = true ∧ (Map.getD r.1.cc.fills 1 default).busy = false))
    ∧ (Issues (.pwait pOp) (Pf none) (Pf none) ∧ (Map.getD (Pf none).cc.fills 1 default).busy = false ∧ (Map.getD (Pf none).cc.fills 1 default).fault = none)
    ∧ (let s := Pf (some { (default : Fill) with busy := true }); Issues (.pwait pOp) s s ∧ (Map.getD s.cc.fills 1 default).busy = true)
    ∧ (let s := Pf (some { (default : Fill) with fault := some default })
       Issues (.pwait pOp) s s ∧ (Map.getD s.cc.fills 1 default).busy = false ∧ (Map.getD s.cc.fills 1 default).fault = some default)
    ∧ (let s := withG 0 (4095 * 2 ^ 12) Mx
       (∀ i ∈ [Instr.pzapB (xop 0), .pzapC (xop 1)], true = true ∧ i.WellFormed ∧ Issues i s s) ∧ (s.gval 0).toNat < 2 ^ 24
        ∧ bits (s.gval 0).toNat 11 0 + (bits (s.gval 0).toNat 23 12 + 1) ≤ 4096) :=
  ⟨⟨by decide +kernel, issues (by decide +kernel), by decide +kernel, ok (by decide +kernel)⟩, wit (by decide +kernel),
   wit (by decide +kernel), wit (by decide +kernel), issuesAll (by decide +kernel), by decide +kernel⟩

/-! ### Events: runs and meetings -/

/-- `C` with no run in flight. -/
def Rd : State := C.modCg fun g => { g with run := none }
/-- The entry of `C`. -/
def e0 : Entry := ⟨0x10000, 0xFFFFFFFF, 0, 0, false, .no⟩
theorem witness_RunDispatchStartsAPickedRun : Rd.module.powerNow ≠ 3 ∧ Rd.module.bootFailed = false
    ∧ (let s1 := settleWaits 0 Rd
       let s2 := countRefusals 0 s1
       lateDelivery s1 (studioGroups 0 s1) = none ∧ inFlight 0 s1 < 4 ∧ arbitrate 0 (readyGroups 0 s2) s2 = some ((0, ⟨0, 0⟩, e0), some 0)
        ∧ (runOf ⟨0, 0⟩ e0 s2).refused = false ∧ entryMarked ⟨0, 0⟩ e0 s2 = true) := by decide +kernel
/-- Two ready groups: the pointer behind both; and one passed over 384 times. -/
theorem witness_ArbitrationOrder :
    let rs := [(3, (⟨0, 0⟩ : GRef), e0), (5, ⟨0, 1⟩, e0)]
    (let s := Rd.modStudio 0 fun st => { st with rr := [(0, 4)] }
     arbitrate 0 rs s = some ((5, ⟨0, 1⟩, e0), some 0) ∧ (rs.map Prod.fst).Pairwise (· < ·))
    ∧ arbitrate 0 rs (Rd.modCg fun g => { g with passed := 384 }) = some ((3, ⟨0, 0⟩, e0), none) := by decide +kernel
/-- A held run. -/
def Hd : State := C.modRun fun r => { r with held := true }
/-- A producer that fills g6 and releases predicate 15, and nothing more. -/
def prod1 : Producer := { writes := [.g 6 5], regs := [.g 6], pred := some 15, fault := none, ckpt := none }
theorem witness_RunEventsComplete :
    (heldGroup 0 0 Hd = some ⟨0, 0⟩ ∧ (Hd.group ⟨0, 0⟩).run.isSome = true
      ∧ ∃ r, Hd.fetchSlot (Hd.whoOf 0) 0x10000 = .ok r ∧ r.1.cur = Hd.cur)
    ∧ (let s := Rd.modCg fun g => { g with outs := [prod1] }
       (s.group ⟨0, 0⟩).outs[0]? = some prod1 ∧ prod1.fork = false ∧ prod1.test = none ∧ prod1.fault = none ∧ prod1.acq = 0)
    ∧ ((Rd.group ⟨0, 0⟩).run = none ∧ (Rd.group ⟨0, 0⟩).holds = []) ∧ Rd.module.powerNow ≠ 3 :=
  ⟨⟨by decide +kernel, by decide +kernel, ok (by decide +kernel)⟩, by decide +kernel⟩
/-- Every lane waits at a meeting. -/
def meetingOf (w : Wait) : State := Rd.modCg fun g => { g with entries := [{ e0 with st := w }] }
/-- A held run whose dispatch could not see its first slot, of a group whose kernel entry is yet to be checked; and one at a page not mapped. -/
theorem witness_HeldRunsAreJudged :
    (let s := Hd.modGroup ⟨0, 0⟩ fun g => { g with first := true, run := g.run.map fun u => { u with unknown := some u.pc } }
     let sc := (clearHeld ⟨0, 0⟩ s).scanRun (s.whoOf 0) (pcLine s.crun.start) (24 - s.crun.hist.length) s.crun.pc
     heldGroup 0 0 s = some ⟨0, 0⟩ ∧ s.crun.unknown = some s.crun.pc ∧ sc.refused = false ∧ runReady ⟨0, 0⟩ sc.is ((runUses ⟨0, 0⟩ sc.is (clearHeld ⟨0, 0⟩ s)).map (restUses s.crun)) (clearHeld ⟨0, 0⟩ s) = true
      ∧ okB (s.fetchSlot (s.whoOf 0) s.crun.pc) (fun r => lineTarget r.2 (pcSlot s.crun.pc)) = true)
    ∧ (let s := Hd.modRun fun u => { u with pc := 0x20000, unknown := some 0x20000 }
       heldGroup 0 0 s = some ⟨0, 0⟩ ∧ (match s.fetchSlot (s.whoOf 0) 0x20000 with | .error y => !y.hold | .ok _ => false) = true) := by decide +kernel
theorem witness_MeetingsComplete : meets1 .regroup ((meetingOf .regroup).cell 0) = true ∧ meets1 .restore ((meetingOf .restore).cell 0) = true := by
  decide +kernel
theorem witness_RegroupPlacesEveryLane : (meeters ((meetingOf .regroup).cell 0)).length = 32 * 1 := by decide +kernel

/-! ### Events: engines -/

/-- A resident cell of one tile with one command of the Easel and one fill. -/
def Ez (c : Cmd) (f : Fill) : State := C.modCc fun x => { x with tileCount := 1, pal := true, scratchSz := 196608, cmds := [c], fills := [(1, f)] }
def mz : Cmd := { (default : Cmd) with major := 0x73 }
/-- A multiplication of bf16 in one slab, started. -/
def mm : Cmd := { (default : Cmd) with major := 0x74, started := true, desc := BitVec.ofNat 64 (0xBB * 2 ^ 56), segs := [⟨0, 0, 0, 32⟩] }
def fl (done : Nat) : Fill := { (default : Fill) with busy := true, record := leBytes 8 0x10000 ++ leBytes 56 0, done := done }
theorem witness_EaselEvents :
    (let s := Ez mz default
     (s.cell 0).place = .resident ∧ s.clockStopped = false ∧ (s.cell 0).cmds[0]? = some mz ∧ (residents 0 s).any (fun c => c.2.cmds.any (·.started)) = false
      ∧ easelTurn 0 s = some 0 ∧ oldestReady (s.cell 0) s = some 0)
    ∧ (mm.started = true ∧ mm.done < cmdSlabs mm) ∧ (let c := { mz with started := true }; c.started = true ∧ cmdSlabs c ≤ c.done)
    ∧ (let s := Ez mz (fl 0)
       (fl 0).busy = true ∧ (fl 0).fault = none ∧ (fl 0).done < (fillOf (fl 0).record).ks ∧ writeClear (s.cell 0).studio (fl 0).id (fillSpan (fl 0)) s = true)
    ∧ ((fl 1).busy = true ∧ (fillOf (fl 1).record).ks ≤ (fl 1).done) ∧ 0 < ((Ez mz default).cell 0).tileCount := by decide +kernel
theorem witness_FillStep : ∃ t, fillStep ((Ez mz (fl 0)).whoOf 0) 1 (fl 0) (Ez mz (fl 0)) = .ok t ∧ t.cur = ⟨0, 0⟩ := ok (by decide +kernel)
/-- A `bcopy` of one byte; a `bmcast` of 16 bytes to the next stage, which a second cell holds; a `bred` of one contribution. -/
def bc (major done : Nat) : Brush := { (default : Brush) with
  major := major
  done := done
  layout := leBytes 8 0x10000 ++ leBytes 8 0 ++ leBytes 4 1 ++ leBytes 172 0
  coords := [0]
  report := 7 }
def bm : Brush := { (default : Brush) with major := 0xCA, hops := 1, rec64 := leBytes 16 0 }
def br1 : Brush := { (default : Brush) with major := 0xCB, chain := 9, hops := 1, hop := 1, layout := leBytes 32 1, rec64 := leBytes 4 7, id := 3 }
def Bs (b : Brush) : State := let s := C.modCc fun x => { x with scratchSz := 16, nstage := 2, brush := [b] }
  { s with cells := Map.ins 1 { (default : Cell) with place := .resident, stage := 1, nstage := 2, scratchSz := 16 } s.cells }
theorem witness_BrushEvents :
    (let s := Bs (bc 0xC8 0)
     (s.cell 0).place = .resident ∧ s.clockStopped = false ∧ (s.cell 0).brush[0]? = some (bc 0xC8 0) ∧ 0 < burstsOf (layoutOf (bc 0xC8 0).layout)
      ∧ (let us := burstUnits (layoutOf (bc 0xC8 0).layout) 0
         let r := moveUnits (s.whoOf 0) (bc 0xC8 0) us (startBrush 0 0 (signBurst 0 (bc 0xC8 0) us s)).tick 0
         r.2 = (1, none) ∧ landRoom (s.cell 0).studio (unitBytes (layoutOf (bc 0xC8 0).layout) * us.length) s = true ∧ (reportBytes 0 (bc 0xC8 0) 1 (r.1.perf 0 0 0x0A 1)).isSome = true))
    -- a report to a word of a recoverable page whose arena the supervisor has made migrate waits
    ∧ (let b := { bc 0xC8 0 with report := 3, word := 0x10000 }
       let s := (Bs b).setLeafAt 0x104008 (0x1200000 + 2 ^ 14 + 2 ^ 12 + 0x1F)
       reportBytes 0 b 1 s = none)
    ∧ brushDone (bc 0xC8 1) = true
    ∧ (let s := Bs bm
       brushDone bm = false ∧ (reportBytes 0 bm 16 s).isSome = true ∧ stageCell (s.cell 0) 1 s = some 1 ∧ (s.cell 1).place = .resident
        ∧ Machine.chainDst bm.chain + chainLen bm.chain ≤ (s.cell 1).scratchSz ∧ chainWord bm.chain + 16 ≤ (s.cell 1).scratchSz)
    ∧ (br1.accepted = false ∧ (Bs br1).inService (.slice ((Bs br1).homeSlice 9)) = true ∧ ((Bs br1).studio 0).landing + bredBytes br1 ≤ 131072
      ∧ roundOf 9 0 (Bs br1) = none)
    ∧ (let r : Round := ⟨9, 0, 0, 0, 1, leBytes 32 1, [⟨0, 3, [7]⟩]⟩
       let s : State := { Bs { br1 with accepted := true } with rounds := [r] }
       roundOf 9 0 s = some r ∧ roundSize r s = some 1 ∧ 1 ≤ r.parts.length
        ∧ (r.parts.foldlM (deliverRound [7] 4) (r.parts.foldl (roundFence false) { s with rounds := [] })).isSome = true) := by decide +kernel
def wk : Walk := ⟨leBytes 8 0x10000 ++ leBytes 184 0, [0], 0, 0⟩
theorem witness_WalkEvents : let s := Bs bm |>.modCc fun c => { c with walks := [wk] }
    (s.cell 0).place = .resident ∧ s.clockStopped = false ∧ (s.cell 0).walks[0]? = some wk ∧ wk.state = 0 ∧ queueLen (s.group ⟨0, wk.grp⟩) (walkQueue wk) < 16
    ∧ ∃ r, walkEntry (s.whoOf 0) wk 32 0 s = .ok r ∧ r.2.length = 32 :=
  ⟨by decide +kernel, by decide +kernel, by decide +kernel, by decide +kernel, by decide +kernel, ok (by decide +kernel)⟩
/-- A message of 16 bytes from cell 0 to itself on ring 1, its packet at the node of studio 0. -/
def msg1 (refused : Bool) : Msg := ⟨1, 0, leBytes 16 5, false, refused, 4⟩
def pk : Packet := let z := nodeOf 0; ⟨0, z.1, z.2, z.1, z.2, 0, 4⟩
def Rm (refused : Bool) (rings : Map Ring) (tail : Nat) : State :=
  let s := { C with tasks := [{ task0 with lrec := { (default : LRec) with x := 1, y := 1, z := 1, s := 1 } }], packets := if refused then [] else [pk] }
  (State.modCc s fun c => { c with scratchSz := 40, nstage := 1, rings := rings, scratch := Map.setBytes [] 36 (leBytes 4 tail) }).modCg fun g =>
    { g with msgs := [msg1 refused] }
theorem witness_RingEvents :
    (∀ n ∈ [0, 1], let s := Rm false [(1, ringW)] n
      msgAt 0 0 0 s = some (msg1 false) ∧ msgFirst 0 (msg1 false) s = true ∧ packetOf (msg1 false) s = some pk ∧ arrived pk = true
        ∧ (let s1 : State := { s with packets := [] }
           reachRing (s.cell 0) (msg1 false) s1 = some (0, ringW) ∧ nodeOf (s1.cell 0).studio = (pk.to_x, pk.to_y) ∧ ringW.prod = linearIn (s.cell 0) s1
            ∧ (msg1 false).bytes.length ≤ ringW.size ∧ ringUsed (s1.cell 0) ringW = n))
    ∧ ringW.slots = 2 ∧ ringUsed ((Rm false [(1, ringW)] 2).cell 0) ringW = 2 ∧ reachRing ((Rm false [] 0).cell 0) (msg1 false) (Rm false [] 0) = none
    ∧ (let s := Rm true [(1, ringW)] 1
       (s.cell 0).place = .resident ∧ msgAt 0 0 0 s = some (msg1 true) ∧ reachRing (s.cell 0) (msg1 true) s = some (0, ringW) ∧ ringUsed (s.cell 0) ringW < ringW.slots) := by
  decide +kernel
/-- From column 15 to column 0: one hop over the edge. -/
theorem witness_TorusHops :
    (let p : Packet := ⟨0, 15, 3, 0, 3, 0, 4⟩
     let s : State := { C with packets := [p] }
     s.packets[0]? = some p ∧ nextRing p = 1 ∧ packetFirst 0 p s = true ∧ packetTurn p s = true ∧ buffersUsed 0 1 15 3 s = 0 ∧ arrived p = false)
    ∧ (let p : Packet := ⟨0, 15, 3, 0, 3, 1, 4⟩
       let s : State := { C with packets := [p] }
       nextRing p = p.ring ∧ buffersUsed 0 1 0 3 s ≤ 1 ∧ packetFirst 0 p s = true ∧ packetTurn p s = true) := by decide +kernel

/-! ### Events: caches, arenas, translations -/

/-- A clean line of arena 1, generation 0. -/
def line1 (pin : Bool) : Line := { arena := 1, gen := 0, view := 0, ctx := 0, pin := pin, rcv := false, dirty := 0, data := leBytes 128 0 }
def Lc (pin : Bool) : State := ({ M with l2 := [(9, line1 pin)], arenas := [(1, liveArena)] } : State).modStudio 0 fun st =>
  { st with l1 := [(8, line1 false)], reds := [⟨5, 0, []⟩] }
/-- Arena 1 dropped once: its generation 0 being swept in units `us`, and sealed in them. -/
def sw1 (us : List Nat) : Sweep := ⟨1, 0, us, true, [], 0, [], 0⟩
def Dr (us : List Nat) : State := { M with arenas := [(1, { liveArena with state := 3, gen := 1, sweeping := 1 })], sweeps := [sw1 us] }
theorem witness_CacheAndTranslationEvents :
    ((((Lc false).studio 0).reds[0]?).isSome = true ∧ (Lc false).l1Live 0 8 = some (line1 false)
      ∧ Map.find 9 (Lc false).l2 = some (line1 false) ∧ ((Lc false).l2Live 9).isSome = true ∧ Map.find 9 (Lc true).l2 = some (line1 true)
      ∧ ((Lc true).l2Live 9).isSome = true)
    ∧ (nextDrop 0 1 (Dr [0]) = some (sw1 [0], 1) ∧ (Dr []).sweeps.find? (fun w => w.arena == 1 && w.gen == 0) = some (sw1 []) ∧ (sw1 []).units = [])
    ∧ (let s : State := { Lc false with sealbs := [⟨1, 0, [191]⟩] }
       s.sealbs.find? (fun w => w.arena == 1 && w.units.contains 191) = some ⟨1, 0, [191]⟩ ∧ 191 < 192 ∧ (s.arena 1).gen.toNat = 0
        ∧ nextDrop 191 1 s = none)
    ∧ (let s : State := { M with shoots := [⟨1, 0, 0, 65536, [0], [], none⟩] }; s.shoots[0]? = some ⟨1, 0, 0, 65536, [0], [], none⟩)
    ∧ Map.getD (M.modModule fun m => { m with requests := [(0x104008, true)] }).module.requests 0x104008 false = true
    ∧ (let s := M.setLeafAt 0x104008 (0x1200000 + 2 ^ 14 + 2 ^ 12 + 0x1F)
       leafBit (s.pte 0x104008 0) 0 = true ∧ leafBit (s.pte 0x104008 0) 1 = true ∧ leafRes (s.pte 0x104008 0) = 1
        ∧ leafShot 0x104008 s = false ∧ mayMove 0x180 1 s = true
        ∧ leafShot 0x104008 { s with shoots := [⟨1, 0, 0x10000, 65536, [0], [], none⟩] } = true)
    ∧ (let s := M.setLeafAt 0x104008 (0x1200000 + 2 ^ 14 + 2 ^ 13 + 0x1F)
       leafRes (s.pte 0x104008 0) = 2 ∧ (partLeaf ⟨0x104008, none⟩ s).isSome = true)
    ∧ (let s := Y.setLeafAt 0x103000 (2 ^ 14 + 2 ^ 13 + 2 ^ 10 + 0x1F)
       leafBit (s.pte 0x103000 0) 0 = true ∧ leafBit (s.pte 0x103000 0) 1 = true ∧ leafRes (s.pte 0x103000 0) = 2
        ∧ (partLeaf ⟨0x103000, some 511⟩ s).isSome = true)
    ∧ ((partLeaf ⟨0x104008, none⟩ M).isSome = true ∧ leafMaps 0x104008 M ≠ [] ∧ (partLeaf ⟨0x103000, some 511⟩ Yl).isSome = true ∧ leafMaps 0x500000 M = []) := by decide +kernel

/-! ### Events: the launch controller and cells -/

/-- A task of one cell of 32 lanes, at address 0x10000, in state `st`; nothing of it admitted. -/
def lrec1 : LRec := { (default : LRec) with entry := 0x10000, x := 1, y := 1, z := 1, s := 1, budget := 32, shape := 32 }
def Tk (st : Nat) : State := { Ar 0 0 with cells := [], tasks := [{ task0 with state := st, lrec := lrec1, entryIdx := noEntry }], arenas := [(1, { liveArena with quota := noLimit })] }
/-- A task whose first cell of two has retired, its per-thread pages listed. -/
def task5 : Task := { task0 with lrec := { lrec1 with x := 2 }, next := 1, retired := 1, ptArena := 1 }
def T5 : State := { Tk 5 with tasks := [task5], pages := [(pageKey 0 0x200000, ⟨1, 0, false, false⟩)] }
theorem witness_Admission : nextTask T5 = some task5 ∧ task5.ticket = 0 ∧ T5.module.bootFailed = false ∧ savedCells 0 T5 = []
    ∧ placementOk ⟨0, 0x200000, 0x20000, false⟩ T5 = true ∧ (admitLaunch task5 ⟨0, 0x200000, 0x20000, false⟩ T5).isOk = true := by decide +kernel
/-- A journal whose second copy has the later change. -/
theorem witness_Takeover : let s : State := { withTask M with ctlLog := [(2, []), (3, [⟨7, 0, 0, 5⟩])] }
    (if lastChange (Map.getD s.ctlLog 2 []) < lastChange (Map.getD s.ctlLog 3 []) then Map.getD s.ctlLog 3 [] else Map.getD s.ctlLog 2 []) = [⟨7, 0, 0, 5⟩]
      ∧ s.task (BitVec.ofNat 64 0) = some task0 := by decide +kernel
theorem witness_LaunchEvents :
    (63 < 64 ∧ (let s := M.modModule fun m => { m with kick := [(64 * 0 + 63, true)] }
      s.module.bootFailed = false ∧ Map.getD s.module.kick 63 false = true ∧ hasCtx 0 s = true ∧ (s.ctx 0).rejoin = false))
    ∧ (∀ st ∈ [3, 4], let s := Tk st
       (s.task 0).map (fun x => (x.failing, x.replay, x.state, depsDone x s, earlierAdmitted x s)) = some (false, none, st, true, true)
        ∧ firstUnmapped 0 [] s = none ∧ (match readyAll 0 [] s false with | .ready _ => true | _ => false) = true) := by decide +kernel
/-- The cell of `C`, all its lanes gone. -/
def Id : State := (withTask C).modCg fun g => { g with entries := [], run := none }
/-- The cell of `C` between runs. -/
def Bt : State := (withTask C).modCg fun g => { g with run := none }
theorem witness_CellEvents :
    (let s := Bt.modModule fun m => { m with studiomap := 0 }
     (s.cell 0).place = .resident ∧ (gangOf 0 s).all (fun m => canStop m s) = true ∧ s.inService (.studio (s.cell 0).studio) = false)
    ∧ (let x := { task0 with ticket := 1, state := 5, lrec := { lrec1 with prio := 5, scratch := 393217 } }
       let s := { Bt with tasks := [task0, x] }
       x.state = 5 ∧ wantsAdmission x s = true ∧ headStuck x s = true ∧ victim x.lrec.prio s = some 0 ∧ (gangOf 0 s).all (fun m => canStop m s) = true)
    ∧ (let s := ({ Bt with tasks := [{ task0 with lrec := lrec1, next := 1 }] } : State).modCell 0 fun c => { c with place := .saved }
       ((nextTask s).map fun x => (restoreUnit x s, (restoreAll (restoreUnit x s) s).isSome)) = some ([0], true) ∧ restoreStudio 0 s = some 0 ∧ lrec1.cores = false)
    ∧ (let s := (({ Bt with views := [(1, { (default : View) with state := 1 }), (2, { (default : View) with state := 1, index := 1 })] } : State)).modCell 0 fun c =>
         { c with fork := some ⟨0, 6, [1, 2]⟩ }
       canStop 0 s = true ∧ (let t := takeFork 0 ⟨0, 6, [1, 2]⟩ s
         (cloneIn 1 t).isSome = true ∧ canTake (s.cell 0).studio (s.cell 0).ctx (s.cell 0).pal (s.cell 0).load [] t = true
          ∧ (let m := (cloneIn 1 t).getD 0
             okB (giveArea m t) (fun t2 => (comeTo m 0 (placeCell m 0) t2).isSome) = true ∧ gangWaits (t.cell m) t = false ∧ (t.cell m).fork = none ∧ (t.cell m).rival = true ∧ (t.cell m).place = .unplaced ∧ cloneTurn m t = true
              ∧ canTake 191 (t.cell m).ctx (t.cell m).pal (t.cell m).load [] t = true
              ∧ okB (giveArea m t) (fun t2 => (comeTo m 191 (placeCell m 191) t2).isSome) = true)))
    ∧ (let s := (({ Bt with views := [(1, { (default : View) with state := 2 })] } : State)).modCell 0 fun c => { c with place := .forked, wrec := some ⟨true, 1, [1], 0, 6, [], none⟩ }
       ((s.cell 0).wrec.map fun w => (w.unresolved, w.views.all fun v => (s.view v).state == 2)) = some (true, true) ∧ restoreStudio 0 s = some 0
        ∧ (restoreOne 0 0 (answerFork 0 0 6 0) s).isSome = true)
    ∧ ((Id.cell 0).tiles.any (fun t => uncorr t.2) = false ∧ (Id.cell 0).sigDone = none ∧ Id.stopped 0 = false ∧ (Id.cell 0).rival = false ∧ cellIdle 0 Id = true)
    ∧ (let s := Id.modCell 0 fun c => { c with rival := true }; s.stopped 0 = false ∧ rivalOver 0 s = true)
    ∧ (let s : State := { Id with tasks := [{ task0 with failing := true }] }; (s.task (s.cell 0).ticket).map (·.failing) = some true) := by decide +kernel

/-! ### Events: recovery and the module -/

def ck1 : Ckpt := ⟨1, 0x10040, (List.range 12).map fun d => (d, 0), false⟩
/-- Checkpoint 1 of context 0 prepared on every die. -/
def Ck : State := { M with ckpts := [(0, ck1)], gesso := (List.range 12).map fun d => (d, { (default : Gesso) with commits := [⟨0, 1, 0, [], [], false⟩] }) }
theorem witness_CkptSeal : Map.find 0 Ck.ckpts = some ck1 ∧ 12 ≤ ck1.acks.length ∧ ck1.unreachable = false
    ∧ wholeCkpt 0 1 { storeSeal 0 1 (ckptList ck1) (Config.shake256 (ckptList ck1)) Ck with ckpts := [] } = true := by
  refine ⟨by decide +kernel, by decide, rfl, ?_⟩
  simp only [wholeCkpt, List.all_eq_true]
  intro d hd
  have h : commitOn 0 1 d { storeSeal 0 1 (ckptList ck1) (Config.shake256 (ckptList ck1)) Ck with ckpts := [] }
      = some ⟨0, 1, 0, ckptList ck1, Config.shake256 (ckptList ck1), true⟩ := by
    simp only [storeSeal, beq_self_eq_true, Bool.and_true]
    have : d < 12 := List.mem_range.mp hd
    interval_cases d <;> rfl
  rw [h]; simp
theorem witness_RecoveryEvents :
    (let x : Task := { task0 with replay := some 0x30 }
     let s : State := { M with tasks := [x] }
     s.task 0 = some x ∧ x.failing = false ∧ x.state < 7)
    ∧ (let s := (({ Id with cells := Map.ins 1 { Id.cell 0 with role := .copy 0, sigDone := some 5 } Id.cells } : State)).modCell 0 fun c =>
         { c with role := .original 1, sigDone := some 5 }
       (s.cell 0).sigDone = some 5 ∧ (s.cell 1).sigDone = some 5 ∧ (s.cell 0).role = .original 1 ∧ (s.cell 1).role = .copy 0 ∧ s.stopped 0 = false)
    ∧ (let k : Ckpt := ⟨1, 0x10040, [], false⟩; Map.find 0 ({ M with ckpts := [(0, k)] } : State).ckpts = some k ∧ 11 < 12 ∧ Map.find 11 k.acks = none)
    ∧ (let s := M.modCtx 0 fun c => { c with rpseq := 1 }; hasCtx 0 s = true ∧ (s.ctx 0).rpseq ≠ 0 ∧ (s.ctx 0).rejoin = false)
    ∧ 3 < 4 ∧ (unitClass (.channel 383)).2 < unitCount (unitClass (.channel 383)).1
    ∧ (let s := M.modModule fun m => { m with due := [.studio 191] }
       s.module.due.contains (.studio 191) = true ∧ s.inService (.studio 191) = true ∧ (clearUnit (.studio 191) s).isSome = true) := by decide +kernel
/-- An engine enabled in context 0 with a decode command of an empty stream at its head; `st` its state, `hand` its hand-off bit. Its buffers
lie in arena 1. -/
def cmd1 (hand : Nat) : List (BitVec 8) := [1, BitVec.ofNat 8 hand, 0, 0] ++ leBytes 20 0 ++ leBytes 8 0x11000 ++ leBytes 8 0x12000 ++ leBytes 24 0
def En (st hand : Nat) (c : Option (List (BitVec 8))) : State := ((Ar 0 0).setBytes 0x1200040 (cmd1 hand)).modModule fun m =>
  { m with engines := [(23, ⟨0x10001, 0x10044, 1, 0, BitVec.ofNat 64 st, c, 0, 0, false, 7, 0, 1, []⟩)] }
theorem getStream_empty (s : State) (cmd : List (BitVec 8)) (h : field cmd 16 8 = 0) :
    getStream 23 cmd s = .ok (s.tick.modEngine 23 fun y => { y with out := y.out + 0, got := (s.engine 23).got ++ [] }, (s.engine 23).got ++ []) := by
  simp [getStream, h, isEncoder, Nat.mod_one, agentRead, chunks, pure, Except.pure, bind, Except.bind]
/-- The row once the stream has been read. -/
def rowBody (s : State) : Except Raise State := do
  let s := s.tick.modEngine 23 fun y => { y with out := y.out + 0, got := (s.engine 23).got ++ [] }
  let x := s.engine 23
  let bs := (List.range 1).map fun i => Config.codecByte 23 x.row i s.fresh
  let s ← agentWrite (engBuffer 23 x) 1 (field (cmd1 1) 24 8 + 1 * x.row) bs s.tick
  putStream 23 (cmd1 1) s
theorem makeRow_of_body {s t : State} (h : rowBody s = .ok t) : ∃ t ok, makeRow 23 1 (cmd1 1) s = .ok (t, ok) := by
  rw [makeRow, getStream_empty _ _ (by decide +kernel)]
  simp only [bind, Except.bind, pure, Except.pure]
  split
  · exact ⟨_, _, rfl⟩
  · simp only [rowBody, bind, Except.bind] at h
    split at h
    · cases h
    · simp only [*]
      exact ⟨_, _, rfl⟩
theorem makeRow_one : ∃ t ok, makeRow 23 1 (cmd1 1) (En 1 1 (some (cmd1 1))) = .ok (t, ok) := by
  obtain ⟨t, ht, -⟩ : ∃ t, rowBody (En 1 1 (some (cmd1 1))) = .ok t ∧ t.cur = ⟨0, 0⟩ := ok (by decide +kernel)
  exact makeRow_of_body ht
theorem witness_EngineEvents :
    (let s := En 0 0 none
     let x := s.engine 23
     engineOn 23 s = true ∧ x.ctl.getLsbD 0 = true ∧ x.ctl.getLsbD 1 = false ∧ engineState x = 0 ∧ x.head ≠ x.tail ∧ 4 ≤ ringBits x ∧ ringBits x ≤ 12
      ∧ kindOk 23 (cmd1 0) = true
      ∧ (∃ r, agentRead (.engine 23 (engCtx x) false) 64 (bits x.ring.toNat 56 6 * 64 + 64 * (x.head.toNat % 2 ^ ringBits x)) 64 s = .ok r ∧ r.2 = cmd1 0)
      ∧ ∀ t, ∃ r, getStream 23 (cmd1 0) t = .ok r)
    ∧ ((En 0 0 none).modEngine 23 fun x => { x with ctl := 3 }).engine 23 = ⟨3, 0x10044, 1, 0, 0, none, 0, 0, false, 7, 0, 1, []⟩
    ∧ (let s := En 1 1 (some (cmd1 1))
       engineState (s.engine 23) = 1 ∧ (s.engine 23).cmd = some (cmd1 1) ∧ field (cmd1 0) 1 1 % 2 = 0 ∧ field (cmd1 1) 1 1 % 2 = 1
        ∧ (∃ t ok, makeRow 23 1 (cmd1 1) s = .ok (t, ok)) ∧ (match (handOff (engBuffer 23 (s.engine 23)) (cmd1 1) 0 s).2 with | .ok g => g == 0 | .error _ => false) = true)
    ∧ (let s := En 2 1 (some (cmd1 1))
       engineState (s.engine 23) = 2 ∧ bits (s.engine 23).ctl.toNat 31 16 ≠ 0
        ∧ ∃ r, agentRead (engBuffer 23 (s.engine 23)) 16 (upWord (cmd1 1) 0 + 16) 16 s = .ok r ∧ (Word16.of r.2).gen ≠ (s.engine 23).backGen.toNat
          ∧ ∃ r2, agentRead (engBuffer 23 (s.engine 23)) 1 (field (cmd1 1) 24 8 + 1 * 0) 1 r.1 = .ok r2 ∧ r2.2.length = 1) :=
  ⟨⟨by decide +kernel, by decide +kernel, rfl, by decide +kernel, by decide +kernel, by decide, by decide, by decide +kernel,
     ok (by decide +kernel), fun t => ⟨_, getStream_empty t _ (by decide +kernel)⟩⟩,
   by decide +kernel,
   ⟨by decide +kernel, by decide +kernel, by decide +kernel, by decide +kernel, makeRow_one, by decide +kernel⟩,
   ⟨by decide +kernel, by decide +kernel, ok2 (by decide +kernel)⟩⟩
def newCtx5 : CtxInit := ⟨5, 0x100000, 0, 7, 100, 0, 0, 16, true, 0x1208000, []⟩
theorem witness_ModuleEvents :
    lifeMay 2 3 = true ∧ State.reset.module.featLocked = false ∧ (M.modModule fun m => { m with featLocked := true }).module.featLocked = true
    ∧ (leBytes 32 0).length = 32 ∧ M.module.powerNow ≠ 3 ∧ M.featOn 5 = true ∧ M.module.bootFailed = false
    ∧ Config.hbm - 1 + [(0 : BitVec 8)].length ≤ Config.hbm ∧ 2 ^ 49 - 1 + [(0 : BitVec 8)].length ≤ 2 ^ 49 ∧ 2 ^ 49 + [(0 : BitVec 8)].length ≤ 3 * 2 ^ 48 ∧ 255 < 256
    ∧ ctxOk newCtx5 M = true ∧ changeOk { newCtx5 with ctx := 0 } M = true ∧ hasCtx 0 M = true := by decide +kernel
theorem witness_AttestReport : let s := M.modModule fun m => { m with attest := [(32, 1)], meas := [(2, [])], lifecycle := 3 }
    Map.getD s.module.attest 32 0 = 1 ∧ Map.find 2 s.module.meas = some [] ∧ s.module.lifecycle = 3 := by decide +kernel

/-! ### Encoding and steps -/

/-- One word of each family; the first reserved major. -/
theorem witness_Decoding : (Instr.add (aop 0 .i32 0)).WellFormed ∧ (∃ i, decode 0x01001006_00401000_00000000 = .ok i ∧ i.WellFormed)
    ∧ 0x1C * 2 ^ 88 < 2 ^ 96 ∧ familyOf 0x1C = none := ⟨by decide +kernel, ok (by decide +kernel), by decide, by decide +kernel⟩
/-- The fetched word of `withFetchWord`: an instruction, a reserved major, an unaccepted field; and an event of the agenda. -/
def Fw (w : Nat) : State := State.reset.withFetchWord 96 w
def rest (w : Nat) : State := { Fw w with agenda := [] }
def addWord : Nat := 0x01001006_00401000_00000000
theorem witness_StepRunsTheDecodedInstruction :
    (∀ w ∈ [addWord, 0x1C * 2 ^ 88, addWord + 2 ^ 31], (Fw w).agenda = .issue 0 0 :: [] ∧ (rest w).issuing 0 0 = some ⟨0, 0⟩
      ∧ (rest w).crun.unknown ≠ some (rest w).crun.pc)
    ∧ (∃ r, (rest addWord).fetchSlot ((rest addWord).whoOf 0) (rest addWord).crun.pc = .ok r
      ∧ (decode (slotWord r.2 0)).isOk = true ∧ okB (decode (slotWord r.2 0)) (fun i => r.1.featOk (bits (slotWord r.2 0) 95 88) && r.1.scopeFeatOk i && !needsEnd i && pairOk r.2 0 i) = true)
    ∧ (∃ r, (rest (0x1C * 2 ^ 88)).fetchSlot ((rest 0).whoOf 0) (rest 0).crun.pc = .ok r ∧ decode (slotWord r.2 0) = .error .illegalOp)
    ∧ (∃ r, (rest (addWord + 2 ^ 31)).fetchSlot ((rest 0).whoOf 0) (rest 0).crun.pc = .ok r ∧ decode (slotWord r.2 0) = .error .illegalField)
    ∧ (let s : State := { State.reset with agenda := [.issue 191 47] }
       s.agenda = .issue 191 47 :: [] ∧ ({ s with agenda := [] } : State).issuing 191 47 = none)
    ∧ ((Instr.runDispatch 0).raw = none) :=
  ⟨by decide +kernel, ok (by decide +kernel), ok (by decide +kernel), ok (by decide +kernel), by decide +kernel, rfl⟩
theorem witness_EveryStepKeepsMemoryCanonical : Safe M := by unfold Safe; decide +kernel
theorem witness_OverBudgetRegistersRaiseBudget : let s := B.modCc fun c => { c with budget := 31 }
    (Instr.add { aop 0 .i32 0 with d := .v 248 }).raw ≠ none ∧ 8 * s.cc.budget < vTop (usesOf (.add { aop 0 .i32 0 with d := .v 248 })) := by decide +kernel
theorem witness_DropPoint : let e : Arena := { liveArena with gen := 15, sweeping := 3 }
    1 ≤ 3 ∧ 3 < 16 ∧ e.sweeping.getLsbD ((e.gen.toNat + 3) % 16) = false ∧ ∀ j < 3, 1 ≤ j → e.sweeping.getLsbD ((e.gen.toNat + j) % 16) = true := by decide

/-! ### Ill-formed terms are refused, one for each check -/

theorem test_illFormed : ∀ i ∈ [Instr.runDispatch 0, .add { aop 0 .i32 0 with d := .g 96 }, .add (aop 0 .f32 0), .add (aop 1 .i32 0),
    .add { aop 0 .i64 0 with d := .v 1 }, .neg { aop 0 .i32 0 with b := .v 1 false }, .add (aop 0 .i32 0x80000000), .add { aop 0 .i32 0 with a := .g 96 false },
    .add { aop 0 .i32 0 with a := .v 0 true, b := .q 0, d := .g 1 }, .ld { lastWord with base := some 96 }, .ld { lastWord with order := .acq },
    .ld { lastWord with hint := 5 }, .st { lastWord with res := 1 }, .fence { mop 0 .i8 4 with base := some 0, scope := .grp, order := .acq },
    .br { bop with slot := 5 }, .br { bop with link := .v 2 }, .br { bop with sub := 1 }, .trail bop, .pfill { xop 0 with record := 96 }, .barinit (xop 0),
    .bcopy { xop 0 with imm := 8 }, .worknext { xop 0 with dest := .g 7, imm := 1 }, .mzero (xop 2), .mfsys (sysOp 0x005), .mtsys { setOp 0x400 with dest := .g 1 },
    .stest { sop 1 0 0 with dest := .g 6 }], i.legal = false := by decide +kernel

/-! ### Words laid out by hand from R64-R71 -/

/-- `add i32 v3, v1, v2`; `cmp.lt i32 p2, v1, v2`; `br` two lines on, slot 1; `chrun f32 v3, v1, v2`; `qpop.n32 v5, q2`; `qpop.drop q2, 5`; `ldesc g12, slot 2,
g10`; `bcopy` of g10 to 0x1000 at v4, reporting to b1; `rsend` ring 3, g8, to g9; `forkw g20, 2, g21`; `wend g9`; `choose g10, 1`; `wquery.state g11, g12`;
`barexp b1, g7`; `rgset.pcell g26, g24, g27`. -/
theorem test_words : ∀ x ∈ [
    (0x01001006_00401000_00000000, Instr.add ⟨p0, 0, .i32, .v 3, .v 1 false, .v 2 false, v0s, 0⟩),
    (0x16011000_00401000_00002000, .cmp ⟨p0, 2, .i32, .v 0, .v 1 false, .v 2 false, v0s, 0x2000⟩),
    (0xD0000000_00000000_00000011, .br ⟨p0, 0, .v 0, v0s, 0, 0, 2, 1⟩),
    (0x61004806_00401000_00000000, .chrun ⟨p0, 0, .f32, .v 3, .v 1 false, .v 2 false, v0s, 0⟩),
    (0xC300300A_84800000_00000000, .qpop ⟨p0, 0, .n32, .v 5, .q 2, v0s, v0s, 0⟩),
    (0xC300B000_84800000_00000005, .qpop ⟨p0, 1, .n32, .v 0, .q 2, v0s, v0s, 5⟩),
    (0xC7000218_29800000_00000200, .ldesc ⟨p0, 0, .g 12, 10, .imm 0, 0, 0, 0, 2, 0⟩),
    (0xC8000000_28020800_00100000, .bcopy ⟨p0, 0, .v 0, 10, .v 4 false, 1, 0, 0, 0x1000, 0⟩),
    (0xC5000210_427F8000_00000003, .rsend ⟨p0, 0, .i8, .g 8, .g 9 false, none, .plain, .rlx, 0, 0, 0, 3⟩),
    (0xB9003A28_C088A800_00000000, .forkw ⟨p0, 0, .n64, .g 20, .imm 2, .g 21 false, v0s, 0⟩),
    (0xBA003800_42400000_00000000, .wend ⟨p0, 0, .n64, .v 0, .g 9 false, v0s, v0s, 0⟩),
    (0xBB003A14_C0400000_00000000, .choose ⟨p0, 0, .n64, .g 10, .imm 1, v0s, v0s, 0⟩),
    (0xBD003A16_43000000_00000001, .wquery ⟨p0, 0, .n64, .g 11, .g 12 false, v0s, v0s, 1⟩),
    (0xA4000000_1C000800_00000000, .barexp ⟨p0, 0, .v 0, 7, v0s, 1, 0, 0, 0, 0⟩),
    (0xB6003A34_4608D800_00000001, .rgset ⟨p0, 0, .n64, .g 26, .g 24 false, .g 27 false, v0s, 1⟩)], decode x.1 = .ok x.2 := by decide +kernel
/-- The same by field: major, guard, sense, then the family's fields at their bits. -/
theorem test_fields : ∀ x ∈ [
    -- ld.i32.dev.acq v5, [g2 + v1 * 4 - 8], guarded by not p3
    (0x80 * 2 ^ 88 + 3 * 2 ^ 84 + 2 ^ 83 + 2 * 2 ^ 75 + 5 * 2 ^ 65 + 1 * 2 ^ 54 + 2 * 2 ^ 47 + 4 * 2 ^ 44 + 1 * 2 ^ 42 + 2 * 2 ^ 32 + (2 ^ 32 - 8),
      Instr.ld ⟨⟨3, true⟩, 0, .i32, .v 5, .v 1 false, some 2, .dev, .acq, 0, 0, 2, BitVec.ofNat 32 (2 ^ 32 - 8)⟩),
    -- mfsys g6, system register 0x040 word 2
    (0xE2 * 2 ^ 88 + (256 + 6) * 2 ^ 65 + 0x040 * 2 ^ 32 + 2, .mfsys { sysOp 0x040 with imm := 2 }),
    -- fadd f32 v255, v254 read in trap mode, the immediate -1; mma of tile 15, convergence register 7, record g95, scale slab g2
    (0x30 * 2 ^ 88 + 9 * 2 ^ 75 + 255 * 2 ^ 65 + (1024 + 254) * 2 ^ 54 + (768 + 255) * 2 ^ 43, .fadd ⟨p0, 0, .f32, .v 255, .v 254 true, .imm 0xFF, v0s, 0⟩),
    (0x74 * 2 ^ 88 + 95 * 2 ^ 58 + (256 + 2) * 2 ^ 47 + (15 * 2 ^ 20 + 7 * 2 ^ 17) * 2 ^ 8, .mma { xop 0 with record := 95, coord := .g 2 false, imm := 0xFE0000 })],
    decode x.1 = .ok x.2 := by decide +kernel

/-! ### Results worked out by hand -/

/-- The next state of an instruction. -/
def next (i : Instr) (s : State) : State := match exec i s with | .next t => t | _ => s
/-- Lane 0 of `B` with v1 and v2. -/
def V (a b : BitVec 32) : State := withV 0 1 a (withV 0 2 b B)
def op3 (ty : Ty) (m : BitVec 32) : AOp := ⟨p0, 0, ty, .v 3, .v 1 false, .v 2 false, v0s, m⟩
def v3 (i : Instr) (a b : BitVec 32) : BitVec 32 := (next i (V a b)).cc.vreg 0 3
theorem test_add_wraps : v3 (.add (op3 .i32 0)) 0x7FFFFFFF 1 = 0x80000000 := by decide +kernel
theorem test_add_saturates : v3 (.add (op3 .i32 1)) 0x7FFFFFFF 1 = 0x7FFFFFFF := by decide +kernel
theorem test_sub_i8_extends : v3 (.sub (op3 .i8 0)) 0 1 = 0xFFFFFFFF := by decide +kernel
theorem test_mulhi_signed : v3 (.mulhi (op3 .i32 0)) 0x80000000 2 = 0xFFFFFFFF := by decide +kernel
theorem test_div_by_zero : v3 (.div (op3 .i32 0)) 5 0 = 0xFFFFFFFF := by decide +kernel
theorem test_rem_by_zero : v3 (.rem (op3 .i32 0)) 5 0 = 5 := by decide +kernel
theorem test_rem_sign : v3 (.rem (op3 .i32 0)) 0xFFFFFFF9 2 = 0xFFFFFFFF := by decide +kernel
theorem test_shl_full_width : v3 (.shl (op3 .i32 0)) 1 32 = 0 := by decide +kernel
theorem test_sar_beyond_width : v3 (.sar { op3 .i32 0 with variant := 2 }) 0x80000000 40 = 0xFFFFFFFF := by decide +kernel
theorem test_fadd_halves : v3 (.fadd (op3 .f32 0)) 0x3F000000 0x3F000000 = 0x3F800000 := by decide +kernel
theorem test_fadd_inf_minus_inf : v3 (.fadd (op3 .f32 0)) 0x7F800000 0xFF800000 = 0x7FC00000 := by decide +kernel
/-- 1/3 and the square root of 2, correctly rounded. -/
theorem test_frcp : v3 (.frcp { op3 .f32 0 with b := v0s }) 0x40400000 0 = 0x3EAAAAAB := by decide +kernel
theorem test_fsqrt : v3 (.fsqrt { op3 .f32 0 with b := v0s }) 0x40000000 0 = 0x3FB504F3 := by decide +kernel
/-- Lane 31 alone compares less; p2 is written in every lane. -/
theorem test_cmp : let t := next (.cmp ⟨p0, 2, .i32, .v 0, .v 1 false, .v 2 false, v0s, 0x2000⟩) (withV 31 2 1 B)
    t.cc.pred 31 2 = true ∧ t.cc.pred 30 2 = false := by decide +kernel
theorem test_ballot : (next (.ballot { aop 0 .n32 0 with d := .v 3 }) B).cc.vreg 7 3 = 0xFFFFFFFF := by decide +kernel
/-- Bytes go out least significant first. -/
theorem test_sts_little_endian : Map.bytes (next (.sts { mop 0 .n32 0 with data := .v 1, gd := p0 })
    ((List.range 32).foldl (fun s cl => withV cl 1 0x01020304 s) S4)).cc.scratch 0 4 = [4, 3, 2, 1] := by decide +kernel
/-- `call`: the link is the slot after it; every lane goes on at the target. -/
theorem test_call : let t := next (.call { bop with link := .v 2, slot := 0, line := 0 }) C
    t.cc.vreg 31 2 = 0x10001 ∧ t.cc.vreg 31 3 = 0 ∧ t.cg.entries.map (fun e => (e.pc, e.mask)) = [(0x10000, 0xFFFFFFFF)] := by decide +kernel
/-- `trap` with 0xFFFF: code 0x28, the immediate at bit 16, resumption at the next slot, the handler at TRAPVEC. -/
theorem test_trap : let t := next (.trap (sop 0 0 0xFFFF)) H
    t.cg.trapcause = 0xFFFF0028 ∧ t.cg.trappc = 0x10001 ∧ t.cg.handler = true ∧ t.cg.entries.map (fun e => (e.pc, e.handler)) = [(0x10000, true)] := by decide +kernel
theorem test_rte : let t := next (.rte (sop 0 0 0)) Hh
    t.cg.handler = false ∧ t.cg.entries.map (fun e => (e.pc, e.mask, e.handler)) = [(0x10004, 0xF, false)] := by decide +kernel
/-- The one group of a cell arrives: the phase inverts and the arrivals return to 0. -/
theorem test_bararr : let b := (next (.bararr barOp) M).cc.bar 15
    b.phase = true ∧ b.arrived = 0 := by decide +kernel
/-- Target 1 added to an amount of 1: the generation advances. -/
theorem test_swadd : (Word16.of (Map.bytes (next (.swadd (swOp 1 0)) (withG 6 1 (Sw.modCc fun c => { c with scratch := Map.setBytes [] 0 [1] }))).cc.scratch 0 16)).gen = 1 := by
  decide +kernel
/-- A step fetches, decodes and runs the word; its run ends and its lanes go on at the next slot. -/
theorem test_step : (match step (Fw addWord) with | .next t => t.cg.entries.map (fun e => e.pc) | _ => []) = [0x10001] := by decide +kernel

end Sys2Proof.Tests
end

section
/-! SUPPORT. What one step can answer: an instruction's meaning delivers every fault it raises (R4, R386, R428) and an event
has no other outcome than a next state, so that nothing stops the machine. -/
namespace Sys2Proof.Machine.State
open Sys2Proof Sys2Proof.Machine

/-- The same as `issueWith_next` for an instruction whose fault may come after an effect that stands (R366). -/
theorem issueResolve_next (i : Instr) (s : State) (body : State → Except Raise (State × Option Raise)) :
    ∃ t, issueResolve i s body = .next t := by
  unfold issueResolve
  split
  · exact ⟨_, rfl⟩
  · exact ⟨_, rfl⟩
  · exact ⟨_, rfl⟩

/-- An outcome that has the form of an issue is a next state. -/
theorem IssueForm.next {i : Instr} {s : State} {x : Host.Outcome State Fault Refusal} (h : IssueForm i s x) : ∃ t, x = .next t := by
  rcases h with ⟨b, rfl⟩ | ⟨b, rfl⟩ | ⟨s', b, -, rfl, -⟩
  · obtain ⟨t, ht, -⟩ := issueWith_next i s b
    exact ⟨t, ht⟩
  · exact issueResolve_next i s b
  · obtain ⟨t, ht, -⟩ := issueWith_next i s' b
    exact ⟨t, ht⟩

/-- What `exec` can do, over every row of the opcode table: the meaning of an instruction has the form of an issue, that of an event is
a next state. -/
theorem exec_cases (i : Instr) (s : State) : IssueForm i s (exec i s) ∨ i.raw = none ∧ ∃ t, exec i s = .next t := by
  cases i with
  | nop o => exact .inl (exec_nop_form o s)
  | mov o => exact .inl (exec_mov_form o s)
  | movi o => exact .inl (exec_movi_form o s)
  | movw o => exact .inl (exec_movw_form o s)
  | add o => exact .inl (exec_add_form o s)
  | sub o => exact .inl (exec_sub_form o s)
  | addc o => exact .inl (exec_addc_form o s)
  | subb o => exact .inl (exec_subb_form o s)
  | mul o => exact .inl (exec_mul_form o s)
  | mulhi o => exact .inl (exec_mulhi_form o s)
  | mad o => exact .inl (exec_mad_form o s)
  | sad o => exact .inl (exec_sad_form o s)
  | neg o => exact .inl (exec_neg_form o s)
  | abs o => exact .inl (exec_abs_form o s)
  | min o => exact .inl (exec_min_form o s)
  | max o => exact .inl (exec_max_form o s)
  | clamp o => exact .inl (exec_clamp_form o s)
  | and o => exact .inl (exec_and_form o s)
  | or o => exact .inl (exec_or_form o s)
  | xor o => exact .inl (exec_xor_form o s)
  | andn o => exact .inl (exec_andn_form o s)
  | not o => exact .inl (exec_not_form o s)
  | shl o => exact .inl (exec_shl_form o s)
  | shr o => exact .inl (exec_shr_form o s)
  | sar o => exact .inl (exec_sar_form o s)
  | rol o => exact .inl (exec_rol_form o s)
  | bfx o => exact .inl (exec_bfx_form o s)
  | bfi o => exact .inl (exec_bfi_form o s)
  | brev o => exact .inl (exec_brev_form o s)
  | popc o => exact .inl (exec_popc_form o s)
  | clz o => exact .inl (exec_clz_form o s)
  | ctz o => exact .inl (exec_ctz_form o s)
  | sel o => exact .inl (exec_sel_form o s)
  | cmp o => exact .inl (exec_cmp_form o s)
  | cvti o => exact .inl (exec_cvti_form o s)
  | div o => exact .inl (exec_div_form o s)
  | rem o => exact .inl (exec_rem_form o s)
  | lea o => exact .inl (exec_lea_form o s)
  | dot4i o => exact .inl (exec_dot4i_form o s)
  | pand o => exact .inl (exec_pand_form o s)
  | por o => exact .inl (exec_por_form o s)
  | pxor o => exact .inl (exec_pxor_form o s)
  | pnot o => exact .inl (exec_pnot_form o s)
  | pmov o => exact .inl (exec_pmov_form o s)
  | ballot o => exact .inl (exec_ballot_form o s)
  | pcnt o => exact .inl (exec_pcnt_form o s)
  | vany o => exact .inl (exec_vany_form o s)
  | vall o => exact .inl (exec_vall_form o s)
  | vtog o => exact .inl (exec_vtog_form o s)
  | gtov o => exact .inl (exec_gtov_form o s)
  | fadd o => exact .inl (exec_fadd_form o s)
  | fsub o => exact .inl (exec_fsub_form o s)
  | fmul o => exact .inl (exec_fmul_form o s)
  | ffma o => exact .inl (exec_ffma_form o s)
  | fmin o => exact .inl (exec_fmin_form o s)
  | fmax o => exact .inl (exec_fmax_form o s)
  | fcmp o => exact .inl (exec_fcmp_form o s)
  | fclass o => exact .inl (exec_fclass_form o s)
  | frnd o => exact .inl (exec_frnd_form o s)
  | frcp o => exact .inl (exec_frcp_form o s)
  | frsq o => exact .inl (exec_frsq_form o s)
  | fsqrt o => exact .inl (exec_fsqrt_form o s)
  | fexpf o => exact .inl (exec_fexpf_form o s)
  | flog2 o => exact .inl (exec_flog2_form o s)
  | fsinf o => exact .inl (exec_fsinf_form o s)
  | fcosf o => exact .inl (exec_fcosf_form o s)
  | xins o => exact .inl (exec_xins_form o s)
  | xgetE o => exact .inl (exec_xgetE_form o s)
  | xgetM o => exact .inl (exec_xgetM_form o s)
  | fcvt o => exact .inl (exec_fcvt_form o s)
  | fcvtPk o => exact .inl (exec_fcvtPk_form o s)
  | fqnt o => exact .inl (exec_fqnt_form o s)
  | fdqt o => exact .inl (exec_fdqt_form o s)
  | fscl o => exact .inl (exec_fscl_form o s)
  | fdot2 o => exact .inl (exec_fdot2_form o s)
  | dadd o => exact .inl (exec_dadd_form o s)
  | dmul o => exact .inl (exec_dmul_form o s)
  | dfma o => exact .inl (exec_dfma_form o s)
  | dcmp o => exact .inl (exec_dcmp_form o s)
  | dcvt o => exact .inl (exec_dcvt_form o s)
  | dcvtInt o => exact .inl (exec_dcvtInt_form o s)
  | chld o => exact .inl (exec_chld_form o s)
  | chrun o => exact .inl (exec_chrun_form o s)
  | lshfl o => exact .inl (exec_lshfl_form o s)
  | lperm o => exact .inl (exec_lperm_form o s)
  | lbcast o => exact .inl (exec_lbcast_form o s)
  | lred o => exact .inl (exec_lred_form o s)
  | lscan o => exact .inl (exec_lscan_form o s)
  | lmap o => exact .inl (exec_lmap_form o s)
  | cvdecl o => exact .inl (exec_cvdecl_form o s)
  | cvsign o => exact .inl (exec_cvsign_form o s)
  | mfence o => exact .inl (exec_mfence_form o s)
  | mzero o => exact .inl (exec_mzero_form o s)
  | mma o => exact .inl (exec_mma_form o s)
  | mmar o => exact .inl (exec_mmar_form o s)
  | mwait o => exact .inl (exec_mwait_form o s)
  | mdrain o => exact .inl (exec_mdrain_form o s)
  | mread o => exact .inl (exec_mread_form o s)
  | mwrite o => exact .inl (exec_mwrite_form o s)
  | mcheck o => exact .inl (exec_mcheck_form o s)
  | msave o => exact .inl (exec_msave_form o s)
  | mrestore o => exact .inl (exec_mrestore_form o s)
  | pfill o => exact .inl (exec_pfill_form o s)
  | pwait o => exact .inl (exec_pwait_form o s)
  | pzapB o => exact .inl (exec_pzapB_form o s)
  | pzapC o => exact .inl (exec_pzapC_form o s)
  | ld o => exact .inl (exec_ld_form o s)
  | st o => exact .inl (exec_st_form o s)
  | ldc o => exact .inl (exec_ldc_form o s)
  | lds o => exact .inl (exec_lds_form o s)
  | sts o => exact .inl (exec_sts_form o s)
  | ldl o => exact .inl (exec_ldl_form o s)
  | stl o => exact .inl (exec_stl_form o s)
  | atom o => exact .inl (exec_atom_form o s)
  | red o => exact .inl (exec_red_form o s)
  | pf o => exact .inl (exec_pf_form o s)
  | rqpage o => exact .inl (exec_rqpage_form o s)
  | cwbL2 o => exact .inl (exec_cwbL2_form o s)
  | cwbMem o => exact .inl (exec_cwbMem_form o s)
  | cinv o => exact .inl (exec_cinv_form o s)
  | cpin o => exact .inl (exec_cpin_form o s)
  | cunpin o => exact .inl (exec_cunpin_form o s)
  | icinv o => exact .inl (exec_icinv_form o s)
  | fetchbar o => exact .inl (exec_fetchbar_form o s)
  | fence o => exact .inl (exec_fence_form o s)
  | monarm o => exact .inl (exec_monarm_form o s)
  | monwait o => exact .inl (exec_monwait_form o s)
  | svbind o => exact .inl (exec_svbind_form o s)
  | svunbind o => exact .inl (exec_svunbind_form o s)
  | barinit o => exact .inl (exec_barinit_form o s)
  | bararr o => exact .inl (exec_bararr_form o s)
  | barwait o => exact .inl (exec_barwait_form o s)
  | bartest o => exact .inl (exec_bartest_form o s)
  | barexp o => exact .inl (exec_barexp_form o s)
  | swinit o => exact .inl (exec_swinit_form o s)
  | swexp o => exact .inl (exec_swexp_form o s)
  | swadd o => exact .inl (exec_swadd_form o s)
  | swwait o => exact .inl (exec_swwait_form o s)
  | swpoll o => exact .inl (exec_swpoll_form o s)
  | ctrsel o => exact .inl (exec_ctrsel_form o s)
  | ctrrd o => exact .inl (exec_ctrrd_form o s)
  | arnew o => exact .inl (exec_arnew_form o s)
  | aralloc o => exact .inl (exec_aralloc_form o s)
  | arfree o => exact .inl (exec_arfree_form o s)
  | arseal o => exact .inl (exec_arseal_form o s)
  | ardrop o => exact .inl (exec_ardrop_form o s)
  | arquery o => exact .inl (exec_arquery_form o s)
  | rgset o => exact .inl (exec_rgset_form o s)
  | rgclr o => exact .inl (exec_rgclr_form o s)
  | rgquery o => exact .inl (exec_rgquery_form o s)
  | forkw o => exact .inl (exec_forkw_form o s)
  | wend o => exact .inl (exec_wend_form o s)
  | choose o => exact .inl (exec_choose_form o s)
  | chooseMin o => exact .inl (exec_chooseMin_form o s)
  | wabort o => exact .inl (exec_wabort_form o s)
  | wquery o => exact .inl (exec_wquery_form o s)
  | tlaunch o => exact .inl (exec_tlaunch_form o s)
  | tdep o => exact .inl (exec_tdep_form o s)
  | tdepGo o => exact .inl (exec_tdepGo_form o s)
  | worknext o => exact .inl (exec_worknext_form o s)
  | qpop o => exact .inl (exec_qpop_form o s)
  | ringdecl o => exact .inl (exec_ringdecl_form o s)
  | ringdeclClr o => exact .inl (exec_ringdeclClr_form o s)
  | rsend o => exact .inl (exec_rsend_form o s)
  | rhead o => exact .inl (exec_rhead_form o s)
  | ldesc o => exact .inl (exec_ldesc_form o s)
  | bcopy o => exact .inl (exec_bcopy_form o s)
  | bstore o => exact .inl (exec_bstore_form o s)
  | bmcast o => exact .inl (exec_bmcast_form o s)
  | bred o => exact .inl (exec_bred_form o s)
  | br o => exact .inl (exec_br_form o s)
  | braAny o => exact .inl (exec_braAny_form o s)
  | braAll o => exact .inl (exec_braAll_form o s)
  | brx o => exact .inl (exec_brx_form o s)
  | call o => exact .inl (exec_call_form o s)
  | calli o => exact .inl (exec_calli_form o s)
  | ret o => exact .inl (exec_ret_form o s)
  | prio o => exact .inl (exec_prio_form o s)
  | regroup o => exact .inl (exec_regroup_form o s)
  | regroupRestore o => exact .inl (exec_regroupRestore_form o s)
  | exit o => exact .inl (exec_exit_form o s)
  | trail o => exact .inl (exec_trail_form o s)
  | trap o => exact .inl (exec_trap_form o s)
  | rte o => exact .inl (exec_rte_form o s)
  | mfsys o => exact .inl (exec_mfsys_form o s)
  | mtsys o => exact .inl (exec_mtsys_form o s)
  | sysc o => exact .inl (exec_sysc_form o s)
  | errq o => exact .inl (exec_errq_form o s)
  | ckpt o => exact .inl (exec_ckpt_form o s)
  | rpset o => exact .inl (exec_rpset_form o s)
  | tlbinv o => exact .inl (exec_tlbinv_form o s)
  | pgsplit o => exact .inl (exec_pgsplit_form o s)
  | stest o => exact .inl (exec_stest_form o s)
  | runDispatch | fetchResume | longLatencyComplete | heldAccessResume | regroupMeetingComplete | regroupRestoreComplete
  | easelCommandStart | easelSlab | easelCommandComplete | fillSlab | fillComplete | walkPush | brushBurst | brushCommandComplete
  | bmcastHop | bredAccept | bredRoundComplete | ringDelivery | ringRetry | torusHop | redMerge | cacheEviction | dropBroadcastApply
  | sweepComplete | sealBroadcastApply | tlbShootdownAck | rivalAdmission | worldParentRestore | kickWrite | serveKick | readyRanges
  | migrationEnd | cellAdmission | preemptCell | restoreCell | cellRetirement | controllerTakeover | rollback | shadowCompare
  | ckptPrepareAck | ckptSeal | recovery | containmentReset | errorReport | selfTest | moduleReset | lifecycleTransition
  | featAcceptWrite | attestRequest | attestReport | powerWrite | powerCapStepdown | engineReset | engtailWrite | engineTakeCommand
  | codecRow | codecHandoffResume | engineTimeout | engineCommandEnd | hostBar2Access | peerAccess | peerUnreachable | registerWrite
  | arithmeticCycle | runSettled | softError | migrationBegin | contextCreation | contextEnd | leafRewrite =>
    exact .inr ⟨rfl, _, rfl⟩

/-- No row of the opcode table stops the machine. -/
theorem exec_next (i : Instr) (s : State) : ∃ t, exec i s = .next t := by
  rcases exec_cases i s with h | ⟨-, h⟩
  · exact h.next
  · exact h

/-- Every move answers a next state: an issue slot without a run and a move that is not enabled change nothing (log 3), a fault of fetch
or decode is raised, and the rest is an instruction's meaning or an event's. -/
theorem perform_next (m : Move) (s : State) : ∃ t, perform m s = .next t := by
  cases m with
  | issue k slot =>
    simp only [perform]
    split
    · exact ⟨_, rfl⟩
    · split
      · exact ⟨_, rfl⟩
      · exact exec_next _ _
  | event e =>
    simp only [perform]
    split
    · exact exec_next e s
    · exact ⟨s, rfl⟩

end Sys2Proof.Machine.State

open Sys2Proof.Machine Sys2Proof.Machine.State

/-- Settles O56: a step is one move, of the agenda or of the schedule, and every move answers a next state. -/
theorem everyStepAnswersANextState : Obligations.EveryStepAnswersANextState := by
  unfold Obligations.EveryStepAnswersANextState
  intro s
  unfold step
  split
  · exact perform_next _ _
  · exact perform_next _ _
end

section
/-! SUPPORT. One hop of the torus (R16, R422): what it does to the distance along the ring it is made on, and which ring a packet takes. -/
namespace Sys2Proof.Machine

/-- One hop in the + direction of a ring. -/
theorem ringDist_hop_plus {a b : Nat} (ha : a < 16) (hb : b < 16) (hne : a ≠ b) (hshort : (b + 16 - a) % 16 ≤ 8) :
    ringDist ((a + 1) % 16) b + 1 = ringDist a b := by
  simp only [ringDist]
  omega

/-- One hop in the - direction of a ring. -/
theorem ringDist_hop_minus {a b : Nat} (ha : a < 16) (hb : b < 16) (hshort : 8 < (b + 16 - a) % 16) :
    ringDist ((a + 15) % 16) b + 1 = ringDist a b := by
  simp only [ringDist]
  omega

/-- Two nodes of a ring are no hops apart in the + direction only where they are the same. -/
theorem hopsAhead_eq_zero_iff {a b : Nat} (ha : a < 16) (hb : b < 16) : (b + 16 - a) % 16 = 0 ↔ a = b := by omega

theorem arrived_eq_false_iff (p : Packet) : arrived p = false ↔ p.at_x ≠ p.to_x ∨ p.at_y ≠ p.to_y := by
  simp only [arrived, Bool.and_eq_false_iff, beq_eq_false_iff_ne]

/-- The ring that a packet on its way takes: its row's while the columns differ, then its column's, by the shorter direction (R422). -/
theorem nextRing_cases (p : Packet) (hax : p.at_x < 16) (hay : p.at_y < 16) (htx : p.to_x < 16) (hty : p.to_y < 16)
    (h : arrived p = false) :
    (p.at_x ≠ p.to_x ∧ (p.to_x + 16 - p.at_x) % 16 ≤ 8 ∧ nextRing p = 1)
    ∨ (p.at_x ≠ p.to_x ∧ 8 < (p.to_x + 16 - p.at_x) % 16 ∧ nextRing p = 2)
    ∨ (p.at_x = p.to_x ∧ p.at_y ≠ p.to_y ∧ (p.to_y + 16 - p.at_y) % 16 ≤ 8 ∧ nextRing p = 3)
    ∨ (p.at_x = p.to_x ∧ 8 < (p.to_y + 16 - p.at_y) % 16 ∧ nextRing p = 4) := by
  have hx := hopsAhead_eq_zero_iff hax htx
  have hy := hopsAhead_eq_zero_iff hay hty
  by_cases hcol : p.at_x = p.to_x
  · have hrow : p.at_y ≠ p.to_y := ((arrived_eq_false_iff p).mp h).resolve_left (not_not_intro hcol)
    rcases Nat.lt_or_ge 8 ((p.to_y + 16 - p.at_y) % 16) with hd | hd
    · exact .inr (.inr (.inr ⟨hcol, hd, by simp [nextRing, hx.mpr hcol, mt hy.mp hrow, Nat.not_le.mpr hd]⟩))
    · exact .inr (.inr (.inl ⟨hcol, hrow, hd, by simp [nextRing, hx.mpr hcol, mt hy.mp hrow, hd]⟩))
  · rcases Nat.lt_or_ge 8 ((p.to_x + 16 - p.at_x) % 16) with hd | hd
    · exact .inr (.inl ⟨hcol, hd, by simp [nextRing, mt hx.mp hcol, Nat.not_le.mpr hd]⟩)
    · exact .inl ⟨hcol, hd, by simp [nextRing, mt hx.mp hcol, hd]⟩

end Sys2Proof.Machine

open Sys2Proof.Machine

/-- Settles O46, by the four rings a packet may take: the hop leaves the other coordinate alone and brings its own one nearer. -/
theorem torusHopsApproach : Obligations.TorusHopsApproach := by
  unfold Obligations.TorusHopsApproach
  intro p hax hay htx hty h
  rcases nextRing_cases p hax hay htx hty h with
    ⟨hne, hd, hr⟩ | ⟨-, hd, hr⟩ | ⟨heq, hne, hd, hr⟩ | ⟨heq, hd, hr⟩ <;> simp only [hr, hopTo]
  · have hhop := ringDist_hop_plus hax htx hne hd
    exact ⟨by decide, Nat.mod_lt _ (by decide), hay, fun _ => trivial, by omega⟩
  · have hhop := ringDist_hop_minus hax htx hd
    exact ⟨by decide, Nat.mod_lt _ (by decide), hay, fun _ => trivial, by omega⟩
  · have hhop := ringDist_hop_plus hay hty hne hd
    exact ⟨by decide, hax, Nat.mod_lt _ (by decide), fun hcol => absurd heq hcol, by omega⟩
  · have hhop := ringDist_hop_minus hay hty hd
    exact ⟨by decide, hax, Nat.mod_lt _ (by decide), fun hcol => absurd heq hcol, by omega⟩
end

section
/-! SUPPORT. The units in service after reset (R24, R152). -/
namespace Sys2Proof.Machine.State
open Sys2Proof Sys2Proof.Machine

/-- After reset the units in service are those the module has: 192 studios, 64 slices, 384 channels, 128 lanes. -/
theorem inService_reset_iff (u : ErrUnit) : State.reset.inService u = true ↔ (unitClass u).2 < unitCount (unitClass u).1 := by
  cases u <;> simp only [inService, State.reset, Module.reset, BitVec.getLsbD_allOnes, decide_eq_true_eq, unitClass, unitCount]

end Sys2Proof.Machine.State

open Sys2Proof.Machine Sys2Proof.Machine.State

/-- Refutes O59: its last clause asks for every `ErrUnit` to be in service, and studio 192, past the module's 192 studios (R13), is none of
the units in service after reset. -/
theorem not_resetLeaves : ¬ Obligations.ResetLeaves := by
  unfold Obligations.ResetLeaves
  rintro ⟨-, -, -, -, -, -, -, -, -, -, -, -, -, -, -, hunits⟩
  have hlt : 192 < 192 := (inService_reset_iff (.studio 192)).mp (hunits (.studio 192))
  exact absurd hlt (by decide)
end

section
/-! SUPPORT. The BUDGET check, the first that an instruction meets at issue (R74). -/
namespace Sys2Proof.Machine.State
open Sys2Proof Sys2Proof.Machine

/-- Over the budget, the checks at issue end in BUDGET before any other is made. -/
theorem usesCheck_over_budget {i : Instr} {s : State} (h : 8 * s.cc.budget < vTop (usesOf i)) :
    s.usesCheck i = .error { code := fBudget } := by
  have hno : decide (vTop (usesOf i) ≤ 8 * s.cc.budget) = false := decide_eq_false (Nat.not_le.mpr h)
  simp only [usesCheck, hno]
  rfl

/-- An issue whose checks end in a fault raises it. -/
theorem issueWith_of_usesCheck {i : Instr} {s : State} {x : Raise} (h : s.usesCheck i = .error x) (hx : x.hold = false)
    (body : State → Except Raise (State × After)) : issueWith i s body = .next (s.raise x) := by
  simp only [issueWith, h, bind, Except.bind, holdDest_of_fault hx]

theorem issueResolve_of_usesCheck {i : Instr} {s : State} {x : Raise} (h : s.usesCheck i = .error x)
    (body : State → Except Raise (State × Option Raise)) : issueResolve i s body = .next (s.raise x) := by
  simp only [issueResolve, h, bind, Except.bind]

/-- Whatever an instruction's effect: a fault of the checks at issue is what it raises. -/
theorem IssueForm.raise_of_usesCheck {i : Instr} {s : State} {x : Raise} {y : Host.Outcome State Fault Refusal} (h : IssueForm i s y)
    (hc : s.usesCheck i = .error x) (hx : x.hold = false) : y = .next (s.raise x) := by
  rcases h with ⟨b, rfl⟩ | ⟨b, rfl⟩ | ⟨s', b, -, rfl, rfl | hok⟩
  · exact issueWith_of_usesCheck hc hx b
  · exact issueResolve_of_usesCheck hc b
  · exact issueWith_of_usesCheck hc hx b
  · rw [hc] at hok
    cases hok

end Sys2Proof.Machine.State

open Sys2Proof.Machine Sys2Proof.Machine.State

/-- Settles O58: every instruction issues with the checks of `usesCheck`, whose first is BUDGET. -/
theorem overBudgetRegistersRaiseBudget : Obligations.OverBudgetRegistersRaiseBudget := by
  unfold Obligations.OverBudgetRegistersRaiseBudget
  intro i s hraw hover
  rcases exec_cases i s with hform | ⟨hnone, -⟩
  · exact hform.raise_of_usesCheck (usesCheck_over_budget hover) rfl
  · exact absurd hnone hraw
end

section
/-! SUPPORT. The packing of R42 step 4: where the next lane of a meeting is placed. -/
namespace Sys2Proof.Machine
open Sys2Proof

/-- Where `packLanes` places the next lane, `m` lanes being left with it: the present place, the next group's first place where the
group is full, or, at a new continuation, where the groups after this one hold all that is left. -/
def nextPlace (G m f n : Nat) (prev : Option (BitVec 64)) (pc : BitVec 64) : Nat × Nat :=
  if n = 32 then (f + 1, 0)
  else if 0 < n ∧ prev ≠ some pc ∧ f + 1 < G ∧ m ≤ 32 * (G - 1 - f) then (f + 1, 0) else (f, n)

theorem packLanes_cons (G : Nat) (x : Meeter) (r : List Meeter) (f n : Nat) (prev : Option (BitVec 64)) :
    packLanes G (x :: r) f n prev =
      (x, nextPlace G (r.length + 1) f n prev x.pc) ::
        packLanes G r (nextPlace G (r.length + 1) f n prev x.pc).1 ((nextPlace G (r.length + 1) f n prev x.pc).2 + 1) (some x.pc) := rfl

/-- The place taken is within the cell's groups, at or after the one asked for, and leaves room for the lanes after it. -/
theorem nextPlace_spec {G m f n : Nat} {prev : Option (BitVec 64)} {pc : BitVec 64} (hn : n ≤ 32) (hroom : 32 * f + n + (m + 1) ≤ 32 * G) :
    (nextPlace G (m + 1) f n prev pc).1 < G ∧ (nextPlace G (m + 1) f n prev pc).2 < 32
    ∧ 32 * f + n ≤ 32 * (nextPlace G (m + 1) f n prev pc).1 + (nextPlace G (m + 1) f n prev pc).2
    ∧ 32 * (nextPlace G (m + 1) f n prev pc).1 + ((nextPlace G (m + 1) f n prev pc).2 + 1) + m ≤ 32 * G := by
  unfold nextPlace
  split
  · omega
  · split
    · omega
    · omega

/-- The packing keeps the lanes in order, within the cell's groups, at places that rise. -/
theorem packLanes_spec (G : Nat) (l : List Meeter) (f n : Nat) (prev : Option (BitVec 64)) (hn : n ≤ 32)
    (hroom : 32 * f + n + l.length ≤ 32 * G) :
    (packLanes G l f n prev).map Prod.fst = l
    ∧ (∀ x ∈ packLanes G l f n prev, x.2.1 < G ∧ x.2.2 < 32 ∧ 32 * f + n ≤ 32 * x.2.1 + x.2.2)
    ∧ ((packLanes G l f n prev).map fun x => 32 * x.2.1 + x.2.2).Pairwise (· < ·) := by
  induction l generalizing f n prev with
  | nil => simp [packLanes]
  | cons x r ih =>
    obtain ⟨hg, hp, hle, hrest⟩ := nextPlace_spec (prev := prev) (pc := x.pc) hn hroom
    obtain ⟨hfst, hin, hrise⟩ := ih _ _ (some x.pc) (Nat.succ_le_of_lt hp) hrest
    rw [packLanes_cons]
    refine ⟨by rw [List.map_cons, hfst], ?_, ?_⟩
    · intro y hy
      rcases List.mem_cons.mp hy with rfl | hy
      · exact ⟨hg, hp, hle⟩
      · obtain ⟨hyg, hyp, hyle⟩ := hin y hy
        exact ⟨hyg, hyp, by omega⟩
    · rw [List.map_cons, List.pairwise_cons]
      refine ⟨fun k hk => ?_, hrise⟩
      obtain ⟨y, hy, rfl⟩ := List.mem_map.mp hk
      obtain ⟨-, -, hyle⟩ := hin y hy
      dsimp only
      omega

end Sys2Proof.Machine

open Sys2Proof.Machine

/-- Settles O44: the places of the packing rise along the meeting's lanes, so no two are the same. -/
theorem regroupPlacesEveryLane : Obligations.RegroupPlacesEveryLane := by
  unfold Obligations.RegroupPlacesEveryLane
  intro G l hfit
  obtain ⟨hfst, hin, hrise⟩ := packLanes_spec G l 0 0 none (Nat.zero_le _) (by omega)
  refine ⟨hfst, fun x hx => ?_, hrise.imp Nat.ne_of_lt⟩
  obtain ⟨hg, hp, -⟩ := hin x hx
  exact ⟨hg, hp⟩
end

section
/-! SUPPORT. The two paths of the arbitration of R40. -/
namespace Sys2Proof.Machine
open Sys2Proof State

/-- A ready group that the 384 path would rather take than what it holds. -/
def morePassed (s : State) (b : Option (Nat × GRef × Entry)) (x : Nat × GRef × Entry) : Option (Nat × GRef × Entry) :=
  match b with
  | none => some x
  | some y => if (s.group y.2.1).passed.toNat < (s.group x.2.1).passed.toNat then some x else b
/-- The group the 384 path takes. -/
def mostPassed (rs : List (Nat × GRef × Entry)) (s : State) : Option (Nat × GRef × Entry) :=
  (rs.filter fun x => 384 ≤ (s.group x.2.1).passed.toNat).foldl (morePassed s) none
/-- The highest task priority of the ready groups. -/
def topPrio (rs : List (Nat × GRef × Entry)) (s : State) : Nat := rs.foldl (fun m x => max m (taskPrio x.2.1 s)) 0
/-- The first of a list at a slot from `rr` on, or the first of all. -/
def fromPointer (rr : Nat) (cands : List (Nat × GRef × Entry)) : Option (Nat × GRef × Entry) :=
  (cands.filter fun x => rr ≤ x.1).head?.orElse fun _ => cands.head?

theorem arbitrate_eq (k : Nat) (rs : List (Nat × GRef × Entry)) (s : State) : arbitrate k rs s =
    match mostPassed rs s with
    | some x => some (x, none)
    | none => (fromPointer (Map.getD (s.studio k).rr (topPrio rs s) 0) (rs.filter fun x => taskPrio x.2.1 s == topPrio rs s)).map
        fun x => (x, some (topPrio rs s)) := by
  unfold arbitrate mostPassed
  rfl

/-- What a walk of the 384 path ends with: what it began with or a group of the list, and passed over at least as often as any. -/
theorem foldl_morePassed {s : State} {l : List (Nat × GRef × Entry)} {b : Option (Nat × GRef × Entry)} {x : Nat × GRef × Entry}
    (h : l.foldl (morePassed s) b = some x) :
    (b = some x ∨ x ∈ l)
    ∧ (∀ y, b = some y ∨ y ∈ l → (s.group y.2.1).passed.toNat ≤ (s.group x.2.1).passed.toNat) := by
  induction l generalizing b with
  | nil =>
    have hb : b = some x := h
    subst hb
    exact ⟨.inl rfl, by simp⟩
  | cons z r ih =>
    obtain ⟨hx, hmost⟩ := ih h
    cases b with
    | none =>
      have hz : morePassed s none z = some z := rfl
      rw [hz] at hx hmost
      refine ⟨.inr (by simpa [eq_comm] using hx), fun y hy => hmost y ?_⟩
      simpa [eq_comm] using hy
    | some w =>
      by_cases hlt : (s.group w.2.1).passed.toNat < (s.group z.2.1).passed.toNat
      · have hz : morePassed s (some w) z = some z := if_pos hlt
        rw [hz] at hx hmost
        refine ⟨.inr (by simpa [eq_comm] using hx), fun y hy => ?_⟩
        rcases hy with hy | hy
        · obtain rfl : w = y := by simpa using hy
          exact (Nat.le_of_lt hlt).trans (hmost z (.inl rfl))
        · exact hmost y (by simpa [eq_comm] using hy)
      · have hz : morePassed s (some w) z = some w := if_neg hlt
        rw [hz] at hx hmost
        refine ⟨hx.imp id (List.mem_cons_of_mem z), fun y hy => ?_⟩
        rcases hy with hy | hy
        · exact hmost y (.inl hy)
        · rcases List.mem_cons.mp hy with rfl | hy
          · exact (Nat.le_of_not_lt hlt).trans (hmost w (.inl rfl))
          · exact hmost y (.inr hy)

/-- The 384 path takes no group where the walk ends with none. -/
theorem foldl_morePassed_none {s : State} {l : List (Nat × GRef × Entry)} {b : Option (Nat × GRef × Entry)}
    (h : l.foldl (morePassed s) b = none) : b = none ∧ l = [] := by
  induction l generalizing b with
  | nil => exact ⟨h, rfl⟩
  | cons z r ih =>
    obtain ⟨hz, -⟩ := ih h
    cases b with
    | none => cases hz
    | some w =>
      simp only [morePassed] at hz
      split at hz <;> cases hz

theorem mostPassed_some {rs : List (Nat × GRef × Entry)} {s : State} {x : Nat × GRef × Entry} (h : mostPassed rs s = some x) :
    x ∈ rs ∧ 384 ≤ (s.group x.2.1).passed.toNat ∧ ∀ y ∈ rs, (s.group y.2.1).passed.toNat ≤ (s.group x.2.1).passed.toNat := by
  obtain ⟨hx, hmost⟩ := foldl_morePassed h
  have hmem : x ∈ rs ∧ 384 ≤ (s.group x.2.1).passed.toNat := by
    simpa using hx
  refine ⟨hmem.1, hmem.2, fun y hy => ?_⟩
  by_cases hp : 384 ≤ (s.group y.2.1).passed.toNat
  · exact hmost y (.inr (by simp [hy, hp]))
  · omega

theorem mostPassed_none {rs : List (Nat × GRef × Entry)} {s : State} (h : mostPassed rs s = none) :
    ∀ y ∈ rs, (s.group y.2.1).passed.toNat < 384 := by
  obtain ⟨-, hnil⟩ := foldl_morePassed_none h
  intro y hy
  simpa using List.filter_eq_nil_iff.mp hnil y hy

theorem foldl_max_ge {α : Type} (f : α → Nat) (l : List α) (m : Nat) :
    m ≤ l.foldl (fun m x => max m (f x)) m ∧ ∀ y ∈ l, f y ≤ l.foldl (fun m x => max m (f x)) m := by
  induction l generalizing m with
  | nil => simp
  | cons z r ih =>
    obtain ⟨hm, hall⟩ := ih (max m (f z))
    refine ⟨(Nat.le_max_left _ _).trans hm, fun y hy => ?_⟩
    rcases List.mem_cons.mp hy with rfl | hy
    · exact (Nat.le_max_right _ _).trans hm
    · exact hall y hy

theorem le_topPrio {rs : List (Nat × GRef × Entry)} {s : State} {y : Nat × GRef × Entry} (h : y ∈ rs) : taskPrio y.2.1 s ≤ topPrio rs s :=
  (foldl_max_ge (fun x : Nat × GRef × Entry => taskPrio x.2.1 s) rs 0).2 y h

/-- The head of a list whose slots rise is at the lowest slot. -/
theorem head_slot_le {l : List (Nat × GRef × Entry)} {x y : Nat × GRef × Entry} (hl : l.Pairwise fun a b => a.1 < b.1)
    (h : l.head? = some x) (hy : y ∈ l) : x.1 ≤ y.1 := by
  obtain ⟨r, rfl⟩ := List.head?_eq_some_iff.mp h
  rcases List.mem_cons.mp hy with rfl | hy
  · exact Nat.le_refl _
  · exact Nat.le_of_lt (List.rel_of_pairwise_cons hl hy)

/-- What the pointer picks: the first from it on, and the first of all only where none is from it on. -/
theorem fromPointer_cases {rr : Nat} {cands : List (Nat × GRef × Entry)} {x : Nat × GRef × Entry} (h : fromPointer rr cands = some x) :
    (cands.filter fun x => rr ≤ x.1).head? = some x
    ∨ ((cands.filter fun x => rr ≤ x.1) = [] ∧ cands.head? = some x) := by
  unfold fromPointer at h
  cases hf : (cands.filter fun x => decide (rr ≤ x.1)) with
  | nil => rw [hf] at h; exact .inr ⟨rfl, by simpa using h⟩
  | cons z r => rw [hf] at h; exact .inl (by simpa using h)

theorem mem_of_fromPointer {rr : Nat} {cands : List (Nat × GRef × Entry)} {x : Nat × GRef × Entry} (h : fromPointer rr cands = some x) :
    x ∈ cands := by
  rcases fromPointer_cases h with h | ⟨-, h⟩
  · exact (List.mem_filter.mp (List.mem_of_head? h)).1
  · exact List.mem_of_head? h

/-- Among groups by rising slot the pointer picks the first from it on, or the first of all. -/
theorem fromPointer_first {rr : Nat} {cands : List (Nat × GRef × Entry)} {x y : Nat × GRef × Entry} (h : fromPointer rr cands = some x)
    (hrise : cands.Pairwise fun a b => a.1 < b.1) (hy : y ∈ cands) :
    (rr ≤ y.1 → rr ≤ x.1 ∧ x.1 ≤ y.1) ∧ (x.1 < rr → x.1 ≤ y.1) := by
  rcases fromPointer_cases h with h | ⟨hnone, h⟩
  · have hx : rr ≤ x.1 := by simpa using (List.mem_filter.mp (List.mem_of_head? h)).2
    refine ⟨fun hle => ⟨hx, head_slot_le (hrise.filter _) h (by simp [hy, hle])⟩, fun hlt => absurd hx (Nat.not_le.mpr hlt)⟩
  · refine ⟨fun hle => absurd hle ?_, fun _ => head_slot_le hrise h hy⟩
    simpa using List.filter_eq_nil_iff.mp hnone y hy

end Sys2Proof.Machine

open Sys2Proof.Machine Sys2Proof.Machine.State

/-- Settles O41, by the two paths of the arbitration. -/
theorem arbitrationOrder : Obligations.ArbitrationOrder := by
  unfold Obligations.ArbitrationOrder
  intro k rs s x top h
  rw [arbitrate_eq] at h
  cases hm : mostPassed rs s with
  | some z =>
    obtain ⟨rfl, rfl⟩ : z = x ∧ none = top := by simpa [hm] using h
    obtain ⟨hmem, h384, hmost⟩ := mostPassed_some hm
    exact ⟨hmem, fun _ => ⟨h384, hmost⟩, fun p hp => nomatch hp⟩
  | none =>
    simp only [hm, Option.map_eq_some_iff, Prod.mk.injEq] at h
    obtain ⟨z, hpick, rfl, rfl⟩ := h
    obtain ⟨hmem, hprio⟩ : z ∈ rs ∧ taskPrio z.2.1 s = topPrio rs s := by simpa using mem_of_fromPointer hpick
    refine ⟨hmem, fun hp => (nomatch hp), fun p hp => ?_⟩
    obtain rfl : topPrio rs s = p := by simpa using hp
    refine ⟨hprio.symm, fun y hy => ⟨mostPassed_none hm y hy, le_topPrio hy⟩, fun hrise => ?_⟩
    exact fun y hy hyp => fromPointer_first hpick (hrise.filter _) (by simp [hy, hyp])
end

section
/-! SUPPORT. The frontier at a run's end (R32): what joining or forming an entry keeps, and where each lane comes to stand. -/
namespace Sys2Proof.Machine
open Sys2Proof

/-- A position of a mask made of positions below 32 is one of them. -/
theorem getLsbD_foldl_or (ps : List Nat) (m : BitVec 32) (p : Nat) (hp : p < 32) :
    (ps.foldl (fun a q => a ||| BitVec.ofNat 32 (2 ^ q)) m).getLsbD p = (m.getLsbD p || decide (p ∈ ps)) := by
  induction ps generalizing m with
  | nil => simp
  | cons q r ih =>
    have hbit : (BitVec.ofNat 32 (2 ^ q)).getLsbD p = decide (p = q) := by
      simp only [BitVec.getLsbD_ofNat, hp, decide_true, Bool.true_and, Nat.testBit_two_pow, eq_comm]
    rw [List.foldl_cons, ih, BitVec.getLsbD_or, hbit, Bool.or_assoc]
    simp only [List.mem_cons, Bool.decide_or]

/-- `maskOf` holds the positions it is made of. -/
theorem getLsbD_maskOf {ps : List Nat} {p : Nat} (h : p ∈ ps) (hp : p < 32) : (maskOf ps).getLsbD p = true := by
  simp only [maskOf, getLsbD_foldl_or ps 0 p hp, h, decide_true, Bool.or_true]

theorem mem_positions {m : BitVec 32} {p : Nat} : p ∈ positions m ↔ p < 32 ∧ m.getLsbD p = true := by
  simp [positions]

namespace State

theorem mem_foldl_distinct {α : Type} [BEq α] [LawfulBEq α] (l a : List α) (x : α) :
    x ∈ l.foldl (fun a x => if a.contains x then a else a ++ [x]) a ↔ x ∈ a ∨ x ∈ l := by
  induction l generalizing a with
  | nil => simp
  | cons y r ih =>
    rw [List.foldl_cons, ih]
    split
    · rename_i hy
      have hmem : y ∈ a := List.contains_iff_mem.mp hy
      constructor
      · exact fun h => h.imp id (List.mem_cons_of_mem y)
      · rintro (h | h)
        · exact .inl h
        · rcases List.mem_cons.mp h with rfl | h
          · exact .inl hmem
          · exact .inr h
    · simp only [List.mem_append, List.mem_cons, List.not_mem_nil, or_false, or_assoc]

/-- `distinct` lists the values of a list. -/
theorem mem_distinct {α : Type} [BEq α] [LawfulBEq α] (l : List α) (x : α) : x ∈ distinct l ↔ x ∈ l := by
  simp only [distinct, mem_foldl_distinct, List.not_mem_nil, false_or]

/-- Some entry of a frontier stands at `pc`, of kind `handler`, with the lanes of `m` among its own. -/
def Stands (es : List Entry) (pc : BitVec 64) (handler : Bool) (m : BitVec 32) : Prop :=
  ∃ e ∈ es, e.pc = pc ∧ e.handler = handler ∧ ∀ p, m.getLsbD p = true → e.mask.getLsbD p = true

/-- Joining or forming an entry leaves every lane where it stood. -/
theorem Stands.joinOrForm {es : List Entry} {pc : BitVec 64} {handler : Bool} {m : BitVec 32} (h : Stands es pc handler m)
    (s : State) (old : Entry) (pc' : BitVec 64) (mask : BitVec 32) (prio : Option (BitVec 6)) (st : Wait) :
    Stands (s.joinOrForm es old pc' mask prio st) pc handler m := by
  obtain ⟨e, he, hpc, hh, hm⟩ := h
  unfold State.joinOrForm
  split
  · rename_i j hj
    refine ⟨_, List.mem_map.mpr ⟨e, he, rfl⟩, ?_⟩
    by_cases heq : (e == j) = true
    · simp only [heq, if_true, BitVec.getLsbD_or, Bool.or_eq_true]
      exact ⟨hpc, hh, fun p hp => .inl (hm p hp)⟩
    · simp only [heq]
      exact ⟨hpc, hh, hm⟩
  · exact ⟨e, List.mem_append_left _ he, hpc, hh, hm⟩

/-- The lanes that join or form an entry stand in it. -/
theorem stands_joinOrForm (s : State) (es : List Entry) (old : Entry) (pc : BitVec 64) (mask : BitVec 32) (prio : Option (BitVec 6))
    (st : Wait) : Stands (s.joinOrForm es old pc mask prio st) pc old.handler mask := by
  unfold State.joinOrForm
  split
  · rename_i j hj
    obtain ⟨hpc, hh⟩ : j.pc = pc ∧ j.handler = old.handler := by simpa [joins] using List.find?_some hj
    refine ⟨_, List.mem_map.mpr ⟨j, List.mem_of_find?_eq_some hj, rfl⟩, ?_⟩
    simp only [beq_self_eq_true, if_true, BitVec.getLsbD_or, Bool.or_eq_true]
    exact ⟨hpc, hh, fun p hp => .inr hp⟩
  · exact ⟨_, List.mem_append_right _ (List.mem_singleton_self _), rfl, rfl, fun p hp => hp⟩

/-- The frontier after the lanes of each continuation `pcs` have joined or formed their entries. -/
def joinAll (s : State) (old : Entry) (lanes : BitVec 64 → BitVec 32) (prio : Option (BitVec 6)) (st : Wait) (pcs : List (BitVec 64))
    (es : List Entry) : List Entry :=
  pcs.foldl (fun es pc => s.joinOrForm es old pc (lanes pc) prio st) es

theorem Stands.joinAll {es : List Entry} {pc : BitVec 64} {handler : Bool} {m : BitVec 32} (h : Stands es pc handler m)
    (s : State) (old : Entry) (lanes : BitVec 64 → BitVec 32) (prio : Option (BitVec 6)) (st : Wait) (pcs : List (BitVec 64)) :
    Stands (s.joinAll old lanes prio st pcs es) pc handler m := by
  induction pcs generalizing es with
  | nil => exact h
  | cons pc' r ih => exact ih (h.joinOrForm s old pc' (lanes pc') prio st)

theorem stands_joinAll (s : State) (old : Entry) (lanes : BitVec 64 → BitVec 32) (prio : Option (BitVec 6)) (st : Wait)
    {pcs : List (BitVec 64)} {pc : BitVec 64} (h : pc ∈ pcs) (es : List Entry) :
    Stands (s.joinAll old lanes prio st pcs es) pc old.handler (lanes pc) := by
  induction pcs generalizing es with
  | nil => cases h
  | cons pc' r ih =>
    rcases List.mem_cons.mp h with rfl | h
    · exact (stands_joinOrForm s es old pc (lanes pc) prio st).joinAll s old lanes prio st r
    · exact ih h _

@[simp] theorem aged_pc (e : Entry) : (aged e).pc = e.pc := by unfold aged; split <;> rfl
@[simp] theorem aged_handler (e : Entry) : (aged e).handler = e.handler := by unfold aged; split <;> rfl
@[simp] theorem aged_mask (e : Entry) : (aged e).mask = e.mask := by unfold aged; split <;> rfl

/-- The continuations of a run's end, each once. -/
def endPcs (s : State) (cont : Nat → Option (BitVec 64)) : List (BitVec 64) := distinct ((positions s.entry.mask).filterMap cont)
/-- The lanes of the issuing entry that go on at `pc`. -/
def endLanes (s : State) (cont : Nat → Option (BitVec 64)) (pc : BitVec 64) : BitVec 32 :=
  maskOf ((positions s.entry.mask).filter fun p => cont p == some pc)
/-- The other entries as a run's end leaves them before its lanes join: aged where no lane comes. -/
def endOthers (s : State) (cont : Nat → Option (BitVec 64)) : List Entry :=
  (s.cg.entries.erase s.entry).map fun x => if (s.endPcs cont).any (fun pc => joins x pc s.entry.handler) then x else aged x

/-- A run's end changes the acting group's frontier, and says how. -/
theorem endRun_entries (s : State) (cont : Nat → Option (BitVec 64)) (prio : Option (BitVec 6)) (st : Wait) :
    s.endRun cont prio st = s.modCg fun g => { g with
      entries := s.joinAll s.entry (s.endLanes cont) prio st (s.endPcs cont) (s.endOthers cont), run := none, settled := false } := rfl

/-- An entry that did not issue keeps its place and its lanes. -/
theorem stands_endOthers {s : State} {e : Entry} (h : e ∈ s.cg.entries.erase s.entry) (cont : Nat → Option (BitVec 64)) :
    Stands (s.endOthers cont) e.pc e.handler e.mask := by
  refine ⟨_, List.mem_map.mpr ⟨e, h, rfl⟩, ?_⟩
  split
  · exact ⟨rfl, rfl, fun p hp => hp⟩
  · simp

/-- Every lane with a continuation is among those that go on there. -/
theorem endLanes_of_cont {s : State} {cont : Nat → Option (BitVec 64)} {p : Nat} {pc : BitVec 64} (hp : p ∈ positions s.entry.mask)
    (h : cont p = some pc) : pc ∈ s.endPcs cont ∧ (s.endLanes cont pc).getLsbD p = true :=
  ⟨(mem_distinct _ _).mpr (List.mem_filterMap.mpr ⟨p, hp, h⟩),
   getLsbD_maskOf (List.mem_filter.mpr ⟨hp, by simp [h]⟩) (mem_positions.mp hp).1⟩

/-- A change of the acting group's frontier and run leaves every other group and cell as it was. -/
theorem cellFrame_modCg (s : State) (f : Group → Group)
    (hf : f s.cg = { s.cg with entries := (f s.cg).entries, run := (f s.cg).run, settled := (f s.cg).settled }) :
    CellFrame s (s.modCg f) where
  rest := rfl
  cells c hc := Map.find_ins_ne hc _ _
  groups k hk := by
    simp only [cc, modCg, modGroup, setGroup, modCell_cur, cell_modCell_same]
    exact Map.find_ins_ne hk _ _
  group := by
    rw [cg_modCg]
    exact hf

theorem cc_modCg (s : State) (f : Group → Group) : (s.modCg f).cc = { s.cc with groups := (s.modCg f).cc.groups } := by
  simp only [cc, modCg, modGroup, setGroup, modCell_cur, cell_modCell_same]

end State
end Sys2Proof.Machine

open Sys2Proof.Machine Sys2Proof.Machine.State

/-- Settles O18: the lanes of each continuation join or form an entry there, and joining keeps every lane that stood. -/
theorem runEndPlacesEveryLane : Obligations.RunEndPlacesEveryLane := by
  unfold Obligations.RunEndPlacesEveryLane
  intro s cont prio st
  rw [endRun_entries]
  refine ⟨fun p hp pc hcont => ?_, fun e he p hp => ?_, ?_, cellFrame_modCg s _ rfl, cc_modCg s _, ?_⟩
  · obtain ⟨hpc, hlane⟩ := endLanes_of_cont hp hcont
    obtain ⟨e, he, hat, hkind, hmask⟩ := stands_joinAll s s.entry (s.endLanes cont) prio st hpc (s.endOthers cont)
    rw [cg_modCg]
    exact ⟨e, he, hat, hkind, hmask p hlane⟩
  · obtain ⟨e', he', hat, hkind, hmask⟩ := (stands_endOthers he cont).joinAll s s.entry (s.endLanes cont) prio st (s.endPcs cont)
    rw [cg_modCg]
    exact ⟨e', he', hat, hkind, hmask p hp⟩
  · rw [cg_modCg]
  · rw [cg_modCg]
end

section
/-! SUPPORT. The barrier instructions (R316-R318), one lemma for each way they end. -/
namespace Sys2Proof.Machine
open Sys2Proof State

theorem require_of {b : Bool} (h : b = true) (code : BitVec 8) (addr sub : Nat) : require b code addr sub = .ok () := by simp [require, h]

/-- Barrier instructions of a cell that is not regrouped pass R315's check. -/
theorem barCheck_ok {s : State} (h : s.cc.regrouped = false) (n : Nat) : barCheck n s = .ok () := require_of (by simp [h]) _ _ _

/-- Counting an event changes no cell, nor which group acts. -/
theorem State.perf_cells (s : State) (k c e n : Nat) : (s.perf k c e n).cells = s.cells := by unfold perf; split <;> rfl
theorem State.perf_cur (s : State) (k c e n : Nat) : (s.perf k c e n).cur = s.cur := by unfold perf; split <;> rfl
theorem State.perf_crun (s : State) (k c e n : Nat) : (s.perf k c e n).crun = s.crun := by
  simp only [crun, cg, group, cell, perf_cells, perf_cur]

/-- BAR_MISUSE of a barrier instruction of a regrouped cell (R44). -/
def regroupedMisuse (o : XOp) : Raise := { code := fBarMisuse, addr := BitVec.ofNat 64 o.bar.toNat }

theorem barCheck_regrouped {s : State} (h : s.cc.regrouped = true) (o : XOp) : barCheck o.bar.toNat s = .error (regroupedMisuse o) := by
  simp only [barCheck, h, regroupedMisuse]
  rfl

section
variable {o : XOp} {s s1 : State} (hreg : s1.cc.regrouped = false) (hact : s1.active o.gd ≠ [])
include hreg hact

theorem execBarinit_ready (h : Issues (.barinit o) s s1) (harr : (s1.cc.bar o.bar.toNat).arrived = 0)
    (hpend : (s1.cc.bar o.bar.toNat).pend = 0) (hrep : reporting s1.cc o.bar.toNat = false) :
    execBarinit o s = .next (goesOn (.barinit o) (s1.modCc fun c =>
      let c := c.putBar o.bar.toNat { s1.cc.bar o.bar.toNat with members := BitVec.ofNat 6 o.count.toNat, phase := false, ovf := false, excess := false }
      { c with groups := c.groups.map (fun g => (g.1, { g.2 with arrA := setBit g.2.arrA o.bar.toNat false, arrP := setBit g.2.arrP o.bar.toNat false })) })) :=
  issue_ok h (by simp [bind, Except.bind, pure, Except.pure, barCheck_ok hreg, hact, require, harr, hpend, hrep])

theorem execBararr_again (h : Issues (.bararr o) s s1) (harr : arrA o.bar.toNat s1 = true)
    (hph : arrP o.bar.toNat s1 = (s1.cc.bar o.bar.toNat).phase) : execBararr o s = .next (goesOn (.bararr o) s1) :=
  issue_ok h (by simp [bind, Except.bind, pure, Except.pure, barCheck_ok hreg, hact, harr, hph])

theorem execBararr_first (h : Issues (.bararr o) s s1)
    (hnew : arrA o.bar.toNat s1 = false ∨ arrP o.bar.toNat s1 ≠ (s1.cc.bar o.bar.toNat).phase)
    (hroom : (s1.cc.bar o.bar.toNat).arrived ≠ (s1.cc.bar o.bar.toNat).members) :
    let b := s1.cc.bar o.bar.toNat
    let s2 := releaseActs s1.cur (s1.whoOf s1.cur.cell) 2 none s1
    execBararr o s = .next (goesOn (.bararr o) (setBar s2.cur.cell o.bar.toNat { b with arrived := b.arrived + 1 }
      (s2.modCg fun g => { g with arrA := setBit g.arrA o.bar.toNat true, arrP := setBit g.arrP o.bar.toNat b.phase }))) := by
  have hnot : (arrA o.bar.toNat s1 && arrP o.bar.toNat s1 == (s1.cc.bar o.bar.toNat).phase) = false := by
    rcases hnew with h | h <;> simp [h]
  exact issue_ok h (by
    simp only [bind, Except.bind, pure, Except.pure, barCheck_ok hreg, hact, hnot, List.isEmpty_iff, require_of (decide_eq_true hroom)]
    rfl)

theorem execBarwait_ended (h : Issues (.barwait o) s s1) (harr : arrA o.bar.toNat s1 = true) (hex : (s1.cc.bar o.bar.toNat).excess = false)
    (hovf : (s1.cc.bar o.bar.toNat).ovf = false) (hph : (s1.cc.bar o.bar.toNat).phase ≠ arrP o.bar.toNat s1) :
    execBarwait o s = .next (goesOn (.barwait o) s1.settleLanded) :=
  issueWith_ok h (by simp [bind, Except.bind, pure, Except.pure, barCheck_ok hreg, hact, require, harr, hex, hovf, hph])

theorem execBarwait_waits (h : Issues (.barwait o) s s1) (harr : arrA o.bar.toNat s1 = true) (hex : (s1.cc.bar o.bar.toNat).excess = false)
    (hovf : (s1.cc.bar o.bar.toNat).ovf = false) (hph : (s1.cc.bar o.bar.toNat).phase = arrP o.bar.toNat s1) :
    execBarwait o s = .next ((s1.perf s1.ck s1.cc.ctx 0x0C).endRun (fun _ => some (nextPC s1.crun.pc)) none (.barrier o.bar.toNat (arrP o.bar.toNat s1))) := by
  have hbody : execBarwait o s = .next (State.advance (s1.perf s1.ck s1.cc.ctx 0x0C) (.barwait o) (.wait (.barrier o.bar.toNat (arrP o.bar.toNat s1)))) :=
    issueWith_ok h (by simp [bind, Except.bind, pure, Except.pure, barCheck_ok hreg, hact, require, harr, hex, hovf, hph])
  rw [hbody, ← perf_crun s1 s1.ck s1.cc.ctx 0x0C 1]
  rfl

theorem execBarexp_ready (h : Issues (.barexp o) s s1) (hv : (s1.gval o.record).toNat < 2 ^ 40)
    (hsum : (s1.cc.bar o.bar.toNat).pend + ((s1.gval o.record).toNat : Int) ≤ 2 ^ 39 - 1) :
    let b := s1.cc.bar o.bar.toNat
    execBarexp o s = .next (goesOn (.barexp o) (setBar s1.cur.cell o.bar.toNat { b with pend := b.pend + ((s1.gval o.record).toNat : Int) } s1)) :=
  issue_ok h (by
    simp only [bind, Except.bind, pure, Except.pure, barCheck_ok hreg, require_of (decide_eq_true hv), require_of (decide_eq_true hsum),
      hact, List.isEmpty_iff, if_false])

end

theorem execBartest_ready {o : XOp} {s s1 : State} (hreg : s1.cc.regrouped = false) (h : Issues (.bartest o) s s1) :
    let past := arrA o.bar.toNat s1 && (s1.cc.bar o.bar.toNat).phase != arrP o.bar.toNat s1
    execBartest o s = .next (goesOn (.bartest o)
      ((if past then s1.settleLanded else s1).applyPred o.gd (bits o.imm.toNat 3 0) fun _ => past)) :=
  issue_ok h (by simp only [bind, Except.bind, pure, Except.pure, barCheck_ok hreg])

/-- An issue whose effect raises a fault that holds nothing. -/
theorem issueWith_raise {i : Instr} {s s1 : State} {x : Raise} {body : State → Except Raise (State × After)} (h : Issues i s s1)
    (hb : body s1 = .error x) (hx : x.hold = false) : issueWith i s body = .next (s.raise x) := by
  rw [issueWith_error h hb, holdDest_of_fault hx]
theorem issue_raise {i : Instr} {s s1 : State} {x : Raise} {body : State → Except Raise State} (h : Issues i s s1)
    (hb : body s1 = .error x) (hx : x.hold = false) : issue i s body = .next (s.raise x) := by
  rw [issue_error h hb, holdDest_of_fault hx]

section
variable {o : XOp} {s s1 : State} (hreg : s1.cc.regrouped = true)
include hreg

theorem execBarinit_regrouped (h : Issues (.barinit o) s s1) : execBarinit o s = .next (s.raise (regroupedMisuse o)) :=
  issue_raise h (by simp only [bind, Except.bind, barCheck_regrouped hreg]) rfl
theorem execBararr_regrouped (h : Issues (.bararr o) s s1) : execBararr o s = .next (s.raise (regroupedMisuse o)) :=
  issue_raise h (by simp only [bind, Except.bind, barCheck_regrouped hreg]) rfl
theorem execBarwait_regrouped (h : Issues (.barwait o) s s1) : execBarwait o s = .next (s.raise (regroupedMisuse o)) :=
  issueWith_raise h (by simp only [bind, Except.bind, barCheck_regrouped hreg]) rfl
theorem execBartest_regrouped (h : Issues (.bartest o) s s1) : execBartest o s = .next (s.raise (regroupedMisuse o)) :=
  issue_raise h (by simp only [bind, Except.bind, barCheck_regrouped hreg]) rfl
theorem execBarexp_regrouped (h : Issues (.barexp o) s s1) : execBarexp o s = .next (s.raise (regroupedMisuse o)) :=
  issue_raise h (by simp only [bind, Except.bind, barCheck_regrouped hreg]) rfl

end
end Sys2Proof.Machine

open Sys2Proof.Machine Sys2Proof.Machine.State

/-- Settles O26, by each instruction's own checks; that the cell is regrouped is the first of them. -/
theorem barrierInstructionsComplete : Obligations.BarrierInstructionsComplete := by
  unfold Obligations.BarrierInstructionsComplete
  constructor
  · intro o s s1 hreg hact
    refine ⟨fun h harr hpend hrep => execBarinit_ready hreg hact h harr hpend hrep,
      fun h harr hph => execBararr_again hreg hact h harr hph, fun h hnew hroom => execBararr_first hreg hact h hnew hroom,
      fun h harr hex hovf hph => execBarwait_ended hreg hact h harr hex hovf hph,
      fun h harr hex hovf hph => execBarwait_waits hreg hact h harr hex hovf hph,
      fun h => execBartest_ready hreg h, fun h hv hsum => execBarexp_ready hreg hact h hv hsum⟩
  · rintro o s s1 hreg i (rfl | rfl | rfl | rfl | rfl) h
    · exact execBarinit_regrouped hreg h
    · exact execBararr_regrouped hreg h
    · exact execBarwait_regrouped hreg h
    · exact execBartest_regrouped hreg h
    · exact execBarexp_regrouped hreg h
end

section
/-! SUPPORT. What RUN_DISPATCH does where it picks a group (R40). -/
namespace Sys2Proof.Machine
open Sys2Proof State

/-- The ready groups a dispatch from `slot` passes over count it (R40). -/
def passOver (slot : Nat) (rs : List (Nat × GRef × Entry)) (s : State) : State :=
  rs.foldl (fun s y => if y.1 = slot then s else
    s.modGroup y.2.1 fun g => { g with passed := if g.passed.toNat < 511 then g.passed + 1 else g.passed }) s
/-- The events of R313 that a dispatch of a group counts. -/
def countTurn (k : Nat) (r : GRef) (s : State) : State :=
  let c := (s.cell r.cell).ctx
  let s := s.perf k c 2
  if starving (s.group r) then s.perf k c 0x0E else s
/-- The priority's pointer moves past the slot served; the 384 path moves none. -/
def movePointerPast (k slot : Nat) (top : Option Nat) (s : State) : State :=
  match top with
  | some p => s.modStudio k fun st => { st with rr := Map.ins p ((slot + 1) % 48) st.rr }
  | none => s
/-- What a dispatch counts before its run begins. -/
def countDispatch (k : Nat) (rs : List (Nat × GRef × Entry)) (x : Nat × GRef × Entry) (top : Option Nat) (s : State) : State :=
  passOver x.1 rs (movePointerPast k x.1 top (countTurn k x.2.1 s))

/-- The dispatch of a run that is not refused. -/
theorem dispatch_marked {k : Nat} {rs : List (Nat × GRef × Entry)} {slot : Nat} {r : GRef} {e : Entry} {top : Option Nat} {s : State}
    (href : (runOf r e s).refused = false) (hmark : entryMarked r e s = true) :
    let t := startRun r e (countDispatch k rs (slot, r, e) top s)
    dispatch k rs (slot, r, e) top s =
      t.modGroup r fun g => { g with passed := 0, disp := g.disp + 1, first := g.first && t.crun.unknown == some e.pc } := by
  simp only [dispatch, href, hmark, if_true]
  rfl

/-- RUN_DISPATCH where a group is picked. -/
theorem runDispatch_picked {k : Nat} {s : State} {x : Nat × GRef × Entry} {top : Option Nat} (hclk : s.clockStopped = false)
    (hboot : s.module.bootFailed = false) (hlate : lateDelivery (settleWaits k s) (studioGroups k (settleWaits k s)) = none)
    (hfree : inFlight k (settleWaits k s) < 4)
    (hpick : arbitrate k (readyGroups k (countRefusals k (settleWaits k s))) (countRefusals k (settleWaits k s)) = some (x, top)) :
    runDispatch k s = dispatch k (readyGroups k (countRefusals k (settleWaits k s))) x top (countRefusals k (settleWaits k s)) := by
  simp only [runDispatch, hclk, hboot, hlate, Nat.not_le.mpr hfree, hpick, Bool.false_eq_true, or_self, if_false]

theorem clockStopped_eq_false {s : State} (h : s.module.powerNow ≠ 3) : s.clockStopped = false := by
  simpa [State.clockStopped] using h

theorem mem_perf (s : State) (k c e n : Nat) : (s.perf k c e n).mem = s.mem := by unfold State.perf; split <;> rfl
theorem group_perf (s : State) (k c e n : Nat) (r : GRef) : (s.perf k c e n).group r = s.group r := by
  unfold State.perf; split <;> rfl

/-- Passing a group over changes its count of refused turns only. -/
theorem passOver_spec (slot : Nat) (rs : List (Nat × GRef × Entry)) (s : State) (r : GRef) :
    (passOver slot rs s).mem = s.mem ∧ ((passOver slot rs s).group r).disp = (s.group r).disp := by
  induction rs generalizing s with
  | nil => exact ⟨rfl, rfl⟩
  | cons y l ih =>
    unfold passOver at ih ⊢
    rw [List.foldl_cons]
    obtain ⟨hmem, hdisp⟩ := ih (if y.1 = slot then s else
      s.modGroup y.2.1 fun g => { g with passed := if g.passed.toNat < 511 then g.passed + 1 else g.passed })
    rw [hmem, hdisp]
    split
    · exact ⟨rfl, rfl⟩
    · refine ⟨rfl, ?_⟩
      by_cases hr : r = y.2.1
      · rw [hr, group_modGroup_same]
      · rw [group_modGroup_ne s hr]

theorem countTurn_spec (k : Nat) (q : GRef) (s : State) (r : GRef) :
    (countTurn k q s).mem = s.mem ∧ (countTurn k q s).group r = s.group r := by
  unfold countTurn
  dsimp only
  split <;> simp only [mem_perf, group_perf, and_self]

theorem movePointerPast_spec (k slot : Nat) (top : Option Nat) (s : State) (r : GRef) :
    (movePointerPast k slot top s).mem = s.mem ∧ (movePointerPast k slot top s).group r = s.group r := by
  cases top <;> exact ⟨rfl, rfl⟩

/-- The counters of a dispatch leave memory alone, and every group's count of dispatches. -/
theorem countDispatch_spec (k : Nat) (rs : List (Nat × GRef × Entry)) (x : Nat × GRef × Entry) (top : Option Nat) (s : State) (r : GRef) :
    (countDispatch k rs x top s).mem = s.mem ∧ ((countDispatch k rs x top s).group r).disp = (s.group r).disp := by
  obtain ⟨hmem, hdisp⟩ := passOver_spec x.1 rs (movePointerPast k x.1 top (countTurn k x.2.1 s)) r
  obtain ⟨hmem', hgroup'⟩ := movePointerPast_spec k x.1 top (countTurn k x.2.1 s) r
  obtain ⟨hmem'', hgroup''⟩ := countTurn_spec k x.2.1 s r
  exact ⟨hmem.trans (hmem'.trans hmem''), hdisp.trans (congrArg Group.disp (hgroup'.trans hgroup''))⟩

/-- The run just begun is the acting group's, at the entry's PC. -/
theorem startRun_spec (r : GRef) (e : Entry) (s : State) : ∃ u, (startRun r e s).cur = r ∧ ((startRun r e s).group r).run = some u
    ∧ (u.start = e.pc ∧ u.pc = e.pc ∧ u.handler = e.handler ∧ u.held = false ∧ u.empty = [])
    ∧ ((startRun r e s).group r).disp = (s.group r).disp ∧ (startRun r e s).mem = s.mem := by
  refine ⟨_, rfl, congrArg Group.run (group_modGroup_same { s with cur := r } r _), ⟨rfl, rfl, rfl, rfl, rfl⟩, ?_, rfl⟩
  rw [startRun, group_modGroup_same]
  rfl

/-- A dispatch of a run that is not refused: the run begins, and the group's counters are those of R40. -/
theorem dispatch_spec {k : Nat} {rs : List (Nat × GRef × Entry)} {slot : Nat} {r : GRef} {e : Entry} {top : Option Nat} {s : State}
    (href : (runOf r e s).refused = false) (hmark : entryMarked r e s = true) :
    let t := dispatch k rs (slot, r, e) top s
    ∃ u, t.cur = r ∧ (t.group r).run = some u ∧ (u.start = e.pc ∧ u.pc = e.pc ∧ u.handler = e.handler ∧ u.held = false ∧ u.empty = [])
      ∧ (t.group r).passed = 0 ∧ (t.group r).disp = (s.group r).disp + 1 ∧ (u.unknown ≠ some e.pc → (t.group r).first = false) ∧ t.mem = s.mem := by
  obtain ⟨hmem, hdisp⟩ := countDispatch_spec k rs (slot, r, e) top s r
  obtain ⟨u, hcur, hrun, hu, hdisp', hmem'⟩ := startRun_spec r e (countDispatch k rs (slot, r, e) top s)
  have hcrun : (startRun r e (countDispatch k rs (slot, r, e) top s)).crun = u := by
    rw [crun, cg, hcur, hrun, Option.getD_some]
  rw [dispatch_marked href hmark]
  simp only [group_modGroup_same, modGroup_cur, modGroup_mem, hcur, hrun, hdisp', hdisp, hmem', hmem, hcrun]
  refine ⟨u, trivial, rfl, hu, trivial, trivial, fun hknown => ?_, trivial⟩
  simp only [beq_eq_false_iff_ne.mpr hknown, Bool.and_false]

end Sys2Proof.Machine

open Sys2Proof.Machine Sys2Proof.Machine.State

/-- Settles O40: the picked group's run begins after the counters of R40, which leave memory and every count of dispatches alone. -/
theorem runDispatchStartsAPickedRun : Obligations.RunDispatchStartsAPickedRun := by
  unfold Obligations.RunDispatchStartsAPickedRun
  intro k s slot r e top hpow hboot s1 s2 hlate hfree hpick href hmark
  obtain ⟨u, hcur, hrun, ⟨hstart, hpc, hhandler, hheld, hempty⟩, hcounts⟩ :=
    dispatch_spec (k := k) (rs := readyGroups k s2) (slot := slot) (top := top) href hmark
  exact ⟨_, u, congrArg Host.Outcome.next (runDispatch_picked (clockStopped_eq_false hpow) hboot hlate hfree hpick),
    hcur, hrun, hstart, hpc, hhandler, hheld, hempty, hcounts⟩
end

section
/-! SUPPORT. A held run that goes on (R57, R158). -/
namespace Sys2Proof.Machine
open Sys2Proof State

/-- The two events of a held run are the same step of its group. -/
theorem exec_resume {k slot : Nat} {s : State} {r : GRef} {i : Instr} (h : heldGroup k slot s = some r)
    (hi : i = .fetchResume k slot ∨ i = .heldAccessResume k slot) : exec i s = .next (resumeRun r s) := by
  rcases hi with rfl | rfl
  · change execFetchResume k slot s = _
    rw [execFetchResume, h]
  · change execHeldAccessResume k slot s = _
    rw [execHeldAccessResume, h]

section
variable {r : GRef} {s : State} {u : Run} (hrun : (s.group r).run = some u)
include hrun

/-- The slot's fetch meets a migrating page still, or faults. -/
theorem resumeRun_of_error {y : Raise} (h : s.fetchSlot (s.whoOf r.cell) u.pc = .error y) :
    resumeRun r s = if y.hold then s else
      (clearHeld r s).modGroup r fun g => { g with run := g.run.map fun u => { u with unknown := none } } := by
  simp only [resumeRun, hrun, Option.getD_some, h]

/-- The slot can be fetched, and dispatch had seen it. -/
theorem resumeRun_known {s1 : State} {ln : Nat} (h : s.fetchSlot (s.whoOf r.cell) u.pc = .ok (s1, ln)) (hk : u.unknown ≠ some u.pc) :
    resumeRun r s = clearHeld r s := by
  simp only [resumeRun, hrun, Option.getD_some, h, hk, if_false]

/-- The slot can be fetched, dispatch had not seen it, and what is seen now passes R34, R60 and R37. -/
theorem resumeRun_judged {s1 : State} {ln : Nat} (h : s.fetchSlot (s.whoOf r.cell) u.pc = .ok (s1, ln)) (hk : u.unknown = some u.pc)
    (href : ((clearHeld r s).scanRun (s.whoOf r.cell) (pcLine u.start) (24 - u.hist.length) u.pc).refused = false)
    (hmark : (s.group r).first = true → lineTarget ln (pcSlot u.pc) = true)
    (hready : let sc := (clearHeld r s).scanRun (s.whoOf r.cell) (pcLine u.start) (24 - u.hist.length) u.pc
      runReady r sc.is ((runUses r sc.is (clearHeld r s)).map (restUses u)) (clearHeld r s) = true) :
    resumeRun r s = (clearHeld r s).modGroup r fun g => { g with first := false, run := g.run.map fun v =>
      { v with unknown := ((clearHeld r s).scanRun (s.whoOf r.cell) (pcLine u.start) (24 - u.hist.length) u.pc).unknown } } := by
  have hm : ((s.group r).first && !lineTarget ln (pcSlot u.pc)) = false := by
    cases hf : (s.group r).first with
    | false => rfl
    | true => rw [hmark hf]; rfl
  simp only [resumeRun, hrun, Option.getD_some, h, hk, if_true, judgeRest, href, hm, hready, Bool.not_true, Bool.false_eq_true, if_false]

end
end Sys2Proof.Machine
end

section
/-! SUPPORT. A producer's result as it arrives (R38). -/
namespace Sys2Proof.Machine
open Sys2Proof

theorem getLsbD_setBit {w : Nat} (x : BitVec w) (i j : Nat) (b : Bool) (hj : j < w) :
    (setBit x i b).getLsbD j = if j = i then b else x.getLsbD j := by
  have hbit : (BitVec.ofNat w (2 ^ i)).getLsbD j = decide (i = j) := by
    simp only [BitVec.getLsbD_ofNat, hj, decide_true, Bool.true_and, Nat.testBit_two_pow]
  cases b
  · simp only [setBit, Bool.false_eq_true, if_false, BitVec.getLsbD_and, BitVec.getLsbD_not, hj, decide_true, Bool.true_and, hbit]
    by_cases h : j = i
    · simp [h]
    · simp [h, Ne.symm h]
  · simp only [setBit, if_true, BitVec.getLsbD_or, hbit]
    by_cases h : j = i
    · simp [h]
    · simp [h, Ne.symm h]

/-- A register whose full bit a group keeps. -/
def Reg.inRange : Reg → Prop
  | .v j => j < 256
  | .g j => j < 96

theorem isEmpty_setEmpty_same (g : Group) (b : Bool) {x : Reg} (h : x.inRange) : (g.setEmpty b x).isEmpty x = b := by
  cases x with
  | v j => simp [Group.setEmpty, Group.isEmpty, getLsbD_setBit _ _ _ _ h]
  | g j => simp [Group.setEmpty, Group.isEmpty, getLsbD_setBit _ _ _ _ h]

/-- Filling a register empties none. -/
theorem isEmpty_setEmpty_false (g : Group) (y : Reg) {x : Reg} (h : x.inRange) (hx : g.isEmpty x = false) :
    (g.setEmpty false y).isEmpty x = false := by
  cases x with
  | v j => cases y with
    | v i => simp only [Group.setEmpty, Group.isEmpty, getLsbD_setBit _ _ _ _ h] at hx ⊢; split <;> simp [hx]
    | g i => exact hx
  | g j => cases y with
    | v i => exact hx
    | g i => simp only [Group.setEmpty, Group.isEmpty, getLsbD_setBit _ _ _ _ h] at hx ⊢; split <;> simp [hx]

/-- The registers `l` of a group become full. -/
def fillRegs (l : List Reg) (g : Group) : Group := l.foldl (fun g x => g.setEmpty false x) g

theorem fillRegs_full (l : List Reg) (g : Group) {x : Reg} (h : x.inRange) (hx : x ∈ l ∨ g.isEmpty x = false) :
    (fillRegs l g).isEmpty x = false := by
  unfold fillRegs
  induction l generalizing g with
  | nil => exact hx.resolve_left (by simp)
  | cons y r ih =>
    refine ih _ ?_
    rcases hx with hx | hx
    · rcases List.mem_cons.mp hx with rfl | hx
      · exact .inr (isEmpty_setEmpty_same g false h)
      · exact .inl hx
    · exact .inr (isEmpty_setEmpty_false g y h hx)

/-- Filling registers changes their full bits only. -/
theorem fillRegs_eq (l : List Reg) (g : Group) :
    fillRegs l g = { g with vEmpty := (fillRegs l g).vEmpty, gEmpty := (fillRegs l g).gEmpty } := by
  unfold fillRegs
  induction l generalizing g with
  | nil => rfl
  | cons y r ih =>
    rw [List.foldl_cons, ih]
    cases y <;> rfl

/-- The predicate of a producer is no longer pending. -/
def clearPend (p : Option Nat) (g : Group) : Group :=
  match p with
  | some q => { g with pPend := setBit g.pPend q false }
  | none => g

/-- What a producer's write does to the g registers of its group. -/
def writeGroup (g : Group) : RegWrite → Group
  | .g i x => g.setG i x
  | _ => g

theorem foldl_writeGroup_outs (ws : List RegWrite) (g : Group) : (ws.foldl writeGroup g).outs = g.outs := by
  induction ws generalizing g with
  | nil => rfl
  | cons w r ih => rw [List.foldl_cons, ih]; cases w <;> rfl

namespace State

/-- A change of a cell that keeps its groups. -/
theorem group_modCell_of_groups (s : State) (c : Nat) (f : Cell → Cell) (r : GRef) (hf : (f (s.cell c)).groups = (s.cell c).groups) :
    (s.modCell c f).group r = s.group r := by
  by_cases hc : r.cell = c
  · simp only [group, hc, cell_modCell_same, hf]
  · simp only [group, cell_modCell_ne s hc]

/-- One write of a producer of group `r`. -/
def performWrite (r : GRef) (s : State) (w : RegWrite) : State :=
  match w with
  | .v cl i x => s.modCell r.cell fun c => c.setV cl i x
  | .g i x => s.modGroup r fun g => g.setG i x
  | .p cl i x => s.modCell r.cell fun c => c.setPred cl i x

theorem group_performWrite (r : GRef) (s : State) (w : RegWrite) : (performWrite r s w).group r = writeGroup (s.group r) w := by
  cases w with
  | v cl i x => exact group_modCell_of_groups s _ _ r rfl
  | g i x => exact group_modGroup_same s r _
  | p cl i x =>
    refine group_modCell_of_groups s _ _ r ?_
    unfold Cell.setPred
    split <;> rfl

theorem group_performWrites (r : GRef) (ws : List RegWrite) (s : State) :
    (ws.foldl (performWrite r) s).group r = ws.foldl writeGroup (s.group r) := by
  induction ws generalizing s with
  | nil => rfl
  | cons w l ih => rw [List.foldl_cons, ih, group_performWrite, List.foldl_cons]

theorem group_settleRegion (s : State) (c : Nat) (i : Option (Nat × Nat)) (r : GRef) : (s.settleRegion c i).group r = s.group r := by
  cases i <;> rfl

/-- The group whose producer completes: its writes made, its registers full, its predicate no longer pending. -/
theorem group_complete (s : State) (r : GRef) (p : Producer) :
    (s.complete r p).group r = clearPend p.pred (fillRegs p.regs (p.writes.foldl writeGroup (s.group r))) := by
  rw [complete, group_modGroup_same]
  refine congrArg (fun g => clearPend p.pred (fillRegs p.regs g)) ?_
  refine (group_performWrites r p.writes _).trans ?_
  exact congrArg (p.writes.foldl writeGroup) (group_settleRegion s _ p.region r)

/-- What the acting group of a completion shows: its list of producers, the full registers, the predicate, a g register written. -/
theorem group_complete_spec (s : State) (r : GRef) (p : Producer) :
    ((s.complete r p).group r).outs = (s.group r).outs
    ∧ (∀ x ∈ p.regs, x.inRange → ((s.complete r p).group r).isEmpty x = false)
    ∧ (∀ q, p.pred = some q → q < 16 → ((s.complete r p).group r).pPend.getLsbD q = false)
    ∧ ∀ j x, p.writes = [.g j x] → ((s.complete r p).group r).greg j = x := by
  rw [group_complete]
  refine ⟨?_, fun x hx hin => ?_, fun q hq hlt => ?_, fun j x hw => ?_⟩
  · rw [← foldl_writeGroup_outs p.writes (s.group r), fillRegs_eq]
    cases p.pred <;> rfl
  · have hfull := fillRegs_full p.regs (p.writes.foldl writeGroup (s.group r)) hin (.inl hx)
    cases p.pred <;> cases x <;> exact hfull
  · simp only [hq, clearPend, getLsbD_setBit _ _ _ _ hlt, if_true]
  · rw [hw, fillRegs_eq]
    have hwrite : (writeGroup (s.group r) (.g j x)).greg j = x := greg_setG_same _ _ _
    cases p.pred <;> exact hwrite

end State

/-- A producer that carries no fault, no acquire and no answer of its own event delivers its result. -/
theorem execLongLatencyComplete_plain {cell grp i : Nat} {s : State} {p : Producer} (h : (s.group ⟨cell, grp⟩).outs[i]? = some p)
    (hck : p.ckpt = none) (hfork : p.fork = false) (htest : p.test = none) (hfault : p.fault = none) (hacq : p.acq = 0) :
    execLongLatencyComplete cell grp i s =
      .next ((s.modGroup ⟨cell, grp⟩ fun g => { g with outs := g.outs.eraseIdx i }).complete ⟨cell, grp⟩ p) := by
  simp [execLongLatencyComplete, h, deliverResult, hck, hfork, htest, hfault, hacq]

end Sys2Proof.Machine
end

section
/-! SUPPORT. The arithmetic cycle of a studio (R26): the events counted with it change neither the clock, nor memory, nor a cell. -/
namespace Sys2Proof.Machine
open Sys2Proof State

/-- What counting events keeps of a state. -/
def SameButCounts (k : Nat) (s t : State) : Prop := (t.studio k).clk = (s.studio k).clk ∧ t.mem = s.mem ∧ t.cells = s.cells

theorem SameButCounts.perf {k : Nat} {s t : State} (h : SameButCounts k s t) (j c e n : Nat) : SameButCounts k s (t.perf j c e n) := by
  obtain ⟨hclk, hmem, hcells⟩ := h
  unfold State.perf
  split
  · refine ⟨Eq.trans ?_ hclk, hmem, hcells⟩
    by_cases hk : k = j
    · subst hk
      rw [studio_modStudio_same]
    · rw [studio_modStudio_ne t hk]
  · exact ⟨hclk, hmem, hcells⟩

theorem SameButCounts.perfIf {k : Nat} {s t : State} (h : SameButCounts k s t) (b : Bool) (j c e n : Nat) :
    SameButCounts k s (if b then t.perf j c e n else t) := by
  cases b
  · exact h
  · exact h.perf j c e n

theorem SameButCounts.perfUnless {k : Nat} {s t : State} (h : SameButCounts k s t) (b : Bool) (j c e n : Nat) :
    SameButCounts k s (if b then t else t.perf j c e n) := by
  cases b
  · exact h.perf j c e n
  · exact h

theorem execArithmeticCycle_spec (k : Nat) {s : State} (h : s.clockStopped = false) : ∃ t, execArithmeticCycle k s = .next t
    ∧ SameButCounts k (s.modStudio k fun st => { st with clk := st.clk + 1 }) t := by
  refine ⟨_, rfl, ?_⟩
  simp only [h, Bool.false_eq_true, if_false]
  refine foldl_keeps (P := SameButCounts k _) (fun t c ht => ?_) _ ⟨rfl, rfl, rfl⟩
  exact ((ht.perfIf _ k c 1 1).perfIf _ k c 9 1).perfUnless _ k c 0x0B 1

end Sys2Proof.Machine

open Sys2Proof.Machine Sys2Proof.Machine.State

/-- Settles O42, event by event: a held run by the fetch of its slot, a result by what its completion does to the group. -/
theorem runEventsComplete : Obligations.RunEventsComplete := by
  unfold Obligations.RunEventsComplete
  refine ⟨fun k slot s r u i hheld hrun hi => ⟨fun y hfetch => ⟨fun hhold => ?_, fun hhold => ?_⟩, fun s1 ln hfetch => ⟨fun hk => ?_, fun hk => ?_⟩⟩,
    fun cell grp i s p => ?_, fun cell grp s hrun hpast => ?_, fun k s hpow => ?_⟩
  · rw [exec_resume hheld hi, resumeRun_of_error hrun hfetch, if_pos hhold]
  · rw [exec_resume hheld hi, resumeRun_of_error hrun hfetch, hhold, if_neg Bool.false_ne_true]
  · rw [exec_resume hheld hi, resumeRun_known hrun hfetch hk]
  · intro sc href hmark hready
    rw [exec_resume hheld hi, resumeRun_judged hrun hfetch hk href hmark hready]
  · intro r hp hck hfork htest hfault hacq
    have houts := congrArg Group.outs (group_modGroup_same s r fun g => { g with outs := g.outs.eraseIdx i })
    obtain ⟨hkeep, hfull, hpend, hwrite⟩ := group_complete_spec (s.modGroup r fun g => { g with outs := g.outs.eraseIdx i }) r p
    refine ⟨_, execLongLatencyComplete_plain hp hck hfork htest hfault hacq, rfl, hkeep.trans houts, fun x hx => ?_, hpend, hwrite⟩
    cases x with
    | v j => exact hfull (.v j) hx
    | g j => exact hfull (.g j) hx
  · change execRunSettled cell grp s = _
    simp [execRunSettled, hrun, List.all_eq_true.mpr hpast]
  · obtain ⟨t, ht, hclk, hmem, hcells⟩ := execArithmeticCycle_spec k (clockStopped_eq_false hpow)
    exact ⟨t, ht, by rw [hclk, studio_modStudio_same], hmem, hcells⟩
end

section
/-! SUPPORT. The remap table of a regroup meeting (R43). -/
namespace Sys2Proof.Machine
open Sys2Proof State

/-- A table written at each number of a list holds, at each of them, what it was given there. -/
theorem find_foldl_ins {α : Type} (f : Nat → α) (l : List Nat) (m : Map α) (k : Nat) :
    Map.find k (l.foldl (fun m j => Map.ins j (f j) m) m) = if k ∈ l then some (f k) else Map.find k m := by
  induction l generalizing m with
  | nil => simp
  | cons j r ih =>
    rw [List.foldl_cons, ih, Map.find_ins]
    by_cases hr : k ∈ r
    · simp [hr]
    · by_cases hj : k = j <;> simp [hr, hj]

/-- Where the packing `pl` puts an original lane; one that it does not place stands nowhere. -/
def packedPlace (pl : List (Meeter × Nat × Nat)) (cl : Nat) : Nat :=
  match pl.find? fun x => x.1.cl == cl with
  | some x => 32 * x.2.1 + x.2.2
  | none => 512 + cl

/-- A lane of the packing has the place of an entry of the packing for it. -/
theorem packedPlace_of_mem {pl : List (Meeter × Nat × Nat)} {x : Meeter × Nat × Nat} (h : x ∈ pl) :
    ∃ y ∈ pl, y.1.cl = x.1.cl ∧ packedPlace pl x.1.cl = 32 * y.2.1 + y.2.2 := by
  unfold packedPlace
  cases hf : pl.find? fun y => y.1.cl == x.1.cl with
  | none => exact absurd (List.find?_eq_none.mp hf x h) (by simp)
  | some y => exact ⟨y, List.mem_of_find?_eq_some hf, by simpa using List.find?_some hf, rfl⟩

/-- The placement of a regroup meeting (R42). -/
def regroupPlaces (c : Cell) : List (Meeter × Nat × Nat) := packLanes c.groupCount ((meeters c).mergeSort meetBefore) 0 0 none
/-- The cell as its regroup meeting leaves it. -/
def regroupedCell (n : Nat) (s : State) : Cell :=
  let c := s.cell n
  { c with groups := meetGroups (s.whoOf n) (regroupPlaces c) (fun x => x.cl / 32) true c.groups s
           remap := (List.range c.shape).foldl (fun m cl => Map.ins cl (packedPlace (regroupPlaces c) cl) m) []
           regrouped := true }

theorem execRegroupMeetingComplete_met {n : Nat} {s : State} (h : meets1 .regroup (s.cell n) = true) :
    execRegroupMeetingComplete n s = .next (s.setCell n (regroupedCell n s)) := by
  simp only [execRegroupMeetingComplete, h, Bool.not_true, Bool.false_eq_true, if_false, State.modCell]
  rfl

/-- After the meeting every placed lane of the cell stands where the packing put it. -/
theorem placeOf_regroupedCell {n : Nat} {s : State} {cl : Nat} (h : cl < (s.cell n).shape) :
    (regroupedCell n s).placeOf cl = packedPlace (regroupPlaces (s.cell n)) cl := by
  simp only [regroupedCell, Cell.placeOf, Map.getD, find_foldl_ins, List.mem_range, h, if_true, Option.getD_some]

theorem execRegroupRestoreComplete_met {n : Nat} {s : State} (h : meets1 .restore (s.cell n) = true) :
    execRegroupRestoreComplete n s = .next (s.modCell n fun c => { c with
      groups := meetGroups (s.whoOf n) (((meeters c).mergeSort meetBefore).map fun x => (x, x.cl / 32, x.cl % 32)) (fun x => x.grp) false c.groups s
      remap := []
      regrouped := false }) := by
  simp only [execRegroupRestoreComplete, h, Bool.not_true, Bool.false_eq_true, if_false, State.modCell]

end Sys2Proof.Machine

open Sys2Proof.Machine Sys2Proof.Machine.State

/-- Settles O43: a meeting that is complete takes place, and the remap table holds the packing's places. -/
theorem meetingsComplete : Obligations.MeetingsComplete := by
  unfold Obligations.MeetingsComplete
  intro n s
  refine ⟨fun hmeet => ⟨_, execRegroupMeetingComplete_met hmeet, ?_⟩, fun hmeet => execRegroupRestoreComplete_met hmeet⟩
  simp only [cell_setCell_same]
  refine ⟨rfl, rfl, fun x hx hcl => ?_, trivial, rfl⟩
  rw [placeOf_regroupedCell hcl]
  exact packedPlace_of_mem hx
end

section
/-! SUPPORT. Fetch and decode of the instruction at a run's PC (R31, R35, R74), outcome by outcome. -/
namespace Sys2Proof.Machine
open Sys2Proof State

theorem ck_modRun (s : State) (f : Run → Run) : (s.modRun f).ck = s.ck := by
  simp only [ck, cc, modRun, modCg, modGroup, setGroup, modCell_cur, cell_modCell_same]
theorem ctx_modRun (s : State) (f : Run → Run) : (s.modRun f).cc.ctx = s.cc.ctx := by
  simp only [cc, modRun, modCg, modGroup, setGroup, modCell_cur, cell_modCell_same]

section
variable {s s1 : State} {ln : Nat} (hknown : s.crun.unknown ≠ some s.crun.pc)
include hknown

theorem decodeStage_fetch_error {x : Raise} (h : s.fetchSlot (s.whoOf s.cur.cell) s.crun.pc = .error x) : s.decodeStage = .error x := by
  simp only [decodeStage, hknown, if_false, h, bind, Except.bind]

variable (hfetch : s.fetchSlot (s.whoOf s.cur.cell) s.crun.pc = .ok (s1, ln))
include hfetch

theorem decodeStage_illegalOp (h : s1.featOk (bits (slotWord ln (pcSlot s.crun.pc)) 95 88) = false
      ∨ decode (slotWord ln (pcSlot s.crun.pc)) = .error .illegalOp) : s.decodeStage = .error { code := fIllegalOp } := by
  cases hfeat : s1.featOk (bits (slotWord ln (pcSlot s.crun.pc)) 95 88) with
  | false =>
    simp only [decodeStage, hknown, if_false, hfetch, bind, Except.bind, hfeat]
    rfl
  | true =>
    have hdec : decode (slotWord ln (pcSlot s.crun.pc)) = .error .illegalOp := by simpa [hfeat] using h
    simp only [decodeStage, hknown, if_false, hfetch, bind, Except.bind, hfeat, require, if_true, hdec]
    rfl

theorem decodeStage_illegalField (hfeat : s1.featOk (bits (slotWord ln (pcSlot s.crun.pc)) 95 88) = true)
    (hdec : decode (slotWord ln (pcSlot s.crun.pc)) = .error .illegalField) : s.decodeStage = .error { code := fIllegalField } := by
  simp only [decodeStage, hknown, if_false, hfetch, bind, Except.bind, hfeat, require, if_true, hdec]
  rfl

theorem decodeStage_ok {i : Instr} (hfeat : s1.featOk (bits (slotWord ln (pcSlot s.crun.pc)) 95 88) = true)
    (hdec : decode (slotWord ln (pcSlot s.crun.pc)) = .ok i) (hscope : s1.scopeFeatOk i = true)
    (hend : needsEnd i = true → lineRunEnd ln (pcSlot s.crun.pc) = true) (hpair : pairOk ln (pcSlot s.crun.pc) i = true) :
    let t := s1.modRun fun u => { u with last := lineRunEnd ln (pcSlot s.crun.pc), held := false, counted := true }
    s.decodeStage = .ok (if s1.crun.counted then t else t.perf t.ck t.cc.ctx 3, i) := by
  have hmarks : (s1.scopeFeatOk i && (!needsEnd i || lineRunEnd ln (pcSlot s.crun.pc)) && pairOk ln (pcSlot s.crun.pc) i) = true := by
    rw [hscope, hpair, Bool.true_and, Bool.and_true, Bool.or_eq_true, Bool.not_eq_true', ← Bool.not_eq_true]
    exact (em (needsEnd i = true)).symm.imp id hend
  simp only [decodeStage, hknown, if_false, hfetch, bind, Except.bind, hfeat, require, if_true, hdec, hmarks, ck_modRun, ctx_modRun]
  rfl

end

/-- A step that issues a slot with a run in flight: the fault of its fetch or decode is raised. -/
theorem step_issue_of_error {s : State} {k slot : Nat} {rest : List Move} {r : GRef} {x : Raise} (h : s.agenda = .issue k slot :: rest)
    (hr : ({ s with agenda := rest } : State).issuing k slot = some r)
    (hx : ({ s with agenda := rest, cur := r } : State).decodeStage = .error x) :
    step s = .next (({ s with agenda := rest, cur := r } : State).raise x) := by
  simp only [step, h, perform, hr, hx]

/-- The same, where the slot decodes: its instruction runs. -/
theorem step_issue_of_ok {s s' : State} {k slot : Nat} {rest : List Move} {r : GRef} {i : Instr} (h : s.agenda = .issue k slot :: rest)
    (hr : ({ s with agenda := rest } : State).issuing k slot = some r)
    (hi : ({ s with agenda := rest, cur := r } : State).decodeStage = .ok (s', i)) : step s = exec i s' := by
  simp only [step, h, perform, hr, hi]

end Sys2Proof.Machine

open Sys2Proof.Machine Sys2Proof.Machine.State

/-- Settles O55, by the outcomes of fetch and decode. -/
theorem stepRunsTheDecodedInstruction : Obligations.StepRunsTheDecodedInstruction := by
  unfold Obligations.StepRunsTheDecodedInstruction
  refine ⟨fun s k slot rest r hag hr => ?_, fun s k slot rest hag hr => ?_, fun s e rest hag hraw => ?_⟩
  · intro s0 hknown
    refine ⟨fun s1 ln hfetch => ⟨fun i hdec hacc hscope hend hpair => ?_, fun hbad => ?_, fun hacc hdec => ?_⟩, fun x hfetch => ?_⟩
    · exact step_issue_of_ok hag hr (decodeStage_ok hknown hfetch hacc hdec hscope hend hpair)
    · exact step_issue_of_error hag hr (decodeStage_illegalOp hknown hfetch hbad)
    · exact step_issue_of_error hag hr (decodeStage_illegalField hknown hfetch hacc hdec)
    · exact step_issue_of_error hag hr (decodeStage_fetch_error hknown hfetch)
  · simp only [step, hag, perform, hr]
  · simp only [step, hag, perform, hraw, Option.isNone_none, if_true]
end

section
/-! SUPPORT. A write at the home leaves the launch controller's journal and its takeover bits alone (R388, R389): one lemma per operation
that such a write may come to. -/
namespace Sys2Proof.Machine.State
open Sys2Proof Sys2Proof.Machine

/-- The journal of the launch controller and the takeover bits stand as in `s0`. -/
def CtlKept (s0 s : State) : Prop := s.ctlLog = s0.ctlLog ∧ s.module.takeover = s0.module.takeover

section
variable {s0 s : State} (h : CtlKept s0 s)
include h

theorem CtlKept.addJournal (d : Nat) (f : Gesso → Gesso) : CtlKept s0 (s.addJournal d f) := by
  unfold State.addJournal
  dsimp only
  split <;> exact h
theorem CtlKept.recordUndo (c ln : Nat) : CtlKept s0 (s.recordUndo c ln) := by
  unfold State.recordUndo
  split
  · exact h
  · exact h.addJournal _ _
theorem CtlKept.memWriteLine (ln : Nat) (l : Line) : CtlKept s0 (s.memWriteLine ln l) := by
  have hundo : CtlKept s0 (if l.rcv then s.recordUndo l.ctx ln else s) := by
    split
    · exact h.recordUndo _ _
    · exact h
  have hbytes : CtlKept s0 ((List.range 128).foldl (fun s i => if l.dirty.getLsbD i then s.setMemByte (128 * ln + i) (lineByte l i) else s)
      (if l.rcv then s.recordUndo l.ctx ln else s)) := by
    refine foldl_keeps (fun t i ht => ?_) _ hundo
    split
    · exact ht
    · exact ht
  unfold State.memWriteLine
  dsimp only
  split
  · exact h
  · split <;> exact hbytes
theorem CtlKept.mergeHome (ln : Nat) (l : Line) : CtlKept s0 (s.mergeHome ln l) := by
  unfold State.mergeHome
  split
  · exact h
  · exact h.memWriteLine _ _
theorem CtlKept.homeMerge (ln : Nat) (l : Line) (k : Option Nat) : CtlKept s0 (s.homeMerge ln l k) :=
  CtlKept.mergeHome (s := s.fireHome ln k) h ln l
theorem CtlKept.wbL2 (ln : Nat) : CtlKept s0 (s.wbL2 ln) := by
  unfold State.wbL2
  split
  · split
    · exact h
    · exact h.memWriteLine _ _
  · exact h
theorem CtlKept.roomL2 (j ln : Nat) : CtlKept s0 (s.roomL2 j ln) := by
  unfold State.roomL2
  dsimp only
  split
  · exact h
  · split
    · exact h
    · split
      · split
        · exact h
        · exact CtlKept.wbL2 (s := s.tick) h _
      · exact h
theorem CtlKept.addL2 (ln : Nat) (l : Line) : CtlKept s0 (s.addL2 ln l) :=
  CtlKept.roomL2 (s := { s with replicas := Map.del (64 * ln + s.homeSlice (128 * ln)) s.replicas }) h _ _
theorem CtlKept.bypass (t : Tag) (ln : Nat) : CtlKept s0 (s.bypass t ln) := by
  unfold State.bypass
  split <;> exact h
theorem CtlKept.fillL2 (t : Tag) (ln : Nat) : CtlKept s0 (s.fillL2 t ln) := by
  unfold State.fillL2
  split
  · exact h
  · split
    · exact h.bypass _ _
    · exact h.addL2 _ _
theorem CtlKept.undoFirst (t : Tag) (ln : Nat) : CtlKept s0 (s.undoFirst t ln) := by
  unfold State.undoFirst
  split
  · exact h.recordUndo _ _
  · exact h
theorem CtlKept.homeWrite (t : Tag) (pa : Nat) (bs : List (BitVec 8)) (k : Option Nat) : CtlKept s0 (s.homeWrite t pa bs k) :=
  ((h.fillL2 t (pa / 128)).undoFirst t (pa / 128)).homeMerge _ _ k
theorem CtlKept.meetTarget (ln : Nat) (io : Bool) : CtlKept s0 (s.meetTarget ln io) := by
  unfold State.meetTarget
  split
  · exact h
  · exact h.wbL2 _
theorem CtlKept.sendTarget (ln : Nat) (io : Bool) : CtlKept s0 (s.sendTarget ln io) := by
  unfold State.sendTarget
  split
  · exact h
  · exact h.wbL2 _
theorem CtlKept.failTask (t : BitVec 64) (code : BitVec 8) (d : Nat) (n : Bool) : CtlKept s0 (s.failTask t code d n) := by
  unfold State.failTask
  split
  · exact h
  · dsimp only
    split
    · exact h
    · split <;> exact h
theorem CtlKept.lateFault (r : GRef) (f : LateFault) : CtlKept s0 (s.lateFault r f) := by
  unfold State.lateFault
  dsimp only
  split
  · exact h
  · split
    · exact h.failTask _ _ _ _
    · exact h
theorem CtlKept.redFault (a : RedApp) : CtlKept s0 (s.redFault a) := by
  unfold State.redFault
  split
  · exact h
  · exact h.lateFault _ _
theorem CtlKept.applyRed (k op : Nat) (a : RedApp) : CtlKept s0 (s.applyRed k op a) := by
  unfold State.applyRed
  split
  · exact h
  · dsimp only
    split
    · exact (h.meetTarget _ _).redFault _
    · exact ((h.meetTarget _ _).homeWrite _ _ _ _).sendTarget _ _
theorem CtlKept.mergeReds (k : Nat) (p : RedBuf → Bool) : CtlKept s0 (s.mergeReds k p) := by
  unfold State.mergeReds
  exact foldl_keeps (fun t x ht => ht.applyRed _ _ _) _ h
theorem CtlKept.mergeLine (ln : Nat) : CtlKept s0 (s.mergeLine ln) := by
  unfold State.mergeLine
  exact foldl_keeps (fun t b ht => ht.mergeReds _ _) _ h
theorem CtlKept.homePut (t : Tag) (pa : Nat) (bs : List (BitVec 8)) : CtlKept s0 (homePut t pa bs s) := by
  unfold Machine.homePut
  exact foldl_keeps (fun u ln hu => ((hu.mergeLine ln).homeWrite t _ _ none).sendTarget ln false) _ h

/-- What a journalled change says of a task or of a queue's head leaves the journal itself alone. -/
theorem CtlKept.resumeFrom (r : CtlRec) : CtlKept s0 (resumeFrom s r) := by
  unfold Machine.resumeFrom
  split
  · exact h
  · split
    · exact h.homePut _ _ _
    · exact h
  · exact h

end
end Sys2Proof.Machine.State
end

section
/-! SUPPORT. The standby core that takes over from a launch-controller pair (R389). -/
namespace Sys2Proof.Machine
open Sys2Proof State

/-- The copy of a pair's journal that stands: the one with the later change. -/
def pairLog (pair : Nat) (s : State) : List CtlRec :=
  let a := Map.getD s.ctlLog (2 * pair) []
  let b := Map.getD s.ctlLog (2 * pair + 1) []
  if lastChange a < lastChange b then b else a
/-- Both copies take that journal. -/
def copyLog (pair : Nat) (s : State) : State :=
  { s with ctlLog := Map.ins (2 * pair + 1) (pairLog pair s) (Map.ins (2 * pair) (pairLog pair s) s.ctlLog) }
/-- The pair's takeover bit changes. -/
def toggleTakeover (pair : Nat) (s : State) : State :=
  s.modModule fun m => { m with takeover := Map.ins pair (!Map.getD m.takeover pair false) m.takeover }
/-- The kick bits of the pair's contexts are scanned again. -/
def rescanKicks (pair : Nat) (s : State) : State :=
  ((s.ctxs.map Prod.fst).filter fun c => c % 2 == pair).foldl (fun s c => (List.range 64).foldl (fun s q =>
    let d := qdesc c q s
    if !d.ok || d.en then s.kick (64 * c + q) else s) s) s

theorem execControllerTakeover_pair {pair : Nat} (h : pair < 2) (s : State) : execControllerTakeover pair s =
    .next (rescanKicks pair (toggleTakeover pair ((pairLog pair s).foldl resumeFrom (copyLog pair s)))) := by
  rw [execControllerTakeover, if_neg (Nat.not_le.mpr h)]
  rfl

/-- Scanning kicks changes nothing but pending-kick bits. -/
theorem rescanKicks_eq (pair : Nat) (s : State) :
    rescanKicks pair s = { s with module := { s.module with kick := (rescanKicks pair s).module.kick } } := by
  unfold rescanKicks
  refine foldl_keeps (P := fun t : State => t = { s with module := { s.module with kick := t.module.kick } })
    (fun t c ht => foldl_keeps (P := fun t : State => t = { s with module := { s.module with kick := t.module.kick } })
      (fun u q hu => ?_) _ ht) _ rfl
  dsimp only
  split
  · rw [hu]
    rfl
  · exact hu

theorem find?_map_modTask (l : List Task) (t : BitVec 64) (f : Task → Task) (hf : ∀ x, (f x).ticket = x.ticket) :
    (l.map fun x => if x.ticket == t then f x else x).find? (fun x => x.ticket == t) = (l.find? fun x => x.ticket == t).map f := by
  induction l with
  | nil => rfl
  | cons x r ih =>
    by_cases hx : (x.ticket == t) = true
    · simp only [List.map_cons, List.find?_cons, hx, if_true, hf, Option.map_some]
    · simp only [List.map_cons, List.find?_cons, hx, ih, if_false, Bool.false_eq_true]

/-- A task changed without its ticket is found changed. -/
theorem task_modTask_same (s : State) (t : BitVec 64) (f : Task → Task) (hf : ∀ x, (f x).ticket = x.ticket) :
    (s.modTask t f).task t = (s.task t).map f := find?_map_modTask s.tasks t f hf

/-- The change of a task's state that a journal holds. -/
theorem resumeFrom_state (s : State) {r : CtlRec} (h : r.kind = 0) :
    resumeFrom s r = s.modTask (BitVec.ofNat 64 r.subject) fun x => { x with state := r.value } := by
  simp only [resumeFrom, h]

/-- Both copies of the journal hold the one that stands. -/
theorem getD_copyLog (pair : Nat) (s : State) : Map.getD (copyLog pair s).ctlLog (2 * pair) [] = pairLog pair s
    ∧ Map.getD (copyLog pair s).ctlLog (2 * pair + 1) [] = pairLog pair s := by
  unfold copyLog
  refine ⟨(Map.getD_ins_ne (Nat.ne_of_lt (Nat.lt_succ_self _)) _ _ _).trans (Map.getD_ins_same _ _ _ _), Map.getD_ins_same _ _ _ _⟩

/-- The pair's journal after the takeover, and its bit. -/
theorem takeover_kept (pair : Nat) (s : State) :
    CtlKept (copyLog pair s) ((pairLog pair s).foldl resumeFrom (copyLog pair s)) :=
  foldl_keeps (fun _ r ht => ht.resumeFrom r) _ ⟨rfl, rfl⟩

theorem controllerTakeover_spec {pair : Nat} (h : pair < 2) (s : State) : ∃ t, execControllerTakeover pair s = .next t
    ∧ Map.getD t.module.takeover pair false = !Map.getD s.module.takeover pair false
    ∧ Map.getD t.ctlLog (2 * pair) [] = pairLog pair s ∧ Map.getD t.ctlLog (2 * pair + 1) [] = pairLog pair s
    ∧ (pairLog pair s = [] → t.tasks = s.tasks ∧ t.cells = s.cells ∧ t.mem = s.mem)
    ∧ ∀ r x, pairLog pair s = [r] → r.kind = 0 → s.task (BitVec.ofNat 64 r.subject) = some x →
        ∃ y, t.task (BitVec.ofNat 64 r.subject) = some y ∧ y.state = r.value := by
  obtain ⟨hlog, htake⟩ := takeover_kept pair s
  obtain ⟨hleft, hright⟩ := getD_copyLog pair s
  refine ⟨_, execControllerTakeover_pair h s, ?_⟩
  rw [rescanKicks_eq]
  refine ⟨?_, (congrArg (Map.getD · _ _) hlog).trans hleft, (congrArg (Map.getD · _ _) hlog).trans hright, fun hnil => ?_,
    fun r x hone hkind hx => ?_⟩
  · simp only [toggleTakeover, module_modModule, Map.getD_ins_same, htake]
    rfl
  · rw [hnil]
    exact ⟨rfl, rfl, rfl⟩
  · have htask := task_modTask_same (copyLog pair s) (BitVec.ofNat 64 r.subject) (fun x => { x with state := r.value }) fun _ => rfl
    rw [show (copyLog pair s).task (BitVec.ofNat 64 r.subject) = some x from hx] at htask
    rw [hone, List.foldl_cons, List.foldl_nil, resumeFrom_state _ hkind]
    exact ⟨_, htask, rfl⟩

end Sys2Proof.Machine
end

section
/-! SUPPORT. The other events of the launch controller, each with its condition met (R375-R377, R380, R383). -/
namespace Sys2Proof.Machine
open Sys2Proof State

theorem execKickWrite_spec {c q : Nat} (hc : c < 64) (hq : q < 64) (s : State) :
    ∃ t, execKickWrite c q s = .next t ∧ Map.getD t.module.kick (64 * c + q) false = true := by
  refine ⟨_, rfl, ?_⟩
  rw [if_pos ⟨hc, hq⟩]
  exact Map.getD_ins_same _ _ _ _

theorem execServeKick_due {c q : Nat} {s : State} (hboot : s.module.bootFailed = false) (hq : q < 64)
    (hkick : Map.getD s.module.kick (64 * c + q) false = true) (hctx : hasCtx c s = true) (hre : (s.ctx c).rejoin = false) :
    execServeKick c q s = .next (serveQueue c q
      (((settleHeld s).modModule fun m => { m with kick := Map.del (64 * c + q) m.kick }).acquireSys none)) := by
  simp only [execServeKick, hboot, Nat.not_le.mpr hq, hkick, hctx, hre, Bool.not_true, Bool.false_eq_true, or_self, if_false]

theorem execReadyRanges_ready {t : BitVec 64} {s s2 : State} {x : Task} (hx : s.task t = some x) (hfail : x.failing = false)
    (hreplay : x.replay = none) (hturn : (x.state = 3 ∧ depsDone x s = true ∧ earlierAdmitted x s = true) ∨ x.state = 4)
    (hmapped : firstUnmapped x.ctx x.lrec.ranges (if x.state = 3 then setTaskState t 4 s else s) = none)
    (hready : readyAll x.ctx x.lrec.ranges (if x.state = 3 then setTaskState t 4 s else s) false = .ready s2) :
    execReadyRanges t s = .next (setTaskState t 5 s2) := by
  simp only [execReadyRanges, hx, hfail, hreplay, hturn, hmapped, hready, Option.isSome_none, Bool.false_eq_true, decide_true,
    Bool.not_true, or_self, if_false]

theorem execCellAdmission_admits {p : Placement} {s s2 : State} {x : Task} (hx : nextTask s = some x) (ht : x.ticket = p.ticket)
    (hboot : s.module.bootFailed = false) (hsaved : savedCells x.ticket s = []) (hplace : placementOk p s = true)
    (hadmit : admitLaunch x p s = .ok s2) : execCellAdmission p s = .next s2 := by
  rw [ht] at hsaved
  simp only [execCellAdmission, hx, ht, hboot, hsaved, hplace, hadmit, List.isEmpty_nil, Bool.not_true, Bool.false_eq_true,
    ne_eq, not_true, or_self, if_false]

end Sys2Proof.Machine
end

section
/-! SUPPORT. The events of cells, each with its condition met (R50, R51, R53, R364, R365, R385, R386). -/
namespace Sys2Proof.Machine
open Sys2Proof State

theorem execPreemptCell_due {n : Nat} {s : State} (hplace : (s.cell n).place = .resident) (hstop : (gangOf n s).all (fun m => canStop m s) = true)
    (hdue : (∃ x ∈ s.tasks, x.state = 5 ∧ wantsAdmission x s = true ∧ headStuck x s = true ∧ victim x.lrec.prio s = some n)
      ∨ s.inService (.studio (s.cell n).studio) = false) :
    execPreemptCell n s = .next ((gangOf n s).foldl (fun s m => saveCell m s) s) := by
  have hcond : ((s.tasks.any fun x => x.state == 5 && wantsAdmission x s && headStuck x s && victim x.lrec.prio s == some n)
      || !s.inService (.studio (s.cell n).studio)) = true := by
    rcases hdue with ⟨x, hx, hstate, hwants, hstuck, hvictim⟩ | hout
    · rw [Bool.or_eq_true, List.any_eq_true]
      exact .inl ⟨x, hx, by simp [hstate, hwants, hstuck, hvictim]⟩
    · rw [hout, Bool.not_false, Bool.or_true]
  simp only [execPreemptCell, hcond, hplace, hstop, and_self, if_true]

theorem execRestoreCell_restores {n k : Nat} {s s2 : State} {x : Task} (hx : nextTask s = some x) (hhead : (restoreUnit x s).head? = some n)
    (hfit : (x.lrec.cores && !couldFit x s) = false) (hk : restoreStudio n s = some k) (hall : restoreAll (restoreUnit x s) s = some s2) :
    execRestoreCell n k s = .next (movePointer x s2) := by
  simp only [execRestoreCell, hx, hhead, hfit, hk, hall, ne_eq, not_true, Bool.false_eq_true, if_false]

/-- A clone that a studio can take, with its save area and its palette charge. -/
theorem placeClone_comes {n k : Nat} {s t t' : State} (htake : canTake k (s.cell n).ctx (s.cell n).pal (s.cell n).load [] s = true)
    (harea : giveArea n s = .ok t) (hcome : comeTo n k (placeCell n k) t = some t') : placeClone n k s = t' := by
  simp only [placeClone, htake, harea, hcome, Bool.not_true, Bool.false_eq_true, if_false, Option.getD_some]

theorem execRivalAdmission_fork {n m : Nat} {s : State} {f : Fork} (hfork : (s.cell n).fork = some f) (hstop : canStop n s = true)
    (hclone : cloneIn (f.views.headD 0) (takeFork n f s) = some m) :
    execRivalAdmission n (s.cell n).studio s = .next (placeClone m (s.cell n).studio (takeFork n f s)) := by
  simp only [execRivalAdmission, hfork, hstop, hclone, ne_eq, not_true, Bool.not_true, Bool.false_eq_true, or_self, if_false]

theorem execRivalAdmission_clone {n k : Nat} {s : State} (hfork : (s.cell n).fork = none) (hrival : (s.cell n).rival = true)
    (hplace : (s.cell n).place = .unplaced) (hturn : cloneTurn n s = true) (hwait : gangWaits (s.cell n) s = false) :
    execRivalAdmission n k s = .next (placeClone n k s) := by
  simp only [execRivalAdmission, hfork, hrival, hplace, hturn, hwait, Bool.not_false, and_self, if_true]

theorem execWorldParentRestore_restores {n k : Nat} {s t : State} {w : World} (hw : (s.cell n).wrec = some w)
    (hplace : (s.cell n).place = .forked) (hopen : w.unresolved = true) (hended : ∀ v ∈ w.views, (s.view v).state = 2)
    (hk : restoreStudio n s = some k) (hone : restoreOne n k (answerFork n w.leader w.dst 0) s = some t) :
    execWorldParentRestore n k s = .next t := by
  have hall : w.views.all (fun v => (s.view v).state == 2) = true := List.all_eq_true.mpr fun v hv => by simp [hended v hv]
  simp only [execWorldParentRestore, hw, hplace, hopen, hall, hk, hone, and_self, if_true, Option.getD_some]

section
variable {n : Nat} {s : State} {c : Cell} (hc : Map.find n s.cells = some c)
include hc

/-- A cell that is listed is what the accessor reads. -/
theorem cell_of_find : s.cell n = c := by simp only [State.cell, Map.getD, hc, Option.getD_some]

/-- A cell of a failing task ends where it stands, before anything else is asked. -/
theorem execCellRetirement_failing {x : Task} (hx : s.task c.ticket = some x) (hfail : x.failing = true) :
    execCellRetirement n s = .next (dropCell n s) := by
  simp only [execCellRetirement, cell_of_find hc, hc, hx, hfail, Option.isNone_some, Bool.false_eq_true, if_false, if_true]

/-- The task of a cell that has not stopped, if there is one, is not failing. -/
theorem task_of_not_stopped (h : s.stopped n = false) : s.task c.ticket = none ∨ ∃ x, s.task c.ticket = some x ∧ x.failing = false := by
  simp only [State.stopped, cell_of_find hc] at h
  cases hx : s.task c.ticket with
  | none => exact .inl rfl
  | some x =>
    simp only [hx, Bool.or_eq_false_iff] at h
    exact .inr ⟨x, rfl, h.1.1⟩

variable (hrun : s.stopped n = false)
include hrun

theorem execCellRetirement_rival (hover : rivalOver n s = true) : execCellRetirement n s = .next (endRival n s) := by
  rcases task_of_not_stopped hc hrun with hx | ⟨x, hx, hfail⟩
  · simp only [execCellRetirement, cell_of_find hc, hc, hx, hrun, hover, Option.isNone_some, Bool.false_eq_true, if_false, if_true]
  · simp only [execCellRetirement, cell_of_find hc, hc, hx, hfail, hrun, hover, Option.isNone_some, Bool.false_eq_true, if_false, if_true]

theorem execCellRetirement_idle (hplain : c.rival = false) (hsig : c.sigDone = none) (hplace : c.place = .resident)
    (hidle : cellIdle n s = true) (htiles : c.tiles.any (fun t => uncorr t.2) = false) :
    execCellRetirement n s = .next (retireCell n s) := by
  have hover : rivalOver n s = false := by simp only [rivalOver, cell_of_find hc, hplain, Bool.false_and]
  rcases task_of_not_stopped hc hrun with hx | ⟨x, hx, hfail⟩
  · simp only [execCellRetirement, cell_of_find hc, hc, hx, hrun, hover, hplain, hsig, hplace, hidle, htiles, Option.isNone_some,
      Option.isSome_none, Bool.false_eq_true, and_self, if_false, if_true]
  · simp only [execCellRetirement, cell_of_find hc, hc, hx, hfail, hrun, hover, hplain, hsig, hplace, hidle, htiles, Option.isNone_some,
      Option.isSome_none, Bool.false_eq_true, and_self, if_false, if_true]

end
end Sys2Proof.Machine

open Sys2Proof.Machine Sys2Proof.Machine.State

/-- Settles O48, event by event: each condition decides the branch its event takes, and a takeover's writes leave the journal alone. -/
theorem launchAndCellEventsComplete : Obligations.LaunchAndCellEventsComplete := by
  unfold Obligations.LaunchAndCellEventsComplete
  refine ⟨⟨?_, ?_, ?_, ?_, ?_⟩, ?_, ?_, ?_, ?_, ?_, ?_⟩
  · exact fun c q s hc hq => execKickWrite_spec hc hq s
  · exact fun c q s hboot hq hkick hctx hre => execServeKick_due hboot hq hkick hctx hre
  · exact fun t s s2 x hx hfail hreplay hturn hmapped hready => execReadyRanges_ready hx hfail hreplay hturn hmapped hready
  · exact fun p s s2 x hx ht hboot hsaved hplace hadmit => execCellAdmission_admits hx ht hboot hsaved hplace hadmit
  · exact fun pair s hpair => controllerTakeover_spec hpair s
  · exact fun n s hplace hstop hdue => execPreemptCell_due hplace hstop hdue
  · exact fun n k s s2 x hx hhead hfit hk hall => execRestoreCell_restores hx hhead hfit hk hall
  · exact fun n s f m hfork hstop hclone htake t2 t3 harea hcome =>
      (execRivalAdmission_fork hfork hstop hclone).trans (congrArg Host.Outcome.next (placeClone_comes htake harea hcome))
  · exact fun n k s hfork hrival hplace hturn hwait htake t2 t3 harea hcome =>
      (execRivalAdmission_clone hfork hrival hplace hturn hwait).trans (congrArg Host.Outcome.next (placeClone_comes htake harea hcome))
  · exact fun n k s w hw hplace hopen hended hk t hone => execWorldParentRestore_restores hw hplace hopen hended hk hone
  · exact fun n s c hc htiles hsig => ⟨fun hrun _ hover => execCellRetirement_rival hc hrun hover,
      fun hrun hplain hplace hidle => execCellRetirement_idle hc hrun hplain hsig hplace hidle htiles,
      fun x hx hfail => execCellRetirement_failing hc hx hfail⟩
end

section
/-! SUPPORT. The events of Easel commands and of fills, where their conditions are met (R255-R260, R266-R272). -/
namespace Sys2Proof.Machine
open Sys2Proof State

section
variable {n i : Nat} {s : State} {c : Cmd}
variable (hplace : (s.cell n).place = .resident) (hclk : s.clockStopped = false) (hc : (s.cell n).cmds[i]? = some c)
include hplace hclk hc

/-- The oldest ready command of the cell whose turn it is starts on an idle Easel. -/
theorem execEaselCommandStart_ready (hidle : (residents (s.cell n).studio s).any (fun c => c.2.cmds.any (·.started)) = false)
    (hturn : easelTurn (s.cell n).studio s = some n) (hold : oldestReady (s.cell n) s = some i) :
    execEaselCommandStart n i s = .next (settleZaps (s.cell n).studio
      ((startCmd n i c (settleWatch n c.tile s)).modStudio (s.cell n).studio fun st => { st with easelNext := n + 1 })) := by
  simp only [execEaselCommandStart, hplace, hclk, hidle, hturn, hold, hc, ne_eq, not_true, Bool.false_eq_true, or_self, if_false]

theorem execEaselSlab_started (hst : c.started = true) (hleft : c.done < cmdSlabs c) :
    execEaselSlab n i s = .next ((modCmd n i (fun c => { c with done := c.done + 1 }) (s.modCell n fun y =>
      y.setTile c.tile (slabStep (s.studio (s.cell n).studio) (s.cell n).scratch c.desc c.segs c.done ((s.cell n).tile c.tile)))).perf
        (s.cell n).studio (s.cell n).ctx 8) := by
  simp only [execEaselSlab, hc, hplace, hclk, hst, Nat.not_le.mpr hleft, ne_eq, not_true, Bool.not_true, Bool.false_eq_true, or_self,
    if_false]

theorem execEaselCommandComplete_done (hst : c.started = true) (hall : cmdSlabs c ≤ c.done) :
    execEaselCommandComplete n i s = .next (settleZaps (s.cell n).studio
      (settleEngine n ((finishCmd n c s).modCell n fun y => { y with cmds := y.cmds.eraseIdx i }))) := by
  simp only [execEaselCommandComplete, hc, hplace, hclk, hst, Nat.not_lt.mpr hall, ne_eq, not_true, Bool.not_true, Bool.false_eq_true,
    or_self, if_false]
end

section
variable {n f : Nat} {s : State}
variable (hplace : (s.cell n).place = .resident) (hclk : s.clockStopped = false) (hbusy : (Map.getD (s.cell n).fills f default).busy = true)
include hplace hclk hbusy

theorem execFillSlab_ok {t : State} (hfault : (Map.getD (s.cell n).fills f default).fault = none)
    (hleft : (Map.getD (s.cell n).fills f default).done < (fillOf (Map.getD (s.cell n).fills f default).record).ks)
    (hclear : writeClear (s.cell n).studio (Map.getD (s.cell n).fills f default).id (fillSpan (Map.getD (s.cell n).fills f default)) s = true)
    (hstep : fillStep (s.whoOf n) f (Map.getD (s.cell n).fills f default) s = .ok t) : execFillSlab n f s = .next t := by
  simp only [execFillSlab, hplace, hclk, hbusy, hfault, Nat.not_le.mpr hleft, hclear, hstep, ne_eq, not_true, Bool.not_true,
    Option.isSome_none, Bool.false_eq_true, or_self, if_false]

/-- A fill that stopped or has all its slabs frees its slot. -/
theorem execFillComplete_over (hover : (Map.getD (s.cell n).fills f default).fault ≠ none ∨
      (fillOf (Map.getD (s.cell n).fills f default).record).ks ≤ (Map.getD (s.cell n).fills f default).done) :
    execFillComplete n f s = .next (settleZaps (s.cell n).studio
      (settleEngine n (s.modCell n fun c => { c with fills := Map.upd f (fun x => { x with busy := false }) c.fills }))) := by
  rw [← Option.isSome_iff_ne_none] at hover
  simp only [execFillComplete, modFill, hplace, hclk, hbusy, hover, Bool.not_false, and_self, if_true]
end

theorem execSoftError_tileBit {n m w b : Nat} (s : State) (hm : m < (s.cell n).tileCount) (hw : w < 608) (hb : b < 32) :
    execSoftError (.tileBit n m w b) s = .next (s.modCell n fun y =>
      y.setTile m { tileOf (flipBit (tileBytes ((s.cell n).tile m)) (32 * w + b)) with badTab := ((s.cell n).tile m).badTab }) := by
  simp only [execSoftError, hm, hw, hb, and_self, if_true]

end Sys2Proof.Machine
end

section
/-! SUPPORT. The events of the Brush, where their conditions are met (R404-R408, R412-R415). -/
namespace Sys2Proof.Machine
open Sys2Proof State

section
variable {n i : Nat} {s : State} {b : Brush}
variable (hplace : (s.cell n).place = .resident) (hclk : s.clockStopped = false) (hb : (s.cell n).brush[i]? = some b)
include hplace hclk hb

/-- A burst whose units all move lands when its report is made, and waits as a whole while its report waits. -/
theorem execBrushBurst_moves {s1 : State} {k : Nat} (hmaj : b.major = 0xC8 ∨ b.major = 0xC9) (hleft : b.done < burstsOf (layoutOf b.layout))
    (hroom : b.major = 0xC8 →
      landRoom (s.cell n).studio (unitBytes (layoutOf b.layout) * (burstUnits (layoutOf b.layout) b.done).length) s = true)
    (hmove : moveUnits (s.whoOf n) b
      (if b.major = 0xC9 && Config.freeBool s.fresh then (burstUnits (layoutOf b.layout) b.done).reverse else burstUnits (layoutOf b.layout) b.done)
      (startBrush n i (signBurst n b (burstUnits (layoutOf b.layout) b.done) s)).tick 0 = (s1, k, none)) :
    execBrushBurst n i s = .next ((reportBytes n b k (s1.perf (s.cell n).studio (s.cell n).ctx 0x0A k)).elim s fun t =>
      flushSigs n (modBrush n i (fun b => { b with done := b.done + 1 }) t)) := by
  have hcopy : ¬ (b.major ≠ 0xC8 ∧ b.major ≠ 0xC9) := fun h => hmaj.elim h.1 h.2
  have hland : ¬ (b.major = 0xC8 ∧
      (!landRoom (s.cell n).studio (unitBytes (layoutOf b.layout) * (burstUnits (layoutOf b.layout) b.done).length) s) = true) := by
    rintro ⟨h8, hno⟩
    rw [hroom h8] at hno
    cases hno
  simp only [execBrushBurst, hb, hplace, hclk, hcopy, hland, Nat.not_le.mpr hleft, hmove, ne_eq, not_true, Bool.false_eq_true, or_self,
    if_false]
  cases reportBytes n b k (s1.perf (s.cell n).studio (s.cell n).ctx 0x0A k) with
  | none => rfl
  | some t => rfl

theorem execBrushCommandComplete_done (hdone : brushDone b = true) : execBrushCommandComplete n i s = .next
    (if b.report = 0 then barArrival n b.bar (flushSigs n (s.modCell n fun c => { c with brush := c.brush.eraseIdx i }))
      else flushSigs n (s.modCell n fun c => { c with brush := c.brush.eraseIdx i })) := by
  simp only [execBrushCommandComplete, hb, hplace, hclk, hdone, ne_eq, not_true, Bool.not_true, Bool.false_eq_true, or_self, if_false]

/-- The state a hop into cell `m` leaves before its report. -/
def hopState (n i : Nat) (b : Brush) (m : Nat) (s : State) : State :=
  modBrush n i (fun b => { b with hop := b.hop + 1 })
    ((landScratch m (chainWord b.chain) (chainLen b.chain)
      (landIn m (chainDst b.chain) (chainLen b.chain) (some b.rec64) (keepHop n b (startBrush n i s)))).perf
        (s.cell m).studio (s.cell m).ctx 0x0A (chainLen b.chain))

/-- A hop lands in the next receiver, and the last one makes its report. -/
theorem execBmcastHop_lands {m : Nat} {t : State} (hmaj : b.major = 0xCA) (hmore : brushDone b = false)
    (hstage : stageCell (s.cell n) ((s.cell n).stage + b.hop + 1) s = some m) (hrecv : (s.cell m).place = .resident)
    (hdst : chainDst b.chain + chainLen b.chain ≤ (s.cell m).scratchSz) (hword : chainWord b.chain + 16 ≤ (s.cell m).scratchSz)
    (hrep : (if b.hops ≤ b.hop + 1 then reportBytes n b (chainLen b.chain) (hopState n i b m s) else some (hopState n i b m s)) = some t) :
    execBmcastHop n i s = .next (flushSigs n t) := by
  rw [hopState] at hrep
  simp only [execBmcastHop, hb, hplace, hclk, hmaj, hmore, hstage, hrecv, Nat.not_lt.mpr hdst, Nat.not_lt.mpr hword, hrep, ne_eq, not_true,
    Bool.false_eq_true, or_self, if_false, Option.elim_some]

/-- A contribution that agrees with its round, if that is open, is accepted. -/
theorem execBredAccept_agrees (hmaj : b.major = 0xCB) (hnew : b.accepted = false)
    (hserv : s.inService (.slice (s.homeSlice b.chain.toNat)) = true)
    (hroom : (s.studio (s.cell n).studio).landing + bredBytes b ≤ 131072)
    (hagree : ∀ r, roundOf b.chain b.round s = some r → roundAgrees r b.sub b.hop b.layout = true) :
    execBredAccept n i s = .next (acceptInto n b
      ((modBrush n i (fun b => { b with accepted := true }) (startBrush n i s)).modStudio (s.cell n).studio
        fun st => { st with landing := st.landing + bredBytes b })) := by
  cases hr : roundOf b.chain b.round s with
  | none =>
    simp only [execBredAccept, hb, hplace, hclk, hmaj, hnew, hserv, hr, Nat.not_lt.mpr hroom, ne_eq, not_true, Bool.not_true,
      Bool.false_eq_true, or_self, if_false, if_true]
  | some r =>
    simp only [execBredAccept, hb, hplace, hclk, hmaj, hnew, hserv, hr, hagree r hr, Nat.not_lt.mpr hroom, ne_eq, not_true, Bool.not_true,
      Bool.false_eq_true, or_self, if_false, if_true]
end

/-- The contributions in the order in which a round adds them. -/
def roundParts (r : Round) (s : State) : List Contrib := if r.variant = 1 then openOrder s.fresh r.parts else r.parts
/-- The results of a round. -/
def roundResult (r : Round) (s : State) : List (BitVec 64) :=
  (List.range r.n).map fun i => BitVec.ofNat 64 (reduceElem r.variant ((roundParts r s).map fun x => (x.vals.getD i 0).toNat))
/-- The state without the round. -/
def closeRound (r : Round) (s : State) : State :=
  { s with rounds := s.rounds.filter (· != r), fresh := s.fresh + (roundParts r s).length }

/-- A full round whose results can all be delivered completes. -/
theorem execBredRoundComplete_full {tag : BitVec 64} {k p : Nat} {s t : State} {r : Round} (hclk : s.clockStopped = false)
    (hr : roundOf tag k s = some r) (hsize : roundSize r s = some p) (hfull : p ≤ r.parts.length)
    (hall : r.parts.foldlM (deliverRound (roundResult r s) (collWidth r.variant)) (r.parts.foldl (roundFence false) (closeRound r s)) = some t) :
    execBredRoundComplete tag k s = .next (r.parts.foldl (roundFence true) t) := by
  simp only [roundResult, closeRound, roundParts] at hall
  simp only [execBredRoundComplete, hr, hsize, Nat.not_lt.mpr hfull, hclk, hall, Bool.false_eq_true, or_self, if_false, Option.elim_some]

/-- A walk with room in its queue and no earlier one before it pushes its entry and goes on. -/
theorem pushWalk_pushes {n i : Nat} {s s1 : State} {w : Walk} {e : List (BitVec 32)} (hw : (s.cell n).walks[i]? = some w) (hrun : w.state = 0)
    (hfirst : ((s.cell n).walks.take i).any (fun x => walkQueue x == walkQueue w && x.state == 0) = false)
    (hroom : queueLen (s.group ⟨n, w.grp⟩) (walkQueue w) < 16)
    (hentry : walkEntry (s.whoOf n) w (s.cell n).shape w.grp s = .ok (s1, e)) :
    pushWalk n i s = modWalk n i (stepWalk (s.cell n).groupCount)
      (s1.modGroup ⟨n, w.grp⟩ fun g => { g with queues := Map.ins (walkQueue w) ((Map.getD g.queues (walkQueue w) []) ++ [e]) g.queues }) := by
  simp only [pushWalk, hw, hrun, hfirst, Nat.not_le.mpr hroom, hentry, ne_eq, not_true, Bool.false_eq_true, or_self, if_false]

theorem execWalkPush_push {n i : Nat} {s : State} (hplace : (s.cell n).place = .resident) (hclk : s.clockStopped = false) :
    execWalkPush n (.push i) s = .next (pushWalk n i s) := by
  simp only [execWalkPush, hplace, hclk, ne_eq, not_true, Bool.false_eq_true, or_self, if_false]

end Sys2Proof.Machine
end

section
/-! SUPPORT. The events of ring messages and of the torus, where their conditions are met (R419, R421-R424). -/
namespace Sys2Proof.Machine
open Sys2Proof State

/-- The state without the packet of a message. -/
def sinkPacket (m : Msg) (s : State) : State := { s with packets := s.packets.filter fun x => x.id != m.seq }

section
variable {n g i : Nat} {s : State} {m : Msg}
variable (hm : msgAt n g i s = some m) (hfirst : msgFirst n m s = true)
include hm hfirst

section
variable {p : Packet} (hp : packetOf m s = some p) (hfresh : m.refused = false) (harr : arrived p = true)
include hp hfresh harr

/-- A message that does not reach its ring is held. -/
theorem execRingDelivery_unreached (hreach : reachRing (s.cell n) m (sinkPacket m s) = none) :
    execRingDelivery n g i s = .next (modMsg n g i (fun m => { m with refused := true }) (sinkPacket m s)) := by
  rw [sinkPacket] at hreach ⊢
  simp only [execRingDelivery, hm, hp, hfresh, harr, hfirst, hreach, Bool.not_true, Bool.false_eq_true, or_self, if_false]

/-- A message that reaches its ring from the ring's producer, and fits a slot, lands where a slot is free and is held where none is. -/
theorem execRingDelivery_reached {d : Nat} {r : Ring} (hreach : reachRing (s.cell n) m (sinkPacket m s) = some (d, r))
    (hnode : nodeOf ((sinkPacket m s).cell d).studio = (p.to_x, p.to_y)) (hprod : r.prod = linearIn (s.cell n) (sinkPacket m s))
    (hlen : m.bytes.length ≤ r.size) :
    execRingDelivery n g i s = .next (if r.slots ≤ ringUsed ((sinkPacket m s).cell d) r
      then modMsg n g i (fun m => { m with refused := true }) (sinkPacket m s)
      else dropMsg n g i m (landMsg d r m (sinkPacket m s))) := by
  rw [sinkPacket] at hreach hnode hprod ⊢
  simp only [execRingDelivery, hm, hp, hfresh, harr, hfirst, hreach, hnode, ← hprod, Nat.not_lt.mpr hlen, ne_eq, not_true, Bool.not_true,
    Bool.false_eq_true, or_self, if_false]
end

/-- A held message goes again where its ring has a free slot, or is no longer its cell's. -/
theorem execRingRetry_sends {d : Nat} {r : Ring} (hplace : (s.cell n).place = .resident) (hheld : m.refused = true)
    (hreach : reachRing (s.cell n) m s = some (d, r)) (hgo : r.prod ≠ linearIn (s.cell n) s ∨ ringUsed (s.cell d) r < r.slots) :
    execRingRetry n g i s = .next (sendPacket m.seq (s.cell n).studio (s.cell d).studio
      (modMsg n g i (fun m => { m with refused := false }) s)) := by
  have hfree : ¬ (r.prod = linearIn (s.cell n) s ∧ r.slots ≤ ringUsed (s.cell d) r) := fun h => hgo.elim (· h.1) (Nat.not_lt.mpr h.2)
  simp only [execRingRetry, hm, hplace, hheld, hfirst, hreach, hfree, ne_eq, not_true, Bool.not_true, Bool.false_eq_true, or_self, if_false]
end

section
variable {i : Nat} {s : State} {p : Packet}
variable (hp : s.packets[i]? = some p) (hring : nextRing p ≠ 0) (hfirst : packetFirst i p s = true) (hturn : packetTurn p s = true)
include hp hring hfirst hturn

/-- A packet enters a ring while no buffer of it is in use at its node. -/
theorem execTorusHop_enters (hoff : p.ring ≠ nextRing p) (hfree : buffersUsed p.cls (nextRing p) p.at_x p.at_y s = 0) :
    execTorusHop i s = .next { s with packets := s.packets.eraseIdx i ++ [{ p with ring := nextRing p }],
                                      routers := Map.ins (routerKey p) p.ring s.routers } := by
  have hmay : mayHop i p s = true := by
    simp only [mayHop, hfirst, hoff, hfree, bne_iff_ne.mpr hring, ne_eq, not_false_eq_true, if_true, beq_self_eq_true, Bool.and_self]
  simp only [execTorusHop, hp, hmay, hturn, hoff, ne_eq, not_false_eq_true, Bool.not_true, Bool.false_eq_true, or_self, if_false, if_true]

/-- On its ring it goes one hop into a free buffer, and leaves the ring where it has arrived. -/
theorem execTorusHop_hops (hon : p.ring = nextRing p)
    (hfree : buffersUsed p.cls (nextRing p) (hopTo p (nextRing p)).1 (hopTo p (nextRing p)).2 s ≤ 1) :
    execTorusHop i s = .next { s with
      packets := s.packets.eraseIdx i ++ [if arrived { p with at_x := (hopTo p (nextRing p)).1, at_y := (hopTo p (nextRing p)).2 }
        then { p with at_x := (hopTo p (nextRing p)).1, at_y := (hopTo p (nextRing p)).2, ring := 0 }
        else { p with at_x := (hopTo p (nextRing p)).1, at_y := (hopTo p (nextRing p)).2 }]
      routers := Map.ins (routerKey p) p.ring s.routers } := by
  have hmay : mayHop i p s = true := by
    rw [← hon] at hring hfree
    simp only [mayHop, hfirst, ← hon, hfree, bne_iff_ne.mpr hring, ne_eq, not_true, if_false, decide_true, Bool.and_self]
  simp only [execTorusHop, hp, hmay, hturn, ← hon, ne_eq, not_true, Bool.not_true, Bool.false_eq_true, or_self, if_false]
end

end Sys2Proof.Machine

open Sys2Proof.Machine Sys2Proof.Machine.State

/-- Settles O45, event by event: each condition decides the branch its event takes. -/
theorem engineEventsComplete : Obligations.EngineEventsComplete := by
  unfold Obligations.EngineEventsComplete
  refine ⟨⟨?_, ?_, ?_, ?_, ?_⟩, ⟨?_, ?_, ?_⟩, ?_, ?_⟩
  · exact fun n i s c hplace hclk hc => ⟨execEaselCommandStart_ready hplace hclk hc, execEaselSlab_started hplace hclk hc,
      execEaselCommandComplete_done hplace hclk hc⟩
  · exact fun n f s hplace hclk hbusy => ⟨fun t => execFillSlab_ok hplace hclk hbusy, execFillComplete_over hplace hclk hbusy⟩
  · exact fun s n m w b => execSoftError_tileBit s
  · exact fun s l => rfl
  · exact fun s k l b => rfl
  · refine fun n i s b hplace hclk hb => ⟨?_, execBrushCommandComplete_done hplace hclk hb,
      fun m t hmaj hmore hstage hrecv hdst hword hrep => execBmcastHop_lands hplace hclk hb hmaj hmore hstage hrecv hdst hword hrep,
      execBredAccept_agrees hplace hclk hb⟩
    intro s1 k hmaj hleft us hroom hmove r
    have hburst := execBrushBurst_moves hplace hclk hb hmaj hleft hroom hmove
    exact ⟨fun t ht => hburst.trans (congrArg (fun o : Option State => Host.Outcome.next (o.elim s _)) ht),
      fun hwait => hburst.trans (congrArg (fun o : Option State => Host.Outcome.next (o.elim s _)) hwait)⟩
  · exact fun tag k s r p t hclk hr hsize hfull => execBredRoundComplete_full hclk hr hsize hfull
  · exact fun n i s w s1 e hplace hclk hw hrun hfirst hroom hentry =>
      (execWalkPush_push hplace hclk).trans (congrArg Host.Outcome.next (pushWalk_pushes hw hrun hfirst hroom hentry))
  · refine fun n g i s m p hm hfirst => ⟨fun hp hfresh harr => ⟨fun d r hreach hnode hprod hlen => ?_,
      execRingDelivery_unreached hm hfirst hp hfresh harr⟩, fun d r => execRingRetry_sends hm hfirst⟩
    have hland := execRingDelivery_reached hm hfirst hp hfresh harr hreach hnode hprod hlen
    exact ⟨fun hfree => hland.trans (congrArg Host.Outcome.next (if_neg (Nat.not_le.mpr hfree))),
      fun hfull => hland.trans (congrArg Host.Outcome.next (if_pos hfull))⟩
  · exact fun i s p hp hring hfirst hturn => ⟨execTorusHop_enters hp hring hfirst hturn, execTorusHop_hops hp hring hfirst hturn⟩
end

section
/-! SUPPORT. A word as the list of its fields (R64-R69): joining the fields and cutting the word undo each other. -/
namespace Sys2Proof
open Laws.WordFits

/-- The number whose fields, the lowest first, have the widths `ws` and the values `vs`. -/
def joinFields : List Nat → List Nat → Nat
  | w :: ws, v :: vs => v + 2 ^ w * joinFields ws vs
  | _, _ => 0
/-- The fields of a number, the lowest first, at the widths `ws`. -/
def splitFields (n : Nat) : List Nat → List Nat
  | [] => []
  | w :: ws => n % 2 ^ w :: splitFields (n / 2 ^ w) ws
/-- Every value has room in its width. -/
abbrev FieldsFit : List Nat → List Nat → Prop := List.Forall₂ fun w v => v < 2 ^ w

theorem splitFields_joinFields {ws vs : List Nat} (h : FieldsFit ws vs) : splitFields (joinFields ws vs) ws = vs := by
  induction h with
  | nil => rfl
  | cons hv _ ih =>
    simp only [joinFields, splitFields, Nat.add_mul_mod_self_left, Nat.mod_eq_of_lt hv]
    rw [Nat.add_mul_div_left _ _ (Nat.two_pow_pos _), Nat.div_eq_of_lt hv, Nat.zero_add, ih]

theorem joinFields_splitFields {n : Nat} {ws : List Nat} (h : n < 2 ^ ws.sum) : joinFields ws (splitFields n ws) = n := by
  induction ws generalizing n with
  | nil =>
    obtain rfl : n = 0 := by simpa using h
    rfl
  | cons w ws ih =>
    have hdiv : n / 2 ^ w < 2 ^ ws.sum := by
      rw [Nat.div_lt_iff_lt_mul (Nat.two_pow_pos w), ← pow_add, Nat.add_comm]
      simpa using h
    rw [splitFields, joinFields, ih hdiv, Nat.mod_add_div]

/-- The widths of a family's fields (R65-R69). -/
def Family.widths : Family → List Nat
  | .a => [32, 11, 11, 11, 10, 4, 4, 1, 4, 8]
  | .m => [32, 3, 3, 4, 2, 3, 7, 11, 10, 4, 4, 1, 4, 8]
  | .b => [3, 29, 16, 6, 11, 10, 8, 1, 4, 8]
  | .x => [8, 24, 8, 3, 4, 11, 7, 10, 8, 1, 4, 8]
  | .s => [32, 12, 10, 11, 10, 8, 1, 4, 8]
def Raw.family : Raw → Family
  | .a _ _ => .a | .m _ _ => .m | .b _ _ => .b | .x _ _ => .x | .s _ _ => .s
/-- The base field of an M-family word (R66). -/
def MOp.baseField (o : MOp) : Nat := match o.base with | some b => b.toNat | none => 127
/-- The fields of a record's word; in the S family [53:44] is reserved. -/
def Raw.fields : Raw → List Nat
  | .a k o => [o.m.toNat, o.c.field, o.b.field, o.a.field, o.d.field, o.ty.code, o.variant.toNat, o.gd.neg.toNat, o.gd.p.toNat, k]
  | .m k o => [o.off.toNat, o.shift.toNat, o.hint.toNat, o.res.toNat, o.order.code, o.scope.code, o.baseField, o.index.field,
      o.data.field, o.ty.code, o.variant.toNat, o.gd.neg.toNat, o.gd.p.toNat, k]
  | .b k o => [o.slot.toNat, o.line.toNat, o.aux.toNat, o.prio.toNat, o.a.field, o.link.field, o.sub.toNat, o.gd.neg.toNat,
      o.gd.p.toNat, k]
  | .x k o => [o.granule.toNat, o.imm.toNat, o.count.toNat, o.report.toNat, o.bar.toNat, o.coord.field, o.record.toNat, o.dest.field,
      o.sub.toNat, o.gd.neg.toNat, o.gd.p.toNat, k]
  | .s k o => [o.imm.toNat, o.sysreg.toNat, 0, o.a.field, o.dest.field, o.sub.toNat, o.gd.neg.toNat, o.gd.p.toNat, k]

theorem guard_bits (g : Guard) : g.bits = g.p.toNat * 2 ^ 84 + g.neg.toNat * 2 ^ 83 := by
  unfold Guard.bits
  cases g.neg <;> rfl
theorem MOp.word_eq (k : Nat) (o : MOp) : o.word k = k * 2 ^ 88 + o.gd.bits + o.variant.toNat * 2 ^ 79 + o.ty.code * 2 ^ 75
    + o.data.field * 2 ^ 65 + o.index.field * 2 ^ 54 + o.baseField * 2 ^ 47 + o.scope.code * 2 ^ 44 + o.order.code * 2 ^ 42
    + o.res.toNat * 2 ^ 38 + o.hint.toNat * 2 ^ 35 + o.shift.toNat * 2 ^ 32 + o.off.toNat := rfl

theorem Raw.word_eq_joinFields (r : Raw) : r.word = joinFields r.family.widths r.fields := by
  cases r <;>
    simp only [Raw.word, AOp.word, MOp.word_eq, BOp.word, XOp.word, SOp.word, Raw.family, Family.widths, Raw.fields, joinFields,
      guard_bits] <;>
    ring

theorem MOp.baseField_lt (o : MOp) : o.baseField < 2 ^ 7 := by
  unfold baseField
  split
  · exact BitVec.isLt _
  · decide
theorem Raw.fields_fit {r : Raw} (h : major r < 256) : FieldsFit r.family.widths r.fields := by
  cases r <;>
    simp only [Raw.family, Family.widths, Raw.fields, FieldsFit, List.forall₂_cons, List.Forall₂.nil, and_true, BitVec.isLt, src_lt,
      dst_lt, ty_lt, scope_lt, order_lt, MOp.baseField_lt, Bool.toNat_lt, true_and, pow_one, Nat.two_pow_pos] <;>
    exact h

theorem Raw.splitFields_word {r : Raw} (h : major r < 256) : splitFields r.word r.family.widths = r.fields := by
  rw [word_eq_joinFields, splitFields_joinFields (fields_fit h)]
theorem joinFields_family {n : Nat} (h : n < 2 ^ 96) (f : Family) : joinFields f.widths (splitFields n f.widths) = n :=
  joinFields_splitFields (by cases f <;> exact h)

theorem Raw.word_lt {r : Raw} (h : major r < 256) : r.word < 2 ^ 96 := by
  obtain ⟨low, hlow, hword⟩ := word_parts r
  omega

/-- The fields by their places in the word. -/
theorem splitFields_widths (n : Nat) (f : Family) : splitFields n f.widths = match f with
  | .a => [bits n 31 0, bits n 42 32, bits n 53 43, bits n 64 54, bits n 74 65, bits n 78 75, bits n 82 79, bits n 83 83, bits n 87 84,
      bits n 95 88]
  | .m => [bits n 31 0, bits n 34 32, bits n 37 35, bits n 41 38, bits n 43 42, bits n 46 44, bits n 53 47, bits n 64 54, bits n 74 65,
      bits n 78 75, bits n 82 79, bits n 83 83, bits n 87 84, bits n 95 88]
  | .b => [bits n 2 0, bits n 31 3, bits n 47 32, bits n 53 48, bits n 64 54, bits n 74 65, bits n 82 75, bits n 83 83, bits n 87 84,
      bits n 95 88]
  | .x => [bits n 7 0, bits n 31 8, bits n 39 32, bits n 42 40, bits n 46 43, bits n 57 47, bits n 64 58, bits n 74 65, bits n 82 75,
      bits n 83 83, bits n 87 84, bits n 95 88]
  | .s => [bits n 31 0, bits n 43 32, bits n 53 44, bits n 64 54, bits n 74 65, bits n 82 75, bits n 83 83, bits n 87 84,
      bits n 95 88] := by
  cases f <;> simp [Family.widths, splitFields, bits, Nat.div_div_eq_div_mul]

theorem Raw.major_of_fields {n : Nat} {r : Raw} (h : splitFields n r.family.widths = r.fields) : bits n 95 88 = major r := by
  cases r <;> simp_all [splitFields_widths, Raw.family, Raw.fields, major]

end Sys2Proof
end

section
/-! SUPPORT. What a field stands for (R64, R66, R70-R72): each value of a field's type has one pattern, and each accepted pattern one value. -/
namespace Sys2Proof

theorem bits_lt (n h l : Nat) : bits n h l < 2 ^ (h + 1 - l) := Nat.mod_lt _ (Nat.two_pow_pos _)

/-! ### Codes -/

theorem Ty.ofCode_code (t : Ty) : Ty.ofCode t.code = t := by cases t <;> rfl
theorem Scope.ofCode_code (x : Scope) : Scope.ofCode x.code = x := by cases x <;> rfl
theorem Order.ofCode_code (x : Order) : Order.ofCode x.code = x := by cases x <;> rfl
theorem Ty.code_ofCode : ∀ n < 2 ^ 4, (Ty.ofCode n).code = n := by decide
theorem Scope.code_ofCode : ∀ n < 2 ^ 3, (Scope.ofCode n).code = n := by decide
theorem Order.code_ofCode : ∀ n < 2 ^ 2, (Order.ofCode n).code = n := by decide
theorem Special.ofCode?_code (r : Special) : Special.ofCode? r.code = some r := by cases r <;> rfl
theorem Special.code_range (r : Special) : 96 ≤ r.code ∧ r.code < 256 := by cases r <;> decide
theorem Special.code_of_ofCode? {n : Nat} {r : Special} (h : Special.ofCode? n = some r) : r.code = n := by
  unfold Special.ofCode? at h
  split at h <;> cases h <;> rfl

/-! ### Operands -/

/-- The mode bit, the class and the index of an operand field (R71). -/
theorem operand_parts {t c i : Nat} (hc : c < 4) (hi : i < 256) (ht : t < 2) :
    bits (t * 1024 + c * 256 + i) 10 10 = t ∧ bits (t * 1024 + c * 256 + i) 9 8 = c ∧ bits (t * 1024 + c * 256 + i) 7 0 = i := by
  unfold bits
  omega
theorem operand_join {n : Nat} (hn : n < 2 ^ 11) : n = bits n 10 10 * 1024 + bits n 9 8 * 256 + bits n 7 0 := by
  unfold bits
  omega

theorem Dst.ofField_field {d : Dst} (h : d.inRange = true) : Dst.ofField d.field = some d := by
  cases d with
  | v i =>
    obtain ⟨-, hclass, hidx⟩ := operand_parts (t := 0) (c := 0) (by decide) i.isLt (by decide)
    simp_all [Dst.ofField, Dst.field]
  | g i =>
    obtain ⟨-, hclass, hidx⟩ := operand_parts (t := 0) (c := 1) (i := i.toNat) (by decide) (by omega) (by decide)
    simp_all [Dst.ofField, Dst.field, Dst.inRange]
  | t i =>
    obtain ⟨-, hclass, hidx⟩ := operand_parts (t := 0) (c := 2) (i := i.toNat) (by decide) (by omega) (by decide)
    have hlt : i.toNat < 8 := i.isLt
    simp_all [Dst.ofField, Dst.field]

theorem Dst.field_of_ofField {n : Nat} {d : Dst} (hn : n < 2 ^ 10) (h : Dst.ofField n = some d) : d.field = n ∧ d.inRange = true := by
  have hjoin := operand_join (n := n) (by omega)
  have hmode : bits n 10 10 = 0 := by unfold bits; omega
  have hidx := bits_lt n 7 0
  simp only [Dst.ofField] at h
  split at h
  next hclass =>
    cases h
    simp only [Dst.field, Dst.inRange, BitVec.toNat_ofNat, and_true]
    omega
  next hclass =>
    obtain ⟨hi, ⟨⟩⟩ := Option.ite_none_right_eq_some.mp h
    simp only [Dst.field, Dst.inRange, BitVec.toNat_ofNat, decide_eq_true_eq]
    omega
  next hclass =>
    obtain ⟨hi, ⟨⟩⟩ := Option.ite_none_right_eq_some.mp h
    simp only [Dst.field, Dst.inRange, BitVec.toNat_ofNat, and_true]
    omega
  next => cases h

theorem Src.ofField_field {x : Src} (h : x.inRange = true) : Src.ofField x.field = some x := by
  cases x with
  | v i tr =>
    obtain ⟨hmode, hclass, hidx⟩ := operand_parts (t := tr.toNat) (c := 0) (by decide) i.isLt tr.toNat_lt
    cases tr <;> simp_all [Src.ofField, Src.field, Nat.add_comm]
  | g i tr =>
    obtain ⟨hmode, hclass, hidx⟩ := operand_parts (t := tr.toNat) (c := 1) (i := i.toNat) (by decide) (by omega) tr.toNat_lt
    cases tr <;> simp_all [Src.ofField, Src.field, Src.inRange, Nat.add_comm]
  | sp r =>
    obtain ⟨hlo, hhi⟩ := r.code_range
    obtain ⟨hmode, hclass, hidx⟩ := operand_parts (t := 0) (c := 1) (by decide) hhi (by decide)
    simp_all [Src.ofField, Src.field, Special.ofCode?_code]
  | t i =>
    obtain ⟨hmode, hclass, hidx⟩ := operand_parts (t := 0) (c := 2) (i := i.toNat) (by decide) (by omega) (by decide)
    have hlt : i.toNat < 8 := i.isLt
    simp_all [Src.ofField, Src.field]
  | q i =>
    obtain ⟨hmode, hclass, hidx⟩ := operand_parts (t := 0) (c := 2) (i := 16 + i.toNat) (by decide) (by omega) (by decide)
    have hlt : i.toNat < 8 := i.isLt
    have hfield : (Src.q i).field = 0 * 1024 + 2 * 256 + (16 + i.toNat) := by simp only [Src.field]; omega
    simp only [Src.ofField, hfield, hmode, hclass, hidx]
    simp [show ¬ 16 + i.toNat < 8 by omega, show 16 + i.toNat < 24 by omega]
  | imm b =>
    obtain ⟨hmode, hclass, hidx⟩ := operand_parts (t := 0) (c := 3) (by decide) b.isLt (by decide)
    simp_all [Src.ofField, Src.field]

theorem Src.field_of_ofField {n : Nat} {x : Src} (hn : n < 2 ^ 11) (h : Src.ofField n = some x) : x.field = n ∧ x.inRange = true := by
  have hjoin := operand_join hn
  have hmode := bits_lt n 10 10
  have hidx := bits_lt n 7 0
  simp only [Src.ofField, decide_eq_true_eq] at h
  split at h
  next hclass =>
    cases h
    simp only [Src.field, Src.inRange, BitVec.toNat_ofNat, decide_eq_true_eq, and_true]
    split <;> omega
  next hclass =>
    split at h
    next hi =>
      cases h
      simp only [Src.field, Src.inRange, BitVec.toNat_ofNat, decide_eq_true_eq]
      split <;> omega
    next =>
      obtain ⟨hblock, h⟩ := Option.ite_none_left_eq_some.mp h
      obtain ⟨r, hr, rfl⟩ := Option.map_eq_some_iff.mp h
      have hcode := Special.code_of_ofCode? hr
      simp only [Src.field, Src.inRange, and_true]
      omega
  next hclass =>
    obtain ⟨hblock, h⟩ := Option.ite_none_left_eq_some.mp h
    split at h
    next hi =>
      cases h
      simp only [Src.field, Src.inRange, BitVec.toNat_ofNat, and_true]
      omega
    next =>
      obtain ⟨hi, ⟨⟩⟩ := Option.ite_none_right_eq_some.mp h
      simp only [Src.field, Src.inRange, BitVec.toNat_ofNat, and_true]
      omega
  next h0 h1 h2 =>
    obtain ⟨hblock, ⟨⟩⟩ := Option.ite_none_left_eq_some.mp h
    have hclass : bits n 9 8 = 3 := by
      have hlt := bits_lt n 9 8
      have hne : bits n 9 8 ≠ 0 ∧ bits n 9 8 ≠ 1 ∧ bits n 9 8 ≠ 2 := ⟨h0, h1, h2⟩
      omega
    simp only [Src.field, Src.inRange, BitVec.toNat_ofNat, and_true]
    omega

/-! ### A field of a word read as a value -/

@[simp] theorem ofNat_bits_eq_iff {w n h l : Nat} {x : BitVec w} (hw : h + 1 - l = w) :
    BitVec.ofNat w (bits n h l) = x ↔ bits n h l = x.toNat := by
  rw [← BitVec.toNat_inj, BitVec.toNat_ofNat, Nat.mod_eq_of_lt (hw ▸ bits_lt n h l)]
@[simp] theorem Ty.ofCode_bits_eq_iff {n h l : Nat} {t : Ty} (hw : h + 1 - l = 4) : Ty.ofCode (bits n h l) = t ↔ bits n h l = t.code :=
  ⟨fun e => e ▸ (Ty.code_ofCode _ (hw ▸ bits_lt n h l)).symm, fun e => e ▸ Ty.ofCode_code t⟩
@[simp] theorem Scope.ofCode_bits_eq_iff {n h l : Nat} {x : Scope} (hw : h + 1 - l = 3) :
    Scope.ofCode (bits n h l) = x ↔ bits n h l = x.code :=
  ⟨fun e => e ▸ (Scope.code_ofCode _ (hw ▸ bits_lt n h l)).symm, fun e => e ▸ Scope.ofCode_code x⟩
@[simp] theorem Order.ofCode_bits_eq_iff {n h l : Nat} {x : Order} (hw : h + 1 - l = 2) :
    Order.ofCode (bits n h l) = x ↔ bits n h l = x.code :=
  ⟨fun e => e ▸ (Order.code_ofCode _ (hw ▸ bits_lt n h l)).symm, fun e => e ▸ Order.ofCode_code x⟩
@[simp] theorem Dst.ofField_bits_eq_iff {n h l : Nat} {d : Dst} (hw : h + 1 - l = 10) :
    Dst.ofField (bits n h l) = some d ↔ bits n h l = d.field ∧ d.inRange = true :=
  ⟨fun e => (Dst.field_of_ofField (hw ▸ bits_lt n h l) e).imp_left Eq.symm, fun ⟨e, hr⟩ => e ▸ Dst.ofField_field hr⟩
@[simp] theorem Src.ofField_bits_eq_iff {n h l : Nat} {x : Src} (hw : h + 1 - l = 11) :
    Src.ofField (bits n h l) = some x ↔ bits n h l = x.field ∧ x.inRange = true :=
  ⟨fun e => (Src.field_of_ofField (hw ▸ bits_lt n h l) e).imp_left Eq.symm, fun ⟨e, hr⟩ => e ▸ Src.ofField_field hr⟩
@[simp] theorem guard_ofWord_eq_iff {n : Nat} {g : Guard} : Guard.ofWord n = g ↔ bits n 83 83 = g.neg.toNat ∧ bits n 87 84 = g.p.toNat := by
  obtain ⟨p, neg⟩ := g
  have hlt : bits n 83 83 < 2 := bits_lt n 83 83
  rw [Guard.ofWord, Guard.mk.injEq, ofNat_bits_eq_iff (by rfl), and_comm]
  interval_cases bits n 83 83 <;> cases neg <;> simp

/-- The base that an M-family word names: a g register, or zero under code 127 (R66). -/
def MOp.baseOfField (n : Nat) : Option (Option (BitVec 7)) :=
  if n < 96 then some (some (BitVec.ofNat 7 n)) else if n = 127 then some none else none
theorem MOp.baseOfField_bits_eq_iff {n : Nat} {o : MOp} : MOp.baseOfField (bits n 53 47) = some o.base ↔
    bits n 53 47 = o.baseField ∧ ∀ b, o.base = some b → b.toNat < 96 := by
  unfold baseOfField baseField
  by_cases hreg : bits n 53 47 < 96
  · rw [if_pos hreg]
    cases o.base with
    | none => simp; omega
    | some b => simp; omega
  · rw [if_neg hreg]
    cases o.base with
    | none => simp
    | some b => simp; omega
theorem MOp.ofWord_eq (n : Nat) : MOp.ofWord n = (do
    let d ← Dst.ofField (bits n 74 65)
    let a ← Src.ofField (bits n 64 54)
    let base ← baseOfField (bits n 53 47)
    pure ⟨Guard.ofWord n, BitVec.ofNat 4 (bits n 82 79), Ty.ofCode (bits n 78 75), d, a, base, Scope.ofCode (bits n 46 44),
      Order.ofCode (bits n 43 42), BitVec.ofNat 4 (bits n 41 38), BitVec.ofNat 3 (bits n 37 35), BitVec.ofNat 3 (bits n 34 32),
      BitVec.ofNat 32 (bits n 31 0)⟩) := by
  unfold MOp.ofWord baseOfField
  by_cases hreg : bits n 53 47 < 96
  · simp only [hreg, if_true]
  · by_cases hzero : bits n 53 47 = 127
    · simp only [hzero, if_true]; rfl
    · simp only [hreg, hzero, if_false]

end Sys2Proof
end

section
/-! SUPPORT. Reading a word (R65-R69): a word of 96 bits yields a record exactly when it is the record's word. -/
namespace Sys2Proof
open Laws.WordFits

section
variable {n k : Nat}

theorem AOp.ofWord_eq_some_iff {o : AOp} : AOp.ofWord n = some o ∧ bits n 95 88 = k ↔
    splitFields n Family.a.widths = (Raw.a k o).fields ∧ (Raw.a k o).inRange = true := by
  obtain ⟨gd, variant, ty, d, a, b, c, m⟩ := o
  simp [AOp.ofWord, Option.bind_eq_some_iff, splitFields_widths, Raw.fields, Raw.inRange]
  tauto
theorem MOp.ofWord_eq_some_iff {o : MOp} : MOp.ofWord n = some o ∧ bits n 95 88 = k ↔
    splitFields n Family.m.widths = (Raw.m k o).fields ∧ (Raw.m k o).inRange = true := by
  have hbase := MOp.baseOfField_bits_eq_iff (n := n) (o := o)
  obtain ⟨gd, variant, ty, data, index, base, scope, order, res, hint, shift, off⟩ := o
  cases base <;> simp [MOp.ofWord_eq, Option.bind_eq_some_iff, splitFields_widths, Raw.fields, Raw.inRange, hbase] <;> tauto
theorem BOp.ofWord_eq_some_iff {o : BOp} : BOp.ofWord n = some o ∧ bits n 95 88 = k ↔
    splitFields n Family.b.widths = (Raw.b k o).fields ∧ (Raw.b k o).inRange = true := by
  obtain ⟨gd, sub, link, a, prio, aux, line, slot⟩ := o
  simp [BOp.ofWord, Option.bind_eq_some_iff, splitFields_widths, Raw.fields, Raw.inRange]
  tauto
theorem XOp.ofWord_eq_some_iff {o : XOp} : XOp.ofWord n = some o ∧ bits n 95 88 = k ↔
    splitFields n Family.x.widths = (Raw.x k o).fields ∧ (Raw.x k o).inRange = true := by
  obtain ⟨gd, sub, dest, record, coord, bar, report, count, imm, granule⟩ := o
  simp [XOp.ofWord, Option.bind_eq_some_iff, splitFields_widths, Raw.fields, Raw.inRange]
  tauto
theorem SOp.ofWord_eq_some_iff {o : SOp} : SOp.ofWord n = some o ∧ bits n 95 88 = k ↔
    splitFields n Family.s.widths = (Raw.s k o).fields ∧ (Raw.s k o).inRange = true := by
  obtain ⟨gd, sub, dest, a, sysreg, imm⟩ := o
  simp [SOp.ofWord, Option.bind_eq_some_iff, splitFields_widths, Raw.fields, Raw.inRange]
  tauto
end

/-- The record that a word holds when it is read under a family. -/
def Family.read (n : Nat) : Family → Option Raw
  | .a => (AOp.ofWord n).map (Raw.a (bits n 95 88))
  | .m => (MOp.ofWord n).map (Raw.m (bits n 95 88))
  | .b => (BOp.ofWord n).map (Raw.b (bits n 95 88))
  | .x => (XOp.ofWord n).map (Raw.x (bits n 95 88))
  | .s => (SOp.ofWord n).map (Raw.s (bits n 95 88))
theorem Raw.ofWord_eq (n : Nat) : Raw.ofWord n = (familyOf (bits n 95 88)).map (Family.read n) := by
  unfold Raw.ofWord
  congr
theorem Family.read_eq_some_iff {n : Nat} {f : Family} {r : Raw} :
    f.read n = some r ↔ f = r.family ∧ splitFields n r.family.widths = r.fields ∧ r.inRange = true := by
  cases r <;> cases f <;>
    simp [Family.read, Raw.family, Option.map_eq_some_iff, ← AOp.ofWord_eq_some_iff, ← MOp.ofWord_eq_some_iff,
      ← BOp.ofWord_eq_some_iff, ← XOp.ofWord_eq_some_iff, ← SOp.ofWord_eq_some_iff]

/-- An assigned major is a byte. -/
theorem familyOf_lt {k : Nat} {f : Family} (h : familyOf k = some f) : k < 256 := by
  by_contra hk
  have hnone : familyOf k = none := by
    unfold familyOf
    simp (disch := omega) only [if_neg]
  cases hnone.symm.trans h

theorem Raw.ofWord_eq_some_iff {n : Nat} {r : Raw} (hn : n < 2 ^ 96) :
    Raw.ofWord n = some (some r) ↔ familyOf (major r) = some r.family ∧ r.inRange = true ∧ r.word = n := by
  simp only [Raw.ofWord_eq, Option.map_eq_some_iff, Family.read_eq_some_iff]
  constructor
  · rintro ⟨f, hf, rfl, hfields, hr⟩
    refine ⟨major_of_fields hfields ▸ hf, hr, ?_⟩
    rw [word_eq_joinFields, ← hfields, joinFields_family hn]
  · rintro ⟨hf, hr, rfl⟩
    have hfields := splitFields_word (familyOf_lt hf)
    exact ⟨r.family, (major_of_fields hfields).symm ▸ hf, rfl, hfields, hr⟩

end Sys2Proof
end

section
/-! SUPPORT. The part of a word that ILLEGAL_OP is judged by (R75): clearing the operand fields of a record's word gives the word of a
record with the same variant, type and sub-op. -/
namespace Sys2Proof
open Laws.WordFits

/-- The record without its operands. -/
def Raw.opPart : Raw → Raw
  | .a k o => .a k { o with d := .v 0, a := .v 0 false, b := .v 0 false, c := .v 0 false }
  | .m k o => .m k ⟨o.gd, o.variant, o.ty, .v 0, .v 0 false, some 0, .plain, .rlx, 0, 0, 0, 0⟩
  | .b k o => .b k { o with link := .v 0, a := .v 0 false, prio := 0, aux := 0, line := 0, slot := 0 }
  | .x k o => .x k { o with dest := .v 0, record := 0, coord := .v 0 false, bar := 0, report := 0, count := 0, imm := 0, granule := 0 }
  | .s k o => .s k { o with dest := .v 0, a := .v 0 false, sysreg := 0, imm := 0 }

theorem Raw.major_opPart (r : Raw) : major r.opPart = major r := by cases r <;> rfl
theorem Raw.family_opPart (r : Raw) : r.opPart.family = r.family := by cases r <;> rfl
theorem Raw.inRange_opPart (r : Raw) : r.opPart.inRange = true := by cases r <;> rfl
theorem Raw.opOk_opPart (r : Raw) : r.opPart.opOk = r.opOk := by cases r <;> rfl

theorem Dst.field_zero : (Dst.v 0#8).field = 0 := rfl
theorem Src.field_zero : (Src.v 0#8 false).field = 0 := rfl
theorem MOp.baseField_zero {o : MOp} (h : o.base = some 0#7) : o.baseField = 0 := by rw [baseField, h]; rfl
theorem Scope.code_plain : Scope.plain.code = 0 := rfl
theorem Order.code_rlx : Order.rlx.code = 0 := rfl

theorem Raw.opBits_word {r : Raw} (h : major r < 256) : opBits r.family r.word = r.opPart.word := by
  have hfit := Raw.fields_fit h
  cases r <;>
    simp only [Raw.family, Family.widths, Raw.fields, FieldsFit, List.forall₂_cons, List.Forall₂.nil, and_true] at hfit <;>
    simp only [opBits, Raw.family, Raw.opPart, Raw.word, AOp.word, MOp.word_eq, BOp.word, XOp.word, SOp.word, guard_bits, Dst.field_zero,
      Src.field_zero, MOp.baseField_zero, Scope.code_plain, Order.code_rlx, BitVec.ofNat_eq_ofNat, BitVec.toNat_zero] <;>
    omega

theorem opAssigned_word {r : Raw} (hf : familyOf (major r) = some r.family) : opAssigned r.word = r.opOk := by
  have hk := familyOf_lt hf
  have hmajor : bits r.word 95 88 = major r := Raw.major_of_fields (Raw.splitFields_word hk)
  have hpart : Raw.ofWord r.opPart.word = some (some r.opPart) :=
    (Raw.ofWord_eq_some_iff (Raw.word_lt (r.major_opPart.symm ▸ hk))).mpr
      ⟨by rw [r.major_opPart, r.family_opPart, hf], r.inRange_opPart, rfl⟩
  simp only [opAssigned, hmajor, hf, Raw.opBits_word hk, hpart, r.opOk_opPart]

theorem opAssigned_of_reserved {n : Nat} (h : familyOf (bits n 95 88) = none) : opAssigned n = false := by simp only [opAssigned, h]

end Sys2Proof
end

section
/-! SUPPORT. The two tables of instructions agree (R77): what `Raw.mk?` names, `Instr.raw` gives back. -/
namespace Sys2Proof
open Laws.WordFits

/-- The instruction in `x`, if any, is one of the record `r`, whose major is of its family. -/
def Raw.Names (r : Raw) (x : Option Instr) : Prop := ∀ i, x = some i → i.raw = some r ∧ familyOf (major r) = some r.family

theorem Raw.Names.dite {r : Raw} {c : Prop} {_ : Decidable c} {x : c → Option Instr} {y : ¬c → Option Instr}
    (hx : ∀ h, r.Names (x h)) (hy : ∀ h, r.Names (y h)) : r.Names (if h : c then x h else y h) := by
  split
  · exact hx _
  · exact hy _

/- The table of `Raw.mk?` is a chain of tests of the major and of the variant or sub-op; the proof follows the chain, row by row. `split`
cannot: its lemma for a match of 143 rows is past the limits. Without smart unfolding the match shows the chain that it stands for. -/
set_option smartUnfolding false in
theorem Raw.names_mk? (r : Raw) : r.Names r.mk? := by
  unfold Raw.mk?
  cases r with
  | a k o | m k o =>
    dsimp only
    generalize o.variant.toNat = v
    repeat' (refine Names.dite (fun h => ?_) (fun _ => ?_); on_goal 1 => subst h)
    all_goals exact fun i h => by cases h <;> exact ⟨rfl, rfl⟩
  | b k o | x k o | s k o =>
    dsimp only
    generalize o.sub.toNat = v
    repeat' (refine Names.dite (fun h => ?_) (fun _ => ?_); on_goal 1 => subst h)
    all_goals exact fun i h => by cases h <;> exact ⟨rfl, rfl⟩

end Sys2Proof
end

section
/-! SUPPORT. What `decode` answers, once for both directions. -/
namespace Sys2Proof

theorem decode_eq_ok_iff_record {n : Nat} {i : Instr} : decode n = .ok i ↔
    ∃ r, Raw.ofWord n = some (some r) ∧ opAssigned n = true ∧ r.fieldOk = true ∧ r.mk? = some i := by
  unfold decode
  cases opAssigned n with
  | false => simp
  | true =>
    rcases Raw.ofWord n with _ | _ | r
    · simp
    · simp
    · cases hfield : r.fieldOk <;> cases hi : r.mk? <;> simp [hfield, hi]

theorem wellFormed_iff {i : Instr} : i.WellFormed ↔
    ∃ r, i.raw = some r ∧ r.inRange = true ∧ r.mk? = some i ∧ r.opOk = true ∧ r.fieldOk = true := by
  unfold Instr.WellFormed Instr.legal
  cases i.raw <;> simp [and_assoc]

theorem encode_lt {i : Instr} (h : i.WellFormed) : encode i < 2 ^ 96 := by
  obtain ⟨r, hraw, -, hi, -⟩ := wellFormed_iff.mp h
  rw [encode, hraw]
  exact Raw.word_lt (familyOf_lt (Raw.names_mk? r i hi).2)

/-- A word decodes to an instruction exactly when it is the word of that instruction, which is well formed. -/
theorem decode_eq_ok_iff {n : Nat} {i : Instr} (hn : n < 2 ^ 96) : decode n = .ok i ↔ i.WellFormed ∧ encode i = n := by
  rw [decode_eq_ok_iff_record, wellFormed_iff]
  constructor
  · rintro ⟨r, hr, hop, hfield, hi⟩
    obtain ⟨hraw, hf⟩ := Raw.names_mk? r i hi
    obtain ⟨-, hrange, rfl⟩ := (Raw.ofWord_eq_some_iff hn).mp hr
    exact ⟨⟨r, hraw, hrange, hi, opAssigned_word hf ▸ hop, hfield⟩, by rw [encode, hraw]⟩
  · rintro ⟨⟨r, hraw, hrange, hi, hop, hfield⟩, henc⟩
    obtain ⟨-, hf⟩ := Raw.names_mk? r i hi
    obtain rfl : r.word = n := by rw [← henc, encode, hraw]
    exact ⟨r, (Raw.ofWord_eq_some_iff hn).mpr ⟨hf, hrange, rfl⟩, (opAssigned_word hf).trans hop, hfield, hi⟩

end Sys2Proof

open Sys2Proof

/-- Settles O52: a well-formed instruction's word has 96 bits and so decodes to it. -/
theorem encodedInstructionsDecodeToThemselves : Obligations.EncodedInstructionsDecodeToThemselves := by
  unfold Obligations.EncodedInstructionsDecodeToThemselves
  exact fun i hi => (decode_eq_ok_iff (encode_lt hi)).mpr ⟨hi, rfl⟩

/-- Settles O53, by the other direction of `decode_eq_ok_iff`. -/
theorem decodedWordsAreTheirInstructionsWords : Obligations.DecodedWordsAreTheirInstructionsWords := by
  unfold Obligations.DecodedWordsAreTheirInstructionsWords
  exact fun n i hn => (decode_eq_ok_iff hn).mp

/-- Settles O54: a major of no family fails the first test of `decode`. -/
theorem reservedMajorsAreIllegal : Obligations.ReservedMajorsAreIllegal := by
  unfold Obligations.ReservedMajorsAreIllegal
  intro n _ h
  simp [decode, opAssigned_of_reserved h]

/-- Settles O51, by running the decoder on each word. -/
theorem wordsDecodeAsEncoded : Obligations.WordsDecodeAsEncoded := by
  unfold Obligations.WordsDecodeAsEncoded
  exact ⟨rfl, rfl, rfl, rfl, rfl⟩
end

section
/-! SUPPORT. A run that goes on starts its next slot as one not counted yet (R313); `RunFrame` asks that the run's `counted` stand. -/
namespace Sys2Proof
open Machine State

theorem goesOn_of_not_last {i : Instr} {s : State} (h : s.crun.last = false) : goesOn i s = s.modRun fun r =>
    { r with pc := nextPC s.crun.pc, hist := (usesOf i).wr :: r.hist, popped := [], counted := false } := by
  simp [goesOn, advance, h]

theorem RunFrame.counted_eq {s t : State} {tp : Nat → Nat → Prop} (h : RunFrame s t tp) (hrun : t.cg.run.isSome = true) :
    t.crun.counted = s.crun.counted := by
  obtain ⟨-, hcrun⟩ := h.goes hrun
  rw [hcrun]

/-- Every issue through `step` meets these premises where the run goes on: `decodeStage` has set `counted`. -/
theorem not_runFrame_goesOn {i : Instr} {s u : State} {tp : Nat → Nat → Prop} (hlast : u.crun.last = false)
    (hcounted : s.crun.counted = true) : ¬ RunFrame s (goesOn i u) tp := by
  intro h
  rw [goesOn_of_not_last hlast] at h
  have hkept := h.counted_eq (by simp [modRun])
  rw [hcounted, crun_modRun] at hkept
  cases hkept

theorem exec_nop_ready {o : AOp} {s s1 : State} (h : Issues (.nop o) s s1) : exec (.nop o) s = .next (goesOn (.nop o) s1) :=
  issueOk_ready (body := fun s => s) h

/-- A cell of 32 lanes with a run in flight whose present instruction decode has just counted, and which does not end there. -/
def justCounted : State :=
  ({ State.reset with cells := [(0, State.fwCell)], cur := ⟨0, 0⟩ } : State).modRun fun r => { r with counted := true }

end Sys2Proof

open Sys2Proof Sys2Proof.Machine Sys2Proof.Machine.State

/-- Refutes O6: its frame keeps the run's mark that the present instruction has been counted. In `justCounted` a `nop` issues, the run goes on
to the next slot, and the mark is clear there (R313: each instruction counts once). -/
theorem not_nopAndMovwResults : ¬ Obligations.NopAndMovwResults := by
  unfold Obligations.NopAndMovwResults
  rintro ⟨hnop, -⟩
  have hissues : Issues (.nop default) justCounted justCounted := ⟨by decide +kernel, rfl⟩
  obtain ⟨t, ht, hframe⟩ := hnop default justCounted justCounted hissues
  obtain rfl : goesOn (.nop default) justCounted = t := Host.Outcome.next.inj ((exec_nop_ready hissues).symm.trans ht)
  exact not_runFrame_goesOn rfl rfl hframe.run
end

section
/-! SUPPORT. The effects of the lane instructions write registers, temporaries and predicates, and leave where the run ends as it was. So each
of them, issued as a counted instruction of a run that goes on, fails `RunFrame` (R313), whatever it writes. -/
namespace Sys2Proof
open Machine State

theorem crun_modCc {s : State} {f : Cell → Cell} (hf : ∀ c, (f c).groups = c.groups) : (s.modCc f).crun = s.crun := by
  have hgroup : (s.modCc f).cg = s.cg := by simp [cg, group, modCc, hf]
  rw [crun, hgroup, crun]

theorem crun_modCg {s : State} {f : Group → Group} (hf : ∀ g, (f g).run = g.run) : (s.modCg f).crun = s.crun := by
  rw [crun, cg_modCg, hf, crun]

/-- A write to a temporary changes the run; it does not change where the run ends. -/
theorem crun_last_write (s : State) (d : Dst) (t : Ty) (u p : Nat) : (s.write d t u p).crun.last = s.crun.last := by
  cases d with
  | v i =>
    simp only [write]
    split
    · rfl
    · split
      · exact congrArg Run.last (crun_modCc fun _ => rfl)
      · exact congrArg Run.last (crun_modCc fun _ => rfl)
  | g i => exact congrArg Run.last (crun_modCg fun _ => rfl)
  | t i => simp [write]

theorem crun_last_apply (s : State) (gd : Guard) (d : Dst) (t : Ty) (f : Nat → Nat) : (s.apply gd d t f).crun.last = s.crun.last := by
  have hlanes : ((s.active gd).foldl (fun s' p => s'.write d t (f p) p) s).crun.last = s.crun.last :=
    foldl_keeps (P := fun s' => s'.crun.last = s.crun.last) (fun s' p h => (crun_last_write s' d t (f p) p).trans h) _ rfl
  cases d with
  | v i => exact hlanes
  | t i => exact hlanes
  | g i =>
    simp only [apply]
    split
    · rfl
    · exact crun_last_write ..

theorem groups_setPred (c : Cell) (cl r : Nat) (b : Bool) : (c.setPred cl r b).groups = c.groups := by
  unfold Cell.setPred
  split <;> rfl

theorem crun_setPredAt (s : State) (p r : Nat) (b : Bool) : (s.setPredAt p r b).crun = s.crun := by
  unfold setPredAt
  split
  · exact crun_modCc fun c => groups_setPred c _ r b
  · rfl

theorem crun_applyPred (s : State) (gd : Guard) (r : Nat) (f : Nat → Bool) : (s.applyPred gd r f).crun = s.crun :=
  foldl_keeps (P := fun s' => s'.crun = s.crun) (fun s' p h => (crun_setPredAt s' p r (f p)).trans h) _ rfl

theorem crun_last_carryEffect (o : AOp) (sum : Int → Int → Int → Int) (s : State) : (carryEffect o sum s).crun.last = s.crun.last :=
  foldl_keeps (P := fun s' : State => s'.crun.last = s.crun.last)
    (fun s' x h => by rw [crun_setPredAt, crun_last_write, h]) _ rfl

section
variable {i : Instr} {s s1 t : State} {v p tp : Nat → Nat → Prop} {g : Nat → Prop}
variable (h : Issues i s s1) (hlast : s1.crun.last = false) (hcounted : s1.crun.counted = true)
include h hlast hcounted

theorem not_regFrame_of_issueOk {body : State → State} (hbody : (body s1).crun.last = s1.crun.last)
    (ht : issueOk i s body = .next t) : ¬ RegFrame s1 t v g p tp := by
  obtain rfl : goesOn i (body s1) = t := Host.Outcome.next.inj ((issueOk_ready h).symm.trans ht)
  exact fun hframe => not_runFrame_goesOn (hbody.trans hlast) hcounted hframe.run

/-- Whatever the element-wise instruction (R109), its operands and its result. -/
theorem not_regFrame_of_alu {o : AOp} {ty : Ty} {f : State → Nat → Nat} (ht : alu i o ty s f = .next t) : ¬ RegFrame s1 t v g p tp :=
  not_regFrame_of_issueOk h hlast hcounted (crun_last_apply ..) ht

/-- Whatever the instruction that writes a predicate in each active lane (R105), and whatever it writes. -/
theorem not_regFrame_of_applyPred {gd : Guard} {r : Nat} {f : State → Nat → Bool}
    (ht : issueOk i s (fun s => s.applyPred gd r (f s)) = .next t) : ¬ RegFrame s1 t v g p tp :=
  not_regFrame_of_issueOk h hlast hcounted (congrArg Run.last (crun_applyPred ..)) ht

end

/-- Every operand is v0, every lane is active, and the modifier is 0: `add v0, v0, v0` and its like. -/
def onV0 (ty : Ty) : AOp := ⟨⟨0, false⟩, 0, ty, .v 0, .v 0 false, .v 0 false, .v 0 false, 0⟩

theorem exec_add (o : AOp) (s : State) : exec (.add o) s = intAlu (.add o) o s fun a b _ => a + b := rfl
theorem exec_and (o : AOp) (s : State) : exec (.and o) s = bitAlu (.and o) o s Nat.land := rfl
theorem exec_pand (o : AOp) (s : State) : exec (.pand o) s = predOp (.pand o) o s and := rfl
theorem exec_addc (o : AOp) (s : State) : exec (.addc o) s = issueOk (.addc o) s (carryEffect o fun a b k => a + b + k) := rfl

end Sys2Proof

open Sys2Proof Sys2Proof.Machine Sys2Proof.Machine.State

/-- Refutes O1: the frame keeps the run's mark that the present instruction has been counted. In `justCounted` the `add` of v0 to itself issues,
the run goes on to the next slot, and the mark is clear there (R313). -/
theorem not_integerArithmeticResults : ¬ Obligations.IntegerArithmeticResults := by
  unfold Obligations.IntegerArithmeticResults
  intro h
  have hissues : Issues (.add (onV0 .i32)) justCounted justCounted := ⟨by decide +kernel, rfl⟩
  obtain ⟨t, ht, -, hframe⟩ := h (.add (onV0 .i32)) _ _ justCounted justCounted rfl (by decide) hissues
  exact not_regFrame_of_alu hissues rfl rfl ((exec_add ..).symm.trans ht) hframe

/-- Refutes O2, as O1, by the `and` of v0 with itself: the counted mark does not stand (R313). -/
theorem not_moveLogicShiftAndLaneResults : ¬ Obligations.MoveLogicShiftAndLaneResults := by
  unfold Obligations.MoveLogicShiftAndLaneResults
  intro h
  have hissues : Issues (.and (onV0 .i32)) justCounted justCounted := ⟨by decide +kernel, rfl⟩
  obtain ⟨t, ht, -, hframe⟩ := h (.and (onV0 .i32)) _ _ _ justCounted justCounted (.inr (.inl rfl)) (by decide) hissues
  exact not_regFrame_of_alu hissues rfl rfl ((exec_and ..).symm.trans ht) hframe

/-- Refutes O4, as O1, by a `pand` whose result p0 discards: the counted mark does not stand (R313). -/
theorem not_predicateResults : ¬ Obligations.PredicateResults := by
  unfold Obligations.PredicateResults
  intro h
  have hissues : Issues (.pand (onV0 .i8)) justCounted justCounted := ⟨by decide +kernel, rfl⟩
  obtain ⟨t, ht, -, hframe⟩ := h (.pand (onV0 .i8)) _ _ _ justCounted justCounted rfl (by decide) hissues
  exact not_regFrame_of_applyPred hissues rfl rfl ((exec_pand ..).symm.trans ht) hframe

/-- Refutes O5, as O1, by the `addc` of v0 to itself with no carry-in: the counted mark does not stand (R313). -/
theorem not_carryResults : ¬ Obligations.CarryResults := by
  unfold Obligations.CarryResults
  intro h
  have hissues : Issues (.addc (onV0 .n32)) justCounted justCounted := ⟨by decide +kernel, rfl⟩
  obtain ⟨t, ht, -, hframe⟩ := h false (onV0 .n32) justCounted justCounted (by decide) hissues
  exact not_regFrame_of_issueOk hissues rfl rfl (crun_last_carryEffect ..) ((exec_addc ..).symm.trans ht) hframe
end

section
/-! SUPPORT. Where the lanes of the issuing entry go on after a control-flow instruction (R133, R136-R141), one lemma for each instruction. -/
namespace Sys2Proof.Machine
open Sys2Proof Rules State

/-! ### The ends of a run -/

theorem find?_goTo (ps : List Nat) (t : Nat → BitVec 64) (p : Nat) :
    (ps.map fun q => (q, some (t q))).find? (fun x => x.1 == p) = if p ∈ ps then some (p, some (t p)) else none := by
  induction ps with
  | nil => rfl
  | cons q r ih =>
    by_cases hq : q = p
    · simp [hq]
    · simp [hq, Ne.symm hq, ih]

/-- A run that ends with the lanes `ps` at their targets; `s` is the state before the effect, whose PC the effect has kept. -/
theorem advance_goTo {s u : State} (hpc : u.crun.pc = s.crun.pc) (i : Instr) (ps : List Nat) (t : Nat → BitVec 64) :
    u.advance i (goTo ps t) = u.endRun (splitAt s ps t) none .no := by
  have hcont : (fun p => match (ps.map fun q => (q, some (t q))).find? (fun x => x.1 == p) with
      | some x => x.2 | none => some (nextPC u.crun.pc)) = splitAt s ps t := by
    funext p
    rw [find?_goTo, splitAt, hpc]
    by_cases hp : p ∈ ps
    · simp only [hp, if_true]
    · simp only [hp, if_false]
  rw [← hcont]
  rfl

/-- An instruction whose effect follows a check that passes. -/
theorem issueWith_checked {i : Instr} {s s1 : State} {check : State → Except Raise Unit} {body : State → State × After}
    (h : Issues i s s1) (hc : check s1 = .ok ()) :
    issueWith i s (fun s => do check s; return body s) = .next ((body s1).1.advance i (body s1).2) :=
  issueWith_ok h (by rw [hc]; rfl)

/-! ### The link of a call -/

/-- Of the run, a write to a destination changes the temporaries at most. -/
theorem crun_write (s : State) (d : Dst) (t : Ty) (u p : Nat) : ∃ ts, (s.write d t u p).crun = { s.crun with temps := ts } := by
  cases d with
  | v i =>
    refine ⟨s.crun.temps, ?_⟩
    simp only [write]
    split
    · rfl
    · split
      · exact crun_modCc fun _ => rfl
      · exact crun_modCc fun _ => rfl
  | g i => exact ⟨s.crun.temps, crun_modCg fun _ => rfl⟩
  | t i => exact ⟨_, crun_modRun s _⟩

theorem crun_apply (s : State) (gd : Guard) (d : Dst) (t : Ty) (f : Nat → Nat) :
    ∃ ts, (s.apply gd d t f).crun = { s.crun with temps := ts } := by
  have hlanes : ∃ ts, ((s.active gd).foldl (fun s' p => s'.write d t (f p) p) s).crun = { s.crun with temps := ts } := by
    refine foldl_keeps (P := fun s' : State => ∃ ts, s'.crun = { s.crun with temps := ts }) ?_ _ ⟨_, rfl⟩
    rintro s' p ⟨ts, hs'⟩
    obtain ⟨ts', hw⟩ := crun_write s' d t (f p) p
    exact ⟨ts', by rw [hw, hs']⟩
  cases d with
  | v i => exact hlanes
  | t i => exact hlanes
  | g i =>
    simp only [apply]
    split
    · exact ⟨_, rfl⟩
    · exact crun_write ..

theorem crun_pc_writeLink (o : BOp) (s : State) : (writeLink o s).crun.pc = s.crun.pc := by
  obtain ⟨ts, h⟩ := crun_apply s o.gd o.link .n64 fun _ => (nextPC s.crun.pc).toNat
  rw [writeLink, h]

/-! ### The instructions -/

section
variable {o : BOp} {s s1 : State}

theorem execBr_ready (h : Issues (.br o) s s1) : execBr o s =
    .next (s1.endRun (splitAt s1 (s1.active o.gd) fun _ => directTarget s1.crun.pc o) none .no) := by
  rw [← advance_goTo rfl]
  exact issueWith_ok h rfl

theorem execBraAny_ready (h : Issues (.braAny o) s s1) : execBraAny o s = .next (if s1.active o.gd = [] then goesOn (.braAny o) s1
    else s1.endRun (splitAt s1 (positions s1.entry.mask) fun _ => directTarget s1.crun.pc o) none .no) := by
  rw [execBraAny, issueWith_ok h rfl]
  by_cases hact : s1.active o.gd = []
  · simp [hact]
  · simp only [List.isEmpty_iff, hact, if_false, advance_goTo (rfl : s1.crun.pc = _), entryLanes]

theorem execBraAll_ready (h : Issues (.braAll o) s s1) : execBraAll o s = .next (if s1.active o.gd = positions s1.entry.mask
    then s1.endRun (splitAt s1 (positions s1.entry.mask) fun _ => directTarget s1.crun.pc o) none .no else goesOn (.braAll o) s1) := by
  rw [execBraAll, issueWith_ok h rfl]
  by_cases hall : s1.active o.gd = positions s1.entry.mask
  · simp only [entryLanes, hall, if_true, advance_goTo (rfl : s1.crun.pc = _)]
  · simp only [entryLanes, hall, if_false]

theorem execBrx_ready (h : Issues (.brx o) s s1) (hc : s1.targetsCheck false ((s1.active o.gd).map (targetAt o s1)) = .ok ()) :
    execBrx o s = .next (s1.endRun (splitAt s1 (s1.active o.gd) (targetAt o s1)) none .no) := by
  rw [← advance_goTo rfl]
  exact issueWith_checked h hc

theorem execCall_ready (h : Issues (.call o) s s1) : execCall o s =
    .next ((writeLink o s1).endRun (splitAt s1 (s1.active o.gd) fun _ => directTarget s1.crun.pc o) none .no) := by
  rw [← advance_goTo (crun_pc_writeLink o s1)]
  exact issueWith_ok h rfl

theorem execCalli_ready (h : Issues (.calli o) s s1) (hc : s1.targetsCheck true ((s1.active o.gd).map (targetAt o s1)) = .ok ()) :
    execCalli o s = .next ((writeLink o s1).endRun (splitAt s1 (s1.active o.gd) (targetAt o s1)) none .no) := by
  rw [← advance_goTo (crun_pc_writeLink o s1)]
  exact issueWith_checked h hc

theorem execRet_ready (h : Issues (.ret o) s s1) (hc : s1.targetsCheck false ((s1.active o.gd).map (targetAt o s1)) = .ok ()) :
    execRet o s = .next (s1.endRun (splitAt s1 (s1.active o.gd) (targetAt o s1)) none .no) := by
  rw [← advance_goTo rfl]
  exact issueWith_checked h hc

theorem execPrio_ready (h : Issues (.prio o) s s1) : execPrio o s =
    .next (s1.endRun (fun _ => some (nextPC s1.crun.pc)) (some o.prio) .no) := by
  rw [execPrio, issueWith_ok h rfl]
  rfl

end
end Sys2Proof.Machine

open Sys2Proof.Machine Sys2Proof.Machine.State

/-- Settles O17: each instruction ends the run with the lanes it names at their targets; the link of a call leaves the run's PC. -/
theorem branchesAndCallsContinue : Obligations.BranchesAndCallsContinue := by
  unfold Obligations.BranchesAndCallsContinue
  intro o s s1
  exact ⟨execBr_ready, execBraAny_ready, execBraAll_ready, execBrx_ready, execCall_ready, execCalli_ready, execRet_ready, execPrio_ready⟩
end

section
/-! SUPPORT. `exit`, the regroup meetings and `trail` (R142-R144): the registers that `trail` leaves empty are among those it names (log 23). -/
namespace Sys2Proof.Machine
open Sys2Proof State

/-! ### Empty registers -/

/-- Emptying or filling a register leaves every other one as it was. -/
theorem isEmpty_setEmpty_ne (g : Group) (b : Bool) {x y : Reg} (h : x ≠ y) : (g.setEmpty b y).isEmpty x = g.isEmpty x := by
  cases x with
  | v j => cases y with
    | g i => rfl
    | v i =>
      have hij : j ≠ i := fun hji => h (congrArg Reg.v hji)
      by_cases hj : j < 256
      · simp only [Group.setEmpty, Group.isEmpty, getLsbD_setBit _ _ _ _ hj, hij, if_false]
      · simp only [Group.setEmpty, Group.isEmpty, BitVec.getLsbD_of_ge _ _ (Nat.le_of_not_lt hj)]
  | g j => cases y with
    | v i => rfl
    | g i =>
      have hij : j ≠ i := fun hji => h (congrArg Reg.g hji)
      by_cases hj : j < 96
      · simp only [Group.setEmpty, Group.isEmpty, getLsbD_setBit _ _ _ _ hj, hij, if_false]
      · simp only [Group.setEmpty, Group.isEmpty, BitVec.getLsbD_of_ge _ _ (Nat.le_of_not_lt hj)]

theorem inRange_of_isEmpty {g : Group} {x : Reg} (h : g.isEmpty x = true) : x.inRange := by
  cases x with
  | v j => exact BitVec.lt_of_getLsbD h
  | g j => exact BitVec.lt_of_getLsbD h

/-- Emptying a register fills none. -/
theorem isEmpty_setEmpty_true (g : Group) (y : Reg) {x : Reg} (h : g.isEmpty x = true) : (g.setEmpty true y).isEmpty x = true := by
  by_cases hxy : x = y
  · exact hxy ▸ isEmpty_setEmpty_same g true (inRange_of_isEmpty h)
  · rw [isEmpty_setEmpty_ne g true hxy, h]

/-- A change of the acting group that keeps its full bits. -/
theorem isEmpty_modCg {s : State} {f : Group → Group} (hv : (f s.cg).vEmpty = s.cg.vEmpty) (hg : (f s.cg).gEmpty = s.cg.gEmpty) (x : Reg) :
    (s.modCg f).cg.isEmpty x = s.cg.isEmpty x := by
  rw [cg_modCg]
  cases x with
  | v j => exact congrArg (·.getLsbD j) hv
  | g j => exact congrArg (·.getLsbD j) hg

theorem isEmpty_modRun (s : State) (f : Run → Run) (x : Reg) : (s.modRun f).cg.isEmpty x = s.cg.isEmpty x := isEmpty_modCg rfl rfl x

theorem isEmpty_endRun (s : State) (cont : Nat → Option (BitVec 64)) (prio : Option (BitVec 6)) (st : Wait) (x : Reg) :
    (s.endRun cont prio st).cg.isEmpty x = s.cg.isEmpty x := by
  rw [endRun_entries, isEmpty_modCg rfl rfl]

/-- The registers `l` of a group become empty. -/
def emptyRegs (l : List Reg) (g : Group) : Group := l.foldl (fun g x => g.setEmpty true x) g

theorem isEmpty_emptyRegs_of_not_mem {l : List Reg} {x : Reg} (h : x ∉ l) (g : Group) : (emptyRegs l g).isEmpty x = g.isEmpty x := by
  induction l generalizing g with
  | nil => rfl
  | cons y r ih =>
    obtain ⟨hxy, hr⟩ := List.ne_and_not_mem_of_not_mem_cons h
    exact (ih hr _).trans (isEmpty_setEmpty_ne g true hxy)

theorem isEmpty_emptyRegs_true (l : List Reg) {g : Group} {x : Reg} (h : g.isEmpty x = true) : (emptyRegs l g).isEmpty x = true :=
  foldl_keeps (P := fun g : Group => g.isEmpty x = true) (fun g y => isEmpty_setEmpty_true g y) l h

/-- Of what is empty, a producer that awaits no predicate changes that its registers become so (R38). -/
theorem isEmpty_produce (s : State) {p : Producer} (hp : p.pred = none) (x : Reg) :
    (s.produce p).cg.isEmpty x = (emptyRegs p.regs { s.cg with outs := s.cg.outs ++ [p] }).isEmpty x := by
  rw [produce, isEmpty_modRun, cg_modCg, hp]
  rfl

theorem isEmpty_produce_of_not_mem (s : State) {p : Producer} (hp : p.pred = none) {x : Reg} (h : x ∉ p.regs) :
    (s.produce p).cg.isEmpty x = s.cg.isEmpty x := by
  rw [isEmpty_produce s hp, isEmpty_emptyRegs_of_not_mem h]
  cases x <;> rfl

theorem isEmpty_produce_true {s : State} {p : Producer} (hp : p.pred = none) {x : Reg} (h : s.cg.isEmpty x = true) :
    (s.produce p).cg.isEmpty x = true := by
  rw [isEmpty_produce s hp]
  refine isEmpty_emptyRegs_true _ ?_
  cases x <;> exact h

/-! ### The registers that `trail` leaves empty -/

/-- Of the registers that `trail` names, those not yet written (log 23). -/
def lateRegs (rs : List Reg) (s : State) : List Reg :=
  (rs.zipIdx.filter fun r => !s.cg.isEmpty r.1 && Config.freeBool (s.fresh + r.2)).map Prod.fst
/-- The producer that will fill them. -/
def lateProducer (rs : List Reg) (s : State) : Producer := { writes := [], regs := lateRegs rs s, pred := none, fault := none, ckpt := none }
/-- The state in which `trail` ends its run. -/
def trailMarks (rs : List Reg) (s : State) : State :=
  let s' := { s with fresh := s.fresh + rs.length }
  if (lateRegs rs s).isEmpty then s' else s'.produce (lateProducer rs s)

theorem mem_of_mem_lateRegs {rs : List Reg} {s : State} {x : Reg} (h : x ∈ lateRegs rs s) : x ∈ rs := by
  obtain ⟨⟨y, k⟩, hy, rfl⟩ := List.mem_map.mp h
  exact (List.mem_zipIdx' (List.mem_filter.mp hy).1).2 ▸ List.getElem_mem _

theorem isEmpty_trailMarks_of_not_mem {rs : List Reg} {x : Reg} (h : x ∉ rs) (s : State) :
    (trailMarks rs s).cg.isEmpty x = s.cg.isEmpty x := by
  have hlate : x ∉ lateRegs rs s := fun hx => h (mem_of_mem_lateRegs hx)
  unfold trailMarks
  dsimp only
  split
  · rfl
  · exact isEmpty_produce_of_not_mem _ rfl hlate

theorem isEmpty_trailMarks_true (rs : List Reg) {s : State} {x : Reg} (h : s.cg.isEmpty x = true) :
    (trailMarks rs s).cg.isEmpty x = true := by
  unfold trailMarks
  dsimp only
  split
  · exact h
  · exact isEmpty_produce_true rfl h

/-! ### The instructions -/

section
variable {o : BOp} {s s1 : State}

theorem execExit_ready (h : Issues (.exit o) s s1) : execExit o s = .next
    (s1.endRun (fun p => if p ∈ s1.active o.gd then none else some (nextPC s1.crun.pc)) none .no).handlerMeeting := by
  rw [execExit, issueWith_ok h rfl]
  simp only [List.contains_iff_mem]
  rfl

theorem execRegroup_active (h : Issues (.regroup o) s s1) (hact : s1.active o.gd ≠ []) : execRegroup o s =
    .next (s1.endRun (fun _ => some (nextPC s1.crun.pc)) none .regroup) := by
  rw [execRegroup, issueWith_ok h rfl]
  simp only [List.isEmpty_iff, hact, if_false]
  rfl

theorem execRegroupRestore_active (h : Issues (.regroupRestore o) s s1) (hact : s1.active o.gd ≠ []) : execRegroupRestore o s =
    .next (s1.endRun (fun _ => some (nextPC s1.crun.pc)) none .restore) := by
  rw [execRegroupRestore, issueWith_ok h rfl]
  simp only [List.isEmpty_iff, hact, if_false]
  rfl

theorem execTrail_names {rs : List Reg} (h : Issues (.trail o) s s1) (hrs : trailRegs o s1 = some rs) : execTrail o s =
    .next (((trailMarks rs s1).endRun (fun _ => some (nextPC s1.crun.pc)) none .no).modCg fun g => { g with settled := true }) :=
  issueWith_ok (a := .done) h (by rw [hrs]; rfl)

end

/-- `trail` leaves a register empty where it names it or it is empty already. -/
theorem execTrail_spec {o : BOp} {s s1 : State} {rs : List Reg} (h : Issues (.trail o) s s1) (hrs : trailRegs o s1 = some rs) :
    ∃ t, execTrail o s = .next t ∧ t.cg.run = none ∧ t.cg.settled = true ∧ (∀ r, r ∉ rs → t.cg.isEmpty r = s1.cg.isEmpty r)
      ∧ ∀ r, s1.cg.isEmpty r = true → t.cg.isEmpty r = true := by
  refine ⟨_, execTrail_names h hrs, ?_, ?_, fun r hr => ?_, fun r hr => ?_⟩
  · rw [cg_modCg, endRun_entries, cg_modCg]
  · rw [cg_modCg]
  · rw [isEmpty_modCg rfl rfl, isEmpty_endRun, isEmpty_trailMarks_of_not_mem hr]
  · rw [isEmpty_modCg rfl rfl, isEmpty_endRun, isEmpty_trailMarks_true rs hr]

end Sys2Proof.Machine

open Sys2Proof.Machine

/-- Settles O19, by how each of the four ends its run. -/
theorem exitRegroupTrailComplete : Obligations.ExitRegroupTrailComplete := by
  unfold Obligations.ExitRegroupTrailComplete
  exact ⟨fun _ _ _ => execExit_ready, fun _ _ _ => execRegroup_active, fun _ _ _ => execRegroupRestore_active, fun _ _ _ _ => execTrail_spec⟩
end

section
/-! SUPPORT. The accesses to system registers (R145, R146, R205). -/
namespace Sys2Proof.Machine
open Sys2Proof State

section
variable {o : SOp} {s s1 : State}

theorem execMfsys_ready (h : Issues (.mfsys o) s s1) : execMfsys o s = .next (goesOn (.mfsys o)
    (if s1.active o.gd = [] then s1 else s1.writeG o.dest (sysRead o.gd o.sysreg.toNat o.imm.toNat s1))) := by
  rw [execMfsys, issueOk_ready h]
  simp only [List.isEmpty_iff]

theorem execMtsys_idle (h : Issues (.mtsys o) s s1) (hact : s1.active o.gd = []) : execMtsys o s = .next (goesOn (.mtsys o) s1) :=
  issue_ok h (by simp only [hact, List.isEmpty_nil, if_true]; rfl)

theorem execMtsys_writable (h : Issues (.mtsys o) s s1) (hact : s1.active o.gd ≠ []) (hw : sysWritable o.sysreg.toNat s1 = true) :
    execMtsys o s = .next (goesOn (.mtsys o) (sysWrite o.gd o.sysreg.toNat (s1.gsrc o.a) s1)) :=
  issue_ok h (by simp only [List.isEmpty_iff, hact, if_false, require_of hw]; rfl)

end

theorem sysWritable_iff {r : BitVec 12} {s : State} :
    sysWritable r.toNat s = true ↔ r = 0x400 ∨ (r = 0x002 ∧ s.cg.handler = true) := by
  simp [sysWritable, ← BitVec.toNat_inj]

theorem sysWrite_eq (gd : Guard) (r : BitVec 12) (v : BitVec 64) (s : State) : sysWrite gd r.toNat v s =
    if r = 0x002 then s.modCg fun g => { g with trappc := v }
    else (keyGroups gd s).foldl (fun t i => t.modGroup ⟨t.cur.cell, i⟩ fun g => { g with rndkey := v }) s := by
  simp [sysWrite, ← BitVec.toNat_inj]

theorem crun_writeG (s : State) (d : Dst) (x : BitVec 64) : (s.writeG d x).crun = s.crun := by
  cases d with
  | g i => exact crun_modCg fun _ => rfl
  | v i => rfl
  | t i => rfl

/-- A read of TRAPCAUSE to g0 in every lane. -/
def readTrapcause : SOp := ⟨⟨0, false⟩, 0, .g 0, .v 0 false, 0x001, 0⟩

end Sys2Proof.Machine

open Sys2Proof Sys2Proof.Machine Sys2Proof.Machine.State

/-- Settles O60, by whether a lane is active and, with one, whether the register may be written. -/
theorem systemRegisterInstructionsComplete : Obligations.SystemRegisterInstructionsComplete := by
  unfold Obligations.SystemRegisterInstructionsComplete
  refine ⟨fun _ _ _ => execMfsys_ready, fun o s s1 h hmay => ?_⟩
  by_cases hact : s1.active o.gd = []
  · rw [if_pos hact]
    exact execMtsys_idle h hact
  · rw [if_neg hact]
    have hw : sysWritable o.sysreg.toNat s1 = true := sysWritable_iff.mpr (hmay.resolve_left hact)
    exact (execMtsys_writable h hact hw).trans (by rw [sysWrite_eq]; rfl)

/-- Refutes O20, as O1, by an `mfsys` that reads TRAPCAUSE: its frame keeps the run's mark that the present instruction has been counted, and
in `justCounted` the run goes on to the next slot, where the mark is clear (R313). -/
theorem not_systemRegisterAccess : ¬ Obligations.SystemRegisterAccess := by
  unfold Obligations.SystemRegisterAccess
  rintro ⟨hread, -⟩
  have hissues : Issues (.mfsys readTrapcause) justCounted justCounted := ⟨by decide +kernel, rfl⟩
  have hact : justCounted.active readTrapcause.gd ≠ [] := by decide +kernel
  obtain ⟨t, ht, -, -, -, -, -, -, -, -, -, -, -, -, -, -, -, -, -, -, -, hframe⟩ :=
    hread readTrapcause justCounted justCounted 0 (by decide +kernel) hissues rfl hact
  obtain rfl : goesOn (.mfsys readTrapcause) _ = t := Host.Outcome.next.inj ((execMfsys_ready hissues).symm.trans ht)
  rw [if_neg hact] at hframe
  exact not_runFrame_goesOn (congrArg Run.last (crun_writeG ..)) rfl hframe.run
end

section
/-! SUPPORT. The scratchpad and the lane store (R164, R165): the checks that come first, lane by lane, and what each access does once they
pass. -/
namespace Sys2Proof.Machine
open Sys2Proof State

/-- The access of `n` bytes at `a` lies on its multiple and within the space (R164, R165). -/
def FitsIn (size n a : Nat) : Prop := a % n = 0 ∧ a + n ≤ size

theorem privCheck_ok {size n a : Nat} (h : FitsIn size n a) (p : Nat) : privCheck size n a p = .ok () := by
  obtain ⟨halign, hend⟩ := h
  simp only [privCheck, halign, Nat.not_lt.mpr hend, ne_eq, not_true, if_false]

theorem privCheck_misaligned {size n a : Nat} (h : a % n ≠ 0) (p : Nat) :
    privCheck size n a p = .error { code := fAlign, addr := BitVec.ofNat 64 a, lane := p } := if_pos h

theorem privCheck_outside {size n a : Nat} (halign : a % n = 0) (hend : size < a + n) (p : Nat) :
    privCheck size n a p = .error { code := fProt, sub := 4, addr := BitVec.ofNat 64 a, lane := p } :=
  (if_neg (not_not_intro halign)).trans (if_pos hend)

section
variable {f : Nat → Except Raise Unit}

theorem forM_ok {ps : List Nat} (h : ∀ p ∈ ps, f p = .ok ()) : ps.forM f = .ok () := by
  induction ps with
  | nil => rfl
  | cons p r ih =>
    obtain ⟨hp, hr⟩ := List.forall_mem_cons.mp h
    show (f p >>= fun _ => r.forM f) = .ok ()
    rw [hp]
    exact ih hr

/-- The lowest lane whose check fails decides. -/
theorem forM_error {ps qs : List Nat} {p : Nat} {y : Raise} (h : ∀ q ∈ ps, f q = .ok ()) (hp : f p = .error y) :
    (ps ++ p :: qs).forM f = .error y := by
  induction ps with
  | nil =>
    show (f p >>= fun _ => qs.forM f) = .error y
    rw [hp]
    rfl
  | cons q r ih =>
    obtain ⟨hq, hr⟩ := List.forall_mem_cons.mp h
    show (f q >>= fun _ => (r ++ p :: qs).forM f) = .error y
    rw [hq]
    exact ih hr

end

section
variable {o : MOp} {s s1 : State}

/-- The lane store after every active lane's bytes, lanes in increasing order (R174). -/
def storeLanes (o : MOp) (s : State) : State :=
  let ws := (s.active o.gd).map fun p => (lsAddr (s.clOf p) (addrOf o s p), leBytes (o.ty.width / 8) (storeValue o s p))
  s.modCc fun c => { c with lstore := ws.foldl (fun m x => Map.setBytes m x.1 x.2) c.lstore }

theorem crun_storeLanes (o : MOp) (s : State) : (storeLanes o s).crun = s.crun := crun_modCc fun _ => rfl

theorem execLdl_ready (h : Issues (.ldl o) s s1) (hin : ∀ p ∈ s1.active o.gd, FitsIn s1.cc.lstoreSz (o.ty.width / 8) (addrOf o s1 p)) :
    execLdl o s = .next (goesOn (.ldl o) (finishLoad o.data (memTy o.ty) 0 ((s1.active o.gd).flatMap fun p => s1.lateWrite o.data (memTy o.ty)
      (leNat (Map.bytes s1.cc.lstore (lsAddr (s1.clOf p) (addrOf o s1 p)) (o.ty.width / 8))) p) none s1)) :=
  issue_ok h (by rw [ldlEffect, forM_ok fun p hp => privCheck_ok (hin p hp) p]; rfl)

theorem execStl_ready (h : Issues (.stl o) s s1) (hin : ∀ p ∈ s1.active o.gd, FitsIn s1.cc.lstoreSz (o.ty.width / 8) (addrOf o s1 p)) :
    execStl o s = .next (goesOn (.stl o) (storeLanes o s1)) :=
  issue_ok h (by rw [stlEffect, forM_ok fun p hp => privCheck_ok (hin p hp) p]; rfl)

end

/-- A producer as it starts adds to what the run awaits; it does not change where the run ends. -/
theorem crun_last_produce (s : State) (p : Producer) : (s.produce p).crun.last = s.crun.last := by
  have hregs : ∀ g : Group, (p.regs.foldl (fun g r => g.setEmpty true r) g).run = g.run := fun g =>
    foldl_keeps (P := fun g' : Group => g'.run = g.run) (fun g' r hg => by cases r <;> exact hg) _ rfl
  rw [produce, crun_modRun]
  dsimp only
  rw [crun_modCg]
  intro g
  split
  · split
    · exact hregs _
    · exact hregs _
  · exact hregs _

/-- `justCounted` with one word of lane store, which every lane accesses. -/
def countedWithStore : State := justCounted.modCc fun c => { c with lstoreSz := 4 }
def wordZero : MOp := ⟨⟨0, false⟩, 0, .i32, .v 0, .imm 0, none, .plain, .rlx, 0, 0, 0, 0⟩

theorem wordZero_fits : ∀ p ∈ countedWithStore.active wordZero.gd,
    FitsIn countedWithStore.cc.lstoreSz (wordZero.ty.width / 8) (addrOf wordZero countedWithStore p) := by
  unfold FitsIn
  decide +kernel

end Sys2Proof.Machine

open Sys2Proof Sys2Proof.Machine Sys2Proof.Machine.State

/-- Refutes O8, as O1, by an `ldl`: the frame keeps the run's mark that the present instruction has been counted. In `countedWithStore` the run
goes on to the next slot, and the mark is clear there (R313). -/
theorem not_scratchpadAndLaneStoreLoads : ¬ Obligations.ScratchpadAndLaneStoreLoads := by
  unfold Obligations.ScratchpadAndLaneStoreLoads
  intro h
  have hissues : Issues (.ldl wordZero) countedWithStore countedWithStore := ⟨by decide +kernel, rfl⟩
  obtain ⟨t, ht, -, hframe⟩ := h true wordZero countedWithStore countedWithStore (by decide +kernel) hissues wordZero_fits
  obtain rfl := Host.Outcome.next.inj ((execLdl_ready hissues wordZero_fits).symm.trans ht)
  exact not_runFrame_goesOn (crun_last_produce ..) rfl hframe.run

/-- Refutes O9, as O8, by an `stl`: its frame keeps the counted mark as well. -/
theorem not_scratchpadAndLaneStoreStores : ¬ Obligations.ScratchpadAndLaneStoreStores := by
  unfold Obligations.ScratchpadAndLaneStoreStores
  rintro ⟨hrelaxed, -⟩
  have hissues : Issues (.stl wordZero) countedWithStore countedWithStore := ⟨by decide +kernel, rfl⟩
  obtain ⟨t, ht, -, -, -, -, hframe⟩ :=
    hrelaxed true wordZero countedWithStore countedWithStore (by decide +kernel) hissues rfl wordZero_fits
  obtain rfl := Host.Outcome.next.inj ((execStl_ready hissues wordZero_fits).symm.trans ht)
  exact not_runFrame_goesOn (congrArg Run.last (crun_storeLanes ..)) rfl hframe
end

section
/-! SUPPORT. The checks of R157 over the lanes of an access, the lowest lane that fails deciding, and ALIGN of a misaligned access. -/
namespace Sys2Proof.Machine
open Sys2Proof Rules State

/-! ### The checks over lanes -/

/-- What the fault `y` of a lane at `addr` is raised as (R157). -/
def laneFault (addr p : Nat) (y : Raise) : Raise := if y.hold then y else { y with addr := BitVec.ofNat 64 addr, lane := p }

/-- Lanes that pass their checks do so before a later one fails. -/
theorem checkLanes_error {w : Who} {a : Acc} {l : List (Nat × Nat × List (Nat × Nat))} {s s2 : State} {ls : List LaneAcc}
    (h : checkLanes w a l s = .ok (s2, ls)) {ps : List (Nat × Nat)} {y : Raise} (hp : checkPieces s2 w a ps = .error y) (p addr : Nat)
    (r : List (Nat × Nat × List (Nat × Nat))) : checkLanes w a (l ++ (p, addr, ps) :: r) s = .error (laneFault addr p y) := by
  induction l generalizing s ls with
  | nil =>
    obtain ⟨rfl, -⟩ : s = s2 ∧ [] = ls := by simpa [checkLanes] using h
    simp only [List.nil_append, checkLanes, hp, laneFault]
  | cons x l ih =>
    obtain ⟨q, addr', qs⟩ := x
    rw [checkLanes] at h
    rw [List.cons_append, checkLanes]
    cases hq : checkPieces s w a qs with
    | error z => simp only [hq, reduceCtorEq] at h
    | ok z =>
      obtain ⟨s', l'⟩ := z
      simp only [hq] at h ⊢
      cases hr : checkLanes w a l s' with
      | error z => simp only [hr, bind, Except.bind, reduceCtorEq] at h
      | ok z =>
        obtain ⟨s'', ls'⟩ := z
        simp only [hr, bind, Except.bind, pure, Except.pure, Except.ok.injEq, Prod.mk.injEq] at h
        obtain ⟨rfl, -⟩ := h
        simp only [ih hr, bind, Except.bind]

/-! ### Misaligned accesses -/

/-- ALIGN of the lane at position `p`. -/
def misaligned (o : MOp) (s : State) (p : Nat) : Raise := { code := fAlign, addr := BitVec.ofNat 64 (addrOf o s p), lane := p }

theorem checkPieces_misaligned {va n : Nat} (h : va % n ≠ 0) (s : State) (w : Who) (a : Acc) :
    checkPieces s w a [(va, n)] = .error { code := fAlign, addr := BitVec.ofNat 64 va } := by
  simp only [checkPieces, checkOne, h, ne_eq, not_false_eq_true, if_true]
  rfl

theorem checkLanes_misaligned {w : Who} {a : Acc} {o : MOp} {n p : Nat} {ps : List Nat} {s1 s2 : State} {ls : List LaneAcc}
    (h : checkLanes w a (globalLanes o n s1 ps) s1 = .ok (s2, ls)) (hp : addrOf o s1 p % n ≠ 0) (qs : List Nat) :
    checkLanes w a (globalLanes o n s1 (ps ++ p :: qs)) s1 = .error (misaligned o s1 p) := by
  rw [globalLanes, List.map_append, List.map_cons]
  exact checkLanes_error h (checkPieces_misaligned hp s2 w a) p _ _

section
variable {o : MOp} {s1 : State} {size p : Nat} {ps qs : List Nat}

/-- An access to scratchpad or lane store: the lower lanes fit their space, and the lane at `p` is misaligned (R164, R165). -/
theorem forM_privCheck_misaligned {n : Nat} (hin : ∀ q ∈ ps, FitsIn size n (addrOf o s1 q)) (hp : addrOf o s1 p % n ≠ 0) :
    (ps ++ p :: qs).forM (fun p => privCheck size n (addrOf o s1 p) p) = .error (misaligned o s1 p) :=
  forM_error (fun q hq => privCheck_ok (hin q hq) q) (privCheck_misaligned hp p)

/-- PROT of an access that leaves the scratchpad or the lane store, TRAPADDR its offset (R164, R165). -/
def outside (o : MOp) (s : State) (p : Nat) : Raise := { code := fProt, sub := 4, addr := BitVec.ofNat 64 (addrOf o s p), lane := p }

theorem forM_privCheck_outside {n : Nat} (hin : ∀ q ∈ ps, FitsIn size n (addrOf o s1 q)) (hp : addrOf o s1 p % n = 0)
    (hend : size < addrOf o s1 p + n) : (ps ++ p :: qs).forM (fun p => privCheck size n (addrOf o s1 p) p) = .error (outside o s1 p) :=
  forM_error (fun q hq => privCheck_ok (hin q hq) q) (privCheck_outside hp hend p)

end

/-- A misaligned lane of per-thread memory, every lower one in order (R166). -/
theorem laneList_misaligned {w : Who} {a : Acc} {o : MOp} {p : Nat} {ps : List Nat} {s1 s2 : State} {ls : List LaneAcc} (hv : o.variant = 1)
    (hin : ∀ q ∈ ps, FitsIn 65536 (o.ty.width / 8) (addrOf o s1 q))
    (h : checkLanes w a (ps.map (ptAcc o (o.ty.width / 8) s1)) s1 = .ok (s2, ls)) (hp : addrOf o s1 p % (o.ty.width / 8) ≠ 0) (qs : List Nat) :
    laneList w a o s1 (ps ++ p :: qs) = .error (misaligned o s1 p) := by
  have hlow : ∀ q ∈ ps, ptFault o (o.ty.width / 8) s1 q = none := fun q hq => by
    obtain ⟨halign, hend⟩ := hin q hq
    simp only [ptFault, halign, Nat.not_lt.mpr hend, ne_eq, not_true, if_false]
  have hfault : ptFault o (o.ty.width / 8) s1 p = some (misaligned o s1 p) := if_pos hp
  have hlanes : ptLanes o (o.ty.width / 8) s1 (ps ++ p :: qs) = .error (misaligned o s1 p) := by
    simp only [ptLanes, List.findSome?_append, List.findSome?_eq_none_iff.mpr hlow, Option.none_or, List.findSome?_cons, hfault]
  have htake : (ps ++ p :: qs).takeWhile (fun p => (ptFault o (o.ty.width / 8) s1 p).isNone) = ps := by
    rw [List.takeWhile_append_of_pos fun q hq => by rw [hlow q hq]; rfl, List.takeWhile_cons, hfault]
    simp
  simp only [laneList, hv, if_true, hlanes, htake, h]
  rfl

/-! ### The instructions -/

/-- `i` accesses a scratchpad or lane store of `size` bytes in the lanes `ps` (R164, R165). -/
def AccessesLocal (i : Instr) (o : MOp) (s : State) (ps : List Nat) (size : Nat) : Prop :=
  i = .lds o ∧ ps = accessLanes o.gd o.data.isG s ∧ size = s.cc.scratchSz ∨ i = .sts o ∧ ps = s.active o.gd ∧ size = s.cc.scratchSz
  ∨ (i = .ldl o ∨ i = .stl o) ∧ ps = s.active o.gd ∧ size = s.cc.lstoreSz

/-- The lanes of `ld` or `st` are listed, and then checked (R157, R166). -/
def lanesChecked (w : Who) (a : Acc) (o : MOp) (s : State) (ps : List Nat) : Except Raise (State × List LaneAcc) :=
  laneList w a o s ps >>= fun l => checkLanes w a l s

section
variable {o : MOp} {s s1 : State} {x : Raise} {a : Acc}

theorem lanesChecked_global (hv : o.variant ≠ 1) (w : Who) (a : Acc) (s : State) (ps : List Nat) :
    lanesChecked w a o s ps = checkLanes w a (globalLanes o (o.ty.width / 8) s ps) s := by
  simp only [lanesChecked, laneList, hv, if_false, bind, Except.bind]

theorem ldEffect_error (ha : globalAcc s1 (.ld o) = some (o, a))
    (hc : lanesChecked (s1.whoOf s1.cur.cell) a o s1 (accessLanes o.gd o.data.isG s1) = .error x) : ldEffect o s1 = .error x := by
  cases ha
  rw [ldEffect, ← bind_assoc]
  exact congrArg (· >>= _) hc

theorem exec_local_raise {i : Instr} {ps : List Nat} {size : Nat} (h : Issues i s s1) (hi : AccessesLocal i o s1 ps size)
    (hc : ps.forM (fun p => privCheck size (o.ty.width / 8) (addrOf o s1 p) p) = .error x) (hx : x.hold = false) :
    exec i s = .next (s.raise x) := by
  rcases hi with ⟨rfl, rfl, rfl⟩ | ⟨rfl, rfl, rfl⟩ | ⟨rfl | rfl, rfl, rfl⟩
  · exact issue_raise h (by rw [ldsEffect, hc]; rfl) hx
  · exact issue_raise h (by rw [stsEffect, hc]; rfl) hx
  · exact issue_raise h (by rw [ldlEffect, hc]; rfl) hx
  · exact issue_raise h (by rw [stlEffect, hc]; rfl) hx

/-- Outside a world, and with any scope but `.rcv`, nothing is refused before the lanes are looked at (R170, R359). -/
theorem rcvCheck_ok (h : refuses s1 = false ∨ o.scope ≠ .rcv) (addr : Nat) : rcvCheck o s1 addr = .ok () := by
  rcases h with h | h <;> simp [rcvCheck, h]

theorem stEffect_error (hrcv : refuses s1 = false ∨ o.scope ≠ .rcv) (ha : globalAcc s1 (.st o) = some (o, a))
    (hc : lanesChecked (s1.whoOf s1.cur.cell) a o s1 (s1.active o.gd) = .error x) : stEffect o s1 = .error x := by
  cases ha
  rw [stEffect, rcvCheck_ok hrcv]
  show laneList _ _ _ _ _ >>= _ = _
  rw [← bind_assoc]
  exact congrArg (· >>= _) hc

/-- Every lane of the access is checked before any acts: the fault of one is what the instruction raises (R157). -/
theorem exec_global_raise {i : Instr} {ps : List Nat} (h : Issues i s s1) (ha : globalAcc s1 i = some (o, a))
    (hv : o.variant = 1 → i ≠ .ld o ∧ i ≠ .st o) (hrcv : i = .st o → refuses s1 = false ∨ o.scope ≠ .rcv)
    (hps : (if i = .ld o ∨ i = .ldc o then accessLanes o.gd o.data.isG s1 else s1.active o.gd) = ps)
    (hc : checkLanes (s1.whoOf s1.cur.cell) a (globalLanes o a.n s1 ps) s1 = .error x) (hx : x.hold = false) :
    exec i s = .next (s.raise x) := by
  cases i with
  | ld o' =>
    cases ha
    have hglobal : o.variant ≠ 1 := fun hone => (hv hone).1 rfl
    simp only [true_or, if_true] at hps
    subst hps
    exact issue_raise h (ldEffect_error rfl ((lanesChecked_global hglobal ..).trans hc)) hx
  | st o' =>
    cases ha
    have hglobal : o.variant ≠ 1 := fun hone => (hv hone).2 rfl
    simp only [reduceCtorEq, or_self, if_false] at hps
    subst hps
    exact issue_raise h (stEffect_error (hrcv rfl) rfl ((lanesChecked_global hglobal ..).trans hc)) hx
  | ldc o' =>
    cases ha
    simp only [or_true, if_true] at hps
    subst hps
    exact issue_raise h (congrArg (· >>= _) hc) hx
  | atom o' =>
    cases ha
    simp only [reduceCtorEq, or_self, if_false] at hps
    subst hps
    exact issue_raise h (congrArg (· >>= _) hc) hx
  | red o' =>
    cases ha
    simp only [reduceCtorEq, or_self, if_false] at hps
    subst hps
    exact issue_raise h (congrArg (· >>= _) hc) hx
  | _ => cases ha

end

end Sys2Proof.Machine

open Sys2Proof Sys2Proof.Machine Sys2Proof.Machine.State

/-- Settles O10: in each instruction the lanes' checks come first, and the lowest lane that fails its own decides. -/
theorem accessChecksRaise : Obligations.AccessChecksRaise := by
  unfold Obligations.AccessChecksRaise
  refine ⟨fun i o s s1 p ps qs hi h => ?_, fun i o a s s1 s2 ls p ps qs ha h hv hrcv hps hlow hp => ?_, ?_⟩
  · have hlocal : AccessesLocal i o s1 (ps ++ p :: qs) (if i = .ldl o ∨ i = .stl o then s1.cc.lstoreSz else s1.cc.scratchSz) := by
      unfold AccessesLocal
      rcases hi with ⟨rfl, hps⟩ | ⟨rfl | rfl | rfl, hps⟩ <;> simp [hps]
    intro n size hin
    exact ⟨fun hp => exec_local_raise h hlocal (forM_privCheck_misaligned hin hp) rfl,
      fun hp hend => exec_local_raise h hlocal (forM_privCheck_outside hin hp hend) rfl⟩
  · exact exec_global_raise h ha hv hrcv hps (checkLanes_misaligned hlow hp qs) rfl
  · intro store o s s1 s2 ls p ps qs i h hv hrcv hps a ha n hin hlow hp
    have hlanes := laneList_misaligned hv hin hlow hp qs
    cases store with
    | false =>
      refine issue_raise h (ldEffect_error ha ?_) rfl
      rw [lanesChecked, show accessLanes _ _ _ = _ from hps, hlanes]
      rfl
    | true =>
      refine issue_raise h (stEffect_error (hrcv rfl) ha ?_) rfl
      rw [lanesChecked, show s1.active _ = _ from hps, hlanes]
      rfl
end

section
/-! SUPPORT. `ld` and `ldc` whose lanes pass their checks (R157, R171, R172, R423). -/
namespace Sys2Proof.Machine
open Sys2Proof Rules State

theorem laneList_ok {o : MOp} {s : State} {ps : List Nat} {l : List (Nat × Nat × List (Nat × Nat))} (h : lanesOf o s ps l) (w : Who) (a : Acc) :
    laneList w a o s ps = .ok l := by
  unfold lanesOf at h
  unfold laneList
  split
  · next hv =>
    rw [if_pos hv] at h
    simp only [h]
  · next hv =>
    rw [if_neg hv] at h
    rw [h]

/-- There is landing space for the reply (R423). -/
theorem waitRoom_ok {n : Nat} {s : State} (h : landRoom s.ck n s = true) : waitRoom n s = .ok () := if_pos h

/-- Nothing is refused where a check that only a world makes finds no lane (R359). -/
theorem refused_eq_none {b : Bool} {p : LaneAcc → Bool} {ls : List LaneAcc} (h : b = true → ∀ x ∈ ls, p x = false) :
    (if b = true then ls.find? p else none) = none := by
  cases b with
  | false => rfl
  | true => simpa using h rfl

section
variable {o : MOp} {a : Acc} {s s1 s2 : State} {ls : List LaneAcc}

theorem execLd_ready {l : List (Nat × Nat × List (Nat × Nat))} (h : Issues (.ld o) s s1)
    (hl : lanesOf o s1 (accessLanes o.gd o.data.isG s1) l) (ha : globalAcc s1 (.ld o) = some (o, a))
    (hc : checkLanes (s1.whoOf s1.cur.cell) a l s1 = .ok (s2, ls)) (hio : refuses s2 = true → ∀ x ∈ ls, ioLane x = false) :
    let w := s1.whoOf s1.cur.cell
    let s3 := enterScope w o.scope ls s2
    let n := replyBytes (fun ln => !wide o.scope && (s3.l1Live w.k ln).isSome) ls
    landRoom s3.ck n s3 = true →
    let r := spreadFlag o ls (readLanes w o.hint.toNat o.scope o.data (memTy o.ty) o.res.toNat ls s3)
    let s4 := awaitReply n (finishLoad o.data (memTy o.ty) o.res.toNat r.2.1 r.2.2 r.1)
    execLd o s = .next (goesOn (.ld o) (if isAcq o.order then acquireFor w o.scope ls s4 else s4)) := by
  cases ha
  intro w s3 n hroom r s4
  have hwait := waitRoom_ok hroom
  simp only [n, s3, w] at hwait
  refine issue_ok h ?_
  simp only [ldEffect, laneList_ok hl, bind, Except.bind, hc, refused_eq_none hio, hwait]
  rfl

theorem execLdc_ready (h : Issues (.ldc o) s s1) (ha : globalAcc s1 (.ldc o) = some (o, a))
    (hc : checkLanes (s1.whoOf s1.cur.cell) a (globalLanes o a.n s1 (accessLanes o.gd o.data.isG s1)) s1 = .ok (s2, ls))
    (hio : ∀ x ∈ ls, ioLane x = false) :
    let w := s1.whoOf s1.cur.cell
    let n := replyBytes (fun ln => (Map.find ln (s2.studio w.k).ro).isSome) ls
    landRoom s2.ck n s2 = true →
    let r := spreadFlag o ls (ldcLanes w o.hint.toNat o.data (memTy o.ty) o.res.toNat a.n ls s2)
    execLdc o s = .next (goesOn (.ldc o) (awaitReply n (finishLoad o.data (memTy o.ty) o.res.toNat r.2.1 r.2.2 r.1))) := by
  cases ha
  intro w n hroom r
  have hwait := waitRoom_ok hroom
  simp only [n, w] at hwait
  refine issue_ok h ?_
  have hnone : ls.find? ioLane = none := by simpa using hio
  simp only [ldcEffect, bind, Except.bind, hc, hnone, hwait]
  rfl

end
end Sys2Proof.Machine

open Sys2Proof Sys2Proof.Machine Sys2Proof.Machine.State

/-- Settles O11: past the checks and the wait for landing space nothing stops either load. -/
theorem globalLoadsComplete : Obligations.GlobalLoadsComplete := by
  unfold Obligations.GlobalLoadsComplete
  exact ⟨fun _ _ _ _ _ _ _ h hl ha hc hio => execLd_ready h hl ha hc hio, fun _ _ _ _ _ _ h ha hc hio => execLdc_ready h ha hc hio⟩
end

section
/-! SUPPORT. `st`, `red` and `atom` whose lanes pass their checks (R157, R174-R176), in the base view, in a rival world (R359, R360) and in a
shadow copy (R370). -/
namespace Sys2Proof.Machine
open Sys2Proof Rules State

/-! ### Lane after lane -/

theorem foldlM_total {σ β ε : Type} {f : σ → β → Except ε σ} (hf : ∀ s x, ∃ t, f s x = .ok t) (l : List β) (s : σ) :
    ∃ t, l.foldlM f s = .ok t := by
  induction l generalizing s with
  | nil => exact ⟨s, rfl⟩
  | cons x r ih =>
    obtain ⟨t, ht⟩ := hf s x
    obtain ⟨u, hu⟩ := ih t
    exact ⟨u, by rw [List.foldlM_cons, ht]; exact hu⟩

/-- Turns that succeed while `P` holds of what is left, and keep it. -/
theorem foldlM_eq_foldl {σ β ε : Type} {f : σ → β → Except ε σ} {g : σ → β → σ} {P : List β → σ → Prop}
    (hf : ∀ x r s, P (x :: r) s → f s x = .ok (g s x) ∧ P r (g s x)) {l : List β} {s : σ} (h : P l s) : l.foldlM f s = .ok (l.foldl g s) := by
  induction l generalizing s with
  | nil => rfl
  | cons x r ih =>
    obtain ⟨hx, hr⟩ := hf x r s h
    rw [List.foldlM_cons, hx]
    exact ih hr

/-! ### The class of a write (R356) -/

theorem writeClass_base {w : Who} (h : w.view = 0) (s : State) (va : Nat) (x : Xlat) (kind : Bool) :
    writeClass s w va x kind = .perform [x] := by
  simp [writeClass, h]

section
variable {w : Who} {s : State} {va : Nat} {x : Xlat} {kind : Bool}
variable (hv : w.view ≠ 0) (hkind : (kind || s.external w.ctx w.view va x.leaf) = true)
include hv hkind

/-- A rival defers what escapes its world (R359). -/
theorem writeClass_rival (huse : (s.view w.view).use = 0) : writeClass s w va x kind = .defer := by
  simp [writeClass, hv, hkind, huse]

/-- A shadow copy suppresses it (R370). -/
theorem writeClass_copy (huse : (s.view w.view).use = 3) : writeClass s w va x kind = .suppress := by
  simp [writeClass, hv, hkind, huse]

end

/-- An escape queue with its page and room takes one more entry (R360). -/
theorem addEscape_ok {s : State} {v : Nat} (hq : (s.view v).queue.isSome = true) (hroom : (s.view v).escs.length < 64) (e : Esc) :
    addEscape s v e = .ok (s.modView v fun w => { w with escs := w.escs ++ [e] }) := by
  simp only [addEscape, addEscapeAt, queuePage, hq, Nat.not_le.mpr hroom, if_true, if_false, bind, Except.bind, pure, Except.pure]

/-- The record of a write stands with the acting group (R437). -/
theorem signWrite_eq (r : GRef) (va : Nat) (bs : List (BitVec 8)) (s : State) : ∃ cs, signWrite r va bs s = { s with cells := cs } := by
  unfold signWrite
  split
  · exact ⟨s.cells, rfl⟩
  · exact ⟨_, rfl⟩

/-! ### What escapes a view -/

/-- The record of a lane's operand in the write stream of its group (R437). -/
def signLane (o : MOp) (x : LaneAcc × Nat) (s : State) : State := signWrite s.cur x.1.va (leBytes (o.ty.width / 8) x.2) s
/-- The lane's operation stands in the escape queue of view `v` (R360). -/
def deferLane (v major : Nat) (o : MOp) (s : State) (x : LaneAcc × Nat) : State :=
  (signLane o x s).modView v fun u => { u with escs := u.escs ++ [escOf major o x.1.p x.1.va [x.2]] }

/-- Every lane's operation escapes the view: it is of a deferred kind, or external (R356). -/
def AllEscape (w : Who) (kind : Bool) (xs : List (LaneAcc × Nat)) (s : State) : Prop :=
  ∀ x ∈ xs, (kind || s.external w.ctx w.view x.1.va x.1.xlat.leaf) = true
/-- The view is a rival's, and its escape queue has its page and room for `n` entries. -/
def CanDefer (v n : Nat) (s : State) : Prop :=
  (s.view v).use = 0 ∧ (s.view v).queue.isSome = true ∧ (s.view v).escs.length + n ≤ 64

section
variable {w : Who} {kind : Bool} {o : MOp} {x : LaneAcc × Nat} {xs : List (LaneAcc × Nat)} {s : State}

/-- Whether an access is external rests on the contexts, and on what its view is for. -/
theorem external_congr {t : State} {c v : Nat} (hctx : t.ctxs = s.ctxs) (huse : (t.view v).use = (s.view v).use) (va : Nat) (leaf : BitVec 64) :
    t.external c v va leaf = s.external c v va leaf := by
  simp only [external, sharedWritable, regionAt, ctx, hctx, huse]

theorem signLane_views : (signLane o x s).views = s.views := by
  obtain ⟨cs, h⟩ := signWrite_eq s.cur x.1.va (leBytes (o.ty.width / 8) x.2) s
  rw [signLane, h]

theorem signLane_ctxs : (signLane o x s).ctxs = s.ctxs := by
  obtain ⟨cs, h⟩ := signWrite_eq s.cur x.1.va (leBytes (o.ty.width / 8) x.2) s
  rw [signLane, h]

theorem view_signLane (v : Nat) : (signLane o x s).view v = s.view v := by rw [view, signLane_views, view]

theorem deferLane_ctxs {v major : Nat} : (deferLane v major o s x).ctxs = s.ctxs := signLane_ctxs

theorem AllEscape.signed (h : AllEscape w kind xs s) : AllEscape w kind xs (signLane o x s) := fun y hy => by
  rw [external_congr signLane_ctxs (by rw [view_signLane])]
  exact h y hy

theorem AllEscape.deferred {major : Nat} (h : AllEscape w kind xs s) : AllEscape w kind xs (deferLane w.view major o s x) := fun y hy => by
  rw [external_congr deferLane_ctxs (by rw [deferLane, view_modView_same, view_signLane])]
  exact h y hy

theorem CanDefer.deferred {v n major : Nat} (h : CanDefer v (n + 1) s) : CanDefer v n (deferLane v major o s x) := by
  obtain ⟨huse, hqueue, hroom⟩ := h
  simp only [CanDefer, deferLane, view_modView_same, view_signLane, List.length_append, List.length_singleton]
  exact ⟨huse, hqueue, by omega⟩

/-- What a lane of a store or reduction does where its operation escapes: it is deferred in a rival, suppressed in a copy. -/
def Escaping (w : Who) (kind : Bool) (major : Nat) (o : MOp) (lane : LaneAcc → Nat → State → Except Raise State) : Prop :=
  (∀ l v s, writeClass (signLane o (l, v) s) w l.va l.xlat kind = .defer →
    lane l v s = addEscape (signLane o (l, v) s) w.view (escOf major o l.p l.va [v]))
  ∧ ∀ l v s, writeClass (signLane o (l, v) s) w l.va l.xlat kind = .suppress → lane l v s = .ok (signLane o (l, v) s)

theorem storeLane_escaping (w : Who) (o : MOp) : Escaping w false 0x81 o (storeLane w o) := by
  refine ⟨fun l v s h => ?_, fun l v s h => ?_⟩
  · simp only [signLane] at h
    simp only [storeLane, h, signLane]
  · simp only [signLane] at h
    simp only [storeLane, h, signLane, pure, Except.pure]

theorem redLane_escaping (w : Who) (o : MOp) : Escaping w true 0x88 o (redLane w o) := by
  refine ⟨fun l v s h => ?_, fun l v s h => ?_⟩
  · simp only [signLane] at h
    simp only [redLane, h, signLane]
  · simp only [signLane] at h
    simp only [redLane, h, signLane, pure, Except.pure]

section
variable {major : Nat} {lane : LaneAcc → Nat → State → Except Raise State} (hlane : Escaping w kind major o lane)
variable (hv : w.view ≠ 0) (hall : AllEscape w kind xs s)
include hlane hv hall

/-- In a rival world every lane's operation is deferred (R359). -/
theorem foldlM_deferred (hroom : CanDefer w.view xs.length s) :
    xs.foldlM (fun s x => lane x.1 x.2 s) s = .ok (xs.foldl (deferLane w.view major o) s) := by
  refine foldlM_eq_foldl (P := fun r s => AllEscape w kind r s ∧ CanDefer w.view r.length s) ?_ ⟨hall, hroom⟩
  rintro x r s ⟨hall, hroom⟩
  have hr : AllEscape w kind r s := (List.forall_mem_cons.mp hall).2
  obtain ⟨huse, hqueue, hlen⟩ := hroom
  rw [List.length_cons] at hlen
  have hclass : writeClass (signLane o x s) w x.1.va x.1.xlat kind = .defer :=
    writeClass_rival hv (hall.signed x List.mem_cons_self) (by rw [view_signLane, huse])
  refine ⟨?_, hr.deferred, CanDefer.deferred ⟨huse, hqueue, hlen⟩⟩
  rw [hlane.1 x.1 x.2 s hclass, addEscape_ok (by rw [view_signLane, hqueue]) (by rw [view_signLane]; omega)]
  rfl

/-- In a shadow copy no lane's operation is performed (R370). -/
theorem foldlM_suppressed (huse : (s.view w.view).use = 3) :
    xs.foldlM (fun s x => lane x.1 x.2 s) s = .ok (xs.foldl (fun s x => signLane o x s) s) := by
  refine foldlM_eq_foldl (P := fun r s => AllEscape w kind r s ∧ (s.view w.view).use = 3) ?_ ⟨hall, huse⟩
  rintro x r s ⟨hall, huse⟩
  have hr : AllEscape w kind r s := (List.forall_mem_cons.mp hall).2
  have hclass : writeClass (signLane o x s) w x.1.va x.1.xlat kind = .suppress :=
    writeClass_copy hv (hall.signed x List.mem_cons_self) (by rw [view_signLane, huse])
  exact ⟨hlane.2 x.1 x.2 s hclass, hr.signed, by rw [view_signLane, huse]⟩

end

/-! ### The base view -/

theorem storeLane_base (h : w.view = 0) (l : LaneAcc) (v : Nat) (s : State) : ∃ t, storeLane w o l v s = .ok t := by
  simp only [storeLane, writeClass_base h]
  exact ⟨_, rfl⟩

theorem redLane_base (h : w.view = 0) (l : LaneAcc) (v : Nat) (s : State) : ∃ t, redLane w o l v s = .ok t := by
  simp only [redLane, writeClass_base h]
  exact ⟨_, rfl⟩

theorem storeLanes_base (h : w.view = 0) : ∃ t, xs.foldlM (fun s x => storeLane w o x.1 x.2 s) s = .ok t := by
  refine foldlM_total (fun s x => ?_) xs s
  exact storeLane_base h x.1 x.2 s

theorem redLanes_base (h : w.view = 0) : ∃ t, xs.foldlM (fun s x => redLane w o x.1 x.2 s) s = .ok t := by
  refine foldlM_total (fun s x => ?_) xs s
  exact redLane_base h x.1 x.2 s

end

/-! ### The instructions -/

/-- What a store or reduction acts on once its checks are passed: scopes entered, release actions made (R162, R293). -/
def released (w : Who) (o : MOp) (ls : List LaneAcc) (s : State) : State :=
  if isRel o.order then releaseFor w o.scope ls (enterScope w o.scope ls s) else enterScope w o.scope ls s

section
variable {o : MOp} {a : Acc} {s1 s2 : State} {ls : List LaneAcc}

theorem stEffect_checked {l : List (Nat × Nat × List (Nat × Nat))} (hl : lanesOf o s1 (s1.active o.gd) l)
    (hrcv : refuses s1 = true → o.scope ≠ .rcv) (ha : globalAcc s1 (.st o) = some (o, a))
    (hc : checkLanes (s1.whoOf s1.cur.cell) a l s1 = .ok (s2, ls)) (hwait : rcvWait o s2 = .ok ()) :
    stEffect o s1 = (ls.zip ((s1.active o.gd).map (storeValue o s1))).foldlM (fun s x => storeLane (s1.whoOf s1.cur.cell) o x.1 x.2 s)
      (released (s1.whoOf s1.cur.cell) o ls s2) := by
  cases ha
  have hscope : refuses s1 = false ∨ o.scope ≠ .rcv := by
    cases hr : refuses s1 with
    | false => exact .inl rfl
    | true => exact .inr (hrcv hr)
  simp only [stEffect, rcvCheck_ok hscope, laneList_ok hl, bind, Except.bind, hc, hwait]
  rfl

theorem redEffect_checked (ha : globalAcc s1 (.red o) = some (o, a))
    (hc : checkLanes (s1.whoOf s1.cur.cell) a (globalLanes o a.n s1 (s1.active o.gd)) s1 = .ok (s2, ls)) :
    redEffect o s1 = (ls.zip ((s1.active o.gd).map (storeValue o s1))).foldlM (fun s x => redLane (s1.whoOf s1.cur.cell) o x.1 x.2 s)
      (released (s1.whoOf s1.cur.cell) o ls s2) := by
  cases ha
  simp only [redEffect, bind, Except.bind, hc]
  rfl

/-- Room for every lane's entry is room for those the operation is made in. -/
theorem CanDefer.zip {v : Nat} {vals : List Nat} {s : State} (h : CanDefer v ls.length s) : CanDefer v (ls.zip vals).length s := by
  obtain ⟨huse, hqueue, hroom⟩ := h
  exact ⟨huse, hqueue, by rw [List.length_zip]; omega⟩

theorem allEscape_zip {w : Who} {s : State} (h : ∀ x ∈ ls, s.external w.ctx w.view x.va x.xlat.leaf = true) (vals : List Nat) :
    AllEscape w false (ls.zip vals) s := fun x hx => h x.1 (List.of_mem_zip hx).1

theorem allEscape_kind (w : Who) (xs : List (LaneAcc × Nat)) (s : State) : AllEscape w true xs s := fun _ _ => rfl

theorem execAtom_ready {s : State} (h : Issues (.atom o) s s1) (ha : globalAcc s1 (.atom o) = some (o, a))
    (hc : checkLanes (s1.whoOf s1.cur.cell) a (globalLanes o a.n s1 (s1.active o.gd)) s1 = .ok (s2, ls))
    (hext : refuses s2 = true → ∀ x ∈ ls, s2.external (s1.whoOf s1.cur.cell).ctx (s1.whoOf s1.cur.cell).view x.va x.xlat.leaf = false)
    (hroom : landRoom s2.ck (replyBytes (fun _ => false) ls) s2 = true) :
    let w := s1.whoOf s1.cur.cell
    let get := fun p j => s1.src 3 (.v (BitVec.ofNat 8 j) false) o.ty.width p
    let vals := (s1.active o.gd).map fun p => (get p o.data.vIdx,
      if o.variant = 7 then get p (if o.ty.width = 64 then o.data.vIdx + 2 else o.data.vIdx + 1) else 0)
    let r := atomLanes w o (ls.zip vals) (released w o ls s2)
    let s4 := awaitReply (replyBytes (fun _ => false) ls) (finishLoad o.data (memTy o.ty) 0 r.2.1 r.2.2 r.1)
    execAtom o s = .next (goesOn (.atom o) (if isAcq o.order then acquireFor w o.scope ls s4 else s4)) := by
  cases ha
  refine issue_ok h ?_
  simp only [atomEffect, bind, Except.bind, hc, refused_eq_none hext, waitRoom_ok hroom]
  rfl

end
end Sys2Proof.Machine

open Sys2Proof Sys2Proof.Machine Sys2Proof.Machine.State

/-- Settles O12: past the checks the lanes act one after another, and in a view each escaping lane is deferred or suppressed. -/
theorem globalStoresAndAtomicsComplete : Obligations.GlobalStoresAndAtomicsComplete := by
  unfold Obligations.GlobalStoresAndAtomicsComplete
  refine ⟨?_, ?_, fun o a s s1 s2 ls h ha hc hext hroom => execAtom_ready h ha hc hext hroom⟩
  · intro o a s s1 l s2 ls h hl hrcv ha hc hwait w s3 xs sign
    have heffect := stEffect_checked hl hrcv ha hc hwait
    refine ⟨fun hbase => ?_, fun t ht => issue_ok h (heffect.trans ht), fun hview hext => ⟨fun huse hqueue hroom => ?_, fun huse => ?_⟩⟩
    · obtain ⟨t, ht⟩ := storeLanes_base (o := o) (xs := xs) (s := s3) hbase
      exact ⟨t, ht, issue_ok h (heffect.trans ht)⟩
    · exact issue_ok h (heffect.trans (foldlM_deferred (storeLane_escaping w o) hview (allEscape_zip hext _) (CanDefer.zip ⟨huse, hqueue, hroom⟩)))
    · exact issue_ok h (heffect.trans (foldlM_suppressed (storeLane_escaping w o) hview (allEscape_zip hext _) huse))
  · intro o a s s1 s2 ls h ha hc w s3 xs sign
    have heffect := redEffect_checked ha hc
    refine ⟨fun hbase => ?_, fun t ht => issue_ok h (heffect.trans ht), fun hview => ⟨fun huse hqueue hroom => ?_, fun huse => ?_⟩⟩
    · obtain ⟨t, ht⟩ := redLanes_base (o := o) (xs := xs) (s := s3) hbase
      exact ⟨t, ht, issue_ok h (heffect.trans ht)⟩
    · exact issue_ok h (heffect.trans (foldlM_deferred (redLane_escaping w o) hview (allEscape_kind w _ _) (CanDefer.zip ⟨huse, hqueue, hroom⟩)))
    · exact issue_ok h (heffect.trans (foldlM_suppressed (redLane_escaping w o) hview (allEscape_kind w _ _) huse))
end

section
/-! SUPPORT. What an atomic operation writes and returns (R175). -/
namespace Sys2Proof.Machine
open Sys2Proof State

section
variable {t : Ty} {m v : Nat}

/-- The value that the least and the greatest compare a pattern by is the one R108 reads (R175). -/
theorem tyVal_of_lt (h : m < 2 ^ t.width) : tyVal t m = if t.signed then sext t.width m else (m : Int) := by
  rw [tyVal, Nat.mod_eq_of_lt h]

variable (hm : m < 2 ^ t.width) (hv : v < 2 ^ t.width) (new : Nat)
include hm hv

theorem tyVal_atomOp_least : tyVal t (atomOp 1 t m v new) = min (tyVal t m) (tyVal t v) := by
  have hop : atomOp 1 t m v new = if tyVal t m ≤ tyVal t v then m else v := by
    rw [tyVal_of_lt hm, tyVal_of_lt hv]
    rfl
  rw [hop, apply_ite (tyVal t), min_def]

theorem tyVal_atomOp_greatest : tyVal t (atomOp 2 t m v new) = max (tyVal t m) (tyVal t v) := by
  have hop : atomOp 2 t m v new = if tyVal t v ≤ tyVal t m then m else v := by
    rw [tyVal_of_lt hm, tyVal_of_lt hv]
    rfl
  rw [hop, apply_ite (tyVal t), max_comm, max_def]

end

theorem atomOp_sum {t : Ty} (h : t ∈ tyW) (m v new : Nat) : atomOp 0 t m v new = (m + v) % 2 ^ t.width := by
  have hint : (t == .f32) = false := by
    simp only [tyW, List.mem_cons, List.not_mem_nil, or_false] at h
    rcases h with rfl | rfl | rfl | rfl <;> rfl
  simp only [atomOp, hint]
  rfl

/-- An atomic is performed at the target of host and peer memory (R289, R296). -/
theorem accTag_direct (w : Who) (x : Xlat) (hint : Nat) (again : Bool) :
    { accTag w x hint 5 again with direct := true } = accTag w x hint 5 again := by
  simp [accTag]

/-- The word that is read unspoilt takes the result, and what it held is returned (R175). -/
theorem atomLane_clean (w : Who) (o : MOp) (again : Bool) (x : Xlat) (va v new : Nat) (s : State) :
    let n := o.ty.width / 8
    let pa := physOf x va
    let t := accTag w x o.hint.toNat 5 again
    let r := s.readAt w.k t true pa n
    let s2 := r.1.storeHome w.k t pa (leBytes n (atomOp o.variant.toNat o.ty (leNat r.2.1) v new))
    r.2.2 = false → atomLane w o again x va v new s = (noteRcv s2.cur t pa s2, leNat r.2.1, none) := by
  intro n pa t r s2 hclean
  have hrmw : s.rmwAt w.k t pa n (fun bs => leBytes n (atomOp o.variant.toNat o.ty (leNat bs) v new)) = (s2, r.2.1, false) := by
    simp only [rmwAt, t, accTag_direct]
    exact if_neg (by rw [hclean]; decide)
  simp only [atomLane]
  rw [hrmw]
  rfl

end Sys2Proof.Machine

open Sys2Proof.Machine

/-- Settles O13, variant by variant. -/
theorem atomicOperationValues : Obligations.AtomicOperationValues := by
  unfold Obligations.AtomicOperationValues
  refine ⟨fun _ _ _ => rfl, fun w o again x va v new s => atomLane_clean w o again x va v new s, fun t m v new ht hm hv => ?_⟩
  exact ⟨atomOp_sum ht m v new, tyVal_atomOp_least hm hv new, tyVal_atomOp_greatest hm hv new, rfl, rfl, rfl, rfl, rfl⟩
end

section
/-! SUPPORT. What an access at the home leaves alone: the L1 of every studio, and the generations that lines are judged stale by (R161). One
lemma per operation that such an access may come to. -/
namespace Sys2Proof.Machine.State
open Sys2Proof Sys2Proof.Machine

/-- Every studio's L1 holds what it held in `s`, and the units and the arena table stand. -/
structure L1Kept (s t : State) : Prop where
  l1 : ∀ k, (t.studio k).l1 = (s.studio k).l1
  units : t.units = s.units
  arenas : t.arenas = s.arenas

theorem L1Kept.of_eq {s t : State} (hs : t.studios = s.studios) (hu : t.units = s.units) (ha : t.arenas = s.arenas) : L1Kept s t :=
  ⟨fun k => by rw [studio, hs, studio], hu, ha⟩

theorem L1Kept.refl (s : State) : L1Kept s s := .of_eq rfl rfl rfl

theorem L1Kept.trans {s t u : State} (h : L1Kept s t) (h' : L1Kept t u) : L1Kept s u :=
  ⟨fun k => (h'.l1 k).trans (h.l1 k), h'.units.trans h.units, h'.arenas.trans h.arenas⟩

/-- A change of the studios that keeps each one's L1. -/
theorem l1Kept_modStudio (s : State) (k : Nat) {f : Studio → Studio} (hf : ∀ st, (f st).l1 = st.l1) : L1Kept s (s.modStudio k f) := by
  refine ⟨fun j => ?_, rfl, rfl⟩
  by_cases hj : j = k
  · rw [hj, studio_modStudio_same, hf]
  · rw [studio_modStudio_ne s hj]

theorem l1Kept_foldl {β : Type} {f : State → β → State} (hf : ∀ s x, L1Kept s (f s x)) (l : List β) (s : State) : L1Kept s (l.foldl f s) :=
  foldl_keeps (P := L1Kept s) (fun t x ht => ht.trans (hf t x)) l (.refl s)

/-! ### Memory and the home slice -/

theorem l1Kept_addJournal (d : Nat) (f : Gesso → Gesso) (s : State) : L1Kept s (s.addJournal d f) := by
  unfold addJournal
  dsimp only
  split <;> exact .of_eq rfl rfl rfl

theorem l1Kept_recordUndo (c ln : Nat) (s : State) : L1Kept s (s.recordUndo c ln) := by
  unfold recordUndo
  split
  · exact .refl s
  · exact l1Kept_addJournal _ _ s

theorem l1Kept_memWriteLine (ln : Nat) (l : Line) (s : State) : L1Kept s (s.memWriteLine ln l) := by
  have hundo : L1Kept s (if l.rcv then s.recordUndo l.ctx ln else s) := by
    split
    · exact l1Kept_recordUndo _ _ s
    · exact .refl s
  have hbytes := hundo.trans (l1Kept_foldl
    (f := fun s i => if l.dirty.getLsbD i then s.setMemByte (128 * ln + i) (lineByte l i) else s)
    (fun s i => by split <;> exact .of_eq rfl rfl rfl) (List.range 128) _)
  unfold memWriteLine
  dsimp only
  split
  · exact .of_eq rfl rfl rfl
  · split
    · exact hbytes.trans (.of_eq rfl rfl rfl)
    · exact hbytes

theorem l1Kept_homeMerge (ln : Nat) (l : Line) (k : Option Nat) (s : State) : L1Kept s (s.homeMerge ln l k) := by
  have hfire : L1Kept s (s.fireHome ln k) := .of_eq rfl rfl rfl
  refine hfire.trans ?_
  show L1Kept _ ((s.fireHome ln k).mergeHome ln l)
  unfold mergeHome
  split
  · exact .of_eq rfl rfl rfl
  · exact l1Kept_memWriteLine _ _ _

theorem l1Kept_wbL2 (ln : Nat) (s : State) : L1Kept s (s.wbL2 ln) := by
  unfold wbL2
  split
  · next l _ =>
    split
    · exact .refl s
    · exact (l1Kept_memWriteLine ln l s).trans (.of_eq rfl rfl rfl)
  · exact .refl s

theorem l1Kept_roomL2 (j ln : Nat) (s : State) : L1Kept s (s.roomL2 j ln) := by
  unfold roomL2
  dsimp only
  split
  · exact .refl s
  · split
    · exact .refl s
    · split
      · next m _ =>
        split
        · exact .of_eq rfl rfl rfl
        · have htick : L1Kept s s.tick := .of_eq rfl rfl rfl
          exact (htick.trans (l1Kept_wbL2 m.1 _)).trans (.of_eq rfl rfl rfl)
      · exact .refl s

theorem l1Kept_addL2 (ln : Nat) (l : Line) (s : State) : L1Kept s (s.addL2 ln l) := by
  have hdel : L1Kept s { s with replicas := Map.del (64 * ln + s.homeSlice (128 * ln)) s.replicas } := .of_eq rfl rfl rfl
  exact (hdel.trans (l1Kept_roomL2 _ _ _)).trans (.of_eq rfl rfl rfl)

theorem l1Kept_bypass (t : Tag) (ln : Nat) (s : State) : L1Kept s (s.bypass t ln) := by
  unfold bypass
  split <;> exact .of_eq rfl rfl rfl

theorem l1Kept_fillL2 (t : Tag) (ln : Nat) (s : State) : L1Kept s (s.fillL2 t ln) := by
  unfold fillL2
  split
  · exact .refl s
  · split
    · exact l1Kept_bypass _ _ s
    · exact l1Kept_addL2 _ _ s

theorem l1Kept_homeWrite (t : Tag) (pa : Nat) (bs : List (BitVec 8)) (k : Option Nat) (s : State) : L1Kept s (s.homeWrite t pa bs k) := by
  have hundo (u : State) : L1Kept u (u.undoFirst t (pa / 128)) := by
    unfold undoFirst
    split
    · exact l1Kept_recordUndo _ _ u
    · exact .refl u
  exact (l1Kept_fillL2 _ _ s).trans ((hundo _).trans (l1Kept_homeMerge _ _ _ _))

theorem l1Kept_meetTarget (ln : Nat) (io : Bool) (s : State) : L1Kept s (s.meetTarget ln io) := by
  unfold meetTarget
  split
  · exact .refl s
  · exact (l1Kept_wbL2 ln s).trans (.of_eq rfl rfl rfl)

theorem l1Kept_sendTarget (ln : Nat) (io : Bool) (s : State) : L1Kept s (s.sendTarget ln io) := by
  unfold sendTarget
  split
  · exact .refl s
  · exact l1Kept_wbL2 ln s

/-! ### Buffered reductions -/

theorem l1Kept_lateFault (r : GRef) (f : LateFault) (s : State) : L1Kept s (s.lateFault r f) := by
  unfold lateFault
  dsimp only
  split
  · exact .of_eq rfl rfl rfl
  · split
    · unfold failTask
      split
      · exact .refl s
      · dsimp only
        split
        · exact .refl s
        · exact .of_eq rfl rfl rfl
    · exact .of_eq rfl rfl rfl

theorem l1Kept_redFault (a : RedApp) (s : State) : L1Kept s (s.redFault a) := by
  unfold redFault
  split
  · exact .refl s
  · exact l1Kept_lateFault _ _ s

theorem l1Kept_applyRed (k op : Nat) (a : RedApp) (s : State) : L1Kept s (s.applyRed k op a) := by
  unfold applyRed
  split
  · exact .refl s
  · dsimp only
    have hmeet := l1Kept_meetTarget (a.pa / 128) false s
    split
    · exact hmeet.trans (l1Kept_redFault _ _)
    · exact hmeet.trans ((l1Kept_homeWrite _ _ _ _ _).trans (l1Kept_sendTarget _ _ _))

theorem l1Kept_mergeReds (k : Nat) (p : RedBuf → Bool) (s : State) : L1Kept s (s.mergeReds k p) := by
  have hdrop : L1Kept s (s.modStudio k fun st => { st with reds := st.reds.filter fun b => !p b }) := l1Kept_modStudio s k fun _ => rfl
  refine hdrop.trans (l1Kept_foldl (fun s x => ?_) _ _)
  exact l1Kept_applyRed k x.1 x.2 s

theorem l1Kept_mergeLine (ln : Nat) (s : State) : L1Kept s (s.mergeLine ln) := by
  refine l1Kept_foldl (fun s st => ?_) _ s
  exact l1Kept_mergeReds st.1 _ s

/-! ### Counting, and monitors -/

theorem l1Kept_fireIn (ln k : Nat) (s : State) : L1Kept s (s.fireIn ln k) := .of_eq rfl rfl rfl

theorem l1Kept_perf (k c e n : Nat) (s : State) : L1Kept s (s.perf k c e n) := by
  unfold perf
  split
  · exact l1Kept_modStudio s k fun _ => rfl
  · exact .refl s

end Sys2Proof.Machine.State
end

section
/-! SUPPORT. An acquire of scope `die` or wider empties the studio's L1 (R162), and the actions of a `fence` (R177). -/
namespace Sys2Proof.Machine
open Sys2Proof State

namespace State

/-- Studio `k` holds no copy of line `ln` in its L1. -/
def NotInL1 (k ln : Nat) (s : State) : Prop := Map.find ln (s.studio k).l1 = none

theorem NotInL1.kept {k ln : Nat} {s t : State} (h : NotInL1 k ln s) (hkept : L1Kept s t) : NotInL1 k ln t := by
  rw [NotInL1, hkept.l1]
  exact h

theorem find_of_l1Live {s : State} {k ln : Nat} {l : Line} (h : s.l1Live k ln = some l) : Map.find ln (s.studio k).l1 = some l := by
  unfold l1Live at h
  split at h
  · next l' hl =>
    split at h
    · cases h
    · rw [hl, h]
  · cases h

/-- A write-back brings no line into the L1. -/
theorem NotInL1.wbL1 {k ln : Nat} {s : State} (h : NotInL1 k ln s) (m : Nat) : NotInL1 k ln (s.wbL1 k m) := by
  unfold State.wbL1
  split
  · next l hl =>
    have hne : ln ≠ m := fun heq => by
      rw [NotInL1, heq, find_of_l1Live hl] at h
      cases h
    split
    · exact h
    · dsimp only
      rw [NotInL1, setL1, studio_modStudio_same, Map.find_ins_ne hne, (l1Kept_homeMerge m l (some k) _).l1]
      split
      · exact h.kept (l1Kept_mergeLine m s)
      · exact h.kept ((l1Kept_mergeLine m s).trans (l1Kept_addL2 _ _ _))
  · exact h

theorem notInL1_dropL1 (k ln : Nat) (s : State) : NotInL1 k ln (s.dropL1 k ln) := by
  unfold dropL1
  split
  · next h => exact Option.isNone_iff_eq_none.mp h
  · refine NotInL1.kept ?_ (l1Kept_fireIn ln k _)
    rw [NotInL1, studio_modStudio_same, Map.find_del_same]

theorem NotInL1.dropL1 {k ln : Nat} {s : State} (h : NotInL1 k ln s) (m : Nat) : NotInL1 k ln (s.dropL1 k m) := by
  by_cases heq : ln = m
  · exact heq ▸ notInL1_dropL1 k ln s
  · unfold State.dropL1
    split
    · exact h
    · refine NotInL1.kept ?_ (l1Kept_fireIn m k _)
      rw [NotInL1, studio_modStudio_same, Map.find_del_ne heq]
      exact h

/-- Lines written back and dropped one after another are gone, and none has come. -/
theorem notInL1_foldl {k ln : Nat} {lines : List Nat} {s : State} (h : ln ∈ lines ∨ NotInL1 k ln s) :
    NotInL1 k ln (lines.foldl (fun s m => (s.wbL1 k m).dropL1 k m) s) := by
  induction lines generalizing s with
  | nil => exact h.resolve_left List.not_mem_nil
  | cons m r ih =>
    refine ih ?_
    rcases h with h | h
    · rcases List.mem_cons.mp h with rfl | h
      · exact .inr (notInL1_dropL1 k ln _)
      · exact .inl h
    · exact .inr ((h.wbL1 m).dropL1 m)

theorem find_eq_none_of_not_mem {α : Type} {k : Nat} {m : Map α} (h : k ∉ m.map Prod.fst) : Map.find k m = none := by
  induction m with
  | nil => rfl
  | cons x r ih =>
    obtain ⟨hx, hr⟩ := List.ne_and_not_mem_of_not_mem_cons h
    exact (if_neg (Ne.symm hx)).trans (ih hr)

theorem studios_learnDrops (s : State) (k : Nat) : (s.learnDrops k).studios = s.studios := by
  refine foldl_keeps (P := fun t : State => t.studios = s.studios) (fun t w ht => ?_) _ rfl
  unfold learnDrop
  split <;> exact ht

theorem notInL1_acquireL1 (s : State) (k ln : Nat) : NotInL1 k ln (s.acquireL1 k none) := by
  refine notInL1_foldl ?_
  by_cases h : ln ∈ (s.studio k).l1.map Prod.fst
  · exact .inl (List.mem_filter.mpr ⟨h, rfl⟩)
  · refine .inr ?_
    rw [NotInL1, studio, studios_learnDrops]
    exact find_eq_none_of_not_mem h

theorem l1Kept_acquireSys (only : Option (List Nat)) (s : State) : L1Kept s (s.acquireSys only) := by
  refine l1Kept_foldl (fun t ln => ?_) _ s
  dsimp only
  split
  · exact l1Kept_meetTarget ln false t
  · exact (l1Kept_meetTarget ln false t).trans (.of_eq rfl rfl rfl)

end State

theorem notInL1_acquireActs {k : Nat} (h : 3 ≤ k) (s : State) (w : Who) (ln : Nat) : NotInL1 w.k ln (acquireActs w k none s) := by
  simp only [acquireActs, acquireCaches, h, if_true]
  split
  · exact (notInL1_acquireL1 _ _ _).kept (l1Kept_acquireSys _ _)
  · exact notInL1_acquireL1 _ _ _

/-! ### `fence` -/

section
variable {o : MOp} {s s1 : State}

theorem execFence_idle (h : Issues (.fence o) s s1) (hact : s1.active o.gd = []) : execFence o s = .next (goesOn (.fence o) s1) :=
  issue_ok h (by simp only [fenceEffect, hact, List.isEmpty_nil, if_true]; rfl)

theorem scopeRank_fst (w : Who) (sc : Scope) (s : State) : (scopeRank w sc none s).1 = s := by cases sc <;> rfl

theorem execFence_active (h : Issues (.fence o) s s1) (hact : s1.active o.gd ≠ []) (href : refuses s1 = false) (hwait : rcvWait o s1 = .ok ()) :
    let w := s1.whoOf s1.cur.cell
    let k := (scopeRank w o.scope none s1).2
    let s2 := if isRel o.order then releaseActs s1.cur w k none s1 else s1
    execFence o s = .next (goesOn (.fence o) (if isAcq o.order then acquireActs w k none s2 else s2)) := by
  refine issue_ok h ?_
  simp only [fenceEffect, List.isEmpty_iff, hact, if_false, rcvCheck_ok (.inl href), hwait, bind, Except.bind, scopeRank_fst]
  rfl

end
end Sys2Proof.Machine

open Sys2Proof.Machine

/-- Settles O15, by whether a lane is active; an acquire's last part drops every line that the studio held. -/
theorem fenceAndAcquireActions : Obligations.FenceAndAcquireActions := by
  unfold Obligations.FenceAndAcquireActions
  exact ⟨fun o s s1 h => ⟨execFence_idle h, execFence_active h⟩, fun s w k hk ln => notInL1_acquireActs hk s w ln⟩
end

section
/-! SUPPORT. A studio's write to a cached line of its own, and its reads of that line before and after (R155, R161). -/
namespace Sys2Proof.Machine

theorem Map.mem_of_find {α : Type} {k : Nat} {v : α} {m : Map α} (h : Map.find k m = some v) : (k, v) ∈ m := by
  induction m with
  | nil => cases h
  | cons x r ih =>
    rw [Map.find] at h
    split at h
    · next hk =>
      obtain rfl := Option.some.inj h
      exact hk ▸ List.mem_cons_self
    · exact List.mem_cons_of_mem _ (ih h)

namespace State
open Sys2Proof Sys2Proof.Machine

/-! ### No reduction is buffered -/

/-- No studio holds a buffered reduction (R176). -/
def NoReds (s : State) : Prop := s.studios.all (fun x => x.2.reds.isEmpty) = true

theorem NoReds.mergeLine {s : State} (h : NoReds s) (ln : Nat) : s.mergeLine ln = s := by
  have hnone : (s.studios.filter fun st => st.2.reds.any fun b => b.line == ln) = [] := by
    refine List.filter_eq_nil_iff.mpr fun st hst => ?_
    rw [List.isEmpty_iff.mp (List.all_eq_true.mp h st hst)]
    exact Bool.false_ne_true
  rw [State.mergeLine, hnone]
  rfl

theorem NoReds.studio {s : State} (h : NoReds s) (k : Nat) : (s.studio k).reds = [] := by
  unfold State.studio Map.getD
  cases hk : Map.find k s.studios with
  | none => rfl
  | some st => exact List.isEmpty_iff.mp (List.all_eq_true.mp h _ (Map.mem_of_find hk))

/-- Counting an event changes a studio's counters at most. -/
theorem perf_eq (s : State) (k c e n : Nat) : ∃ ss, s.perf k c e n = { s with studios := ss } := by
  unfold perf
  split
  · exact ⟨_, rfl⟩
  · exact ⟨s.studios, rfl⟩

theorem NoReds.perf {s : State} (h : NoReds s) (k c e n : Nat) : NoReds (s.perf k c e n) := by
  unfold State.perf
  split
  · refine List.all_eq_true.mpr fun st hst => ?_
    rcases Map.mem_ins hst with rfl | hst
    · exact List.isEmpty_iff.mpr (h.studio k)
    · exact List.all_eq_true.mp h st hst
  · exact h

/-- An undo record stands in a journal, which the supervisor may be told of. -/
theorem recordUndo_eq (s : State) (c ln : Nat) :
    ∃ g ns, s.recordUndo c ln = { s with gesso := g, module := { s.module with notices := ns } } := by
  unfold recordUndo
  split
  · exact ⟨s.gesso, s.module.notices, rfl⟩
  · unfold addJournal
    dsimp only
    split
    · exact ⟨_, _, rfl⟩
    · exact ⟨_, s.module.notices, rfl⟩

/-- A request that the L1 might have served counts as a miss, unless an earlier lane's serves it too (R156, R313). -/
def countMiss (s : State) (k : Nat) (t : Tag) : State := if t.again then s else s.perf k t.ctx 5

theorem countMiss_eq (s : State) (k : Nat) (t : Tag) : ∃ ss, s.countMiss k t = { s with studios := ss } := by
  unfold countMiss
  split
  · exact ⟨s.studios, rfl⟩
  · exact perf_eq s k t.ctx 5 1

theorem l1Kept_countMiss (s : State) (k : Nat) (t : Tag) : L1Kept s (s.countMiss k t) := by
  unfold countMiss
  split
  · exact .refl s
  · exact l1Kept_perf k t.ctx 5 1 s

theorem NoReds.countMiss {s : State} (h : NoReds s) (k : Nat) (t : Tag) : NoReds (s.countMiss k t) := by
  unfold State.countMiss
  split
  · exact h
  · exact h.perf k t.ctx 5 1

/-! ### What the L1 serves -/

theorem L1Kept.staleAt {s t : State} (h : L1Kept s t) (k : Nat) (a : BitVec 12) (g : BitVec 4) : t.staleAt k a g = s.staleAt k a g := by
  simp only [State.staleAt, unitGen, arena, h.units, h.arenas]

theorem L1Kept.l1Live {s t : State} (h : L1Kept s t) (k ln : Nat) : t.l1Live k ln = s.l1Live k ln := by
  unfold State.l1Live
  rw [h.l1]
  split
  · rw [h.staleAt]
  · rfl

theorem l1Live_of_find {s : State} {k ln : Nat} {l : Line} (h : Map.find ln (s.studio k).l1 = some l)
    (hfresh : s.staleAt k l.arena l.gen = false) : s.l1Live k ln = some l := by
  simp only [l1Live, h, hfresh]
  rfl

theorem l1Live_of_find_none {s : State} {k ln : Nat} (h : Map.find ln (s.studio k).l1 = none) : s.l1Live k ln = none := by
  simp only [l1Live, h]

/-- What studio `k` sees of a line: its own copy, or what the home holds. -/
def seenLine (s : State) (k ln : Nat) : List (BitVec 8) :=
  match s.l1Live k ln with
  | some l => l.data
  | none => s.homeLine ln

theorem seenLine_of_live {s : State} {k ln : Nat} {l : Line} (h : s.l1Live k ln = some l) : s.seenLine k ln = l.data := by
  simp only [seenLine, h]

theorem seenLine_of_none {s : State} {k ln : Nat} (h : s.l1Live k ln = none) : s.seenLine k ln = s.homeLine ln := by
  simp only [seenLine, h]

section
variable {s : State} {k : Nat} {t : Tag} (hl1 : t.l1 = true)
include hl1

theorem readAt_live {l : Line} {pa : Nat} (h : s.l1Live k (pa / 128) = some l) (n : Nat) :
    s.readAt k t false pa n = (s, (List.range n).map (fun i => l.data.getD (pa % 128 + i) 0), l.bad) := by
  simp only [readAt, hl1, h, Bool.not_true, Bool.or_self]
  rfl

/-- A read of a cached page gives what the studio sees of its line. -/
theorem readAt_seen (hdirect : t.direct = false) (hrep : s.replicable t = false) (hreds : NoReds s) (pa n : Nat) :
    (s.readAt k t false pa n).2.1 = (List.range n).map fun i => (s.seenLine k (pa / 128)).getD (pa % 128 + i) 0 := by
  cases hlive : s.l1Live k (pa / 128) with
  | some l => rw [readAt_live hl1 hlive, seenLine_of_live hlive]
  | none =>
    rw [seenLine_of_none hlive]
    have hmiss : (s.countMiss k t).l1Live k (pa / 128) = none := ((l1Kept_countMiss s k t).l1Live k _).trans hlive
    have hwb : (s.countMiss k t).wbL1 k (pa / 128) = s.countMiss k t := by simp only [wbL1, hmiss]
    have hmerge := (hreds.countMiss k t).mergeLine (pa / 128)
    obtain ⟨ss, hcount⟩ := countMiss_eq s k t
    have hsealed : (s.countMiss k t).replicable t = false := by
      rw [hcount]
      exact hrep
    have hnone : (s.countMiss k t).replica k t (pa / 128) = none := if_pos (by rw [hsealed]; rfl)
    have hhome : (s.countMiss k t).homeLine (pa / 128) = s.homeLine (pa / 128) := by
      rw [hcount]
      rfl
    unfold countMiss at hwb hmerge hnone hhome
    simp only [readAt, hl1, hlive, Bool.not_true, Bool.or_self, Bool.false_or, hwb, hmerge, hdirect, Bool.false_eq_true, if_false, hnone, hhome]

end

/-! ### The write -/

/-- `bs` in place of the bytes from `o` on. -/
def overwrite (o : Nat) (bs d : List (BitVec 8)) : List (BitVec 8) :=
  d.zipIdx.map fun b => if o ≤ b.2 ∧ b.2 < o + bs.length then bs.getD (b.2 - o) 0 else b.1

theorem getD_overwrite {o i : Nat} {bs d : List (BitVec 8)} (h : i < d.length) :
    (overwrite o bs d).getD i 0 = if o ≤ i ∧ i < o + bs.length then bs.getD (i - o) 0 else d.getD i 0 := by
  simp [overwrite, List.getD, h]

/-- The line `l` with the bytes `bs` of a write at `pa`, dirty there; written whole it is poison no more (R161, R439). -/
def writtenLine (t : Tag) (pa : Nat) (bs : List (BitVec 8)) (l : Line) : Line :=
  let dirty := l.dirty ||| BitVec.ofNat 128 ((2 ^ bs.length - 1) * 2 ^ (pa % 128))
  { l with data := overwrite (pa % 128) bs l.data, dirty := dirty, rcv := l.rcv || t.rcv, bad := l.bad && dirty != BitVec.allOnes 128 }

/-- A write begins: monitors fire, and a recoverable line has its undo record (R167, R182). -/
def beginWrite (s : State) (k : Nat) (t : Tag) (ln : Nat) : State :=
  if t.rcv then (s.fireIn ln k).recordUndo t.ctx ln else s.fireIn ln k
/-- Line `ln` stands in the studio's L1, fetched from the home where it was not held. -/
def fetchLine (s : State) (k : Nat) (t : Tag) (ln : Nat) : State :=
  match s.l1Live k ln with
  | some _ => s
  | none =>
    let u := (s.countMiss k t).mergeLine ln
    (u.readFill k t ln (u.homeLine ln) false false true).modStudio k fun st =>
      { st with l1 := Map.upd ln (fun l => { l with bad := u.homeBad ln }) st.l1 }

theorem writeAt_cached {s : State} {k : Nat} {t : Tag} {pa : Nat} {l : Line} (hl1 : t.l1 = true)
    (h : ((s.beginWrite k t (pa / 128)).fetchLine k t (pa / 128)).l1Live k (pa / 128) = some l) (bs : List (BitVec 8)) :
    s.writeAt k t false pa bs = ((s.beginWrite k t (pa / 128)).fetchLine k t (pa / 128)).setL1 k (pa / 128) (writtenLine t pa bs l) := by
  have hwrite : s.writeAt k t false pa bs =
      match ((s.beginWrite k t (pa / 128)).fetchLine k t (pa / 128)).l1Live k (pa / 128) with
      | some l => ((s.beginWrite k t (pa / 128)).fetchLine k t (pa / 128)).setL1 k (pa / 128) (writtenLine t pa bs l)
      | none => (s.beginWrite k t (pa / 128)).fetchLine k t (pa / 128) := by
    rw [writeAt]
    simp only [hl1, Bool.not_false, Bool.and_self, if_true]
    rfl
  rw [hwrite, h]

/-- Studio `k`'s write to line `ln` finds a place for it: a fresh tag, a good line of 128 bytes in L1 or, with a way free for it, at home, and
no reduction buffered. -/
structure CanWrite (s : State) (k : Nat) (t : Tag) (ln : Nat) : Prop where
  fresh : s.staleAt k t.arena t.gen = false
  held : ∀ l, Map.find ln (s.studio k).l1 = some l → s.staleAt k l.arena l.gen = false ∧ l.data.length = 128 ∧ l.bad = false
  room : Map.find ln (s.studio k).l1 = none → (s.l1Others k ln).length < 8
  good : s.homeBad ln = false
  noReds : NoReds s
  whole : (s.homeLine ln).length = 128

/-- Line `ln` stands good in studio `k`'s L1 in `u`, with the bytes that the studio saw in `s`; the other lines stand as in `s`. -/
structure Fetched (s u : State) (k ln : Nat) (l : Line) : Prop where
  live : u.l1Live k ln = some l
  data : l.data = s.seenLine k ln
  len : l.data.length = 128
  good : l.bad = false
  other : ∀ m, m ≠ ln → Map.find m (u.studio k).l1 = Map.find m (s.studio k).l1

/-- `u` differs from `s` in nothing that a fetch of a line reads. -/
structure SameLines (s u : State) : Prop where
  l1 : L1Kept s u
  homeLine : ∀ ln, u.homeLine ln = s.homeLine ln
  homeBad : ∀ ln, u.homeBad ln = s.homeBad ln
  noReds : NoReds s → NoReds u

theorem SameLines.trans {s t u : State} (h : SameLines s t) (h' : SameLines t u) : SameLines s u :=
  ⟨h.l1.trans h'.l1, fun ln => (h'.homeLine ln).trans (h.homeLine ln), fun ln => (h'.homeBad ln).trans (h.homeBad ln),
    fun hr => h'.noReds (h.noReds hr)⟩

theorem sameLines_fireIn (s : State) (ln k : Nat) : SameLines s (s.fireIn ln k) :=
  ⟨l1Kept_fireIn ln k s, fun _ => rfl, fun _ => rfl, id⟩

theorem sameLines_recordUndo (s : State) (c ln : Nat) : SameLines s (s.recordUndo c ln) := by
  obtain ⟨g, ns, h⟩ := recordUndo_eq s c ln
  rw [h]
  exact ⟨.of_eq rfl rfl rfl, fun _ => rfl, fun _ => rfl, id⟩

theorem sameLines_beginWrite (s : State) (k : Nat) (t : Tag) (ln : Nat) : SameLines s (s.beginWrite k t ln) := by
  unfold beginWrite
  split
  · exact (sameLines_fireIn s ln k).trans (sameLines_recordUndo _ _ _)
  · exact sameLines_fireIn s ln k

theorem sameLines_countMiss (s : State) (k : Nat) (t : Tag) : SameLines s (s.countMiss k t) := by
  obtain ⟨ss, h⟩ := countMiss_eq s k t
  refine ⟨l1Kept_countMiss s k t, fun ln => ?_, fun ln => ?_, fun hr => hr.countMiss k t⟩ <;> rw [h] <;> rfl

section
variable {s u : State} (h : SameLines s u) {k : Nat} {t : Tag} {ln : Nat}
include h

theorem SameLines.seenLine (k ln : Nat) : u.seenLine k ln = s.seenLine k ln := by
  rw [State.seenLine, h.l1.l1Live, h.homeLine, State.seenLine]

theorem SameLines.canWrite (hs : CanWrite s k t ln) : CanWrite u k t ln where
  fresh := by rw [h.l1.staleAt, hs.fresh]
  held l hl := by
    rw [h.l1.l1] at hl
    rw [h.l1.staleAt]
    exact hs.held l hl
  room hn := by
    rw [h.l1.l1] at hn
    rw [l1Others, h.l1.l1]
    exact hs.room hn
  good := (h.homeBad ln).trans hs.good
  noReds := h.noReds hs.noReds
  whole := by rw [h.homeLine, hs.whole]

theorem Fetched.of_same {v : State} {l : Line} (hv : Fetched u v k ln l) : Fetched s v k ln l where
  live := hv.live
  data := hv.data.trans (h.seenLine k ln)
  len := hv.len
  good := hv.good
  other m hm := by rw [hv.other m hm, h.l1.l1]

end

theorem roomL1_of_room {s : State} {k ln : Nat} (h : (s.l1Others k ln).length < 8) : s.roomL1 k ln = s := by
  unfold roomL1
  split
  · rfl
  · exact if_pos h

/-- A line filled on a miss. -/
theorem fetched_fill {s : State} {k : Nat} {t : Tag} {ln : Nat} (hc : CanWrite s k t ln) (hmiss : Map.find ln (s.studio k).l1 = none) :
    Fetched s ((s.readFill k t ln (s.homeLine ln) false false true).modStudio k fun st =>
      { st with l1 := Map.upd ln (fun l => { l with bad := s.homeBad ln }) st.l1 }) k ln { t.line (s.homeLine ln) with bad := false } := by
  have hk := l1Kept_fillL2 t ln s
  have hroom : ((s.fillL2 t ln).l1Others k ln).length < 8 := by
    rw [l1Others, hk.l1]
    exact hc.room hmiss
  have hfill : s.readFill k t ln (s.homeLine ln) false false true = (s.fillL2 t ln).setL1 k ln (t.line (s.homeLine ln)) :=
    congrArg (setL1 · k ln (t.line (s.homeLine ln))) (roomL1_of_room hroom)
  rw [hfill, hc.good]
  refine ⟨l1Live_of_find ?_ ?_, ?_, hc.whole, rfl, fun m hm => ?_⟩
  · rw [studio_modStudio_same, setL1, studio_modStudio_same, Map.find_upd, if_pos rfl, Map.find_ins_same]
    rfl
  · exact (hk.staleAt k t.arena t.gen).trans hc.fresh
  · exact (seenLine_of_none (l1Live_of_find_none hmiss)).symm
  · rw [studio_modStudio_same, setL1, studio_modStudio_same, Map.find_upd, if_neg hm, Map.find_ins_ne hm, hk.l1]

theorem exists_fetched {s : State} {k : Nat} {t : Tag} {ln : Nat} (hc : CanWrite s k t ln) : ∃ l, Fetched s (s.fetchLine k t ln) k ln l := by
  cases hl : Map.find ln (s.studio k).l1 with
  | some l =>
    obtain ⟨hfresh, hlen, hgood⟩ := hc.held l hl
    have hlive := l1Live_of_find hl hfresh
    refine ⟨l, ?_⟩
    simp only [fetchLine, hlive]
    exact ⟨hlive, (seenLine_of_live hlive).symm, hlen, hgood, fun _ _ => rfl⟩
  | none =>
    have hsame := sameLines_countMiss s k t
    have hu := hsame.canWrite hc
    have hmiss : Map.find ln ((s.countMiss k t).studio k).l1 = none := by rw [hsame.l1.l1, hl]
    refine ⟨{ t.line ((s.countMiss k t).homeLine ln) with bad := false }, Fetched.of_same hsame ?_⟩
    simp only [fetchLine, l1Live_of_find_none hl, hu.noReds.mergeLine]
    exact fetched_fill hu hmiss

theorem staleAt_of_l1Live {s : State} {k ln : Nat} {l : Line} (h : s.l1Live k ln = some l) : s.staleAt k l.arena l.gen = false := by
  rw [l1Live, find_of_l1Live h] at h
  exact Bool.eq_false_of_not_eq_true fun hstale => Option.some_ne_none l (h.symm.trans (if_pos hstale))

theorem l1Live_setL1 {s : State} {k ln : Nat} {l l' : Line} (h : s.l1Live k ln = some l) (ha : l'.arena = l.arena) (hg : l'.gen = l.gen) :
    (s.setL1 k ln l').l1Live k ln = some l' := by
  refine l1Live_of_find ?_ ?_
  · rw [setL1, studio_modStudio_same, Map.find_ins_same]
  · show s.staleAt k l'.arena l'.gen = false
    rw [ha, hg, staleAt_of_l1Live h]

/-- The write leaves its bytes in the line that the studio saw, and every other line as it was. -/
theorem exists_written {s : State} {k : Nat} {t : Tag} {pa : Nat} (hl1 : t.l1 = true) (hc : CanWrite s k t (pa / 128)) (bs : List (BitVec 8)) :
    ∃ l, (s.writeAt k t false pa bs).l1Live k (pa / 128) = some l ∧ l.bad = false ∧
      l.data = overwrite (pa % 128) bs (s.seenLine k (pa / 128)) ∧ (s.seenLine k (pa / 128)).length = 128 ∧
      ∀ m, m ≠ pa / 128 → Map.find m ((s.writeAt k t false pa bs).studio k).l1 = Map.find m (s.studio k).l1 := by
  have hbegin := sameLines_beginWrite s k t (pa / 128)
  obtain ⟨l, hu⟩ := exists_fetched (hbegin.canWrite hc)
  have hl := Fetched.of_same hbegin hu
  rw [writeAt_cached hl1 hl.live bs]
  refine ⟨writtenLine t pa bs l, l1Live_setL1 hl.live rfl rfl, ?_, ?_, hl.data ▸ hl.len, fun m hm => ?_⟩
  · simp only [writtenLine, hl.good, Bool.false_and]
  · rw [← hl.data]
    rfl
  · rw [setL1, studio_modStudio_same, Map.find_ins_ne hm, hl.other m hm]

/-- Bytes of a line within what was written, and one outside. -/
theorem map_getD_overwrite {o : Nat} {bs d : List (BitVec 8)} (h : o + bs.length ≤ d.length) :
    (List.range bs.length).map (fun i => (overwrite o bs d).getD (o + i) 0) = bs := by
  refine List.ext_getElem (by simp) fun i hi hb => ?_
  rw [List.getElem_map, List.getElem_range, getD_overwrite (by omega), if_pos (by omega), Nat.add_sub_cancel_left, List.getD_eq_getElem _ _ hb]

end State
end Sys2Proof.Machine

open Sys2Proof.Machine

/-- Settles O14: the written line is the line that the studio saw, with the bytes in place; a read sees that line. -/
theorem storeThenLoadReturnsValue : Obligations.StoreThenLoadReturnsValue := by
  unfold Obligations.StoreThenLoadReturnsValue
  intro s k t t' pa bs ht ht' hdirect hfresh hheld hroom hgood hreds hrep hwhole _ hfit
  obtain ⟨l, hlive, hbad, hdata, hlen, hother⟩ := State.exists_written ht ⟨hfresh, hheld, hroom, hgood, hreds, hwhole⟩ bs
  refine ⟨?_, fun q hq hout => ?_, hother⟩
  · rw [State.readAt_live ht' hlive, hbad, hdata, State.map_getD_overwrite (by omega)]
  · rw [State.readAt_live ht' (hq ▸ hlive), State.readAt_seen ht' hdirect hrep hreds, hdata, hq]
    refine List.map_congr_left fun i hi => ?_
    have hi0 : i = 0 := by simpa using hi
    rw [State.getD_overwrite (by omega), if_neg (by omega)]
end

section
/-! SUPPORT. The checks of an access that writes nothing leave the G registers of every group (R157): they translate, charge and clear pages,
and fire monitors. One lemma per operation that they may come to. -/
namespace Sys2Proof.Machine

/-- Where every entry keeps its key and goes to a related value, so does the value at each key. -/
theorem Map.getD_map {α : Type} {P : α → α → Prop} {f : Nat × α → Nat × α} (hkey : ∀ x, (f x).1 = x.1) (hval : ∀ x, P x.2 (f x).2) {d : α}
    (hd : P d d) (k : Nat) (m : Map α) : P (Map.getD m k d) (Map.getD (m.map f : Map α) k d) := by
  induction m with
  | nil => exact hd
  | cons x r ih =>
    unfold Map.getD at ih ⊢
    rw [List.map_cons, Map.find, Map.find, hkey]
    split
    · exact hval x
    · exact ih

namespace State
open Sys2Proof Sys2Proof.Machine

theorem bind_ok {ε α β : Type} {x : Except ε α} {f : α → Except ε β} {b : β} (h : (x >>= f) = .ok b) : ∃ a, x = .ok a ∧ f a = .ok b := by
  cases x with
  | error e => cases h
  | ok a => exact ⟨a, rfl, h⟩

/-- The same group acts, and every group has the G registers it had in `s`. -/
structure GregsKept (s t : State) : Prop where
  cur : t.cur = s.cur
  gregs : ∀ r, (t.group r).gregs = (s.group r).gregs

theorem GregsKept.of_eq {s t : State} (hcur : t.cur = s.cur) (hcells : t.cells = s.cells) : GregsKept s t :=
  ⟨hcur, fun r => by rw [group, cell, hcells, group, cell]⟩

theorem GregsKept.refl (s : State) : GregsKept s s := .of_eq rfl rfl

theorem GregsKept.trans {s t u : State} (h : GregsKept s t) (h' : GregsKept t u) : GregsKept s u :=
  ⟨h'.cur.trans h.cur, fun r => (h'.gregs r).trans (h.gregs r)⟩

theorem GregsKept.gval {s t : State} (h : GregsKept s t) (i : BitVec 7) : t.gval i = s.gval i := by
  simp only [State.gval, cg, Group.greg, h.cur, h.gregs]

theorem gregs_fired (g : Group) : (fired g).gregs = g.gregs := by
  unfold fired
  split <;> rfl

/-- Groups of which some fire keep their G registers. -/
theorem gregs_getD_fired (ln i : Nat) (gs : Map Group) :
    (Map.getD (gs.map fun g => if g.2.mon = some ln then (g.1, fired g.2) else g : Map Group) i default).gregs = (Map.getD gs i default).gregs := by
  refine Map.getD_map (P := fun g h => h.gregs = g.gregs) (fun x => ?_) (fun x => ?_) rfl i gs
  · split <;> rfl
  · split
    · exact gregs_fired x.2
    · rfl

theorem gregsKept_fireIn (ln k : Nat) (s : State) : GregsKept s (s.fireIn ln k) := by
  refine ⟨rfl, fun r => ?_⟩
  refine Map.getD_map (P := fun c e => (Map.getD e.groups r.grp default).gregs = (Map.getD c.groups r.grp default).gregs) (fun x => ?_)
    (fun x => ?_) rfl r.cell s.cells
  · split <;> rfl
  · split
    · exact gregs_getD_fired ln r.grp x.2.groups
    · rfl

theorem gregsKept_tick (s : State) : GregsKept s s.tick := .of_eq rfl rfl

theorem gregsKept_fillTlb (k : Nat) (e : TlbEntry) (s : State) : GregsKept s (s.fillTlb k e) := .of_eq rfl rfl

theorem gregsKept_fillDieTlb (d : Nat) (e : TlbEntry) (s : State) : GregsKept s (s.fillDieTlb d e) := .of_eq rfl rfl

theorem gregsKept_modArena (a : Nat) (f : Arena → Arena) (s : State) : GregsKept s (s.modArena a f) := .of_eq rfl rfl

theorem gregsKept_pages (p : Map Page) (s : State) : GregsKept s { s with pages := p } := .of_eq rfl rfl

theorem gregsKept_fireFrame (f : Nat) (s : State) : GregsKept s (s.fireFrame f) :=
  foldl_keeps (P := GregsKept s) (fun t x ht => ht.trans (gregsKept_fireIn x.2 x.1 t)) _ (.refl s)

theorem gregsKept_freeFrame (f : Nat) (s : State) : GregsKept s (s.freeFrame f) :=
  (gregsKept_fireFrame f s).trans (.of_eq rfl rfl)

theorem gregsKept_freeFill (f : Nat) (s : State) : GregsKept s (s.freeFill f) :=
  (gregsKept_freeFrame f s).trans (.of_eq rfl rfl)

/-! ### Translation -/

theorem gregsKept_perf (k c e n : Nat) (s : State) : GregsKept s (s.perf k c e n) := by
  obtain ⟨ss, h⟩ := perf_eq s k c e n
  rw [h]
  exact .of_eq rfl rfl

/-- An entry put in both TLBs. -/
theorem gregsKept_fill (k d : Nat) (e : TlbEntry) (s : State) : GregsKept s ((s.fillTlb k e).fillDieTlb d e).tick :=
  ((gregsKept_fillTlb k e s).trans (gregsKept_fillDieTlb d e _)).trans (gregsKept_tick _)

theorem gregsKept_walkFill (k c v va : Nat) (s : State) : GregsKept s (s.walkFill k c v va).1 := by
  unfold walkFill
  split
  · exact .refl s
  · split
    · exact .refl s
    · dsimp only
      split
      · exact .refl s
      · exact gregsKept_fill k (dieOf k) _ s

theorem gregsKept_overFill (k c v va : Nat) (leaf : BitVec 64) (g : BitVec 4) (s : State) : GregsKept s (s.overFill k c v va leaf g) := by
  have hmiss := gregsKept_perf k c 6 1 s
  unfold overFill
  dsimp only
  split
  · exact .refl s
  · split
    · exact hmiss.trans ((gregsKept_fillTlb _ _ _).trans (gregsKept_tick _))
    · exact (hmiss.trans (gregsKept_perf k c 7 1 _)).trans (gregsKept_fill _ _ _ _)

theorem gregsKept_translate (k c v va : Nat) (s : State) : GregsKept s (s.translate k c v va).1 := by
  have hmiss := gregsKept_perf k c 6 1 s
  unfold translate
  split
  · exact gregsKept_overFill _ _ _ _ _ _ s
  · split
    · split
      · exact .refl s
      · exact gregsKept_walkFill _ _ _ _ s
    · dsimp only
      split
      · split
        · exact hmiss.trans ((gregsKept_fillTlb _ _ _).trans (gregsKept_tick _))
        · exact hmiss.trans (gregsKept_walkFill _ _ _ _ _)
      · exact (hmiss.trans (gregsKept_perf k c 7 1 _)).trans (gregsKept_walkFill _ _ _ _ _)

/-! ### The first touch of a page -/

theorem gregsKept_chargePages {a n : Nat} {s t : State} (h : s.chargePages a n = some t) : GregsKept s t := by
  unfold chargePages at h
  dsimp only at h
  split at h
  · cases h
  · cases h
    refine GregsKept.trans (foldl_keeps (P := GregsKept s) (fun u x hu => ?_) _ (.refl s)) (gregsKept_modArena _ _ _)
    exact hu.trans (gregsKept_modArena _ _ _)

theorem gregsKept_chargeTouch {c va : Nat} {leaf : BitVec 64} {s t : State} (h : s.chargeTouch c va leaf = some t) : GregsKept s t := by
  unfold chargeTouch at h
  split at h
  · cases h
    exact .refl s
  · next p _ =>
    obtain ⟨u, hu, rfl⟩ := Option.map_eq_some_iff.mp h
    have hlist := (gregsKept_chargePages hu).trans (gregsKept_pages (Map.ins (pageKey c va) { p with charged := true } u.pages) u)
    dsimp only
    split
    · exact hlist
    · split
      · exact hlist.trans (gregsKept_freeFill _ _)
      · exact hlist

section
variable {w : Who} {a : Acc} (hwr : a.wr = false) {s t : State}
include hwr

theorem gregsKept_touch {va : Nat} {x : Xlat} {y : Option Xlat} (h : s.touch w a va x = .ok (t, y)) : GregsKept s t := by
  unfold touch at h
  split at h
  · cases h
  · split at h
    · cases h
    · next u hu =>
      simp only [needsCopy, journals, hwr, Bool.false_and, Bool.false_eq_true, if_false] at h
      cases h
      exact gregsKept_chargeTouch hu

theorem gregsKept_checkOne {va : Nat} {y : Option Xlat} (h : s.checkOne w a va = .ok (t, y)) : GregsKept s t := by
  have htr := gregsKept_translate w.k w.ctx w.view va s
  unfold checkOne at h
  split at h
  · cases h
  · split at h
    · cases h
    · next u x hu =>
      rw [hu] at htr
      split at h
      · cases h
      · split at h
        · cases h
          exact htr
        · exact htr.trans (gregsKept_touch hwr h)

theorem gregsKept_checkPieces {ps : List (Nat × Nat)} {l : List Piece} (h : checkPieces s w a ps = .ok (t, l)) : GregsKept s t := by
  induction ps generalizing s l with
  | nil =>
    cases h
    exact .refl _
  | cons p r ih =>
    obtain ⟨va, n⟩ := p
    obtain ⟨⟨u, x⟩, hu, h⟩ := bind_ok h
    obtain ⟨⟨v, ps⟩, hv, h⟩ := bind_ok h
    cases h
    exact (gregsKept_checkOne (a := { a with n := n }) hwr hu).trans (ih hv)

theorem gregsKept_checkLanes {ls : List (Nat × Nat × List (Nat × Nat))} {l : List LaneAcc} (h : checkLanes w a ls s = .ok (t, l)) :
    GregsKept s t := by
  induction ls generalizing s l with
  | nil =>
    cases h
    exact .refl _
  | cons x r ih =>
    obtain ⟨p, addr, ps⟩ := x
    unfold checkLanes at h
    split at h
    · cases h
    · next u q hu =>
      obtain ⟨⟨v, ls⟩, hv, h⟩ := bind_ok h
      cases h
      exact (gregsKept_checkPieces hwr hu).trans (ih hv)

end
end State
end Sys2Proof.Machine
end

section
/-! SUPPORT. The instructions that control cached lines, monitors, residency and bindings (R178-R183): what each comes to once its checks pass. -/
namespace Sys2Proof.Machine
open Sys2Proof State

/-- Outside rival worlds and shadow copies no kind is refused (R359, R370). -/
theorem rivalRefuses_ok {s : State} (h : refuses s = false) (gd : Guard) (addr : Nat → Nat) : rivalRefuses gd addr s = .ok () := by
  unfold rivalRefuses
  split
  · rw [h]
    exact if_neg Bool.false_ne_true
  · rfl

section
variable {o : MOp} {s s1 s2 : State} {ls : List LaneAcc}

/-! ### Lines -/

theorem eachLine_ok (hc : checkLanes (s1.whoOf s1.cur.cell) (lineAcc 1 false) (lineLanes o s1) s1 = .ok (s2, ls)) (f : State → Nat → State) :
    eachLine o f s1 = .ok ((distinct (ls.map lineOf)).foldl f s2) := by
  simp only [eachLine, hc, bind, Except.bind]
  rfl

theorem execCunpin_ready (h : Issues (.cunpin o) s s1) (href : refuses s1 = false)
    (hc : checkLanes (s1.whoOf s1.cur.cell) (lineAcc 1 false) (lineLanes o s1) s1 = .ok (s2, ls)) :
    execCunpin o s = .next (goesOn (.cunpin o) ((distinct (ls.map lineOf)).foldl
      (fun s ln => { s with l2 := Map.upd ln (fun x => { x with pin := false }) s.l2 }) s2)) := by
  refine issue_ok h ?_
  simp only [rivalRefuses_ok href, bind, Except.bind]
  exact eachLine_ok hc _

theorem execIcinv_ready (h : Issues (.icinv o) s s1)
    (hc : checkLanes (s1.whoOf s1.cur.cell) (lineAcc 1 false) (uniLanes o 1 s1) s1 = .ok (s2, ls)) :
    execIcinv o s = .next (goesOn (.icinv o) (s2.modStudio s2.ck fun st =>
      { st with icache := ls.foldl (fun m l => Map.del (physOf l.xlat l.va / 64) m) st.icache })) :=
  issue_ok h (by simp only [hc, bind, Except.bind]; rfl)

theorem execCpin_ready (h : Issues (.cpin o) s s1) (href : refuses s1 = false)
    (hc : checkLanes (s1.whoOf s1.cur.cell) (lineAcc 1 true) (lineLanes o s1) s1 = .ok (s2, ls)) :
    let r := pinLanes (s1.whoOf s1.cur.cell) o.res.toNat ls s2
    execCpin o s = .next (goesOn (.cpin o) (if o.res = 0 then r.1 else
      r.1.produce { writes := r.2, regs := [], pred := some o.res.toNat, fault := none, ckpt := none })) :=
  issue_ok h (by simp only [rivalRefuses_ok href, hc, bind, Except.bind]; rfl)

/-! ### Monitors -/

theorem execMonarm_ready {l : LaneAcc} {r : List LaneAcc} (h : Issues (.monarm o) s s1)
    (hc : checkLanes (s1.whoOf s1.cur.cell) (lineAcc 1 false) (uniLanes o 1 s1) s1 = .ok (s2, l :: r)) :
    execMonarm o s = .next (goesOn (.monarm o) (s2.modCg fun g => { g with mon := some (lineOf l), fired := false })) :=
  issue_ok h (by simp only [hc, bind, Except.bind]; rfl)

section
variable (h : Issues (.monwait o) s s1) (hact : s1.active o.gd ≠ [])
include h hact

theorem execMonwait_waits (hmon : s1.cg.mon.isSome = true) (hfired : s1.cg.fired = false) :
    execMonwait o s = .next (s1.endRun (fun _ => some (nextPC s1.crun.pc)) none .monitor) :=
  issueWith_ok h (a := .wait .monitor) (by simp [hact, hmon, hfired])

theorem execMonwait_passes (hgo : s1.cg.mon = none ∨ s1.cg.fired = true) :
    execMonwait o s = .next (goesOn (.monwait o) (s1.modCg fun g => { g with mon := none, fired := false })) :=
  issueWith_ok h (a := .seq) (by rcases hgo with hmon | hfired <;> simp [*])

end

/-! ### Residency -/

/-- The leaf that a lane's `rqpage` asks for, if any, stands among the requests (R178). -/
def requested (s : State) : Option Nat → State
  | some a => s.modModule fun m => { m with requests := Map.ins a true m.requests }
  | none => s

theorem requestLane_ok {w : Who} {p : Nat} {s3 : State} {a : Option Nat} (ha : absentLeaf w (addrOf o s1 p) s1 = .ok (s3, a)) :
    requestLane w o s1 p = .ok (requested s3 a) := by
  rw [requestLane, ha]
  cases a <;> rfl

/-! ### Bindings -/

theorem execSvbind_ready {l : LaneAcc} {r : List LaneAcc} {i : BitVec 7} {s3 : State} (h : Issues (.svbind o) s s1) (href : refuses s1 = false)
    (hc : checkLanes (s1.whoOf s1.cur.cell) (lineAcc 16 false) (uniLanes o 16 s1) s1 = .ok (s2, l :: r)) (hg : o.data = .g i)
    (hbase : (s2.gval i).toNat % 128 = 0) (hin : (s2.gval i).toNat < 2 ^ 57)
    (hlen : (s2.gval (i + 1)).toNat % 128 = 0) (hne : (s2.gval (i + 1)).toNat ≠ 0) (hmax : (s2.gval (i + 1)).toNat ≤ 2 ^ 32)
    (hb : bindRange s1.cc.ctx (physOf l.xlat l.va) l.va (s2.gval i).toNat (s2.gval (i + 1)).toNat s2 = .ok s3) :
    execSvbind o s = .next (goesOn (.svbind o) s3) := by
  have hkept := gregsKept_checkLanes rfl hc
  rw [hkept.gval] at hbase hin hb
  rw [hkept.gval] at hlen hne hmax hb
  have hstart : require ((s1.gval i).toNat % 128 = 0 && (s1.gval i).toNat < 2 ^ 57) fAlign (s1.gval i).toNat = .ok () :=
    require_of (Bool.and_eq_true_iff.mpr ⟨decide_eq_true hbase, decide_eq_true hin⟩) _ _ _
  have hsize : require ((s1.gval (i + 1)).toNat % 128 = 0 && (s1.gval (i + 1)).toNat ≠ 0 && (s1.gval (i + 1)).toNat ≤ 2 ^ 32) fAlign
      (s1.gval (i + 1)).toNat = .ok () := require_of (by simp only [decide_eq_true hlen, decide_eq_true hne, decide_eq_true hmax, Bool.and_self]) _ _ _
  have hdst : s1.gdst (.g i) = s1.gval i := rfl
  refine issue_ok h ?_
  simp only [rivalRefuses_ok href, hg, hdst, bind, Except.bind, hstart, hsize, hc]
  exact hb

theorem execSvunbind_ready {l : LaneAcc} {r : List LaneAcc} (h : Issues (.svunbind o) s s1) (href : refuses s1 = false)
    (hc : checkLanes (s1.whoOf s1.cur.cell) (lineAcc 16 false) (uniLanes o 16 s1) s1 = .ok (s2, l :: r)) :
    let pa := physOf l.xlat l.va
    execSvunbind o s = .next (goesOn (.svunbind o)
      { s2 with svs := Map.ins (s2.svDie pa) ((svTable s2 (s2.svDie pa)).filter fun e => !(e.ctx == s1.cc.ctx && e.var == pa / 16 * 16)) s2.svs }) :=
  issue_ok h (by simp only [rivalRefuses_ok href, hc, bind, Except.bind]; rfl)

end
end Sys2Proof.Machine

open Sys2Proof Sys2Proof.Machine Sys2Proof.Machine.State

/-- Settles O16, instruction by instruction; the checks of a binding leave the registers that its range is read from. -/
theorem memoryControlInstructionsComplete : Obligations.MemoryControlInstructionsComplete := by
  unfold Obligations.MemoryControlInstructionsComplete
  refine ⟨⟨fun o s s1 s2 ls hc => ⟨fun h => issue_ok h (eachLine_ok hc _), fun h => issue_ok h (eachLine_ok hc _),
      fun h => issue_ok h (eachLine_ok hc _), fun h href => execCunpin_ready h href hc⟩,
    fun o s s1 s2 ls hc => ⟨fun h => execIcinv_ready h hc, fun h l r hls => execMonarm_ready h (hls ▸ hc)⟩⟩,
    ⟨fun o s s1 h => issueOk_ready h, fun o s s1 s2 h hf => ⟨issue_ok h hf, fun p s3 a hp ha => ?_⟩,
      fun o s s1 s2 ls h href hc => execCpin_ready h href hc, fun o s s1 h => issueOk_ready h,
      fun o s s1 h hact => ⟨execMonwait_waits h hact, execMonwait_passes h hact⟩⟩,
    fun o s s1 s2 l r href hc => ⟨fun i s3 h hg hbase hin hlen hne hmax hb => execSvbind_ready h href hc hg hbase hin hlen hne hmax hb,
      fun h => execSvunbind_ready h href hc⟩⟩
  rw [hp, List.foldlM_cons, requestLane_ok ha] at hf
  obtain rfl := Except.ok.inj hf
  cases a <;> rfl
end

section
/-! SUPPORT. The events of caches, drops, seals and translations (R158-R161, R176, R333-R336, R380), each under its condition. -/
namespace Sys2Proof.Machine
open Sys2Proof State

/-! ### Buffers and evictions -/

theorem execRedMerge_held {k i : Nat} {s : State} {b : RedBuf} (h : (s.studio k).reds[i]? = some b) :
    execRedMerge k i s = .next (s.mergeReds k fun c => c.line == b.line) := by
  simp only [execRedMerge, h]

theorem execCacheEviction_l1 {s : State} {k ln : Nat} {l : Line} (h : s.l1Live k ln = some l) :
    execCacheEviction (.l1 k) ln false s = .next ((s.wbL1 k ln).dropL1 k ln) := by
  simp only [execCacheEviction, evict, h, Bool.false_and, Bool.false_eq_true, if_false]

section
variable {s : State} {ln : Nat} {l l' : Line} (h : Map.find ln s.l2 = some l) (hlive : s.l2Live ln = some l')
include h hlive

theorem execCacheEviction_l2_loose (hpin : l.pin = false) :
    execCacheEviction .l2 ln false s = .next { s.wbL2 ln with l2 := Map.del ln (s.wbL2 ln).l2 } := by
  simp only [execCacheEviction, evict, h, hlive, hpin, Bool.false_and, Bool.false_eq_true, if_false]

theorem execCacheEviction_l2_pinned (hpin : l.pin = true) (bad : Bool) : execCacheEviction .l2 ln bad s = .next s := by
  simp only [execCacheEviction, evict, h, hlive, hpin, if_true]

end

/-! ### Drops, sweeps and seals -/

/-- A unit's new generation of arena `a`, once it applies the drop that brings it, `g`; its seal of the arena is gone (R333). -/
def droppedAt (u a : Nat) (w : Sweep) (g : BitVec 4) (s : State) : State :=
  let x := Map.getD s.units u default
  { s with units := Map.ins u { x with
      gen := if Map.getD x.gen a 0 = BitVec.ofNat 4 w.gen then Map.put 0 a g x.gen else x.gen, seals := Map.put false a false x.seals } s.units }

theorem execDropBroadcastApply_next {u a : Nat} {s : State} {w : Sweep} {g : BitVec 4} (h : nextDrop u a s = some (w, g)) :
    let s1 := sweepUnit u a w.gen (droppedAt u a w g s)
    execDropBroadcastApply u a s = .next { s1 with
      sweeps := s1.sweeps.map fun x => if x.arena == a && x.gen == w.gen then { x with units := x.units.filter (· != u) } else x } := by
  simp only [execDropBroadcastApply, applyDrop, h]
  rfl

/-- A sweep ends with its generation's sweeping bit cleared (R334). -/
theorem finishSweep_sweeping (w : Sweep) (s : State) (hgen : w.gen < 16) :
    ((finishSweep w s).arena w.arena).sweeping.getLsbD w.gen = false := by
  obtain ⟨u, hu⟩ : ∃ u : State, (finishSweep w s).arena w.arena =
      ((u.modArena w.arena fun e => { e with sweeping := setBit e.sweeping w.gen false }).modArena w.arena fun e =>
        if e.sweeping = 0 ∧ e.state = 3 then { e with state := 0, owner := 0, parent := 0, depth := 0 } else e).arena w.arena := ⟨_, rfl⟩
  have hclear (e : Arena) : (if e.sweeping = 0 ∧ e.state = 3 then { e with state := 0, owner := 0, parent := 0, depth := 0 } else e).sweeping =
      e.sweeping := by
    split <;> rfl
  rw [hu, arena_modArena_same, hclear, arena_modArena_same, getLsbD_setBit _ _ _ _ hgen, if_pos rfl]

theorem execSweepComplete_acked {a g : Nat} {s : State} {w : Sweep} (h : s.sweeps.find? (fun w => w.arena == a && w.gen == g) = some w)
    (hunits : w.units = []) : execSweepComplete a g s = .next (finishSweep w s) := by
  simp only [execSweepComplete, h, hunits, List.isEmpty_nil, if_true]

/-- The seal stands at the unit, and what it holds of the arena goes home (R336). -/
theorem execSealBroadcastApply_seals {u a : Nat} {s : State} {w : SealB}
    (h : s.sealbs.find? (fun w => w.arena == a && w.units.contains u) = some w) (hturn : u < 192 ∨ ∀ x ∈ w.units, 192 ≤ x)
    (hgen : (s.arena a).gen.toNat = w.gen) (hdrop : nextDrop u a s = none) :
    let x := Map.getD s.units u default
    let s1 := sealUnit u a w.gen { s with units := Map.ins u { x with seals := Map.put false a true x.seals } s.units }
    execSealBroadcastApply u a s = .next { s1 with
      sealbs := (s1.sealbs.map fun x => if x.arena == a && x.gen == w.gen then { x with units := x.units.filter (· != u) } else x).filter
                  fun x => !x.units.isEmpty } := by
  have hgo : ¬(192 ≤ u ∧ w.units.any (· < 192) = true) := by
    rintro ⟨hu, hany⟩
    obtain ⟨x, hx, hlt⟩ := List.any_eq_true.mp hany
    have := of_decide_eq_true hlt
    rcases hturn with hu' | hall
    · omega
    · have := hall x hx
      omega
  simp only [execSealBroadcastApply, h, hgo, hgen, hdrop, Option.isSome_none, Bool.false_eq_true, and_false, if_false, ne_eq, not_true]

/-! ### Shoot-downs, migrations and rewrites -/

theorem execTlbShootdownAck_waits {u i : Nat} {s : State} {w : Shoot} (h : s.shoots[i]? = some w) (hu : w.units.contains u = true) :
    execTlbShootdownAck u i s = .next (ackShoot u w s) := by
  simp only [execTlbShootdownAck, h, hu, if_true]

section
variable {p : LeafPlace} {s : State} (hreq : Map.getD s.module.requests p.addr false = true)
include hreq

theorem execMigrationBegin_idle
    (habs : (leafBit (s.pte p.addr 0) 0 && leafBit (s.pte p.addr 0) 1 && leafRes (s.pte p.addr 0) = 2) = false) :
    execMigrationBegin p s = .next (s.modModule fun m => { m with requests := Map.del p.addr m.requests }) := by
  rw [execMigrationBegin, leafWord, hreq, habs]
  rfl

/-- An absent page that is asked for becomes migrating (R178). -/
theorem execMigrationBegin_absent {s2 : State} {a : Nat} (hvalid : leafBit (s.pte p.addr 0) 0 = true) (hleaf : leafBit (s.pte p.addr 0) 1 = true)
    (hres : leafRes (s.pte p.addr 0) = 2) (hpart : partLeaf p s = some (s2, a)) :
    let s3 := s2.modModule fun m => { m with requests := Map.del p.addr m.requests }
    let s4 := s3.setLeafAt a (withRes (s3.pte a 0) 1)
    execMigrationBegin p s = .next (if p.part.isSome then shootLeaf (leafMaps a s4) (some (a, s3.pte a 0)) s4 else s4) := by
  simp only [execMigrationBegin, leafWord, hreq, hvalid, hleaf, hres, hpart, Bool.not_true, decide_true, Bool.and_self, Bool.false_eq_true, if_false]

end

section
variable {at' : Nat} {s : State}

theorem execMigrationEnd_shot (h : leafShot at' s = true) (fate : PageFate) : execMigrationEnd at' fate s = .next s := by
  simp only [execMigrationEnd, h, Bool.or_true, if_true]

variable (hvalid : leafBit (s.pte at' 0) 0 = true) (hleaf : leafBit (s.pte at' 0) 1 = true) (hres : leafRes (s.pte at' 0) = 1)
  (hquiet : leafShot at' s = false)
include hvalid hleaf hres hquiet

theorem execMigrationEnd_absent : execMigrationEnd at' .absent s = .next (settleHeld (s.setLeafAt at' (withRes (s.pte at' 0) 2))) := by
  simp only [execMigrationEnd, leafWord, hvalid, hleaf, hres, hquiet, decide_true, Bool.and_self, Bool.not_true, Bool.or_self, Bool.false_eq_true, if_false]

theorem execMigrationEnd_stays : execMigrationEnd at' .stays s = .next (settleHeld (s.setLeafAt at' (withRes (s.pte at' 0) 0))) := by
  simp only [execMigrationEnd, leafWord, hvalid, hleaf, hres, hquiet, decide_true, Bool.and_self, Bool.not_true, Bool.or_self, Bool.false_eq_true, if_false]

theorem execMigrationEnd_moved (f : Nat) : let l := s.pte at' 0
    let n := 2 ^ sizeShift (bits l.toNat 11 10) / 65536
    mayMove f n s = true → execMigrationEnd at' (.moved f) s = .next
      (settleHeld (((List.range n).foldl (fun s j => s.moveFrame (leafFrame l + j) (f + j)) s).setLeafAt at' (withRes (withFrame l f) 0))) := by
  intro l n hmay
  simp only [n, l] at hmay
  simp only [execMigrationEnd, leafWord, hvalid, hleaf, hres, hquiet, hmay, decide_true, Bool.and_self, Bool.not_true, Bool.or_self, Bool.false_eq_true,
    if_false]
  rfl

end

theorem execLeafRewrite_found {p : LeafPlace} {v : BitVec 64} {s s2 : State} {a : Nat} (h : partLeaf p s = some (s2, a)) :
    let s3 := putLeaf a v s2
    execLeafRewrite p v s = .next (if p.part.isSome then shootLeaf (leafMaps a s2) (some (a, s2.pte a 0)) s3
      else shootLeaf (distinct (leafMaps a s2 ++ leafMaps a s3)) none s3) := by
  simp only [execLeafRewrite, h, leafWord]

end Sys2Proof.Machine

open Sys2Proof Sys2Proof.Machine Sys2Proof.Machine.State

/-- Settles O47, event by event: under its condition each takes the branch of its effect. -/
theorem cacheAndTranslationEventsComplete : Obligations.CacheAndTranslationEventsComplete := by
  unfold Obligations.CacheAndTranslationEventsComplete
  refine ⟨fun k i s b h => execRedMerge_held h, fun s k ln l h => execCacheEviction_l1 h,
    fun s ln l l' h hlive => ⟨execCacheEviction_l2_loose h hlive, execCacheEviction_l2_pinned h hlive⟩,
    fun u a s w g h => execDropBroadcastApply_next h, fun a g s w h hunits => ⟨_, execSweepComplete_acked h hunits, rfl, fun hg => ?_⟩,
    fun u a s w h hturn hgen hdrop => execSealBroadcastApply_seals h hturn hgen hdrop,
    fun u i s w h hu => execTlbShootdownAck_waits h hu, fun p s => ?_, fun at' s => ?_, fun p v s s2 a h => ?_⟩
  · have hw := List.find?_some h
    obtain ⟨ha, hgen⟩ := Bool.and_eq_true_iff.mp hw
    obtain rfl := eq_of_beq ha
    obtain rfl := eq_of_beq hgen
    exact finishSweep_sweeping w s hg
  · intro at' hreq l t
    refine ⟨execMigrationBegin_idle hreq, ?_⟩
    intro hvalid hleaf hres s2 a hpart s3 s4
    have hbegin := execMigrationBegin_absent hreq hvalid hleaf hres hpart
    refine ⟨fun hwhole => ?_, fun hsome => ?_⟩
    · rw [hwhole] at hbegin
      exact hbegin
    · exact hbegin.trans (congrArg Host.Outcome.next (if_pos (Option.isSome_iff_ne_none.mpr hsome)))
  · intro l n hvalid hleaf hres
    exact ⟨execMigrationEnd_shot, fun hquiet => ⟨execMigrationEnd_absent hvalid hleaf hres hquiet, execMigrationEnd_stays hvalid hleaf hres hquiet,
      execMigrationEnd_moved hvalid hleaf hres hquiet⟩⟩
  · intro s3
    have hwrite := execLeafRewrite_found (v := v) h
    refine ⟨fun hwhole => ?_, fun hsome => ?_⟩
    · rw [hwhole] at hwrite
      exact hwrite
    · exact hwrite.trans (congrArg Host.Outcome.next (if_pos (Option.isSome_iff_ne_none.mpr hsome)))
end

section
/-! SUPPORT. The floating-point instructions with one result per lane (R212-R223) and `chrun` (R237) write their rule's value in each active
lane, and `fscl` (R225) writes a register and a predicate there; none of them moves the end of the run. -/
namespace Sys2Proof.Machine
open Sys2Proof Rules State

/-- The elements of a result, one or two, side by side (R187). -/
theorem foldl_elements (two : Prop) [Decidable two] (w : Nat) (e : Nat → Nat) :
    (if two then [0, 1] else [0]).foldl (fun v k => v + e k * 2 ^ (w * k)) 0 = if two then e 0 + e 1 * 2 ^ w else e 0 := by
  split
  · simp
  · simp

section
variable (i : Instr) (major : Nat) (o : AOp) (s : State)

theorem floatOp_eq_alu (f : RCtx → List Nat → Nat) :
    floatOp i major o s f = alu i o (perElement major o f).2.1 s (perElement major o f).2.2 := by
  unfold floatOp alu perElement
  simp only [foldl_elements]

theorem floatArith_eq_alu (f : Bool → List Val → Val) :
    floatArith i major o s f = alu i o (once major o fun c => f (c.mode == 3)).2.1 s (once major o fun c => f (c.mode == 3)).2.2 :=
  floatOp_eq_alu ..

theorem floatUnary_eq_alu (f : RCtx → Val → Nat) :
    floatUnary i major o s f = alu i o (ofOne major o f).2.1 s (ofOne major o f).2.2 :=
  floatOp_eq_alu ..

end

/-- Every row of R212-R223 is an element-wise instruction (R109) with the table's value. -/
theorem exec_of_floatElem {i : Instr} {o : AOp} {ty : Ty} {f : State → Nat → Nat} (h : floatElem i = some (o, ty, f)) (s : State) :
    exec i s = alu i o ty s f := by
  unfold floatElem at h
  split at h
  case h_27 => cases h
  all_goals
    cases h
    dsimp only [exec]
  -- exact arithmetic: `fadd`, `fsub`, `fmul`, `ffma`, `dadd`, `dmul`, `dfma`
  case h_1 | h_2 | h_3 | h_4 | h_23 | h_24 | h_25 => exact floatArith_eq_alu ..
  -- `fmin` and `fmax`
  case h_5 | h_6 => exact floatOp_eq_alu ..
  -- with a value of their own: `fclass`, `xins`, `xgetE`, the conversions, `fdot2`
  case h_7 | h_16 | h_17 | h_19 | h_20 | h_21 | h_22 => rfl
  -- functions of one source
  all_goals exact floatUnary_eq_alu ..

/-- `chrun` of a chain of the acting context writes the chain's value in every active lane (R237). -/
theorem exec_chrun_ready {o : AOp} {s s1 : State} {ch : Chain} (h : Issues (.chrun o) s s1)
    (hch : Map.find (bits o.m.toNat 2 0) (s1.studio s1.ck).chains = some ch) (hctx : ch.ctx = s1.cc.ctx) :
    exec (.chrun o) s = .next (goesOn (.chrun o) (s1.apply o.gd o.d .n32 (chainElem o ch s1))) := by
  refine issue_ok h ?_
  simp only [hch, hctx, ne_eq, not_true, if_false, foldl_elements]
  refine congrArg (fun f => Except.ok (s1.apply o.gd o.d .n32 f)) (funext fun p => ?_)
  by_cases hw : o.ty.width = 16
  · simp only [chainElem, hw, if_true]
  · simp only [chainElem, hw, if_false]

theorem crun_last_fsclEffect (o : AOp) (s : State) : (fsclEffect o s).crun.last = s.crun.last :=
  foldl_keeps (P := fun s' : State => s'.crun.last = s.crun.last)
    (fun s' x h => by rw [crun_setPredAt, crun_last_write, h]) _ rfl

/-- Block scales for e4m3 of f32 elements (R225); every operand is v0, and p0 discards the mark. -/
def scaleV0 : AOp := { onV0 .e4m3 with m := 0x1200 }

/-- A chain of one operation, the sum of x and y in k0, whose result is rounded to nearest (R235). -/
def sumChain : Chain := ⟨[0x0130100000000000], [0, 0, 0, 0], 0, 0, 0⟩
/-- `justCounted` with `sumChain` in slot 0 of the studio. -/
def countedWithChain : State := justCounted.modStudio justCounted.ck fun st => { st with chains := [(0, sumChain)] }

end Sys2Proof.Machine

open Sys2Proof Sys2Proof.Machine Sys2Proof.Machine.State

/-- Refutes O3, as O1, by the `fadd` of v0 to itself: it writes the rule's value, but the frame keeps the run's mark that the present
instruction has been counted, and the mark is clear at the next slot (R313). -/
theorem not_floatResults : ¬ Obligations.FloatResults := by
  unfold Obligations.FloatResults
  intro h
  have hissues : Issues (.fadd (onV0 .f32)) justCounted justCounted := ⟨by decide +kernel, rfl⟩
  obtain ⟨t, ht, -, hframe⟩ := h (.fadd (onV0 .f32)) _ _ _ justCounted justCounted rfl (by decide) hissues
  exact not_regFrame_of_alu hissues rfl rfl ((exec_of_floatElem rfl _).symm.trans ht) hframe

/-- Refutes O7, as O1, by an `fscl`: its frame keeps the counted mark as well (R313). -/
theorem not_rangeConversionAndScanFrames : ¬ Obligations.RangeConversionAndScanFrames := by
  unfold Obligations.RangeConversionAndScanFrames
  rintro ⟨hfscl, -⟩
  have hissues : Issues (.fscl scaleV0) justCounted justCounted := ⟨by decide +kernel, rfl⟩
  obtain ⟨t, -, ht, hframe⟩ := hfscl scaleV0 justCounted justCounted (by decide) hissues
  rw [ht] at hframe
  exact not_runFrame_goesOn (crun_last_fsclEffect ..) rfl hframe.run

/-- Refutes O30, as O1, by a `chrun` of `sumChain`: it writes the chain's value, but its frame keeps the counted mark as well (R313). -/
theorem not_chainInstructionsComplete : ¬ Obligations.ChainInstructionsComplete := by
  unfold Obligations.ChainInstructionsComplete
  rintro ⟨-, hchrun⟩
  have hissues : Issues (.chrun (onV0 .f32)) countedWithChain countedWithChain := ⟨by decide +kernel, rfl⟩
  have hchain : Map.find (bits (onV0 .f32).m.toNat 2 0) (countedWithChain.studio countedWithChain.ck).chains = some sumChain := rfl
  obtain ⟨t, ht, -, hframe⟩ := hchrun (onV0 .f32) countedWithChain countedWithChain sumChain (by decide) hissues hchain rfl
  obtain rfl := Host.Outcome.next.inj ((exec_chrun_ready hissues hchain rfl).symm.trans ht)
  exact not_runFrame_goesOn (crun_last_apply ..) rfl hframe.run
end

section
/-! SUPPORT. The matrix and palette instructions (R264-R274), one lemma for each way they end. -/
namespace Sys2Proof.Machine
open Sys2Proof State Rules

/-! ### The checks of R263 -/

theorem savedElsewhere_of_mayUseTiles {s : State} (h : mayUseTiles s) : savedElsewhere s = false := by
  rcases h with h | ⟨h, -⟩
  · simp [savedElsewhere, h]
  · simp [savedElsewhere, h]

theorem ownerCheck_ok {s : State} (h : mayUseTiles s) (gd : Guard) (addr : Nat) : ownerCheck gd addr s = .ok () := by
  simp only [ownerCheck, savedElsewhere_of_mayUseTiles h]
  refine require_of ?_ _ _ _
  rcases h with h | ⟨-, h⟩
  · simp [h]
  · simp [h]

theorem tileCheck_ok {s : State} {k : Nat} (h : k < s.cc.tileCount) : tileCheck k s = .ok () := require_of (decide_eq_true h) _ _ _
theorem palCheck_ok {s : State} (h : s.cc.pal = true) (addr : Nat) : palCheck addr s = .ok () := require_of h _ _ _
theorem cvCheck_ok {s : State} {k : Nat} (h : cvDeclared (s.cc.cv k) ≠ 0) : cvCheck k s = .ok () := require_of (decide_eq_true h) _ _ _

/-- The cell of the acting group with a command entered at the end of its queue. -/
def withCmd (c : Cmd) (s : State) : State := s.tick.modCc fun x => { x with cmds := x.cmds ++ [{ c with id := s.fresh }] }

theorem queueCmd_room {s : State} (h : s.cc.cmds.length < 8) (c : Cmd) : queueCmd c s = .ok (withCmd c s) :=
  if_neg (Nat.not_le.mpr h)

/-! ### Convergence registers (R246, R264, R265) -/

section
variable {o : XOp} {s s1 : State} (hact : s1.active o.gd ≠ []) (huse : mayUseTiles s1)
include huse

theorem execCvsign_counts (h : Issues (.cvsign o) s s1) (hdecl : cvDeclared (s1.cc.cv o.cv) ≠ 0) :
    let w := s1.cc.cv o.cv
    let n := cvSigned w + (s1.active o.gd).length
    cvCredits w + n / cvDeclared w ≤ 15 → execCvsign o s = .next (goesOn (.cvsign o) (s1.modCc fun c =>
      let c := c.setCv o.cv (cvWord (cvCredits w + n / cvDeclared w) (n % cvDeclared w) (cvDeclared w))
      { c with cvFired := Map.ins o.cv (Map.getD c.cvFired o.cv [] ++ List.replicate (n / cvDeclared w) (Map.getD s1.cc.cvFence o.cv 0)) c.cvFired })) :=
  fun hfits => issue_ok h (by
    simp only [bind, Except.bind, pure, Except.pure, ownerCheck_ok huse, cvCheck_ok hdecl, require_of (decide_eq_true hfits)])

include hact

theorem execCvdecl_declares (h : Issues (.cvdecl o) s s1) (hsigned : cvSigned (s1.cc.cv o.cv) = 0) (hval : o.val ≤ s1.cc.shape) :
    execCvdecl o s = .next (goesOn (.cvdecl o) (s1.modCc fun c => c.setCv o.cv (cvWord (cvCredits (s1.cc.cv o.cv)) 0 o.val))) :=
  have hok : (decide (cvSigned (s1.cc.cv o.cv) = 0) && decide (o.val ≤ s1.cc.shape)) = true := by simp [hsigned, hval]
  issue_ok h (by
    simp only [bind, Except.bind, pure, Except.pure, ownerCheck_ok huse, require_of hok, List.isEmpty_iff, hact, if_false])

theorem execMfence_opens (h : Issues (.mfence o) s s1) (hdecl : cvDeclared (s1.cc.cv o.cv) ≠ 0) :
    execMfence o s = .next (goesOn (.mfence o) (s1.tick.modCc fun c => c.fenceCv o.cv s1.fresh)) :=
  issue_ok h (by
    simp only [bind, Except.bind, pure, Except.pure, ownerCheck_ok huse, cvCheck_ok hdecl, List.isEmpty_iff, hact, if_false])

end

/-! ### Commands on tiles (R266, R268, R270) -/

section
variable {o : XOp} {s s1 : State} (hact : s1.active o.gd ≠ []) (huse : mayUseTiles s1) (htile : o.tile < s1.cc.tileCount)
  (hroom : s1.cc.cmds.length < 8)
include hact huse htile hroom

/-- A command with no check but those of its tile and of the group is entered in the queue. -/
theorem tileCommand_queues (c : Cmd) : (do
    tileCheck o.tile s1
    ownerCheck o.gd o.tile s1
    if (s1.active o.gd).isEmpty then return s1
    queueCmd c s1) = .ok (withCmd c s1) := by
  simp only [bind, Except.bind, pure, Except.pure, tileCheck_ok htile, ownerCheck_ok huse, queueCmd_room hroom, List.isEmpty_iff, hact, if_false]

theorem execMzero_queues (h : Issues (.mzero o) s s1) : execMzero o s = .next (goesOn (.mzero o) (withCmd (cmdOf 0x73 o) s1)) :=
  issue_ok h (tileCommand_queues hact huse htile hroom _)

theorem execMwrite_queues (h : Issues (.mwrite o) s s1) : execMwrite o s = .next (goesOn (.mwrite o)
    (withCmd { cmdOf 0x79 o with rows := captureRows o s1, mask := maskOf (s1.active o.gd) } s1)) :=
  issue_ok h (tileCommand_queues hact huse htile hroom _)

theorem execMcheck_queues (h : Issues (.mcheck o) s s1) : execMcheck o s = .next (goesOn (.mcheck o) (withCmd (cmdOf 0x7A o) s1)) :=
  issue_ok h (tileCommand_queues hact huse htile hroom _)

theorem execMdrain_queues (h : Issues (.mdrain o) s s1) (hdst : 64 * o.val + 2048 ≤ s1.cc.scratchSz) :
    execMdrain o s = .next (goesOn (.mdrain o) (withCmd (cmdOf 0x77 o) s1)) :=
  issue_ok h (by
    simp only [bind, Except.bind, pure, Except.pure, tileCheck_ok htile, ownerCheck_ok huse, require_of (decide_eq_true hdst),
      queueCmd_room hroom, List.isEmpty_iff, hact, if_false])

/-- The command of a multiplication with descriptor `d` and scales at `sl`: `mma` has one segment, `mmar` a table of them (R266). -/
def mulCmd (major : Nat) (o : XOp) (d : BitVec 64) (sl : Nat) : Cmd :=
  { cmdOf major o with desc := d, coord := BitVec.ofNat 64 sl,
                       segs := if major = 0x74 then [{ cb := mdCb d, pslab := mdSlab d, sslab := sl, rows := 32 }] else [] }

section
variable {int : Bool} (hpal : s1.cc.pal = true) (hdecl : cvDeclared (s1.cc.cv o.cv) ≠ 0) (hplain : refuses s1 = false)
  (hmode : modeAhead s1.cc o.tile = int)
include hpal hdecl hplain hmode

/-- R266: a multiplication that passes every check of R263 is entered in the queue. -/
theorem mulIssue_queues {major : Nat} :
    let d := s1.gval o.record
    let sl := if major = 0x74 then s1.src 0 o.coord 32 (s1.uniPos o.gd) else 0
    mulCheck (major = 0x75) d sl s1 = .ok int → (major ≠ 0x75 ∨ 64 * o.val + 8 * o.count.toNat ≤ s1.cc.scratchSz) →
      mulIssue major o s1 = .ok (withCmd (mulCmd major o d sl) s1) := by
  intro d sl hcheck htab
  have htab : (decide (major ≠ 0x75) || decide (64 * o.val + 8 * o.count.toNat ≤ s1.cc.scratchSz)) = true := by simpa using htab
  have hmode : (modeAhead s1.cc o.tile == int) = true := beq_iff_eq.mpr hmode
  have hchecks : mulIssue major o s1 = queueCmd (mulCmd major o d sl) s1 := by
    simp only [mulIssue, mulCmd, bind, Except.bind, pure, Except.pure, tileCheck_ok htile, palCheck_ok hpal, ownerCheck_ok huse, d, sl] at hcheck ⊢
    simp only [hcheck, require_of htab, cvCheck_ok hdecl, require_of hmode, List.isEmpty_iff, hact, hplain, if_false, Bool.false_eq_true]
  exact hchecks.trans (queueCmd_room hroom _)

theorem execMma_queues (h : Issues (.mma o) s s1) :
    let d := s1.gval o.record
    let sl := s1.src 0 o.coord 32 (s1.uniPos o.gd)
    mulCheck false d sl s1 = .ok int → execMma o s = .next (goesOn (.mma o) (withCmd (mulCmd 0x74 o d sl) s1)) :=
  fun hcheck => issue_ok h (mulIssue_queues hact huse htile hroom hpal hdecl hplain hmode hcheck (.inl (by decide)))

theorem execMmar_queues (h : Issues (.mmar o) s s1) (htab : 64 * o.val + 8 * o.count.toNat ≤ s1.cc.scratchSz) :
    let d := s1.gval o.record
    mulCheck true d 0 s1 = .ok int → execMmar o s = .next (goesOn (.mmar o) (withCmd (mulCmd 0x75 o d 0) s1)) :=
  fun hcheck => issue_ok h (mulIssue_queues hact huse htile hroom hpal hdecl hplain hmode hcheck (.inr htab))

end
end

/-! ### mwait, mread (R267, R269) -/

/-- Judging the windows of a tile leaves the commands outstanding. -/
theorem cmds_settleWatch (m : Nat) (s : State) : (settleWatch s.cur.cell m s).cc.cmds = s.cc.cmds := by
  unfold settleWatch
  dsimp only
  split
  · rfl
  · simp only [cc, cell, modCell, setCell, Map.getD_ins_same]
    rfl

theorem tileBusy_settleWatch (m k : Nat) (s : State) : tileBusy (settleWatch s.cur.cell m s).cc k = tileBusy s.cc k := by
  simp only [tileBusy, cmds_settleWatch]

section
variable {o : XOp} {s s1 : State} (hact : s1.active o.gd ≠ []) (huse : mayUseTiles s1) (htile : o.tile < s1.cc.tileCount)
include hact huse htile

theorem execMwait_waits (h : Issues (.mwait o) s s1) (hbusy : tileBusy s1.cc o.tile = true) :
    execMwait o s = .next (s1.endRun (fun _ => some (nextPC s1.crun.pc)) none (.tile o.tile (tileCmds s1.cc o.tile) s1.cg.handler)) :=
  issueWith_ok (a := .wait (.tile o.tile (tileCmds s1.cc o.tile) s1.cg.handler)) h (by
    simp only [bind, Except.bind, pure, Except.pure, tileCheck_ok htile, ownerCheck_ok huse, List.isEmpty_iff, hact, hbusy, if_true, if_false])

theorem execMwait_observes (h : Issues (.mwait o) s s1) (hidle : tileBusy s1.cc o.tile = false)
    (hgood : (s1.cc.tile o.tile).status.getLsbD 28 = false) :
    execMwait o s = .next (goesOn (.mwait o) (endWindows s1.cur.cell o.tile s1)) :=
  issueWith_ok h (by
    simp only [bind, Except.bind, pure, Except.pure, tileCheck_ok htile, ownerCheck_ok huse, List.isEmpty_iff, hact, hidle, uncorr, hgood,
      if_false, Bool.false_eq_true])

theorem execMwait_uncorr (h : Issues (.mwait o) s s1) (hidle : tileBusy s1.cc o.tile = false)
    (hbad : (s1.cc.tile o.tile).status.getLsbD 28 = true) :
    execMwait o s = .next (s.raise
      { code := fTileUncorr, sub := if (s1.cc.tile o.tile).badTab then 1 else 0, addr := BitVec.ofNat 64 o.tile, clr := .tile o.tile }) :=
  issueWith_raise h (by
    simp only [bind, Except.bind, pure, Except.pure, tileCheck_ok htile, ownerCheck_ok huse, List.isEmpty_iff, hact, hidle, uncorr, hbad,
      if_true, if_false, Bool.false_eq_true]) rfl

theorem execMread_idle (h : Issues (.mread o) s s1) (hidle : tileBusy s1.cc o.tile = false) :
    let s2 := settleWatch s1.cur.cell o.tile s1
    execMread o s = .next (goesOn (.mread o) ((s2.modCc fun c =>
      { c with cmds := c.cmds.map fun x => if x.tile == o.tile && isMul x then { x with taint := true } else x }).produce
      { writes := (s2.active o.gd).flatMap fun p => (readWords (o.sub == 1) (s2.cc.tile o.tile) p).zipIdx.map fun x =>
          RegWrite.v (s2.clOf p) (o.dest.vIdx + x.2) (BitVec.ofNat 32 x.1),
        regs := vRange o.dest.vIdx (if o.sub = 0 then 16 else 4), pred := none, fault := none, ckpt := none })) :=
  issue_ok h (by
    simp only [bind, Except.bind, pure, Except.pure, tileCheck_ok htile, ownerCheck_ok huse, List.isEmpty_iff, hact, tileBusy_settleWatch, hidle,
      if_false, Bool.false_eq_true])

end

/-! ### The matrix state (R271) -/

theorem savedElsewhere_of_saved_here {s : State} (h : s.cc.saved = some s.cur.grp) : savedElsewhere s = false :=
  savedElsewhere_of_mayUseTiles (.inl h)
theorem savedElsewhere_of_unsaved {s : State} (h : s.cc.saved = none) : savedElsewhere s = false := by simp [savedElsewhere, h]

section
variable {o : XOp} {s s1 : State} (hact : s1.active o.gd ≠ [])
include hact

theorem execMsave_saves {s2 : State} (h : Issues (.msave o) s s1) (hhandler : s1.cg.handler = true) (hunsaved : s1.cc.saved = none)
    (hidle : (s1.cc.cmds.any fun c => c.started) = false) :
    let a := (s1.gval o.record).toNat % 2 ^ 57
    a % 64 = 0 → writeVa (s1.whoOf s1.cur.cell) 64 a (matrixImage s1.cc) s1 = .ok s2 →
      execMsave o s = .next (goesOn (.msave o) (s2.modCc fun c =>
        { c with saved := some s2.cur.grp, savedCmds := c.cmds, savedFired := c.cvFired, savedWatch := c.watch,
                 savedTabs := (c.tiles.filter fun t => t.2.badTab).map Prod.fst, cmds := [], tiles := [], cvs := [], cvFired := [], watch := [] })) := by
  intro a halign hwrite
  have hown : (s1.cg.handler && s1.cc.saved.isNone) = true := by simp [hhandler, hunsaved]
  exact issue_ok h (by
    simp only [bind, Except.bind, pure, Except.pure, savedElsewhere_of_unsaved hunsaved, List.isEmpty_iff, hact, require_of hown, hidle,
      halign, hwrite, a, ne_eq, not_true, if_false, Bool.false_eq_true])

theorem execMrestore_restores {s2 : State} {b : List (BitVec 8)} (h : Issues (.mrestore o) s s1) (hsaved : s1.cc.saved = some s1.cur.grp)
    (hidle : s1.cc.cmds = []) :
    let a := (s1.gval o.record).toNat % 2 ^ 57
    a % 64 = 0 → readVa (s1.whoOf s1.cur.cell) false 64 a 41472 s1 = .ok (s2, b) → imageOk s2.cc b = true →
      execMrestore o s = .next (goesOn (.mrestore o) (settleZaps s2.ck (s2.modCc fun c => restoreImage c b))) := by
  intro a halign hread himage
  have hown : (s1.cc.saved == some s1.cur.grp) = true := beq_iff_eq.mpr hsaved
  exact issue_ok h (by
    simp only [bind, Except.bind, pure, Except.pure, savedElsewhere_of_saved_here hsaved, List.isEmpty_iff, hact, require_of hown, hidle,
      halign, hread, require_of himage, a, ne_eq, not_true, List.isEmpty_nil, Bool.not_true, if_false, Bool.false_eq_true])

end

/-! ### The palette (R272-R274) -/

section
variable {o : XOp} {s s1 : State} (hact : s1.active o.gd ≠ []) (hpal : s1.cc.pal = true) (huse : mayUseTiles s1)
include hact hpal huse

theorem execPfill_starts {s2 : State} {r : List (BitVec 8)} (h : Issues (.pfill o) s s1) (hplain : refuses s1 = false) :
    let a := (s1.gval o.record).toNat % 2 ^ 57
    let f := o.imm.toNat
    a % 64 = 0 → readRecord (s1.whoOf s1.cur.cell) 64 a 64 s1 = .ok (s2, r) → fillOk r = true → (Map.getD s2.cc.fills f default).busy = false →
      let s3 := releaseActs s2.cur (s1.whoOf s1.cur.cell) 2 none s2
      let x : Fill := { busy := true, addr := BitVec.ofNat 57 a, record := r, scales := false, done := 0, granule := o.granule.toNat,
                        fault := none, grp := s3.cur.grp, handler := s3.cg.handler, id := s3.fresh }
      execPfill o s = .next (goesOn (.pfill o) (s3.tick.modCc fun c => { c with fills := Map.ins f x c.fills })) := by
  intro a f halign hrecord hwell hfree
  exact issue_ok h (by
    simp only [bind, Except.bind, pure, Except.pure, palCheck_ok hpal, ownerCheck_ok huse, List.isEmpty_iff, hact, hplain, halign, hrecord,
      require_of hwell, hfree, a, f, ne_eq, not_true, if_false, Bool.false_eq_true])

theorem execPwait_waits (h : Issues (.pwait o) s s1) :
    let x := Map.getD s1.cc.fills o.imm.toNat default
    x.busy = true → execPwait o s = .next (s1.endRun (fun _ => some (nextPC s1.crun.pc)) none (.fill o.imm.toNat x.id s1.cg.handler)) :=
  fun hbusy => issueWith_ok (a := .wait _) h (by
    simp only [bind, Except.bind, pure, Except.pure, palCheck_ok hpal, ownerCheck_ok huse, List.isEmpty_iff, hact, hbusy, if_true, if_false])

theorem execPwait_done (h : Issues (.pwait o) s s1) :
    let x := Map.getD s1.cc.fills o.imm.toNat default
    x.busy = false → x.fault = none → execPwait o s = .next (goesOn (.pwait o) s1) :=
  fun hidle hgood => issueWith_ok h (by
    simp only [bind, Except.bind, pure, Except.pure, palCheck_ok hpal, ownerCheck_ok huse, List.isEmpty_iff, hact, hidle, hgood, if_false,
      Bool.false_eq_true])

theorem execPwait_fault (h : Issues (.pwait o) s s1) :
    let x := Map.getD s1.cc.fills o.imm.toNat default
    ∀ y, x.busy = false → x.fault = some y →
      execPwait o s = .next (s.raise { code := y.code, sub := y.sub, addr := y.addr, clr := .fill o.imm.toNat }) :=
  fun y hidle hfault => issueWith_raise h (by
    simp only [bind, Except.bind, pure, Except.pure, palCheck_ok hpal, ownerCheck_ok huse, List.isEmpty_iff, hact, hidle, hfault, if_false,
      Bool.false_eq_true]) rfl

/-- R274: a zap of a range in the store is entered in the order of the studio's palette accesses. -/
theorem zapIssue_enters (chk : Bool) :
    let v := (s1.gval o.record).toNat
    v < 2 ^ 24 → bits v 11 0 + (bits v 23 12 + 1) ≤ 4096 →
      let s2 := s1.tick.modStudio s1.ck fun st => { st with zaps := st.zaps ++ [⟨chk, bits v 11 0, bits v 23 12 + 1, s1.fresh, s1.cur.cell⟩] }
      zapIssue chk o s1 = .ok (settleZaps s2.ck s2) := by
  intro v hv hrange
  have hok : (decide (v < 2 ^ 24) && decide (bits v 11 0 + (bits v 23 12 + 1) ≤ 4096)) = true := by simp only [hv, hrange, decide_true, Bool.and_self]
  simp only [zapIssue, bind, Except.bind, pure, Except.pure, palCheck_ok hpal, ownerCheck_ok huse, require_of hok, List.isEmpty_iff, hact, v, if_false]

end
end Sys2Proof.Machine

open Sys2Proof.Machine Sys2Proof.Machine.State

/-- Settles O39, instruction by instruction: under its conditions each passes the checks of R263 and takes the branch of its effect. -/
theorem matrixInstructionsComplete : Obligations.MatrixInstructionsComplete := by
  unfold Obligations.MatrixInstructionsComplete
  refine ⟨fun o s s1 hact huse => ?_, fun o s s1 hact => ?_, fun o s s1 hact hpal huse => ?_⟩
  · refine ⟨execCvdecl_declares hact huse, execCvsign_counts huse, execMfence_opens hact huse, fun htile hroom => ?_⟩
    refine ⟨execMzero_queues hact huse htile hroom, execMwrite_queues hact huse htile hroom, execMdrain_queues hact huse htile hroom,
      execMcheck_queues hact huse htile hroom, fun int hpal hdecl hplain hmode => ?_⟩
    exact ⟨execMma_queues hact huse htile hroom hpal hdecl hplain hmode,
      fun h hcheck htab => execMmar_queues hact huse htile hroom hpal hdecl hplain hmode h htab hcheck⟩
  · refine ⟨fun htile huse => ⟨fun h => ?_, execMread_idle hact huse htile⟩, fun s2 => execMsave_saves hact, fun s2 b => execMrestore_restores hact⟩
    exact ⟨execMwait_waits hact huse htile h, execMwait_observes hact huse htile h, execMwait_uncorr hact huse htile h⟩
  · refine ⟨fun s2 r => execPfill_starts hact hpal huse, fun h => ?_, fun chk i hi h => ?_⟩
    · exact ⟨execPwait_waits hact hpal huse h, execPwait_done hact hpal huse h, execPwait_fault hact hpal huse h⟩
    · intro v hv hrange
      rcases hi with hi | hi
      · obtain ⟨rfl, rfl⟩ := hi
        exact issue_ok h (zapIssue_enters hact hpal huse false hv hrange)
      · obtain ⟨rfl, rfl⟩ := hi
        exact issue_ok h (zapIssue_enters hact hpal huse true hv hrange)
end

section
/-! SUPPORT. A context is created while a task of its number is still at work (R145, R176, R439): the supervisor's write of the descriptor
table merges the reductions buffered on the table's lines, and one that reads poison is reported to the new context. -/
namespace Sys2Proof.Machine
open Sys2Proof State

/-- A new context 5, whose crown is arena 7 and whose descriptor table begins at 0x1208000. -/
def freshContext : CtxInit :=
  { ctx := 5, root := 0x100000, trapvec := 0, crown := 7, crownQuota := 100, arwin := 0, arwinLen := 0, shadowRate := 16, system := false,
    qtab := 0x1208000, queues := [] }
/-- An addition to the table's first word, made by a handler of cell 0. -/
def tableRed : RedApp :=
  { seq := 0, pa := 0x1208000, val := 0, ty := .i32, ctx := 5, arena := 0, gen := 0, view := 0, rcv := false, cell := 0, grp := 0, handler := true }
/-- No context, but cell 0 of a task of context 5: its studio buffers `tableRed`, on a line that is poison. -/
def leftoverTask : State :=
  { State.reset with
    tasks := [{ (default : Task) with ctx := 5 }]
    cells := [(0, default)]
    poison := [(0x1208000 / 128, true)]
    studios := [(0, { (default : Studio) with reds := [⟨0x1208000 / 128, 0, [tableRed]⟩] })] }

theorem freshContext_ok : ctxOk freshContext leftoverTask = true := by decide +kernel

/-- A context that may be created has its table written after it stands, with its crown, in the state. -/
theorem exec_contextCreation_new {c : CtxInit} {s : State} (h : ctxOk c s = true) :
    exec (.contextCreation c) s
      = .next (writeQueues c (newCrown c { s with ctxs := Map.ins c.ctx (newCtx c (s.arena c.crown.toNat).gen) s.ctxs })) :=
  congrArg Host.Outcome.next (if_pos h)

/-- The reduction meets the poison as the table is written, and the task's failure stands in the error queue of the new context. -/
theorem errq_freshContext :
    (Map.find freshContext.ctx (writeQueues freshContext (newCrown freshContext
        { leftoverTask with ctxs := Map.ins freshContext.ctx (newCtx freshContext (leftoverTask.arena freshContext.crown.toNat).gen)
                                      leftoverTask.ctxs })).ctxs).map (fun x => x.errq)
      = some [errRecord fMemUncorr 5 0 0 0 0 0 0] := by
  decide +kernel

end Sys2Proof.Machine

open Sys2Proof Sys2Proof.Machine Sys2Proof.Machine.State

/-- Refutes O50: CONTEXT_CREATION need not leave the context as `newCtx` has it. Nothing in its clause excludes a task that already bears the
context's number: in `leftoverTask` such a task fails as the table is written, and the new context's error queue holds the record of that. -/
theorem not_moduleEventsComplete : ¬ Obligations.ModuleEventsComplete := by
  unfold Obligations.ModuleEventsComplete
  rintro ⟨-, -, -, -, -, -, -, hcreate, -⟩
  obtain ⟨t, ht, hctx, -⟩ := hcreate freshContext leftoverTask freshContext_ok
  obtain rfl := Host.Outcome.next.inj ((exec_contextCreation_new freshContext_ok).symm.trans ht)
  have hempty := errq_freshContext
  rw [hctx] at hempty
  exact List.cons_ne_nil _ _ (Option.some.inj hempty).symm
end

section
/-! SUPPORT. When a barrier completes (R307). -/
namespace Sys2Proof.Machine

/-- What R307 asks of a barrier that completes. -/
def Bar.Complete (b : Bar) : Prop := b.arrived = b.members ∧ b.pend = 0 ∧ !b.ovf ∧ !b.excess

theorem settleBar_of_complete {b : Bar} (h : b.Complete) : settleBar b = { b with phase := !b.phase, arrived := 0 } := if_pos h

theorem settleBar_of_not_complete {b : Bar} (h : ¬ b.Complete) : settleBar b = b := if_neg h

end Sys2Proof.Machine

open Sys2Proof.Machine

/-- Settles O25: a barrier settles by the four conditions of R307 together. -/
theorem barrierCompletion : Obligations.BarrierCompletion := by
  unfold Obligations.BarrierCompletion
  intro b
  constructor
  · intro harr hpend hovf hex
    exact settleBar_of_complete ⟨harr, hpend, by simp [hovf], by simp [hex]⟩
  · intro h
    refine settleBar_of_not_complete fun ⟨harr, hpend, hovf, hex⟩ => ?_
    rcases h with h | h | h | h
    · exact h harr
    · exact h hpend
    · simp [h] at hovf
    · simp [h] at hex
end

section
/-! SUPPORT. The changes of a synchronisation word (R310, R319): when it settles, and what each change answers. -/
namespace Sys2Proof.Machine

section
variable {w : Word16}

theorem Word16.ovf_eq_false (h : w.flags % 2 = 0) : w.ovf = false := by simp [Word16.ovf, h]

theorem Word16.settle_of_reached (ht : w.target ≠ 0) (hc : w.count = w.target) (hf : w.flags % 2 = 0) :
    w.settle = { w with gen := (w.gen + 1) % 2 ^ 32, target := 0, count := 0 } :=
  if_pos ⟨ht, hc, by simp [ovf_eq_false hf]⟩

theorem Word16.settle_of_not_reached (h : w.target = 0 ∨ w.count ≠ w.target ∨ w.flags % 2 = 1) : w.settle = w := by
  refine if_neg fun ⟨ht, hc, hovf⟩ => ?_
  rcases h with h | h | h
  · exact ht h
  · exact h hc
  · simp [Word16.ovf, h] at hovf

end

/-! ### The changes -/

/-- What `swexp` and `swadd` answer alike (R319): where the word's flags and the field's new value `m` allow it, the word `y`, settled. -/
def Word16.changedTo (w : Word16) (m : Nat) (y : Word16) : Except (BitVec 8) Word16 :=
  if w.flags / 2 ≠ 0 then .error fHandle else if w.ovf || m ≥ 2 ^ 40 then .error fSyncOvf else .ok y.settle

theorem swChange_expect (w : Word16) (n : Nat) : swChange .expect w n = w.changedTo (w.target + n) { w with target := w.target + n } := rfl
theorem swChange_add (w : Word16) (n : Nat) : swChange .add w n = w.changedTo (w.count + n) { w with count := w.count + n } := rfl

section
variable {w y : Word16} {m : Nat}

theorem Word16.changedTo_within (h : w.flags = 0) (hm : m < 2 ^ 40) : w.changedTo m y = .ok y.settle := by
  have hovf : w.ovf = false := ovf_eq_false (by rw [h])
  rw [changedTo, if_neg (by simp [h]), if_neg (by simpa [hovf] using hm)]

theorem Word16.changedTo_overflow (h : w.flags / 2 = 0) (hm : w.ovf = true ∨ 2 ^ 40 ≤ m) : w.changedTo m y = .error fSyncOvf := by
  rw [changedTo, if_neg (not_not.mpr h), if_pos (by simpa using hm)]

/-- A reserved flag bit is a bad handle. -/
theorem Word16.changedTo_badFlags (h : w.flags / 2 ≠ 0) : w.changedTo m y = .error fHandle := if_pos h

end

/-- A landing that fits asks nothing of the flags (R310). -/
theorem swChange_landing_within {w : Word16} {n : Nat} (hn : w.count + n < 2 ^ 40) :
    swChange .landing w n = .ok { w with count := w.count + n }.settle :=
  congrArg Except.ok (if_neg (Nat.not_le.mpr hn))

end Sys2Proof.Machine

open Sys2Proof.Machine

/-- Settles O27, change by change; a word with no flag set has not overflowed. -/
theorem synchronisationWordChanges : Obligations.SynchronisationWordChanges := by
  unfold Obligations.SynchronisationWordChanges
  intro w n
  rw [swChange_expect, swChange_add]
  exact ⟨rfl, Word16.changedTo_within, fun hf hn => ⟨Word16.changedTo_within hf hn, swChange_landing_within hn⟩,
    Word16.changedTo_overflow, Word16.changedTo_overflow, fun hf => ⟨Word16.changedTo_badFlags hf, Word16.changedTo_badFlags hf⟩,
    Word16.settle_of_reached, Word16.settle_of_not_reached⟩
end

section
/-! SUPPORT. The release actions of an access leave which group acts as it was (R162, R167, R293): one lemma per operation that they may
come to. -/
namespace Sys2Proof.Machine
open Sys2Proof State

namespace State

theorem cur_foldl {β : Type} {f : State → β → State} (hf : ∀ s x, (f s x).cur = s.cur) (l : List β) (s : State) : (l.foldl f s).cur = s.cur :=
  foldl_keeps (P := fun t => t.cur = s.cur) (fun t x ht => (hf t x).trans ht) l rfl

/-! ### Memory and the home slice -/

@[simp] theorem addJournal_cur (s : State) (d : Nat) (f : Gesso → Gesso) : (s.addJournal d f).cur = s.cur := by
  simp only [addJournal, apply_ite cur, notify_cur, ite_self]

@[simp] theorem recordUndo_cur (s : State) (c ln : Nat) : (s.recordUndo c ln).cur = s.cur := by
  simp only [recordUndo, apply_ite cur, addJournal_cur, ite_self]

@[simp] theorem memWriteLine_cur (s : State) (ln : Nat) (l : Line) : (s.memWriteLine ln l).cur = s.cur := by
  have hbytes := cur_foldl (f := fun s i => if l.dirty.getLsbD i then s.setMemByte (128 * ln + i) (lineByte l i) else s)
    (fun s i => by simp only [apply_ite cur, setMemByte_cur, ite_self]) (List.range 128)
  simp only [memWriteLine, apply_ite cur, notify_cur, hbytes, recordUndo_cur, ite_self]

@[simp] theorem mergeHome_cur (s : State) (ln : Nat) (l : Line) : (s.mergeHome ln l).cur = s.cur := by
  unfold mergeHome
  split
  · rfl
  · exact memWriteLine_cur ..

@[simp] theorem homeMerge_cur (s : State) (ln : Nat) (l : Line) (k : Option Nat) : (s.homeMerge ln l k).cur = s.cur :=
  mergeHome_cur (s.fireHome ln k) ln l

@[simp] theorem wbL2_cur (s : State) (ln : Nat) : (s.wbL2 ln).cur = s.cur := by
  unfold wbL2
  split
  · simp only [apply_ite cur, memWriteLine_cur, ite_self]
  · rfl

@[simp] theorem roomL2_cur (s : State) (j ln : Nat) : (s.roomL2 j ln).cur = s.cur := by
  unfold roomL2
  dsimp only
  split
  · rfl
  · split
    · rfl
    · split
      · simp only [apply_ite cur, wbL2_cur, tick_cur, ite_self]
      · rfl

@[simp] theorem addL2_cur (s : State) (ln : Nat) (l : Line) : (s.addL2 ln l).cur = s.cur :=
  roomL2_cur { s with replicas := Map.del (64 * ln + s.homeSlice (128 * ln)) s.replicas } _ ln

@[simp] theorem fillL2_cur (s : State) (t : Tag) (ln : Nat) : (s.fillL2 t ln).cur = s.cur := by
  simp only [fillL2, bypass, apply_ite cur, bump_cur, addL2_cur, ite_self]

@[simp] theorem homeWrite_cur (s : State) (t : Tag) (pa : Nat) (bs : List (BitVec 8)) (k : Option Nat) : (s.homeWrite t pa bs k).cur = s.cur := by
  simp only [homeWrite, homeStore, homeMerge_cur, undoFirst, apply_ite cur, recordUndo_cur, ite_self, fillL2_cur]

@[simp] theorem meetTarget_cur (s : State) (ln : Nat) (io : Bool) : (s.meetTarget ln io).cur = s.cur := by
  simp only [meetTarget, apply_ite cur, wbL2_cur, ite_self]

@[simp] theorem sendTarget_cur (s : State) (ln : Nat) (io : Bool) : (s.sendTarget ln io).cur = s.cur := by
  simp only [sendTarget, apply_ite cur, wbL2_cur, ite_self]

/-! ### Buffered reductions and late faults -/

@[simp] theorem failTask_cur (s : State) (t : BitVec 64) (code : BitVec 8) (d : Nat) (n : Bool) : (s.failTask t code d n).cur = s.cur := by
  unfold failTask
  split
  · rfl
  · simp only [apply_ite cur, supReport_cur, report_cur, modTask_cur, ite_self]

@[simp] theorem lateFault_cur (s : State) (r : GRef) (f : LateFault) : (s.lateFault r f).cur = s.cur := by
  simp only [lateFault, requestRollback, apply_ite cur, modTask_cur, failTask_cur, addLate_cur, ite_self]

@[simp] theorem applyRed_cur (s : State) (k op : Nat) (a : RedApp) : (s.applyRed k op a).cur = s.cur := by
  simp only [applyRed, redFault, apply_ite cur, sendTarget_cur, homeWrite_cur, lateFault_cur, meetTarget_cur, ite_self]

@[simp] theorem mergeReds_cur (s : State) (k : Nat) (p : RedBuf → Bool) : (s.mergeReds k p).cur = s.cur :=
  cur_foldl (f := fun s (x : Nat × RedApp) => s.applyRed k x.1 x.2) (fun _ _ => applyRed_cur ..) _ (s.modStudio k _)

@[simp] theorem mergeLine_cur (s : State) (ln : Nat) : (s.mergeLine ln).cur = s.cur := cur_foldl (fun _ _ => mergeReds_cur ..) _ s

/-! ### Release -/

@[simp] theorem wbL1_cur (s : State) (k ln : Nat) : (s.wbL1 k ln).cur = s.cur := by
  unfold wbL1
  split
  · simp only [setL1, apply_ite cur, modStudio_cur, homeMerge_cur, addL2_cur, mergeLine_cur, ite_self]
  · rfl

@[simp] theorem releaseL1_cur (s : State) (k : Nat) (only : Option (List Nat)) : (s.releaseL1 k only).cur = s.cur :=
  cur_foldl (fun s ln => wbL1_cur s k ln) _ s

@[simp] theorem widenRelease_cur (s : State) (w : Who) (e : SvEntry) : (s.widenRelease w e).cur = s.cur :=
  cur_foldl (fun _ _ => releaseL1_cur ..) _ s

@[simp] theorem inferScope_cur (s : State) (w : Who) (pa : Nat) : (s.inferScope w pa).1.cur = s.cur := by
  unfold inferScope
  split
  · rfl
  · simp only [setSv, apply_ite cur, widenRelease_cur, ite_self]

end State

@[simp] theorem sysRelease_cur (r : GRef) (only : Option (List Nat)) (s : State) : (sysRelease r only s).cur = s.cur := by
  have hlines (l : List Nat) : (l.foldl (fun s ln => s.wbL2 ln) s).cur = s.cur := cur_foldl wbL2_cur l s
  unfold sysRelease
  dsimp only
  split
  · simp only [lateFault_cur, modGroup_cur, hlines]
  · exact hlines _

@[simp] theorem rcvRelease_cur (r : GRef) (k : Nat) (s : State) : (rcvRelease r k s).cur = s.cur := by
  unfold rcvRelease
  dsimp only
  rw [modGroup_cur, cur_foldl fun s d => addJournal_cur s d _]
  exact cur_foldl (fun s ln => by rw [wbL2_cur, wbL1_cur]) _ s

@[simp] theorem releaseActs_cur (r : GRef) (w : Who) (rank : Nat) (only : Option (List Nat)) (s : State) : (releaseActs r w rank only s).cur = s.cur := by
  simp only [releaseActs, mergeGroup, apply_ite cur, rcvRelease_cur, sysRelease_cur, releaseL1_cur, mergeReds_cur, ite_self]

@[simp] theorem scopeRank_cur (w : Who) (sc : Scope) (pa : Option Nat) (s : State) : (scopeRank w sc pa s).1.cur = s.cur := by
  unfold scopeRank
  split
  · exact inferScope_cur ..
  · rfl
  · rfl

@[simp] theorem releaseFor_cur (w : Who) (sc : Scope) (ls : List LaneAcc) (s : State) : (releaseFor w sc ls s).cur = s.cur :=
  cur_foldl (fun s pa => (releaseActs_cur _ w _ _ _).trans (scopeRank_cur w sc (some pa) s)) _ s

end Sys2Proof.Machine
end

section
/-! SUPPORT. The instructions on synchronisation words (R319, R320): their changes in the scratchpad, in the base view, in a rival world (R359)
and in a shadow copy (R370), and the waits and polls. -/
namespace Sys2Proof.Machine
open Sys2Proof State

/-! ### Changes -/

/-- The major that a deferred change is recorded with (R360). -/
def swMajor : SwOp → Nat
  | .init => 0xA5
  | .expect => 0xA6
  | _ => 0xA7

/-- The record of a change's amount in the write stream of its group (R437), where its access may be performed. -/
def amountSigned (w : Who) (o : MOp) (l : LaneAcc) (ls : List LaneAcc) (n : Nat) (s : State) : State :=
  signWrite (enterScope w o.scope ls s).cur l.va (leBytes 8 n) (released w o ls s)

/-- What a change of a global word does by the class of its write (R359, R369, R370). -/
def changeInView (op : SwOp) (major : Nat) (o : MOp) (w : Who) (l : LaneAcc) (a n : Nat) (s : State) : Except Raise State :=
  match writeClass s w l.va l.xlat true with
  | .defer => addEscape s w.view { escOf major o 255 a [n] with sub := BitVec.ofNat 8 (o.variant.toNat * 16) }
  | .suppress => .ok s
  | .perform xs => swAll s.cur w l.va op n xs s

theorem released_cur (w : Who) (o : MOp) (ls : List LaneAcc) (s : State) : (released w o ls s).cur = (enterScope w o.scope ls s).cur := by
  simp only [released, apply_ite cur, releaseFor_cur, ite_self]

section
variable {op : SwOp} {major a : Nat} {o : MOp} {s1 : State}
variable (haddr : swAddr o s1 = .ok a) (hact : s1.active o.gd ≠ []) (hamount : (swAmount o s1).toNat < 2 ^ 40)
include haddr hact hamount

theorem swModify_scratch {y : Word16} (hvar : o.variant.getLsbD 0 = true) (hrel : isRel o.order = false)
    (hy : swChange op (Word16.of (Map.bytes s1.cc.scratch a 16)) (swAmount o s1).toNat = .ok y) :
    swModify op major o s1 = .ok (s1.modCell s1.cur.cell fun c => c.putScratch s1.fresh a y.bytes) := by
  have hword : swScratch s1.cur.cell a op (swAmount o s1).toNat s1 = .ok (s1.modCell s1.cur.cell fun c => c.putScratch s1.fresh a y.bytes) := by
    unfold cc at hy
    simp only [swScratch, hy]
  simp only [swModify, bind, Except.bind, require_of (decide_eq_true hamount), haddr, List.isEmpty_iff, hact, hvar, hrel, hword,
    if_true, if_false, Bool.false_eq_true]

theorem swModify_global {s2 : State} {l : LaneAcc} {r : List LaneAcc} (hvar : o.variant.getLsbD 0 = false)
    (hc : checkLanes (s1.whoOf s1.cur.cell) { n := 16, rd := true, wr := true, kind := true } [(s1.uniPos o.gd, a, [(a, 16)])] s1 = .ok (s2, l :: r)) :
    swModify op major o s1 = changeInView op major o (s1.whoOf s1.cur.cell) l a (swAmount o s1).toNat
      (amountSigned (s1.whoOf s1.cur.cell) o l (l :: r) (swAmount o s1).toNat s2) := by
  rw [amountSigned, ← released_cur]
  simp only [swModify, bind, Except.bind, require_of (decide_eq_true hamount), haddr, List.isEmpty_iff, hact, hvar, hc,
    if_false, Bool.false_eq_true]
  rfl

end

section
variable {op : SwOp} {major a n : Nat} {o : MOp} {w : Who} {l : LaneAcc} {s : State}

/-- Outside every view the change is made at the word's home. -/
theorem changeInView_base {t : State} (hview : w.view = 0) (hhome : swHome s.cur w l.va l.xlat op n s = .ok t) :
    changeInView op major o w l a n s = .ok t := by
  simp only [changeInView, writeClass_base hview, swAll, hhome, bind, Except.bind]
  rfl

/-- A rival defers it (R359). -/
theorem changeInView_rival (hview : w.view ≠ 0) (huse : (s.view w.view).use = 0) (hqueue : (s.view w.view).queue.isSome = true)
    (hroom : (s.view w.view).escs.length < 64) :
    changeInView op major o w l a n s = .ok (s.modView w.view fun v =>
      { v with escs := v.escs ++ [{ escOf major o 255 a [n] with sub := BitVec.ofNat 8 (o.variant.toNat * 16) }] }) := by
  rw [changeInView, writeClass_rival (kind := true) hview rfl huse]
  exact addEscape_ok hqueue hroom _

/-- A shadow copy suppresses it (R370). -/
theorem changeInView_copy (hview : w.view ≠ 0) (huse : (s.view w.view).use = 3) : changeInView op major o w l a n s = .ok s := by
  rw [changeInView, writeClass_copy (kind := true) hview rfl huse]

end

/-! ### Waits and polls -/

section
variable {o : MOp} {s s1 s2 : State} {x : Word16} {ls : List LaneAcc}

/-- Where a wait on a word goes on from (R320): on a global word it ends as an acquire. -/
def waitEnded (o : MOp) (s : State) : List LaneAcc → State
  | [] => s.settleLanded
  | l :: _ => swAcquire (s.whoOf s.cur.cell) (acqScope o) (some (physOf l.xlat l.va)) s

theorem execSwwait_ended (h : Issues (.swwait o) s s1) (hread : swRead o s1 = .ok (s2, some (x, ls))) (hovf : x.ovf = false)
    (hgen : x.gen ≠ (swAmount o s1).toNat % 2 ^ 32) : execSwwait o s = .next (goesOn (.swwait o) (waitEnded o s2 ls)) := by
  refine issueWith_ok h ?_
  simp only [hread, bind, Except.bind, hovf, Bool.false_eq_true, if_false, if_pos hgen]
  cases ls <;> rfl

theorem execSwwait_waits (h : Issues (.swwait o) s s1) (hread : swRead o s1 = .ok (s2, some (x, ls))) (hovf : x.ovf = false)
    (hgen : x.gen = (swAmount o s1).toNat % 2 ^ 32) :
    execSwwait o s = .next ((s2.perf s2.ck s2.cc.ctx 0x0D).endRun (fun _ => some (nextPC s2.crun.pc)) none
      (.sword (o.variant.getLsbD 0) (BitVec.ofNat 57 (addrOf o s2 (s2.uniPos o.gd))) (BitVec.ofNat 32 ((swAmount o s1).toNat % 2 ^ 32))
        (acqScope o) s2.cg.handler)) := by
  have hbody : execSwwait o s = .next (State.advance (s2.perf s2.ck s2.cc.ctx 0x0D) (.swwait o)
      (.wait (.sword (o.variant.getLsbD 0) (BitVec.ofNat 57 (addrOf o s2 (s2.uniPos o.gd))) (BitVec.ofNat 32 ((swAmount o s1).toNat % 2 ^ 32))
        (acqScope o) s2.cg.handler))) := by
    refine issueWith_ok h ?_
    simp only [hread, bind, Except.bind, hovf, Bool.false_eq_true, if_false, if_neg (not_not.mpr hgen)]
    rfl
  rw [hbody, ← State.perf_crun s2 s2.ck s2.cc.ctx 0x0D 1]
  rfl

theorem execSwpoll_reads (h : Issues (.swpoll o) s s1) (hread : swRead o s1 = .ok (s2, some (x, ls))) (hacq : isAcq o.order = false) :
    execSwpoll o s = .next (goesOn (.swpoll o) (s2.produce
      { writes := s2.lateWrite o.data .n64 (if o.variant.getLsbD 1 then x.count else x.gen) 0, regs := dstRegs o.data 64, pred := none,
        fault := none, ckpt := none })) := by
  refine issue_ok h ?_
  simp only [hread, bind, Except.bind, hacq, Bool.false_eq_true, if_false]
  rfl

end
end Sys2Proof.Machine

open Sys2Proof Sys2Proof.Machine Sys2Proof.Machine.State

/-- Settles O28: the three changes differ in the operation alone, and past their checks the class of the write decides. -/
theorem synchronisationWordInstructionsComplete : Obligations.SynchronisationWordInstructionsComplete := by
  unfold Obligations.SynchronisationWordInstructionsComplete
  refine ⟨fun o s s1 a haddr hact hamount i op hi h => ?_, fun o s s1 s2 x ls h hread hovf => ?_,
    fun o s s1 s2 x ls h hread hacq => execSwpoll_reads h hread hacq⟩
  · have hexec : exec i s = issue i s (swModify op (swMajor op) o) := by
      simp only [Prod.mk.injEq] at hi
      rcases hi with ⟨rfl, rfl⟩ | ⟨rfl, rfl⟩ | ⟨rfl, rfl⟩
      · rfl
      · rfl
      · rfl
    rw [hexec]
    refine ⟨fun y hvar hrel hy => issue_ok h (swModify_scratch haddr hact hamount hvar hrel hy), fun s2 l r hvar hc => ?_⟩
    intro w s3' s3 major
    have hchange := swModify_global (op := op) (major := swMajor op) haddr hact hamount hvar hc
    refine ⟨fun s4 hview hhome => ?_, fun hview huse hqueue hroom => ?_, fun hview huse => ?_⟩
    · exact issue_ok h (hchange.trans (changeInView_base hview hhome))
    · exact issue_ok h (hchange.trans (changeInView_rival hview huse hqueue hroom))
    · exact issue_ok h (hchange.trans (changeInView_copy hview huse))
  · refine ⟨?_, ?_, fun hgen => execSwwait_waits h hread hovf hgen⟩
    · rintro hgen rfl
      exact execSwwait_ended h hread hovf hgen
    · rintro l r hgen rfl
      have hended := execSwwait_ended h hread hovf hgen
      rwa [waitEnded] at hended
end

section
/-! SUPPORT. A read of a counter (R313, R321), whose frame asks that the run's counted mark stand, as that of `mfsys` does. -/
namespace Sys2Proof.Machine
open Sys2Proof State

theorem execCtrrd_reads {o : SOp} {s s1 : State} (h : Issues (.ctrrd o) s s1) (hact : s1.active o.gd ≠ []) (hsub : o.sub ≠ 1) :
    execCtrrd o s = .next (goesOn (.ctrrd o) (s1.writeG o.dest (counterRead o.sysreg.toNat o.imm.toNat s1))) := by
  refine (issueOk_ready h).trans ?_
  simp only [List.isEmpty_iff, hact, hsub, if_false]

/-- A read of the first PERF counter to g0 in every lane. -/
def readPerf : SOp := ⟨⟨0, false⟩, 0, .g 0, .v 0 false, 0x100, 0⟩

end Sys2Proof.Machine

open Sys2Proof Sys2Proof.Machine Sys2Proof.Machine.State

/-- Refutes O29, as O1, by a `ctrrd` that reads a PERF counter: its frame keeps the run's mark that the present instruction has been counted,
and in `justCounted` the run goes on to the next slot, where the mark is clear (R313). -/
theorem not_counterInstructionsComplete : ¬ Obligations.CounterInstructionsComplete := by
  unfold Obligations.CounterInstructionsComplete
  rintro ⟨-, hread⟩
  have hissues : Issues (.ctrrd readPerf) justCounted justCounted := ⟨by decide +kernel, rfl⟩
  have hact : justCounted.active readPerf.gd ≠ [] := by decide +kernel
  obtain ⟨t, ht, -, hframe, -⟩ := hread readPerf justCounted justCounted 0 (by decide +kernel) hissues hact rfl
  obtain rfl : goesOn (.ctrrd readPerf) _ = t := Host.Outcome.next.inj ((execCtrrd_reads hissues hact (by decide)).symm.trans ht)
  exact not_runFrame_goesOn (congrArg Run.last (crun_writeG ..)) rfl (hframe rfl).run
end

section
/-! SUPPORT. The arena tree: a charge to an arena and its ancestors, the fields of a new child (R330, R345), a drop point (R333). -/
namespace Sys2Proof.Machine
open Sys2Proof State

/-! ### Charges -/

theorem State.arena_modArena (s : State) (a b : Nat) (f : Arena → Arena) :
    (s.modArena a f).arena b = if b = a then f (s.arena b) else s.arena b := by
  by_cases h : b = a
  · subst h; simp
  · rw [arena_modArena_ne s h, if_neg h]

/-- A charge counts once for each time an arena stands in the list, and changes nothing else of it. -/
theorem arena_foldl_charge (n b : Nat) (l : List Nat) (s : State) :
    (l.foldl (fun s x => s.modArena x fun e => { e with charge := e.charge + n }) s).arena b =
      { s.arena b with charge := (s.arena b).charge + l.count b * n } := by
  induction l generalizing s with
  | nil => simp
  | cons x r ih =>
    rw [List.foldl_cons, ih, arena_modArena]
    by_cases h : b = x
    · subst h
      simp only [if_pos, List.count_cons_self, Nat.succ_mul]
      congr 1
      omega
    · rw [if_neg h, List.count_cons_of_ne (Ne.symm h)]

theorem arena_addCharge (s : State) (a n b : Nat) :
    (s.addCharge a n).arena b = { s.arena b with charge := (s.arena b).charge + (s.ancestors 9 a).count b * n } :=
  arena_foldl_charge n b (s.ancestors 9 a) s

theorem gen_addCharge (s : State) (a n b : Nat) : ((s.addCharge a n).arena b).gen = (s.arena b).gen := by rw [arena_addCharge]
theorem child_addCharge (s : State) (a n b : Nat) : ((s.addCharge a n).arena b).child = (s.arena b).child := by rw [arena_addCharge]

theorem count_mul_of_nodup {l : List Nat} (h : l.Nodup) (b m n : Nat) : m + l.count b * n = if b ∈ l then m + n else m := by
  split
  · next hb => rw [List.count_eq_one_of_mem h hb, Nat.one_mul]
  · next hb => rw [List.count_eq_zero_of_not_mem hb, Nat.zero_mul, Nat.add_zero]

/-! ### A new child -/

theorem find?_range_succ_some {m n : Nat} {p : Nat → Bool} (h : ((List.range m).map (· + 1)).find? p = some n) :
    1 ≤ n ∧ n ≤ m ∧ p n = true := by
  obtain ⟨i, hi, rfl⟩ := List.mem_map.mp (List.mem_of_find?_eq_some h)
  have := List.mem_range.mp hi
  exact ⟨by omega, by omega, List.find?_some h⟩

/-- The number a new arena takes is free, or past its drop point with at most 14 generations being swept (R332). -/
theorem pickNumber_some {s : State} {n : Nat} (h : pickNumber s = some n) :
    1 ≤ n ∧ n ≤ 4095 ∧ ((s.arena n).state = 0 ∨ (s.arena n).state = 3) := by
  unfold pickNumber at h
  generalize 4095 = m at h ⊢
  dsimp only at h
  split at h
  · next a ha =>
    obtain rfl : a = n := by simpa using h
    obtain ⟨h1, h2, hfree⟩ := find?_range_succ_some ha
    exact ⟨h1, h2, .inl (beq_iff_eq.mp hfree)⟩
  · obtain ⟨h1, h2, hdead⟩ := find?_range_succ_some h
    simp only [Bool.and_eq_true, beq_iff_eq] at hdead
    exact ⟨h1, h2, .inr hdead.1⟩

/-- A child of `p` is made where depth, numbers and quota allow it, once its reserve is charged. -/
theorem childArena_ok {p n : Nat} {x : NewArena} {s s2 : State} (h : childArena p x s = .ok (s2, n)) :
    (s.arena p).depth ≠ 8 ∧ pickNumber s = some n ∧ s.chargeRefused p x.resv = false
    ∧ s2 = newArena n { x with parent := p, depth := (s.arena p).depth + 1 } (s.addCharge p x.resv) := by
  unfold childArena at h
  by_cases hd : (s.arena p).depth = 8
  · simp [hd, fault] at h
  · cases hn : pickNumber s with
    | none => simp [hd, hn, fault] at h
    | some m =>
      cases hr : s.chargeRefused p x.resv with
      | true => simp [hd, hn, hr, fault, bind, Except.bind] at h
      | false =>
        simp only [hd, hn, hr, if_false, bind, Except.bind, pure, Except.pure, Bool.false_eq_true, Except.ok.injEq, Prod.mk.injEq] at h
        obtain ⟨rfl, rfl⟩ := h
        exact ⟨hd, rfl, rfl, rfl⟩

theorem arena_newArena_self {a : Nat} {x : NewArena} (s : State) (hp : x.parent ≠ 0) (ha : a ≠ x.parent) :
    (newArena a x s).arena a = { s.arena a with
      state := 1, parent := x.parent, depth := x.depth, owner := x.owner, pt := x.pt, view := x.view, crown := x.crown, quota := x.quota,
      charge := x.resv, resv := x.resv, child := 0, sibling := (s.arena x.parent).child, task := x.task, since := (s.ctx x.owner).rpseq.toNat } := by
  simp only [newArena, if_neg hp, arena_modArena, if_neg ha, if_true]

/-- Of another arena only the parent's link to its first child changes. -/
theorem arena_newArena_of_ne {a b : Nat} {x : NewArena} (s : State) (hp : x.parent ≠ 0) (hb : b ≠ a) :
    (newArena a x s).arena b = { s.arena b with child := if b = x.parent then a else (s.arena b).child } := by
  simp only [newArena, if_neg hp, arena_modArena, if_neg hb]
  split <;> rfl

/-! ### A drop point -/

theorem arena_dropOne (s : State) (a b : Nat) : (dropOne a s).arena b = if b = a then { s.arena b with
      gen := nextGen (s.arena b), sweeping := setBit (s.arena b).sweeping (s.arena b).gen.toNat true, state := 3, child := 0, sibling := 0 }
    else s.arena b := arena_modArena s a b _

/-- The next generation is the first after the present one that is not being swept. -/
theorem nextGen_first {e : Arena} {k : Nat} (hk1 : 1 ≤ k) (hk : k < 16) (hfree : e.sweeping.getLsbD ((e.gen.toNat + k) % 16) = false)
    (hbusy : ∀ j, 1 ≤ j → j < k → e.sweeping.getLsbD ((e.gen.toNat + j) % 16) = true) : (nextGen e).toNat = (e.gen.toNat + k) % 16 := by
  have hfind : (((List.range 16).map (fun i => (e.gen.toNat + 1 + i) % 16)).find? (fun x => !e.sweeping.getLsbD x && x != e.gen.toNat))
      = some ((e.gen.toNat + k) % 16) := by
    have hgen := e.gen.isLt
    rw [List.find?_map, (List.find?_range_eq_some (i := k - 1)).mpr]
    · simp only [Option.map_some, Option.some.injEq]
      omega
    · refine ⟨?_, List.mem_range.mpr (by omega), fun j hj => ?_⟩
      · have hat : (e.gen.toNat + 1 + (k - 1)) % 16 = (e.gen.toNat + k) % 16 := by omega
        simp only [Function.comp_apply, hat, hfree, Bool.not_false, Bool.true_and, bne_iff_ne, ne_eq]
        omega
      · have hat : e.gen.toNat + 1 + j = e.gen.toNat + (j + 1) := by omega
        simp only [Function.comp_apply, hat, hbusy (j + 1) (by omega) (by omega), Bool.not_true, Bool.false_and, Bool.not_false]
  simp only [nextGen, hfind, Option.getD_some, BitVec.toNat_ofNat]
  omega

end Sys2Proof.Machine

open Sys2Proof.Machine Sys2Proof.Machine.State

/-- Settles O31: the child's fields are the new arena's, and the charge stands as `addCharge` left it, which changes nothing else. -/
theorem newArenaFields : Obligations.NewArenaFields := by
  unfold Obligations.NewArenaFields
  intro p x s s2 n hp hlive h
  obtain ⟨hdepth, hpick, hquota, rfl⟩ := childArena_ok h
  obtain ⟨hn1, hn, hdead⟩ := pickNumber_some hpick
  have hne : n ≠ p := by
    rintro rfl
    rcases hlive with h1 | h1 <;> rcases hdead with h2 | h2 <;> rw [h1] at h2 <;> exact absurd h2 (by decide)
  refine ⟨hne, hn1, hn, hdepth, hquota, ?_⟩
  rw [arena_newArena_self _ hp hne, arena_newArena_of_ne _ hp hne.symm]
  refine ⟨rfl, gen_addCharge s p x.resv n, rfl, rfl, rfl, rfl, rfl, rfl, rfl, if_pos rfl, child_addCharge s p x.resv p, fun hnodup b hb => ?_⟩
  rw [arena_newArena_of_ne _ hp hb, arena_addCharge]
  exact count_mul_of_nodup hnodup b _ _

/-- Settles O33: a drop point writes one arena's entry. -/
theorem dropPoint : Obligations.DropPoint := by
  unfold Obligations.DropPoint
  intro s a
  refine ⟨?_, ?_, ?_, ?_, fun k hk1 hk hfree hbusy => ?_, fun b hb => ?_⟩ <;> rw [arena_dropOne]
  · rw [if_pos rfl]
  · rw [if_pos rfl]
  · rw [if_pos rfl]
  · rw [if_pos rfl]
  · rw [if_pos rfl]
    exact nextGen_first hk1 hk hfree hbusy
  · rw [if_neg hb]
end

section
/-! SUPPORT. The rival that `choose.min` picks (R366): the walk over the rivals keeps the least score met, and where it was met first. -/
namespace Sys2Proof.Machine
open Sys2Proof State

/-- The better of the score kept and the next rival's; the one kept on a tie. -/
def lesser (score : Nat → Nat) (b : Option (Nat × Nat)) (x : Nat × Nat) : Option (Nat × Nat) :=
  match b with | some (m, _) => if score x.1 < m then some (score x.1, x.2) else b | none => some (score x.1, x.2)

theorem bestRival_eq (w : World) (s : State) :
    bestRival w s = (w.views.zipIdx.foldl (lesser fun v => (s.view v).score.toNat) none).elim 0 Prod.snd := rfl

/-- Index `j` is the first below `n` with the least of the values of `f`. -/
def FirstLeast (f : Nat → Nat) (n j : Nat) : Prop := j < n ∧ ∀ q, q < n → f j ≤ f q ∧ (q < j → f j < f q)

theorem FirstLeast.congr {f g : Nat → Nat} {n j : Nat} (h : FirstLeast f n j) (hfg : ∀ q, q < n → f q = g q) : FirstLeast g n j := by
  obtain ⟨hj, hleast⟩ := h
  refine ⟨hj, fun q hq => ?_⟩
  rw [← hfg j hj, ← hfg q hq]
  exact hleast q hq

/-- One more value: it is the first least where it is below the least so far, and otherwise that stands. -/
theorem FirstLeast.succ {f : Nat → Nat} {n j : Nat} (h : FirstLeast f n j) : FirstLeast f (n + 1) (if f n < f j then n else j) := by
  obtain ⟨hj, hleast⟩ := h
  split
  · next hlt =>
    refine ⟨by omega, fun q hq => ?_⟩
    rcases Nat.lt_succ_iff_lt_or_eq.mp hq with hq | rfl
    · have := (hleast q hq).1
      omega
    · omega
  · next hge =>
    refine ⟨by omega, fun q hq => ?_⟩
    rcases Nat.lt_succ_iff_lt_or_eq.mp hq with hq | rfl
    · exact hleast q hq
    · omega

theorem foldl_lesser (score : Nat → Nat) (l : List Nat) (hl : l ≠ []) :
    ∃ j, l.zipIdx.foldl (lesser score) none = some (score (l.getD j 0), j) ∧ FirstLeast (fun q => score (l.getD q 0)) l.length j := by
  induction l using List.reverseRecOn with
  | nil => exact absurd rfl hl
  | append_singleton l v ih =>
    have hold : ∀ q, q < l.length → (l ++ [v]).getD q 0 = l.getD q 0 := fun q hq => by simp [List.getElem?_append_left hq]
    have hnew : (l ++ [v]).getD l.length 0 = v := by simp
    rw [List.zipIdx_append, List.foldl_append, List.length_append]
    by_cases hnil : l = []
    · subst hnil
      exact ⟨0, rfl, Nat.one_pos, fun q hq => ⟨by rw [Nat.lt_one_iff.mp hq], fun h => absurd h (Nat.not_lt_zero q)⟩⟩
    · obtain ⟨j, hfold, hleast⟩ := ih hnil
      have hj := hleast.1
      have hnext := (hleast.congr (g := fun q => score ((l ++ [v]).getD q 0)) fun q hq => by rw [hold q hq]).succ
      simp only [hnew, hold j hj] at hnext
      refine ⟨_, ?_, hnext⟩
      rw [hfold]
      simp only [List.zipIdx_singleton, List.foldl_cons, List.foldl_nil, lesser, Nat.zero_add]
      split
      · rw [hnew]
      · rw [hold j hj]

end Sys2Proof.Machine

open Sys2Proof.Machine Sys2Proof.Machine.State

/-- Settles O35: the walk over the rivals ends with the first of the least score. -/
theorem chooseMinPicksTheLeastScore : Obligations.ChooseMinPicksTheLeastScore := by
  unfold Obligations.ChooseMinPicksTheLeastScore
  intro w s j hj score
  obtain ⟨b, hfold, hb, hleast⟩ := foldl_lesser (fun v => (s.view v).score.toNat) w.views (List.ne_nil_of_length_pos (by omega))
  rw [bestRival_eq, hfold]
  exact ⟨hb, hleast j hj⟩
end

section
/-! SUPPORT. The words of a share of `worknext` (R394). -/
namespace Sys2Proof.Machine
open Sys2Proof State

/-- A flag in a word's high bits leaves what stands below bit 61. -/
theorem share_begin_mod {b : Nat} (hb : b < 2 ^ 61) (f g : Prop) [Decidable f] [Decidable g] :
    (BitVec.ofNat 64 ((if f then 2 ^ 63 else 0) + (if g then 2 ^ 62 else 0) + b)).toNat % 2 ^ 61 = b := by
  rw [BitVec.toNat_ofNat]
  split <;> split <;> omega

theorem share_bound {k n i : Nat} (hk : k ≤ n) (hi : i ≤ 2 ^ 48) : k * i / n ≤ 2 ^ 48 :=
  (Nat.div_le_of_le_mul (Nat.mul_le_mul_right i hk)).trans hi

section
variable {k n i l : Nat} (hk : k < n) (hi : i ≤ 2 ^ 48)
include hk hi

theorem shareOf_begin : (shareOf k n i l).1.toNat % 2 ^ 61 = k * i / n := by
  have hb := share_bound (Nat.le_of_lt hk) hi
  rw [shareOf, if_neg (Nat.not_le.mpr hk)]
  exact share_begin_mod (by omega) _ _

theorem shareOf_end : (shareOf k n i l).2.toNat = (k + 1) * i / n := by
  have hb : (k + 1) * i / n ≤ 2 ^ 48 := share_bound (Nat.succ_le_of_lt hk) hi
  rw [shareOf, if_neg (Nat.not_le.mpr hk)]
  exact Nat.mod_eq_of_lt (by omega)

end

theorem shareOf_past {k n i l : Nat} (hk : n ≤ k) (hi : i ≤ 2 ^ 48) :
    (shareOf k n i l).1.toNat = 2 ^ 61 + i ∧ (shareOf k n i l).2.toNat = i := by
  rw [shareOf, if_pos hk]
  exact ⟨Nat.mod_eq_of_lt (by omega), Nat.mod_eq_of_lt (by omega)⟩

end Sys2Proof.Machine

open Sys2Proof.Machine Sys2Proof.Machine.State

/-- Settles O36: share `k` of `n` goes from `k * i / n` to `(k + 1) * i / n`. -/
theorem workSharesCoverTheIterations : Obligations.WorkSharesCoverTheIterations := by
  unfold Obligations.WorkSharesCoverTheIterations
  intro n i l hn hi
  refine ⟨?_, ?_, fun k hk => ?_, fun k hk => shareOf_past hk hi⟩
  · rw [shareOf_begin hn hi, Nat.zero_mul, Nat.zero_div]
  · rw [shareOf_end (by omega) hi, Nat.sub_add_cancel hn, Nat.mul_div_cancel_left i hn]
  · rw [shareOf_end (by omega) hi, shareOf_begin hk hi]
end

section
/-! SUPPORT. What a pop of an operand queue answers (R397, R398). -/
namespace Sys2Proof.Machine.State
open Sys2Proof Sys2Proof.Machine

section
variable {s : State} {q : Nat}

theorem pop_badWalks (h : s.cc.badWalks = true) : s.pop q = .error { code := fHandle, addr := s.cc.walkTable } := by
  simp only [pop, h, if_true, fault, BitVec.ofNat_toNat, BitVec.setWidth_eq]
  rfl

theorem pop_oldest {x : List (BitVec 32)} {r : List (List (BitVec 32))} (h : s.cc.badWalks = false) (hq : Map.getD s.cg.queues q [] = x :: r) :
    s.pop q = .ok (s.modCg fun g => { g with queues := Map.put [] q r g.queues }, x) := by
  simp only [pop, h, Bool.false_eq_true, if_false, hq]

theorem pop_fed (h : s.cc.badWalks = false) (hq : Map.getD s.cg.queues q [] = []) (hend : queueEnded s.cc s.cg q = false) :
    s.pop q = .error { code := 0, hold := true } := by
  simp only [pop, h, Bool.false_eq_true, if_false, hq, hend, holdHere]

theorem pop_ended_fault {f : LateFault} (h : s.cc.badWalks = false) (hq : Map.getD s.cg.queues q [] = [])
    (hend : queueEnded s.cc s.cg q = true) (hf : Map.find q s.cg.qfault = some f) :
    s.pop q = .error { code := f.code, sub := f.sub, addr := f.addr, clr := .queue q } := by
  simp only [pop, h, Bool.false_eq_true, if_false, hq, hend, if_true, hf]

theorem pop_ended_empty (h : s.cc.badWalks = false) (hq : Map.getD s.cg.queues q [] = []) (hend : queueEnded s.cc s.cg q = true)
    (hf : Map.find q s.cg.qfault = none) : s.pop q = .error { code := fEmptyRead, addr := BitVec.ofNat 64 q } := by
  simp only [pop, h, Bool.false_eq_true, if_false, hq, hend, if_true, hf, fault]
  rfl

end

end Sys2Proof.Machine.State

open Sys2Proof.Machine Sys2Proof.Machine.State

/-- Settles O37, way by way. -/
theorem queuePops : Obligations.QueuePops := by
  unfold Obligations.QueuePops
  intro s q
  refine ⟨pop_badWalks, fun h => ⟨fun x r hq => pop_oldest h hq, fun hq => ⟨pop_fed h hq, fun hend => ⟨fun f hf => ?_, ?_⟩⟩⟩⟩
  · exact pop_ended_fault h hq hend hf
  · exact pop_ended_empty h hq hend
end

section
/-! SUPPORT. How a fault is taken (R427-R429): by the handler at TRAPVEC, or, in handler mode, as the failure of the task; and how a
meeting of `rte` leaves handler mode (R448). -/
namespace Sys2Proof.Machine

theorem Map.ins_ins {α : Type} (k : Nat) (v w : α) (m : Map α) : Map.ins k v (Map.ins k w m) = Map.ins k v m := by
  induction m with
  | nil => simp [Map.ins]
  | cons e r ih =>
    obtain ⟨k', w'⟩ := e
    simp only [Map.ins]
    split
    · simp [Map.ins]
    · split
      · simp [Map.ins]
      · next hne hlt => simp [Map.ins, hne, hlt, ih]

end Sys2Proof.Machine

namespace Sys2Proof.Machine.State
open Sys2Proof Sys2Proof.Machine

/-! ### Two updates of one group -/

theorem modCell_modCell (s : State) (c : Nat) (f g : Cell → Cell) : (s.modCell c f).modCell c g = s.modCell c fun x => g (f x) := by
  simp only [modCell, cell_setCell_same]
  simp only [setCell, Map.ins_ins]

theorem modCg_modCg (s : State) (f g : Group → Group) : (s.modCg f).modCg g = s.modCg fun x => g (f x) := by
  have hcur : (s.modCg f).cur = s.cur := rfl
  unfold modCg at hcur ⊢
  rw [hcur, modGroup, group_modGroup_same]
  simp only [modGroup, setGroup, modCell_modCell, Map.ins_ins]

/-! ### Failure of the task -/

theorem task_modTask_same {s : State} {t : BitVec 64} {k : Task} (f : Task → Task) (h : s.task t = some k) (hf : (f k).ticket = k.ticket) :
    (s.modTask t f).task t = some (f k) := by
  obtain ⟨hk, l, r, hs, hl⟩ := List.find?_eq_some_iff_append.mp h
  unfold task modTask
  rw [List.find?_map, List.find?_eq_some_iff_append.mpr ⟨?_, l, r, hs, fun a ha => ?_⟩, Option.map_some, if_pos hk]
  · show ((if k.ticket == t then f k else k).ticket == t) = true
    rw [if_pos hk, hf, hk]
  · have hat : ¬(a.ticket == t) = true := by simpa using hl a ha
    simp only [Function.comp_apply, if_neg hat]
    exact hl a ha

/-- The task that fails is marked, with the code. -/
theorem task_failTask {s : State} {t : BitVec 64} {k : Task} (h : s.task t = some k) (hfail : k.failing = false) (hstate : k.state < 7)
    (code : BitVec 8) (d : Nat) (n : Bool) : (s.failTask t code d n).task t = some { k with failing := true, fault := code } := by
  have hgo : (k.failing || decide (k.state ≥ 7)) = false := by simpa [hfail] using hstate
  have hmark := task_modTask_same (fun x => { x with failing := true, fault := code }) h rfl
  unfold failTask
  simp only [h, hgo, Bool.false_eq_true, if_false]
  cases n
  · exact hmark
  · exact hmark

/-- A fault in handler mode, of an instruction of a task that it does not roll back. -/
theorem raise_in_handler {s : State} {x : Raise} (hhold : x.hold = false) (hcopy : x.endCopy = false) (hclr : x.clr = .no)
    (hroll : s.rollsBack s.cur.cell x.code = false) (hhandler : s.cg.handler = true) :
    s.raise x = s.dropRun.failTask s.cc.ticket x.code 0 true := by
  simp only [raise, hhold, hcopy, hclr, hroll, hhandler, clearFor, Bool.false_eq_true, if_false, if_true]

/-! ### Delivery to the handler -/

theorem raise_outside_handler {s s' : State} {x : Raise} (hhold : x.hold = false) (hcopy : x.endCopy = false) (hclr : x.clr = .no)
    (hroll : s.rollsBack s.cur.cell x.code = false) (hhandler : s.cg.handler = false)
    (h : s.deliver s.entry (if x.next then nextPC s.crun.pc else s.crun.pc) x false = some s') : s.raise x = s' := by
  simp only [raise, hhold, hcopy, hclr, hroll, hhandler, clearFor, Bool.false_eq_true, if_false, h]

/-- With a handler at a line marked as a target and a writable frame, the fault is delivered. -/
theorem deliver_taken {s s1 s2 : State} {ln : Nat} {y : Xlat} (e : Entry) (pc : BitVec 64) (x : Raise) (late : Bool)
    (hvec : (s.ctx s.cc.ctx).trapvec ≠ 0) (hpc : wellFormedPc (s.ctx s.cc.ctx).trapvec = true)
    (hfetch : s.fetchSlot (s.whoOf s.cur.cell) (s.ctx s.cc.ctx).trapvec = .ok (s1, ln))
    (htarget : lineTarget ln (pcSlot (s.ctx s.cc.ctx).trapvec) = true)
    (hcheck : s1.checkOne (s.whoOf s.cur.cell) { n := 64, rd := false, wr := true, region := false } (s1.cg.trapsave.toNat % 2 ^ 57)
      = .ok (s2, some y)) :
    s.deliver e pc x late = some ((s2.writeAt (s.whoOf s.cur.cell).k (tagOf (s.whoOf s.cur.cell) y 0) false
        (physOf y (s1.cg.trapsave.toNat % 2 ^ 57)) (trapFrame e pc (trapCause x late) x.addr)).modCg fun g => { g with
      run := none, settled := false, trapcause := trapCause x late, trapaddr := x.addr, trappc := pc, handler := true,
      entries := g.entries.erase e ++ [⟨(s.ctx s.cc.ctx).trapvec, e.mask, linePriority ln, 0, true, .no⟩] }) := by
  simp only [deliver, if_neg hvec, hpc, hfetch, htarget, hcheck, Bool.not_true, Bool.false_eq_true, if_false, dropRun, modCg_modCg]

/-! ### Return from the handler -/

/-- Where the frame and TRAPPC can be used, the meeting restores the entry of TRAPPC, at which no other lanes stand. -/
theorem leaveHandler_restores {s s1 : State} {y : Xlat} (hsaved : s.cc.saved ≠ some s.cur.grp)
    (hlive : s.cg.entries.foldl (fun m e => if e.handler then m ||| e.mask else m) (0 : BitVec 32) ≠ 0)
    (hcheck : s.checkOne (s.whoOf s.cur.cell) { n := 64, rd := true, wr := false, region := false } (s.cg.trapsave.toNat % 2 ^ 57)
      = .ok (s1, some y)) :
    let w := s.whoOf s.cur.cell
    let live := s.cg.entries.foldl (fun m e => if e.handler then m ||| e.mask else m) (0 : BitVec 32)
    let rest := s.cg.entries.filter fun e => !e.handler
    let r := s1.readAt w.k (tagOf w y 0) false (physOf y (s.cg.trapsave.toNat % 2 ^ 57)) 64
    let mask := BitVec.ofNat 32 (leNat ((r.2.1.drop 8).take 4)) &&& live
    r.2.2 = false → mask ≠ 0 → s.targetsCheck false [s.cg.trappc] = .ok () → rest.find? (fun x => x.pc == s.cg.trappc) = none →
    s.leaveHandler = r.1.modCg fun g => { g with
      handler := false
      entries := rest ++ [⟨s.cg.trappc, mask, BitVec.ofNat 6 (r.2.1.getD 12 0).toNat, r.2.1.getD 13 0, false, .no⟩] } := by
  intro w live rest r mask hbad hmask htargets hfree
  have hsaved' : (s.cc.saved == some s.cur.grp) = false := by simpa using hsaved
  have hfree' : (s.cg.entries.filter fun e => !e.handler).find? (fun x => x.pc == s.cg.trappc) = none := hfree
  simp only [leaveHandler, hsaved', Bool.false_eq_true, if_false, if_neg hlive, hcheck]
  rw [if_neg (by rw [hbad]; exact Bool.false_ne_true), if_neg hmask]
  simp only [htargets, hfree']
  rfl

/-! ### trap and rte -/

section
variable {o : SOp} {s s1 : State}

theorem execTrap_raises (h : Issues (.trap o) s s1) (hact : s1.active o.gd ≠ []) :
    execTrap o s = .next (s.raise { code := fSoftTrap, imm := BitVec.ofNat 16 o.imm.toNat, next := true }) :=
  issue_raise h (by simp only [List.isEmpty_iff, hact, if_false]) rfl

theorem execTrap_idle (h : Issues (.trap o) s s1) (hact : s1.active o.gd = []) : execTrap o s = .next (goesOn (.trap o) s1) :=
  issue_ok h (by simp only [hact, List.isEmpty_nil, if_true])

theorem execRte_outside (h : Issues (.rte o) s s1) (hhandler : s1.cg.handler = false) : execRte o s = .next (s.raise { code := fIllegalOp }) :=
  issueWith_raise h (by simp only [hhandler, require, Bool.false_eq_true, if_false, bind, Except.bind, fault]; rfl) rfl

theorem execRte_meets (h : Issues (.rte o) s s1) (hhandler : s1.cg.handler = true) (hact : s1.active o.gd ≠ [])
    (hsaved : s1.cc.saved ≠ some s1.cur.grp) (htargets : s1.targetsCheck false [s1.cg.trappc] = .ok ()) :
    execRte o s = .next (rteWait o.gd s1).handlerMeeting :=
  issueWith_ok h (s2 := (rteWait o.gd s1).handlerMeeting) (a := .done) (by
    simp only [hhandler, require_of, List.isEmpty_iff, hact, if_false, require_of (bne_iff_ne.mpr hsaved), htargets, bind, Except.bind, pure,
      Except.pure])

end

end Sys2Proof.Machine.State

open Sys2Proof.Machine Sys2Proof.Machine.State

/-- Settles O22: the fault is the failure of the task, which was not failing. -/
theorem faultInHandlerModeFailsTheTask : Obligations.FaultInHandlerModeFailsTheTask := by
  unfold Obligations.FaultInHandlerModeFailsTheTask
  intro s x k hhold hcopy hclr hroll hhandler htask hfail hstate
  rw [raise_in_handler hhold hcopy hclr hroll hhandler]
  exact ⟨_, task_failTask (s := s.dropRun) htask hfail hstate x.code 0 true, rfl, rfl⟩

/-- Settles O21: the delivery finds what it needs, and the handler's entry takes the place of the one that faulted. -/
theorem takingAnException : Obligations.TakingAnException := by
  unfold Obligations.TakingAnException
  intro s x s1 ln s2 y hhold hcopy hclr hroll hhandler tv w va hvec hpc hfetch htarget hcg _ hcheck _
  have htaken := deliver_taken s.entry (if x.next then nextPC s.crun.pc else s.crun.pc) x false hvec hpc hfetch htarget
    (s2 := s2) (y := y) (by rw [hcg]; exact hcheck)
  rw [hcg] at htaken
  exact raise_outside_handler hhold hcopy hclr hroll hhandler htaken

/-- Settles O23, way by way. -/
theorem trapsAndReturns : Obligations.TrapsAndReturns := by
  unfold Obligations.TrapsAndReturns
  refine ⟨fun o s s1 h => ⟨execTrap_raises h, execTrap_idle h⟩, fun o s s1 h => ⟨execRte_outside h, execRte_meets h⟩, ?_⟩
  intro s s1 y w va live rest hsaved hlive hcheck
  exact leaveHandler_restores hsaved hlive hcheck
end

section
/-! SUPPORT. The arena and region instructions (R337, R343-R349), one lemma for each way they end. -/
namespace Sys2Proof.Machine
open Sys2Proof State

theorem worldRefuses_ok {s : State} (h : refuses s = false) (gd : Guard) (addr : Nat) : worldRefuses gd addr s = .ok () := by
  simp only [worldRefuses, h, Bool.false_and, Bool.false_eq_true, if_false]

theorem answer_ok (o : AOp) (code : BitVec 8) (s s2 : State) (x : BitVec 64) (region : Bool) :
    answer o code s (.ok (s2, x)) region = .ok (s2.produceG o.gd o.d x (if atTry o then atPf o else 0) false
      (if region then pendingRegion (actx s2) x.toNat s2 else none)) := rfl
/-- A failure under `.try` is the answer 0, with the predicate set (R343). -/
theorem answer_try {o : AOp} {y : Raise} (htry : atTry o = true) (hhold : y.hold = false) (s : State) (region : Bool) :
    answer o y.code s (.error y) region = .ok (s.produceG o.gd o.d 0 (atPf o) true) := by
  simp only [answer, htry, hhold, beq_self_eq_true, Bool.not_false, Bool.and_self, if_true]
theorem answer_error {o : AOp} (htry : atTry o = false) (code : BitVec 8) (s : State) (y : Raise) (region : Bool) :
    answer o code s (.error y) region = .error y := by
  simp only [answer, htry, Bool.false_and, Bool.false_eq_true, if_false]

/-! ### Arenas (R345-R348) -/

/-- Where no child can be made, it is for want of depth, of a number or of quota. -/
theorem childArena_error {p : Nat} {x : NewArena} {s : State} {y : Raise} (h : childArena p x s = .error y) :
    y.code = fQuota ∧ y.hold = false := by
  unfold childArena at h
  by_cases hd : (s.arena p).depth = 8
  · simp only [hd, if_true, fault, Except.error.injEq] at h
    subst h
    exact ⟨rfl, rfl⟩
  · cases hn : pickNumber s with
    | none =>
      simp only [hd, if_false, hn, fault, Except.error.injEq] at h
      subst h
      exact ⟨rfl, rfl⟩
    | some m =>
      cases hr : s.chargeRefused p x.resv with
      | true =>
        simp only [hd, if_false, hn, hr, if_true, fault, bind, Except.bind, Except.error.injEq] at h
        subst h
        exact ⟨rfl, rfl⟩
      | false => simp [hd, hn, hr, pure, Except.pure] at h

/-- What `arnew` asks for. -/
def newChild (o : AOp) (a : Nat) (s : State) : NewArena :=
  { parent := a, depth := 0, owner := s.cc.ctx, quota := uniB o s, resv := uniC o s, task := s.cc.ticket }

section
variable {o : AOp} {s s1 : State} {a : Nat} (hact : s1.active o.gd ≠ [])
include hact

theorem execArquery_reads (h : Issues (.arquery o) s s1) (hh : handleOf s1.cc.ctx (BitVec.ofNat 64 (uniA o s1)) s1 = .ok a) :
    execArquery o s = .next (goesOn (.arquery o) (s1.produceG o.gd o.d (BitVec.ofNat 64 (match bits o.m.toNat 3 0 with
      | 0 => arenaWord0 (s1.arena a) | 1 => (s1.arena a).quota | 2 => (s1.arena a).charge | _ => (s1.arena a).resv)) 0 false)) :=
  issue_ok h (by simp only [handleA, actx, hh, List.isEmpty_iff, hact, if_false, bind, Except.bind, pure, Except.pure]; rfl)

variable (hplain : refuses s1 = false) (hh : liveHandle s1.cc.ctx (BitVec.ofNat 64 (uniA o s1)) s1 = .ok a)
include hplain hh

theorem execArnew_ready (h : Issues (.arnew o) s s1) (hq : 1 ≤ uniB o s1) (hq' : uniB o s1 < 2 ^ 32) (hr : uniC o s1 ≤ uniB o s1) :
    (∀ s2 n, childArena a (newChild o a s1) s1 = .ok (s2, n) → execArnew o s = .next (goesOn (.arnew o)
      (s2.produceG o.gd o.d (BitVec.ofNat 64 (n + (s2.arena n).gen.toNat * 2 ^ 12)) (if atTry o then atPf o else 0) false)))
    ∧ (∀ y, childArena a (newChild o a s1) s1 = .error y → atTry o = true →
      execArnew o s = .next (goesOn (.arnew o) (s1.produceG o.gd o.d 0 (atPf o) true))) := by
  have hreq : (1 ≤ uniB o s1 && uniB o s1 < 2 ^ 32 && uniC o s1 ≤ uniB o s1) = true := by
    simp only [Bool.and_eq_true, decide_eq_true_eq]
    exact ⟨⟨hq, hq'⟩, hr⟩
  unfold newChild
  refine ⟨fun s2 n hc => issue_ok h ?_, fun y hc htry => issue_ok h ?_⟩
  · simp only [require_of hreq, handleA, actx, hh, worldRefuses_ok hplain, List.isEmpty_iff, hact, if_false, bind, Except.bind, pure,
      Except.pure, hc, answer_ok, Bool.false_eq_true]
  · obtain ⟨hcode, hhold⟩ := childArena_error hc
    simp only [require_of hreq, handleA, actx, hh, worldRefuses_ok hplain, List.isEmpty_iff, hact, if_false, bind, Except.bind, hc]
    rw [← hcode, answer_try htry hhold]

theorem execAralloc_ready {s2 : State} {x : BitVec 64} (h : Issues (.aralloc o) s s1) (hn : 1 ≤ uniB o s1) (hn' : uniB o s1 ≤ 2 ^ 20)
    (hseal : (s1.arena a).state ≠ 2) (hp : allocPages a (uniB o s1) (o.variant = 1) s1 = .ok (s2, x)) :
    execAralloc o s = .next (goesOn (.aralloc o) (s2.produceG o.gd o.d x (if atTry o then atPf o else 0) false)) := by
  have hreq : (1 ≤ uniB o s1 && uniB o s1 ≤ 2 ^ 20) = true := by
    simp only [Bool.and_eq_true, decide_eq_true_eq]
    exact ⟨hn, hn'⟩
  refine issue_ok h ?_
  simp only [require_of hreq, handleA, actx, hh, worldRefuses_ok hplain, List.isEmpty_iff, hact, if_false, bind, Except.bind,
    require_of (decide_eq_true hseal), hp, answer_ok, Bool.false_eq_true]

theorem execArfree_ready {s2 : State} (h : Issues (.arfree o) s s1) (hn : 1 ≤ uniC o s1) (hn' : uniC o s1 ≤ 2 ^ 20)
    (hva : uniB o s1 < 2 ^ 57) (halign : uniB o s1 % 65536 = 0) (hseal : (s1.arena a).state ≠ 2)
    (hmapped : notMapped s1.cc.ctx a ((List.range (uniC o s1)).map fun i => uniB o s1 + 65536 * i) s1 = none)
    (hfree : freePages a (uniB o s1) (uniC o s1) s1 = .ok s2) : execArfree o s = .next (goesOn (.arfree o) s2) := by
  have hreq : (1 ≤ uniC o s1 && uniC o s1 ≤ 2 ^ 20 && uniB o s1 < 2 ^ 57) = true := by
    simp only [Bool.and_eq_true, decide_eq_true_eq]
    exact ⟨⟨hn, hn'⟩, hva⟩
  refine issue_ok h ?_
  simp only [require_of hreq, halign, ne_eq, not_true_eq_false, handleA, actx, hh, worldRefuses_ok hplain, List.isEmpty_iff, hact, if_false,
    bind, Except.bind, hmapped, require_of (decide_eq_true hseal), hfree]

variable (hcrown : (s1.arena a).crown = false) (hpt : (s1.arena a).pt = false) (hview : (s1.arena a).view = false)
include hcrown hpt hview

omit hact hplain hh in
theorem ordinaryArena_ok : ordinaryArena a s1 = .ok () := require_of (by simp [hcrown, hpt, hview]) _ _ _

theorem execArseal_seals (h : Issues (.arseal o) s s1) (hstate : (s1.arena a).state ≠ 2) :
    let sealed := s1.modArena a fun e => { e with state := 2 }
    execArseal o s = .next (goesOn (.arseal o)
      (({ sealed with sealbs := sealed.sealbs ++ [({ arena := a, gen := (s1.arena a).gen.toNat, units := allUnits } : SealB)] } : State).modCg
        fun g => { g with holds := g.holds ++ [Hold.sealUnits a (s1.arena a).gen.toNat] })) :=
  issue_ok h (by simp only [handleA, actx, hh, worldRefuses_ok hplain, List.isEmpty_iff, hact, if_false, bind, Except.bind, pure, Except.pure,
    ordinaryArena_ok hcrown hpt hview, hstate])

theorem execArseal_again (h : Issues (.arseal o) s s1) (hstate : (s1.arena a).state = 2) :
    execArseal o s = .next (goesOn (.arseal o) s1) :=
  issue_ok h (by simp only [handleA, actx, hh, worldRefuses_ok hplain, List.isEmpty_iff, hact, if_false, bind, Except.bind, pure, Except.pure,
    ordinaryArena_ok hcrown hpt hview, hstate, if_true])

theorem execArdrop_drops (h : Issues (.ardrop o) s s1) :
    let r := dropTree a [] s1
    let s2 := r.2.foldl (fun s x => s.learnDrop s.ck x.1) r.1
    execArdrop o s = .next (goesOn (.ardrop o) (s2.modCg fun g => { g with
      holds := g.holds ++ [if o.variant = 1 then Hold.sweep r.2 else Hold.drop r.2 [s2.ck, unitDie (dieOf s2.ck)]] })) :=
  issue_ok h (by simp only [handleA, actx, hh, worldRefuses_ok hplain, List.isEmpty_iff, hact, if_false, bind, Except.bind, pure, Except.pure,
    ordinaryArena_ok hcrown hpt hview])

end

/-! ### Regions (R337, R349) -/

theorem firstFree_of_first {used : Nat → Bool} {i : Nat} (n lo : Nat) (hlo : lo ≤ i) (hi : i < lo + n) (hfree : used i = false)
    (hbusy : ∀ j, lo ≤ j → j < i → used j = true) : firstFree used lo n = some i := by
  induction n generalizing lo with
  | zero => omega
  | succ n ih =>
    rw [firstFree]
    by_cases h : lo = i
    · subst h
      rw [hfree]
      rfl
    · rw [hbusy lo (Nat.le_refl lo) (by omega), if_pos rfl]
      exact ih (lo + 1) (by omega) (by omega) fun j hj hji => hbusy j (by omega) hji

/-- The region that `rgset` asks for, of mode `mode` from `b` on for `l` bytes, not yet in force. -/
def regionOf (mode b l : Nat) (s : State) : Region := ⟨BitVec.ofNat 2 mode, s.cc.tag, s.cc.ptSlot, l / 128, b, some s.fresh⟩
/-- Entry `i` takes the region. -/
def withRegion (i : Nat) (r : Region) (s : State) : State :=
  s.tick.modCtx s.cc.ctx fun x => { x with regions := Map.ins i r x.regions }

theorem setRegion_free {mode b l i : Nat} {s : State} (hmeet : overlaps s.cc.ctx b l s = false) (hi : i < 1024)
    (hfree : Map.find i (s.ctx s.cc.ctx).regions = none) (hbusy : ∀ j < i, (Map.find j (s.ctx s.cc.ctx).regions).isSome) :
    setRegion mode b l s = .ok (withRegion i (regionOf mode b l s) s, BitVec.ofNat 64 i) := by
  have hfirst := firstFree_of_first (used := fun j => (Map.find j (s.ctx s.cc.ctx).regions).isSome) 1024 0 (Nat.zero_le i) (by omega)
    (by rw [hfree]; rfl) fun j _ hj => hbusy j hj
  simp only [setRegion, actx, hmeet, Bool.false_eq_true, if_false, hfirst, bind, Except.bind, pure, Except.pure]
  rfl
theorem setRegion_meets {mode b l : Nat} {s : State} (hmeet : overlaps s.cc.ctx b l s = true) : setRegion mode b l s = fault fRegion b := by
  simp only [setRegion, actx, hmeet, if_true, bind, Except.bind, fault]
theorem pendingRegion_withRegion {mode b l i : Nat} {s : State} (hi : i < 1024) :
    pendingRegion (actx (withRegion i (regionOf mode b l s) s)) (BitVec.ofNat 64 i).toNat (withRegion i (regionOf mode b l s) s)
      = some (i, s.fresh) := by
  have hctx : actx (withRegion i (regionOf mode b l s) s) = s.cc.ctx := rfl
  rw [BitVec.toNat_ofNat, Nat.mod_eq_of_lt (by omega), hctx]
  simp only [pendingRegion, withRegion, ctx_modCtx_same, Map.find_ins_same, Option.bind_some, regionOf, Option.map_some]

section
variable {o : AOp} {s s1 : State} (hact : s1.active o.gd ≠ [])
include hact

theorem execRgquery_inside {i : Nat} {r : Region} (h : Issues (.rgquery o) s s1) (hr : s1.regionAt s1.cc.ctx (uniA o s1) = some (i, r)) :
    execRgquery o s = .next (goesOn (.rgquery o) (s1.produceG o.gd o.d (BitVec.ofNat 64 (2 ^ 63 + 2 ^ 12 * r.mode.toNat + i)) 0 false)) := by
  refine (issueOk_ready h).trans ?_
  simp only [List.isEmpty_iff, hact, if_false, actx, hr]
theorem execRgquery_outside (h : Issues (.rgquery o) s s1) (hr : s1.regionAt s1.cc.ctx (uniA o s1) = none) :
    execRgquery o s = .next (goesOn (.rgquery o) (s1.produceG o.gd o.d 0 0 false)) := by
  refine (issueOk_ready h).trans ?_
  simp only [List.isEmpty_iff, hact, if_false, actx, hr]
  rfl

variable (hplain : refuses s1 = false)
include hplain

section
variable (h : Issues (.rgset o) s s1) (hb : uniA o s1 % 128 = 0) (hb' : uniA o s1 < 2 ^ 57) (hl : uniB o s1 % 128 = 0) (hl' : uniB o s1 ≠ 0)
  (hend : uniA o s1 + uniB o s1 ≤ 2 ^ 57)
include h hb hb' hl hl' hend

theorem execRgset_checked {x : Except Raise State} (hx : answer o fRegion s1 (setRegion (bits o.m.toNat 3 0) (uniA o s1) (uniB o s1) s1) true = x) :
    (∀ t, x = .ok t → execRgset o s = .next (goesOn (.rgset o) t))
    ∧ (∀ y, x = .error y → y.hold = false → execRgset o s = .next (s.raise y)) := by
  have hbase : (uniA o s1 % 128 = 0 && uniA o s1 < 2 ^ 57) = true := by
    simp only [Bool.and_eq_true, decide_eq_true_eq]
    exact ⟨hb, hb'⟩
  have hlen : (uniB o s1 % 128 = 0 && uniB o s1 ≠ 0 && uniA o s1 + uniB o s1 ≤ 2 ^ 57) = true := by
    simp only [Bool.and_eq_true, decide_eq_true_eq]
    exact ⟨⟨hl, hl'⟩, hend⟩
  subst hx
  refine ⟨fun t ht => issue_ok h ?_, fun y hy hhold => issue_raise h ?_ hhold⟩
  · simp only [require_of hbase, require_of hlen, worldRefuses_ok hplain, List.isEmpty_iff, hact, if_false, bind, Except.bind, atSel, ht]
  · simp only [require_of hbase, require_of hlen, worldRefuses_ok hplain, List.isEmpty_iff, hact, if_false, bind, Except.bind, atSel, hy]

theorem execRgset_sets {i : Nat} (hmeet : overlaps s1.cc.ctx (uniA o s1) (uniB o s1) s1 = false) (hi : i < 1024)
    (hfree : Map.find i (s1.ctx s1.cc.ctx).regions = none) (hbusy : ∀ j < i, (Map.find j (s1.ctx s1.cc.ctx).regions).isSome) :
    execRgset o s = .next (goesOn (.rgset o) ((withRegion i (regionOf (bits o.m.toNat 3 0) (uniA o s1) (uniB o s1) s1) s1).produceG
      o.gd o.d (BitVec.ofNat 64 i) (if atTry o then atPf o else 0) false (some (i, s1.fresh)))) := by
  refine (execRgset_checked hact hplain h hb hb' hl hl' hend rfl).1 _ ?_
  rw [setRegion_free hmeet hi hfree hbusy, answer_ok, if_pos rfl, pendingRegion_withRegion hi]

theorem execRgset_meets (hmeet : overlaps s1.cc.ctx (uniA o s1) (uniB o s1) s1 = true) :
    execRgset o s = .next (if atTry o then goesOn (.rgset o) (s1.produceG o.gd o.d 0 (atPf o) true)
      else s.raise { code := fRegion, addr := BitVec.ofNat 64 (uniA o s1) }) := by
  have hchecked := execRgset_checked hact hplain h hb hb' hl hl' hend (x := _) rfl
  rw [setRegion_meets hmeet] at hchecked
  cases htry : atTry o with
  | true => exact hchecked.1 _ (answer_try (y := { code := fRegion, addr := BitVec.ofNat 64 (uniA o s1) }) htry rfl s1 true)
  | false => exact hchecked.2 _ (answer_error htry _ _ _ _) rfl

end

section
variable (h : Issues (.rgclr o) s s1) (hi : uniA o s1 < 1024)
include h hi

theorem execRgclr_own {r : Region} (hr : Map.find (uniA o s1) (s1.ctx s1.cc.ctx).regions = some r) (hown : ownsRegion r s1 = true) :
    execRgclr o s = .next (goesOn (.rgclr o) (s1.modCtx s1.cc.ctx fun x => { x with regions := Map.del (uniA o s1) x.regions })) :=
  issue_ok h (by simp only [require_of (decide_eq_true hi), worldRefuses_ok hplain, List.isEmpty_iff, hact, if_false, bind, Except.bind, pure,
    Except.pure, actx, hr, require_of hown])
theorem execRgclr_foreign {r : Region} (hr : Map.find (uniA o s1) (s1.ctx s1.cc.ctx).regions = some r) (hown : ownsRegion r s1 = false) :
    execRgclr o s = .next (s.raise { code := fRegion, addr := BitVec.ofNat 64 (uniA o s1) }) :=
  issue_raise h (by
    simp only [require_of (decide_eq_true hi), worldRefuses_ok hplain, List.isEmpty_iff, hact, if_false, bind, Except.bind, actx, hr]
    simp only [require, hown, Bool.false_eq_true, if_false, fault]
    rfl) rfl
theorem execRgclr_free (hr : Map.find (uniA o s1) (s1.ctx s1.cc.ctx).regions = none) : execRgclr o s = .next (goesOn (.rgclr o) s1) :=
  issue_ok h (by simp only [require_of (decide_eq_true hi), worldRefuses_ok hplain, List.isEmpty_iff, hact, if_false, bind, Except.bind, pure,
    Except.pure, actx, hr])

end
end

end Sys2Proof.Machine

open Sys2Proof.Machine Sys2Proof.Machine.State

/-- Settles O32, instruction by instruction. -/
theorem arenaAndRegionInstructionsComplete : Obligations.ArenaAndRegionInstructionsComplete := by
  unfold Obligations.ArenaAndRegionInstructionsComplete
  refine ⟨fun o s s1 a hact hplain => ⟨fun hh => ⟨fun h hq hq' hr => ?_, ?_, ?_, fun hcrown hpt hview => ⟨?_, ?_, ?_⟩⟩, ?_⟩,
    fun o s s1 hact => ⟨fun h hplain hb hb' hl hl' hend => ⟨?_, ?_⟩, fun h hplain hi => ⟨?_, ?_, ?_⟩, fun h => ⟨?_, ?_⟩⟩⟩
  · exact execArnew_ready hact hplain hh h hq hq' hr
  · exact fun s2 x h hn hn' hseal hp => execAralloc_ready hact hplain hh h hn hn' hseal hp
  · exact fun s2 h hn hn' hva halign hseal hmapped hfree => execArfree_ready hact hplain hh h hn hn' hva halign hseal hmapped hfree
  · exact execArseal_seals hact hplain hh hcrown hpt hview
  · exact execArseal_again hact hplain hh hcrown hpt hview
  · exact execArdrop_drops hact hplain hh hcrown hpt hview
  · exact execArquery_reads hact
  · exact fun i hmeet hi hfree hbusy => execRgset_sets hact hplain h hb hb' hl hl' hend hmeet hi hfree hbusy
  · exact execRgset_meets hact hplain h hb hb' hl hl' hend
  · exact fun r hr hown => execRgclr_own hact hplain h hi hr hown
  · exact fun r hr hown => execRgclr_foreign hact hplain h hi hr hown
  · exact execRgclr_free hact hplain h hi
  · exact fun i r hr => execRgquery_inside hact h hr
  · exact execRgquery_outside hact h
end

section
/-! SUPPORT. The service instructions (R446, R449-R454), one lemma for each way they end. -/
namespace Sys2Proof.Machine
open Sys2Proof State

theorem notInRival_ok {s : State} (h : refuses s = false) (gd : Guard) (addr : Nat) : notInRival gd addr s = .ok () := by
  simp only [notInRival, h, Bool.false_and, Bool.false_eq_true, if_false]
theorem privileged_ok {s : State} (h : (s.ctx s.cc.ctx).system = true) (gd : Guard) : privileged gd s = .ok () :=
  require_of (by rw [h, Bool.or_true]) _ _ _
/-- Outside a system context the check ends in PROT, sub-cause 5 (R446). -/
theorem privileged_error {s : State} {gd : Guard} (hact : s.active gd ≠ []) (h : (s.ctx s.cc.ctx).system = false) :
    privileged gd s = .error { code := fProt, sub := 5 } := by
  simp only [privileged, require, h, List.isEmpty_iff, hact, Bool.or_false, if_false, fault]
  rfl

section
variable {o : SOp} {s s1 : State} (hact : s1.active o.gd ≠ [])
include hact

/-! ### Services of any context -/

section
variable (hplain : refuses s1 = false)
include hplain

theorem execSysc_replies (h : Issues (.sysc o) s s1) : execSysc o s = .next (goesOn (.sysc o)
    (replyG o.dest (syscReply o.imm.toNat (s1.gsrc o.a) s1.fresh) 5 (releaseActs s1.cur (s1.whoOf s1.cur.cell) 5 none s1.tick))) :=
  issue_ok h (by simp only [notInRival_ok hplain, List.isEmpty_iff, hact, if_false, bind, Except.bind, pure, Except.pure])

theorem execErrq_takes {s2 : State} (h : Issues (.errq o) s s1) (halign : (s1.gsrc o.a).toNat % 32 = 0) :
    let rs := (s1.ctx s1.cc.ctx).errq.take o.imm.toNat
    writeVa (s1.whoOf s1.cur.cell) 32 (s1.gsrc o.a).toNat rs.flatten s1 = .ok s2 →
    execErrq o s = .next (goesOn (.errq o) (replyG o.dest (BitVec.ofNat 64 rs.length) 0
      (s2.modCtx s1.cc.ctx fun x => { x with errq := x.errq.drop rs.length }))) := by
  intro rs hwrite
  refine issue_ok h ?_
  have hwrite' : writeVa (s1.whoOf s1.cur.cell) 32 (s1.gsrc o.a).toNat ((s1.ctx s1.cc.ctx).errq.take o.imm.toNat).flatten s1 = .ok s2 := hwrite
  simp only [notInRival_ok hplain, halign, ne_eq, not_true_eq_false, List.isEmpty_iff, hact, if_false, bind, Except.bind, pure, Except.pure,
    hwrite']
  rfl

theorem execRpset_sets (h : Issues (.rpset o) s s1) (halign : (s1.gsrc o.a).toNat % 64 = 0) (hva : (s1.gsrc o.a).toNat < 2 ^ 57) :
    execRpset o s = .next (goesOn (.rpset o) (s1.modCtx s1.cc.ctx fun x => { x with rpentry := s1.gsrc o.a })) := by
  have hreq : ((s1.gsrc o.a).toNat % 64 = 0 && (s1.gsrc o.a).toNat < 2 ^ 57) = true := by
    simp only [Bool.and_eq_true, decide_eq_true_eq]
    exact ⟨halign, hva⟩
  exact issue_ok h (by simp only [notInRival_ok hplain, require_of hreq, List.isEmpty_iff, hact, if_false, bind, Except.bind, pure, Except.pure])

/-- The second word that `ckpt` reads: the address of its record. -/
def ckptRecord (o : SOp) (s : State) : BitVec 64 := match o.a with | .g i _ => s.gval (i + 1) | _ => 0
/-- A checkpoint of number `n` of context `c` is in progress (R451). -/
def ckptBegun (c : Nat) (n : BitVec 64) (s : State) : State := s.modCtx c fun x => { x with ckptstat := BitVec.ofNat 64 (n.toNat * 4 + 1) }

theorem execCkpt_begins {s2 s4 : State} (h : Issues (.ckpt o) s s1) (hidle : bits (s1.ctx s1.cc.ctx).ckptstat.toNat 1 0 ≠ 1)
    (hnext : (s1.ctx s1.cc.ctx).rpseq.toNat < (s1.gsrc o.a).toNat) (halign : (ckptRecord o s1).toNat % 64 = 0)
    (hrecord : rcvRecord (s1.whoOf s1.cur.cell) ((ckptRecord o s1).toNat % 2 ^ 57) s1 = .ok s2) (hroom : rcvFull s2.cur s2 = false) :
    let w := s1.whoOf s1.cur.cell
    let c := s1.cc.ctx
    let s3 := ckptBegun c (s1.gsrc o.a) (releaseActs s2.cur w 6 none s2)
    writeVa w 64 (ckptRecord o s1).toNat (queueHeads (s3.ctx c) s3) s3 = .ok s4 →
    let s5 := releaseActs s4.cur w 6 none s4
    execCkpt o s = .next (goesOn (.ckpt o)
      (({ s5 with ckpts := Map.ins c ⟨s1.gsrc o.a, (ckptRecord o s1).setWidth 57, [], false⟩ s5.ckpts } : State).produce
        { writes := [], regs := dstRegs o.dest 64, pred := none, fault := none, ckpt := some c })) := by
  have hreq : (bits (s1.ctx s1.cc.ctx).ckptstat.toNat 1 0 ≠ 1 && (s1.ctx s1.cc.ctx).rpseq.toNat < (s1.gsrc o.a).toNat) = true := by
    simp only [Bool.and_eq_true, decide_eq_true_eq]
    exact ⟨hidle, hnext⟩
  intro w c s3 hwrite
  refine issue_ok h ?_
  unfold ckptRecord at halign hrecord hwrite ⊢
  obtain ⟨gd, variant, dest, a, sysreg, imm⟩ := o
  cases a
  all_goals
    dsimp only [w, c, s3, ckptBegun] at halign hrecord hwrite
    simp only [notInRival_ok hplain, List.isEmpty_iff, hact, if_false, bind, Except.bind, pure, Except.pure, require_of hreq, halign, ne_eq,
      not_true_eq_false, hrecord, hroom, Bool.false_eq_true, hwrite]
    rfl

end

/-! ### Services of a system context -/

section
variable (hsys : (s1.ctx s1.cc.ctx).system = true)
include hsys

/-- The length in bytes that `tlbinv` reads from its second word. -/
def tlbinvLen (o : SOp) (s : State) : Nat := match o.a with | .g i _ => (s.gval (i + 1)).toNat | _ => 0

theorem execTlbinv_shoots (h : Issues (.tlbinv o) s s1) (haddr : (s1.gsrc o.a).toNat % 65536 = 0) (hlen : tlbinvLen o s1 % 65536 = 0) :
    let r := startShoot s1.cc.ctx ((s1.gsrc o.a).toNat % 2 ^ 57) (tlbinvLen o s1) [] s1
    execTlbinv o s = .next (goesOn (.tlbinv o) (r.1.modCg fun g => { g with holds := g.holds ++ [.shoot r.2] })) := by
  unfold tlbinvLen at hlen ⊢
  refine issue_ok h ?_
  obtain ⟨gd, variant, dest, a, sysreg, imm⟩ := o
  cases a
  all_goals
    dsimp only at haddr hlen
    simp only [privileged_ok hsys, haddr, hlen, ne_eq, not_true_eq_false, List.isEmpty_iff, hact, if_false, bind, Except.bind, pure, Except.pure]

section
variable {leaf : BitVec 64} {sh at' : Nat} (h : Issues (.pgsplit o) s s1)
  (hwalk : s1.walk (s1.ctx s1.cc.ctx).root.toNat ((s1.gsrc o.a).toNat % 2 ^ 57) = some (leaf, sh, at'))
include h hwalk

theorem execPgsplit_base (hsh : sh = 16) : execPgsplit o s = .next (goesOn (.pgsplit o) s1) :=
  issue_ok h (by simp only [privileged_ok hsys, List.isEmpty_iff, hact, if_false, bind, Except.bind, pure, Except.pure, hwalk, hsh, if_true])
theorem execPgsplit_large {s2 : State} (hsh : sh ≠ 16) (hsplit : splinter leaf sh at' s1 = .ok s2) :
    execPgsplit o s = .next (goesOn (.pgsplit o) s2) :=
  issue_ok h (by simp only [privileged_ok hsys, List.isEmpty_iff, hact, if_false, bind, Except.bind, hwalk, hsh, hsplit])

end

section
variable (h : Issues (.stest o) s s1) (hunit : bits o.imm.toNat 18 3 < unitCount (bits o.imm.toNat 2 0))
include h hunit

theorem execStest_retired (hout : s1.inService (unitOf (bits o.imm.toNat 2 0) (bits o.imm.toNat 18 3)) = false) :
    execStest o s = .next (goesOn (.stest o) (replyG o.dest 2 0 s1)) :=
  issue_ok h (by simp only [privileged_ok hsys, require_of (decide_eq_true hunit), List.isEmpty_iff, hact, if_false, bind, Except.bind, pure,
    Except.pure, hout, Bool.not_false, if_true])
theorem execStest_calls (hin : s1.inService (unitOf (bits o.imm.toNat 2 0) (bits o.imm.toNat 18 3)) = true) :
    let u := unitOf (bits o.imm.toNat 2 0) (bits o.imm.toNat 18 3)
    execStest o s = .next (goesOn (.stest o) ((s1.callTest u).produce
      { writes := [], regs := dstRegs o.dest 64, pred := none, fault := none, ckpt := none, test := some u })) :=
  issue_ok h (by simp only [privileged_ok hsys, require_of (decide_eq_true hunit), List.isEmpty_iff, hact, if_false, bind, Except.bind, pure,
    Except.pure, hin, Bool.not_true, Bool.false_eq_true])

end
end

/-! ### Privileged services outside a system context (R446) -/

section
variable (hsys : (s1.ctx s1.cc.ctx).system = false)
include hsys

theorem execTlbinv_privileged (h : Issues (.tlbinv o) s s1) : execTlbinv o s = .next (s.raise { code := fProt, sub := 5 }) :=
  issue_raise h (by simp only [privileged_error hact hsys, bind, Except.bind]) rfl
theorem execPgsplit_privileged (h : Issues (.pgsplit o) s s1) : execPgsplit o s = .next (s.raise { code := fProt, sub := 5 }) :=
  issue_raise h (by simp only [privileged_error hact hsys, bind, Except.bind]) rfl
theorem execStest_privileged (h : Issues (.stest o) s s1) : execStest o s = .next (s.raise { code := fProt, sub := 5 }) :=
  issue_raise h (by simp only [privileged_error hact hsys, bind, Except.bind]) rfl

end
end

end Sys2Proof.Machine

open Sys2Proof.Machine Sys2Proof.Machine.State

/-- Settles O24, instruction by instruction. -/
theorem servicesComplete : Obligations.ServicesComplete := by
  unfold Obligations.ServicesComplete
  refine ⟨fun o s s1 hact hplain => ⟨execSysc_replies hact hplain, fun s2 h halign => execErrq_takes hact hplain h halign,
    execRpset_sets hact hplain, fun s2 s4 h hidle hnext halign hrecord hroom => execCkpt_begins hact hplain h hidle hnext halign hrecord hroom,
    fun hsys => ⟨fun h => execTlbinv_shoots hact hsys h, fun leaf sh at' h hwalk => ⟨execPgsplit_base hact hsys h hwalk, fun s2 =>
      execPgsplit_large hact hsys h hwalk⟩, fun h hunit => ⟨execStest_retired hact hsys h hunit, execStest_calls hact hsys h hunit⟩⟩⟩, ?_⟩
  rintro o s s1 hact hsys i (rfl | rfl | rfl) h
  · exact execTlbinv_privileged hact hsys h
  · exact execPgsplit_privileged hact hsys h
  · exact execStest_privileged hact hsys h
end

section
/-! SUPPORT. The events of recovery (R435-R444), each with its condition met. -/
namespace Sys2Proof.Machine
open Sys2Proof State

theorem execRollback_due {t : BitVec 64} {s : State} {x : Task} {code : BitVec 8} (h : s.task t = some x) (hreplay : x.replay = some code)
    (hfail : x.failing = false) (hstate : x.state < 7) : execRollback t s = .next (rollBack x code s) := by
  have hgo : ¬(x.failing = true ∨ 7 ≤ x.state) := by
    rw [hfail, not_or, Nat.not_le]
    exact ⟨Bool.false_ne_true, hstate⟩
  simp only [execRollback, h, hreplay, if_neg hgo]

/-- Equal signatures: both cells have retired (R438). -/
theorem execShadowCompare_equal {a b : Nat} {s : State} {p : BitVec 64} (ha : (s.cell a).sigDone = some p) (hb : (s.cell b).sigDone = some p)
    (hra : (s.cell a).role = .original b) (hrb : (s.cell b).role = .copy a) (hstop : s.stopped a = false) :
    let x := s.cell a
    execShadowCompare a b s = .next (countRetired x.ticket (removeCell a (leaveArea a
      (removeCell b (s.modCtx x.ctx fun c => { c with shadowRun := satInc c.shadowRun }))))) := by
  have hgo : ¬((s.cell a).role ≠ .original b ∨ (s.cell b).role ≠ .copy a ∨ s.stopped a = true) := by simp [hra, hrb, hstop]
  simp only [execShadowCompare, ha, hb, if_neg hgo, if_true]

section
variable {c : Nat} {s : State} {k : Ckpt} (h : Map.find c s.ckpts = some k) (hreach : k.unreachable = false)
include h hreach

theorem execCkptPrepareAck_acks {d : Nat} (hd : d < 12) (hnew : Map.find d k.acks = none) :
    let j := (s.gessoOf d).pos
    let t := s.modGesso d fun g => { g with pos := g.pos + 1, commits := ⟨c, k.n, j, [], [], false⟩ :: g.commits }
    execCkptPrepareAck c d s = .next { t with ckpts := Map.ins c { k with acks := Map.ins d j k.acks } t.ckpts } := by
  have hgo : ¬(12 ≤ d ∨ k.unreachable = true ∨ (Map.find d k.acks).isSome = true) := by
    rw [hreach, hnew]
    simpa using hd
  simp only [execCkptPrepareAck, h, if_neg hgo]

/-- Every die has answered and holds the commit: the checkpoint is whole (R440). -/
theorem execCkptSeal_whole (hall : 12 ≤ k.acks.length) :
    let s1 := storeSeal c k.n (ckptList k) (Config.shake256 (ckptList k)) s
    let s2 : State := { s1 with ckpts := Map.del c s1.ckpts }
    wholeCkpt c k.n s2 = true → execCkptSeal c s = .next (answerCkpt c 0 (settleHeld ((trimJournals c (s2.ctx c).rpseq s2).modCtx c fun x =>
      { x with rpseq := k.n, rpqpos := k.addr.setWidth 64, ckptstat := BitVec.ofNat 64 (k.n.toNat * 4) }))) := by
  intro s1 s2 hwhole
  dsimp only [s2, s1] at hwhole ⊢
  simp only [execCkptSeal, h, hreach, Nat.not_lt.mpr hall, false_and, Bool.false_eq_true, if_false, Bool.not_false, Bool.true_and, hwhole, if_true]

end

theorem execRecovery_begins {c : Nat} {s : State} (hctx : hasCtx c s = true) (hseq : (s.ctx c).rpseq ≠ 0) (hnew : (s.ctx c).rejoin = false) :
    execRecovery c s = .next (recoverCtx c s) := by
  have hgo : ¬((!hasCtx c s) = true ∨ (s.ctx c).rpseq = 0) := by
    rw [hctx, not_or]
    exact ⟨Bool.false_ne_true, hseq⟩
  simp only [execRecovery, if_neg hgo, hnew, Bool.false_eq_true, if_false]

theorem execContainmentReset_die {d : Nat} (hd : d < 4) (s : State) :
    let here := (s.cells.filter fun c => c.2.place == .resident && dieOf c.2.studio == d).map fun c => c.2.ctx
    let f := flushDie d s
    let cs := (State.distinct (here ++ f.2)).filter fun c => hasCtx c f.1
    let s2 := resetDie d { f.1 with ckpts := f.1.ckpts.map fun k => (k.1, { k.2 with unreachable := true }) }
    execContainmentReset d s = .next (testDie d (cs.foldl (fun s c =>
      if (s.ctx c).rpseq ≠ 0 then recoverCtx c s else failRunning c fMemUncorr s) s2)) := by
  simp only [execContainmentReset, Nat.not_le.mpr hd, if_false]

theorem execErrorReport_counts {u : ErrUnit} (hu : (unitClass u).2 < unitCount (unitClass u).1) (b : Bool) (s : State) :
    execErrorReport u b s = .next (s.countError u b) := by
  simp only [execErrorReport, hu, if_true]

/-- The test of a unit in service that can leave it. -/
theorem execSelfTest_made {u : ErrUnit} {s s2 : State} (hdue : s.module.due.contains u = true) (hin : s.inService u = true)
    (hclear : clearUnit u s = some s2) (pass : Bool) :
    execSelfTest u pass s = .next (testMade u (if pass then 0 else 1) (if pass then s2 else s2.retireUnit u)) := by
  simp only [execSelfTest, hdue, hin, hclear, Bool.not_true, Bool.false_eq_true, if_false]

end Sys2Proof.Machine

open Sys2Proof.Machine Sys2Proof.Machine.State

/-- Settles O49, event by event. -/
theorem recoveryEventsComplete : Obligations.RecoveryEventsComplete := by
  unfold Obligations.RecoveryEventsComplete
  refine ⟨fun t s x code h hreplay hfail hstate => ?_, fun a b s p ha hb hra hrb hstop => ?_, fun c d s k h hd hreach hnew => ?_,
    fun c s k h hall hreach => ?_, fun c s hctx hseq hnew => ?_, fun d s hd => ?_, fun u b s hu => ?_, fun u pass s s2 hdue hin hclear => ?_⟩
  · exact execRollback_due h hreplay hfail hstate
  · exact execShadowCompare_equal ha hb hra hrb hstop
  · exact execCkptPrepareAck_acks h hreach hd hnew
  · exact execCkptSeal_whole h hreach hall
  · exact execRecovery_begins hctx hseq hnew
  · exact execContainmentReset_die hd s
  · exact execErrorReport_counts hu b s
  · exact execSelfTest_made hdue hin hclear pass
end

section
/-! SUPPORT. The task and world instructions (R364-R367, R392-R394), one lemma for each way they end. -/
namespace Sys2Proof.Machine
open Sys2Proof State

/-! ### tlaunch, tdep, worknext (R392-R394) -/

/-- What `tlaunch` leaves once ticket `t` is known: the record of the write stream, the call, and the reply (R370, R392; log 88). -/
def launched (hold : Bool) (o : XOp) (a q : Nat) (t : BitVec 64) (s : State) : State :=
  let s := signWrite s.cur a (leBytes 8 ((if hold then 2 ^ 63 else 0) + q)) s
  replyG o.dest t 0 (s.modCc fun c => { c with launches := c.launches ++ [(s.cur.grp, t)] })

theorem launched_of_sub (o : XOp) (a q : Nat) (t : BitVec 64) (s : State) : launched (o.sub == 1) o a q t s =
    let s := signWrite s.cur a (leBytes 8 ((if o.sub = 1 then 2 ^ 63 else 0) + q)) s
    replyG o.dest t 0 (s.modCc fun c => { c with launches := c.launches ++ [(s.cur.grp, t)] }) := by
  unfold launched
  by_cases h : o.sub = 1
  · rw [if_pos h, if_pos (beq_iff_eq.mpr h)]
  · rw [if_neg h, if_neg (mt beq_iff_eq.mp h)]

theorem whoOf_here_ctx (s : State) : (s.whoOf s.cur.cell).ctx = s.cc.ctx := rfl

/-- A computation that has answered goes on with its answer. -/
theorem ok_bind {ε α β : Type} (a : α) (f : α → Except ε β) : ((Except.ok a : Except ε α) >>= f) = f a := (rfl)

section
variable {o : XOp} {s s1 : State} (hact : s1.active o.gd ≠ []) (hcopy : inCopy s1 s1.cur.cell = false) (hrival : inRival s1 s1.cur.cell = false)
include hact hcopy hrival

section
variable {d : QDesc} {hold : Bool} (hd : deviceQueue s1.cc.ctx (bits o.imm.toNat 5 0) s1 = .ok d)
include hd

theorem launchEffect_full (hfull : d.full = true) : launchEffect hold o s1 =
    .ok (launched hold o (s1.gval o.record).toNat (bits o.imm.toNat 5 0) 0 (releaseActs s1.cur (s1.whoOf s1.cur.cell) 4 none s1)) := by
  simp only [launchEffect, List.isEmpty_iff, hact, hcopy, hrival, Bool.false_eq_true, if_false, whoOf_here_ctx, hd, ok_bind, hfull, if_true]
  rfl

theorem launchEffect_submits {s2 s4 : State} {ls : List LaneAcc} {t : BitVec 64} (hroom : d.full = false)
    (hcheck : checkLanes (s1.whoOf s1.cur.cell) { n := 64, rd := true, wr := false }
      [(s1.uniPos o.gd, (s1.gval o.record).toNat % 2 ^ 57, [((s1.gval o.record).toNat % 2 ^ 57, 64)])] s1 = .ok (s2, ls))
    (hsubmit : submit s1.cc.ctx (bits o.imm.toNat 5 0) (s1.gval o.record).toNat hold d
      (releaseActs s2.cur (s1.whoOf s1.cur.cell) 4 none s2) = .ok (s4, t)) :
    launchEffect hold o s1 = .ok (launched hold o (s1.gval o.record).toNat (bits o.imm.toNat 5 0) t s4) := by
  simp only [launchEffect, List.isEmpty_iff, hact, hcopy, hrival, Bool.false_eq_true, if_false, whoOf_here_ctx, hd, ok_bind, hroom, hcheck,
    pure_bind, hsubmit]
  rfl

end

omit hact in
theorem refuses_eq_false : refuses s1 = false := by rw [refuses, hrival, hcopy, Bool.or_self]

section
variable {x : Task} (hx : s1.task (s1.gval o.record) = some x) (hctx : x.ctx = s1.cc.ctx) (hheld : x.state = 2)
include hx hctx hheld

omit hact hcopy hrival in
theorem heldTask_ok : heldTask o s1 = .ok x := by simp only [heldTask, hx, hctx, hheld, and_self, if_true]

theorem execTdep_adds (h : Issues (.tdep o) s s1) (hroom : x.deps.length < 8) (hother : s1.gsrc o.coord ≠ x.ticket) :
    execTdep o s = .next (goesOn (.tdep o) (s1.modTask x.ticket fun y => { y with deps := y.deps ++ [s1.gsrc o.coord] })) := by
  have hreq : (x.deps.length < 8 && s1.gsrc o.coord ≠ x.ticket) = true := by
    simp only [Bool.and_eq_true, decide_eq_true_eq]
    exact ⟨hroom, hother⟩
  exact issue_ok h (by simp only [List.isEmpty_iff, hact, refuses_eq_false hcopy hrival, heldTask_ok hx hctx hheld, require_of hreq,
    Bool.false_eq_true, if_false, bind, Except.bind, pure, Except.pure])

theorem execTdepGo_readies (h : Issues (.tdepGo o) s s1) :
    execTdepGo o s = .next (goesOn (.tdepGo o) (settleDeps x.ticket (setTaskState x.ticket 3 s1))) :=
  issue_ok h (by simp only [List.isEmpty_iff, hact, refuses_eq_false hcopy hrival, heldTask_ok hx hctx hheld,
    Bool.false_eq_true, if_false, bind, Except.bind, pure, Except.pure])

end

theorem execWorknext_shares {t : Task} {i : BitVec 7} (h : Issues (.worknext o) s s1) (ht : s1.task s1.cc.ticket = some t)
    (hdest : o.dest = .g i) (hn : 1 ≤ (s1.gval o.record).toNat) (hn' : (s1.gval o.record).toNat ≤ 2 ^ 48)
    (hsame : t.shared = true → (s1.gval o.record).toNat = t.iters ∧ o.imm.toNat = t.tileLen) :
    let a := (s1.gval o.record).toNat
    let x := shareOf t.share t.lrec.cells a o.imm.toNat
    let s2 := (journalCtl t.ctx 2 t.ticket.toNat (t.share + 1) s1).modTask t.ticket fun y =>
      { y with shared := true, iters := a, tileLen := o.imm.toNat, share := y.share + 1 }
    execWorknext o s = .next (goesOn (.worknext o) ((s2.modCc fun c => { c with wnext := c.wnext ++ [(s2.cur.grp, x)] }).produce
      { writes := [.g i.toNat x.1, .g (i.toNat + 1) x.2], regs := [.g i.toNat, .g (i.toNat + 1)], pred := none, fault := none, ckpt := none })) := by
  have hreq : (1 ≤ (s1.gval o.record).toNat && (s1.gval o.record).toNat ≤ 2 ^ 48) = true := by
    simp only [Bool.and_eq_true, decide_eq_true_eq]
    exact ⟨hn, hn'⟩
  have hagree : (!t.shared || ((s1.gval o.record).toNat = t.iters && o.imm.toNat = t.tileLen)) = true := by
    cases hs : t.shared with
    | false => rfl
    | true =>
      simp only [Bool.not_true, Bool.false_or, Bool.and_eq_true, decide_eq_true_eq]
      exact hsame hs
  exact issue_ok h (by simp only [List.isEmpty_iff, hact, hcopy, hrival, ht, require_of hreq, require_of hagree, replyShare, hdest,
    Bool.false_eq_true, if_false, bind, Except.bind, pure, Except.pure])

end

/-! ### Worlds (R364-R367) -/

section
variable {o : AOp} {s s1 : State} (hact : s1.active o.gd ≠ [])
include hact

theorem execForkw_forks {s2 : State} {vs : List Nat} (h : Issues (.forkw o) s s1) (hn : 2 ≤ uniA o s1) (hn' : uniA o s1 ≤ 8)
    (hq : 1 ≤ uniB o s1) (hq' : uniB o s1 < 2 ^ 32) (hcopy : inCopy s1 s1.cur.cell = false) (hbusy : worldBusy s1 = false)
    (hfork : s1.cc.fork = none) (hdepth : (s1.view s1.cc.view).depth ≠ 4) (hviews : uniA o s1 ≤ (freeViews s1).length)
    (hopen : openRivals (recCrown s1.cc.ctx (match s1.task s1.cc.ticket with | some t => t.lrec | none => default) s1) s1.cc.ctx s1.cc.view
      (uniB o s1) (uniA o s1) 0 s1 = some (s2, vs)) : execForkw o s = .next (goesOn (.forkw o) (startFork o vs s2)) := by
  have hreq : (2 ≤ uniA o s1 && uniA o s1 ≤ 8 && 1 ≤ uniB o s1 && uniB o s1 < 2 ^ 32) = true := by
    simp only [Bool.and_eq_true, decide_eq_true_eq]
    exact ⟨⟨⟨hn, hn'⟩, hq⟩, hq'⟩
  have hfree : (!worldBusy s1 && s1.cc.fork.isNone) = true := by rw [hbusy, hfork]; rfl
  refine issue_ok h ?_
  simp only [require_of hreq, require_of hfree, require_of (decide_eq_true hdepth), List.isEmpty_iff, hact, hcopy, Bool.false_eq_true, if_false,
    Nat.not_lt.mpr hviews, bind, Except.bind, pure, Except.pure, actx]
  erw [hopen]

section
variable (h : Issues (.wend o) s s1) (hrival : inRival s1 s1.cur.cell = true)
include h hrival

theorem execWend_ends (hend : s1.cc.ended = false) : execWend o s = .next (goesOn (.wend o)
    ((s1.modView s1.cc.view fun w => { w with score := BitVec.ofNat 64 (uniA o s1), wended := true }).modCc fun c => { c with ended := true })) :=
  issue_ok h (by simp only [List.isEmpty_iff, hact, require_of hrival, hend, Bool.false_eq_true, if_false, bind, Except.bind, pure, Except.pure])
theorem execWend_again (hend : s1.cc.ended = true) : execWend o s = .next (goesOn (.wend o) s1) :=
  issue_ok h (by simp only [List.isEmpty_iff, hact, require_of hrival, hend, if_true, if_false, bind, Except.bind, pure, Except.pure])

end

theorem execWabort_aborts {w : World} (h : Issues (.wabort o) s s1) (hw : openWorld s1 = some w) :
    let s2 := discardRivals w (fun _ => true) s1
    execWabort o s = .next (goesOn (.wabort o) (resolveWorld (releaseActs s2.cur (s2.whoOf s2.cur.cell) 4 none s2))) :=
  issue_ok h (by simp only [List.isEmpty_iff, hact, hw, if_false, pure, Except.pure])

theorem execWquery_reads {w : World} (h : Issues (.wquery o) s s1) (hw : s1.cc.wrec = some w) (hk : uniA o s1 < 8)
    (hk' : uniA o s1 < w.views.length) :
    execWquery o s = .next (goesOn (.wquery o) (s1.produceG o.gd o.d (rivalWord w (uniA o s1) (bits o.m.toNat 3 0)) 0 false)) :=
  issue_ok h (by simp only [require_of (decide_eq_true hk), require_of (decide_eq_true hk'), List.isEmpty_iff, hact, hw, if_false, bind,
    Except.bind, pure, Except.pure, atSel])

end

/-! ### choose (R366) -/

theorem issueResolve_ok {i : Instr} {s s2 : State} {body : State → Except Raise (State × Option Raise)} (h : Issues i s s)
    (hb : body s = .ok (s2, none)) : issueResolve i s body = .next (goesOn i s2) := by
  simp only [issueResolve, h.1, hb, bind, Except.bind]

/-- The state with rival `k` committed, the others discarded and the shoot-downs ended, and the entries left to perform (R361). -/
def committed (w : World) (k : Nat) (s : State) : State × List Esc :=
  let r := commitView (w.views.getD k 0) (discardRivals w (· != k) s)
  (r.2.1.foldl (fun s id => finishShoot id s) r.1, r.2.2)

/-- A world whose commit has not begun, and whose chosen rival's entries are all performed. -/
theorem chooseRival_resolves {o : AOp} {w : World} {k : Nat} {s s4 : State} (hleft : w.left = none)
    (hroom : s.isRival (s.view (w.views.getD k 0)).parent = true →
      (s.view (s.view (w.views.getD k 0)).parent).escs.length + (s.view (w.views.getD k 0)).escs.length ≤ 64)
    (hperf : let s3 := (committed w k s).1
      performEscs (committed w k s).2 (releaseActs s3.cur (s3.whoOf s3.cur.cell) 4 none s3) = (s4, [], none)) :
    chooseRival o w k s = .ok ((resolveWorld s4).produceG o.gd o.d (BitVec.ofNat 64 k) 0 false, none) := by
  have hreq : (!(s.isRival (s.view (w.views.getD k 0)).parent
      && 64 < (s.view (s.view (w.views.getD k 0)).parent).escs.length + (s.view (w.views.getD k 0)).escs.length)) = true := by
    rw [Bool.not_eq_true', Bool.and_eq_false_imp]
    exact fun hr => decide_eq_false (Nat.not_lt.mpr (hroom hr))
  dsimp only [committed] at hperf
  simp only [chooseRival, hleft, require_of hreq, bind, Except.bind, pure, Except.pure, performLeft, hperf]

section
variable {o : AOp} {s : State} {w : World} (hact : s.active o.gd ≠ []) (hw : openWorld s = some w)
include hact hw

theorem execChoose_resolves {t : State} (h : Issues (.choose o) s s) (hk : uniA o s < w.views.length)
    (hc : chooseRival o w (uniA o s) s = .ok (t, none)) : execChoose o s = .next (goesOn (.choose o) t) := by
  have hreq : (w.left.isSome || uniA o s < w.views.length) = true := by rw [decide_eq_true hk, Bool.or_true]
  exact issueResolve_ok h (by simp only [List.isEmpty_iff, hact, hw, if_false, require_of hreq, bind, Except.bind, hc])
theorem execChooseMin_resolves {t : State} (h : Issues (.chooseMin o) s s) (hc : chooseRival o w (bestRival w s) s = .ok (t, none)) :
    execChooseMin o s = .next (goesOn (.chooseMin o) t) :=
  issueResolve_ok h (by simp only [List.isEmpty_iff, hact, hw, if_false, hc])

end

end Sys2Proof.Machine

open Sys2Proof.Machine Sys2Proof.Machine.State

/-- Settles O34, instruction by instruction. -/
theorem taskAndWorldInstructionsComplete : Obligations.TaskAndWorldInstructionsComplete := by
  unfold Obligations.TaskAndWorldInstructionsComplete
  refine ⟨fun o s s1 hact hcopy hrival => ⟨fun d h hd => ⟨?_, fun s2 ls s4 t hroom hcheck hsubmit => ?_⟩,
      fun x hx hctx hheld => ⟨fun h hroom hother => ?_, fun h => ?_⟩, fun t i h ht hdest hn hn' hsame => ?_⟩,
    fun o s s1 hact => ⟨?_, fun h hrival => ⟨?_, ?_⟩, ?_, fun w h hw => ?_, fun w h hw hk hk' => ?_⟩⟩
  · intro hfull
    have heffect := launchEffect_full hact hcopy hrival (hold := o.sub == 1) hd hfull
    rw [launched_of_sub] at heffect
    exact issue_ok h heffect
  · have heffect := launchEffect_submits hact hcopy hrival hd hroom hcheck hsubmit
    rw [launched_of_sub] at heffect
    exact issue_ok h heffect
  · exact execTdep_adds hact hcopy hrival hx hctx hheld h hroom hother
  · exact execTdepGo_readies hact hcopy hrival hx hctx hheld h
  · exact execWorknext_shares hact hcopy hrival h ht hdest hn hn' hsame
  · intro s2 vs h hn hn' hq hq' hcopy hbusy hfork hdepth hviews hopen
    exact execForkw_forks hact h hn hn' hq hq' hcopy hbusy hfork hdepth hviews hopen
  · exact execWend_ends hact h hrival
  · exact execWend_again hact h hrival
  · rintro w i k rfl h hw hi v u hroom r s3 s4 hleft hperf
    have hc := chooseRival_resolves (o := o) hleft hroom hperf
    rcases hi with ⟨rfl, rfl, hk⟩ | ⟨rfl, rfl⟩
    · exact execChoose_resolves hact hw h hk hc
    · exact execChooseMin_resolves hact hw h hc
  · exact execWabort_aborts hact h hw
  · exact execWquery_reads hact h hw hk hk'
end

section
/-! SUPPORT. `qpop`, the Brush instructions and the ring instructions (R297, R401, R408-R420), one lemma for each way they end. -/
namespace Sys2Proof.Machine
open Sys2Proof State

/-! ### qpop (R401) -/

/-- The value that the lane at position `p` receives of the entries `xs`: its 32 bits of each. -/
def poppedWord (xs : List (List (BitVec 32))) (p : Nat) : Nat :=
  (xs.map fun x => (List.getD x p (0 : BitVec 32)).toNat).foldr (fun a b => a + 2 ^ 32 * b) 0

section
variable {o : AOp} {s s2 : State} {q : BitVec 3} {xs : List (List (BitVec 32))} (h : Issues (.qpop o) s s) (hq : o.a = .q q)
include h hq

theorem execQpop_drop (hvar : o.variant = 1) (hpop : popMany q.toNat o.m.toNat s = .ok (s2, xs)) :
    execQpop o s = .next (goesOn (.qpop o) s2) :=
  issue_ok h (by simp only [hq, hvar, if_true, hpop, ok_bind]; rfl)

variable (hvar : o.variant ≠ 1) (hpop : popMany q.toNat (if o.ty = .n64 then 2 else 1) s = .ok (s2, xs))
include hvar hpop

theorem execQpop_t {i : BitVec 3} (hd : o.d = .t i) : execQpop o s = .next (goesOn (.qpop o)
    ((s2.active o.gd).foldl (fun s p => s.write o.d o.ty (poppedWord xs p) p) s2)) := by
  refine issue_ok h ?_
  simp only [hq, hvar, if_false, beq_iff_eq, hpop, ok_bind]
  rw [hd]
  rfl

theorem execQpop_late (hd : ∀ i, o.d ≠ .t i) : execQpop o s = .next (goesOn (.qpop o) (s2.produce
    { writes := (s2.active o.gd).flatMap fun p => s2.lateWrite o.d o.ty (poppedWord xs p) p, regs := dstRegs o.d o.ty.width, pred := none,
      fault := none, ckpt := none })) := by
  refine issue_ok h ?_
  simp only [hq, hvar, if_false, beq_iff_eq, hpop, ok_bind]
  cases hdst : o.d with
  | t i => exact absurd hdst (hd i)
  | v i => rfl
  | g i => rfl

end

/-! ### Brush instructions (R408, R411-R414) -/

theorem brushRoom_ok {s : State} (h : s.cc.brush.length < 16) : brushRoom s = .ok () := if_neg (Nat.not_le.mpr h)
theorem scratchRange_ok {off n : Nat} {s : State} (h : off + n ≤ s.cc.scratchSz) : scratchRange off n s = .ok () :=
  require_of (decide_eq_true h) _ _ _

/-- The leader's coordinates are read where their registers are in range. -/
theorem coordRange_of_leaderCoords {o : XOp} {n : Nat} {s : State} {cs : List (BitVec 32)} (h : leaderCoords o n s = .ok cs) :
    coordRange o n s = .ok () := by
  unfold leaderCoords at h
  cases hr : coordRange o n s with
  | ok _ => rfl
  | error y => rw [hr] at h; cases h

/-- The record that `ldesc` sets: its base the one of the coordinate field where that names a g register. -/
def ldescRecord (o : XOp) (r : List (BitVec 8)) (s : State) : List (BitVec 8) :=
  match o.coord with | .g i _ => leBytes 8 (s.gval i).toNat ++ r.drop 8 | _ => r

section
variable {o : XOp} {s s1 : State} (hact : s1.active o.gd ≠ [])
include hact

theorem execLdesc_sets {s2 : State} {r : List (BitVec 8)} {d : BitVec 7} (h : Issues (.ldesc o) s s1) (hd : o.dest = .g d)
    (hread : readLayout ((s1.gval o.record).toNat % 2 ^ 57) s1 = .ok (s2, r))
    (hbase : ∀ i m, o.coord = .g i m → (s1.gval i).toNat < 2 ^ 57) :
    execLdesc o s = .next (goesOn (.ldesc o)
      ((s2.modCc fun c => { c with descs := Map.ins o.imm.toNat (ldescRecord o r s1) c.descs }).produce
        { writes := [.g d.toNat (BitVec.ofNat 64 (2 ^ 63 + o.imm.toNat))], regs := dstRegs o.dest 64, pred := none, fault := none,
          ckpt := none })) := by
  refine issue_ok h ?_
  unfold ldescRecord
  cases hc : o.coord with
  | g i m =>
    simp only [require_of (decide_eq_true (hbase i m hc)), List.isEmpty_iff, hact, if_false, hread, ok_bind, hd]
    rfl
  | _ =>
    simp only [require_of, List.isEmpty_iff, hact, if_false, hread, ok_bind, hd]
    rfl

variable (hplain : refuses s1 = false) (hreport : reportCheck o s1 = .ok ()) (hroom : s1.cc.brush.length < 16)

section
variable {major at' : Nat} {r : List (BitVec 8)} {cs : List (BitVec 32)} (hrange : o.imm.toNat + (layoutOf r).bytes ≤ s1.cc.scratchSz)
  (hcs : leaderCoords o (layoutOf r).dims s1 = .ok cs) (hnib : (layoutOf r).ty.width = 4 → (coordInts cs).getD 0 0 % 2 = 0)
  (hext : major = 0xC9 → refuses s1 = true → storesExternal (layoutOf r) (coordInts cs) s1 = none)

/-- The command that `bcopy` and `bstore` queue. -/
def boxCmd (major : Nat) (o : XOp) (r : List (BitVec 8)) (cs : List (BitVec 32)) (s : State) : Brush :=
  { brushCmd major o s with layout := r, coords := cs }

omit hact in
include hroom hrange hcs hnib hext in
theorem boxIssue_queues : boxIssue major o at' r s1 = .ok
    (clearDest (boxCmd major o r cs s1) (queueBrush (crossed (boxCmd major o r cs s1) s1) (crossStores (boxCmd major o r cs s1) s1))) := by
  have hreq : ((layoutOf r).ty.width ≠ 4 || (coordInts cs).getD 0 0 % 2 = 0) = true := by
    by_cases hw : (layoutOf r).ty.width = 4
    · rw [decide_eq_true (hnib hw), Bool.or_true]
    · rw [decide_eq_true hw, Bool.true_or]
  have hnone : (if major = 0xC9 && refuses s1 then storesExternal (layoutOf r) (coordInts cs) s1 else none) = none := by
    split
    · next hb =>
      obtain ⟨hm, hr⟩ := Bool.and_eq_true_iff.mp hb
      exact hext (of_decide_eq_true hm) hr
    · rfl
  simp only [boxIssue, hcs, scratchRange_ok hrange, require_of hreq, hnone, brushRoom_ok hroom, ok_bind]
  rfl

include hreport in
theorem boxCommand_slot (hform : handleForm (s1.gval o.record) s1 = .ok (.slot r)) (hr : coordRange o (layoutOf r).dims s1 = .ok ())
    (hs : scratchRange o.imm.toNat (layoutOf r).bytes s1 = .ok ()) :
    boxCommand major o s1 = boxIssue major o ((s1.gval o.record).toNat % 8) r s1 := by
  simp only [boxCommand, hform, hr, hreport, hs, List.isEmpty_iff, hact, if_false, ok_bind]

include hreport in
theorem boxCommand_mem {va : Nat} {s2 : State} (hform : handleForm (s1.gval o.record) s1 = .ok (.mem va))
    (hread : readLayout va s1 = .ok (s2, r)) : boxCommand major o s1 = boxIssue major o va r s2 := by
  simp only [boxCommand, hform, hreport, hread, List.isEmpty_iff, hact, if_false, ok_bind]

end

include hplain hreport hroom

theorem execBmcast_queues (h : Issues (.bmcast o) s s1) :
    let k := s1.gval o.record
    k.toNat < 2 ^ 56 → chainDst k % 16 = 0 → s1.cc.stage + o.count.toNat ≤ s1.cc.nstage - 1 → o.imm.toNat + chainLen k ≤ s1.cc.scratchSz →
    execBmcast o s = .next (goesOn (.bmcast o) (clearHops k o.count.toNat (queueBrush { brushCmd 0xCA o s1 with
      chain := k, hops := o.count.toNat, rec64 := Map.bytes s1.cc.scratch o.imm.toNat (chainLen k) } s1))) := by
  intro k hk halign hstages hrange
  have hreq : ((s1.gval o.record).toNat < 2 ^ 56 && chainDst (s1.gval o.record) % 16 = 0) = true := by
    simp only [Bool.and_eq_true, decide_eq_true_eq]
    exact ⟨hk, halign⟩
  refine issue_ok h ?_
  dsimp only [k] at hrange ⊢
  simp only [hreport, require_of hreq, require_of (decide_eq_true hstages), scratchRange_ok hrange, List.isEmpty_iff, hact, hplain,
    Bool.false_eq_true, if_false, brushRoom_ok hroom, ok_bind]
  rfl

omit hroom in
theorem execBred_queues {s2 : State} {r : List (BitVec 8)} (h : Issues (.bred o) s s1) :
    let a := (s1.gval o.record).toNat % 2 ^ 57
    readRecord (s1.whoOf s1.cur.cell) 64 a 64 s1 = .ok (s2, r) → collOk r s2 = true → s2.cc.brush.length < 16 →
    let c := collOf r
    let w := collWidth o.sub.toNat
    let k := Map.getD s2.cc.bredRounds c.tag.toNat 0
    c.src + w * c.n ≤ s2.cc.scratchSz → c.dst + w * c.n ≤ s2.cc.scratchSz →
    (∀ x, roundOf c.tag k s2 = some x → roundAgrees x o.sub.toNat c.n c.mask = true) →
    let b : Brush := { brushCmd 0xCB o s2 with off := c.dst, chain := c.tag, hops := c.p, hop := c.n, layout := c.mask, round := k,
                                               rec64 := packVals w (collVals o.sub.toNat c s2), addr := BitVec.ofNat 64 a }
    let s3 := (landIn s2.cur.cell c.dst (w * c.n) none (queueBrush b s2)).modCc fun x => { x with bredRounds := Map.ins c.tag.toNat (k + 1) x.bredRounds }
    execBred o s = .next (goesOn (.bred o) (s3.modCg fun g => { g with holds := g.holds ++ [.bredAccept s3.cur.cell b.id] })) := by
  intro a hread hok hroom c w k hsrc hdst hround b s3
  refine issue_ok h ?_
  dsimp only [a] at hread
  dsimp only [c, w, k] at hsrc hdst hround
  cases hr : roundOf (collOf r).tag (Map.getD s2.cc.bredRounds (collOf r).tag.toNat 0) s2 with
  | none =>
    simp only [hreport, List.isEmpty_iff, hact, hplain, Bool.false_eq_true, if_false, hread, require_of hok, scratchRange_ok hsrc,
      scratchRange_ok hdst, hr, require_of, brushRoom_ok hroom, ok_bind]
    rfl
  | some x =>
    simp only [hreport, List.isEmpty_iff, hact, hplain, Bool.false_eq_true, if_false, hread, require_of hok, scratchRange_ok hsrc,
      scratchRange_ok hdst, hr, require_of (hround x hr), brushRoom_ok hroom, ok_bind]
    rfl

end

/-! ### Ring instructions (R418-R420) -/

section
variable {o : MOp} {s s1 : State} (hact : s1.active o.gd ≠ [])
include hact

theorem execRingdecl_declares {i : BitVec 7} (h : Issues (.ringdecl o) s s1) (hd : o.data = .g i) :
    let r : Ring := ⟨s1.gval i, s1.gval (i + 1)⟩
    r.ok s1.cc.scratchSz = true → Map.find (o.off.toNat % 8) s1.cc.rings = none →
    execRingdecl o s = .next (goesOn (.ringdecl o) (s1.modCc fun c =>
      (({ c with rings := Map.ins (o.off.toNat % 8) r c.rings } : Cell).setCounter s1.fresh r.headAt 0).setCounter s1.fresh r.tailAt 0)) := by
  intro r hok hfree
  have hnone : (Map.find (ringK o) s1.cc.rings).isNone = true := Option.isNone_iff_eq_none.mpr hfree
  refine issue_ok h ?_
  dsimp only [r] at hok ⊢
  simp only [hd, require_of hok, List.isEmpty_iff, hact, if_false, require_of hnone, ok_bind]
  rfl

theorem execRingdeclClr_removes (h : Issues (.ringdeclClr o) s s1) :
    execRingdeclClr o s = .next (goesOn (.ringdeclClr o) (s1.modCc fun c => { c with rings := Map.del (o.off.toNat % 8) c.rings })) := by
  refine (issueOk_ready h).trans ?_
  rw [if_neg (by rw [List.isEmpty_iff]; exact hact)]
  rfl

omit hact in
theorem sendFull_eq_false {n : Nat} {s : State} (hmsgs : s.cg.msgs.length < 4) (hland : (s.studio s.ck).landing + n ≤ 131072) :
    sendFull n s = false := by
  rw [sendFull, decide_eq_false (Nat.not_le.mpr hmsgs), decide_eq_false (Nat.not_lt.mpr hland), Bool.or_self]

/-- The message that `rsend` sends, and the state it is sent in: after a release at the cell, its record in the write stream (log 88). -/
def rsendState (recv : Nat) (bs : List (BitVec 8)) (s : State) : State :=
  let s2 := releaseActs s.cur (s.whoOf s.cur.cell) 2 none s
  signWrite s2.cur recv bs s2

theorem execRsend_sends (h : Issues (.rsend o) s s1) :
    let g := s1.gdst o.data
    let recv := s1.src 0 o.index 64 (s1.uniPos o.gd)
    let bs := Map.bytes s1.cc.scratch (msgOff g) (msgLen g)
    let s3 := rsendState recv bs s1
    g.toNat < 2 ^ 40 → 1 ≤ msgLen g → msgLen g ≤ 4096 → msgOff g + msgLen g ≤ s1.cc.scratchSz → recv < taskCells s1 → recv < 2 ^ 32 →
    inCopy s3 s3.cur.cell = false → inRival s3 s3.cur.cell = false → s3.cg.msgs.length < 4 →
    (s3.studio s3.ck).landing + msgLen g ≤ 131072 →
    execRsend o s = .next (goesOn (.rsend o) (sendMessage s3.cur (ringK o) recv bs s3.cg.handler s3)) := by
  intro g recv bs s3 hg hlen hlen' hrange hcells hrecv hcopy hrival hmsgs hland
  have hreq : ((s1.gdst o.data).toNat < 2 ^ 40 && 1 ≤ msgLen (s1.gdst o.data) && msgLen (s1.gdst o.data) ≤ 4096) = true := by
    simp only [Bool.and_eq_true, decide_eq_true_eq]
    exact ⟨⟨hg, hlen⟩, hlen'⟩
  have hto : (s1.src 0 o.index 64 (s1.uniPos o.gd) < taskCells s1 && s1.src 0 o.index 64 (s1.uniPos o.gd) < 2 ^ 32) = true := by
    simp only [Bool.and_eq_true, decide_eq_true_eq]
    exact ⟨hcells, hrecv⟩
  have hroom := sendFull_eq_false hmsgs hland
  refine issue_ok h ?_
  dsimp only [s3, rsendState, bs, recv, g] at hcopy hrival hroom hrange ⊢
  simp only [require_of hreq, require_of (decide_eq_true hrange), require_of hto, List.isEmpty_iff, hact, if_false, hcopy, hrival, hroom,
    Bool.false_eq_true, ok_bind]
  rfl

theorem execRhead_advances {r : Ring} (h : Issues (.rhead o) s s1) (hring : Map.find (o.off.toNat % 8) s1.cc.rings = some r) :
    let head := counterAt s1.cc r.headAt
    let n := (s1.gdst o.data).toNat
    n ≤ (counterAt s1.cc r.tailAt + 2 ^ 32 - head) % 2 ^ 32 →
    let s2 := releaseActs s1.cur (s1.whoOf s1.cur.cell) 2 none s1
    execRhead o s = .next (goesOn (.rhead o) (s2.modCc fun c => c.setCounter s2.fresh r.headAt ((head + n) % 2 ^ 32))) := by
  intro head n hn s2
  refine issue_ok h ?_
  dsimp only [head, n] at hn ⊢
  simp only [List.isEmpty_iff, hact, if_false, ringK, hring, require_of (decide_eq_true hn), ok_bind]
  rfl

end

end Sys2Proof.Machine

open Sys2Proof.Machine Sys2Proof.Machine.State

/-- Settles O38, instruction by instruction. -/
theorem transferInstructionsComplete : Obligations.TransferInstructionsComplete := by
  unfold Obligations.TransferInstructionsComplete
  refine ⟨fun o s q s2 xs h hq => ⟨?_, fun hvar hpop => ⟨fun i hd => ?_, fun hd => ?_⟩⟩, fun o s s1 hact => ⟨?_, ?_⟩, fun o s s1 hact => ?_⟩
  · exact execQpop_drop h hq
  · exact execQpop_t h hq hvar hpop hd
  · exact execQpop_late h hq hvar hpop hd
  · exact fun s2 r d h hd hread hbase => execLdesc_sets hact h hd hread hbase
  · refine fun hplain hreport hroom => ⟨?_, fun h => execBmcast_queues hact hplain hreport hroom h,
      fun s2 r h => execBred_queues hact hplain hreport h⟩
    intro major i r s2 cs hi h hform hrange2 hrange hcs hnib hext b
    have heffect : boxCommand major o s1 = .ok (clearDest b (queueBrush (crossed b s2) (crossStores b s2))) := by
      rcases hform with ⟨hslot, rfl⟩ | ⟨va, hmem, hread, hroom2⟩
      · rw [boxCommand_slot hact hreport hslot (coordRange_of_leaderCoords hcs) (scratchRange_ok hrange)]
        exact boxIssue_queues hroom hrange hcs hnib hext
      · rw [boxCommand_mem hact hreport hmem hread]
        exact boxIssue_queues hroom2 hrange2 hcs hnib hext
    rcases hi with hi | hi <;> obtain ⟨rfl, rfl⟩ := Prod.mk.inj hi
    · exact issue_ok h heffect
    · exact issue_ok h heffect
  · exact ⟨fun i h hd => execRingdecl_declares hact h hd, execRingdeclClr_removes hact, fun h _ _ => execRsend_sends hact h,
      fun r h hring => execRhead_advances hact h hring⟩
end

section
/-! SUPPORT. Every step keeps memory canonical: the results of the model's functions whose states keep it, and how they compose. -/
namespace Sys2Proof.Machine
open Sys2Proof State

/-- Every value a result carries satisfies `P`; a fault carries none. -/
inductive OkAll {ε α : Type} (P : α → Prop) : Except ε α → Prop
  | ok {a : α} (h : P a) : OkAll P (.ok a)
  | error {y : ε} : OkAll P (.error y)
/-- Every value an optional result carries satisfies `P`. -/
inductive SomeAll {α : Type} (P : α → Prop) : Option α → Prop
  | some {a : α} (h : P a) : SomeAll P (.some a)
  | none : SomeAll P .none
/-- The outcome is a next state, which keeps memory canonical. -/
inductive NextOk : Host.Outcome State Fault Refusal → Prop
  | next {t : State} (h : t.MemOk) : NextOk (.next t)
/-- The state in a result keeps memory canonical. -/
abbrev FstOk {β : Type} (x : State × β) : Prop := x.1.MemOk
/-- The state in a pair's second place keeps memory canonical. -/
abbrev SndOk {β : Type} (x : β × State) : Prop := x.2.MemOk

section
variable {ε α β : Type} {P : α → Prop} {Q : β → Prop} {c : Prop} [Decidable c]

theorem OkAll.of_eq {x : Except ε α} {a : α} (hx : x = .ok a) (h : OkAll P x) : P a := by
  subst hx
  cases h with
  | ok h => exact h
theorem OkAll.intro {x : Except ε α} (h : ∀ a, x = .ok a → P a) : OkAll P x := by
  cases x with
  | error _ => exact .error
  | ok a => exact .ok (h a rfl)
theorem OkAll.bind {x : Except ε α} {f : α → Except ε β} (h : OkAll P x) (hf : ∀ a, P a → OkAll Q (f a)) : OkAll Q (x >>= f) := by
  cases h with
  | error => exact .error
  | ok h => exact hf _ h
theorem OkAll.bind_any {x : Except ε α} {f : α → Except ε β} (hf : ∀ a, OkAll Q (f a)) : OkAll Q (x >>= f) := by
  cases x with
  | error _ => exact .error
  | ok a => exact hf a
theorem okAll_ite {x y : Except ε α} (hx : OkAll P x) (hy : OkAll P y) : OkAll P (if c then x else y) := by
  split
  · exact hx
  · exact hy
/-- A check made only under a condition, before the rest. -/
theorem okAll_guard {x : Except ε PUnit} {f : PUnit → Except ε α} (hf : ∀ u, OkAll P (f u)) : OkAll P (if c then x >>= f else f ⟨⟩) :=
  okAll_ite (.bind_any hf) (hf ⟨⟩)
theorem OkAll.map {x : Except ε α} {f : α → β} (h : OkAll P x) (hf : ∀ a, P a → Q (f a)) : OkAll Q (x.map f) := by
  cases h with
  | error => exact .error
  | ok h => exact .ok (hf _ h)
theorem okAll_foldlM {f : β → α → Except ε β} (hf : ∀ b a, Q b → OkAll Q (f b a)) : ∀ (l : List α) {b : β}, Q b → OkAll Q (l.foldlM f b)
  | [], _, h => .ok h
  | a :: l, b, h => OkAll.bind (hf b a h) fun _ hb => okAll_foldlM hf l hb

theorem SomeAll.of_eq {x : Option α} {a : α} (hx : x = .some a) (h : SomeAll P x) : P a := by
  subst hx
  cases h with
  | some h => exact h
theorem SomeAll.intro {x : Option α} (h : ∀ a, x = .some a → P a) : SomeAll P x := by
  cases x with
  | none => exact .none
  | some a => exact .some (h a rfl)
theorem SomeAll.bind {x : Option α} {f : α → Option β} (h : SomeAll P x) (hf : ∀ a, P a → SomeAll Q (f a)) : SomeAll Q (x >>= f) := by
  cases h with
  | none => exact .none
  | some h => exact hf _ h
theorem SomeAll.bind_any {x : Option α} {f : α → Option β} (hf : ∀ a, SomeAll Q (f a)) : SomeAll Q (x >>= f) := by
  cases x with
  | none => exact .none
  | some a => exact hf a
theorem SomeAll.map {x : Option α} {f : α → β} (h : SomeAll P x) (hf : ∀ a, P a → Q (f a)) : SomeAll Q (x.map f) := by
  cases h with
  | none => exact .none
  | some h => exact .some (hf _ h)
theorem someAll_ite {x y : Option α} (hx : SomeAll P x) (hy : SomeAll P y) : SomeAll P (if c then x else y) := by
  split
  · exact hx
  · exact hy
theorem someAll_foldlM {f : β → α → Option β} (hf : ∀ b a, Q b → SomeAll Q (f b a)) : ∀ (l : List α) {b : β}, Q b → SomeAll Q (l.foldlM f b)
  | [], _, h => .some h
  | a :: l, b, h => SomeAll.bind (hf b a h) fun _ hb => someAll_foldlM hf l hb

theorem nextOk_ite {x y : Host.Outcome State Fault Refusal} (hx : NextOk x) (hy : NextOk y) : NextOk (if c then x else y) := by
  split
  · exact hx
  · exact hy
theorem memOk_ite {s t : State} (hs : s.MemOk) (ht : t.MemOk) : (if c then s else t).MemOk := by
  split
  · exact hs
  · exact ht
theorem fstOk_ite {x y : State × α} (hx : FstOk x) (hy : FstOk y) : FstOk (if c then x else y) := by
  split
  · exact hx
  · exact hy

theorem FstOk.of_eq {x : State × α} {s : State} {a : α} (hx : x = (s, a)) (h : FstOk x) : s.MemOk := by
  subst hx
  exact h
theorem fstOk_mk {s : State} {a : α} (h : s.MemOk) : FstOk (s, a) := h
/-- A state that goes on as it was, or changed. -/
theorem memOk_when {s t : State} (hs : s.MemOk) (ht : s.MemOk → t.MemOk) : (if c then t else s).MemOk := memOk_ite (ht hs) hs
theorem memOk_unless {s t : State} (hs : s.MemOk) (ht : s.MemOk → t.MemOk) : (if c then s else t).MemOk := memOk_ite hs (ht hs)
theorem memOk_getD {x : Option State} {s : State} (hx : SomeAll MemOk x) (hs : s.MemOk) : (x.getD s).MemOk := by
  cases hx with
  | none => exact hs
  | some h => exact h
theorem memOk_elim {x : Option State} {f : State → State} {s : State} (hx : SomeAll MemOk x) (hs : s.MemOk) (hf : ∀ t, t.MemOk → (f t).MemOk) :
    (x.elim s f).MemOk := by
  cases hx with
  | none => exact hs
  | some h => exact hf _ h
end

end Sys2Proof.Machine
end

section
/-! SUPPORT. The accesses that charge, touch or check keep memory canonical where they succeed. -/
namespace Sys2Proof.Machine
open Sys2Proof State

section
variable {s : State} (h : s.MemOk)
include h

theorem keeps_chargePages {a n : Nat} : SomeAll MemOk (s.chargePages a n) := .intro fun _ => memOk_chargePages h
theorem keeps_takeFrames {n : Nat} : SomeAll SndOk (s.takeFrames n) := .intro fun ⟨_, _⟩ => memOk_takeFrames h
theorem keeps_chargeTouch {c va : Nat} {leaf : BitVec 64} : SomeAll MemOk (s.chargeTouch c va leaf) := .intro fun _ => memOk_chargeTouch h
theorem keeps_checkOne {w : Who} {a : Acc} {va : Nat} : OkAll FstOk (s.checkOne w a va) := .intro fun _ => memOk_checkOne h
theorem keeps_takeMany {n : Nat} : SomeAll FstOk (takeMany n s) := .intro fun _ => memOk_takeMany h
theorem memOk_id : (id s).MemOk := h
end

theorem memOk_refuse {α : Type} {P : α → Prop} {s : State} {addr lane : Nat} : OkAll P (refuse s addr lane : Except Raise α) := by
  unfold refuse
  exact okAll_ite .error .error

end Sys2Proof.Machine
end

section
/-! SUPPORT. Memory stays canonical: changes of cells, groups, studios, contexts and tasks. -/
namespace Sys2Proof.Machine
open Sys2Proof State

section
variable {s : State} (h : s.MemOk)
include h

theorem memOk_setCell {c v} : (s.setCell c v).MemOk := by
  unfold setCell
  exact h
theorem memOk_modCell {c f} : (s.modCell c f).MemOk := memOk_setCell h
theorem memOk_setGroup {r v} : (s.setGroup r v).MemOk := memOk_modCell h
theorem memOk_modGroup {r f} : (s.modGroup r f).MemOk := memOk_setGroup h
theorem memOk_modStudio {k f} : (s.modStudio k f).MemOk := by
  unfold modStudio
  exact h
theorem memOk_modCtx {c f} : (s.modCtx c f).MemOk := by
  unfold modCtx
  exact h
theorem memOk_modArena {a f} : (s.modArena a f).MemOk := by
  unfold modArena
  exact h
theorem memOk_modView {v f} : (s.modView v f).MemOk := by
  unfold modView
  exact h
theorem memOk_modModule {f} : (s.modModule f).MemOk := by
  unfold modModule
  exact h
theorem memOk_modCc {f} : (s.modCc f).MemOk := memOk_modCell h
theorem memOk_modRun {f} : (s.modRun f).MemOk := memOk_modCg _ h
theorem memOk_report {c r} : (s.report c r).MemOk := memOk_modCtx h
theorem memOk_supReport {r} : (s.supReport r).MemOk := memOk_modModule h
theorem memOk_notify {n} : (s.notify n).MemOk := memOk_modModule h
theorem memOk_bump {n k} : (s.bump n k).MemOk := memOk_modModule h
theorem memOk_modTask {t f} : (s.modTask t f).MemOk := by
  unfold modTask
  exact h
theorem memOk_requestRollback {t code} : (s.requestRollback t code).MemOk := memOk_modTask h
end
end Sys2Proof.Machine
end

section
/-! SUPPORT. Memory stays canonical: marks of gessos and undo records. -/
namespace Sys2Proof.Machine
open Sys2Proof State

section
variable {s : State} (h : s.MemOk)
include h

theorem memOk_modGesso {d f} : (s.modGesso d f).MemOk := by
  unfold modGesso
  exact h
theorem memOk_dropUndo {f} : (s.dropUndo f).MemOk := by
  unfold dropUndo
  exact h
end
end Sys2Proof.Machine
end

section
/-! SUPPORT. Memory stays canonical: register writes. -/
namespace Sys2Proof.Machine
open Sys2Proof State

section
variable {s : State} (h : s.MemOk)
include h

theorem memOk_write {d t u p} : (s.write d t u p).MemOk := by
  unfold write
  dsimp only
  split
  · split
    · exact h
    · exact memOk_ite (memOk_modCc h) (memOk_modCc h)
  · exact memOk_modCg _ h
  · exact memOk_modRun h
theorem memOk_writeG {d x} : (s.writeG d x).MemOk := by
  unfold writeG
  split
  · exact memOk_modCg _ h
  · exact h
theorem memOk_apply {g d t f} : (s.apply g d t f).MemOk := by
  unfold apply
  split
  · exact memOk_ite h (memOk_write h)
  · exact foldl_keeps (P := MemOk) (fun _ _ h1 => memOk_write h1) _ h
end
end Sys2Proof.Machine
end

section
/-! SUPPORT. Memory stays canonical: predicates and results that arrive later. -/
namespace Sys2Proof.Machine
open Sys2Proof State

section
variable {s : State} (h : s.MemOk)
include h

theorem memOk_setPredAt {p r b} : (s.setPredAt p r b).MemOk := by
  unfold setPredAt
  split
  · exact memOk_modCc h
  · exact h
theorem memOk_applyPred {g r f} : (s.applyPred g r f).MemOk := foldl_keeps (P := MemOk) (fun _ _ h1 => memOk_setPredAt h1) _ h
theorem memOk_produce {p} : (s.produce p).MemOk := memOk_modRun (memOk_modCg _ h)
theorem memOk_settleRegion {c i} : (s.settleRegion c i).MemOk := by
  unfold settleRegion
  split
  · exact memOk_modCtx h
  · exact h
theorem memOk_complete {r p} : (s.complete r p).MemOk := by
  unfold complete
  refine memOk_modGroup ?_
  refine foldl_keeps (P := MemOk) (fun _ _ h1 => ?_) _ (memOk_modStudio (memOk_settleRegion h))
  split
  · exact memOk_modCell h1
  · exact memOk_modGroup h1
  · exact memOk_modCell h1
theorem memOk_produceG {gd d x pf failed region} : (s.produceG gd d x pf failed region).MemOk := memOk_produce h
end
end Sys2Proof.Machine
end

section
/-! SUPPORT. Memory stays canonical: fetch, faults, traps and the issue of an instruction. -/
namespace Sys2Proof.Machine
open Sys2Proof State

section
variable {s : State} (h : s.MemOk)
include h

theorem memOk_addIcache {k ln l} : (s.addIcache k ln l).MemOk := by
  unfold addIcache
  refine memOk_modStudio ?_
  refine memOk_ite h ?_
  split
  · exact memOk_modStudio (memOk_tick h)
  · exact h
theorem memOk_refetch {k t pa} : (s.refetch k t pa).1.MemOk :=
  fstOk_ite (memOk_bypass _ _ (memOk_mergeLine _ h)) (memOk_addIcache (memOk_fillL2 _ _ (memOk_mergeLine _ h)))
theorem memOk_cachedLine {k t pa} : (s.cachedLine k t pa).1.MemOk := by
  unfold cachedLine
  split
  · exact h
  · exact memOk_refetch h
theorem memOk_checkedLine {k t slot pa} : OkAll FstOk (s.checkedLine k t slot pa) :=
  okAll_ite (.ok (memOk_cachedLine h)) (okAll_ite (.ok (memOk_refetch h)) .error)
/-- The line that a fetch reads, with the X check on or off. -/
theorem memOk_fetchLine {w : Who} {acc : Acc} {slot va : Nat} {pa : Xlat → Nat} : OkAll FstOk (do
    match ← s.checkOne w acc va with
    | (_, none) => fault fPageAbsent va
    | (s, some x) => s.checkedLine w.k (tagOf w x 0) slot (pa x) : Except Raise (State × Nat)) := by
  refine OkAll.bind (keeps_checkOne h) fun x hx => ?_
  split
  · exact .error
  · exact memOk_checkedLine hx
theorem memOk_fetchSlot {w pc} : OkAll FstOk (s.fetchSlot w pc) := by
  unfold fetchSlot
  dsimp only
  split
  · refine okAll_ite ?_ .error
    split
    · exact .error
    · exact .error
  · exact memOk_fetchLine h
theorem memOk_decodeStage : OkAll FstOk (s.decodeStage) := by
  unfold decodeStage
  refine okAll_guard (fun _ => ?_)
  refine OkAll.bind (memOk_fetchSlot h) (fun ⟨_, _⟩ h1 => ?_)
  refine OkAll.bind_any (fun _ => ?_)
  split
  · exact .error
  · exact .error
  · exact OkAll.bind_any (fun _ => .ok (memOk_unless (memOk_modRun h1) (fun h2 => memOk_perf _ _ _ _ h2)))
theorem memOk_dropRun : (s.dropRun).MemOk := memOk_modCg _ h
theorem memOk_deliver {e pc x late} : SomeAll MemOk (s.deliver e pc x late) := by
  unfold deliver
  refine someAll_ite (.some (memOk_failTask _ _ _ _ (memOk_dropRun h))) ?_
  refine someAll_ite (.some (memOk_failTask _ _ _ _ (memOk_dropRun h))) ?_
  split
  · exact someAll_ite .none (.some (memOk_failTask _ _ _ _ (memOk_dropRun h)))
  next s1 _ hs1 =>
    have h1 : s1.MemOk := OkAll.of_eq (P := FstOk) hs1 (memOk_fetchSlot h)
    refine someAll_ite (.some (memOk_failTask _ _ _ _ (memOk_dropRun h))) ?_
    dsimp only
    split
    · exact someAll_ite .none (.some (memOk_failTask _ _ _ _ (memOk_dropRun h)))
    · exact .some (memOk_failTask _ _ _ _ (memOk_dropRun h))
    next s2 _ hs2 =>
      have h2 : s2.MemOk := OkAll.of_eq (P := FstOk) hs2 (keeps_checkOne h1)
      exact .some (memOk_modCg _ (memOk_dropRun (memOk_writeAt _ _ _ _ _ h2)))
theorem memOk_disableQueue {c q} : (s.disableQueue c q).MemOk := memOk_modCtx h
theorem memOk_clearFor {x1} : (s.clearFor x1).MemOk := by
  unfold clearFor
  split
  · exact h
  · exact memOk_modStudio h
  · exact memOk_modCg _ h
  · exact memOk_modCc h
  · exact memOk_modCc h
  · exact memOk_disableQueue h
theorem memOk_endCopy {c} : (s.endCopy c).MemOk := by
  unfold endCopy
  dsimp only
  split
  · exact memOk_modCell (memOk_modCell h)
  · exact memOk_modCell h
theorem memOk_raise {x} : (s.raise x).MemOk := by
  unfold raise
  refine memOk_ite (memOk_modRun h) ?_
  refine memOk_ite (memOk_endCopy h) ?_
  refine memOk_ite (memOk_requestRollback (memOk_dropRun (memOk_clearFor h))) ?_
  refine memOk_ite (memOk_failTask _ _ _ _ (memOk_dropRun (memOk_clearFor h))) ?_
  dsimp only
  split
  next s1 hs1 =>
    have h1 : s1.MemOk := SomeAll.of_eq (P := MemOk) hs1 (memOk_deliver (memOk_clearFor h))
    exact h1
  · exact memOk_modRun h
theorem memOk_deliverLate {e f} : SomeAll MemOk (s.deliverLate e f) := memOk_deliver (memOk_modCg _ h)
theorem memOk_endRun {cont prio st} : (s.endRun cont prio st).MemOk := memOk_modCg _ h
theorem memOk_nestedFault {code} : (s.nestedFault code).MemOk := memOk_ite (memOk_requestRollback h) (memOk_failTask _ _ _ _ h)
theorem memOk_leaveHandler : (s.leaveHandler).MemOk := by
  unfold leaveHandler
  refine memOk_ite (memOk_failTask _ _ _ _ h) ?_
  refine memOk_ite (memOk_modCg _ h) ?_
  dsimp only
  split
  · exact memOk_ite h (memOk_nestedFault h)
  · exact memOk_nestedFault h
  next s1 _ hs1 =>
    have h1 : s1.MemOk := OkAll.of_eq (P := FstOk) hs1 (keeps_checkOne h)
    refine memOk_ite (memOk_nestedFault h) ?_
    refine memOk_ite (memOk_modCg _ h) ?_
    split
    · exact memOk_ite h (memOk_nestedFault h)
    · exact memOk_modCg _ (memOk_readAt _ _ _ _ _ h1)
theorem memOk_handlerMeeting : (s.handlerMeeting).MemOk := memOk_ite (memOk_leaveHandler h) h
theorem memOk_pop {q} : OkAll FstOk (s.pop q) := by
  unfold pop
  refine okAll_ite .error ?_
  split
  · exact .ok (memOk_modCg _ h)
  · refine okAll_ite ?_ .error
    split
    · exact .error
    · exact .error
theorem memOk_popAll {l} : OkAll MemOk (s.popAll l) := by
  induction l generalizing s with
  | nil => exact .ok h
  | cons x r ih =>
    unfold popAll
    exact OkAll.bind (memOk_pop h) (fun ⟨_, _⟩ h1 => ih (memOk_modRun h1))
theorem memOk_holdDest {i x} : (s.holdDest i x).MemOk := by
  unfold holdDest
  split
  · exact memOk_modRun (memOk_modCg _ h)
  · exact memOk_modRun (memOk_modCg _ h)
  · exact memOk_modRun (memOk_modCg _ h)
  · exact h
theorem nextOk_issueWith {i body} (hb : ∀ s, s.MemOk → OkAll FstOk (body s)) : NextOk (State.issueWith i s body) := by
  unfold State.issueWith
  split
  · exact .next (memOk_holdDest (memOk_raise h))
  next s1 _ hs1 =>
    have h1 : s1.MemOk := OkAll.of_eq (P := FstOk) hs1 (OkAll.bind_any
      (fun _ => OkAll.bind (memOk_popAll h) (fun _ h1 => hb _ h1)))
    exact .next (memOk_advance _ _ h1)
theorem nextOk_issue {i body} (hb : ∀ s, s.MemOk → OkAll MemOk (body s)) : NextOk (State.issue i s body) :=
  nextOk_issueWith h fun s hs => OkAll.bind (hb s hs) fun _ h1 => .ok h1
theorem nextOk_issueOk {i body} (hb : ∀ s, s.MemOk → (body s).MemOk) : NextOk (State.issueOk i s body) :=
  nextOk_issue h fun s hs => .ok (hb s hs)
end
end Sys2Proof.Machine
end

section
/-! SUPPORT. Memory stays canonical: the module's registers. -/
namespace Sys2Proof.Machine
open Sys2Proof State

section
variable {s : State} (h : s.MemOk)
include h

theorem memOk_modEngine {e f} : (s.modEngine e f).MemOk := memOk_modModule h
theorem memOk_kick {bit} : (s.kick bit).MemOk := memOk_modModule h
theorem memOk_writeFeat {v} : (s.writeFeat v).MemOk := memOk_ite h (memOk_modModule h)
theorem memOk_writePower {x} : (s.writePower x).MemOk := memOk_modModule h
theorem memOk_writeTail {e v} : (s.writeTail e v).MemOk := memOk_ite (memOk_modEngine h) h
theorem memOk_regStore {off v} : (s.regStore off v).MemOk := by
  unfold regStore
  refine memOk_ite (foldl_keeps (P := MemOk) (fun _ _ h1 => memOk_ite (memOk_kick h1) h1) _ h) ?_
  refine memOk_ite (memOk_writeFeat h) ?_
  refine memOk_ite (memOk_modModule h) ?_
  refine memOk_ite (memOk_writePower h) ?_
  refine memOk_ite (memOk_modModule h) ?_
  refine memOk_ite ?_ h
  dsimp only
  split
  · exact memOk_modEngine h
  · exact memOk_modEngine h
  · exact memOk_writeTail h
  · exact h
theorem memOk_regCtxStore {off v} : (s.regCtxStore off v).MemOk := memOk_ite (memOk_writeTail h) h
theorem memOk_regWriteBytes {off bs} : (s.regWriteBytes off bs).MemOk :=
  foldl_keeps (P := MemOk) (fun _ _ h1 => memOk_regCtxStore h1) _ h
theorem memOk_readPa {k t atHome pa n} : (s.readPa k t atHome pa n).1.MemOk := fstOk_ite h (memOk_readAt _ _ _ _ _ h)
theorem memOk_writePa {k t atHome pa bs} : (s.writePa k t atHome pa bs).MemOk :=
  memOk_ite (memOk_regWriteBytes h) (memOk_writeAt _ _ _ _ _ h)
end
end Sys2Proof.Machine
end

section
/-! SUPPORT. Memory stays canonical: checked accesses, loads, stores, atomics and fences. -/
namespace Sys2Proof.Machine
open Sys2Proof State

section
variable {s : State} (h : s.MemOk)
include h

theorem memOk_checkPieces {w a l} : OkAll FstOk (checkPieces s w a l) := by
  induction l generalizing s with
  | nil => exact .ok h
  | cons x r ih =>
    unfold checkPieces
    exact OkAll.bind (keeps_checkOne h) (fun ⟨_, _⟩ h1 => OkAll.bind (ih h1) (fun ⟨_, _⟩ h2 => .ok h2))
theorem memOk_checkLanes {w a l} : OkAll FstOk (checkLanes w a l s) := by
  induction l generalizing s with
  | nil => exact .ok h
  | cons x r ih =>
    unfold checkLanes
    split
    · exact .error
    next s1 _ hs1 =>
      have h1 : s1.MemOk := OkAll.of_eq (P := FstOk) hs1 (memOk_checkPieces h)
      exact OkAll.bind (ih h1) (fun ⟨_, _⟩ h2 => .ok h2)
theorem memOk_scopeRank {w sc pa} : (scopeRank w sc pa s).1.MemOk := by
  unfold scopeRank
  split
  · exact memOk_inferScope _ _ h
  · exact h
  · exact h
theorem memOk_noteRcv {r t pa} : (noteRcv r t pa s).MemOk := memOk_unless (memOk_ite h (memOk_modGroup h))
  (fun h1 => memOk_modGroup h1)
theorem memOk_rcvRelease {r k} : (rcvRelease r k s).MemOk := by
  unfold rcvRelease
  exact memOk_modGroup (foldl_keeps (P := MemOk) (fun s1 _ h1 => memOk_addJournal _ _ h1) _
    (foldl_keeps (P := MemOk) (fun s1 _ h1 => memOk_wbL2 _ (memOk_wbL1 _ _ h1)) _ h))
theorem memOk_sysRelease {r only} : (sysRelease r only s).MemOk := by
  unfold sysRelease
  dsimp only
  split
  · exact memOk_lateFault _ _ (memOk_modGroup (foldl_keeps (P := MemOk) (fun s1 _ h1 => memOk_wbL2 _ h1) _ h))
  · exact memOk_modGroup (foldl_keeps (P := MemOk) (fun s1 _ h1 => memOk_wbL2 _ h1) _ h)
theorem memOk_releaseActs {r w rank only} : (releaseActs r w rank only s).MemOk := by
  unfold releaseActs
  exact memOk_when (memOk_when (memOk_when (memOk_mergeGroup _ _ h) (fun h3 => memOk_releaseL1 _ _ h3))
    (fun h2 => memOk_sysRelease h2)) (fun h1 => memOk_rcvRelease h1)
theorem memOk_acquireCaches {w rank only} : (acquireCaches w rank only s).MemOk :=
  memOk_when (memOk_ite (memOk_acquireL1 _ _ h) h) (fun h1 => memOk_acquireSys _ h1)
theorem memOk_acquireActs {w rank only} : (acquireActs w rank only s).MemOk := memOk_acquireCaches
  (memOk_ite (memOk_settleLanded h) h)
theorem memOk_enterScope {w sc ls} : (enterScope w sc ls s).MemOk :=
  memOk_ite (foldl_keeps (P := MemOk) (fun _ _ h1 => memOk_inferScope _ _ h1) _ h) h
theorem memOk_releaseFor {w sc ls} : (releaseFor w sc ls s).MemOk := by
  unfold releaseFor
  refine foldl_keeps (P := MemOk) (fun _ _ h1 => ?_) _ h
  dsimp only
  exact memOk_releaseActs (memOk_scopeRank h1)
theorem memOk_acquireFor {w sc ls} : (acquireFor w sc ls s).MemOk := by
  unfold acquireFor
  refine foldl_keeps (P := MemOk) (fun _ _ h1 => ?_) _ h
  dsimp only
  exact memOk_acquireActs (memOk_scopeRank h1)
theorem memOk_queuePage {v addr lane} : OkAll MemOk (queuePage s v addr lane) := by
  unfold queuePage
  refine okAll_ite (.ok h) ?_
  split
  · exact .error
  next s1 hs1 =>
    have h1 : s1.MemOk := SomeAll.of_eq (P := MemOk) hs1 (keeps_chargePages h)
    split
    · exact .error
    next s2 hs2 =>
      have h2 : s2.MemOk := SomeAll.of_eq (P := SndOk) hs2 (keeps_takeFrames h1)
      exact .ok (memOk_modView h2)
theorem memOk_addEscapeAt {addr v e} : OkAll MemOk (addEscapeAt addr s v e) :=
  okAll_guard (fun _ => OkAll.bind (memOk_queuePage h) (fun _ h1 => .ok (memOk_modView h1)))
theorem memOk_addEscape {v e} : OkAll MemOk (addEscape s v e) := memOk_addEscapeAt h
theorem memOk_signWrite {r va bs} : (signWrite r va bs s).MemOk := by
  unfold signWrite
  split
  · exact h
  · exact memOk_modGroup h
theorem memOk_readPieces {k w hint rank again l} : (readPieces k w hint rank again l s).1.MemOk := by
  induction l generalizing s with
  | nil => exact h
  | cons x r ih =>
    unfold readPieces
    dsimp only
    exact ih (memOk_readPa h)
theorem memOk_readLanes {w hint sc d t res l} : (readLanes w hint sc d t res l s).1.MemOk := by
  induction l generalizing s with
  | nil => exact h
  | cons x r ih =>
    unfold readLanes
    refine fstOk_ite ?_ ?_
    · dsimp only
      exact ih (memOk_modStudio h)
    · dsimp only
      exact ih (memOk_readPieces h)
theorem memOk_finishLoad {d t res ws bad} : (finishLoad d t res ws bad s).MemOk := memOk_produce h
theorem memOk_awaitReply {n} : (awaitReply n s).MemOk := memOk_ite h (memOk_modCg _ (memOk_modStudio h))
omit h in
theorem memOk_spreadFlag {o ls r} (hr : FstOk r) : (spreadFlag o ls r).1.MemOk := by
  unfold spreadFlag
  refine fstOk_ite hr ?_
  split
  · exact hr
  · exact memOk_ite (memOk_modStudio hr) hr
theorem memOk_ldEffect {o} : OkAll MemOk (ldEffect o s) := by
  unfold ldEffect
  refine OkAll.bind_any (fun _ => ?_)
  refine OkAll.bind (memOk_checkLanes h) (fun ⟨_, _⟩ h1 => ?_)
  dsimp only
  split
  · exact memOk_refuse
  · exact OkAll.bind_any (fun _ => .ok (memOk_when (memOk_awaitReply
      (memOk_finishLoad (memOk_spreadFlag (memOk_readLanes (memOk_enterScope h1))))) (fun h2 => memOk_acquireFor h2)))
theorem nextOk_execLd {o} : NextOk (execLd o s) := nextOk_issue h (fun _ h1 => memOk_ldEffect h1)
theorem memOk_addRo {k ln l} : (addRo k ln l s).MemOk := by
  unfold addRo
  refine memOk_modStudio ?_
  refine memOk_ite h ?_
  split
  · exact memOk_modStudio (memOk_tick h)
  · exact h
theorem memOk_fillRo {k t ln} : (fillRo k t ln s).1.MemOk :=
  fstOk_ite (memOk_bypass _ _ (memOk_mergeLine _ h)) (memOk_addRo (memOk_fillL2 _ _ (memOk_mergeLine _ h)))
theorem memOk_roLine {k t pa} : (roLine k t pa s).1.MemOk := by
  unfold roLine
  split
  · exact fstOk_ite (memOk_fillRo h) h
  · exact memOk_fillRo h
theorem memOk_ldcLine {w hint l} : (ldcLine w hint l s).1.MemOk := by
  unfold ldcLine
  dsimp only
  split
  · exact memOk_tick h
  · exact memOk_roLine (memOk_when (memOk_tick h) (fun h1 => memOk_modStudio h1))
theorem memOk_ldcLanes {w hint d t res n l} : (ldcLanes w hint d t res n l s).1.MemOk := by
  induction l generalizing s with
  | nil => exact h
  | cons x r ih =>
    unfold ldcLanes
    refine fstOk_ite ?_ ?_
    · dsimp only
      exact ih (memOk_modStudio h)
    · dsimp only
      exact ih (memOk_ldcLine h)
theorem memOk_ldcEffect {o} : OkAll MemOk (ldcEffect o s) := by
  unfold ldcEffect
  refine OkAll.bind (memOk_checkLanes h) (fun ⟨_, _⟩ h1 => ?_)
  dsimp only
  split
  · exact memOk_refuse
  · exact OkAll.bind_any (fun _ => .ok (memOk_awaitReply (memOk_finishLoad (memOk_spreadFlag (memOk_ldcLanes h1)))))
theorem nextOk_execLdc {o} : NextOk (execLdc o s) := nextOk_issue h (fun _ h1 => memOk_ldcEffect h1)
theorem memOk_countPasses {n offs} : (countPasses n offs s).MemOk := memOk_perf _ _ _ _ h
theorem memOk_ldsEffect {o} : OkAll MemOk (ldsEffect o s) := OkAll.bind_any
  (fun _ => .ok (memOk_finishLoad (memOk_countPasses h)))
theorem nextOk_execLds {o} : NextOk (execLds o s) := nextOk_issue h (fun _ h1 => memOk_ldsEffect h1)
theorem memOk_ldlEffect {o} : OkAll MemOk (ldlEffect o s) := OkAll.bind_any (fun _ => .ok (memOk_finishLoad h))
theorem nextOk_execLdl {o} : NextOk (execLdl o s) := nextOk_issue h (fun _ h1 => memOk_ldlEffect h1)
theorem memOk_writePieces {w hint rank again l bs} : (writePieces w hint rank again l bs s).MemOk := by
  induction l generalizing s bs with
  | nil => exact h
  | cons x r ih =>
    unfold writePieces
    exact ih (memOk_noteRcv (memOk_writePa h))
theorem memOk_storeLane {w o l v} : OkAll MemOk (storeLane w o l v s) := by
  unfold storeLane
  dsimp only
  split
  · exact memOk_addEscape (memOk_signWrite h)
  · exact .ok (memOk_signWrite h)
  · exact .ok (memOk_writePieces (memOk_signWrite h))
  · exact .ok (foldl_keeps (P := MemOk) (fun _ _ h1 => memOk_writePieces h1) _ (memOk_signWrite h))
theorem memOk_stEffect {o} : OkAll MemOk (stEffect o s) :=
  OkAll.bind_any (fun _ => OkAll.bind_any (fun _ => OkAll.bind (memOk_checkLanes h)
    (fun ⟨_, _⟩ h1 => OkAll.bind_any (fun _ => okAll_foldlM (fun _ ⟨_, _⟩ h2 => memOk_storeLane h2) _
    (memOk_when (memOk_enterScope h1) (fun h3 => memOk_releaseFor h3))))))
theorem nextOk_execSt {o} : NextOk (execSt o s) := nextOk_issue h (fun _ h1 => memOk_stEffect h1)
theorem memOk_stsEffect {o} : OkAll MemOk (stsEffect o s) :=
  OkAll.bind_any (fun _ => .ok (memOk_modCc (memOk_when (memOk_countPasses h) (fun h1 => memOk_mergeGroup _ _ h1))))
theorem nextOk_execSts {o} : NextOk (execSts o s) := nextOk_issue h (fun _ h1 => memOk_stsEffect h1)
theorem memOk_stlEffect {o} : OkAll MemOk (stlEffect o s) := OkAll.bind_any (fun _ => .ok (memOk_modCc h))
theorem nextOk_execStl {o} : NextOk (execStl o s) := nextOk_issue h (fun _ h1 => memOk_stlEffect h1)
theorem memOk_atomLane {w o again x va v new} : (atomLane w o again x va v new s).1.MemOk := by
  unfold atomLane
  dsimp only
  exact fstOk_ite (memOk_rmwAt _ _ _ _ _ h) (memOk_noteRcv (memOk_rmwAt _ _ _ _ _ h))
theorem memOk_atomLanes {w o l} : (atomLanes w o l s).1.MemOk := by
  induction l generalizing s with
  | nil => exact h
  | cons x r ih =>
    unfold atomLanes
    dsimp only
    refine ih ?_
    refine memOk_signWrite ?_
    split
    · exact memOk_readPa h
    · exact foldl_keeps (P := MemOk) (fun _ _ h1 => memOk_atomLane h1) _ (memOk_atomLane h)
theorem memOk_atomEffect {o} : OkAll MemOk (atomEffect o s) := by
  unfold atomEffect
  refine OkAll.bind (memOk_checkLanes h) (fun ⟨_, _⟩ h1 => ?_)
  dsimp only
  split
  · exact memOk_refuse
  · exact OkAll.bind_any (fun _ => .ok (memOk_when (memOk_awaitReply
      (memOk_finishLoad (memOk_atomLanes (memOk_when (memOk_enterScope h1) (fun h3 => memOk_releaseFor h3)))))
      (fun h2 => memOk_acquireFor h2)))
theorem nextOk_execAtom {o} : NextOk (execAtom o s) := nextOk_issue h (fun _ h1 => memOk_atomEffect h1)
theorem memOk_bufferRed {k op a} : (bufferRed k op a s).MemOk := by
  unfold bufferRed
  refine memOk_ite (memOk_modStudio h) ?_
  refine memOk_modStudio ?_
  split
  · exact memOk_ite (memOk_mergeReds _ _ h) h
  · exact h
theorem memOk_reduceAt {r w o x va v} : (reduceAt r w o x va v s).MemOk := by
  unfold reduceAt
  refine memOk_ite (memOk_bufferRed (memOk_tick (memOk_fireIn _ _ (memOk_dropL1 _ _ (memOk_wbL1 _ _ (memOk_noteRcv h)))))) ?_
  dsimp only
  exact memOk_when (memOk_rmwAt _ _ _ _ _ (memOk_noteRcv h)) (fun h1 => memOk_lateFault _ _ h1)
theorem memOk_redLane {w o l v} : OkAll MemOk (redLane w o l v s) := by
  unfold redLane
  dsimp only
  split
  · exact memOk_addEscape (memOk_signWrite h)
  · exact .ok (memOk_signWrite h)
  · exact .ok (foldl_keeps (P := MemOk) (fun _ _ h1 => memOk_reduceAt h1) _ (memOk_signWrite h))
theorem memOk_redEffect {o} : OkAll MemOk (redEffect o s) :=
  OkAll.bind (memOk_checkLanes h) (fun ⟨_, _⟩ h1 => okAll_foldlM (fun _ ⟨_, _⟩ h2 => memOk_redLane h2) _
    (memOk_when (memOk_enterScope h1) (fun h3 => memOk_releaseFor h3)))
theorem nextOk_execRed {o} : NextOk (execRed o s) := nextOk_issue h (fun _ h1 => memOk_redEffect h1)
theorem memOk_fenceEffect {o} : OkAll MemOk (fenceEffect o s) := by
  unfold fenceEffect
  refine okAll_ite (.ok h) ?_
  refine OkAll.bind_any (fun _ => ?_)
  refine OkAll.bind_any (fun _ => ?_)
  dsimp only
  exact .ok (memOk_when (memOk_when (memOk_scopeRank h) (fun h2 => memOk_releaseActs h2)) (fun h1 => memOk_acquireActs h1))
theorem nextOk_execFence {o} : NextOk (execFence o s) := nextOk_issue h (fun _ h1 => memOk_fenceEffect h1)
end
end Sys2Proof.Machine
end

section
/-! SUPPORT. Memory stays canonical: records and ranges of addresses. -/
namespace Sys2Proof.Machine
open Sys2Proof State

section
variable {s : State} (h : s.MemOk)
include h

theorem memOk_readVa {w io step va len} : OkAll FstOk (readVa w io step va len s) := by
  unfold readVa
  refine okAll_foldlM (fun ⟨_, _⟩ ⟨_, _⟩ h1 => ?_) _ h
  refine OkAll.bind (keeps_checkOne h1) (fun ⟨_, _⟩ h2 => ?_)
  split
  · exact .error
  next s3 _ hs1 =>
    have h3 : s3.MemOk := FstOk.of_eq hs1 h2
    dsimp only
    exact okAll_guard (fun _ => .ok (memOk_readPa h3))
theorem memOk_readRecord {w al va len} : OkAll FstOk (readRecord w al va len s) := okAll_guard (fun _ => memOk_readVa h)
theorem memOk_readRange {w va len} : OkAll FstOk (readRange w va len s) :=
  okAll_foldlM (fun ⟨_, _⟩ ⟨_, _⟩ h1 => OkAll.bind (memOk_readVa h1) (fun ⟨_, _⟩ h2 => .ok h2)) _ h
theorem memOk_putAt {r w home va bs x} : (putAt r w home va bs s x).MemOk := memOk_noteRcv (memOk_writePa h)
theorem memOk_deferBytes {w va bs} : OkAll MemOk (deferBytes w va bs s) := okAll_foldlM
  (fun _ ⟨_, _⟩ h1 => memOk_addEscape h1) _ h
theorem memOk_writeVa {w step va bs} : OkAll MemOk (writeVa w step va bs s) := by
  unfold writeVa
  refine okAll_foldlM (fun _ ⟨_, _⟩ h1 => ?_) _ h
  refine OkAll.bind (keeps_checkOne h1) (fun ⟨_, _⟩ h2 => ?_)
  split
  · exact .error
  next s3 _ hs1 =>
    have h3 : s3.MemOk := FstOk.of_eq hs1 h2
    dsimp only
    split
    · exact .ok (foldl_keeps (P := MemOk) (fun _ _ h4 => memOk_putAt h4) _ h3)
    · exact .ok h3
    · exact memOk_deferBytes h3
end
end Sys2Proof.Machine
end

section
/-! SUPPORT. Memory stays canonical: cache control, monitors and view bindings. -/
namespace Sys2Proof.Machine
open Sys2Proof State

section
variable {s : State} (h : s.MemOk)
include h

theorem memOk_pfLane {w hint va} : (pfLane w hint s va).MemOk := by
  unfold pfLane
  dsimp only
  split
  next s1 _ hs1 =>
    have h1 : s1.MemOk := OkAll.of_eq (P := FstOk) hs1 (keeps_checkOne (memOk_translate _ _ _ _ h))
    exact memOk_readAt _ _ _ _ _ h1
  · exact memOk_translate _ _ _ _ h
theorem nextOk_execPf {o} : NextOk (execPf o s) :=
  nextOk_issueOk h (fun _ h1 => foldl_keeps (P := MemOk) (fun _ _ h2 => memOk_pfLane h2) _ h1)
theorem memOk_absentLeaf {w va} : OkAll FstOk (absentLeaf w va s) := by
  unfold absentLeaf
  split
  · exact .error
  next s1 _ hs1 =>
    have h1 : s1.MemOk := FstOk.of_eq hs1 (memOk_translate _ _ _ _ h)
    split
    · exact okAll_ite (.ok h1) .error
    · exact .ok h1
theorem memOk_requestLane {w o p} : OkAll MemOk (requestLane w o s p) := by
  unfold requestLane
  split
  · exact .error
  next s1 hs1 =>
    have h1 : s1.MemOk := OkAll.of_eq (P := FstOk) hs1 (memOk_absentLeaf h)
    exact .ok h1
  next s1 _ hs1 =>
    have h1 : s1.MemOk := OkAll.of_eq (P := FstOk) hs1 (memOk_absentLeaf h)
    exact .ok (memOk_modModule h1)
theorem nextOk_execRqpage {o} : NextOk (execRqpage o s) :=
  nextOk_issue h (fun _ h1 => okAll_foldlM (fun _ _ h2 => memOk_requestLane h2) _ h1)
theorem memOk_eachLine {o f} (hf : ∀ s x, s.MemOk → (f s x).MemOk) : OkAll MemOk (eachLine o f s) := by
  unfold eachLine
  exact OkAll.bind (memOk_checkLanes h) (fun ⟨_, _⟩ h1 => .ok (foldl_keeps (P := MemOk) (fun _ _ h2 => hf _ _ h2) _ h1))
theorem nextOk_execCwbL2 {o} : NextOk (execCwbL2 o s) :=
  nextOk_issue h (fun _ h1 => memOk_eachLine h1 (fun _ _ h2 => memOk_wbL1 _ _ h2))
theorem nextOk_execCwbMem {o} : NextOk (execCwbMem o s) :=
  nextOk_issue h (fun _ h1 => memOk_eachLine h1 (fun _ _ h2 => memOk_wbL2 _ (memOk_wbL1 _ _ h2)))
theorem nextOk_execCinv {o} : NextOk (execCinv o s) :=
  nextOk_issue h (fun _ h1 => memOk_eachLine h1 (fun _ _ h2 => memOk_dropL1 _ _ (memOk_wbL1 _ _ h2)))
theorem memOk_pinLane {w l} : (pinLane w l s).1.MemOk := fstOk_ite h (memOk_fillL2 _ _ (memOk_readAt _ _ _ _ _ h))
theorem memOk_pinLanes {w pn l} : (pinLanes w pn l s).1.MemOk := by
  induction l generalizing s with
  | nil => exact h
  | cons x r ih =>
    unfold pinLanes
    dsimp only
    exact ih (memOk_pinLane h)
theorem nextOk_execCpin {o} : NextOk (execCpin o s) :=
  nextOk_issue h (fun _ h1 => OkAll.bind_any (fun _ => OkAll.bind (memOk_checkLanes h1)
    (fun ⟨_, _⟩ h2 => .ok (memOk_unless (memOk_pinLanes h2) (fun h3 => memOk_produce h3)))))
theorem nextOk_execCunpin {o} : NextOk (execCunpin o s) := by
  unfold execCunpin
  refine nextOk_issue h (fun _ h1 => ?_)
  refine OkAll.bind_any (fun _ => ?_)
  refine memOk_eachLine h1 (fun _ _ h2 => ?_)
  exact h2
theorem nextOk_execIcinv {o} : NextOk (execIcinv o s) :=
  nextOk_issue h (fun _ h1 => OkAll.bind (memOk_checkLanes h1) (fun ⟨_, _⟩ h2 => .ok (memOk_modStudio h2)))
theorem nextOk_execFetchbar {o} : NextOk (execFetchbar o s) := nextOk_issueOk h (fun _ h1 => memOk_id h1)
theorem nextOk_execMonarm {o} : NextOk (execMonarm o s) := by
  unfold execMonarm
  refine nextOk_issue h (fun _ h1 => ?_)
  refine OkAll.bind (memOk_checkLanes h1) (fun ⟨_, _⟩ h2 => ?_)
  refine .ok ?_
  split
  · exact memOk_modCg _ h2
  · exact h2
theorem nextOk_execMonwait {o} : NextOk (execMonwait o s) :=
  nextOk_issueWith h (fun _ h1 => okAll_ite (.ok h1) (okAll_ite (.ok h1) (.ok (memOk_modCg _ h1))))
theorem memOk_bindRange {c pa va base len} : OkAll MemOk (bindRange c pa va base len s) := by
  unfold bindRange
  dsimp only
  split
  · refine okAll_guard (fun _ => ?_)
    refine .ok ?_
    exact h
  · refine okAll_guard (fun _ => ?_)
    refine .ok ?_
    exact h
theorem nextOk_execSvbind {o} : NextOk (execSvbind o s) := by
  unfold execSvbind
  refine nextOk_issue h (fun _ h1 => ?_)
  refine OkAll.bind_any (fun _ => ?_)
  refine OkAll.bind_any (fun _ => ?_)
  refine OkAll.bind_any (fun _ => ?_)
  refine OkAll.bind (memOk_checkLanes h1) (fun ⟨_, _⟩ h2 => ?_)
  dsimp only
  split
  · exact .ok h2
  · exact memOk_bindRange h2
theorem nextOk_execSvunbind {o} : NextOk (execSvunbind o s) := by
  unfold execSvunbind
  refine nextOk_issue h (fun _ h1 => ?_)
  refine OkAll.bind_any (fun _ => ?_)
  refine OkAll.bind (memOk_checkLanes h1) (fun ⟨_, _⟩ h2 => ?_)
  refine .ok ?_
  split
  · exact h2
  · exact h2
end
end Sys2Proof.Machine
end

section
/-! SUPPORT. Memory stays canonical: page tables. -/
namespace Sys2Proof.Machine
open Sys2Proof State

section
variable {s : State} (h : s.MemOk)
include h

theorem memOk_startShoot {c base len frames} : (startShoot c base len frames s).1.MemOk := memOk_tick h
theorem memOk_splinter {leaf shift at'} : OkAll MemOk (splinter leaf shift at' s) := by
  unfold splinter
  split
  next s1 hs1 =>
    have h1 : s1.MemOk := SomeAll.of_eq (P := SndOk) hs1 (keeps_takeFrames h)
    exact .ok (memOk_setLeafAt _ _ (foldl_keeps (P := MemOk) (fun _ _ h2 => memOk_setLeafAt _ _ h2) _ (memOk_zeroFrame _ h1)))
  · exact .error
theorem memOk_installLeaf {leaf table l} : SomeAll MemOk (installLeaf leaf table l s) := by
  fun_induction installLeaf leaf table l s with
  | case1 => exact .none
  | case2 => exact .some (memOk_setLeafAt _ _ h)
  | case3 => exact .none
  | case4 table ix r s _ e _ _ ih => exact ih h
  | case5 => exact .none
  | case6 table ix r s _ e _ f _ hs ih => exact ih (memOk_setLeafAt _ _ (memOk_zeroFrame _ (memOk_takeFrames h hs)))
theorem memOk_mapPages {root a fuel va n} : SomeAll MemOk (mapPages root a fuel va n s) := by
  induction fuel generalizing va n s with
  | zero => exact .some h
  | succ fuel ih =>
    unfold mapPages
    dsimp only
    refine someAll_ite (.some h) ?_
    split
    · exact .none
    next _ s1 hs1 =>
      have h1 : s1.MemOk := memOk_takeFrames h hs1
      split
      · exact .none
      next _ hs2 => exact ih (SomeAll.of_eq hs2 (memOk_installLeaf h1))
theorem memOk_listPages {c a gen charged va n} : (listPages c a gen charged va n s).MemOk := by
  unfold listPages
  exact h
theorem memOk_newArena {a x} : (newArena a x s).MemOk := memOk_unless (memOk_modArena h) (fun h1 => memOk_modArena h1)
theorem memOk_childArena {p x} : OkAll FstOk (childArena p x s) := by
  unfold childArena
  dsimp only
  split
  · exact okAll_guard (fun _ => .ok (memOk_newArena (memOk_addCharge _ _ h)))
  · exact .error
theorem memOk_dropOne {a} : (dropOne a s).MemOk := memOk_modArena h
theorem memOk_unlink {a p} : (unlink a p s).MemOk := by
  unfold unlink
  refine memOk_ite h ?_
  refine memOk_ite (memOk_modArena h) ?_
  split
  · exact memOk_modArena h
  · exact h
theorem memOk_listUntouched {as c} : (listUntouched as c s).MemOk := by
  unfold listUntouched
  refine foldl_keeps (P := MemOk) (fun _ _ h1 => ?_) _ h
  refine memOk_ite h1 ?_
  exact h1
theorem memOk_dropTree {d frames} : (dropTree d frames s).1.MemOk :=
  foldl_keeps (P := MemOk) (fun _ _ h1 => memOk_dropOne h1) _ (memOk_unlink (memOk_listUntouched h))
end
end Sys2Proof.Machine
end

section
/-! SUPPORT. Memory stays canonical: arenas and regions. -/
namespace Sys2Proof.Machine
open Sys2Proof State

section
variable {s : State} (h : s.MemOk)
include h

omit h in
theorem memOk_answer {o code r region} (h : s.MemOk) (hr : OkAll FstOk r) : OkAll MemOk (answer o code s r region) := by
  unfold answer
  cases hr with
  | ok hx => exact .ok (memOk_produceG hx)
  | error => exact okAll_ite (.ok (memOk_produceG h)) .error
theorem nextOk_execArnew {o} : NextOk (execArnew o s) :=
  nextOk_issue h (fun _ h1 => OkAll.bind_any (fun _ => OkAll.bind_any
    (fun _ => OkAll.bind_any (fun _ => okAll_ite (.ok h1) (memOk_answer h1
    (OkAll.bind (memOk_childArena h1) (fun ⟨_, _⟩ h2 => .ok h2)))))))
theorem memOk_allocPages {a n lazy} : OkAll FstOk (allocPages a n lazy s) := by
  unfold allocPages
  dsimp only
  split
  · split
    next s1 hs1 =>
      have h1 : s1.MemOk := SomeAll.of_eq (P := MemOk) hs1 (someAll_ite (.some h) (keeps_chargePages h))
      split
      next s2 hs2 =>
        have h2 : s2.MemOk := SomeAll.of_eq (P := MemOk) hs2 (memOk_mapPages h1)
        exact .ok (memOk_listPages h2)
      · exact .error
    · exact .error
  · exact .error
theorem nextOk_execAralloc {o} : NextOk (execAralloc o s) :=
  nextOk_issue h (fun _ h1 => OkAll.bind_any (fun _ => OkAll.bind_any
    (fun _ => OkAll.bind_any (fun _ => okAll_ite (.ok h1) (OkAll.bind_any (fun _ => memOk_answer h1 (memOk_allocPages h1)))))))
omit h in
theorem memOk_unmapPage {c lo hi va n x} (hx : FstOk x) : OkAll FstOk (unmapPage c lo hi va n x) := by
  induction n generalizing x with
  | zero => exact .ok hx
  | succ n ih =>
    obtain ⟨s, fs⟩ := x
    unfold unmapPage
    split
    · exact .ok hx
    · refine okAll_ite (.ok (memOk_setLeafAt _ _ hx)) ?_
      split
      · exact .error
      next s1 hs1 =>
        have h1 : s1.MemOk := OkAll.of_eq (P := MemOk) hs1 (memOk_splinter hx)
        exact ih h1
theorem memOk_freePages {a va n} : OkAll MemOk (freePages a va n s) := by
  unfold freePages
  refine OkAll.bind (okAll_foldlM (fun ⟨s1, _⟩ _ h1 => memOk_unmapPage h1) _ h) (fun ⟨s1, _⟩ h1 => ?_)
  refine .ok ?_
  refine memOk_modCg _ ?_
  refine memOk_startShoot ?_
  refine memOk_subCharge _ _ ?_
  exact h1
theorem nextOk_execArfree {o} : NextOk (execArfree o s) := by
  unfold execArfree
  refine nextOk_issue h (fun _ h1 => ?_)
  refine OkAll.bind_any (fun _ => ?_)
  refine okAll_guard (fun _ => ?_)
  refine OkAll.bind_any (fun _ => ?_)
  refine OkAll.bind_any (fun _ => ?_)
  refine okAll_ite (.ok h1) ?_
  split
  · exact .error
  · exact OkAll.bind_any (fun _ => memOk_freePages h1)
theorem nextOk_execArseal {o} : NextOk (execArseal o s) := by
  unfold execArseal
  refine nextOk_issue h (fun _ h1 => ?_)
  refine OkAll.bind_any (fun _ => ?_)
  refine OkAll.bind_any (fun _ => ?_)
  refine okAll_ite (.ok h1) ?_
  refine OkAll.bind_any (fun _ => ?_)
  refine okAll_ite (.ok h1) ?_
  refine .ok ?_
  refine memOk_modCg _ ?_
  exact h1
theorem nextOk_execArdrop {o} : NextOk (execArdrop o s) := by
  unfold execArdrop
  refine nextOk_issue h (fun _ h1 => ?_)
  refine OkAll.bind_any (fun _ => ?_)
  refine OkAll.bind_any (fun _ => ?_)
  refine okAll_ite (.ok h1) ?_
  refine OkAll.bind_any (fun _ => ?_)
  dsimp only
  exact .ok (memOk_modCg _ (foldl_keeps (P := MemOk) (fun _ ⟨_, _⟩ h2 => memOk_learnDrop _ _ h2) _ (memOk_dropTree h1)))
theorem nextOk_execArquery {o} : NextOk (execArquery o s) :=
  nextOk_issue h (fun _ h1 => OkAll.bind_any (fun _ => okAll_ite (.ok h1) (.ok (memOk_produceG h1))))
theorem memOk_setRegion {mode base len} : OkAll FstOk (setRegion mode base len s) := by
  unfold setRegion
  refine okAll_guard (fun _ => ?_)
  dsimp only
  split
  · exact .ok (memOk_modCtx (memOk_tick h))
  · exact .error
theorem nextOk_execRgset {o} : NextOk (execRgset o s) :=
  nextOk_issue h (fun _ h1 => OkAll.bind_any (fun _ => OkAll.bind_any
    (fun _ => OkAll.bind_any (fun _ => okAll_ite (.ok h1) (memOk_answer h1 (memOk_setRegion h1))))))
theorem nextOk_execRgclr {o} : NextOk (execRgclr o s) := by
  unfold execRgclr
  refine nextOk_issue h (fun _ h1 => ?_)
  refine OkAll.bind_any (fun _ => ?_)
  refine OkAll.bind_any (fun _ => ?_)
  refine okAll_ite (.ok h1) ?_
  split
  · exact .ok h1
  · exact OkAll.bind_any (fun _ => .ok (memOk_modCtx h1))
theorem nextOk_execRgquery {o} : NextOk (execRgquery o s) := nextOk_issueOk h (fun _ h1 => memOk_ite h1 (memOk_produceG h1))
end
end Sys2Proof.Machine
end

section
/-! SUPPORT. Memory stays canonical: layout records. -/
namespace Sys2Proof.Machine
open Sys2Proof State

section
variable {s : State} (h : s.MemOk)
include h

theorem memOk_readLayout {va} : OkAll FstOk (readLayout va s) :=
  OkAll.bind (memOk_readRecord h) (fun ⟨_, _⟩ h1 => OkAll.bind_any (fun _ => .ok h1))
end
end Sys2Proof.Machine
end

section
/-! SUPPORT. Memory stays canonical: barriers, synchronisation words and counters. -/
namespace Sys2Proof.Machine
open Sys2Proof State

section
variable {s : State} (h : s.MemOk)
include h

theorem memOk_setBar {cell n b} : (setBar cell n b s).MemOk := memOk_modCell (memOk_ite (memOk_settleLanded h) h)
theorem memOk_barArrival {cell n} : (barArrival cell n s).MemOk := memOk_setBar h
theorem memOk_barBytes {cell n k} : (barBytes cell n k s).MemOk := memOk_setBar h
theorem nextOk_execBarinit {o} : NextOk (execBarinit o s) :=
  nextOk_issue h (fun _ h1 => OkAll.bind_any (fun _ => okAll_ite (.ok h1) (OkAll.bind_any (fun _ => .ok (memOk_modCc h1)))))
theorem nextOk_execBararr {o} : NextOk (execBararr o s) :=
  nextOk_issue h (fun _ h1 => OkAll.bind_any (fun _ => okAll_ite (.ok h1)
    (okAll_ite (.ok h1) (OkAll.bind_any (fun _ => .ok (memOk_setBar (memOk_modCg _ (memOk_releaseActs h1))))))))
theorem nextOk_execBarwait {o} : NextOk (execBarwait o s) :=
  nextOk_issueWith h (fun _ h1 => OkAll.bind_any (fun _ => okAll_ite (.ok h1)
    (OkAll.bind_any (fun _ => OkAll.bind_any (fun _ => okAll_ite (.ok (memOk_settleLanded h1)) (.ok (memOk_perf _ _ _ _ h1)))))))
theorem nextOk_execBartest {o} : NextOk (execBartest o s) :=
  nextOk_issue h (fun _ h1 => OkAll.bind_any (fun _ => .ok (memOk_applyPred (memOk_ite (memOk_settleLanded h1) h1))))
theorem nextOk_execBarexp {o} : NextOk (execBarexp o s) :=
  nextOk_issue h (fun _ h1 => OkAll.bind_any (fun _ => OkAll.bind_any
    (fun _ => okAll_ite (.ok h1) (OkAll.bind_any (fun _ => .ok (memOk_setBar h1))))))
theorem memOk_swHome {r w va x op n} : OkAll MemOk (swHome r w va x op n s) := by
  unfold swHome
  dsimp only
  refine okAll_ite .error ?_
  split
  · exact .error
  · exact .ok (memOk_noteRcv (memOk_storeHome _ _ _ _ (memOk_readAt _ _ _ _ _ h)))
theorem memOk_swAll {g w va op n x5} : OkAll MemOk (swAll g w va op n x5 s) := by
  unfold swAll
  split
  · exact .ok h
  · refine OkAll.bind (memOk_swHome h) (fun _ h1 => ?_)
    refine .ok ?_
    refine foldl_keeps (P := MemOk) (fun _ _ h2 => ?_) _ h1
    split
    next s3 hs1 =>
      have h3 : s3.MemOk := OkAll.of_eq (P := MemOk) hs1 (memOk_swHome h2)
      exact h3
    · exact h2
theorem memOk_swScratch {cell a op n} : OkAll MemOk (swScratch cell a op n s) := by
  unfold swScratch
  split
  · exact .error
  · exact .ok (memOk_modCell h)
theorem memOk_swModify {op major o} : OkAll MemOk (swModify op major o s) := by
  unfold swModify
  refine OkAll.bind_any (fun _ => ?_)
  refine OkAll.bind_any (fun _ => ?_)
  refine okAll_ite (.ok h) ?_
  refine okAll_ite (memOk_swScratch (memOk_ite (memOk_releaseActs h) h)) ?_
  refine OkAll.bind (memOk_checkLanes h) (fun ⟨_, _⟩ h1 => ?_)
  dsimp only
  split
  · exact .ok h1
  · split
    · exact memOk_addEscape (memOk_signWrite (memOk_when (memOk_enterScope h1) (fun h2 => memOk_releaseFor h2)))
    · exact .ok (memOk_signWrite (memOk_when (memOk_enterScope h1) (fun h3 => memOk_releaseFor h3)))
    · exact memOk_swAll (memOk_signWrite (memOk_when (memOk_enterScope h1) (fun h4 => memOk_releaseFor h4)))
theorem nextOk_execSwinit {o} : NextOk (execSwinit o s) := nextOk_issue h (fun _ h1 => memOk_swModify h1)
theorem nextOk_execSwexp {o} : NextOk (execSwexp o s) := nextOk_issue h (fun _ h1 => memOk_swModify h1)
theorem nextOk_execSwadd {o} : NextOk (execSwadd o s) := nextOk_issue h (fun _ h1 => memOk_swModify h1)
theorem memOk_swRead {o} : OkAll FstOk (swRead o s) := by
  unfold swRead
  refine OkAll.bind_any (fun _ => ?_)
  refine okAll_ite (.ok h) ?_
  refine okAll_ite (.ok h) ?_
  refine OkAll.bind (memOk_checkLanes h) (fun ⟨_, _⟩ h1 => ?_)
  dsimp only
  split
  · exact .ok h1
  · exact okAll_guard (fun _ => .ok (memOk_readAt _ _ _ _ _ (memOk_ite (memOk_enterScope h1) h1)))
theorem memOk_swAcquire {w acq pa} : (swAcquire w acq pa s).MemOk := by
  unfold swAcquire
  dsimp only
  refine memOk_acquireActs ?_
  split
  · exact memOk_scopeRank h
  · exact h
theorem nextOk_execSwwait {o} : NextOk (execSwwait o s) := by
  unfold execSwwait
  refine nextOk_issueWith h (fun s1 h1 => ?_)
  refine OkAll.bind (memOk_swRead h1) (fun ⟨s2, _⟩ h2 => ?_)
  split
  next s3 hs1 => exact .ok (FstOk.of_eq hs1 h2)
  next s3 _ ls hs1 =>
    have h3 : s3.MemOk := FstOk.of_eq hs1 h2
    refine okAll_guard (fun _ => ?_)
    refine okAll_ite (.ok (fstOk_mk ?_)) (.ok (memOk_perf _ _ _ _ h3))
    cases ls with
    | nil => exact memOk_settleLanded h3
    | cons l _ => exact memOk_swAcquire h3
theorem nextOk_execSwpoll {o} : NextOk (execSwpoll o s) := by
  unfold execSwpoll
  refine nextOk_issue h (fun _ h1 => ?_)
  refine OkAll.bind (memOk_swRead h1) (fun ⟨_, _⟩ h2 => ?_)
  split
  next s3 hs1 =>
    have h3 : s3.MemOk := FstOk.of_eq hs1 h2
    exact .ok h3
  next s3 _ _ hs1 =>
    have h3 : s3.MemOk := FstOk.of_eq hs1 h2
    exact .ok (memOk_when (memOk_produce h3) (fun h4 => memOk_acquireFor h4))
theorem nextOk_execCtrsel {o} : NextOk (execCtrsel o s) := nextOk_issueOk h (fun _ h1 => memOk_ite h1 (memOk_modStudio h1))
theorem nextOk_execCtrrd {o} : NextOk (execCtrrd o s) :=
  nextOk_issueOk h (fun _ h1 => memOk_ite h1 (memOk_writeG (memOk_ite (memOk_modStudio h1) h1)))
end
end Sys2Proof.Machine
end

section
/-! SUPPORT. Memory stays canonical: the Brush instructions and qpop. -/
namespace Sys2Proof.Machine
open Sys2Proof State

section
variable {s : State} (h : s.MemOk)
include h

theorem memOk_popMany {q n} : OkAll FstOk (popMany q n s) := by
  induction n generalizing s with
  | zero => exact .ok h
  | succ n ih =>
    unfold popMany
    exact OkAll.bind (memOk_pop h) (fun ⟨_, _⟩ h1 => OkAll.bind (ih h1) (fun ⟨_, _⟩ h2 => .ok h2))
theorem nextOk_execQpop {o} : NextOk (execQpop o s) := by
  unfold execQpop
  refine nextOk_issue h (fun _ h1 => ?_)
  refine OkAll.bind (memOk_popMany h1) (fun ⟨_, _⟩ h2 => ?_)
  refine okAll_ite (.ok h2) ?_
  dsimp only
  split
  · exact .ok (foldl_keeps (P := MemOk) (fun _ _ h3 => memOk_write h3) _ h2)
  · exact .ok (memOk_produce h2)
theorem memOk_queueBrush {b} : (queueBrush b s).MemOk := memOk_modCc (memOk_tick (memOk_releaseActs h))
theorem nextOk_execLdesc {o} : NextOk (execLdesc o s) :=
  nextOk_issue h (fun _ h1 => OkAll.bind_any (fun _ => okAll_ite (.ok h1)
    (OkAll.bind (memOk_readLayout h1) (fun ⟨_, _⟩ h2 => .ok (memOk_produce (memOk_modCc h2))))))
theorem memOk_landIn {n off len land} : (landIn n off len land s).MemOk := by
  unfold landIn
  dsimp only
  split
  · exact h
  · refine memOk_modCell ?_
    exact h
theorem memOk_landOut {r w va len keep old land x} : (landOut r w va len keep old land s x).MemOk := by
  unfold landOut
  dsimp only
  split
  · refine memOk_putAt ?_
    exact h
  · refine memOk_putAt ?_
    exact h
theorem memOk_landBytes {r w va len land} : OkAll MemOk (landBytes r w va len land s) := by
  unfold landBytes
  refine OkAll.bind (P := FstOk) ?_ (fun ⟨s1, _⟩ h1 => .ok h1)
  refine okAll_foldlM (fun ⟨s1, _⟩ ⟨_, _⟩ h1 => ?_) _ h
  refine OkAll.bind (keeps_checkOne h1) (fun ⟨_, _⟩ h2 => ?_)
  split
  · exact .error
  next s3 _ hs1 =>
    have h3 : s3.MemOk := FstOk.of_eq hs1 h2
    exact OkAll.bind_any (fun _ => .ok (foldl_keeps (P := MemOk) (fun _ _ h4 => memOk_landOut h4) _ h3))
theorem memOk_nibbleAt {r w a land x} : OkAll MemOk (nibbleAt r w a land s x) := by
  unfold nibbleAt
  dsimp only
  exact okAll_ite .error (.ok (memOk_landOut (memOk_readPa h)))
theorem memOk_nibbleOut {r w a land} : OkAll MemOk (nibbleOut r w a land s) := by
  unfold nibbleOut
  refine OkAll.bind (keeps_checkOne h) (fun ⟨_, _⟩ h1 => ?_)
  split
  · exact .error
  next s2 _ hs1 =>
    have h2 : s2.MemOk := FstOk.of_eq hs1 h1
    exact OkAll.bind_any (fun _ => okAll_foldlM (fun _ _ h3 => memOk_nibbleAt h3) _ h2)
theorem memOk_unitOut {r w l cs u land} : OkAll FstOk (unitOut r w l cs u land s) := by
  unfold unitOut
  refine okAll_ite ?_ ?_
  · dsimp only
    split
    · exact .ok h
    · exact OkAll.bind (memOk_nibbleOut h) (fun s1 h1 => .ok h1)
    · exact OkAll.bind (memOk_nibbleOut h) (fun s1 h1 => .ok h1)
    · exact OkAll.bind (memOk_nibbleOut h) (fun s1 h1 => OkAll.bind (memOk_nibbleOut h1) (fun _ h2 => .ok h2))
  · split
    · exact .ok h
    · exact OkAll.bind (memOk_landBytes h) (fun s1 h1 => .ok h1)
theorem memOk_freeUnit {w b u} : (freeUnit w b s u).MemOk := by
  unfold freeUnit
  refine memOk_ite (memOk_landIn h) ?_
  split
  next s1 _ hs1 =>
    have h1 : s1.MemOk := OkAll.of_eq (P := FstOk) hs1 (memOk_unitOut h)
    exact h1
  · exact h
theorem memOk_clearDest {b} : (clearDest b s).MemOk := foldl_keeps (P := MemOk) (fun _ _ h1 => memOk_freeUnit h1) _ h
theorem memOk_crossStores {b} : (crossStores b s).MemOk := memOk_ite h (memOk_modCc h)
theorem memOk_boxIssue {major o at' r} : OkAll MemOk (boxIssue major o at' r s) := by
  unfold boxIssue
  refine OkAll.bind_any (fun _ => ?_)
  refine OkAll.bind_any (fun _ => ?_)
  refine OkAll.bind_any (fun _ => ?_)
  split
  · exact memOk_refuse
  · exact OkAll.bind_any (fun _ => .ok (memOk_clearDest (memOk_queueBrush (memOk_crossStores h))))
theorem memOk_boxCommand {major o} : OkAll MemOk (boxCommand major o s) := by
  unfold boxCommand
  refine OkAll.bind_any (fun _ => ?_)
  split
  · exact OkAll.bind_any (fun _ => OkAll.bind_any (fun _ => OkAll.bind_any (fun _ => okAll_ite (.ok h) (memOk_boxIssue h))))
  · exact OkAll.bind_any (fun _ => okAll_ite (.ok h) (OkAll.bind (memOk_readLayout h) (fun ⟨_, _⟩ h1 => memOk_boxIssue h1)))
theorem nextOk_execBcopy {o} : NextOk (execBcopy o s) := nextOk_issue h (fun _ h1 => memOk_boxCommand h1)
theorem nextOk_execBstore {o} : NextOk (execBstore o s) := nextOk_issue h (fun _ h1 => memOk_boxCommand h1)
theorem memOk_clearHops {k x} : (clearHops k x s).MemOk := foldl_keeps (P := MemOk)
  (fun _ _ h1 => memOk_ite (memOk_landIn h1) h1) _ h
theorem nextOk_execBmcast {o} : NextOk (execBmcast o s) :=
  nextOk_issue h (fun _ h1 => OkAll.bind_any (fun _ => OkAll.bind_any
    (fun _ => OkAll.bind_any (fun _ => OkAll.bind_any (fun _ => okAll_ite (.ok h1)
    (okAll_guard (fun _ => OkAll.bind_any (fun _ => .ok (memOk_clearHops (memOk_queueBrush h1))))))))))
theorem nextOk_execBred {o} : NextOk (execBred o s) :=
  nextOk_issue h (fun _ h1 => OkAll.bind_any (fun _ => okAll_ite (.ok h1)
    (okAll_guard (fun _ => OkAll.bind (memOk_readRecord h1)
    (fun ⟨_, _⟩ h2 => OkAll.bind_any (fun _ => OkAll.bind_any
    (fun _ => OkAll.bind_any (fun _ => OkAll.bind_any (fun _ => OkAll.bind_any
    (fun _ => .ok (memOk_modCg _ (memOk_modCc (memOk_landIn (memOk_queueBrush h2))))))))))))))
end
end Sys2Proof.Machine
end

section
/-! SUPPORT. Memory stays canonical: floating point. -/
namespace Sys2Proof.Machine
open Sys2Proof State

section
variable {s : State} (h : s.MemOk)
include h

theorem nextOk_floatOp {i major o f} : NextOk (floatOp i major o s f) := nextOk_issueOk h (fun _ h1 => memOk_apply h1)
theorem nextOk_floatArith {i major o f} : NextOk (floatArith i major o s f) := nextOk_floatOp h
theorem nextOk_fcmpOp {i o} : NextOk (fcmpOp i o s) := nextOk_issueOk h (fun _ h1 => memOk_applyPred h1)
theorem nextOk_execFclass {o} : NextOk (execFclass o s) := nextOk_issueOk h (fun _ h1 => memOk_apply h1)
theorem nextOk_floatUnary {i major o f} : NextOk (floatUnary i major o s f) := nextOk_floatOp h
theorem nextOk_execXins {o} : NextOk (execXins o s) := nextOk_issueOk h (fun _ h1 => memOk_apply h1)
theorem nextOk_execXgetE {o} : NextOk (execXgetE o s) := nextOk_issueOk h (fun _ h1 => memOk_apply h1)
theorem nextOk_convertOp {i major o} : NextOk (convertOp i major o s) := nextOk_issueOk h (fun _ h1 => memOk_apply h1)
theorem nextOk_execFcvtPk {o} : NextOk (execFcvtPk o s) := nextOk_issueOk h (fun _ h1 => memOk_apply h1)
theorem nextOk_execFdot2 {o} : NextOk (execFdot2 o s) := nextOk_issueOk h (fun _ h1 => memOk_apply h1)
end
end Sys2Proof.Machine
end

section
/-! SUPPORT. Memory stays canonical: chains. -/
namespace Sys2Proof.Machine
open Sys2Proof State

section
variable {s : State} (h : s.MemOk)
include h

theorem memOk_setChain {k n c} : (setChain k n c s).MemOk := memOk_modStudio h
theorem memOk_loadChain {w addr} : OkAll FstOk (loadChain w addr s) :=
  OkAll.bind (memOk_readRecord h) (fun ⟨_, _⟩ h1 => OkAll.bind (memOk_readRecord h1) (fun ⟨_, _⟩ h2 => .ok h2))
theorem nextOk_execChld {o} : NextOk (execChld o s) := by
  unfold execChld
  refine nextOk_issue (memOk_ite (memOk_setChain h) h) (fun _ h1 => ?_)
  refine okAll_ite (.ok h1) ?_
  refine OkAll.bind (memOk_loadChain h1) (fun ⟨_, _⟩ h2 => ?_)
  dsimp only
  split
  · exact .ok (memOk_setChain h2)
  · exact .error
theorem memOk_reloadChains {n} : (reloadChains n s).MemOk := by
  unfold reloadChains
  refine memOk_modCell ?_
  refine foldl_keeps (P := FstOk) (fun ⟨_, _⟩ ⟨_, _⟩ h1 => ?_) _ h
  split
  next s2 _ hs1 =>
    have h2 : s2.MemOk := OkAll.of_eq (P := FstOk) hs1 (memOk_loadChain h1)
    exact memOk_setChain h2
  · exact fstOk_ite h1 (memOk_setChain h1)
theorem nextOk_execChrun {o} : NextOk (execChrun o s) := by
  unfold execChrun
  refine nextOk_issue h (fun _ h1 => ?_)
  dsimp only
  split
  · exact .error
  · exact okAll_ite .error (.ok (memOk_apply h1))
end
end Sys2Proof.Machine
end

section
/-! SUPPORT. Memory stays canonical: control flow. -/
namespace Sys2Proof.Machine
open Sys2Proof State

section
variable {s : State} (h : s.MemOk)
include h

theorem nextOk_execBr {o} : NextOk (execBr o s) := nextOk_issueWith h (fun _ h1 => .ok h1)
theorem nextOk_execBraAny {o} : NextOk (execBraAny o s) := nextOk_issueWith h (fun _ h1 => .ok h1)
theorem nextOk_execBraAll {o} : NextOk (execBraAll o s) := nextOk_issueWith h (fun _ h1 => .ok h1)
theorem nextOk_execBrx {o} : NextOk (execBrx o s) := nextOk_issueWith h (fun _ h1 => OkAll.bind_any (fun _ => .ok h1))
theorem memOk_writeLink {o} : (writeLink o s).MemOk := memOk_apply h
theorem nextOk_execCall {o} : NextOk (execCall o s) := nextOk_issueWith h (fun _ h1 => .ok (memOk_writeLink h1))
theorem nextOk_execCalli {o} : NextOk (execCalli o s) :=
  nextOk_issueWith h (fun _ h1 => OkAll.bind_any (fun _ => .ok (memOk_writeLink h1)))
theorem nextOk_execRet {o} : NextOk (execRet o s) := nextOk_issueWith h (fun _ h1 => OkAll.bind_any (fun _ => .ok h1))
theorem nextOk_execPrio {o} : NextOk (execPrio o s) := nextOk_issueWith h (fun _ h1 => .ok h1)
theorem nextOk_execTrail {o} : NextOk (execTrail o s) := by
  unfold execTrail
  refine nextOk_issueWith h (fun _ h1 => ?_)
  split
  · exact .error
  · refine .ok ?_
    refine memOk_modCg _ ?_
    refine memOk_endRun ?_
    refine memOk_ite ?_ ?_
    · exact h1
    · refine memOk_produce ?_
      exact h1
theorem nextOk_execExit {o} : NextOk (execExit o s) := nextOk_issueWith h
  (fun _ h1 => .ok (memOk_handlerMeeting (memOk_endRun h1)))
theorem nextOk_execRegroup {o} : NextOk (execRegroup o s) := nextOk_issueWith h (fun _ h1 => .ok h1)
theorem nextOk_execRegroupRestore {o} : NextOk (execRegroupRestore o s) := nextOk_issueWith h (fun _ h1 => .ok h1)
end
end Sys2Proof.Machine
end

section
/-! SUPPORT. Memory stays canonical: matrix and palette instructions. -/
namespace Sys2Proof.Machine
open Sys2Proof State

section
variable {s : State} (h : s.MemOk)
include h

theorem nextOk_execCvdecl {o} : NextOk (execCvdecl o s) :=
  nextOk_issue h (fun _ h1 => OkAll.bind_any (fun _ => OkAll.bind_any (fun _ => okAll_ite (.ok h1) (.ok (memOk_modCc h1)))))
theorem nextOk_execCvsign {o} : NextOk (execCvsign o s) :=
  nextOk_issue h (fun _ h1 => OkAll.bind_any (fun _ => OkAll.bind_any (fun _ => OkAll.bind_any (fun _ => .ok (memOk_modCc h1)))))
theorem nextOk_execMfence {o} : NextOk (execMfence o s) :=
  nextOk_issue h (fun _ h1 => OkAll.bind_any (fun _ => OkAll.bind_any
    (fun _ => okAll_ite (.ok h1) (.ok (memOk_modCc (memOk_tick h1))))))
theorem memOk_queueCmd {c} : OkAll MemOk (queueCmd c s) := okAll_ite .error (.ok (memOk_modCc (memOk_tick h)))
theorem nextOk_execMzero {o} : NextOk (execMzero o s) :=
  nextOk_issue h (fun _ h1 => OkAll.bind_any (fun _ => OkAll.bind_any (fun _ => okAll_ite (.ok h1) (memOk_queueCmd h1))))
theorem nextOk_execMwrite {o} : NextOk (execMwrite o s) :=
  nextOk_issue h (fun _ h1 => OkAll.bind_any (fun _ => OkAll.bind_any (fun _ => okAll_ite (.ok h1) (memOk_queueCmd h1))))
theorem memOk_mulIssue {major o} : OkAll MemOk (mulIssue major o s) :=
  OkAll.bind_any (fun _ => OkAll.bind_any (fun _ => OkAll.bind_any
    (fun _ => OkAll.bind_any (fun _ => OkAll.bind_any (fun _ => OkAll.bind_any
    (fun _ => OkAll.bind_any (fun _ => okAll_ite (.ok h) (okAll_guard (fun _ => memOk_queueCmd h)))))))))
theorem nextOk_execMma {o} : NextOk (execMma o s) := nextOk_issue h (fun _ h1 => memOk_mulIssue h1)
theorem nextOk_execMmar {o} : NextOk (execMmar o s) := nextOk_issue h (fun _ h1 => memOk_mulIssue h1)
theorem nextOk_execMdrain {o} : NextOk (execMdrain o s) :=
  nextOk_issue h (fun _ h1 => OkAll.bind_any (fun _ => OkAll.bind_any
    (fun _ => OkAll.bind_any (fun _ => okAll_ite (.ok h1) (memOk_queueCmd h1)))))
theorem nextOk_execMcheck {o} : NextOk (execMcheck o s) :=
  nextOk_issue h (fun _ h1 => OkAll.bind_any (fun _ => OkAll.bind_any (fun _ => okAll_ite (.ok h1) (memOk_queueCmd h1))))
theorem memOk_settleWatch {n m} : (settleWatch n m s).MemOk := by
  unfold settleWatch
  refine memOk_ite h ?_
  exact h
theorem memOk_endWindows {n m} : (endWindows n m s).MemOk := memOk_modCell (memOk_settleWatch h)
theorem nextOk_execMwait {o} : NextOk (execMwait o s) :=
  nextOk_issueWith h (fun _ h1 => OkAll.bind_any (fun _ => OkAll.bind_any
    (fun _ => okAll_ite (.ok h1) (okAll_ite (.ok h1) (okAll_ite .error (.ok (memOk_endWindows h1)))))))
theorem nextOk_execMread {o} : NextOk (execMread o s) := by
  unfold execMread
  refine nextOk_issue h (fun _ h1 => ?_)
  refine OkAll.bind_any (fun _ => ?_)
  refine OkAll.bind_any (fun _ => ?_)
  refine okAll_ite (.ok h1) ?_
  refine .ok ?_
  refine memOk_produce ?_
  refine memOk_modCc ?_
  refine memOk_ite ?_ (memOk_settleWatch h1)
  exact memOk_settleWatch h1
theorem memOk_zapRows {k z} : (zapRows k z s).MemOk := memOk_modStudio h
theorem memOk_settleZaps {k} : (settleZaps k s).MemOk :=
  foldl_keeps (P := MemOk) (fun _ _ h1 => memOk_ite (memOk_modStudio (memOk_zapRows h1)) h1) _ h
theorem nextOk_execMsave {o} : NextOk (execMsave o s) :=
  nextOk_issue h (fun _ h1 => okAll_ite .error (okAll_ite (.ok h1)
    (OkAll.bind_any (fun _ => okAll_ite .error (okAll_guard
    (fun _ => OkAll.bind (memOk_writeVa h1) (fun _ h2 => .ok (memOk_modCc h2))))))))
theorem nextOk_execMrestore {o} : NextOk (execMrestore o s) :=
  nextOk_issue h (fun _ h1 => okAll_ite .error (okAll_ite (.ok h1)
    (OkAll.bind_any (fun _ => okAll_ite .error (okAll_guard
    (fun _ => OkAll.bind (memOk_readVa h1) (fun ⟨_, _⟩ h2 => OkAll.bind_any
    (fun _ => .ok (memOk_settleZaps (memOk_modCc h2))))))))))
theorem nextOk_execPfill {o} : NextOk (execPfill o s) :=
  nextOk_issue h (fun _ h1 => OkAll.bind_any (fun _ => OkAll.bind_any
    (fun _ => okAll_ite (.ok h1) (okAll_guard (fun _ => okAll_guard
    (fun _ => OkAll.bind (memOk_readRecord h1) (fun ⟨_, _⟩ h2 => OkAll.bind_any
    (fun _ => okAll_ite .error (.ok (memOk_modCc (memOk_tick (memOk_releaseActs h2))))))))))))
theorem nextOk_execPwait {o} : NextOk (execPwait o s) := by
  unfold execPwait
  refine nextOk_issueWith h (fun _ h1 => ?_)
  refine OkAll.bind_any (fun _ => ?_)
  refine OkAll.bind_any (fun _ => ?_)
  refine okAll_ite (.ok h1) ?_
  refine okAll_ite (.ok h1) ?_
  split
  · exact .error
  · exact .ok h1
theorem memOk_zapIssue {chk o} : OkAll MemOk (zapIssue chk o s) :=
  OkAll.bind_any (fun _ => OkAll.bind_any (fun _ => OkAll.bind_any
    (fun _ => okAll_ite (.ok h) (.ok (memOk_settleZaps (memOk_modStudio (memOk_tick h)))))))
theorem nextOk_execPzapB {o} : NextOk (execPzapB o s) := nextOk_issue h (fun _ h1 => memOk_zapIssue h1)
theorem nextOk_execPzapC {o} : NextOk (execPzapC o s) := nextOk_issue h (fun _ h1 => memOk_zapIssue h1)
end
end Sys2Proof.Machine
end

section
/-! SUPPORT. Memory stays canonical: rings. -/
namespace Sys2Proof.Machine
open Sys2Proof State

section
variable {s : State} (h : s.MemOk)
include h

theorem nextOk_execRingdecl {o} : NextOk (execRingdecl o s) :=
  nextOk_issue h (fun _ h1 => OkAll.bind_any (fun _ => okAll_ite (.ok h1) (OkAll.bind_any (fun _ => .ok (memOk_modCc h1)))))
theorem nextOk_execRingdeclClr {o} : NextOk (execRingdeclClr o s) := nextOk_issueOk h (fun _ h1 => memOk_ite h1 (memOk_modCc h1))
theorem memOk_sendPacket {id frm to'} : (sendPacket id frm to' s).MemOk := by
  unfold sendPacket
  dsimp only
  exact h
theorem memOk_sendMessage {r k recv bs handler} : (sendMessage r k recv bs handler s).MemOk :=
  memOk_sendPacket (memOk_modStudio (memOk_modGroup (memOk_tick h)))
theorem nextOk_execRsend {o} : NextOk (execRsend o s) :=
  nextOk_issue h (fun _ h1 => OkAll.bind_any (fun _ => OkAll.bind_any
    (fun _ => OkAll.bind_any (fun _ => okAll_ite (.ok h1) (okAll_ite (.ok (memOk_signWrite (memOk_releaseActs h1)))
    (okAll_ite (memOk_addEscapeAt (memOk_signWrite (memOk_releaseActs h1)))
    (okAll_ite .error (.ok (memOk_sendMessage (memOk_signWrite (memOk_releaseActs h1)))))))))))
theorem nextOk_execRhead {o} : NextOk (execRhead o s) := by
  unfold execRhead
  refine nextOk_issue h (fun _ h1 => ?_)
  refine okAll_ite (.ok h1) ?_
  split
  · exact .error
  · exact OkAll.bind_any (fun _ => .ok (memOk_modCc (memOk_releaseActs h1)))
end
end Sys2Proof.Machine
end

section
/-! SUPPORT. Memory stays canonical: runs, waits and dispatch. -/
namespace Sys2Proof.Machine
open Sys2Proof State

section
variable {s : State} (h : s.MemOk)
include h

theorem memOk_setWait {r e w} : (setWait r e w s).MemOk := memOk_modGroup h
theorem memOk_wakeFault {r e y handler} : (wakeFault r e y handler s).MemOk := memOk_lateFault _ _ (memOk_setWait h)
theorem memOk_settleWord {r e va gen acq handler} : (settleWord r e va gen acq handler s).MemOk := by
  unfold settleWord
  dsimp only
  split
  · exact memOk_ite h (memOk_wakeFault h)
  · exact memOk_wakeFault h
  next s1 _ hs1 =>
    have h1 : s1.MemOk := OkAll.of_eq (P := FstOk) hs1 (keeps_checkOne h)
    exact memOk_ite (memOk_wakeFault (memOk_readPa h1)) (memOk_when (memOk_readPa h1)
      (fun h2 => memOk_swAcquire (memOk_setWait h2)))
theorem memOk_settleWait {r e} : (settleWait r e s).MemOk := by
  unfold settleWait
  dsimp only
  split
  · exact memOk_ite (memOk_setWait h) h
  · exact memOk_ite (memOk_settleLanded (memOk_setWait h)) h
  · exact memOk_settleWord h
  · exact memOk_ite (memOk_modGroup (memOk_setWait h)) h
  · exact memOk_ite h (memOk_ite (memOk_wakeFault (memOk_modCell h)) (memOk_endWindows (memOk_setWait h)))
  · refine memOk_ite (memOk_setWait h) ?_
    refine memOk_ite h ?_
    split
    · exact memOk_wakeFault (memOk_modCell h)
    · exact memOk_setWait h
  · exact h
theorem memOk_settleEngine {n} : (settleEngine n s).MemOk := by
  unfold settleEngine
  refine foldl_keeps (P := MemOk) (fun _ ⟨_, _⟩ h1 => ?_) _ h
  refine foldl_keeps (P := MemOk) (fun _ _ h2 => ?_) _ h1
  split
  · exact memOk_settleWait h2
  · exact memOk_settleWait h2
  · exact h2
theorem memOk_settleHandler {r} : (settleHandler r s).MemOk := by
  unfold settleHandler
  refine memOk_ite ?_ h
  refine memOk_handlerMeeting ?_
  exact h
theorem memOk_settleWaits {k} : (settleWaits k s).MemOk :=
  foldl_keeps (P := MemOk) (fun _ ⟨_, _⟩ h1 => memOk_settleHandler
    (foldl_keeps (P := MemOk) (fun _ _ h2 => memOk_settleWait h2) _ h1)) _
    (foldl_keeps (P := MemOk) (fun _ ⟨_, _⟩ h1 => memOk_reloadChains h1) _ h)
theorem memOk_lateDelivery {l} : SomeAll MemOk (lateDelivery s l) := by
  induction l with
  | nil => exact .none
  | cons x r ih =>
    unfold lateDelivery
    dsimp only
    split
    · exact ih
    · split
      next s1 hs1 =>
        refine .some (SomeAll.of_eq (P := MemOk) hs1 (memOk_deliverLate ?_))
        exact h
      · exact ih
theorem memOk_startRun {r e} : (startRun r e s).MemOk := by
  unfold startRun
  refine memOk_modGroup ?_
  exact h
theorem memOk_refuseRun {x} : (refuseRun x s).MemOk := by
  unfold refuseRun
  dsimp only
  split
  · exact memOk_ite (memOk_modCg _ h) (memOk_raise h)
  · exact memOk_raise h
theorem memOk_dispatch {k rs x top} : (dispatch k rs x top s).MemOk := by
  unfold dispatch
  dsimp only
  refine memOk_ite (memOk_refuseRun (memOk_startRun h)) ?_
  refine memOk_ite ?_ ?_
  · refine memOk_modGroup ?_
    refine memOk_startRun ?_
    refine foldl_keeps (P := MemOk) (fun s1 ⟨_, _, _⟩ h1 => memOk_ite h1 (memOk_modGroup h1)) _ ?_
    split
    · exact memOk_modStudio (memOk_when (memOk_perf _ _ _ _ h) (fun h2 => memOk_perf _ _ _ _ h2))
    · exact memOk_when (memOk_perf _ _ _ _ h) (fun h3 => memOk_perf _ _ _ _ h3)
  · refine memOk_refuseRun ?_
    refine memOk_modGroup ?_
    refine memOk_startRun ?_
    refine foldl_keeps (P := MemOk) (fun s1 ⟨_, _, _⟩ h1 => memOk_ite h1 (memOk_modGroup h1)) _ ?_
    split
    · exact memOk_modStudio (memOk_when (memOk_perf _ _ _ _ h) (fun h4 => memOk_perf _ _ _ _ h4))
    · exact memOk_when (memOk_perf _ _ _ _ h) (fun h5 => memOk_perf _ _ _ _ h5)
theorem memOk_countRefusals {k} : (countRefusals k s).MemOk := by
  unfold countRefusals
  refine foldl_keeps (P := MemOk) (fun _ ⟨_, _⟩ h1 => ?_) _ h
  refine memOk_ite h1 ?_
  split
  · exact memOk_ite h1 (memOk_perf _ _ _ _ h1)
  · exact h1
theorem memOk_runDispatch {k} : (runDispatch k s).MemOk := by
  unfold runDispatch
  refine memOk_ite h ?_
  dsimp only
  split
  next s1 hs1 =>
    have h1 : s1.MemOk := SomeAll.of_eq (P := MemOk) hs1 (memOk_lateDelivery (memOk_settleWaits h))
    exact h1
  · refine memOk_ite (memOk_settleWaits h) ?_
    split
    · exact memOk_dispatch (memOk_countRefusals (memOk_settleWaits h))
    · exact memOk_countRefusals (memOk_settleWaits h)
theorem nextOk_execRunDispatch {k} : NextOk (execRunDispatch k s) := .next (memOk_runDispatch h)
theorem memOk_clearHeld {r} : (clearHeld r s).MemOk := memOk_modGroup h
theorem memOk_judgeRest {r ln} : (judgeRest r ln s).MemOk := by
  unfold judgeRest
  refine memOk_ite ?_ ?_
  · refine memOk_refuseRun ?_
    refine memOk_modRun ?_
    exact h
  · refine memOk_ite ?_ (memOk_ite h (memOk_modGroup (memOk_clearHeld h)))
    refine memOk_refuseRun ?_
    refine memOk_modCg _ ?_
    exact h
theorem memOk_resumeRun {r} : (resumeRun r s).MemOk := by
  unfold resumeRun
  dsimp only
  split
  · exact memOk_ite h (memOk_modGroup (memOk_clearHeld h))
  · exact memOk_ite (memOk_judgeRest h) (memOk_clearHeld h)
theorem nextOk_execFetchResume {k slot} : NextOk (execFetchResume k slot s) := by
  unfold execFetchResume
  refine .next ?_
  split
  · exact memOk_resumeRun h
  · exact h
theorem nextOk_execHeldAccessResume {k slot} : NextOk (execHeldAccessResume k slot s) := by
  unfold execHeldAccessResume
  refine .next ?_
  split
  · exact memOk_resumeRun h
  · exact h
theorem memOk_deliverResult {r i p} : (deliverResult r i p s).MemOk := by
  unfold deliverResult
  refine memOk_ite ?_ ?_
  · split
    · exact memOk_lateFault _ _ (memOk_complete (memOk_modGroup h))
    · exact memOk_complete (memOk_modGroup h)
  · refine memOk_acquireActs ?_
    split
    · exact memOk_lateFault _ _ (memOk_complete (memOk_modGroup h))
    · exact memOk_complete (memOk_modGroup h)
theorem nextOk_execLongLatencyComplete {cell grp i} : NextOk (execLongLatencyComplete cell grp i s) := by
  unfold execLongLatencyComplete
  refine .next ?_
  split
  · exact memOk_ite h (memOk_deliverResult h)
  · exact h
theorem nextOk_execRunSettled {cell grp} : NextOk (execRunSettled cell grp s) := .next (memOk_ite (memOk_modGroup h) h)
theorem nextOk_execRegroupMeetingComplete {n} : NextOk (execRegroupMeetingComplete n s) := .next (memOk_ite h (memOk_modCell h))
theorem nextOk_execRegroupRestoreComplete {n} : NextOk (execRegroupRestoreComplete n s) := .next (memOk_ite h (memOk_modCell h))
theorem nextOk_execArithmeticCycle {k} : NextOk (execArithmeticCycle k s) :=
  .next (memOk_ite h (foldl_keeps (P := MemOk) (fun _ _ h1 => memOk_unless
    (memOk_when (memOk_ite (memOk_perf _ _ _ _ h1) h1) (fun h3 => memOk_perf _ _ _ _ h3)) (fun h2 => memOk_perf _ _ _ _ h2)) _
    (memOk_modStudio h)))
end
end Sys2Proof.Machine
end

section
/-! SUPPORT. Memory stays canonical: errors, tests and capacity. -/
namespace Sys2Proof.Machine
open Sys2Proof State

section
variable {s : State} (h : s.MemOk)
include h

theorem memOk_callTest {u} : (s.callTest u).MemOk := memOk_ite h (memOk_modModule h)
theorem memOk_countError {u corrected} : (s.countError u corrected).MemOk := by
  unfold countError
  dsimp only
  split
  · exact memOk_modStudio (memOk_callTest h)
  · exact memOk_bump (memOk_callTest h)
  · exact memOk_bump (memOk_callTest h)
  · exact memOk_bump (memOk_callTest h)
theorem memOk_logPoison {cls unit ln l} : (State.logPoison cls unit ln l s).MemOk := by
  unfold logPoison
  refine memOk_ite (memOk_supReport h) ?_
  dsimp only
  split
  · exact memOk_when (memOk_report h) (fun h1 => memOk_requestRollback h1)
  · exact memOk_report h
theorem memOk_poisonLine {cls unit ln l} : (State.poisonLine cls unit ln l s).MemOk := by
  unfold poisonLine
  refine memOk_logPoison ?_
  exact h
theorem memOk_flushSlice {j} : (s.flushSlice j).MemOk := by
  unfold flushSlice
  refine foldl_keeps (P := MemOk) (fun s1 _ h1 => ?_) _ ?_
  · exact h1
  · refine foldl_keeps (P := MemOk) (fun s1 _ h1 => ?_) _ h
    split
    · exact memOk_ite (memOk_poisonLine (memOk_tick h1)) (memOk_wbL2 _ (memOk_tick h1))
    · exact h1
theorem memOk_retireUnit {u} : (s.retireUnit u).MemOk := by
  unfold retireUnit
  dsimp only
  refine memOk_supReport ?_
  split
  · exact memOk_modModule h
  · exact memOk_modModule (memOk_flushSlice h)
  · exact memOk_modModule h
  · exact memOk_modModule h
theorem memOk_leaveSlices : (s.leaveSlices).MemOk := by
  unfold leaveSlices
  refine foldl_keeps (P := MemOk) (fun _ _ h1 => ?_) _ h
  exact memOk_wbL2 _ h1
theorem memOk_placeSvs : (s.placeSvs).MemOk := by
  unfold placeSvs
  exact h
theorem memOk_latchCapacity : (s.latchCapacity).MemOk := memOk_placeSvs (memOk_modModule (memOk_leaveSlices h))
end
end Sys2Proof.Machine
end

section
/-! SUPPORT. Memory stays canonical: the events of the matrix engine and its fills. -/
namespace Sys2Proof.Machine
open Sys2Proof State

section
variable {s : State} (h : s.MemOk)
include h

theorem memOk_modCmd {n i f} : (modCmd n i f s).MemOk := memOk_modCell h
theorem memOk_startCmd {n i c} : (startCmd n i c s).MemOk := by
  unfold startCmd
  dsimp only
  exact memOk_unless (memOk_modCmd h) (fun h1 => memOk_unless (memOk_modCell (memOk_ite h1 (memOk_modCell h1)))
    (fun h2 => memOk_ite (memOk_ite h1 (memOk_modCell h1)) h2))
theorem nextOk_execEaselCommandStart {n i} : NextOk (execEaselCommandStart n i s) := by
  unfold execEaselCommandStart
  refine .next ?_
  refine memOk_ite h ?_
  split
  · exact memOk_settleZaps (memOk_modStudio (memOk_startCmd (memOk_settleWatch h)))
  · exact h
theorem nextOk_execEaselSlab {n i} : NextOk (execEaselSlab n i s) := by
  unfold execEaselSlab
  refine .next ?_
  split
  · exact memOk_ite h (memOk_perf _ _ _ _ (memOk_modCmd (memOk_modCell h)))
  · exact h
theorem memOk_runCheck {n m} : (runCheck n m s).1.MemOk := by
  unfold runCheck
  dsimp only
  split
  · exact h
  · exact memOk_modCell h
  · exact memOk_countError (memOk_supReport (memOk_report (memOk_modCell h)))
theorem memOk_finishCmd {n c} : (finishCmd n c s).MemOk := by
  unfold finishCmd
  split
  · exact memOk_modCell h
  · exact memOk_modCell h
  · exact memOk_runCheck (memOk_settleWatch h)
  · dsimp only
    exact memOk_unless (memOk_runCheck (memOk_settleWatch h)) (fun h1 => memOk_modCell h1)
  · exact memOk_ite h (memOk_settleWatch (memOk_modCell h))
theorem nextOk_execEaselCommandComplete {n i} : NextOk (execEaselCommandComplete n i s) := by
  unfold execEaselCommandComplete
  refine .next ?_
  split
  · exact memOk_ite h (memOk_settleZaps (memOk_settleEngine (memOk_modCell (memOk_finishCmd h))))
  · exact h
theorem memOk_modFill {n f g} : (modFill n f g s).MemOk := memOk_modCell h
theorem memOk_putColumn {k row j b} : (putColumn k row j b s).MemOk := memOk_modStudio h
theorem memOk_fillColumns {w src stride row len} : OkAll MemOk (fillColumns w src stride row len s) := by
  unfold fillColumns
  refine okAll_foldlM (fun s1 _ h1 => ?_) _ h
  exact OkAll.bind (memOk_readRange h1) fun _ h2 => .ok (memOk_putColumn h2)
theorem memOk_putChecks {k rs} : (putChecks k rs s).MemOk := memOk_modStudio h
theorem memOk_freeRows {k a b c d} : (freeRows k a b c d s).MemOk := by
  unfold freeRows
  exact h
theorem memOk_stopFill {n f x y} : (stopFill n f x y s).MemOk := memOk_modFill (memOk_freeRows (memOk_ite (memOk_freeRows h) h))
theorem memOk_fillStep {w f x} : OkAll MemOk (fillStep w f x s) :=
  okAll_ite (OkAll.bind (memOk_fillColumns h) (fun _ h1 => .ok (memOk_modFill h1)))
    (OkAll.bind (memOk_fillColumns h) (fun _ h1 => .ok (memOk_modFill (memOk_ite (memOk_putChecks h1) h1))))
theorem nextOk_execFillSlab {n f} : NextOk (execFillSlab n f s) := by
  unfold execFillSlab
  refine .next ?_
  refine memOk_ite h ?_
  split
  next s1 hs1 =>
    have h1 : s1.MemOk := OkAll.of_eq (P := MemOk) hs1 (memOk_fillStep h)
    exact h1
  · exact memOk_ite h (memOk_stopFill h)
theorem nextOk_execFillComplete {n f} : NextOk (execFillComplete n f s) :=
  .next (memOk_ite (memOk_settleZaps (memOk_settleEngine (memOk_modFill h))) h)
theorem nextOk_execSoftError {t} : NextOk (execSoftError t s) := by
  unfold execSoftError
  refine .next ?_
  split
  · exact memOk_ite (memOk_modCell h) h
  · exact h
  · exact memOk_modStudio h
end
end Sys2Proof.Machine
end

section
/-! SUPPORT. Memory stays canonical: the events of the Brush. -/
namespace Sys2Proof.Machine
open Sys2Proof State

section
variable {s : State} (h : s.MemOk)
include h

theorem memOk_modBrush {n i f} : (modBrush n i f s).MemOk := memOk_modCell h
theorem memOk_landScratch {n a k} : (landScratch n a k s).MemOk := memOk_modCell h
theorem memOk_landHome {r w va k x} : OkAll MemOk (landHome r w va k s x) := by
  unfold landHome
  dsimp only
  exact okAll_ite .error (.ok (memOk_noteRcv (memOk_storeHome _ _ _ _ (memOk_readAt _ _ _ _ _ h))))
theorem memOk_landGlobal {r w va k} : OkAll MemOk (landGlobal r w va k s) := by
  unfold landGlobal
  refine OkAll.bind (keeps_checkOne h) (fun ⟨_, _⟩ h1 => ?_)
  split
  · exact .error
  next s2 _ hs1 =>
    have h2 : s2.MemOk := FstOk.of_eq hs1 h1
    split
    · exact okAll_foldlM (fun _ _ h3 => memOk_landHome h3) _ h2
    · exact .ok h2
    · exact memOk_addEscape h2
theorem memOk_brushFault {n b y} : (brushFault n b y s).MemOk := memOk_lateFault _ _ h
theorem memOk_reportBytes {n b k} : SomeAll MemOk (reportBytes n b k s) := by
  unfold reportBytes
  split
  · exact .some (foldl_keeps (P := MemOk) (fun s1 _ h1 => memOk_barBytes h1) _ h)
  · exact .some (memOk_landScratch h)
  · refine someAll_ite (.some h) ?_
    split
    next s1 hs1 =>
      have h1 : s1.MemOk := OkAll.of_eq (P := MemOk) hs1 (memOk_landGlobal h)
      exact .some h1
    · exact someAll_ite .none (.some (memOk_brushFault h))
  · exact .some h
theorem memOk_startBrush {n i} : (startBrush n i s).MemOk := memOk_modCell h
theorem memOk_keepSig {n b va bs} : (keepSig n b va bs s).MemOk := by
  unfold keepSig
  split
  · exact h
  · exact memOk_modCell h
theorem memOk_keepHop {n b} : (keepHop n b s).MemOk := foldl_keeps (P := MemOk) (fun _ ⟨_, _⟩ h1 => memOk_keepSig h1) _ h
theorem memOk_flushSigs {n} : (flushSigs n s).MemOk :=
  memOk_modCell (foldl_keeps (P := MemOk) (fun _ ⟨_, _, _, _⟩ h1 => memOk_signWrite h1) _ h)
theorem memOk_nibbleIn {w l cs n} : OkAll FstOk (nibbleIn w l cs n s) := by
  unfold nibbleIn
  split
  · exact .ok h
  · exact OkAll.bind (memOk_readRange h) (fun ⟨_, _⟩ h1 => .ok h1)
theorem memOk_unitIn {w l cs u} : OkAll FstOk (unitIn w l cs u s) := by
  unfold unitIn
  refine okAll_ite (OkAll.bind (memOk_nibbleIn h) (fun ⟨_, _⟩ h1 => OkAll.bind (memOk_nibbleIn h1) (fun ⟨_, _⟩ h2 => .ok h2))) ?_
  split
  · exact .ok h
  · exact memOk_readRange h
theorem memOk_moveUnit {w b u} : OkAll FstOk (moveUnit w b u s) := by
  unfold moveUnit
  refine okAll_ite (OkAll.bind (memOk_unitIn h) (fun ⟨_, _⟩ h1 => .ok (memOk_landIn h1))) ?_
  refine memOk_unitOut ?_
  exact h
theorem memOk_moveUnits {w b l n} : (moveUnits w b l s n).1.MemOk := by
  induction l generalizing s n with
  | nil => exact h
  | cons x r ih =>
    unfold moveUnits
    split
    next s1 _ hs1 =>
      have h1 : s1.MemOk := OkAll.of_eq (P := FstOk) hs1 (memOk_moveUnit h)
      exact ih h1
    · exact h
theorem memOk_stopBrush {n i b y rest k} : SomeAll MemOk (stopBrush n i b y rest k s) :=
  SomeAll.map (P := MemOk) (memOk_reportBytes (foldl_keeps (P := MemOk) (fun _ _ h1 => memOk_freeUnit h1) _ h))
    (fun _ h1 => memOk_modBrush (memOk_brushFault h1))
theorem memOk_signBurst {n b us} : (signBurst n b us s).MemOk := memOk_ite h (memOk_keepSig h)
theorem nextOk_execBrushBurst {n i} : NextOk (execBrushBurst n i s) := by
  unfold execBrushBurst
  refine .next ?_
  split
  · exact h
  · refine memOk_ite h ?_
    dsimp only
    refine memOk_elim ?_ h (fun s1 h1 => memOk_flushSigs h1)
    split
    · exact SomeAll.map (P := MemOk) (memOk_reportBytes (memOk_perf _ _ _ _
        (memOk_moveUnits (memOk_tick (memOk_startBrush (memOk_signBurst h)))))) (fun s1 h1 => memOk_modBrush h1)
    · exact someAll_ite .none (memOk_stopBrush (memOk_perf _ _ _ _
        (memOk_moveUnits (memOk_tick (memOk_startBrush (memOk_signBurst h))))))
theorem nextOk_execBrushCommandComplete {n i} : NextOk (execBrushCommandComplete n i s) := by
  unfold execBrushCommandComplete
  refine .next ?_
  split
  · exact memOk_ite h (memOk_when (memOk_flushSigs (memOk_modCell h)) (fun h1 => memOk_barArrival h1))
  · exact h
theorem nextOk_execBmcastHop {n i} : NextOk (execBmcastHop n i s) := by
  unfold execBmcastHop
  refine .next ?_
  split
  · exact h
  · refine memOk_ite h ?_
    split
    · exact h
    · exact memOk_ite h (memOk_ite (memOk_getD (SomeAll.map (P := MemOk)
        (memOk_reportBytes (memOk_brushFault (memOk_startBrush h))) (fun s1 h1 => memOk_modBrush h1)) h)
        (memOk_elim (someAll_ite (memOk_reportBytes (memOk_modBrush
        (memOk_perf _ _ _ _ (memOk_landScratch (memOk_landIn (memOk_keepHop (memOk_startBrush h)))))))
        (.some (memOk_modBrush (memOk_perf _ _ _ _ (memOk_landScratch (memOk_landIn (memOk_keepHop (memOk_startBrush h)))))))) h
        (fun s1 h1 => memOk_flushSigs h1)))
theorem memOk_acceptInto {n b} : (acceptInto n b s).MemOk := by
  unfold acceptInto
  dsimp only
  split
  · exact h
  · exact h
theorem nextOk_execBredAccept {n i} : NextOk (execBredAccept n i s) := by
  unfold execBredAccept
  refine .next ?_
  split
  · exact h
  · exact memOk_ite h (memOk_ite (memOk_acceptInto (memOk_modStudio (memOk_modBrush (memOk_startBrush h))))
      (memOk_getD (memOk_reportBytes (memOk_modBrush (memOk_brushFault (memOk_startBrush h)))) h))
theorem memOk_deliverRound {res w p} : SomeAll MemOk (deliverRound res w s p) := by
  unfold deliverRound
  split
  · exact .some h
  · exact SomeAll.map (P := MemOk) (memOk_reportBytes (memOk_unless (memOk_landIn h)
      (fun h2 => memOk_modStudio (memOk_perf _ _ _ _ h2)))) (fun _ h1 => memOk_modBrush h1)
theorem memOk_roundFence {acq p} : (roundFence acq s p).MemOk := by
  unfold roundFence
  split
  · exact h
  · exact memOk_ite h (memOk_ite (memOk_acquireCaches h) (memOk_releaseActs h))
theorem nextOk_execBredRoundComplete {tag k} : NextOk (execBredRoundComplete tag k s) := by
  unfold execBredRoundComplete
  refine .next ?_
  split
  · exact h
  · split
    · exact h
    · refine memOk_ite h ?_
      refine memOk_elim ?_ h (fun s1 h1 => foldl_keeps (P := MemOk) (fun _ _ h2 => memOk_roundFence h2) _ h1)
      refine someAll_foldlM (fun s1 _ h1 => memOk_deliverRound h1) _ ?_
      refine foldl_keeps (P := MemOk) (fun s1 _ h1 => memOk_roundFence h1) _ ?_
      exact h
end
end Sys2Proof.Machine
end

section
/-! SUPPORT. Memory stays canonical: accesses of agents outside the studios. -/
namespace Sys2Proof.Machine
open Sys2Proof State

section
variable {s : State} (h : s.MemOk)
include h

theorem memOk_homeRead {pa n} : (homeRead pa n s).1.MemOk :=
  foldl_keeps (P := MemOk) (fun _ _ h1 => memOk_bypass _ _ (memOk_meetTarget _ _ (memOk_mergeLine _ h1))) _ h
theorem memOk_homePut {t pa bs} : (homePut t pa bs s).MemOk :=
  foldl_keeps (P := MemOk) (fun _ _ h1 => memOk_sendTarget _ _ (memOk_homeWrite _ _ _ _ (memOk_mergeLine _ h1))) _ h
theorem memOk_agentOne {g va wr} : OkAll FstOk (agentOne g va wr s) := by
  unfold agentOne
  dsimp only
  split
  · refine okAll_guard (fun _ => ?_)
    refine okAll_guard (fun _ => ?_)
    refine okAll_guard (fun _ => ?_)
    refine okAll_guard (fun _ => ?_)
    refine okAll_guard (fun _ => ?_)
    refine okAll_guard (fun _ => ?_)
    refine okAll_guard (fun _ => ?_)
    refine okAll_guard (fun _ => ?_)
    refine okAll_guard (fun _ => ?_)
    split
    next s1 hs1 =>
      have h1 : s1.MemOk := SomeAll.of_eq (P := MemOk) hs1 (keeps_chargeTouch h)
      exact .ok h1
    · exact .error
  · exact .error
theorem memOk_agentRead {g step va len} : OkAll FstOk (agentRead g step va len s) :=
  okAll_foldlM (fun ⟨_, _⟩ ⟨_, _⟩ h1 => OkAll.bind (memOk_agentOne h1)
    (fun ⟨_, _⟩ h2 => okAll_guard (fun _ => .ok (memOk_homeRead h2)))) _ h
theorem memOk_agentWrite {g step va bs} : OkAll MemOk (agentWrite g step va bs s) :=
  okAll_foldlM (fun _ ⟨_, _⟩ h1 => OkAll.bind (memOk_agentOne h1) (fun ⟨_, _⟩ h2 => .ok (memOk_homePut h2))) _ h
theorem memOk_agentSw {g va f} : OkAll FstOk (agentSw g va f s) := by
  unfold agentSw
  refine okAll_guard (fun _ => ?_)
  refine OkAll.bind (memOk_agentOne h) (fun ⟨s1, _⟩ h1 => ?_)
  dsimp only
  refine okAll_guard (fun _ => ?_)
  split
  · exact .error
  · exact .ok (fstOk_mk (memOk_homePut (memOk_homeRead h1)))
theorem memOk_heldPerform {x : Held} : OkAll MemOk (x.perform s) := by
  unfold Held.perform
  split
  · exact memOk_agentWrite h
  · exact .map (memOk_agentSw h) fun _ hx => hx
theorem memOk_putHeld {x} : (putHeld s x).MemOk := by
  unfold putHeld
  refine memOk_ite ?_ ?_
  · exact h
  · split
    next hs1 => exact OkAll.of_eq hs1 (memOk_heldPerform h)
    · refine memOk_ite ?_ (memOk_supReport h)
      exact h
theorem memOk_tryHeld : (tryHeld s).MemOk := by
  unfold tryHeld
  refine foldl_keeps (P := MemOk) (fun _ _ h1 => memOk_putHeld h1) _ ?_
  exact h
theorem memOk_ctlWrite {c va bs t} : (ctlWrite c va bs t s).MemOk := memOk_putHeld h
end
end Sys2Proof.Machine
end

section
/-! SUPPORT. Memory stays canonical: system registers, traps and services. -/
namespace Sys2Proof.Machine
open Sys2Proof State

section
variable {s : State} (h : s.MemOk)
include h

theorem nextOk_execMfsys {o} : NextOk (execMfsys o s) := nextOk_issueOk h (fun _ h1 => memOk_ite h1 (memOk_writeG h1))
theorem memOk_sysWrite {gd n v} : (sysWrite gd n v s).MemOk :=
  memOk_ite (memOk_modCg _ h) (foldl_keeps (P := MemOk) (fun _ _ h1 => memOk_modGroup h1) _ h)
theorem nextOk_execMtsys {o} : NextOk (execMtsys o s) :=
  nextOk_issue h (fun _ h1 => okAll_ite (.ok h1) (OkAll.bind_any (fun _ => .ok (memOk_sysWrite h1))))
theorem nextOk_execTrap {o} : NextOk (execTrap o s) := nextOk_issue h (fun _ h1 => okAll_ite (.ok h1) .error)
theorem memOk_rteWait {gd} : (rteWait gd s).MemOk := memOk_modCg _ (memOk_endRun h)
theorem nextOk_execRte {o} : NextOk (execRte o s) :=
  nextOk_issueWith h (fun _ h1 => OkAll.bind_any (fun _ => okAll_ite (.ok h1)
    (OkAll.bind_any (fun _ => OkAll.bind_any (fun _ => .ok (memOk_handlerMeeting (memOk_rteWait h1)))))))
theorem memOk_replyG {d x acq} : (replyG d x acq s).MemOk := memOk_produce h
theorem nextOk_execSysc {o} : NextOk (execSysc o s) :=
  nextOk_issue h (fun _ h1 => OkAll.bind_any (fun _ => okAll_ite (.ok h1)
    (.ok (memOk_replyG (memOk_releaseActs (memOk_tick h1))))))
theorem nextOk_execErrq {o} : NextOk (execErrq o s) :=
  nextOk_issue h (fun _ h1 => OkAll.bind_any (fun _ => okAll_guard
    (fun _ => okAll_ite (.ok h1) (OkAll.bind (memOk_writeVa h1) (fun _ h2 => .ok (memOk_replyG (memOk_modCtx h2)))))))
theorem memOk_rcvRecord {w a} : OkAll MemOk (rcvRecord w a s) := by
  unfold rcvRecord
  refine okAll_foldlM (fun _ ⟨_, _⟩ h1 => ?_) _ h
  refine OkAll.bind (keeps_checkOne h1) (fun ⟨_, _⟩ h2 => ?_)
  split
  · exact .error
  next s3 _ hs1 =>
    have h3 : s3.MemOk := FstOk.of_eq hs1 h2
    exact okAll_ite (.ok h3) .error
theorem nextOk_execCkpt {o} : NextOk (execCkpt o s) := by
  unfold execCkpt
  refine nextOk_issue h (fun s1 h1 => ?_)
  refine OkAll.bind_any (fun _ => ?_)
  refine okAll_ite (.ok h1) ?_
  refine OkAll.bind_any (fun _ => ?_)
  refine okAll_guard (fun _ => ?_)
  refine OkAll.bind (memOk_rcvRecord h1) (fun s2 h2 => ?_)
  refine okAll_ite .error ?_
  extract_lets s3 s4
  have h4 : s4.MemOk := memOk_modCtx (memOk_releaseActs h2)
  refine OkAll.bind (memOk_writeVa h4) (fun s5 h5 => ?_)
  extract_lets s6
  have h6 : s6.MemOk := memOk_releaseActs h5
  clear_value s6
  refine .ok (memOk_produce ?_)
  exact h6
theorem nextOk_execRpset {o} : NextOk (execRpset o s) :=
  nextOk_issue h (fun _ h1 => OkAll.bind_any (fun _ => OkAll.bind_any (fun _ => okAll_ite (.ok h1) (.ok (memOk_modCtx h1)))))
theorem nextOk_execTlbinv {o} : NextOk (execTlbinv o s) := by
  unfold execTlbinv
  refine nextOk_issue h (fun _ h1 => ?_)
  refine OkAll.bind_any (fun _ => ?_)
  refine okAll_guard (fun _ => ?_)
  refine okAll_guard (fun _ => ?_)
  refine okAll_ite (.ok h1) ?_
  dsimp only
  exact .ok (memOk_modCg _ (memOk_startShoot h1))
theorem nextOk_execPgsplit {o} : NextOk (execPgsplit o s) := by
  unfold execPgsplit
  refine nextOk_issue h (fun _ h1 => ?_)
  refine OkAll.bind_any (fun _ => ?_)
  refine okAll_ite (.ok h1) ?_
  dsimp only
  split
  · exact .error
  · exact okAll_ite (.ok h1) (memOk_splinter h1)
theorem nextOk_execStest {o} : NextOk (execStest o s) :=
  nextOk_issue h (fun _ h1 => OkAll.bind_any (fun _ => OkAll.bind_any
    (fun _ => okAll_ite (.ok h1) (okAll_ite (.ok (memOk_replyG h1)) (.ok (memOk_produce (memOk_callTest h1)))))))
end
end Sys2Proof.Machine
end

section
/-! SUPPORT. Memory stays canonical: worlds' views. -/
namespace Sys2Proof.Machine
open Sys2Proof State

section
variable {s : State} (h : s.MemOk)
include h

theorem memOk_openView {crown c use parent quota index} : SomeAll FstOk (openView crown c use parent quota index s) := by
  unfold openView
  split
  · exact .none
  · split
    · exact .none
    next s1 _ hs1 =>
      have h1 : s1.MemOk := OkAll.of_eq (P := FstOk) hs1 (memOk_childArena h)
      exact .some (memOk_modView h1)
theorem memOk_uncow {c pg src} : (uncow c pg src s).MemOk := by
  unfold uncow
  refine memOk_ite h ?_
  refine memOk_ite (memOk_modView h) ?_
  split
  · exact memOk_ite (memOk_setLeafAt _ _ h) h
  · exact h
theorem memOk_dropWith {w fs} : (dropWith w fs s).MemOk := by
  unfold dropWith
  refine memOk_ite (memOk_dropTree h) ?_
  refine memOk_ite ?_ (foldl_keeps (P := MemOk) (fun _ _ h1 => memOk_freeFrame _ h1) _ h)
  exact h
theorem memOk_closeView {v frames} : (closeView v frames s).MemOk :=
  foldl_keeps (P := MemOk) (fun _ ⟨_, _⟩ h1 => memOk_uncow h1) _ (memOk_dropWith (memOk_modView h))
theorem memOk_discardView {n v} : (discardView n v s).MemOk := by
  induction n generalizing s v with
  | zero => exact h
  | succ n ih =>
    unfold discardView
    exact memOk_closeView (foldl_keeps (P := MemOk) (fun _ _ h1 => ih h1) _ h)
theorem memOk_flushFrames {fs} : (flushFrames fs s).MemOk := by
  unfold flushFrames
  refine foldl_keeps (P := MemOk) (fun s1 _ h1 => ?_) _ (foldl_keeps (P := MemOk)
    (fun s1 ⟨_, _⟩ h1 => memOk_modStudio (foldl_keeps (P := MemOk) (fun _ _ h2 => memOk_dropL1 _ _ (memOk_wbL1 _ _ h2)) _
    (memOk_mergeReds _ _ h1))) _ h)
  refine memOk_ite (memOk_wbL2 _ h1) ?_
  exact memOk_wbL2 _ h1
theorem memOk_splinterTo {c pg n} : (splinterTo c pg n s).MemOk := by
  induction n generalizing s with
  | zero => exact h
  | succ n ih =>
    unfold splinterTo
    split
    · refine memOk_ite h ?_
      split
      next s1 hs1 =>
        have h1 : s1.MemOk := OkAll.of_eq (P := MemOk) hs1 (memOk_splinter h)
        exact ih h1
      · exact h
    · exact h
theorem memOk_undoPage {c f g} : (undoPage c f g s).MemOk :=
  foldl_keeps (P := MemOk) (fun _ _ h1 => memOk_ite h1 (memOk_recordUndo _ _ h1)) _ h
theorem memOk_replaceUndo {c f g to' rcv} : (replaceUndo c f g to' rcv s).MemOk :=
  memOk_carryUndo _ _ (memOk_dropUndo (memOk_dropUndo (memOk_dropUndo (memOk_ite (memOk_undoPage h) h))))
theorem memOk_replaceBase {c pg leaf} : (replaceBase c pg leaf s).1.MemOk := by
  unfold replaceBase
  dsimp only
  split
  · exact memOk_setLeafAt _ _ (memOk_replaceUndo (memOk_splinterTo h))
  · exact memOk_copyLines _ _ (memOk_carryUndo _ _ (memOk_giveFrames _ _
      (memOk_freeFrame _ (memOk_replaceUndo (memOk_settleFrame _ (memOk_splinterTo h))))))
  · exact memOk_splinterTo h
omit h in
theorem memOk_commitPage {c u pg o x} (hx : FstOk x) : (commitPage c u pg o x).1.MemOk := by
  obtain ⟨s, ids, left⟩ := x
  unfold commitPage
  refine fstOk_ite hx ?_
  refine fstOk_ite ?_ ?_
  · split
    next s1 _ hs1 =>
      have h1 : s1.MemOk := FstOk.of_eq hs1 (memOk_replaceBase hx)
      dsimp only
      exact memOk_startShoot h1
    next s1 hs1 =>
      have h1 : s1.MemOk := FstOk.of_eq hs1 (memOk_replaceBase hx)
      exact h1
  · dsimp only
    split
    · exact memOk_startShoot (memOk_modView (memOk_addCharge _ _ hx))
    · exact memOk_modView (memOk_addCharge _ _ hx)
theorem memOk_appendEscapes {u es} : (appendEscapes u es s).MemOk := by
  unfold appendEscapes
  refine memOk_ite h ?_
  refine memOk_modView ?_
  split
  next s1 hs1 =>
    have h1 : s1.MemOk := OkAll.of_eq (P := MemOk) hs1 (memOk_queuePage h)
    exact h1
  · exact h
theorem memOk_commitPages {w : View} {u : Nat} {ids left : List Nat} :
    (w.overlay.foldl (fun x o => commitPage w.owner u o.1 o.2 x) (s, ids, left)).1.MemOk :=
  foldl_keeps (P := FstOk) (fun _ _ hx => memOk_commitPage hx) _ h
theorem memOk_landAll {ls : List Landing} : (ls.foldl landNow s).MemOk := foldl_keeps (P := MemOk) (fun _ _ h1 => memOk_landNow _ h1) _ h
theorem memOk_commitView {v} : (commitView v s).1.MemOk := by
  unfold commitView
  extract_lets w u fs mine s0 s1
  have h0 : s0.MemOk := by
    refine memOk_landAll ?_
    exact h
  have h1 : (w.overlay.foldl (fun x o => commitPage w.owner u o.1 o.2 x) (s1, [], [])).1.MemOk := memOk_commitPages (memOk_flushFrames h0)
  exact memOk_closeView (memOk_ite (memOk_appendEscapes h1) h1)
end
end Sys2Proof.Machine
end

section
/-! SUPPORT. Memory stays canonical: tasks and queues. -/
namespace Sys2Proof.Machine
open Sys2Proof State

section
variable {s : State} (h : s.MemOk)
include h

theorem memOk_modQueue {c q f} : (modQueue c q f s).MemOk := memOk_modCtx h
theorem memOk_setQword {c q off v} : (setQword c q off v s).MemOk := memOk_homePut h
theorem memOk_journalCtl {c kind subject value} : (journalCtl c kind subject value s).MemOk := by
  unfold journalCtl
  exact h
theorem memOk_setHead {c q v} : (setHead c q v s).MemOk := memOk_setQword (memOk_journalCtl h)
theorem memOk_noteTails {pa n} : (noteTails pa n s).MemOk :=
  foldl_keeps (P := MemOk) (fun _ _ h1 => foldl_keeps (P := MemOk) (fun _ _ h2 => memOk_ite (memOk_notify h2) h2) _ h1) _ h
theorem memOk_agentLine {c pc} : OkAll FstOk (agentLine c pc s) := by
  unfold agentLine
  dsimp only
  split
  · exact .ok h
  · refine okAll_ite (.ok h) ?_
    refine okAll_ite .error ?_
    refine okAll_ite (.ok h) ?_
    split
    · exact .ok h
    next s1 hs1 =>
      have h1 : s1.MemOk := SomeAll.of_eq hs1 (keeps_chargeTouch h)
      exact .ok (fstOk_mk (memOk_homeRead h1))
theorem memOk_readLaunch {c a} : OkAll FstOk (readLaunch c a s) := by
  unfold readLaunch
  refine okAll_ite (.ok h) ?_
  refine OkAll.bind (P := FstOk) ?_ fun ⟨s1, _⟩ h1 => ?_
  · dsimp only
    split
    next s1 _ hs1 =>
      have h1 : s1.MemOk := OkAll.of_eq (P := FstOk) hs1 (memOk_agentRead h)
      exact .ok h1
    · exact okAll_ite .error (.ok h)
  · split
    next s2 hs1 =>
      have h2 : s2.MemOk := FstOk.of_eq hs1 h1
      exact .ok h2
    next s2 _ hs1 =>
      have h2 : s2.MemOk := FstOk.of_eq hs1 h1
      refine okAll_ite (.ok h2) ?_
      dsimp only
      refine OkAll.bind (P := FstOk) ?_ fun ⟨s3, _⟩ h3 => ?_
      · split
        next s3 _ hs2 =>
          have h3 : s3.MemOk := OkAll.of_eq (P := FstOk) hs2 (memOk_agentRead h2)
          exact .ok h3
        · exact okAll_ite .error (.ok h2)
      · split
        next s4 hs2 =>
          have h4 : s4.MemOk := FstOk.of_eq hs2 h3
          exact .ok h4
        next s4 _ hs2 =>
          have h4 : s4.MemOk := FstOk.of_eq hs2 h3
          refine okAll_ite (.ok h4) ?_
          refine OkAll.bind (memOk_agentLine h4) (fun ⟨_, _⟩ h5 => ?_)
          split
          next s6 hs3 =>
            have h6 : s6.MemOk := FstOk.of_eq hs3 h5
            exact .ok h6
          next s6 _ hs3 =>
            have h6 : s6.MemOk := FstOk.of_eq hs3 h5
            exact .ok h6
theorem memOk_setTaskState {t st} : (setTaskState t st s).MemOk := by
  unfold setTaskState
  split
  · exact h
  · exact memOk_unless (memOk_modTask (memOk_journalCtl h)) (fun h1 => memOk_ctlWrite h1)
theorem memOk_completionWord {x} : (completionWord x s).MemOk := memOk_ite h (memOk_putHeld h)
theorem memOk_releaseAll {c} : (releaseAll c s).MemOk :=
  memOk_releaseSys _ (foldl_keeps (P := MemOk) (fun _ _ h1 => memOk_releaseL1 _ _ (memOk_mergeReds _ _ h1)) _
    (memOk_settleLanded h))
theorem memOk_dropPt {x} : (dropPt x s).MemOk := memOk_ite (memOk_dropTree h) h
theorem memOk_unpinRanges {x} : (unpinRanges x s).MemOk := by
  unfold unpinRanges
  refine memOk_ite h ?_
  refine foldl_keeps (P := MemOk) (fun _ ⟨_, _, _⟩ h1 => ?_) _ h
  refine foldl_keeps (P := MemOk) (fun _ _ h2 => ?_) _ h1
  split
  · exact memOk_ite h2 (memOk_setLeafAt _ _ h2)
  · exact h2
theorem memOk_dropTaskRegions {x} : (dropTaskRegions x s).MemOk := memOk_modCtx h
theorem memOk_closeTask {x} : (closeTask x s).MemOk :=
  memOk_completionWord (memOk_releaseAll (memOk_unpinRanges (memOk_dropTaskRegions (memOk_dropPt h))))
theorem memOk_endTask {n again t st} : (endTask n again t st s).MemOk := by
  induction n generalizing s again t st with
  | zero => exact h
  | succ n ih =>
    unfold endTask
    split
    · exact h
    · refine memOk_ite h ?_
      refine memOk_ite (memOk_modTask (memOk_ite h (memOk_closeTask h))) ?_
      refine memOk_ite (memOk_modTask (memOk_setTaskState (memOk_ite h (memOk_closeTask h)))) ?_
      refine foldl_keeps (P := MemOk) (fun _ _ h1 => ?_) _ (memOk_modTask (memOk_setTaskState (memOk_ite h (memOk_closeTask h))))
      split
      · exact memOk_ite (ih (memOk_report (memOk_modTask h1))) h1
      · exact h1
theorem memOk_failNow {t code addr} : (failNow t code addr s).MemOk := by
  unfold failNow
  split
  · exact h
  · exact memOk_endTask (memOk_report (memOk_modTask h))
theorem memOk_settleHeld : (settleHeld s).MemOk := by
  unfold settleHeld
  refine foldl_keeps (P := MemOk) (fun _ _ h1 => ?_) _ (memOk_tryHeld h)
  split
  · exact memOk_endTask h1
  · exact h1
theorem memOk_settleDeps {t} : (settleDeps t s).MemOk := by
  unfold settleDeps
  split
  · exact h
  · exact memOk_ite (memOk_failNow h) (memOk_ite (memOk_failNow h) h)
/-- The ticket's state and word once the entry has been taken. -/
theorem memOk_tookEntry {t u : BitVec 64} {c a : Nat} {bs : List (BitVec 8)} {xs : List Task} {p q : Prop} [Decidable p] [Decidable q] :
    OkAll FstOk (if p then pure (failNow t fHandle 0 (setTaskState t 1 (ctlWrite c a bs u { s with tasks := xs })), t)
      else if q then pure (setTaskState t 2 (setTaskState t 1 (ctlWrite c a bs u { s with tasks := xs })), t)
      else pure (settleDeps t (setTaskState t 3 (setTaskState t 1 (ctlWrite c a bs u { s with tasks := xs }))), t) :
      Except Raise (State × BitVec 64)) := by
  have h1 : (setTaskState t 1 (ctlWrite c a bs u { s with tasks := xs })).MemOk :=
    memOk_setTaskState (memOk_ctlWrite (s := { s with tasks := xs }) h)
  exact okAll_ite (.ok (memOk_failNow h1)) (okAll_ite (.ok (memOk_setTaskState h1)) (.ok (memOk_settleDeps (memOk_setTaskState h1))))
theorem memOk_takeEntry {c q i} : OkAll FstOk (takeEntry c q i s) := by
  unfold takeEntry
  refine OkAll.bind (P := FstOk) ?_ fun x1 h1 => ?_
  · split
    next hs1 => exact .ok (OkAll.of_eq hs1 (memOk_agentRead h))
    · exact okAll_ite .error (.ok h)
  · dsimp only
    refine okAll_ite ?_ ?_
    · exact OkAll.bind (memOk_readLaunch h1) fun x2 h2 => memOk_tookEntry (memOk_modQueue h2)
    · exact OkAll.bind (P := FstOk) (.ok h1) fun x2 h2 => memOk_tookEntry (memOk_modQueue h2)
theorem memOk_takeAll {c q n} : (takeAll c q n s).MemOk := by
  induction n generalizing s with
  | zero => exact h
  | succ n ih =>
    unfold takeAll
    refine memOk_ite h ?_
    split
    next s1 _ hs1 =>
      have h1 : s1.MemOk := OkAll.of_eq (P := FstOk) hs1 (memOk_takeEntry h)
      exact ih (memOk_setHead h1)
    · exact memOk_kick h
theorem memOk_submit {c q a hold d} : OkAll FstOk (submit c q a hold d s) := by
  unfold submit
  refine okAll_guard (fun _ => ?_)
  refine OkAll.bind (P := MemOk) ?_ (fun s1 h1 => OkAll.bind (memOk_takeEntry (memOk_setQword (memOk_modQueue h1)))
    (fun ⟨_, _⟩ h2 => .ok (memOk_setHead h2)))
  split
  next s1 hs1 =>
    have h1 : s1.MemOk := OkAll.of_eq (P := MemOk) hs1 (memOk_agentWrite (memOk_takeAll h))
    exact .ok h1
  · exact okAll_ite .error (.ok (memOk_supReport (memOk_takeAll h)))
theorem memOk_launchEffect {hold o} : OkAll MemOk (launchEffect hold o s) :=
  okAll_ite (.ok h) (okAll_ite (OkAll.bind_any (fun _ => .ok (memOk_replyG (memOk_modCc (memOk_signWrite h)))))
    (okAll_ite (OkAll.bind (OkAll.bind (memOk_checkLanes h) (fun ⟨_, _⟩ h1 => .ok h1))
    (fun _ h1 => OkAll.bind (memOk_addEscape h1) (fun _ h2 => .ok (memOk_replyG h2))))
    (OkAll.bind_any (fun _ => okAll_ite (.ok (memOk_replyG (memOk_modCc (memOk_signWrite (memOk_releaseActs h)))))
    (OkAll.bind (OkAll.bind (memOk_checkLanes h) (fun ⟨_, _⟩ h1 => .ok h1))
    (fun _ h1 => OkAll.bind (memOk_submit (memOk_releaseActs h1))
    (fun ⟨_, _⟩ h2 => .ok (memOk_replyG (memOk_modCc (memOk_signWrite h2))))))))))
theorem nextOk_execTlaunch {o} : NextOk (execTlaunch o s) := nextOk_issue h (fun _ h1 => memOk_launchEffect h1)
theorem nextOk_execTdep {o} : NextOk (execTdep o s) :=
  nextOk_issue h (fun _ h1 => okAll_ite (.ok h1) (okAll_guard
    (fun _ => OkAll.bind_any (fun _ => OkAll.bind_any (fun _ => .ok (memOk_modTask h1))))))
theorem nextOk_execTdepGo {o} : NextOk (execTdepGo o s) :=
  nextOk_issue h (fun _ h1 => okAll_ite (.ok h1) (okAll_guard
    (fun _ => OkAll.bind_any (fun _ => .ok (memOk_settleDeps (memOk_setTaskState h1))))))
theorem memOk_replyShare {d x} : (replyShare d x s).MemOk := by
  unfold replyShare
  dsimp only
  split
  · exact memOk_produce (memOk_modCc h)
  · exact memOk_modCc h
theorem nextOk_execWorknext {o} : NextOk (execWorknext o s) := by
  unfold execWorknext
  refine nextOk_issue h (fun _ h1 => ?_)
  refine okAll_ite (.ok h1) ?_
  refine okAll_guard (fun _ => ?_)
  refine okAll_ite (OkAll.bind_any (fun ⟨_, _⟩ => .ok (memOk_replyShare h1))) ?_
  split
  · exact OkAll.bind_any (fun _ => OkAll.bind_any (fun _ => .ok (memOk_replyShare (memOk_modTask (memOk_journalCtl h1)))))
  · exact .error
end
end Sys2Proof.Machine
end

section
/-! SUPPORT. Memory stays canonical: evictions, drops, sweeps, shoot-downs and migrations. -/
namespace Sys2Proof.Machine
open Sys2Proof State

section
variable {s : State} (h : s.MemOk)
include h

theorem nextOk_execRedMerge {k i} : NextOk (execRedMerge k i s) := by
  unfold execRedMerge
  refine .next ?_
  split
  · exact memOk_mergeReds _ _ h
  · exact h
theorem memOk_evict {u ln bad} : (evict u ln bad s).MemOk := by
  unfold evict
  split
  · split
    · exact memOk_ite (memOk_dropL1 _ _ (memOk_poisonLine h)) (memOk_dropL1 _ _ (memOk_wbL1 _ _ h))
    · exact memOk_modStudio h
  · exact memOk_modStudio h
  · exact memOk_modStudio h
  · split
    · refine memOk_ite h ?_
      refine memOk_ite (memOk_poisonLine h) ?_
      exact memOk_wbL2 _ h
    · exact h
  · exact h
theorem nextOk_execCacheEviction {u ln bad} : NextOk (execCacheEviction u ln bad s) := .next (memOk_evict h)
theorem memOk_sweepStudio {k a g} : (sweepStudio k a g s).MemOk :=
  foldl_keeps (P := MemOk) (fun _ _ h1 => memOk_fireIn _ _ h1) _ (memOk_modStudio h)
theorem memOk_sweepSlice {j a g} : (sweepSlice j a g s).MemOk := by
  unfold sweepSlice
  exact h
theorem memOk_sweepDie {d a g} : (sweepDie d a g s).MemOk := by
  unfold sweepDie
  exact h
theorem memOk_sweepUnit {u a g} : (sweepUnit u a g s).MemOk :=
  memOk_ite (memOk_sweepStudio h) (memOk_ite (memOk_sweepSlice h) (memOk_ite (memOk_sweepDie h) h))
theorem memOk_applyDrop {u a} : (applyDrop u a s).MemOk := by
  unfold applyDrop
  split
  · exact h
  · refine memOk_sweepUnit ?_
    exact h
theorem nextOk_execDropBroadcastApply {u a} : NextOk (execDropBroadcastApply u a s) := .next (memOk_applyDrop h)
theorem memOk_shootStudio {k p} : (shootStudio k p s).MemOk := by
  unfold shootStudio
  refine memOk_modStudio ?_
  refine foldl_keeps (P := MemOk) (fun s1 _ h1 => memOk_wbL1 _ _ h1) _ ?_
  refine memOk_mergeReds _ _ ?_
  refine foldl_keeps (P := MemOk) (fun s1 _ h1 => memOk_landNow _ h1) _ ?_
  exact h
theorem memOk_shootPages {ps} : (shootPages ps s).MemOk := by
  unfold shootPages
  exact foldl_keeps (P := MemOk) (fun _ _ h1 => memOk_shootStudio h1) _ h
theorem memOk_giveBack {c x} : (giveBack c s x).MemOk := by
  unfold giveBack
  exact memOk_ite (memOk_modArena h) h
theorem memOk_returnCharge {w} : (returnCharge w s).MemOk := by
  unfold returnCharge
  exact memOk_ite (foldl_keeps (P := MemOk) (fun _ ⟨_, _⟩ h1 => memOk_giveBack h1) _ h) h
theorem memOk_finishSweep {w} : (finishSweep w s).MemOk := by
  unfold finishSweep
  refine memOk_returnCharge ?_
  refine foldl_keeps (P := MemOk) (fun s1 _ h1 => memOk_freeFrame _ h1) _ ?_
  refine memOk_shootPages (foldl_keeps (P := MemOk) (fun s1 _ h1 => memOk_ite h1 (memOk_setLeafAt _ _ h1)) _ ?_)
  exact h
theorem nextOk_execSweepComplete {a g} : NextOk (execSweepComplete a g s) := by
  unfold execSweepComplete
  refine .next ?_
  split
  · exact memOk_ite (memOk_finishSweep h) h
  · exact h
theorem memOk_applyUntil {a g u} : (applyUntil a g s u).MemOk :=
  foldl_keeps (P := MemOk) (fun _ _ h1 => memOk_ite (memOk_applyDrop h1) h1) _ h
theorem memOk_applyUntils {us a g} : (List.foldl (applyUntil a g) s us).MemOk :=
  foldl_keeps (P := MemOk) (fun _ _ h1 => memOk_applyUntil h1) us h
/- `MemOk` is kept folded while the `match` is taken apart: unfolded, it would have the kernel run the fold over every unit. -/
theorem memOk_settleDrops {c} : (settleDrops c s).MemOk := by
  unfold settleDrops
  refine foldl_keeps (P := MemOk) (fun s1 w h1 => ?_) _ h
  have h2 := memOk_applyUntils h1 (us := allUnits) (a := w.arena) (g := w.gen)
  obtain ⟨P, hP⟩ : ∃ P : State → Prop, P = MemOk := ⟨_, rfl⟩
  rw [← hP] at h2 ⊢
  dsimp only
  split
  · rw [hP] at h2 ⊢
    exact memOk_finishSweep h2
  · exact h2
theorem memOk_sealUnit {u a g} : (sealUnit u a g s).MemOk :=
  memOk_ite (foldl_keeps (P := MemOk) (fun _ _ h1 => memOk_wbL1 _ _ h1) _ (memOk_mergeReds _ _ h))
    (memOk_ite (foldl_keeps (P := MemOk) (fun _ _ h1 => memOk_wbL2 _ h1) _ h) h)
theorem nextOk_execSealBroadcastApply {u a} : NextOk (execSealBroadcastApply u a s) := by
  unfold execSealBroadcastApply
  refine .next ?_
  split
  · exact h
  · refine memOk_ite h ?_
    refine memOk_ite h ?_
    refine memOk_ite h ?_
    refine memOk_sealUnit ?_
    exact h
theorem memOk_unlistPages {ms v} : (unlistPages ms v s).MemOk := by
  unfold unlistPages
  exact h
theorem memOk_putLeaf {a v} : (putLeaf a v s).MemOk := memOk_settleHeld (memOk_unlistPages (memOk_setLeafAt _ _ h))
theorem memOk_endShoot {w} : (endShoot w s).MemOk := by
  unfold endShoot
  refine foldl_keeps (P := MemOk) (fun _ _ h1 => memOk_freeFrame _ h1) _ ?_
  exact h
theorem memOk_ackShoot {u w} : (ackShoot u w s).MemOk := by
  unfold ackShoot
  refine memOk_ite ?_ ?_
  · refine memOk_endShoot ?_
    refine memOk_ite (memOk_shootStudio h) ?_
    exact h
  · refine memOk_ite (memOk_shootStudio h) ?_
    exact h
theorem nextOk_execTlbShootdownAck {u i} : NextOk (execTlbShootdownAck u i s) := by
  unfold execTlbShootdownAck
  refine .next ?_
  split
  · exact memOk_ite (memOk_ackShoot h) h
  · exact h
theorem memOk_finishShoot {id} : (finishShoot id s).MemOk := by
  unfold finishShoot
  split
  · refine foldl_keeps (P := MemOk) (fun _ _ h1 => ?_) _ h
    split
    · exact memOk_ackShoot h1
    · exact h1
  · exact h
theorem memOk_partLeaf {p} : SomeAll FstOk (partLeaf p s) := by
  unfold partLeaf
  dsimp only
  split
  · exact .some h
  · refine someAll_ite .none ?_
    split
    next s1 hs1 =>
      have h1 : s1.MemOk := OkAll.of_eq (P := MemOk) hs1 (memOk_splinter h)
      exact .some h1
    · exact .none
theorem memOk_shootLeaf {ms x} : (shootLeaf ms x s).MemOk := by
  unfold shootLeaf
  refine foldl_keeps (P := MemOk) (fun s1 m h1 => ?_) _ h
  exact memOk_startShoot (c := m.1) (base := m.2.1) (len := 2 ^ m.2.2) (frames := []) h1
theorem nextOk_execMigrationBegin {p} : NextOk (execMigrationBegin p s) := by
  unfold execMigrationBegin
  refine .next ?_
  refine memOk_ite h ?_
  refine memOk_ite (memOk_modModule h) ?_
  split
  next s1 _ hs1 =>
    have h1 : s1.MemOk := SomeAll.of_eq (P := FstOk) hs1 (memOk_partLeaf h)
    exact memOk_when (memOk_setLeafAt _ _ (memOk_modModule h1)) (fun h2 => memOk_shootLeaf h2)
  · exact h
theorem nextOk_execMigrationEnd {at' fate} : NextOk (execMigrationEnd at' fate s) := by
  unfold execMigrationEnd
  refine .next ?_
  refine memOk_ite h ?_
  split
  · exact memOk_settleHeld (memOk_setLeafAt _ _ h)
  · exact memOk_settleHeld (memOk_setLeafAt _ _ h)
  · exact memOk_ite h (memOk_settleHeld (memOk_setLeafAt _ _
      (foldl_keeps (P := MemOk) (fun _ _ h1 => memOk_moveFrame _ _ h1) _ h)))
theorem nextOk_execLeafRewrite {p v} : NextOk (execLeafRewrite p v s) := by
  unfold execLeafRewrite
  refine .next ?_
  split
  · exact h
  next s1 _ hs1 =>
    have h1 : s1.MemOk := SomeAll.of_eq (P := FstOk) hs1 (memOk_partLeaf h)
    exact memOk_ite (memOk_shootLeaf (memOk_putLeaf h1)) (memOk_shootLeaf (memOk_putLeaf h1))
end
end Sys2Proof.Machine
end

section
/-! SUPPORT. Memory stays canonical: walks, rings and the torus. -/
namespace Sys2Proof.Machine
open Sys2Proof State

section
variable {s : State} (h : s.MemOk)
include h

theorem memOk_walkValue {w k shape g p} : OkAll FstOk (walkValue w k shape g p s) :=
  okAll_ite (.ok h) (okAll_ite .error (OkAll.bind (memOk_readVa h) (fun ⟨_, _⟩ h1 => .ok h1)))
theorem memOk_walkEntry {w k shape g} : OkAll FstOk (walkEntry w k shape g s) :=
  okAll_foldlM (fun ⟨_, _⟩ _ h1 => OkAll.bind (memOk_walkValue h1) (fun ⟨_, _⟩ h2 => .ok h2)) _ h
theorem memOk_modWalk {n i f} : (modWalk n i f s).MemOk := memOk_modCell h
theorem memOk_stopWalk {n i q y} : (stopWalk n i q y s).MemOk := memOk_modWalk (memOk_modCell h)
theorem memOk_pushWalk {n i} : (pushWalk n i s).MemOk := by
  unfold pushWalk
  dsimp only
  split
  · exact h
  · refine memOk_ite h ?_
    split
    · exact memOk_ite h (memOk_stopWalk h)
    next s1 _ hs1 =>
      have h1 : s1.MemOk := OkAll.of_eq (P := FstOk) hs1 (memOk_walkEntry h)
      exact memOk_modWalk (memOk_modGroup h1)
theorem nextOk_execWalkPush {n a} : NextOk (execWalkPush n a s) := by
  unfold execWalkPush
  refine .next ?_
  refine memOk_ite h ?_
  split
  · exact memOk_pushWalk h
  · exact memOk_ite h (memOk_modStudio h)
  · exact memOk_ite h (memOk_pfLane h)
theorem memOk_modMsg {n g i f} : (modMsg n g i f s).MemOk := memOk_modGroup h
theorem memOk_dropMsg {n g i m} : (dropMsg n g i m s).MemOk := memOk_modStudio (memOk_modGroup h)
theorem memOk_landMsg {d r m} : (landMsg d r m s).MemOk := memOk_when (memOk_modCell (memOk_modCell h))
  (fun h1 => memOk_landScratch h1)
theorem memOk_refuseMsg {n g i m} : (refuseMsg n g i m s).MemOk := memOk_lateFault _ _ (memOk_dropMsg h)
theorem nextOk_execRingDelivery {n g i} : NextOk (execRingDelivery n g i s) := by
  unfold execRingDelivery
  refine .next ?_
  split
  · exact h
  · split
    · exact h
    · refine memOk_ite h ?_
      refine memOk_ite ?_ ?_
      · refine memOk_ite ?_ h
        refine memOk_modMsg ?_
        exact h
      · dsimp only
        split
        · refine memOk_modMsg ?_
          exact h
        · refine memOk_ite ?_ ?_
          · refine memOk_modMsg ?_
            exact h
          · refine memOk_ite ?_ ?_
            · refine memOk_refuseMsg ?_
              exact h
            · refine memOk_ite ?_ ?_
              · refine memOk_modMsg ?_
                exact h
              · refine memOk_dropMsg ?_
                refine memOk_landMsg ?_
                exact h
theorem nextOk_execRingRetry {n g i} : NextOk (execRingRetry n g i s) := by
  unfold execRingRetry
  refine .next ?_
  split
  · exact h
  · refine memOk_ite h ?_
    split
    · exact h
    · exact memOk_ite h (memOk_sendPacket (memOk_modMsg h))
theorem nextOk_execTorusHop {i} : NextOk (execTorusHop i s) := by
  unfold execTorusHop
  refine .next ?_
  split
  · exact h
  · refine memOk_ite h ?_
    refine memOk_ite ?_ ?_
    · exact h
    · dsimp only
      exact h
end
end Sys2Proof.Machine
end

section
/-! SUPPORT. Memory stays canonical: save areas. -/
namespace Sys2Proof.Machine
open Sys2Proof State

section
variable {s : State} (h : s.MemOk)
include h

theorem memOk_areaFrames {a n} : OkAll FstOk (areaFrames a n s) := by
  unfold areaFrames
  split
  · exact .error
  next s1 hs1 =>
    have h1 : s1.MemOk := SomeAll.of_eq hs1 (keeps_chargePages h)
    split
    · exact .error
    next hs2 => exact .ok (SomeAll.of_eq hs2 (keeps_takeMany h1))
theorem memOk_giveArea {n} : OkAll MemOk (giveArea n s) :=
  okAll_ite (.ok h) (OkAll.bind (memOk_areaFrames h) (fun ⟨_, _⟩ h1 => .ok (memOk_modCell h1)))
theorem memOk_dropArea {n} : (dropArea n s).MemOk :=
  memOk_ite h (memOk_modCell (foldl_keeps (P := MemOk) (fun _ _ h1 => memOk_freeFrame _ h1) _ (memOk_subCharge _ _ h)))
end
end Sys2Proof.Machine
end

section
/-! SUPPORT. Memory stays canonical: world instructions. -/
namespace Sys2Proof.Machine
open Sys2Proof State

section
variable {s : State} (h : s.MemOk)
include h

theorem memOk_openRivals {crown c u quota n k} : SomeAll FstOk (openRivals crown c u quota n k s) := by
  induction n generalizing s k with
  | zero => exact .some h
  | succ n ih =>
    unfold openRivals
    split
    · exact .none
    next s1 _ hs1 =>
      have h1 : s1.MemOk := SomeAll.of_eq (P := FstOk) hs1 (memOk_openView h)
      exact SomeAll.map (P := FstOk) (ih h1) (fun ⟨_, _⟩ h2 => h2)
theorem memOk_startFork {o vs} : (startFork o vs s).MemOk := memOk_modCc (memOk_produce h)
theorem nextOk_execForkw {o} : NextOk (execForkw o s) := by
  unfold execForkw
  refine nextOk_issue h (fun _ h1 => ?_)
  refine OkAll.bind_any (fun _ => ?_)
  refine okAll_ite (.ok h1) ?_
  refine okAll_guard (fun _ => ?_)
  refine OkAll.bind_any (fun _ => ?_)
  refine OkAll.bind_any (fun _ => ?_)
  split
  next s2 _ hs1 =>
    have h2 : s2.MemOk := SomeAll.of_eq (P := FstOk) hs1 (someAll_ite .none (memOk_openRivals h1))
    exact .ok (memOk_startFork h2)
  · exact memOk_answer h1 .error
theorem nextOk_execWend {o} : NextOk (execWend o s) :=
  nextOk_issue h (fun _ h1 => okAll_ite (.ok h1) (OkAll.bind_any
    (fun _ => okAll_ite (.ok h1) (.ok (memOk_modCc (memOk_modView h1))))))
theorem memOk_escAccess {e a f} (hf : ∀ l s, s.MemOk → OkAll MemOk (f l s)) : OkAll MemOk (escAccess e a s f) := by
  unfold escAccess
  refine OkAll.bind (memOk_checkLanes h) (fun ⟨_, _⟩ h1 => ?_)
  dsimp only
  split
  · exact .ok h1
  · exact hf _ _ (memOk_when (memOk_enterScope h1) (fun h2 => memOk_releaseFor h2))
theorem memOk_performEsc {e} : OkAll MemOk (performEsc e s) := by
  unfold performEsc
  dsimp only
  split
  · exact memOk_escAccess h (fun _ s1 h1 => memOk_storeLane h1)
  · exact memOk_escAccess h (fun _ s1 h1 => memOk_redLane h1)
  · refine memOk_escAccess h (fun _ s1 h1 => ?_)
    split
    · exact memOk_swAll h1
    · exact .ok h1
  · refine memOk_escAccess h (fun _ s1 h1 => ?_)
    split
    · exact memOk_swAll h1
    · exact .ok h1
  · refine memOk_escAccess h (fun _ s1 h1 => ?_)
    split
    · exact memOk_swAll h1
    · exact .ok h1
  · exact okAll_ite .error (.ok (memOk_sendMessage (memOk_releaseActs h)))
  · exact OkAll.bind_any (fun _ => okAll_ite (.ok (memOk_releaseActs h))
      (OkAll.bind (memOk_checkLanes (memOk_releaseActs h)) (fun ⟨s1, _⟩ h1 => OkAll.bind (memOk_submit h1)
      (fun ⟨_, _⟩ h2 => .ok h2))))
theorem memOk_performEscs {l} : (performEscs l s).1.MemOk := by
  induction l generalizing s with
  | nil => exact h
  | cons x r ih =>
    unfold performEscs
    split
    next s1 hs1 =>
      have h1 : s1.MemOk := OkAll.of_eq (P := MemOk) hs1 (memOk_performEsc h)
      exact ih h1
    · exact h
theorem memOk_discardRivals {w p} : (discardRivals w p s).MemOk := foldl_keeps (P := MemOk)
  (fun _ ⟨_, _⟩ h1 => memOk_discardView h1) _ h
theorem memOk_resolveWorld : (resolveWorld s).MemOk := memOk_modCc h
theorem memOk_performLeft {o k es} : (performLeft o k es s).1.MemOk := by
  unfold performLeft
  split
  next s1 _ _ hs1 =>
    have h1 : s1.MemOk := FstOk.of_eq hs1 (memOk_performEscs h)
    exact memOk_ite (memOk_modCc h1) (memOk_resolveWorld h1)
  next s1 _ hs1 =>
    have h1 : s1.MemOk := FstOk.of_eq hs1 (memOk_performEscs h)
    exact memOk_produceG (memOk_resolveWorld h1)
theorem memOk_chooseRival {o w k} : OkAll FstOk (chooseRival o w k s) := by
  unfold chooseRival
  split
  · exact .ok (memOk_performLeft h)
  · refine OkAll.bind_any (fun _ => ?_)
    dsimp only
    exact .ok (memOk_performLeft (memOk_releaseActs (foldl_keeps (P := MemOk) (fun _ _ h1 => memOk_finishShoot h1) _
      (memOk_commitView (memOk_discardRivals h)))))
theorem nextOk_issueResolve {i body} (hb : ∀ s, s.MemOk → OkAll FstOk (body s)) : NextOk (issueResolve i s body) := by
  unfold issueResolve
  split
  · exact .next (memOk_raise h)
  next s1 _ hs1 =>
    have h1 : s1.MemOk := OkAll.of_eq (P := FstOk) hs1 (OkAll.bind_any (fun _ => hb _ h))
    exact .next (memOk_raise h1)
  next s1 hs1 =>
    have h1 : s1.MemOk := OkAll.of_eq (P := FstOk) hs1 (OkAll.bind_any (fun _ => hb _ h))
    exact .next (memOk_advance _ _ h1)
theorem nextOk_execChoose {o} : NextOk (execChoose o s) := by
  unfold execChoose
  refine nextOk_issueResolve h (fun _ h1 => ?_)
  refine okAll_ite (.ok h1) ?_
  split
  · exact OkAll.bind_any (fun _ => memOk_chooseRival h1)
  · exact .error
theorem nextOk_execChooseMin {o} : NextOk (execChooseMin o s) := by
  unfold execChooseMin
  refine nextOk_issueResolve h (fun _ h1 => ?_)
  refine okAll_ite (.ok h1) ?_
  split
  · exact memOk_chooseRival h1
  · exact .error
theorem nextOk_execWabort {o} : NextOk (execWabort o s) := by
  unfold execWabort
  refine nextOk_issue h (fun _ h1 => ?_)
  refine okAll_ite (.ok h1) ?_
  split
  · exact .ok (memOk_resolveWorld (memOk_releaseActs (memOk_discardRivals h1)))
  · exact .error
theorem nextOk_execWquery {o} : NextOk (execWquery o s) := by
  unfold execWquery
  refine nextOk_issue h (fun _ h1 => ?_)
  refine OkAll.bind_any (fun _ => ?_)
  refine okAll_ite (.ok h1) ?_
  split
  · exact OkAll.bind_any (fun _ => .ok (memOk_produceG h1))
  · exact .error
end
end Sys2Proof.Machine
end

section
/-! SUPPORT. Memory stays canonical: queues served and ranges made ready. -/
namespace Sys2Proof.Machine
open Sys2Proof State

section
variable {s : State} (h : s.MemOk)
include h

theorem nextOk_execKickWrite {c q} : NextOk (execKickWrite c q s) := .next (memOk_ite (memOk_kick h) h)
theorem memOk_serveQueue {c q} : (serveQueue c q s).MemOk := by
  unfold serveQueue
  exact memOk_ite (memOk_disableQueue h) (memOk_ite h (memOk_takeAll h))
theorem nextOk_execServeKick {c q} : NextOk (execServeKick c q s) := by
  unfold execServeKick
  exact .next (memOk_ite h (memOk_serveQueue (memOk_acquireSys _ (memOk_modModule (memOk_settleHeld h)))))
theorem memOk_resumeFrom {r} : (resumeFrom s r).MemOk := by
  unfold resumeFrom
  split
  · exact memOk_modTask h
  · exact memOk_ite (memOk_setQword h) h
  · exact memOk_modTask h
theorem nextOk_execControllerTakeover {pair} : NextOk (execControllerTakeover pair s) := by
  unfold execControllerTakeover
  refine .next ?_
  refine memOk_ite h ?_
  refine foldl_keeps (P := MemOk) (fun s1 _ h1 => foldl_keeps (P := MemOk) (fun _ _ h2 => memOk_ite (memOk_kick h2) h2) _ h1) _ ?_
  refine memOk_modModule ?_
  refine foldl_keeps (P := MemOk) (fun s1 _ h1 => memOk_resumeFrom h1) _ ?_
  exact h
theorem memOk_chargeAbsent {c ps} : OkAll MemOk (chargeAbsent c ps s) := by
  unfold chargeAbsent
  refine okAll_foldlM (fun _ _ h1 => ?_) _ h
  split
  · refine okAll_ite (.ok h1) ?_
    refine okAll_ite .error ?_
    split
    next s2 hs1 =>
      have h2 : s2.MemOk := SomeAll.of_eq (P := MemOk) hs1 (keeps_chargeTouch h1)
      exact .ok h2
    · exact .error
  · exact .ok h1
/-- The state in which ranges are ready, or wait, keeps memory canonical. -/
inductive ReadyOk : Ready → Prop
  | ready {t : State} (h : t.MemOk) : ReadyOk (.ready t)
  | waits {t : State} (h : t.MemOk) : ReadyOk (.waits t)
  | refused {code : BitVec 8} {addr : Nat} : ReadyOk (.refused code addr)
omit h in
theorem readyOk_ite {c : Prop} [Decidable c] {x y : Ready} (hx : ReadyOk x) (hy : ReadyOk y) : ReadyOk (if c then x else y) := by
  split
  · exact hx
  · exact hy
theorem readyOk_readyPages {c pin l w} : ReadyOk (readyPages c pin l s w) := by
  induction l generalizing s w with
  | nil => exact readyOk_ite (.waits h) (.ready h)
  | cons va r ih =>
    unfold readyPages
    split
    · exact .refused
    · dsimp only
      split
      · exact readyOk_ite (ih (memOk_setLeafAt _ _ (memOk_setLeafAt _ _ h))) (ih (memOk_setLeafAt _ _ h))
      · exact readyOk_ite (ih (memOk_setLeafAt _ _ h)) (ih h)
theorem readyOk_readySeal {c ps} : ReadyOk (readySeal c ps s) :=
  readyOk_ite (.ready h) (readyOk_ite .refused (readyOk_ite (.waits h) (readyOk_ite (.waits h) (.ready h))))
theorem readyOk_readyAll {c l w} : ReadyOk (readyAll c l s w) := by
  induction l generalizing s w with
  | nil => exact readyOk_ite (.waits h) (.ready h)
  | cons r rs ih =>
    have h1 : ReadyOk (match chargeAbsent c (rangePages r) s with
        | .ok s => readyPages c (r.2.2 == 4) (rangePages r) s false
        | .error y => .refused y.1 y.2) := by
      split
      next hs1 => exact readyOk_readyPages (OkAll.of_eq hs1 (memOk_chargeAbsent h))
      · exact .refused
    unfold readyAll
    have h2 := readyOk_ite (c := r.2.2 = 3) (readyOk_readySeal h (c := c) (ps := rangePages r)) h1
    dsimp only
    generalize (ite (r.2.2 = 3) _ _) = x at h2 ⊢
    cases h2 with
    | ready h3 => exact ih h3
    | waits h3 => exact ih h3
    | refused => exact .refused
theorem nextOk_execReadyRanges {t} : NextOk (execReadyRanges t s) := by
  unfold execReadyRanges
  refine .next ?_
  split
  · exact h
  next x _ =>
    refine memOk_ite h ?_
    dsimp only
    have h1 : (if x.state = 3 then setTaskState t 4 s else s).MemOk := memOk_ite (memOk_setTaskState h) h
    have h2 := readyOk_readyAll h1 (c := x.ctx) (l := x.lrec.ranges) (w := false)
    split
    · exact memOk_failNow h1
    · generalize readyAll x.ctx x.lrec.ranges _ false = y at h2 ⊢
      cases h2 with
      | ready h3 => exact memOk_setTaskState h3
      | waits h3 => exact h3
      | refused => exact memOk_failNow h1
theorem memOk_movePointer {x} : (movePointer x s).MemOk := memOk_modModule h
theorem memOk_fillPalSave {o k b c zs} : (fillPalSave o k b c zs s).MemOk := by
  unfold fillPalSave
  split
  · exact h
  · exact memOk_writePages _ _ _ (memOk_modCtx h)
theorem memOk_savePalette {k} : (savePalette k s).MemOk := by
  unfold savePalette
  dsimp only
  split
  · exact memOk_fillPalSave h
  · exact h
theorem memOk_loadPalette {k j c} : (loadPalette k j c s).MemOk := memOk_modStudio h
theorem memOk_changeOwner {k c} : (changeOwner k c s).MemOk := memOk_ite h (memOk_loadPalette (memOk_savePalette h))
theorem memOk_chargePalette {k c pal} : OkAll MemOk (chargePalette k c pal s) :=
  okAll_ite (.ok h) (OkAll.bind (memOk_areaFrames h) (fun ⟨_, _⟩ h1 => .ok (memOk_modCtx h1)))
theorem memOk_takeSlots {n} : (takeSlots n s).MemOk := foldl_keeps (P := MemOk)
  (fun _ _ h1 => memOk_modGroup (memOk_modStudio h1)) _ h
theorem memOk_leaveStudio {n} : (leaveStudio n s).MemOk := memOk_modStudio h
theorem memOk_removeCell {n} : (removeCell n s).MemOk := by
  have h1 : (dropArea n (if (s.cell n).place = .resident then leaveStudio n s else s)).MemOk :=
    memOk_dropArea (memOk_ite (memOk_leaveStudio h) h)
  unfold removeCell
  dsimp only
  generalize dropArea n (if (s.cell n).place = .resident then leaveStudio n s else s) = s1 at h1
  split
  · exact h1
  · refine memOk_settleZaps ?_
    exact h1
theorem memOk_releaseCell {n} : (releaseCell n s).MemOk := foldl_keeps (P := MemOk) (fun _ _ h1 => memOk_releaseActs h1) _ h
theorem memOk_acquireCell {n} : (acquireCell n s).MemOk := memOk_acquireActs h
theorem memOk_noteChains {n} : (noteChains n s).MemOk := memOk_modCell h
theorem memOk_stowCell {n f} : (stowCell n f s).MemOk :=
  memOk_writeArea _ (memOk_modCell (memOk_leaveStudio (memOk_releaseCell (memOk_noteChains (memOk_settleLanded h)))))
theorem memOk_saveCell {n} : (saveCell n s).MemOk := memOk_stowCell h
theorem memOk_placeCell {n k} : (placeCell n k s).MemOk :=
  memOk_reloadChains (memOk_acquireCell (memOk_modStudio (memOk_takeSlots (memOk_modCell (memOk_changeOwner (memOk_tick h))))))
end
end Sys2Proof.Machine
end

section
/-! SUPPORT. Memory stays canonical: cells admitted, preempted, restored and retired. -/
namespace Sys2Proof.Machine
open Sys2Proof State

section
variable {s : State} (h : s.MemOk)
include h

theorem memOk_startWalks {n} : OkAll MemOk (startWalks n s) := by
  unfold startWalks
  refine okAll_ite (.ok h) ?_
  refine okAll_ite (.ok (memOk_modCell h)) ?_
  refine OkAll.bind (P := FstOk) ?_ fun ⟨s1, _⟩ h1 => ?_
  · dsimp only
    split
    next s1 _ hs1 =>
      have h1 : s1.MemOk := OkAll.of_eq (P := FstOk) hs1 (memOk_readVa h)
      exact .ok h1
    · exact okAll_ite .error (.ok h)
  · split
    next s2 hs1 =>
      have h2 : s2.MemOk := FstOk.of_eq hs1 h1
      exact .ok (memOk_modCell h2)
    next s2 _ hs1 =>
      have h2 : s2.MemOk := FstOk.of_eq hs1 h1
      refine okAll_ite (.ok (memOk_modCell h2)) ?_
      refine OkAll.bind (P := FstOk) ?_ fun ⟨s3, _⟩ h3 => ?_
      · dsimp only
        split
        next s3 _ hs2 =>
          have h3 : s3.MemOk := OkAll.of_eq (P := FstOk) hs2 (memOk_readVa h2)
          exact .ok h3
        · exact okAll_ite .error (.ok h2)
      · split
        next s4 hs2 =>
          have h4 : s4.MemOk := FstOk.of_eq hs2 h3
          exact .ok (memOk_modCell h4)
        next s4 _ hs2 =>
          have h4 : s4.MemOk := FstOk.of_eq hs2 h3
          split
          · exact .ok (memOk_modCell h4)
          · exact .ok (memOk_modCell h4)
theorem memOk_mapFor {c a charged va n} : OkAll MemOk (mapFor c a charged va n s) := by
  unfold mapFor
  refine okAll_ite .error ?_
  split
  next s1 hs1 =>
    have h1 : s1.MemOk := SomeAll.of_eq (P := MemOk) hs1 (memOk_mapPages h)
    exact .ok (memOk_listPages h1)
  · exact .error
theorem memOk_threadPages {c a base gs} : OkAll MemOk (threadPages c a base gs s) := by
  unfold threadPages
  refine okAll_foldlM (fun _ _ h1 => ?_) _ h
  refine okAll_ite ?_ (memOk_mapFor h1)
  refine .ok ?_
  refine foldl_keeps (P := MemOk) (fun _ _ h2 => ?_) _ h1
  split
  · exact memOk_ite (memOk_freeFill _ h2) h2
  · exact h2
theorem memOk_installCell {n k x c trapsave} : OkAll MemOk (installCell n k x c trapsave s) := by
  unfold installCell
  refine memOk_startWalks ?_
  refine memOk_placeCell ?_
  refine memOk_modCell ?_
  exact h
theorem memOk_shadowViews {x} : SomeAll FstOk (shadowViews x s) :=
  someAll_ite (SomeAll.bind_any (fun _ => SomeAll.bind (memOk_openView h)
    (fun ⟨_, _⟩ h1 => SomeAll.bind (memOk_openView h1) (fun ⟨_, _⟩ h2 => .some h2))))
    (SomeAll.bind (memOk_openView h) (fun ⟨_, _⟩ h1 => SomeAll.bind (memOk_openView h1) (fun ⟨_, _⟩ h2 => .some h2)))
theorem memOk_installPair {n k x c draw ts rest} : OkAll MemOk (installPair n k x c draw ts rest s) := by
  unfold installPair
  refine okAll_ite (memOk_installCell h) ?_
  split
  · exact memOk_installCell h
  next s1 _ _ hs1 =>
    have h1 : s1.MemOk := SomeAll.of_eq (P := FstOk) hs1 (memOk_shadowViews h)
    refine OkAll.bind (memOk_installCell h1) (fun _ h2 => ?_)
    split
    · exact memOk_installCell h
    · exact OkAll.bind (memOk_chargePalette h2) (fun _ h3 => OkAll.bind (memOk_installCell h3) (fun _ h4 => memOk_giveArea h4))
theorem memOk_admitCell {x i k ptbase ts draw rest} : OkAll MemOk (admitCell x i k ptbase ts draw rest s) := by
  unfold admitCell
  refine okAll_guard (fun _ => ?_)
  dsimp only
  split
  · refine OkAll.bind (memOk_chargePalette h) (fun _ h1 => ?_)
    split
    next s2 hs1 =>
      have h2 : s2.MemOk := SomeAll.of_eq (P := MemOk) hs1 (keeps_chargePages h1)
      exact OkAll.bind (memOk_mapFor h2) (fun _ h3 => OkAll.bind (memOk_threadPages h3) (fun _ h4 => memOk_installPair h4))
    · exact .error
  · exact .error
theorem memOk_admitCells {x ptbase shadow l j ts} : OkAll MemOk (admitCells x ptbase shadow l j ts s) := by
  induction l generalizing s j ts with
  | nil => exact .ok h
  | cons k ks ih =>
    unfold admitCells
    exact OkAll.bind (memOk_admitCell (memOk_tick h)) (fun _ h1 => ih h1)
theorem memOk_markStart {t} : (markStart t s).MemOk := by
  unfold markStart
  refine memOk_modTask ?_
  exact h
theorem memOk_openLaunch {x} : OkAll MemOk (openLaunch x s) := by
  unfold openLaunch
  refine okAll_guard (fun _ => ?_)
  refine OkAll.bind (P := MemOk) ?_ fun s1 h1 => ?_
  · refine okAll_ite (.ok (memOk_markStart (memOk_modModule (memOk_latchCapacity h)))) ?_
    split
    next s1 _ hs1 =>
      have h1 : s1.MemOk := SomeAll.of_eq (P := FstOk) hs1 (memOk_openView
        (memOk_markStart (memOk_modModule (memOk_latchCapacity h))))
      exact .ok (memOk_modTask h1)
    · exact .error
  · split
    next s2 _ hs1 =>
      have h2 : s2.MemOk := OkAll.of_eq (P := FstOk) hs1 (memOk_childArena h1)
      exact .ok (memOk_modTask h2)
    · exact .error
theorem memOk_finishFailed {t} : (finishFailed t s).MemOk := by
  unfold finishFailed
  split
  · exact h
  · exact memOk_ite h (memOk_endTask (memOk_modTask (memOk_ite h (memOk_discardView h))))
theorem memOk_failLaunch {t code} : (failLaunch t code s).MemOk := memOk_finishFailed (memOk_failTask _ _ _ _ h)
theorem memOk_admitLaunch {x p} : OkAll MemOk (admitLaunch x p s) := by
  unfold admitLaunch
  refine okAll_ite ?_ ?_
  · refine OkAll.bind (memOk_openLaunch h) (fun s1 h1 => ?_)
    dsimp only
    split
    · split
      · exact okAll_ite .error .error
      · exact OkAll.bind (memOk_admitCells h1) (fun s2 h2 => .ok
          (memOk_movePointer (memOk_when (memOk_modTask h2) (fun h3 => memOk_setTaskState h3))))
    · exact .error
  · refine OkAll.bind (.ok h) (fun s1 h1 => ?_)
    dsimp only
    split
    · split
      · exact okAll_ite .error .error
      · exact OkAll.bind (memOk_admitCells h1) (fun s2 h2 => .ok
          (memOk_movePointer (memOk_when (memOk_modTask h2) (fun h4 => memOk_setTaskState h4))))
    · exact .error
theorem nextOk_execCellAdmission {p} : NextOk (execCellAdmission p s) := by
  unfold execCellAdmission
  refine .next ?_
  split
  · exact h
  · refine memOk_ite h ?_
    split
    next s1 hs1 =>
      have h1 : s1.MemOk := OkAll.of_eq (P := MemOk) hs1 (memOk_admitLaunch h)
      exact h1
    · exact h
    · exact memOk_ite (memOk_failNow h) (memOk_failLaunch h)
theorem memOk_followPalette {n old k} : (followPalette n old k s).MemOk :=
  memOk_ite h (memOk_ite (memOk_ite (memOk_requestRollback (memOk_tick (memOk_ite (memOk_savePalette h) h)))
    (memOk_failTask _ _ _ _ (memOk_tick (memOk_ite (memOk_savePalette h) h))))
    (memOk_loadPalette (memOk_changeOwner (memOk_tick (memOk_ite (memOk_savePalette h) h)))))
theorem memOk_comeTo {n k place} (hp : ∀ s, s.MemOk → (place s).MemOk) : SomeAll MemOk (comeTo n k place s) := by
  unfold comeTo
  dsimp only
  split
  next s1 hs1 =>
    have h1 : s1.MemOk := OkAll.of_eq (P := MemOk) hs1 (memOk_chargePalette h)
    exact .some (hp _ h1)
  · exact .none
  · exact .some (memOk_failTask _ _ _ _ h)
theorem memOk_restoreOne {n k f} (hf : ∀ s, s.MemOk → (f s).MemOk) : SomeAll MemOk (restoreOne n k f s) := by
  unfold restoreOne
  exact memOk_comeTo h (fun _ h1 => hf _ (memOk_placeCell (memOk_followPalette h1)))
theorem memOk_restoreAll {l} : SomeAll MemOk (restoreAll l s) := by
  induction l generalizing s with
  | nil => exact .some h
  | cons x r ih =>
    unfold restoreAll
    exact SomeAll.bind_any (fun _ => SomeAll.bind (memOk_restoreOne h (fun s1 h1 => memOk_id h1)) (fun s1 h1 => ih h1))
theorem nextOk_execPreemptCell {n} : NextOk (execPreemptCell n s) :=
  .next (memOk_ite (foldl_keeps (P := MemOk) (fun _ _ h1 => memOk_saveCell h1) _ h) h)
theorem nextOk_execRestoreCell {n k} : NextOk (execRestoreCell n k s) := by
  unfold execRestoreCell
  refine .next ?_
  split
  · exact h
  · refine memOk_ite h ?_
    refine memOk_ite (memOk_failLaunch h) ?_
    refine memOk_ite h ?_
    split
    next s1 hs1 =>
      have h1 : s1.MemOk := SomeAll.of_eq (P := MemOk) hs1 (memOk_restoreAll h)
      exact memOk_movePointer h1
    · exact h
theorem memOk_answerFork {n leader dst x} : (answerFork n leader dst x s).MemOk := by
  unfold answerFork
  dsimp only
  split
  · exact h
  · exact memOk_complete (memOk_modGroup h)
theorem memOk_makeClone {n m f k v} : (makeClone n m f k v s).MemOk := by
  unfold makeClone
  refine memOk_answerFork ?_
  exact h
theorem memOk_makeClones {n f l k} : (makeClones n f l k s).MemOk := by
  induction l generalizing s k with
  | nil => exact h
  | cons x r ih =>
    unfold makeClones
    exact ih (memOk_makeClone h)
theorem memOk_takeFork {n f} : (takeFork n f s).MemOk := memOk_makeClones (memOk_stowCell h)
theorem memOk_placeClone {n k} : (placeClone n k s).MemOk := by
  unfold placeClone
  refine memOk_ite h ?_
  split
  · exact h
  · exact memOk_failTask _ _ _ _ h
  next s1 hs1 =>
    have h1 : s1.MemOk := OkAll.of_eq (P := MemOk) hs1 (memOk_giveArea h)
    exact memOk_getD (memOk_comeTo h1 (fun _ h2 => memOk_placeCell h2)) h
theorem nextOk_execRivalAdmission {n k} : NextOk (execRivalAdmission n k s) := by
  unfold execRivalAdmission
  refine .next ?_
  split
  · refine memOk_ite h ?_
    dsimp only
    split
    · exact memOk_placeClone (memOk_takeFork h)
    · exact memOk_takeFork h
  · exact memOk_ite (memOk_placeClone h) h
theorem nextOk_execWorldParentRestore {n k} : NextOk (execWorldParentRestore n k s) := by
  unfold execWorldParentRestore
  refine .next ?_
  split
  · exact memOk_ite (memOk_getD (memOk_restoreOne h (fun _ h1 => memOk_answerFork h1)) h) h
  · exact h
theorem memOk_dropView {v} : (dropView v s).MemOk := memOk_discardView
  (foldl_keeps (P := MemOk) (fun _ _ h1 => memOk_removeCell h1) _ h)
theorem memOk_abortWorld {n} : (abortWorld n s).MemOk := by
  unfold abortWorld
  split
  · exact memOk_ite h (memOk_modCell (foldl_keeps (P := MemOk) (fun _ _ h1 => memOk_dropView h1) _ h))
  · exact h
theorem memOk_endRival {n} : (endRival n s).MemOk := by
  have h1 : (abortWorld n (releaseCell n s)).MemOk := memOk_abortWorld (memOk_releaseCell h)
  unfold endRival
  refine memOk_removeCell ?_
  exact h1
theorem memOk_dropCellRegions {c} : (dropCellRegions c s).MemOk := memOk_modCtx h
theorem memOk_freeSaveArea {c} : (freeSaveArea c s).MemOk := by
  unfold freeSaveArea
  dsimp only
  refine memOk_finishShoot ?_
  refine memOk_startShoot ?_
  refine foldl_keeps (P := MemOk) (fun _ _ h1 => ?_) _ (memOk_dropCellRegions (memOk_subCharge _ _ h))
  split
  · exact memOk_setLeafAt _ _ h1
  · exact h1
theorem memOk_leaveArea {n} : (leaveArea n s).MemOk := memOk_modCell (memOk_freeSaveArea h)
theorem memOk_commitNow {v} : (commitNow v s).MemOk := by
  unfold commitNow
  dsimp only
  exact foldl_keeps (P := MemOk) (fun _ _ h1 => memOk_finishShoot h1) _ (memOk_commitView (memOk_modView h))
theorem memOk_taskDone {x} : (taskDone x s).MemOk := memOk_endTask (memOk_ite h (memOk_modTask (memOk_commitNow h)))
theorem memOk_countRetired {t} : (countRetired t s).MemOk := by
  unfold countRetired
  dsimp only
  split
  · exact memOk_when (memOk_modTask h) (fun h1 => memOk_taskDone h1)
  · exact memOk_modTask h
theorem memOk_awaitCompare {n} : (awaitCompare n s).MemOk := memOk_modCell (memOk_leaveStudio h)
theorem memOk_retireCell {n} : (retireCell n s).MemOk := by
  unfold retireCell
  dsimp only
  split
  · split
    · exact memOk_awaitCompare (memOk_dropCellRegions (memOk_commitNow (memOk_abortWorld (memOk_releaseCell h))))
    · exact memOk_countRetired (memOk_removeCell (memOk_leaveArea (memOk_commitNow (memOk_abortWorld (memOk_releaseCell h)))))
  · split
    · exact memOk_awaitCompare (memOk_discardView (memOk_abortWorld (memOk_releaseCell h)))
    · exact memOk_removeCell (memOk_discardView (memOk_abortWorld (memOk_releaseCell h)))
  · exact memOk_countRetired (memOk_removeCell (memOk_leaveArea (memOk_abortWorld (memOk_releaseCell h))))
theorem memOk_dropCell {n} : (dropCell n s).MemOk := by
  unfold dropCell
  refine memOk_finishFailed ?_
  refine memOk_removeCell ?_
  refine memOk_ite ?_ ?_
  · refine memOk_ite ?_ ?_
    · refine memOk_dropView ?_
      split
      · exact foldl_keeps (P := MemOk) (fun s1 _ h1 => memOk_discardView h1) _ (memOk_abortWorld h)
      · exact memOk_abortWorld h
    · split
      · exact foldl_keeps (P := MemOk) (fun s1 _ h1 => memOk_discardView h1) _ (memOk_abortWorld h)
      · exact memOk_abortWorld h
  · refine memOk_leaveArea ?_
    refine memOk_ite ?_ ?_
    · refine memOk_dropView ?_
      split
      · exact foldl_keeps (P := MemOk) (fun s1 _ h1 => memOk_discardView h1) _ (memOk_abortWorld h)
      · exact memOk_abortWorld h
    · split
      · exact foldl_keeps (P := MemOk) (fun s1 _ h1 => memOk_discardView h1) _ (memOk_abortWorld h)
      · exact memOk_abortWorld h
theorem nextOk_execCellRetirement {n} : NextOk (execCellRetirement n s) := by
  unfold execCellRetirement
  refine .next ?_
  refine memOk_ite h ?_
  refine memOk_ite (memOk_dropCell h) ?_
  refine memOk_ite h ?_
  refine memOk_ite (memOk_endRival h) ?_
  refine memOk_ite h ?_
  refine memOk_ite ?_ (memOk_ite (memOk_ite (memOk_ite (memOk_requestRollback (memOk_modCell h))
    (memOk_failTask _ _ _ _ (memOk_modCell h))) (memOk_retireCell h)) h)
  split
  · exact memOk_countRetired (memOk_removeCell (memOk_leaveArea h))
  · exact h
end
end Sys2Proof.Machine
end

section
/-! SUPPORT. Memory stays canonical: recovery, checkpoints and resets. -/
namespace Sys2Proof.Machine
open Sys2Proof State

section
variable {s : State} (h : s.MemOk)
include h

theorem memOk_removeCells {t} : (removeCells t s).MemOk :=
  foldl_keeps (P := MemOk) (fun _ ⟨_, _⟩ h1 => memOk_removeCell (memOk_ite h1 (memOk_leaveArea h1))) _ h
theorem memOk_dropTaskArenas {t} : (dropTaskArenas t s).MemOk :=
  foldl_keeps (P := MemOk) (fun _ _ h1 => memOk_ite (memOk_dropTree h1) h1) _ h
theorem memOk_dropTaskViews {x} : (dropTaskViews x s).MemOk :=
  memOk_when (foldl_keeps (P := MemOk) (fun _ _ h1 => memOk_ite h1 (memOk_discardView h1)) _ h) (fun h2 => memOk_discardView h2)
theorem memOk_rollBack {x code} : (rollBack x code s).MemOk :=
  memOk_ite (memOk_failNow (memOk_modTask (memOk_journalCtl
    (memOk_report (memOk_dropTaskArenas (memOk_dropPt (memOk_removeCells (memOk_dropTaskViews h))))))))
    (memOk_setTaskState (memOk_modTask (memOk_journalCtl (memOk_report
    (memOk_dropTaskArenas (memOk_dropPt (memOk_removeCells (memOk_dropTaskViews h))))))))
theorem nextOk_execRollback {t} : NextOk (execRollback t s) := by
  unfold execRollback
  refine .next ?_
  split
  · split
    · exact memOk_ite h (memOk_rollBack h)
    · exact h
  · exact h
theorem nextOk_execShadowCompare {a b} : NextOk (execShadowCompare a b s) := by
  unfold execShadowCompare
  refine .next ?_
  split
  · exact memOk_ite h (memOk_ite (memOk_countRetired (memOk_removeCell (memOk_leaveArea (memOk_removeCell (memOk_modCtx h)))))
      (memOk_ite (memOk_requestRollback (memOk_callTest (memOk_callTest
      (memOk_modCtx (memOk_report (memOk_removeCell (memOk_modCtx h)))))))
      (memOk_countRetired (memOk_removeCell (memOk_leaveArea
      (memOk_callTest (memOk_callTest (memOk_modCtx (memOk_report (memOk_removeCell (memOk_modCtx h)))))))))))
  · exact h
theorem nextOk_execCkptPrepareAck {c d} : NextOk (execCkptPrepareAck c d s) := by
  unfold execCkptPrepareAck
  refine .next ?_
  split
  · refine memOk_ite h ?_
    exact h
  · exact h
theorem memOk_storeSeal {c n l dg} : (storeSeal c n l dg s).MemOk := foldl_keeps (P := MemOk)
  (fun _ _ h1 => memOk_modGesso h1) _ h
theorem memOk_trimJournals {c prev} : (trimJournals c prev s).MemOk := foldl_keeps (P := MemOk)
  (fun _ _ h1 => memOk_modGesso h1) _ h
theorem memOk_answerAll {q x} : (answerAll q x s).MemOk :=
  foldl_keeps (P := MemOk) (fun _ ⟨_, _⟩ h1 => foldl_keeps (P := MemOk)
    (fun _ ⟨_, _⟩ h2 => foldl_keeps (P := MemOk) (fun _ _ h3 => memOk_complete h3) _ (memOk_modGroup h2)) _ h1) _ h
theorem memOk_answerCkpt {c x} : (answerCkpt c x s).MemOk := memOk_answerAll h
theorem memOk_noteTorn {c} : (noteTorn c s).MemOk := memOk_report h
theorem nextOk_execCkptSeal {c} : NextOk (execCkptSeal c s) := by
  unfold execCkptSeal
  refine .next ?_
  split
  · exact h
  · refine memOk_ite h ?_
    refine memOk_ite ?_ ?_
    · refine memOk_answerCkpt ?_
      refine memOk_settleHeld ?_
      refine memOk_modCtx ?_
      refine memOk_trimJournals ?_
      exact memOk_ite h (memOk_storeSeal h)
    · refine memOk_answerCkpt ?_
      refine memOk_noteTorn ?_
      refine memOk_modCtx ?_
      exact memOk_ite h (memOk_storeSeal h)
theorem memOk_forget {gone} : (forget gone s).MemOk := by
  unfold forget
  exact h
theorem memOk_undoLines {c} : (undoLines c s).MemOk := by
  unfold undoLines
  refine foldl_keeps (P := MemOk) (fun s1 _ h1 => ?_) _ ?_
  · refine foldl_keeps (P := MemOk) (fun s2 _ h2 => memOk_forget ?_) _ h1
    exact foldl_keeps (P := fun m => Memory.wf m = true) (fun _ _ hm => Memory.wf_put _ _ hm) _ h2
  · exact h
theorem memOk_failRunning {c code} : (failRunning c code s).MemOk :=
  foldl_keeps (P := MemOk) (fun _ _ h1 => memOk_finishFailed
    (memOk_modTask (memOk_removeCells (memOk_dropTaskViews (memOk_failTask _ _ _ _ h1))))) _ h
theorem memOk_dropLateArenas {c} : (dropLateArenas c s).MemOk :=
  foldl_keeps (P := MemOk) (fun _ _ h1 => memOk_ite (memOk_dropTree h1) h1) _ h
theorem memOk_resetHeads {c} : OkAll MemOk (resetHeads c s) := by
  unfold resetHeads
  refine okAll_foldlM (fun _ _ h1 => ?_) _ h
  split
  next s2 _ hs1 =>
    have h2 : s2.MemOk := OkAll.of_eq (P := FstOk) hs1 (memOk_agentRead h1)
    exact .ok (memOk_setHead h2)
  · exact okAll_ite .error (.ok h1)
theorem memOk_submitReplay {c} : OkAll MemOk (submitReplay c s) := by
  unfold submitReplay
  refine okAll_ite (.ok h) ?_
  refine OkAll.bind (memOk_readLaunch h) (fun ⟨_, _⟩ h1 => ?_)
  refine .ok ?_
  refine memOk_ite ?_ ?_
  · refine memOk_failNow ?_
    exact h1
  · refine memOk_settleDeps ?_
    refine memOk_setTaskState ?_
    exact h1
theorem memOk_retakeEntries {c} : (retakeEntries c s).MemOk :=
  foldl_keeps (P := MemOk) (fun _ _ h1 => memOk_ite (memOk_disableQueue h1)
    (memOk_ite h1 (memOk_ite (memOk_takeAll h1) (memOk_kick h1)))) _ h
theorem memOk_rejoin {c} : (rejoin c s).MemOk := by
  unfold rejoin
  split
  next s1 hs1 =>
    have h1 : s1.MemOk := OkAll.of_eq (P := MemOk) hs1 (OkAll.bind (memOk_resetHeads h) (fun _ h1 => memOk_submitReplay h1))
    exact memOk_retakeEntries (memOk_modCtx h1)
  · exact memOk_modCtx h
theorem memOk_tearCkpt {c} : (tearCkpt c s).MemOk := by
  unfold tearCkpt
  refine memOk_ite ?_ (memOk_modCtx h)
  refine memOk_noteTorn ?_
  exact h
theorem memOk_recoverCtx {c} : (recoverCtx c s).MemOk :=
  memOk_rejoin (memOk_tearCkpt (memOk_failRunning (memOk_dropLateArenas (memOk_undoLines h))))
theorem nextOk_execRecovery {c} : NextOk (execRecovery c s) := .next
  (memOk_ite h (memOk_ite (memOk_rejoin h) (memOk_recoverCtx h)))
theorem memOk_engStatus {e i code} : (engStatus e i code s).MemOk := memOk_putHeld h
theorem memOk_dropWorking {c cmd} : (dropWorking c cmd s).MemOk := by
  unfold dropWorking
  split
  · exact memOk_ite h (memOk_dropTree h)
  · exact h
theorem memOk_endCommand {e code} : (endCommand e code s).MemOk := by
  unfold endCommand
  dsimp only
  split
  · exact h
  · exact memOk_modEngine (memOk_engStatus h)
theorem memOk_resetEngine {e code} : (resetEngine e code s).MemOk := by
  unfold resetEngine
  refine memOk_modEngine ?_
  split
  · exact memOk_dropWorking (memOk_endCommand h)
  · exact memOk_endCommand h
theorem memOk_flushDie {d} : (flushDie d s).1.MemOk := by
  unfold flushDie
  refine foldl_keeps (P := FstOk) (fun ⟨_, _⟩ _ h1 => ?_) _ h
  refine memOk_evict ?_
  exact h1
theorem memOk_ackUnit {u} : (ackUnit u s).MemOk := by
  unfold ackUnit
  refine foldl_keeps (P := MemOk) (fun _ _ h1 => ?_) _ ?_
  · split
    · exact memOk_ackShoot h1
    · exact h1
  · exact h
theorem memOk_reloadUnit {u} : (reloadUnit u s).MemOk := by
  unfold reloadUnit
  exact h
theorem memOk_losePackets {d} : (losePackets d s).MemOk := by
  unfold losePackets
  exact h
theorem memOk_loseRounds {d} : (loseRounds d s).MemOk := by
  unfold loseRounds
  refine foldl_keeps (P := MemOk) (fun _ _ h1 => ?_) _ h
  split
  · exact h1
  · exact memOk_unless (memOk_modBrush h1) (fun h2 => memOk_modStudio h2)
theorem memOk_resetDie {d} : (resetDie d s).MemOk := by
  unfold resetDie
  refine foldl_keeps (P := MemOk) (fun s1 _ h1 => memOk_resetEngine h1) _ ?_
  refine foldl_keeps (P := MemOk) (fun s1 _ h1 => memOk_reloadUnit (memOk_ackUnit h1)) _ ?_
  refine memOk_loseRounds ?_
  refine memOk_losePackets ?_
  exact h
theorem memOk_testDie {d} : (testDie d s).MemOk := foldl_keeps (P := MemOk) (fun _ _ h1 => memOk_callTest h1) _ h
theorem nextOk_execContainmentReset {d} : NextOk (execContainmentReset d s) := by
  unfold execContainmentReset
  refine .next ?_
  refine memOk_ite h ?_
  dsimp only
  refine memOk_testDie ?_
  refine foldl_keeps (P := MemOk) (fun _ _ h1 => memOk_ite (memOk_recoverCtx h1) (memOk_failRunning h1)) _ ?_
  refine memOk_resetDie ?_
  exact memOk_flushDie h
theorem nextOk_execErrorReport {u corrected} : NextOk (execErrorReport u corrected s) := .next (memOk_ite (memOk_countError h) h)
theorem memOk_clearUnit {u} : SomeAll MemOk (clearUnit u s) := by
  unfold clearUnit
  split
  · exact someAll_ite (.some (foldl_keeps (P := MemOk) (fun _ _ h1 => memOk_saveCell h1) _ h)) .none
  · exact .some (memOk_flushSlice h)
  · exact .some h
theorem memOk_testMade {u x} : (testMade u x s).MemOk := memOk_answerAll (memOk_modModule h)
theorem nextOk_execSelfTest {u pass} : NextOk (execSelfTest u pass s) := by
  unfold execSelfTest
  refine .next ?_
  refine memOk_ite h ?_
  refine memOk_ite (memOk_testMade h) ?_
  split
  next s1 hs1 =>
    have h1 : s1.MemOk := SomeAll.of_eq (P := MemOk) hs1 (memOk_clearUnit h)
    exact memOk_testMade (memOk_ite h1 (memOk_retireUnit h1))
  · exact h
end
end Sys2Proof.Machine
end

section
/-! SUPPORT. Memory stays canonical: the module and its engines. -/
namespace Sys2Proof.Machine
open Sys2Proof State

section
variable {s : State} (h : s.MemOk)
include h

theorem nextOk_execLifecycleTransition {target signed} : NextOk (execLifecycleTransition target signed s) :=
  .next (memOk_ite (memOk_modModule h) h)
theorem nextOk_execModuleReset {image} : NextOk (execModuleReset image s) := .next (Memory.wf_filter _ h)
theorem nextOk_execFeatAcceptWrite {v} : NextOk (execFeatAcceptWrite v s) := .next (memOk_writeFeat h)
theorem memOk_putAttest {at' bs} : (putAttest at' bs s).MemOk := memOk_modModule h
theorem nextOk_execAttestRequest {nonce} : NextOk (execAttestRequest nonce s) := .next (memOk_ite (memOk_putAttest h) h)
theorem nextOk_execAttestReport : NextOk (execAttestReport s) :=
  .next (memOk_ite h (memOk_ite (memOk_putAttest h) (memOk_ite h (memOk_putAttest (memOk_putAttest h)))))
theorem nextOk_execPowerWrite {x} : NextOk (execPowerWrite x s) := .next (memOk_writePower h)
theorem nextOk_execPowerCapStepdown : NextOk (execPowerCapStepdown s) := .next (memOk_ite h (memOk_modModule h))
theorem nextOk_execEngineReset {e} : NextOk (execEngineReset e s) := .next (memOk_ite (memOk_resetEngine h) h)
theorem nextOk_execEngtailWrite {e v} : NextOk (execEngtailWrite e v s) := .next (memOk_ite (memOk_writeTail h) h)
theorem memOk_getStream {e cmd} : OkAll FstOk (getStream e cmd s) :=
  okAll_ite (.ok h) (OkAll.bind (memOk_agentRead (memOk_tick h)) (fun ⟨_, _⟩ h1 => .ok (memOk_modEngine h1)))
theorem nextOk_execEngineTakeCommand {e} : NextOk (execEngineTakeCommand e s) := by
  unfold execEngineTakeCommand
  refine .next ?_
  refine memOk_ite h ?_
  dsimp only
  split
  · exact memOk_ite h (memOk_resetEngine (memOk_modEngine h))
  next s1 _ hs1 =>
    have h1 : s1.MemOk := OkAll.of_eq (P := FstOk) hs1 (memOk_agentRead h)
    refine memOk_ite (memOk_endCommand (memOk_modEngine h1)) ?_
    split
    · exact memOk_ite h (memOk_resetEngine (memOk_modEngine h1))
    next s2 _ hs2 =>
      have h2 : s2.MemOk := OkAll.of_eq (P := FstOk) hs2 (memOk_getStream (memOk_modEngine h1))
      exact memOk_ite h2 (memOk_endCommand h2)
theorem memOk_handOff {g cmd r} : (handOff g cmd r s).1.MemOk := by
  unfold handOff
  split
  · exact h
  next s1 _ hs1 =>
    have h1 : s1.MemOk := OkAll.of_eq (P := FstOk) hs1 (memOk_agentSw h)
    split
    · exact h1
    next s2 _ hs2 =>
      have h2 : s2.MemOk := OkAll.of_eq (P := FstOk) hs2 (memOk_agentSw h1)
      exact h2
theorem memOk_putStream {e cmd} : OkAll MemOk (putStream e cmd s) :=
  okAll_ite (.ok h) (OkAll.map (P := MemOk) (memOk_agentWrite (memOk_tick (memOk_tick h))) (fun _ h1 => memOk_modEngine h1))
theorem memOk_makeRow {e n cmd} : OkAll FstOk (makeRow e n cmd s) :=
  OkAll.bind (memOk_getStream h) (fun ⟨_, _⟩ h1 => okAll_ite (.ok h1)
    (OkAll.bind (memOk_agentWrite (memOk_tick h1)) (fun _ h2 => OkAll.bind (memOk_putStream h2) (fun _ h3 => .ok h3))))
theorem nextOk_execCodecRow {e n last} : NextOk (execCodecRow e n last s) := by
  unfold execCodecRow
  refine .next ?_
  split
  · exact h
  · refine memOk_ite h ?_
    split
    · exact memOk_ite h (memOk_resetEngine h)
    next s1 hs1 =>
      have h1 : s1.MemOk := OkAll.of_eq (P := FstOk) hs1 (memOk_makeRow h)
      exact memOk_endCommand h1
    next s1 hs1 =>
      have h1 : s1.MemOk := OkAll.of_eq (P := FstOk) hs1 (memOk_makeRow h)
      refine memOk_ite (memOk_modEngine h1) ?_
      split
      next s2 _ hs2 =>
        have h2 : s2.MemOk := FstOk.of_eq hs2 (memOk_handOff h1)
        exact memOk_modEngine h2
      next s2 _ hs2 =>
        have h2 : s2.MemOk := FstOk.of_eq hs2 (memOk_handOff h1)
        exact memOk_ite h (memOk_resetEngine h2)
theorem nextOk_execCodecHandoffResume {e} : NextOk (execCodecHandoffResume e s) := by
  unfold execCodecHandoffResume
  refine .next ?_
  split
  · exact h
  · refine memOk_ite h ?_
    split
    · exact memOk_ite h (memOk_resetEngine h)
    next s1 _ hs1 =>
      have h1 : s1.MemOk := OkAll.of_eq (P := FstOk) hs1 (memOk_agentRead h)
      refine memOk_ite h1 ?_
      split
      · exact memOk_ite h (memOk_resetEngine (memOk_learnDrops _ h1))
      next s2 _ hs2 =>
        have h2 : s2.MemOk := OkAll.of_eq (P := FstOk) hs2 (memOk_agentRead (memOk_learnDrops _ h1))
        exact memOk_modEngine h2
theorem nextOk_execEngineTimeout {e} : NextOk (execEngineTimeout e s) := .next (memOk_ite (memOk_resetEngine h) h)
theorem nextOk_execEngineCommandEnd {e status} : NextOk (execEngineCommandEnd e status s) := by
  unfold execEngineCommandEnd
  refine .next ?_
  split
  · exact h
  · refine memOk_ite h ?_
    refine memOk_ite (memOk_resetEngine h) ?_
    refine memOk_ite h ?_
    split
    · exact memOk_ite h (memOk_resetEngine h)
    next s1 _ hs1 =>
      have h1 : s1.MemOk := OkAll.of_eq (P := FstOk) hs1 (memOk_getStream h)
      exact memOk_ite (memOk_endCommand h1) (memOk_ite (memOk_endCommand h1) h)
theorem memOk_outsideAccess {off write bytes} : (outsideAccess off write bytes s).MemOk :=
  memOk_ite h (memOk_ite (memOk_homePut h) (memOk_homeRead h))
theorem memOk_ownStore {k off write bytes} : (ownStore k off write bytes s).MemOk := memOk_ite h (memOk_setBytes _ _ h)
theorem nextOk_execHostBar2Access {off write bytes} : NextOk (execHostBar2Access off write bytes s) :=
  .next (memOk_ite (memOk_ownStore h) (memOk_ite h (memOk_when (memOk_outsideAccess h) (fun h1 => memOk_noteTails h1))))
theorem nextOk_execPeerAccess {off write bytes} : NextOk (execPeerAccess off write bytes s) :=
  .next (memOk_ite (memOk_ownStore h) (memOk_ite h (memOk_outsideAccess
    (foldl_keeps (P := MemOk) (fun _ _ h1 => memOk_remoteScope _ h1) _ h))))
theorem nextOk_execPeerUnreachable {m} : NextOk (execPeerUnreachable m s) := .next (memOk_ite (memOk_modModule h) h)
theorem nextOk_execRegisterWrite {off v} : NextOk (execRegisterWrite off v s) := .next (memOk_ite (memOk_regStore h) h)
theorem memOk_writeQueues {c} : (writeQueues c s).MemOk := foldl_keeps (P := MemOk) (fun _ _ h1 => memOk_homePut h1) _ h
theorem memOk_newCrown {c} : (newCrown c s).MemOk := memOk_newArena h
theorem memOk_changeCtx {c} : (changeCtx c s).MemOk := memOk_when (memOk_modCtx h) (fun h1 => memOk_newCrown h1)
theorem nextOk_execContextCreation {c} : NextOk (execContextCreation c s) := by
  unfold execContextCreation
  refine .next ?_
  refine memOk_ite ?_ (memOk_ite (memOk_changeCtx h) h)
  refine memOk_writeQueues ?_
  refine memOk_newCrown ?_
  exact h
theorem memOk_removeContextCells {c : Nat} : ((s.cells.filter fun x => x.2.ctx == c).foldl (fun s x => removeCell x.1 s) s).MemOk :=
  foldl_keeps (P := MemOk) (fun _ _ h1 => memOk_removeCell h1) _ h
theorem memOk_discardOpenViews {vs : List Nat} : (vs.foldl (fun s v => if (s.view v).state = 0 then s else discardView 8 v s) s).MemOk :=
  foldl_keeps (P := MemOk) (fun _ _ h1 => memOk_ite h1 (memOk_discardView h1)) _ h
theorem memOk_dropLiveArenas {as : List Nat} :
    (as.foldl (fun s a => if (s.arena a).state = 1 ∨ (s.arena a).state = 2 then (dropTree a [] s).1 else s) s).MemOk :=
  foldl_keeps (P := MemOk) (fun _ _ h1 => memOk_ite (memOk_dropTree h1) h1) _ h
theorem memOk_freeFrames {fs : List Nat} : (fs.foldl (fun s f => s.freeFrame f) s).MemOk :=
  foldl_keeps (P := MemOk) (fun _ _ h1 => memOk_freeFrame _ h1) _ h
theorem nextOk_execContextEnd {c} : NextOk (execContextEnd c s) := by
  unfold execContextEnd
  refine .next (memOk_ite h ?_)
  extract_lets s1 vs s2 crowns s3 s4 s5
  have h1 : s1.MemOk := memOk_removeContextCells h
  have h2 : s2.MemOk := memOk_discardOpenViews h1
  have h3 : s3.MemOk := memOk_dropLiveArenas h2
  have h5 : s5.MemOk := memOk_freeFrames (memOk_settleDrops h3)
  exact h5
end
end Sys2Proof.Machine
end

section
/-! SUPPORT. Memory stays canonical: integer arithmetic. -/
namespace Sys2Proof.Machine
open Sys2Proof State

section
variable {s : State} (h : s.MemOk)
include h

theorem nextOk_alu {i o t f} : NextOk (alu i o t s f) := by
  unfold alu
  exact nextOk_issueOk h (fun _ h1 => memOk_apply h1)
theorem nextOk_intAlu {i o f} : NextOk (intAlu i o s f) := nextOk_alu h
theorem nextOk_execNop {o} : NextOk (execNop o s) := nextOk_issueOk h (fun _ h1 => h1)
theorem memOk_movwEffect {o} : (movwEffect o s).MemOk := by
  unfold movwEffect
  split
  · exact memOk_ite h (memOk_modCg _ h)
  · exact foldl_keeps (P := MemOk) (fun s1 _ h1 => memOk_modRun h1) _ h
  · refine foldl_keeps (P := MemOk) (fun s1 _ h1 => ?_) _ h
    split
    · exact memOk_modCc h1
    · exact h1
theorem nextOk_execMovw {o} : NextOk (execMovw o s) := nextOk_issueOk h (fun _ h1 => memOk_movwEffect h1)
theorem memOk_carryEffect {o sum} : (carryEffect o sum s).MemOk :=
  foldl_keeps (P := MemOk) (fun _ ⟨_, _⟩ h1 => memOk_setPredAt (memOk_write h1)) _ h
theorem nextOk_execAddc {o} : NextOk (execAddc o s) := nextOk_issueOk h (fun _ h1 => memOk_carryEffect h1)
theorem nextOk_execSubb {o} : NextOk (execSubb o s) := nextOk_issueOk h (fun _ h1 => memOk_carryEffect h1)
end
end Sys2Proof.Machine
end

section
/-! SUPPORT. Memory stays canonical: lane instructions. -/
namespace Sys2Proof.Machine
open Sys2Proof State

section
variable {s : State} (h : s.MemOk)
include h

theorem nextOk_execLshfl {o} : NextOk (execLshfl o s) := nextOk_issueOk h (fun _ h1 => memOk_apply h1)
theorem nextOk_execLbcast {o} : NextOk (execLbcast o s) := nextOk_issueOk h (fun _ h1 => memOk_apply h1)
theorem nextOk_execLperm {o} : NextOk (execLperm o s) := nextOk_issueOk h (fun _ h1 => memOk_apply h1)
theorem nextOk_execLred {o} : NextOk (execLred o s) := nextOk_issueOk h (fun _ h1 => memOk_apply h1)
theorem nextOk_execLscan {o} : NextOk (execLscan o s) := by
  unfold execLscan
  refine nextOk_issueOk h (fun _ h1 => ?_)
  dsimp only
  exact foldl_keeps (P := MemOk) (fun _ ⟨_, _⟩ h2 => memOk_write h2) _ h1
theorem nextOk_execLmap {o} : NextOk (execLmap o s) := nextOk_issueOk h (fun _ h1 => memOk_apply h1)
end
end Sys2Proof.Machine
end

section
/-! SUPPORT. Memory stays canonical: bit instructions. -/
namespace Sys2Proof.Machine
open Sys2Proof State

section
variable {s : State} (h : s.MemOk)
include h

theorem nextOk_bitAlu {i o f} : NextOk (bitAlu i o s f) := nextOk_alu h
theorem nextOk_shiftAlu {i o f} : NextOk (shiftAlu i o s f) := nextOk_alu h
theorem nextOk_unary {i o f} : NextOk (unary i o s f) := nextOk_alu h
theorem nextOk_execCmp {o} : NextOk (execCmp o s) := nextOk_issueOk h (fun _ h1 => memOk_applyPred h1)
end
end Sys2Proof.Machine
end

section
/-! SUPPORT. Memory stays canonical: predicates. -/
namespace Sys2Proof.Machine
open Sys2Proof State

section
variable {s : State} (h : s.MemOk)
include h

theorem nextOk_predOp {i o f} : NextOk (predOp i o s f) := nextOk_issueOk h (fun _ h1 => memOk_applyPred h1)
theorem nextOk_execVany {o} : NextOk (execVany o s) := nextOk_issueOk h (fun _ h1 => memOk_applyPred h1)
theorem nextOk_execVall {o} : NextOk (execVall o s) := nextOk_issueOk h (fun _ h1 => memOk_applyPred h1)
theorem nextOk_execGtov {o} : NextOk (execGtov o s) := nextOk_issueOk h (fun _ h1 => memOk_applyPred h1)
end
end Sys2Proof.Machine
end

section
/-! SUPPORT. Memory stays canonical: quantisation. -/
namespace Sys2Proof.Machine
open Sys2Proof State

section
variable {s : State} (h : s.MemOk)
include h

theorem memOk_fsclEffect {o} : (fsclEffect o s).MemOk :=
  foldl_keeps (P := MemOk) (fun _ ⟨_, _, _⟩ h1 => memOk_setPredAt (memOk_write h1)) _ h
theorem nextOk_execFscl {o} : NextOk (execFscl o s) := nextOk_issueOk h (fun _ h1 => memOk_fsclEffect h1)
theorem memOk_fqntEffect {o} : (fqntEffect o s).MemOk :=
  foldl_keeps (P := MemOk) (fun _ ⟨_, _, _⟩ h1 => memOk_setPredAt (memOk_write h1)) _ h
theorem nextOk_execFqnt {o} : NextOk (execFqnt o s) := nextOk_issueOk h (fun _ h1 => memOk_fqntEffect h1)
theorem memOk_fdqtEffect {o} : (fdqtEffect o s).MemOk := foldl_keeps (P := MemOk) (fun _ ⟨_, _, _⟩ h1 => memOk_write h1) _ h
theorem nextOk_execFdqt {o} : NextOk (execFdqt o s) := nextOk_issueOk h (fun _ h1 => memOk_fdqtEffect h1)
end
end Sys2Proof.Machine
end

section
/-! SUPPORT. Memory stays canonical: every instruction and event, and a step. -/
namespace Sys2Proof.Machine
open Sys2Proof State

section
variable {s : State} (h : s.MemOk)
include h

/-- One case for each instruction and event, in the order of `exec`. -/
theorem nextOk_exec {i : Instr} : NextOk (exec i s) := by
  unfold exec
  split
  · exact nextOk_execNop h
  · exact nextOk_alu h
  · exact nextOk_alu h
  · exact nextOk_execMovw h
  · exact nextOk_intAlu h
  · exact nextOk_intAlu h
  · exact nextOk_execAddc h
  · exact nextOk_execSubb h
  · exact nextOk_intAlu h
  · exact nextOk_intAlu h
  · exact nextOk_intAlu h
  · exact nextOk_intAlu h
  · exact nextOk_intAlu h
  · exact nextOk_intAlu h
  · exact nextOk_intAlu h
  · exact nextOk_intAlu h
  · exact nextOk_intAlu h
  · exact nextOk_bitAlu h
  · exact nextOk_bitAlu h
  · exact nextOk_bitAlu h
  · exact nextOk_bitAlu h
  · exact nextOk_bitAlu h
  · exact nextOk_shiftAlu h
  · exact nextOk_shiftAlu h
  · exact nextOk_shiftAlu h
  · exact nextOk_shiftAlu h
  · exact nextOk_alu h
  · exact nextOk_alu h
  · exact nextOk_unary h
  · exact nextOk_unary h
  · exact nextOk_unary h
  · exact nextOk_unary h
  · exact nextOk_alu h
  · exact nextOk_execCmp h
  · exact nextOk_alu h
  · exact nextOk_alu h
  · exact nextOk_alu h
  · exact nextOk_alu h
  · exact nextOk_alu h
  · exact nextOk_predOp h
  · exact nextOk_predOp h
  · exact nextOk_predOp h
  · exact nextOk_predOp h
  · exact nextOk_predOp h
  · exact nextOk_alu h
  · exact nextOk_alu h
  · exact nextOk_execVany h
  · exact nextOk_execVall h
  · exact nextOk_alu h
  · exact nextOk_execGtov h
  · exact nextOk_floatArith h
  · exact nextOk_floatArith h
  · exact nextOk_floatArith h
  · exact nextOk_floatArith h
  · exact nextOk_floatOp h
  · exact nextOk_floatOp h
  · exact nextOk_fcmpOp h
  · exact nextOk_execFclass h
  · exact nextOk_floatUnary h
  · exact nextOk_floatUnary h
  · exact nextOk_floatUnary h
  · exact nextOk_floatUnary h
  · exact nextOk_floatUnary h
  · exact nextOk_floatUnary h
  · exact nextOk_floatUnary h
  · exact nextOk_floatUnary h
  · exact nextOk_execXins h
  · exact nextOk_execXgetE h
  · exact nextOk_floatUnary h
  · exact nextOk_convertOp h
  · exact nextOk_execFcvtPk h
  · exact nextOk_execFqnt h
  · exact nextOk_execFdqt h
  · exact nextOk_execFscl h
  · exact nextOk_execFdot2 h
  · exact nextOk_floatArith h
  · exact nextOk_floatArith h
  · exact nextOk_floatArith h
  · exact nextOk_fcmpOp h
  · exact nextOk_convertOp h
  · exact nextOk_floatUnary h
  · exact nextOk_execChld h
  · exact nextOk_execChrun h
  · exact nextOk_execLshfl h
  · exact nextOk_execLperm h
  · exact nextOk_execLbcast h
  · exact nextOk_execLred h
  · exact nextOk_execLscan h
  · exact nextOk_execLmap h
  · exact nextOk_execCvdecl h
  · exact nextOk_execCvsign h
  · exact nextOk_execMfence h
  · exact nextOk_execMzero h
  · exact nextOk_execMma h
  · exact nextOk_execMmar h
  · exact nextOk_execMwait h
  · exact nextOk_execMdrain h
  · exact nextOk_execMread h
  · exact nextOk_execMwrite h
  · exact nextOk_execMcheck h
  · exact nextOk_execMsave h
  · exact nextOk_execMrestore h
  · exact nextOk_execPfill h
  · exact nextOk_execPwait h
  · exact nextOk_execPzapB h
  · exact nextOk_execPzapC h
  · exact nextOk_execLd h
  · exact nextOk_execSt h
  · exact nextOk_execLdc h
  · exact nextOk_execLds h
  · exact nextOk_execSts h
  · exact nextOk_execLdl h
  · exact nextOk_execStl h
  · exact nextOk_execAtom h
  · exact nextOk_execRed h
  · exact nextOk_execPf h
  · exact nextOk_execRqpage h
  · exact nextOk_execCwbL2 h
  · exact nextOk_execCwbMem h
  · exact nextOk_execCinv h
  · exact nextOk_execCpin h
  · exact nextOk_execCunpin h
  · exact nextOk_execIcinv h
  · exact nextOk_execFetchbar h
  · exact nextOk_execFence h
  · exact nextOk_execMonarm h
  · exact nextOk_execMonwait h
  · exact nextOk_execSvbind h
  · exact nextOk_execSvunbind h
  · exact nextOk_execBarinit h
  · exact nextOk_execBararr h
  · exact nextOk_execBarwait h
  · exact nextOk_execBartest h
  · exact nextOk_execBarexp h
  · exact nextOk_execSwinit h
  · exact nextOk_execSwexp h
  · exact nextOk_execSwadd h
  · exact nextOk_execSwwait h
  · exact nextOk_execSwpoll h
  · exact nextOk_execCtrsel h
  · exact nextOk_execCtrrd h
  · exact nextOk_execArnew h
  · exact nextOk_execAralloc h
  · exact nextOk_execArfree h
  · exact nextOk_execArseal h
  · exact nextOk_execArdrop h
  · exact nextOk_execArquery h
  · exact nextOk_execRgset h
  · exact nextOk_execRgclr h
  · exact nextOk_execRgquery h
  · exact nextOk_execForkw h
  · exact nextOk_execWend h
  · exact nextOk_execChoose h
  · exact nextOk_execChooseMin h
  · exact nextOk_execWabort h
  · exact nextOk_execWquery h
  · exact nextOk_execTlaunch h
  · exact nextOk_execTdep h
  · exact nextOk_execTdepGo h
  · exact nextOk_execWorknext h
  · exact nextOk_execQpop h
  · exact nextOk_execRingdecl h
  · exact nextOk_execRingdeclClr h
  · exact nextOk_execRsend h
  · exact nextOk_execRhead h
  · exact nextOk_execLdesc h
  · exact nextOk_execBcopy h
  · exact nextOk_execBstore h
  · exact nextOk_execBmcast h
  · exact nextOk_execBred h
  · exact nextOk_execBr h
  · exact nextOk_execBraAny h
  · exact nextOk_execBraAll h
  · exact nextOk_execBrx h
  · exact nextOk_execCall h
  · exact nextOk_execCalli h
  · exact nextOk_execRet h
  · exact nextOk_execPrio h
  · exact nextOk_execRegroup h
  · exact nextOk_execRegroupRestore h
  · exact nextOk_execExit h
  · exact nextOk_execTrail h
  · exact nextOk_execTrap h
  · exact nextOk_execRte h
  · exact nextOk_execMfsys h
  · exact nextOk_execMtsys h
  · exact nextOk_execSysc h
  · exact nextOk_execErrq h
  · exact nextOk_execCkpt h
  · exact nextOk_execRpset h
  · exact nextOk_execTlbinv h
  · exact nextOk_execPgsplit h
  · exact nextOk_execStest h
  · exact nextOk_execRunDispatch h
  · exact nextOk_execFetchResume h
  · exact nextOk_execLongLatencyComplete h
  · exact nextOk_execHeldAccessResume h
  · exact nextOk_execRegroupMeetingComplete h
  · exact nextOk_execRegroupRestoreComplete h
  · exact nextOk_execEaselCommandStart h
  · exact nextOk_execEaselSlab h
  · exact nextOk_execEaselCommandComplete h
  · exact nextOk_execFillSlab h
  · exact nextOk_execFillComplete h
  · exact nextOk_execWalkPush h
  · exact nextOk_execBrushBurst h
  · exact nextOk_execBrushCommandComplete h
  · exact nextOk_execBmcastHop h
  · exact nextOk_execBredAccept h
  · exact nextOk_execBredRoundComplete h
  · exact nextOk_execRingDelivery h
  · exact nextOk_execRingRetry h
  · exact nextOk_execTorusHop h
  · exact nextOk_execRedMerge h
  · exact nextOk_execCacheEviction h
  · exact nextOk_execDropBroadcastApply h
  · exact nextOk_execSweepComplete h
  · exact nextOk_execSealBroadcastApply h
  · exact nextOk_execTlbShootdownAck h
  · exact nextOk_execRivalAdmission h
  · exact nextOk_execWorldParentRestore h
  · exact nextOk_execKickWrite h
  · exact nextOk_execServeKick h
  · exact nextOk_execReadyRanges h
  · exact nextOk_execMigrationEnd h
  · exact nextOk_execCellAdmission h
  · exact nextOk_execPreemptCell h
  · exact nextOk_execRestoreCell h
  · exact nextOk_execCellRetirement h
  · exact nextOk_execControllerTakeover h
  · exact nextOk_execRollback h
  · exact nextOk_execShadowCompare h
  · exact nextOk_execCkptPrepareAck h
  · exact nextOk_execCkptSeal h
  · exact nextOk_execRecovery h
  · exact nextOk_execContainmentReset h
  · exact nextOk_execErrorReport h
  · exact nextOk_execSelfTest h
  · exact nextOk_execModuleReset h
  · exact nextOk_execLifecycleTransition h
  · exact nextOk_execFeatAcceptWrite h
  · exact nextOk_execAttestRequest h
  · exact nextOk_execAttestReport h
  · exact nextOk_execPowerWrite h
  · exact nextOk_execPowerCapStepdown h
  · exact nextOk_execEngineReset h
  · exact nextOk_execEngtailWrite h
  · exact nextOk_execEngineTakeCommand h
  · exact nextOk_execCodecRow h
  · exact nextOk_execCodecHandoffResume h
  · exact nextOk_execEngineTimeout h
  · exact nextOk_execEngineCommandEnd h
  · exact nextOk_execHostBar2Access h
  · exact nextOk_execPeerAccess h
  · exact nextOk_execPeerUnreachable h
  · exact nextOk_execRegisterWrite h
  · exact nextOk_execArithmeticCycle h
  · exact nextOk_execRunSettled h
  · exact nextOk_execSoftError h
  · exact nextOk_execMigrationBegin h
  · exact nextOk_execContextCreation h
  · exact nextOk_execContextEnd h
  · exact nextOk_execLeafRewrite h
theorem nextOk_perform {m : Move} : NextOk (perform m s) := by
  unfold perform
  split
  · split
    · exact .next h
    next r _ =>
      have h0 : ({ s with cur := r } : State).MemOk := h
      dsimp only
      split
      · exact .next (memOk_raise h0)
      next hs => exact nextOk_exec (OkAll.of_eq (P := FstOk) hs (memOk_decodeStage h0))
  · exact nextOk_ite (nextOk_exec h) (.next h)
theorem nextOk_step : NextOk (step s) := by
  unfold step
  split
  · refine nextOk_perform ?_
    exact h
  · exact nextOk_perform (memOk_tick h)
end
end Sys2Proof.Machine
end

section
open Sys2Proof.Machine Sys2Proof.Machine.State

/-- Settles O57: no function a step reaches builds a memory but by the operations that keep it canonical. -/
theorem everyStepKeepsMemoryCanonical : Obligations.EveryStepKeepsMemoryCanonical := by
  intro s t h ht
  have hn := nextOk_step h
  rw [ht] at hn
  cases hn with
  | next h => exact h
end
